-- ==== Sys2Proof/Word.lean ====
section
/-! DEFINITION. Word.lean: the word types of the A960 (R1, R2, R8) and the flat tables in which the model keeps
numbered things. -/

namespace Sys2Proof

/-- One byte of memory or of a vault. -/
abbrev Byte := BitVec 8

/-- The value bits of one thread register (R123). -/
abbrev Word := BitVec 32

/-- The value bits of a register pair (R42). -/
abbrev Word64 := BitVec 64

/-- A table keyed by number: key and entry pairs, keys strictly rising. -/
abbrev Tab (α : Type) := List (Nat × α)

/-- The low half of a pair. -/
def lo32 (v : Word64) : Word := v.extractLsb' 0 32

/-- The high half of a pair. -/
def hi32 (v : Word64) : Word := v.extractLsb' 32 32

/-- The pair `{hi, lo}` (R8: the first of a brace pair is high). -/
def pair64 (hi lo : Word) : Word64 := hi ++ lo

/-- Bits `[hi:lo]` of a number, as a number (R2). -/
def bitsOf (v hi lo : Nat) : Nat := (v / 2 ^ lo) % 2 ^ (hi + 1 - lo)

/-- One bit of a number. -/
def bitOf (v i : Nat) : Bool := v.testBit i

end Sys2Proof
end

