-- ==== Sys2Proof/Syntax.lean ====
section
/-! DEFINITION. Syntax.lean: the operands and the instructions of the A960, one constructor of `Instr` for each row of
spec/opcode_table.json. Rows 0 to 179 (but for MATRIX_STEP and MATRIX_SET_DISCARD) are what a thread executes; the
others are steps of the device, of its host or of a link partner, and carry what tells one such step from another. -/

namespace Sys2Proof

/-- The head of every format (R26). -/
structure Head where
  sp : Bool
  pn : Bool
  pg : BitVec 3
deriving DecidableEq, Repr, Inhabited

/-- The special registers 240 to 255 (R41). -/
inductive Special where
  | zr | tix | mix | cix | kix | bix | dix | tsz | csz | ksz | bsz | dsz | clk | prio | ctx | jarg
deriving DecidableEq, Repr, Inhabited

/-- What an 8-bit register field names (R40). -/
inductive Reg where
  | x (n : Nat)
  | k (n : Nat)
  | q (n : Nat)
  | s (z : Special)
deriving DecidableEq, Repr, Inhabited

/-- A used source register with its wait bit (R46). -/
structure Src where
  reg : Reg
  wait : Bool
deriving DecidableEq, Repr, Inhabited

/-- Source B, or the immediate that replaces it under `ib` = 1 (R27). -/
inductive OpB where
  | reg (s : Src)
  | imm (v : BitVec 18)
deriving DecidableEq, Repr, Inhabited

/-- Integer width (R48). -/
inductive IWidth where
  | w32 | w64 | w16x2 | w8x4
deriving DecidableEq, Repr, Inhabited

/-- Rounding mode (R70). -/
inductive Rnd where
  | rn | rz | ru | rd
deriving DecidableEq, Repr, Inhabited

/-- Float type of an operation (R49). -/
inductive FTy where
  | f32 | f64 | f16x2 | bf16x2
deriving DecidableEq, Repr, Inhabited

/-- Integer comparison (R137). -/
inductive ICond where
  | eq | ne | lt | le | gt | ge
deriving DecidableEq, Repr, Inhabited

/-- Float comparison (R143). -/
inductive FCond where
  | eq | ne | lt | le | gt | ge | num | nan
deriving DecidableEq, Repr, Inhabited

/-- Type codes of CVT and CVTS (R149). -/
inductive CTy where
  | i8 | n8 | i16 | n16 | i32 | n32 | i64 | n64 | f16 | bf16 | f32 | f64 | e4m3 | e5m2 | e3m2 | e2m3 | e2m1
deriving DecidableEq, Repr, Inhabited

/-- Element types of PACK and UNPK (R150). -/
inductive PTy where
  | f16 | bf16 | e4m3 | e5m2 | e2m1
deriving DecidableEq, Repr, Inhabited

/-- Memory sizes (R50). -/
inductive Size where
  | i8 | n8 | i16 | n16 | b32 | b64 | b128
deriving DecidableEq, Repr, Inhabited

/-- Scopes of ATOMI, FENCE and the acknowledgement levels (R50, R192). -/
inductive Level where
  | cluster | bay | die | domain
deriving DecidableEq, Repr, Inhabited

/-- Atomic operations (R201). -/
inductive AOp where
  | add | min | mins | max | maxs | and | or | xor | xchg | cas | fadd | fmin | fmax
deriving DecidableEq, Repr, Inhabited

/-- Fold operations of REDC and SCAN (R119). -/
inductive ROp where
  | add | add64 | mins | min | maxs | max | and | or | xor | fadd | fmin | fmax
deriving DecidableEq, Repr, Inhabited

/-- Reach of IINV (R172). -/
inductive Reach where
  | core | clu | die | dev
deriving DecidableEq, Repr, Inhabited

/-- Target queue of POST (R350). -/
inductive PostTarget where
  | core | clu | nbr (dx dy : BitVec 4) | bay | die | dev
deriving DecidableEq, Repr, Inhabited

/-! ## Operand records -/

/-- Two-source integer operations (R137). -/
structure IntB where
  h : Head
  w : IWidth
  sgn : Bool
  sat : Bool
  dst : Reg
  a : Src
  b : OpB
deriving DecidableEq, Repr, Inhabited

/-- One-source integer operations (R137). -/
structure IntU where
  h : Head
  w : IWidth
  sgn : Bool
  sat : Bool
  dst : Reg
  a : Src
deriving DecidableEq, Repr, Inhabited

/-- Three-source integer operations (R137). -/
structure IntT where
  h : Head
  w : IWidth
  sgn : Bool
  sat : Bool
  dst : Reg
  a : Src
  b : Src
  c : Src
deriving DecidableEq, Repr, Inhabited

/-- The field operands of BFX (R140). -/
inductive BfxField where
  | regs (pos len : Src)
  | imm (pos : BitVec 6) (len : BitVec 7)
deriving DecidableEq, Repr, Inhabited

/-- The displacement of LEA (R156). -/
inductive LeaDisp where
  | imm (v : BitVec 18)
  | reg (s : Src) (w64 sgn : Bool) (shift : BitVec 2)
deriving DecidableEq, Repr, Inhabited

/-- Two-source float operations (R143). -/
structure FltB where
  h : Head
  ty : FTy
  rnd : Rnd
  fzo : Bool
  clamp : Bool
  dst : Reg
  a : Src
  b : OpB
deriving DecidableEq, Repr, Inhabited

/-- One-source float operations (R143). -/
structure FltU where
  h : Head
  ty : FTy
  rnd : Rnd
  fzo : Bool
  clamp : Bool
  dst : Reg
  a : Src
deriving DecidableEq, Repr, Inhabited

/-- Three-source float operations (R143). -/
structure FltT where
  h : Head
  ty : FTy
  rnd : Rnd
  fzo : Bool
  clamp : Bool
  dst : Reg
  a : Src
  b : Src
  c : Src
deriving DecidableEq, Repr, Inhabited

/-- CVT and CVTS (R149). -/
structure CvtO where
  h : Head
  rnd : Rnd
  fzo : Bool
  sty : CTy
  dty : CTy
  nosat : Bool
  dst : Reg
  a : Src
deriving DecidableEq, Repr, Inhabited

/-- PACK (R150); `c` is unused for f16 and bf16. -/
structure PackO where
  h : Head
  rnd : Rnd
  ty : PTy
  nosat : Bool
  pos : BitVec 2
  dst : Reg
  a : Src
  b : Src
  c : Option Src
deriving DecidableEq, Repr, Inhabited

/-- The operations of a P64 slot (R33). -/
inductive PairOp where
  | mov | iadd | isub | and | or | xor | shl | shr | sar | imin | imax | imul | fadd | fsub | fmul | fmin | fmax
  | fneg | fabs | popc | clz | brev | cvt | fexp2 | frcp | iabs
deriving DecidableEq, Repr, Inhabited

/-- The `s` operand of a P64 slot (R32). -/
inductive PairSrc where
  | reg (s : Src)
  | imm (v : BitVec 8)
deriving DecidableEq, Repr, Inhabited

/-- One slot of a P64 instruction (R32); `wd` is false for unary slots. -/
structure PairSlot where
  op : PairOp
  mdp : BitVec 3
  d : Reg
  wd : Bool
  s : PairSrc
deriving DecidableEq, Repr, Inhabited

/-- One slot of a W96 instruction, as R36 lays it out. `op` is the S64 opcode of a class A operation (R37). -/
structure WideSlot where
  op : BitVec 8
  md : BitVec 4
  dst : BitVec 8
  sa : BitVec 8
  sb : BitVec 8
  sc : BitVec 8
deriving DecidableEq, Repr, Inhabited

/-- VOTE's forms with their destinations (R114, R115). -/
inductive VoteForm where
  | all (pd : BitVec 3)
  | any (pd : BitVec 3)
  | eq (pd : BitVec 3)
  | bal (d : Reg)
deriving DecidableEq, Repr, Inhabited

/-- Cross-thread operand record (R114): width, destination, value, mask. -/
structure XtO where
  h : Head
  w64 : Bool
  dst : Reg
  a : Src
  mask : Src
deriving DecidableEq, Repr, Inhabited

/-- LD and ST (R164). -/
structure MemO where
  h : Head
  size : Size
  reg : Reg
  base : Src
  disp : BitVec 18
  policy : BitVec 2
  hint : BitVec 5
deriving DecidableEq, Repr, Inhabited

/-- LDL and STL (R164). -/
structure MemL where
  h : Head
  size : Size
  reg : Reg
  base : Src
  disp : BitVec 32
  policy : BitVec 2
  hint : BitVec 5
deriving DecidableEq, Repr, Inhabited

/-- CSTR (R169). -/
structure CstrO where
  h : Head
  w64 : Bool
  data : Src
  base : Src
  mask : Src
  cnt : Reg
  keep : BitVec 3
  neg : Bool
  hint : BitVec 5
deriving DecidableEq, Repr, Inhabited

/-- ATOM, ATOMI (R200). -/
structure AtomO where
  h : Head
  op : AOp
  w64 : Bool
  dst : Reg
  base : Src
  v : Src
  scope : Level
  policy : BitVec 2
  hint : BitVec 5
deriving DecidableEq, Repr, Inhabited

/-- ATOMV (R235). -/
structure AtomVO where
  h : Head
  op : AOp
  w64 : Bool
  dst : Reg
  a : Src
  v : Src
deriving DecidableEq, Repr, Inhabited

/-- LDV, STV, STX (R232). -/
structure VaultO where
  h : Head
  size : Size
  reg : Reg
  a : Src
  disp : BitVec 18
deriving DecidableEq, Repr, Inhabited

/-- A named barrier's number and count (R204). -/
inductive BarArg where
  | imm (b : BitVec 6) (cnt : BitVec 12)
  | reg (b cnt : Src)
deriving DecidableEq, Repr, Inhabited

/-- A named barrier's number (R204, BARW). -/
inductive BarNum where
  | imm (b : BitVec 6)
  | reg (b : Src)
deriving DecidableEq, Repr, Inhabited

/-- The lines IINV drops (R172). -/
inductive IinvArg where
  | range (base len : Src)
  | all
deriving DecidableEq, Repr, Inhabited

/-- MMA operands (R283). `sc` is absent under granularity 00. -/
structure MmaO where
  h : Head
  cv : BitVec 4
  bty : BitVec 3
  scale : BitVec 2
  aVault : Bool
  bVault : Bool
  cVault : Bool
  c : Reg
  a : Src
  b : Src
  sc : Option Src
  acc : Bool
  steps : BitVec 5
  size : BitVec 5
deriving DecidableEq, Repr, Inhabited

/-- The source of CHK (R108). -/
inductive ChkSrc where
  | reg (s : Src)
  | pred (p : BitVec 3)
deriving DecidableEq, Repr, Inhabited

/-- The kinds of incoming RDMA request (R406). -/
inductive RdmaOp where
  | send | write | read | fadd | cas
deriving DecidableEq, Repr, Inhabited

/-- The kinds of fabric ingress request (R402, R404). -/
inductive IngressOp where
  | read | write | atomic (op : AOp) (w64 : Bool) (operand : BitVec 128)
deriving DecidableEq, Repr, Inhabited

/-- The queues a card waits in (R352, R353); the number is the core, cluster, bay or die. -/
inductive QKey where
  | core (n : Nat) | clu (n : Nat) | bay (n : Nat) | die (n : Nat)
deriving DecidableEq, Repr, Inhabited

/-- SPDM requests (R399). -/
inductive SpdmReq where
  | getMeasurements
  | keyExchange
  | finish (secret : BitVec 384)
deriving DecidableEq, Repr, Inhabited

/-- One instruction of the A960, or one step of the device: one constructor for each row of spec/opcode_table.json. -/
inductive Instr where
  -- control flow (R96)
  | nop (h : Head)
  | br (h : Head) (imm : BitVec 18) (prio : BitVec 5)
  | brl (h : Head) (imm : BitVec 32) (prio : BitVec 5)
  | call (h : Head) (link : Reg) (imm : BitVec 18) (prio : BitVec 5)
  | calll (h : Head) (link : Reg) (imm : BitVec 32) (prio : BitVec 5)
  | jmpr (h : Head) (link : Reg) (tgt : Src) (prio : BitVec 5)
  | ret (h : Head) (tgt : Src) (prio : BitVec 5)
  | yield (h : Head)
  | exit (h : Head)
  | prio (h : Head) (p : BitVec 5)
  | tryw (h : Head) (pd : BitVec 3) (watched : Reg) (bound : OpB)
  | trap (h : Head) (code : BitVec 8)
  | trapSp (h : Head) (w64 : Bool) (dst : Reg) (code : BitVec 8)
  | rett (h : Head)
  | chk (h : Head) (src : ChkSrc)
  | brk (h : Head) (num : BitVec 16)
  -- dual issue
  | p64Pair (h : Head) (s0 s1 : PairSlot)
  | w96Pair (h : Head) (sa sb : WideSlot)
  -- integer (R137)
  | iadd (o : IntB)
  | isub (o : IntB)
  | imul (o : IntB)
  | imulh (o : IntB)
  | imad (o : IntT)
  | idiv (o : IntB)
  | irem (o : IntB)
  | imin (o : IntB)
  | imax (o : IntB)
  | iabs (o : IntU)
  | iand (o : IntB)
  | ior (o : IntB)
  | ixor (o : IntB)
  | lut3 (h : Head) (table : BitVec 8) (dst : Reg) (a b c : Src)
  | shl (o : IntB)
  | shr (o : IntB)
  | sar (o : IntB)
  | rot (o : IntB)
  | bfx (h : Head) (w64 sgn : Bool) (dst : Reg) (a : Src) (f : BfxField)
  | bfi (o : IntT)
  | popc (o : IntU)
  | clz (o : IntU)
  | brev (o : IntU)
  | isetp (h : Head) (w64 sgn : Bool) (cond : ICond) (pd : BitVec 3) (a : Src) (b : OpB)
  | sel (h : Head) (w64 : Bool) (dst : Reg) (p : BitVec 3) (neg : Bool) (a : Src) (b : OpB)
  | lea (h : Head) (dst : Reg) (base : Src) (disp : LeaDisp)
  | mov (h : Head) (w64 : Bool) (dst : Reg) (a : OpB)
  | plop (h : Head) (table : BitVec 8) (pd pa pb pc : BitVec 3)
  | idot4 (o : IntT)
  | idot2 (o : IntT)
  | movpRead (h : Head) (dst : Reg)
  | movpWrite (h : Head) (mask : BitVec 7) (a : Src)
  | movl (h : Head) (form : BitVec 2) (dst : Reg) (imm : BitVec 32)
  | iaddl (h : Head) (w64 sgn sat : Bool) (dst : Reg) (a : Src) (imm : BitVec 32)
  | isetpl (h : Head) (w64 sgn : Bool) (cond : ICond) (pd : BitVec 3) (a : Src) (imm : BitVec 32)
  -- float (R143)
  | fadd (o : FltB)
  | fsub (o : FltB)
  | fmul (o : FltB)
  | ffma (o : FltT)
  | fmin (o : FltB)
  | fmax (o : FltB)
  | fneg (o : FltU)
  | fabs (o : FltU)
  | fsetp (h : Head) (ty : FTy) (fzo : Bool) (cond : FCond) (pd : BitVec 3) (a : Src) (b : OpB)
  | fclass (o : FltU)
  | fdiv (o : FltB)
  | fsqrt (o : FltU)
  | frcp (o : FltU)
  | frsq (o : FltU)
  | fexp2 (o : FltU)
  | flog2 (o : FltU)
  | fsin (o : FltU)
  | fcos (o : FltU)
  | ftanh (o : FltU)
  | frnd (o : FltU)
  | cvt (o : CvtO)
  | cvts (o : CvtO)
  | pack (o : PackO)
  | unpk (h : Head) (ty : PTy) (dst : Reg) (a : Src) (idx : OpB)
  | fdot2 (o : FltT)
  | fscl (o : FltB)
  | fexpn (o : FltB)
  | fusedSoftmax (m : FltB) (e c : FltB) (s : FltT)
  -- cross-thread (R114)
  | vote (h : Head) (form : VoteForm) (p : BitVec 3) (mask : Src)
  | shfl (o : XtO) (idx : Src)
  | shflGive (h : Head) (w64 : Bool) (dst : Reg) (a : Src) (tgt : Src)
  | slup (o : XtO) (dist : Src)
  | sldn (o : XtO) (dist : Src)
  | cmpr (o : XtO) (p : BitVec 3)
  | expd (o : XtO) (p : BitVec 3)
  | redc (h : Head) (op : ROp) (dst : Reg) (a mask : Src)
  | scan (h : Head) (op : ROp) (excl : Bool) (dst : Reg) (a mask : Src)
  | xmatch (o : XtO)
  | unif (o : XtO)
  -- memory
  | ld (o : MemO)
  | ldl (o : MemL)
  | st (o : MemO)
  | stl (o : MemL)
  | cstr (o : CstrO)
  | pref (h : Head) (xlat : Bool) (base : Src) (disp : BitVec 18) (policy : BitVec 2) (hint : BitVec 5)
  | bref (h : Head) (w64 : Bool) (dst : Reg) (idx : Src) (off : OpB)
  | bqry (h : Head) (dst : Reg) (base : Src)
  | cflush (h : Head) (inv : Bool) (base len : Src)
  | iinv (h : Head) (reach : Reach) (arg : IinvArg)
  | fetchb (h : Head)
  | tlbiVa (h : Head) (base len : Src)
  | tlbiCtx (h : Head)
  | tlbiBuf (h : Head) (idx : Src)
  | tlbiBufall (h : Head)
  | atom (o : AtomO)
  | atomi (o : AtomO)
  | qend (h : Head)
  | fence (h : Head) (lvl : Level)
  | bara (h : Head) (b : BarArg)
  | barw (h : Head) (b : BarNum)
  | bars (h : Head) (b : BarArg)
  | baraBuoy (h : Head) (lvl : Level) (a : Src)
  | barwBuoy (h : Head) (a : Src)
  | barsBuoy (h : Head) (lvl : Level) (a : Src)
  | barx (h : Head) (lvl : Level) (a : Src)
  -- vaults
  | ldv (o : VaultO)
  | stv (o : VaultO)
  | stx (o : VaultO)
  | atomv (o : AtomVO)
  | presTest (h : Head) (pd : BitVec 3) (a len : Src)
  | presSet (h : Head) (a len : Src)
  | presClr (h : Head) (a len : Src)
  | presUnmk (h : Head) (a len : Src)
  | vsplitSet (h : Head) (pd : BitVec 3) (n : OpB)
  | vsplitXopen (h : Head) (pd : BitVec 3) (off len : Src)
  | vsplitXclose (h : Head)
  | vsplitRing (h : Head) (dst : Reg) (base cfg : Src)
  | vsplitRfree (h : Head) (num : Src)
  | buoys (h : Head) (a : Src) (v : OpB)
  | buoyw (h : Head) (dst : Reg) (a : Src)
  -- registers, ports and system registers
  | fsetSet (h : Head) (w64 : Bool) (dst : Reg)
  | fsetClr (h : Head) (w64 : Bool) (dst : Reg)
  | kset (h : Head) (w64 : Bool) (dst : Reg) (v : OpB)
  | regs (h : Head) (pd : BitVec 3) (n : BitVec 18)
  | qbind (h : Head) (q : Reg) (a : Src)
  | qstat (h : Head) (dst : Reg) (q : Reg)
  | qclose (h : Head) (q : Reg) (a : Src)
  | mfsr (h : Head) (dst : Reg) (num : BitVec 12)
  | mtsr (h : Head) (num : BitVec 12) (a : Src)
  -- engines
  | xcopy (h : Head) (a : Src) (disp : BitVec 32)
  | keyld (h : Head) (dst : Reg) (base : Src) (slot : Src) (disp : BitVec 32)
  | keyldClr (h : Head) (dst : Reg) (slot : Src)
  | post (h : Head) (target : PostTarget) (pd : BitVec 3) (base : Src) (fill : Reg) (disp : BitVec 32)
  | mmaF64 (o : MmaO)
  | mmaF32 (o : MmaO)
  | mmaBf16 (o : MmaO)
  | mmaF16 (o : MmaO)
  | mmaE4m3 (o : MmaO)
  | mmaE5m2 (o : MmaO)
  | mmaE3m2 (o : MmaO)
  | mmaE2m3 (o : MmaO)
  | mmaE2m1 (o : MmaO)
  | mmaI8 (o : MmaO)
  | mmaI4 (o : MmaO)
  | matrixStep (cl : Nat)
  | matrixSetDiscard (gid : Nat) (cv : Nat)
  | mwait (h : Head) (clr : Bool) (cv : BitVec 4) (dst : Reg)
  | mtrn (h : Head) (w : BitVec 2) (cv : BitVec 4) (dst : Reg) (a : Src)
  | mqnt (h : Head) (ty : BitVec 3) (b32 nosat : Bool) (cv : BitVec 4) (dst : Reg) (a sc : Src)
  | mclr (h : Head) (acc : BitVec 2) (cv : BitVec 4) (a : Src)
  | mstat (h : Head) (clr : Bool) (dst : Reg)
  -- rays
  | travi (h : Head) (flags : BitVec 4) (w : Reg) (root : Src)
  | trav (h : Head) (dst : Reg) (w : Reg) (base inst : Src) (n : BitVec 16)
  | thitAcc (h : Head) (w : Reg) (bary inst : Src)
  | thitRej (h : Head) (w : Reg)
  | tri (h : Head) (cull : BitVec 2) (dst : Reg) (w : Reg) (base : Src) (disp : BitVec 32)
  | tbox (h : Head) (slot : BitVec 3) (dst : Reg) (w : Reg) (base : Src) (disp : BitVec 32)
  | tstk (h : Head) (w : Reg) (base : Src) (disp : BitVec 32)
  -- Lantern and sampling
  | lnlk (h : Head) (dst : Reg) (obj uv key : Src)
  | lnlkW (h : Head) (dst : Reg) (obj uv key : Src)
  | lnfil (h : Head) (dst : Reg) (obj uv key : Src)
  | lninvKey (h : Head) (dst : Reg) (obj uv key : Src)
  | lninvObj (h : Head) (dst : Reg) (obj key : Src)
  | lninvRev (h : Head) (dst : Reg) (obj key : Src)
  | lnage (h : Head) (dst : Reg) (key target : Src) (thr : BitVec 8)
  | smpg (h : Head) (dst : Reg) (imp seed pos : Src)
  | smpgGrid (h : Head) (dst : Reg) (imp pos : Src)
  -- steps of the core and of the memory system
  | longLatencyWriteback (tid : Nat) (aid : Nat)
  | threadWake (tid : Nat)
  | trywTimeout (tid : Nat)
  | foghornTrap (core : Nat)
  | boundaryClose (iid : Nat) (key : Nat)
  | acknowledge (fid : Nat)
  | faultRecordPost (rid : Nat)
  | readDupCollapse (leaf : Nat)
  | demotionSweep (tier : Nat)
  | tierPointerWrite (tier : Nat) (v : BitVec 64)
  | copyStart (cl : Nat)
  | copyLine (cl : Nat) (pick : Nat)
  | decryptTagCheck (cl : Nat)
  | parityUpdate (cl : Nat) (grp : Nat)
  | vaultScrub (cl : Nat) (line : Nat)
  | groupTransition (cl : Nat) (grp : Nat)
  | vaultRemap (cl : Nat)
  | scratchGrantLower (cl : Nat)
  | budgetPick (point : Nat)
  | budgetPeriodStart (point : Nat)
  | budgetTableWrite (table : Nat) (entries : List (BitVec 64))
  | dramPatrolScrub (line : Nat)
  | remoteRead (stack : Nat) (rid : BitVec 16) (frame : Nat) (off : Nat)
  | remoteWrite (stack : Nat) (rid : BitVec 16) (frame : Nat) (off : Nat) (data : BitVec 512)
  -- jobs and partitions
  | submitDoorbell (ctx : Nat) (ref : BitVec 64)
  | cardPlace (qid : Nat) (cores : List Nat)
  | headWaitExpiry (qid : Nat)
  | domainCardForward (ctx : Nat) (ref : BitVec 64) (card : BitVec 512)
  | coreGroupComplete (gid : Nat)
  | cardComplete (iid : Nat)
  | noticeDeliver (nid : Nat)
  | partitionControlWrite (part : Nat) (blk : BitVec 1024)
  | sweepWindowEnd
  | preempt (ctx : Nat)
  | resume (ctx : Nat)
  | reset (ctx : Nat)
  | drainDeadline (ctx : Nat)
  | checkpoint (ctx : Nat)
  | checkpointDeadline (ctx : Nat)
  | resumePlace (ctx : Nat) (iid : Nat) (cores : List Nat)
  -- contexts
  | create (ctx : Nat) (desc : BitVec 64)
  | destroy (ctx : Nat)
  | killContext (ctx : Nat)
  | lossRecordPush (ctx : Nat)
  -- host commands (R398)
  | share (ctx : Nat) (a0 : BitVec 64)
  | s2inv (ctx : Nat) (a0 a1 : BitVec 64)
  | grant (ctx : Nat) (a0 a1 : BitVec 64)
  | wcreate (ctx : Nat) (a0 a1 : BitVec 64)
  | wdestroy (ctx : Nat) (a0 : BitVec 64)
  | bindvf (ctx : Nat) (a0 : BitVec 64)
  | djoin (ctx : Nat) (a0 a1 : BitVec 64)
  -- Ethernet (R406)
  | qpcreate (qpn : Nat) (a0 : BitVec 64)
  | qpstate (qpn : Nat) (a0 a1 : BitVec 64)
  | qpdestroy (qpn : Nat)
  | qpDoorbell (ctx : Nat) (v : BitVec 64)
  | rdmaIncoming (qpn : Nat) (op : RdmaOp) (raddr : BitVec 64) (len : Nat) (data : List Byte) (cmp swap : BitVec 64)
      (imm : Option (BitVec 32))
  | ethModeWrite (port : Nat) (v : BitVec 64)
  -- fabric (R401, R404)
  | fabricIdentityWrite (v : BitVec 64)
  | fabricPortDown (port : Nat)
  | fabricIngress (die : Nat) (dev : BitVec 8) (op : IngressOp) (pa : Nat) (data : List Byte)
  | registerWrite (off : Nat) (bytes : Nat) (v : BitVec 64)
  | vfFlr (vf : Nat)
  | pfFlr
  | conventionalReset
  | fatalError
  | powerUp
  | powerLimit (watts : Nat)
  | firmwareUpdate (image : Nat)
  | tdiEnterRun (tdi : Nat)
  | tdiLeaveRun (tdi : Nat)
  | ideIntegrityFail (tdi : Nat)
  | cflushIinvCompletion (tid : Nat) (item : Nat)
  | islandFrequencyStep (island : Nat) (raise : Bool)
  | flitForward (dev : BitVec 8) (line : Nat)
  | fabricPortUp (port : Nat)
  | mainRailsDown
  | spdmRequest (req : SpdmReq)
  | tdiLock (tdi : Nat)
  | qpCompletion (qpn : Nat) (ok : Bool) (data : List Byte)
deriving DecidableEq, Repr, Inhabited

end Sys2Proof
end

