-- ==== Sys2Proof/Machine/State.lean ====
section
/-! DEFINITION. State.lean: everything the spec gives the machine, as plain data, and the machine right after reset.
Every docstring of a field ends with its rules, its width and its reset value, in square brackets.
Numbers of hardware: die d = 0..3; cluster 64d + c = 0..255; bay 8d + b = 0..31; core 4·cluster + i = 0..1023;
stack 0..7. Threads, groups and card instances bear numbers of the model's own (`fresh`). -/

namespace Sys2Proof.Machine

open Sys2Proof

/-! ## Thread registers -/

/-- Whether a register awaits a producer, and whether that producer is the thread's own deferred atomic. -/
inductive Pend where
  | no | atomic | other
deriving DecidableEq, Repr, Inhabited

/-- One thread register (R123). Under P = 1 the value bits are the token (R78). -/
structure RegCell where
  /-- Value bits. [R123; 32; 0 (R86)] -/
  val : Word := 0
  /-- F tag. [R123; 1; 1 (R86)] -/
  full : Bool := true
  /-- P tag. [R123, R78; 1; 0 (R86)] -/
  poison : Bool := false
  /-- Pending state. [R123; 2; not pending] -/
  pend : Pend := .no
  /-- Lent to the matrix engine. [R281; 1; 0] -/
  lent : Bool := false
  /-- Held for a captured instruction. [R369, R371; 1; 0] -/
  held : Bool := false
deriving DecidableEq, Repr, Inhabited

/-- One predicate with the token held beside it (R78). -/
structure PredCell where
  /-- Value. [R26, R86; 1; 0 (R86)] -/
  val : Bool := false
  /-- Token, when poisoned. [R78; 1 + 32; not poisoned (R86)] -/
  tok : Option Word := none
deriving DecidableEq, Repr, Inhabited

/-- A reference (R155). -/
structure Ref where
  index : BitVec 24
  offset : BitVec 40
deriving DecidableEq, Repr, Inhabited

/-- One store-buffer entry (R184), before its window is formed: plain bytes, or a deferred atomic with its code offset; and whether
its policy is `.VICT` (R163). -/
inductive SbEntry where
  | plain (ref : Ref) (bytes : List Byte) (vict : Bool)
  | atomic (ref : Ref) (op : AOp) (w64 : Bool) (operand : BitVec 128) (dst : Option Nat) (site : BitVec 40) (vict : Bool)
deriving DecidableEq, Repr, Inhabited

/-- What a CFLUSH or IINV has still to do (R172): the virtual lines from `lo` to below `hi`, or every line. -/
inductive Maint where
  | flush (lo hi : Nat)
  | icache (reach : Reach) (all : Bool) (lo hi : Nat)
deriving DecidableEq, Repr, Inhabited

/-- One item of the unacknowledged-commit counter (R193): the levels at which it still counts. -/
structure Item where
  id : Nat
  cl : Bool := true
  bay : Bool := true
  die : Bool := true
  dom : Bool := true
  /-- A CFLUSH or IINV item, which completes as a whole. -/
  maint : Option Maint := none
deriving DecidableEq, Repr, Inhabited

/-- What a captive access does when it is performed (R368). `done` has been performed and awaits its write-back (R123); `trav` too, with
what each earlier stop would have written (R320). -/
inductive AccKind where
  | load (size : Size) (ref : Ref) (va pa : Nat) (own : List (Option Byte)) (policy : BitVec 2) (masks : List Nat)
  | atomi (op : AOp) (w64 : Bool) (operand : BitVec 128) (ref : Ref) (pa : Nat) (lvl : Level) (item : Nat) (policy : BitVec 2) (masks : List Nat)
  | atomiAck (old : Word64) (w64 : Bool) (fid : Nat) (lvl : Level)
  | done (vals : List (Word × Bool))
  | trav (stops : List (List (Word × Bool))) (vals : List (Word × Bool))
deriving DecidableEq, Repr, Inhabited

/-- An issued long-latency instruction: its destinations are pending until the write-back (R123, R368). -/
structure Acc where
  id : Nat
  kind : AccKind
  /-- Destination registers, empty when the destination is `zr`. -/
  dst : List Nat
  /-- Quantum in which it issued (R191, R196). -/
  quantum : Nat
  /-- Offset, opcode and format of the instruction (R370). -/
  off : BitVec 40
  op : BitVec 8
  fmt : BitVec 2
  /-- The instruction's `sp` bit. -/
  sp : Bool := false
deriving DecidableEq, Repr, Inhabited

/-- A replay-queue entry (R369): a captured access, or CSTR with its restart rank and operands. -/
inductive Captive where
  | acc (a : Acc)
  | cstr (o : CstrO) (idx : BitVec 24) (off : BitVec 40) (num rank : Nat) (ref : Word64) (refTok : Option Word) (data : Word64)
      (dataTok : Option Word) (keep : Bool) (keepTok : Option Word)
deriving DecidableEq, Repr, Inhabited

/-- What is left of an instruction once its boundary has closed (R187, R188). -/
inductive After where
  | next (len : Nat)
  | yield (len : Nat)
  | again
  | fence (len : Nat) (lvl : Level) (items : List Nat)
  | tryw (len : Nat) (pd : BitVec 3) (reg : Nat) (bound : Nat)
  | barw (len : Nat) (b : Nat) (phase : Nat)
  | bars (len : Nat) (b : Nat) (phase : Nat)
  | buoyArrive (len : Nat) (lvl : Level) (addr : Word) (thenWait : Bool) (items : List Nat)
  | buoyWait (len : Nat) (addr : Word)
  | barx (len : Nat) (lvl : Level) (addr : Word) (items : List Nat)
  | lnfil (len : Nat) (dst : Reg) (world : Nat) (obj uv key : Word) (items : List Nat)
deriving DecidableEq, Repr, Inhabited

/-- What an invalidation must cover to end a wait (R176): the stage of the entry that stopped the walk and the address its record
names, the virtual address of the access, if it has one, and the frame whose move it awaits, if it does. -/
structure WaitAt where
  stage : Nat
  addr : Nat
  va : Option Nat
  frame : Option Nat := none
deriving DecidableEq, Repr, Inhabited

/-- Why a thread is parked (R90), with what its wake needs. -/
inductive Park where
  | full (r : Nat)
  | pop (q : Nat) (words : Nat)
  | push (q : Nat) (words : Nat)
  | pending (r : Nat)
  | give (tid : Nat) (r : Nat)
  | vault (cl : Nat) (first cnt : Nat)
  | page (w : WaitAt)
  | moving (frame : Nat)
  | collapse (leaf : Nat)
  | boundary (a : After)
  | fence (len : Nat) (lvl : Level) (items : List Nat)
  | tryw (len : Nat) (pd : BitVec 3) (reg : Nat) (deadline : Nat)
  | barPhase (len : Nat) (b : Nat) (phase : Nat)
  | barNext (b : Nat) (phase : Nat)
  | buoyArrive (len : Nat) (lvl : Level) (addr : Word) (thenWait : Bool) (items : List Nat)
  | buoyWait (len : Nat) (addr : Word)
  | barxArrive (len : Nat) (lvl : Level) (addr : Word) (items : List Nat)
  | barxWait (len : Nat) (cl : Nat) (off : Nat)
  | buoyw (cl : Nat) (off : Nat) (dst : Reg)
  | lnfil (len : Nat) (dst : Reg) (world : Nat) (obj uv key : Word) (items : List Nat)
  | lnInflight (world : Nat) (obj : Word) (lvl : Nat) (uv : Word) (rev : Nat)
  | lnWalk (which : Nat) (dst : Reg) (world heap : Nat) (obj : Word) (rev target thr : Nat) (p0 : List Nat) (cursor n : Nat)
  | lnAge (world : Nat)
  | rendezvous (off : BitVec 40) (num : Nat)
  | regs (pd : BitVec 3)
  | regsGrow (pd : BitVec 3)
  | port (q : Nat)
  | ring (cgid num : Nat)
  | maint (items : List Nat) (len : Nat)
  | count255
  | mtsr (num v : Nat)
  | copyRoom (cl : Nat)
  | slotCopies (slot : Nat)
  | signSet (cv : Nat) (serial : Nat)
  | matRoom (cl : Nat) (queue : Nat)
  | mwait (clr : Bool) (cv : Nat) (dst : Reg) (ops : List Nat) (sets : List Nat)
  | settle (ids : List Nat)
  | post (target : PostTarget) (pd : BitVec 3) (fill : Reg) (ref : Word64) (card : BitVec 512) (items : List Nat)
deriving DecidableEq, Repr, Inhabited

/-- A thread is ready, parked or has exited (R87, R90, R103). -/
inductive Status where
  | ready
  | parked (p : Park)
  | exited
deriving DecidableEq, Repr, Inhabited

/-- A frontier entry's name (R87): core group, code buffer index, offset, priority. -/
structure EntryKey where
  gid : Nat
  pc : Ref
  prio : BitVec 5
deriving DecidableEq, Repr, Inhabited

/-- A thread's own state. -/
structure Thread where
  /-- Core group it belongs to. [R16; model number; set at placement (R86)] -/
  gid : Nat
  /-- Thread index. [R41; 11; set at placement] -/
  tix : Nat
  /-- Program counter. [R24, R86; 64; card's entry] -/
  pc : Ref
  /-- Block priority. [R86, R104; 5; 0 (R86)] -/
  prio : BitVec 5 := 0
  /-- Ready, parked or exited. [R87, R90; -; ready] -/
  status : Status := .ready
  /-- The demotion of R92 with its remaining set Y. [R92, R122; -; none] -/
  demoted : Option (List EntryKey) := none
  /-- Thread registers x0 to x(n-1). [R43, R123; n x 32 + tags; zero, F = 1, P = 0 (R86)] -/
  regs : List RegCell
  /-- Predicates p0 to p6. [R26, R86; 7; 0, not poisoned (R86)] -/
  preds : List PredCell := List.replicate 7 {}
  /-- FLAGS. [R69; 5 of 32; 0 (R86)] -/
  flags : BitVec 5 := 0
  /-- CVTS count. [R76; 64; 0 (R86)] -/
  cvts : BitVec 64 := 0
  /-- Handler mode. [R86, R369; 1; 0 (R86)] -/
  handler : Bool := false
  /-- TFCAUSE, system register 0x010. [R370, R373; 32; DESIGN CHOICE 0, log entry 3] -/
  tfcause : Word := 0
  /-- TFTOKEN, 0x011. [R367, R373; 32; DESIGN CHOICE 0, log entry 3] -/
  tftoken : Word := 0
  /-- TFPC, 0x012. [R367, R373; 64; DESIGN CHOICE 0, log entry 3] -/
  tfpc : Word64 := 0
  /-- TFRQN, 0x013: replay entries of the trap's frame, 0 to 8. [R370, R373; 32; DESIGN CHOICE 0, log entry 3] -/
  tfrqn : Word := 0
  /-- TFAUX, 0x014. [R367, R373; 32; DESIGN CHOICE 0, log entry 3] -/
  tfaux : Word := 0
  /-- TFS0 and TFS1, 0x015 and 0x016. [R373; 2 x 64; 0 (R373)] -/
  tfs0 : Word64 := 0
  tfs1 : Word64 := 0
  /-- Replay queue, oldest first; TFRQ0 to TFRQ7 are views of it. [R368, R369, R370; up to 8 entries; empty] -/
  replay : List Captive := []
  /-- Store buffer, in program order. [R183, R184; 64 entries; empty (R86)] -/
  sb : List SbEntry := []
  /-- Unacknowledged-commit counter, as its items; a level's count is the number of items that still count there.
  [R184, R193; 4 x 8; zero (R86)] -/
  items : List Item := []
  /-- Issued long-latency instructions not yet written back, oldest first. [R123, R368; -; empty] -/
  accs : List Acc := []
  /-- Whether the thread has ended its quantum. [R187; 1; 0] -/
  ended : Bool := false
  /-- Arrival counts at cross-thread instructions, by code buffer and offset. [R111, R122; -; none] -/
  arrivals : List ((BitVec 24 × BitVec 40) × Nat) := []
  /-- For each named barrier, the phase in which the thread last arrived. [R205; -; none] -/
  barPhases : List (Nat × Nat) := []
  /-- Parcels fetched ahead of issue, by reference as a number. [R173; -; empty] -/
  fetched : List (Nat × Word) := []
  /-- RETT is re-injecting the replay queue (R372). [R372; 1; 0] -/
  reinject : Bool := false
  /-- The first fault raise counted for the completion record, in program order. [R348; 32; none] -/
  firstTok : Option Word := none
deriving DecidableEq, Repr, Inhabited

/-! ## Core groups, cluster groups and card instances -/

/-- What a queue port is bound to (R129). -/
inductive Binding where
  | unbound
  | ring (cgid num : Nat)
  | miss (world : Nat) (handle : Nat)
  | jobs
deriving DecidableEq, Repr, Inhabited

/-- A thread's reservation of a published slot: the words it has still to pop (R130). -/
structure PopRes where
  tid : Nat
  slot : Nat
  rest : List Word
deriving DecidableEq, Repr, Inhabited

/-- A thread's open push slot, reserved through a port of its core group: the words written so far (R129, R130). -/
structure PushOpen where
  tid : Nat
  port : Nat
  words : List Word
deriving DecidableEq, Repr, Inhabited

/-- One queue port (R129). -/
structure Port where
  /-- Target of the port. [R129; -; unbound (R129)] -/
  binding : Binding := .unbound
  /-- Reservations of popping threads. [R130; -; none] -/
  pops : List PopRes := []
deriving DecidableEq, Repr, Inhabited

/-- One named barrier (R205). -/
structure Barrier where
  /-- Current phase, counted from 0. [R205; -; DESIGN CHOICE 0, log entry 3] -/
  phase : Nat := 0
  /-- Count the first arrival of the phase fixed. [R205; 12; none] -/
  cnt : Option Nat := none
  /-- Threads that have arrived in the phase. [R205; -; none] -/
  arrived : List Nat := []
  /-- Boundaries closed at the phase's last arrival so far. [R205; -; DESIGN CHOICE 0, log entry 3] -/
  lastAt : Nat := 0
  /-- For each completed phase, the boundary that must have closed after its last arrival. [R205; -; none] -/
  doneAt : List (Nat × Nat) := []
deriving DecidableEq, Repr, Inhabited

/-- The values an arrival at a cross-thread instruction captured (R111). -/
structure Arrival where
  tid : Nat
  mix : Nat
  mate : Nat
  index : BitVec 24
  off : BitVec 40
  num : Nat
  /-- The instruction arrived at. -/
  i : Instr
  active : Bool
  mask : BitVec 64
  maskTok : Option Word
  /-- Captured value of source A, with its token. -/
  a : Word64
  aTok : Option Word
  /-- Captured value of source C, or the captured predicate as 0 or 1. -/
  c : Word64
  cTok : Option Word
  /-- CSTR: the keep predicate, its token and the restart rank; `again` while the member has still to rendezvous again
  (R169). -/
  keep : Bool := true
  keepTok : Option Word := none
  start : Nat := 0
  again : Bool := false
  /-- Resolved: kept only while another member's arrival still compares against it (R111, R122). -/
  done : Bool
deriving DecidableEq, Repr, Inhabited

/-- A signature of an MMA (R279). -/
structure Signature where
  tid : Nat
  tix : Nat
  u : Option Word
  /-- The encoding compared by R280: opcode and fields. -/
  enc : List Nat
  /-- The uniform operand values compared by R280. -/
  uniform : List (Word × Bool)
  afrag : List (Word × Bool)
  bfrag : List (Word × Bool)
  cfrag : List (Word × Bool)
  cdst : Option Nat
  lent : List Nat
deriving DecidableEq, Repr, Inhabited

/-- A convergence register (R278). -/
structure Cv where
  /-- Target size of the open set, 0 when none is open. [R278; 6; none] -/
  target : Nat := 0
  /-- Signatures of the open set. [R278; -; none] -/
  sigs : List Signature := []
  /-- Number of the open set, counted from 0. [R279, R297; -; DESIGN CHOICE 0, log entry 3] -/
  serial : Nat := 0
  /-- Issued operations that have not completed, with the sets they came from, if any. [R278; -; none] -/
  ops : List (Nat × Option Nat) := []
  /-- Status: empty, or a token. [R278; 32; empty (R278)] -/
  status : Option Word := none
deriving DecidableEq, Repr, Inhabited

/-- A core group (R16). -/
structure CoreGroup where
  /-- Card instance and cluster group. [R16, R17; model numbers; set at placement] -/
  iid : Nat
  cgid : Nat
  /-- Hardware core, 0 to 1023. [R358; 10; chosen at placement] -/
  core : Nat
  /-- dix, bix, kix, cix. [R17, R41; -; set at placement] -/
  dix : Nat := 0
  bix : Nat := 0
  kix : Nat := 0
  cix : Nat := 0
  /-- Order of placement on the core. [R87; -; set at placement] -/
  order : Nat := 0
  /-- Registers per thread in force. [R43, R135; 8; card's value] -/
  nregs : Nat
  /-- k0 to k31. [R40, R127; 32 x 32; argument block (R127)] -/
  k : List Word := List.replicate 32 0
  /-- q0 to q15. [R129; 16 ports; unbound (R129)] -/
  ports : List Port := List.replicate 16 {}
  /-- Named barriers granted. [R204, R358; card's nbar; no arrivals] -/
  bars : List Barrier := []
  /-- cv0 to cv15. [R278; 16; empty (R278)] -/
  cvs : List Cv := List.replicate 16 {}
  /-- Matrix queue of the cluster. [R276; 4; granted at placement] -/
  mqueue : Nat := 0
  /-- MSTAT. [R298; 64; DESIGN CHOICE 0, log entry 3] -/
  mstat : Word64 := 0
  /-- Arrivals at cross-thread instructions. [R111; -; none] -/
  rdv : List Arrival := []
  /-- Threads arrived at REGS, with their n. [R135; -; none] -/
  regsRdv : List (Nat × Nat) := []
  /-- The n of a REGS that has resolved and waits, with its place in the order of completion. [R135; -; none] -/
  growing : Option (Nat × Nat) := none
  /-- Completion notices unread. [R355; 64 of 128 bits; none] -/
  notices : List (List Word) := []
deriving DecidableEq, Repr, Inhabited

/-- A ring in a cluster group's allocation (R239). -/
structure Ring where
  num : Nat
  base : Nat
  lg : Nat
  ssz : Nat
  /-- Header fields. [R239; 32 each; 0 but config (R239)] -/
  head : Nat := 0
  tail : Nat := 0
  closed : Bool := false
  cval : Word := 0
  discarded : Nat := 0
  /-- Positions freed beyond `head`, and positions reserved. [R130; -; none] -/
  freed : List Nat := []
  reserved : List Nat := []
  /-- Open push slots, held by the ring unit outside the region. [R130, R239; -; none] -/
  opens : List PushOpen := []
deriving DecidableEq, Repr, Inhabited

/-- The record a shadow byte holds (R241): value and key (ry, rx, cix, tix). -/
structure ShadowByte where
  off : Nat
  val : Byte
  ry : Int
  rx : Int
  cix : Nat
  tix : Nat
deriving DecidableEq, Repr, Inhabited

/-- An exchange window with its shadow (R240). -/
structure Window where
  off : Nat
  len : Nat
  /-- Physical place of the shadow in the vault. -/
  shadowAt : Nat
  recs : List ShadowByte := []
deriving DecidableEq, Repr, Inhabited

/-- A cluster group (R16) with its vault allocation (R217). -/
structure ClusterGroup where
  iid : Nat
  /-- Hardware cluster, 0 to 255. [R358; 8; chosen at placement] -/
  cluster : Nat
  /-- Allocation: base in the vault and length in bytes. [R217; 23 each; set at placement] -/
  base : Nat := 0
  len : Nat := 0
  /-- Rings. [R239; 32; none] -/
  rings : List Ring := []
  /-- Exchange window. [R240; -; none] -/
  window : Option Window := none
deriving DecidableEq, Repr, Inhabited

/-- A job card (R343). -/
structure Card where
  entry : BitVec 64
  arg : BitVec 64
  crec : BitVec 64
  cadd : BitVec 64
  cval : Word
  parent : Word
  thr : Nat
  ncg : Nat
  nkl : Nat
  nby : Nat
  ndi : Nat
  regs : Nat
  vlt : Nat
  nbar : Nat
  lvl : Nat
  scope : Nat
  pcls : Nat
  kind : Nat
  cr : Bool
  ca : Bool
  nv : Bool
  rsv : Nat
deriving DecidableEq, Repr, Inhabited

/-- A card waiting in a queue, spilled to the job heap or completing (R349, R353). -/
structure QCard where
  ctx : Nat
  card : Card
  ref : BitVec 64
  key : QKey
  /-- Posted to `.DEV`: the queue's die places it on any die of the context (R352, R357). -/
  dev : Bool
  /-- Fill register link: thread and register (R351). -/
  fill : Option (Nat × Nat) := none
  /-- Notice link: the poster's core group (R355). -/
  notice : Option Nat := none
  spilled : Bool := false
  /-- Crossbar cycle of the queue's die at which it became a head, and whether R357's wait has expired. -/
  since : Option Nat := none
  expired : Bool := false
  /-- Crossbar cycle of die 0 at which it was posted (R361). -/
  born : Nat := 0
  /-- The instance whose groups hold its parts reserved, while its other dies have no room (R357). -/
  reserved : Option Nat := none
  /-- Completion status decided before placement (R346), and its fault code. -/
  st : Nat := 0
  code : Nat := 0
  /-- Forwarded by another member of the domain context (R403). -/
  forwarded : Bool := false
deriving DecidableEq, Repr, Inhabited

/-- A placed card instance, and its completion (R347 to R349). -/
structure Inst where
  q : QCard
  /-- Sizes of R17. -/
  tsz : Nat
  csz : Nat
  ksz : Nat
  bsz : Nat
  dsz : Nat
  /-- Boundaries closed, by scope instance. [R186; -; 0] -/
  bounds : Tab Nat := []
  /-- Completion sums. [R348; 32, 32, 5; 0] -/
  nthr : Nat := 0
  ntok : Nat := 0
  ftok : Option (Nat × Word) := none
  flags : BitVec 5 := 0
  /-- Completion step of R349 to be taken next; 0 while running. -/
  stage : Nat := 0
  /-- A domain card's parts are reserved on some dies only: no thread exists yet. [R357; 1; 0] -/
  reserving : Bool := false
  /-- RF and AF of the status word. [R347; 2; 0] -/
  rf : Bool := false
  af : Bool := false
deriving DecidableEq, Repr, Inhabited

/-! ## Hardware clusters -/

/-- State of a parity group (R228). -/
inductive PState where
  | healthy | degraded | noparity | failed
deriving DecidableEq, Repr, Inhabited

/-- One parity group (R222, R224, R228). -/
structure PGroup where
  /-- HEALTHY, DEGRADED, NOPARITY or FAILED. [R228; 2; HEALTHY (R228)] -/
  st : PState := .healthy
  /-- Retired data bank (0 to 3). [R228, R231; 2; none] -/
  rbank : Option Nat := none
  /-- Transition waiting for the parity queue: the bank retired, 4 for the parity bank. [R227, R229; -; none] -/
  pendingRetire : Option Nat := none
  /-- Parity lines that differ from the XOR of their data at power-up. [R222; 4096 x 512; zero] -/
  parity : Tab (BitVec 512) := []
  /-- Queued parity updates: row and delta. [R222, R224; 16; empty] -/
  queue : List (Nat × BitVec 512) := []
  /-- Rebuild counts of the four data banks and recomputation count of the parity bank. [R227; 5; 0] -/
  counts : List Nat := List.replicate 5 0
deriving DecidableEq, Repr, Inhabited

/-- A vault (R215 to R231). -/
structure Vault where
  /-- S, in 256 KiB units. [R218; 6; partition's grant, DESIGN CHOICE 32 before any, log entry 4] -/
  split : Nat := 32
  /-- Capacity in MiB: 8, 7 or 0. [R218, R230; -; 8] -/
  cap : Nat := 8
  /-- Data bytes as the data banks hold them, by physical offset; zero where not listed. [R217, R222; 8 MiB; DESIGN CHOICE 0, log entry 2] -/
  bytes : List Host.Cell := []
  /-- Scratch lines whose presence bit is clear, by line of the vault's offsets. [R217, R220; 131072; all present (R217)] -/
  absent : List Nat := []
  /-- Lines whose poison marker is set, by line of the vault's offsets. [R85, R225; 131072; none (R217)] -/
  marks : List Nat := []
  /-- Physical lines that ECC cannot correct: data line number, or 131072 + 4096 group + row for a parity line.
  [R225; -; none] -/
  bad : List Nat := []
  /-- The eight parity groups. [R222; 8; HEALTHY] -/
  groups : List PGroup := List.replicate 8 {}
  /-- The group whose lines are remapped, once R230 has remapped them. [R230; 3; none] -/
  remapped : Option Nat := none
deriving DecidableEq, Repr, Inhabited

/-- A request block (R264). -/
structure ReqBlock where
  strm : Nat
  slot : Nat
  ctr : BitVec 64
  fg : Bool
  pc : Bool
  zf : Bool
  dec : Bool
  dv : Bool
  sv : Bool
  rows : Nat
  buoy : Word
  dpitch : Nat
  spitch : Nat
  len : Nat
  dst : Word64
  src : Word64
  rsv : Bool
deriving DecidableEq, Repr, Inhabited

/-- A line of a copy: index in issue order, row, first byte in the row and bytes (R267). -/
structure CopyLn where
  idx : Nat
  row : Nat
  start : Nat
  n : Nat
deriving DecidableEq, Repr, Inhabited

/-- A queued or running copy (R266, R267). -/
structure Copy where
  id : Nat
  ctx : Nat
  iid : Nat
  cgid : Nat
  gid : Nat
  /-- Vault address of the block, and the block as read. -/
  blockAt : Word
  blk : ReqBlock
  started : Bool := false
  /-- Cursor: row, byte in the row and index of the next line to issue (R274). -/
  row : Nat := 0
  pos : Nat := 0
  idx : Nat := 0
  /-- Lines issued and not yet ended. -/
  out : List CopyLn := []
  /-- Lines that wait for an invalidation, by line index (R268). -/
  waiting : List (Nat × WaitAt) := []
  /-- Lines that ended without writing their destination (R265, R268). -/
  missed : List CopyLn := []
  /-- Lowest failed line so far with its status word (R270). -/
  failed : Option (Nat × Word) := none
  /-- Decrypt: the source bytes read so far, by line; the tag under the index after the last line (R273). -/
  cipher : Tab (List Byte) := []
deriving DecidableEq, Repr, Inhabited

/-- Operand of a matrix operation: fragment values of the ranks, or a vault descriptor (R287, R288). -/
inductive MatOpnd where
  | frag (rows : List (List (Word × Bool)))
  | vault (desc : Word64)
  | none
deriving DecidableEq, Repr, Inhabited

/-- Kinds of queued matrix operation (R283, R299). -/
inductive MatKind where
  | mma (aty bty accTy scale : Nat) (acc : Bool)
  | mtrn (w : Nat)
  | mqnt (ty : Nat) (b32 nosat : Bool)
  | mclr (accTy : Nat)
deriving DecidableEq, Repr, Inhabited

/-- A queued matrix operation (R277, R280). -/
structure MatOp where
  id : Nat
  gid : Nat
  cgid : Nat
  iid : Nat
  ctx : Nat
  cv : Nat
  /-- Set number on its convergence register; none for the operation of one issuer (R297). -/
  serial : Option Nat
  kind : MatKind
  a : MatOpnd
  b : MatOpnd
  c : MatOpnd
  scale : List (Word × Bool)
  steps : Nat
  next : Nat := 0
  started : Bool := false
  /-- Accumulator after the steps run so far: value bits (i32: the exact total) and token, row by row. -/
  accum : List (List (Int × Option Word)) := []
  /-- First token met in each row of A, in each column of B, and among the scales (R293). -/
  aTok : List (Option Word) := []
  bTok : List (Option Word) := []
  sTok : Option Word := none
  /-- Rows whose replay mismatched too (R295). -/
  badRows : List Nat := []
  /-- Lines that the step under way has read so far: cluster and line, error code, contents (R292 item 3). -/
  cache : List ((Nat × Nat) × (Nat × BitVec 512)) := []
  /-- C destinations of the ranks: thread and first register. -/
  cdst : List (Nat × Nat) := []
  site : Word
deriving DecidableEq, Repr, Inhabited

/-- One translation held by a cluster TLB: a stage-1 and a stage-2 leaf restricted to one 4 KiB page (R13, R175). -/
structure TlbE where
  ctx : Nat
  vpage : Nat
  ipage : Nat
  ppage : Nat
  r1 : Bool
  w1 : Bool
  x1 : Bool
  r2 : Bool
  w2 : Bool
  x2 : Bool
  sh : Bool
  dup : Bool
  /-- Physical address and level of the stage-2 leaf. -/
  leaf : Nat
  lvl : Nat := 0
deriving DecidableEq, Repr, Inhabited

/-- A hardware cluster: vault, engines and caches. -/
structure Cluster where
  /-- Vault. [R215; 8 MiB; as its fields] -/
  vault : Vault := {}
  /-- Copies of the copy engine, in order of acceptance. [R266, R267; 64; empty] -/
  copies : List Copy := []
  /-- The 16 matrix queues. [R276; 16 x 4; empty] -/
  mqs : List (List MatOp) := List.replicate 16 []
  /-- Matrix queue last served. [R277; 4; DESIGN CHOICE 15, log entry 3] -/
  mlast : Nat := 15
  /-- Cluster TLB. [R13, R175; 8192 entries; empty] -/
  tlb : List TlbE := []
  /-- Cached buffer-table entries: context, index, entry. [R158; -; empty] -/
  bufs : List ((Nat × Nat) × BitVec 256) := []
  /-- Buoy enrolments: physical offset of the Buoy and cluster group. [R242; -; none] -/
  enrol : List (Nat × Nat) := []
deriving DecidableEq, Repr, Inhabited

/-- A hardware core (R12, R94). -/
structure CoreUnit where
  /-- Core cycle count; `clk` reads its low 32 bits. [R5, R41; 32; DESIGN CHOICE 0, log entry 3] -/
  clk : Nat := 0
  /-- Foghorn's quiet counter. [R94; -; 0 (R122)] -/
  quiet : Nat := 0
  /-- The class that issued last: core group and effective priority. [R94; -; none] -/
  last : Option (Nat × Int) := none
  /-- Ready and issued threads of the class issued in this cycle, for FOGHORN_TRAP. [R94; -; none] -/
  fog : List Nat := []
  /-- Instruction cache lines: context, virtual and physical line, with the 64 bytes. [R12, R172; 128 KiB; empty] -/
  icache : List ((Nat × Nat × Nat) × List Byte) := []
deriving DecidableEq, Repr, Inhabited

/-! ## Contexts -/

/-- Pre-emption state (R363). -/
inductive PreState where
  | run | draining | saving | saved | resuming | lost | free
deriving DecidableEq, Repr, Inhabited

/-- A context's membership of a domain context (R403). -/
structure Member where
  domain : Nat
  rank : Nat
  count : Nat
  devices : List Nat
deriving DecidableEq, Repr, Inhabited

/-- What RESUME restores (R365): the parts of the machine that belonged to the context, as they stood at the save. -/
structure Image where
  ver : Nat
  dr : Bool
  threads : Tab Thread := []
  groups : Tab CoreGroup := []
  cgroups : Tab ClusterGroup := []
  insts : Tab Inst := []
  /-- Vault contents by cluster group: bytes, absent lines and marks by offset, and enrolments. -/
  vaults : List (Nat × (List Host.Cell × List Nat × List Nat)) := []
  enrol : List (Nat × Nat × Nat) := []
  copies : List Copy := []
  ops : List (Nat × MatOp) := []
  cards : Tab QCard := []
  claims : List Nat := []
  /-- Notices that wait for its groups. -/
  waiting : Tab (Nat × List Word) := []
  /-- Core cycles left to each thread parked in TRYW (R105). -/
  trywLeft : List (Nat × Nat) := []
  /-- Bytes of the image as they were written. -/
  bytes : List Byte := []
deriving DecidableEq, Repr, Inhabited

/-- A hardware context (R379). -/
structure Ctx where
  /-- Pre-emption block. [R363; 256; FREE at power-up (R363), the rest DESIGN CHOICE 0, log entry 3] -/
  state : PreState := .free
  res : Nat := 0
  used : Nat := 0
  hamper : BitVec 64 := 0
  hlen : Nat := 0
  dl1 : Nat := 0
  dl2 : Nat := 0
  /-- Crossbar cycles of dies 0 to 3 at which the last PREEMPT was received. [R364; -; 0] -/
  since : List Nat := [0, 0, 0, 0]
  /-- Descriptor fields. [R379; as there; DESIGN CHOICE 0 while FREE, log entry 3] -/
  part : Nat := 0
  tdi : Nat := 0xFFFF
  stride : Nat := 0
  btab : Nat := 0
  bcount : Nat := 0
  s1root : Nat := 0
  s2root : Nat := 0
  gring : Nat := 0
  hring : Nat := 0
  lring : Nat := 0
  hidx : Nat := 0
  hcnt : Nat := 0
  seed : BitVec 64 := 0
  /-- Lantern grant table. [R322; 64 x 64; loaded by CREATE] -/
  grants : List (BitVec 64) := List.replicate 64 0
  /-- Share-tag set, as the tags it holds. [R161; 4096; loaded by CREATE] -/
  stags : List Nat := []
  /-- TMODE, 0x000. [R67, R373; 32; descriptor's tmode] -/
  tmode : Word := 0
  /-- FOGLIM, 0x020. [R95, R373; 32; descriptor's foglim] -/
  foglim : Word := 0
  /-- TRAPBASE, 0x002. [R374; 64; descriptor's trapb] -/
  trapbase : Word64 := 0
  /-- PCSEL, 0x100. [R262; 32; 0 (R381)] -/
  pcsel : Word := 0
  /-- Stack and event armed, with the 256 counts that PCCNT (0x101) reads. [R262, R263; 256 x 32; none, 0] -/
  armed : Option (Nat × Nat) := none
  counts : Tab Nat := []
  /-- Submit window counters. [R356; 2 x 32; 0 (R381)] -/
  posted : Nat := 0
  refused : Nat := 0
  /-- Doorbells waiting, in arrival order. [R356; -; empty] -/
  bells : List (BitVec 64) := []
  /-- Kill noticed and not yet carried out, or its record not yet pushed: reason and record words. [R383, R385; -; none] -/
  kill : Option (Nat × List Word64) := none
  /-- The kill has been carried out on every die and waits for room in the loss ring. [R384; 1; 0] -/
  purged : Bool := false
  /-- DESTROY waits for the loss record. [R382; 1; 0] -/
  destroying : Bool := false
  /-- Virtual function slots it is bound to. [R395, R398; -; none] -/
  vfs : List (Nat × Nat) := []
  /-- Domain context joined. [R403; -; none] -/
  member : Option Member := none
  /-- The Hamper's image. [R365; -; none] -/
  image : Option Image := none
  /-- Cluster groups of the image still to be placed, by card instance. [R366; -; none] -/
  unplaced : List Nat := []
deriving DecidableEq, Repr, Inhabited

/-- A partition's control block (R359). -/
structure Part where
  /-- V, AUTO, refused. [R359; 3; DESIGN CHOICE 0, log entry 3] -/
  v : Bool := false
  auto : Bool := false
  refused : Bool := false
  /-- want and clu, as bit sets over the 256 clusters. [R359; 2 x 256; DESIGN CHOICE 0, log entry 3] -/
  want : BitVec 256 := 0
  clu : BitVec 256 := 0
  /-- target and done; cards completed in the present window. [R359, R361; 32; DESIGN CHOICE 0, log entry 3] -/
  target : Nat := 0
  done : Nat := 0
  count : Nat := 0
  /-- Vault grant and budget class. [R218, R257; 8, 3; DESIGN CHOICE 0, log entry 3] -/
  grant : Nat := 0
  bclass : Nat := 0
deriving DecidableEq, Repr, Inhabited

/-! ## Memory side -/

/-- A committed or performed write on its way outward (R192): the units it is visible in, by level. -/
structure Flight where
  id : Nat
  /-- Bytes written, in write order, by physical address. -/
  cells : List Host.Cell
  /-- Lines written whole by one engine write, whose markers it clears (R85). -/
  whole : List Nat := []
  /-- Lines whose marker it sets. -/
  marked : List Nat := []
  /-- Core and core group of the writer; 1024 for a writer outside the cores. -/
  core : Nat
  gid : Nat
  /-- Merged by a core-scope boundary, which its core group sees at once (R188, R192). -/
  early : Bool := false
  /-- 0 not acknowledged, 1 acknowledged at cluster level, 2 bay, 3 die; acknowledged at 4 it is memory. -/
  lvl : Nat
  /-- Its lines have left the L1 (R172). -/
  inL2 : Bool := false
  /-- Tag by which its L1 knows it: context and virtual line (R177). -/
  vline : Option (Nat × Nat) := none
  /-- Its policy is `.VICT` (R163). -/
  vict : Bool := false
  /-- Lines that its boundary writes whole, which it allocates without reading them (R253). -/
  cover : List Nat := []
  ctx : Nat
  /-- Budget class of its lines, when it is not its context's (R257). -/
  cls : Option Nat := none
  /-- Hash masks of the entry it was made through (R250). -/
  masks : List Nat := []
  /-- Scope instance and boundary it commits, for the order of R191. -/
  bound : Option (Nat × Nat × Nat) := none
  /-- Counter items it holds: thread and item (R193). -/
  items : List (Nat × Nat) := []
deriving DecidableEq, Repr, Inhabited

/-- A line held by an L2 or by a victim cache, with its dirty bytes by offset (R253). -/
structure CLine where
  line : Nat
  victim : Bool
  dirty : List (Nat × Byte)
  /-- Context that wrote it last (R263). -/
  ctx : Nat := 0
deriving DecidableEq, Repr, Inhabited

/-- A fault record, outstanding until an invalidation covers its address and the entry stops walks no more (R176, log entry 90). -/
structure FRec where
  id : Nat
  ctx : Nat
  ref : Word64
  level : Nat
  access : Nat
  kind : Nat
  addr : Nat
  /-- Virtual address of the access, and the frame whose move stopped it, as in `WaitAt`. -/
  va : Option Nat
  frame : Option Nat := none
  posted : Bool := false
deriving DecidableEq, Repr, Inhabited

/-- A budget point (R257 to R260). -/
structure BPoint where
  /-- Floors and ceilings in force. [R258; 16 x 64; floor 0, ceiling 0xFFFF_FFFF (R258)] -/
  floors : List Nat := List.replicate 16 0
  ceils : List Nat := List.replicate 16 0xFFFFFFFF
  /-- Lines served in this period, by class. [R259; 16; 0] -/
  spent : List Nat := List.replicate 16 0
  /-- Requests waiting, by class, in arrival order. [R259; -; empty] -/
  queues : List (List Nat) := List.replicate 16 []
  /-- Class served last. [R259; 4; DESIGN CHOICE 15, log entry 3] -/
  last : Nat := 15
deriving DecidableEq, Repr, Inhabited

/-- A budget table as the hypervisor last had it accepted, with its status word (R258). -/
structure BTable where
  entries : List (BitVec 64) := List.replicate 16 0xFFFFFFFF00000000
  refused : Bool := false
deriving DecidableEq, Repr, Inhabited

/-! ## Lantern -/

/-- A world (R321). -/
structure World where
  /-- Live, owner, tag, nslot. [R321; 1, 9, 12, 25; no world] -/
  live : Bool
  owner : Nat
  tag : Nat
  nslot : Nat
  /-- Pending list. [R328; -; empty] -/
  pending : List Nat := []
  /-- Miss queue: four words a record. [R329; 4096; empty] -/
  missq : List (List Word) := []
  /-- A sweep is running. [R336; 1; 0] -/
  ageing : Bool := false
deriving DecidableEq, Repr, Inhabited

/-- A tag-store entry that is INFLIGHT or VALID (R325). -/
structure LEntry where
  die : Nat
  set : Nat
  way : Nat
  world : Nat
  obj : Word
  level : Nat
  uv : Word
  valid : Bool
  rev : Nat
  age : Nat
  tag : Nat
  slot : Nat
  claim : Option Nat
deriving DecidableEq, Repr, Inhabited

/-! ## Host, links and power -/

/-- TDISP states (R399). -/
inductive TdiState where
  | unlocked | locked | run | error
deriving DecidableEq, Repr, Inhabited

/-- A TDISP interface (R393, R399). -/
structure Tdi where
  /-- State. [R399; 2; DESIGN CHOICE CONFIG_UNLOCKED, log entry 3] -/
  st : TdiState := .unlocked
  /-- A selective IDE stream is bound, with its address ranges [lo, hi). [R399; -; none] -/
  stream : Bool := false
  ranges : List (Nat × Nat) := []
  /-- Key-wrap key. [R399; 256; none] -/
  kwk : Option (BitVec 256) := none
deriving DecidableEq, Repr, Inhabited

/-- A bound key slot (R271). -/
structure KeySlot where
  ctx : Nat
  tdi : Nat
  key : BitVec 256
  ids : List Word
  /-- Last accepted counter of each stream. [R271; 16 x 64; none] -/
  ctrs : List (Option (BitVec 64))
deriving DecidableEq, Repr, Inhabited

/-- Queue-pair states (R406). -/
inductive QpState where
  | init | rtr | rts | err
deriving DecidableEq, Repr, Inhabited

/-- A work entry of a queue pair whose response is awaited (R406). -/
structure Work where
  idx : Nat
  op : Nat
  lref : Word64
  len : Nat
  sig : Bool
  /-- The rest of what leaves for the remote queue pair: its reference, operands, immediate data and bytes. -/
  raddr : Word64
  cmp : BitVec 64
  swap : BitVec 64
  imm : Option Word
  data : List Byte
deriving DecidableEq, Repr, Inhabited

/-- A queue pair (R405, R406). -/
structure Qp where
  st : QpState
  ctx : Nat
  ud : Bool
  lport : Nat
  mtu : Nat
  rr : Bool
  rw : Bool
  ra : Bool
  rfirst : Nat
  rlast : Nat
  sq : Nat
  rq : Nat
  cq : Nat
  /-- Path block (QPSTATE), as 512 bits. -/
  path : BitVec 512
  /-- Entries the doorbells have made known, and entries taken, of the send and receive queues. -/
  sqTail : Nat := 0
  rqTail : Nat := 0
  inflight : List Work := []
deriving DecidableEq, Repr, Inhabited

/-- The result side of a command window (R380, R398, R406). -/
structure CmdWin where
  seq : Nat := 0
  res : Nat := 0
  ctx : Nat := 0
  desc : BitVec 64 := 0
  a0 : BitVec 64 := 0
  a1 : BitVec 64 := 0
  /-- Reserved words as last written, by word of the window: a nonzero one is a bad argument (R398). -/
  rsv : Tab (BitVec 64) := []
deriving DecidableEq, Repr, Inhabited

/-- Power state (R22, R399, R407). -/
inductive Power where
  | off | booting | recovery | ready
deriving DecidableEq, Repr, Inhabited

/-- Error reporting state of the physical function (R389, R390). -/
structure Aer where
  corr : Bool := false
  uncorr : Bool := false
  fatal : Bool := false
  /-- Header log of each function whose first-error pointer is held. [R390; 128 each; none] -/
  logs : Tab (List Word) := []
  /-- Functions whose status bits for a contained event are set. [R389, R390; 65; none] -/
  funcs : List Nat := []
deriving DecidableEq, Repr, Inhabited

/-! ## Turns -/

/-- Hardware disagreements that wait for the operation they hit (R152, R294, R295). `again`: the replay disagrees too, in the rows given.
`operand`: an operand word that holds `len` elements of a row from place `k`: of A 0, B 1, A's scales 2, B's scales 3 or C 4; `fixed`: it
is corrected. -/
inductive Inject where
  | shadow (again : Bool)
  | residue (again : Bool) (rows : List Nat)
  | operand (which rc k len : Nat) (fixed : Bool)
deriving DecidableEq, Repr, Inhabited

/-- Actions of caches, of chance and of the world outside that no row of the opcode table names: they decide which of the
outcomes the text allows comes about. -/
inductive Hidden where
  | prefetch (tid : Nat)
  | tlbEvict (cl i : Nat)
  | bufEvict (cl i : Nat)
  | l2Evict (line : Nat)
  | victimEvict (line : Nat)
  | icacheEvict (core i : Nat)
  | l1Clean (fid : Nat)
  | vaultError (cl line : Nat)
  | dramError (line : Nat)
  | stateError (tid : Nat)
  | inject (e : Inject)
  | matRead (cl vcl line : Nat)
  | corrected (die unit : Nat)
  | xbarCycle (die : Nat)
  | bells (cx : Nat)
  | domainKill (domain : Nat)
  | cxlPoison (port off : Nat)
  | badCommand (qp : Bool) (n : Nat)
  | barRead (off bytes : Nat)
  | vfRead (vf off bytes : Nat)
  | vfWrite (vf off bytes : Nat) (v : BitVec 64)
  | aerClear (fn : Nat)
  | hostWrite (addr : Nat) (bytes : List Byte)
deriving DecidableEq, Repr, Inhabited

/-- What moves next: a core's cycle, one thread of the bundle it issued, a step of the opcode table, or a hidden
action. -/
inductive Turn where
  | coreCycle (core : Nat)
  | thread (tid : Nat)
  | event (i : Instr)
  | hidden (h : Hidden)
deriving DecidableEq, Repr, Inhabited

/-! ## The machine -/

/-- Everything the spec gives the machine. -/
structure State where
  /-- MODEL's own: the thread that executes. [-; -; DESIGN CHOICE 0, log entry 1] -/
  cur : Nat
  /-- MODEL's own: turns already determined, first first. [-; -; DESIGN CHOICE empty, log entry 1] -/
  agenda : List Turn
  /-- MODEL's own: counter of free values. [-; -; DESIGN CHOICE 0, log entry 1] -/
  tick : Nat
  /-- MODEL's own: next number for a thread, group, access, item or flight. [-; -; DESIGN CHOICE 0, log entry 1] -/
  fresh : Nat
  /-- Threads. [R16, R86; -; none (no card placed)] -/
  threads : Tab Thread
  /-- Core groups. [R16; -; none] -/
  groups : Tab CoreGroup
  /-- Cluster groups. [R16, R217; -; none] -/
  cgroups : Tab ClusterGroup
  /-- Card instances placed or completing. [R343, R349; -; none] -/
  insts : Tab Inst
  /-- Hardware clusters that differ from their reset state. [R11; 256; as Cluster's defaults] -/
  clusters : Tab Cluster
  /-- Hardware cores that differ from their reset state. [R11, R12; 1024; as CoreUnit's defaults] -/
  cores : Tab CoreUnit
  /-- Contexts. [R379; 512; FREE (R363)] -/
  ctxs : Tab Ctx
  /-- Partitions. [R359; 64; V = 0] -/
  parts : Tab Part
  /-- DRAM, CXL and host memory bytes by physical address; zero where not listed. [R397; 2^52; DESIGN CHOICE 0, log entry 2] -/
  mem : List Host.Cell
  /-- Lines whose poison marker is set, by physical line. [R85, R252; -; none] -/
  marks : List Nat
  /-- Lines held by L2 or the victim caches. [R253; -; none] -/
  lines : List CLine
  /-- Writes not yet acknowledged at domain level, in the order of R197. [R192, R197; -; none] -/
  flights : List Flight
  /-- Fault records. [R176; -; none] -/
  recs : List FRec
  /-- Stage-2 leaves whose read-duplicated page is collapsing. [R179; -; none] -/
  collapsing : List Nat
  /-- Frames in demotion: tier, old frame base, new frame base. [R182; -; none] -/
  moving : List (Nat × Nat × Nat)
  /-- MODEL's own: for each HBM frame, the hash it was first reached with, and whether another has reached it since.
  [R159, R251; -; none] -/
  hashes : Tab (List Nat × Bool)
  /-- Tier pointers as written, and as the sweep in progress took them. [R181; 2 x 64; 0 (R181)] -/
  tierPtr : List (BitVec 64)
  tierCur : List (BitVec 64)
  /-- Cards queued on the four dies, spilled, or awaiting completion, in post order. [R353; -; empty] -/
  cards : Tab QCard
  /-- Notices waiting in the dispatchers: core group and four words. [R355; -; empty] -/
  waitingNotices : Tab (Nat × List Word)
  /-- Crossbar cycles of the four dies. [R5, R361, R364; -; DESIGN CHOICE 0, log entry 3] -/
  xclk : List Nat
  /-- Start of the present sweep window. [R361; -; 0 from power-up] -/
  window : Nat
  /-- Budget points: slices 0 to 127 (32 per die) and ports 128 + stack. [R257; 136; R258's power-up values] -/
  points : Tab BPoint
  /-- Budget tables: 2d slices and 2d + 1 ports of die d. [R258; 8; floors 0, ceilings 0xFFFF_FFFF (R258)] -/
  btables : Tab BTable
  /-- Remote stack port tables: entry 256 s + i. [R254; 8 x 256 x 64; 0 (R254)] -/
  acl : Tab (BitVec 64)
  /-- Refusal counts of the remote ports. [R255; 8; DESIGN CHOICE 0, log entry 3] -/
  refusals : List Nat
  /-- Worlds. [R321; 4096; none] -/
  worlds : Tab World
  /-- Lantern tag store. [R324, R325; 16 Mi entries; all INVALID] -/
  lantern : List LEntry
  /-- Key slots. [R271; 64; empty] -/
  slots : Tab KeySlot
  /-- TDISP interfaces 1 to 64. [R393, R399; 64; CONFIG_UNLOCKED] -/
  tdis : Tab Tdi
  /-- SPDM master secret, once a session is established. [R399; 384; none] -/
  spdm : Option (BitVec 384)
  /-- A KEY_EXCHANGE has been answered and FINISH is awaited. [R399; 1; 0] -/
  spdmPending : Bool
  /-- Context, host and queue-pair command windows. [R380, R398, R406; -; DESIGN CHOICE 0, log entry 3] -/
  ctxWin : CmdWin
  hostWin : CmdWin
  qpWin : CmdWin
  /-- Commands of the three windows that wait behind a DESTROY, in arrival order. [R380, R398; -; DESIGN CHOICE empty, log entry 3] -/
  hostQueue : List Turn
  /-- Virtual function slots: 8 (function) + slot, and the context bound. [R395; 64 x 8; unbound] -/
  vfSlots : Tab Nat
  /-- Queue pairs. [R405, R406; 65536; none] -/
  qps : Tab Qp
  /-- Ethernet mode words. [R406; 5 x 2; 00 (R406)] -/
  ethMode : List (BitVec 2)
  /-- Fabric identity word. [R401; 64; DESIGN CHOICE 0, log entry 3] -/
  ident : BitVec 64
  /-- Fabric route table. [R401; 256 x 64; DESIGN CHOICE 0, log entry 3] -/
  routes : Tab (BitVec 64)
  /-- Fabric ports that are up. [R401, R402; 36; DESIGN CHOICE none, log entry 3] -/
  portsUp : BitVec 36
  /-- Export tables: entry 512 d + i. [R404; 4 x 512 x 64; DESIGN CHOICE 0, log entry 3] -/
  exports : Tab (BitVec 64)
  /-- Ingress requests refused, by die. [R255, R404; 4; DESIGN CHOICE 0, log entry 3] -/
  exportRefusals : List Nat
  /-- Requests forwarded for other devices: device and port. [R401; -; none] -/
  forwarded : List (Nat × Nat)
  /-- Requests refused or answered on the links, newest first: kind and status. [R255, R404, R406; -; none] -/
  replies : List (Nat × Nat × List Byte)
  /-- Main rails and boot. [R22, R407; -; booting: the rails are up and POWER_UP has not run] -/
  power : Power
  /-- Steps of the boot order that have been taken. [R407; 0 to 5; 0] -/
  boot : Nat
  /-- Package power limit in watts. [R407; -; 3200 (R407)] -/
  plimit : Nat
  /-- Island frequencies in MHz that differ from nominal. [R407; 128; nominal] -/
  freq : Tab Nat
  /-- Firmware image staged. [R408; -; none] -/
  staged : Option Nat
  /-- Firmware image running. [R399, R408; -; DESIGN CHOICE 0, log entry 3] -/
  firmware : Nat
  /-- Measurement blocks 1 to 4 hold the boot's measurements. [R399; 4; false until booted] -/
  measured : Bool
  /-- Measurement blocks 1 to 4. [R399; 4 x 384; none until booted] -/
  blocks : List (BitVec 384)
  /-- Fused minimum security version. [R399; -; DESIGN CHOICE 0, log entry 3] -/
  minVersion : Nat
  /-- AER state. [R389, R390; -; clear] -/
  aer : Aer
  /-- Correctable event counters, by 16 (die) + unit class. [R389; 32 each; DESIGN CHOICE 0, log entry 3] -/
  correctable : Tab Nat
  /-- Scrub events by stack. [R252, R408; -; DESIGN CHOICE 0, log entry 3] -/
  scrubs : List Nat
  /-- DRAM lines that ECC cannot correct. [R252; -; none] -/
  badLines : List Nat
  /-- Hardware disagreements that have happened and not yet been met. [R152, R294, R295; -; none] -/
  injected : List Inject
  /-- Stopped by a shared-structure corruption until a reset. [R391; 1; 0] -/
  stopped : Bool
  /-- Kills since power-up. [R385; 32; 0] -/
  kills : Nat
deriving DecidableEq, Repr, Inhabited

/-- Why the machine stops with a fault. -/
inductive Fault where
  /-- Raised by every thread instruction whose current thread `cur` names no live thread. No step of the machine
  raises it: a turn for a thread that does not exist changes nothing. Safe: nothing is claimed of such a state. -/
  | noThread
deriving DecidableEq, Repr, Inhabited

/-- Why an instruction has no meaning here. -/
inductive Refusal where
  /-- Answered only by an arm of `exec` whose instruction has no meaning yet. Safe. -/
  | notModelled (mnemonic : String)
deriving DecidableEq, Repr, Inhabited

/-- The machine right after reset: the rails are up, nothing is placed, every context is FREE, every table holds its
power-up value (R181, R254, R258, R363, R406, R407); what the spec gives no reset value is named in log entries 1 to 4. -/
def State.reset : State where
  cur := 0
  agenda := []
  tick := 0
  fresh := 0
  threads := []
  groups := []
  cgroups := []
  insts := []
  clusters := []
  cores := []
  ctxs := []
  parts := []
  mem := []
  marks := []
  lines := []
  flights := []
  recs := []
  collapsing := []
  moving := []
  hashes := []
  tierPtr := [0, 0]
  tierCur := [0, 0]
  cards := []
  waitingNotices := []
  xclk := [0, 0, 0, 0]
  window := 0
  points := []
  btables := []
  acl := []
  refusals := List.replicate 8 0
  worlds := []
  lantern := []
  slots := []
  tdis := []
  spdm := none
  spdmPending := false
  ctxWin := {}
  hostWin := {}
  qpWin := {}
  hostQueue := []
  vfSlots := []
  qps := []
  ethMode := List.replicate 5 0
  ident := 0
  routes := []
  portsUp := 0
  exports := []
  exportRefusals := List.replicate 4 0
  forwarded := []
  replies := []
  power := .booting
  boot := 0
  plimit := 3200
  freq := []
  staged := none
  firmware := 0
  measured := false
  blocks := []
  minVersion := 0
  aer := {}
  correctable := []
  scrubs := List.replicate 8 0
  badLines := []
  injected := []
  stopped := false
  kills := 0

end Sys2Proof.Machine
end

