-- ==== Sys2Proof/Config.lean ====
section
/-! DEFINITION. Config.lean: what the spec leaves open, as opaque constants: nothing can prove a value of any of them.
A step applies them to the counter `State.tick` (or to what the open value depends on). -/

namespace Sys2Proof.Config

open Sys2Proof Sys2Proof.Machine

/-- FREE VALUE (log entry 1): the turn taken when the agenda is empty: which agent moves, or what arrives from outside. -/
opaque turn : Nat → Turn

/-- FREE VALUE (log entry 5): a byte read from another device of the fabric domain (R397, R402). -/
opaque remoteByte : Nat → Nat → Byte

/-- FREE VALUE (log entry 6): the offset of the byte that a read of a frame with clashing masks returns (R251). -/
opaque clashOffset : Nat → Nat

/-- FREE VALUE (log entry 7): DRAM and CXL contents after a Conventional Reset (R396). -/
opaque dramAfterReset : Nat → List Host.Cell

/-- FREE VALUE (log entry 8): the body of a Hamper's section by its type and its place among those of the type, whose layout belongs to
the image version, but for what R184 lays out (R365). -/
opaque sectionBody : Image → Nat → Nat → List Byte

/-- FREE VALUE (log entry 8): the device key and the IV under which an encrypted section's body is sealed: context, place (R365). -/
opaque hamperKey : Nat → BitVec 256
opaque hamperIv : Nat → Nat → BitVec 96

/-- FREE VALUE (log entry 8): what a valid image that is not the one saved last holds, its numbers being the model's own (R365). -/
opaque foreignImage : Nat → List Byte → Image

/-- FREE VALUE (log entry 8): the image version this device writes (R365); implementation-defined. -/
opaque imageVersion : BitVec 16

/-- FREE VALUE (log entry 15): the L2 slice that serves a physical line (R13, R257), taken modulo the slices of its die; the spec gives no slice hash. -/
opaque sliceOf : Nat → Nat

/-- FREE VALUE (log entry 15): lines that refresh needs in each period of a memory port: the floor and ceiling of class 8 (R258). -/
opaque refreshFloor : Nat

/-- FREE VALUE (log entry 9): a remote port's answer to an RDMA work entry: its completion status when not OK (R406). -/
opaque rdmaStatus : Nat → Nat

/-- FREE VALUE (log entry 15): bytes of the expander at each of the two CXL ports; together at most 4 TiB are used (R400). Fixed for the machine. -/
opaque cxlBytes : Nat → Nat

/-- FREE VALUE (log entry 9): whether another device refuses a read, write or atomic of this one (R404). -/
opaque remoteRefuses : Nat → Bool → Bool

/-- FREE VALUE (log entry 11): the operand, row and k fields that MSTAT records for a substituted element of C, for which R298
has no code. -/
opaque cSubstituted : Nat → BitVec 64

/-- FREE VALUE (log entry 12): dies that another member of a domain context holds: domain, rank, time (R403). -/
opaque memberDies : Nat → Nat → Nat → Nat

/-- FREE VALUE (log entry 12): whether every member of a domain context on other devices has joined (R403). -/
opaque domainJoined : Nat → Nat → Bool

/-- FREE VALUE (log entry 12): whether the other members' threads and groups of a domain card are ready for the step that this
device is about to take with them (R402, R403). -/
opaque membersReady : Nat → Nat → Bool

/-- What the other members of a domain card add to its completion record (R348, R403). -/
structure MemberSums where
  nthr : Nat
  ntok : Nat
  ftok : Option (Nat × Word)
  flags : BitVec 5
deriving DecidableEq, Repr, Inhabited

/-- FREE VALUE (log entry 12): those sums: domain, time. -/
opaque memberSums : Nat → Nat → MemberSums

/-- FREE VALUE (log entry 13): what the boot chain finds of a firmware image (R399): whether the boot ROM verifies its management
controller's firmware, whether its RSA-4096 and ML-DSA-87 signatures verify, and its security version. -/
opaque controllerOk : Nat → Bool
opaque rsaOk : Nat → Bool
opaque mldsaOk : Nat → Bool
opaque securityVersion : Nat → Nat

/-- FREE VALUE (log entry 13): the measurement of a firmware image that SPDM measurement block 1 to 4 holds (R399). -/
opaque measurement : Nat → Nat → BitVec 384

/-- FREE VALUE (log entry 93): the package's power in watts as the management controller measures it (R407, R408). -/
opaque packagePower : Nat → Nat

/-- FREE VALUE (log entry 48): the visits that an issued TRAV has made when a checkpoint stops it (R320). -/
opaque travStop : Nat → Nat

/-- FREE VALUE (log entry 97): whether an instruction uses the value of a context register that a parked MTSR is writing: time, place of
the write (R377). -/
opaque sysTaken : Nat → Nat → Bool

/-- FREE VALUE (log entry 13): banks that the vault's built-in test retires at a power-up: cluster, group, bank (R227). -/
opaque hardBanks : Nat → List (Nat × Nat × Nat)

/-- FREE VALUE (log entry 14): the address ranges of the selective IDE stream that the host has bound to a TDI: time, TDI (R399). -/
opaque ideStream : Nat → Nat → Option (List (Nat × Nat))

end Sys2Proof.Config
end

