-- ==== Sys2Proof/Machine/Tables.lean ====
section
/-! DEFINITION. Tables.lean: tables of numbered things, and memory as a list of cells in its canonical form (R1). -/

namespace Sys2Proof.Machine

open Sys2Proof

/-! ## Tables -/

/-- The entry under a key. -/
def tget? {α : Type} : Tab α → Nat → Option α
  | [], _ => none
  | (k, v) :: t, i => if k = i then some v else tget? t i

/-- The entry under a key, or `d`. -/
def tgetD {α : Type} (d : α) (t : Tab α) (i : Nat) : α := (tget? t i).getD d

/-- Writes an entry, keeping the keys strictly rising. -/
def tput {α : Type} : Tab α → Nat → α → Tab α
  | [], i, v => [(i, v)]
  | (k, w) :: t, i, v =>
    if i < k then (i, v) :: (k, w) :: t else if i = k then (i, v) :: t else (k, w) :: tput t i v

/-- Removes an entry. -/
def terase {α : Type} (t : Tab α) (i : Nat) : Tab α := t.filter fun e => e.1 ≠ i

/-- Applies `f` to every entry. -/
def tmap {α : Type} (f : Nat → α → α) (t : Tab α) : Tab α := t.map fun e => (e.1, f e.1 e.2)

/-- Whether the keys rise strictly. -/
def tsorted {α : Type} : Tab α → Bool
  | [] => true
  | [_] => true
  | a :: b :: t => a.1 < b.1 && tsorted (b :: t)

/-! ## Bytes -/

/-- The byte at an address; an unlisted address reads as zero (log entry 2). -/
def memRead : List Host.Cell → Nat → Byte
  | [], _ => 0
  | (k, b) :: m, a => if k = a then b else memRead m a

/-- Writes a byte, keeping the canonical form: a zero is not listed. -/
def memWrite : List Host.Cell → Nat → Byte → List Host.Cell
  | [], a, v => if v = 0 then [] else [(a, v)]
  | (k, b) :: m, a, v =>
    if a < k then (if v = 0 then (k, b) :: m else (a, v) :: (k, b) :: m)
    else if a = k then (if v = 0 then m else (a, v) :: m)
    else (k, b) :: memWrite m a v

/-- Strictly rising addresses, none listed as zero, every address above `lo`. -/
def Memory.wfFrom : Nat → List Host.Cell → Bool
  | _, [] => true
  | lo, (k, b) :: m => lo ≤ k && b ≠ 0 && Memory.wfFrom (k + 1) m

/-- The canonical form of a memory. -/
def Memory.wf (m : List Host.Cell) : Bool := Memory.wfFrom 0 m

/-- Writes many bytes, in order. -/
def memWrites (m : List Host.Cell) (cs : List Host.Cell) : List Host.Cell :=
  cs.foldl (fun m c => memWrite m c.1 c.2) m

/-- The bytes of a number, low byte first (R1). -/
def leBytes : Nat → Nat → List Byte
  | 0, _ => []
  | n + 1, v => BitVec.ofNat 8 v :: leBytes n (v / 256)

/-- The number that bytes spell, low byte first (R1). -/
def leNat : List Byte → Nat
  | [] => 0
  | b :: bs => b.toNat + 256 * leNat bs

/-- The first `n` bytes, as words of four bytes. -/
def bytesToWords : List Byte → List Word
  | a :: b :: c :: d :: t => BitVec.ofNat 32 (leNat [a, b, c, d]) :: bytesToWords t
  | [] => []
  | t => [BitVec.ofNat 32 (leNat t)]

/-- Consecutive addresses with their bytes. -/
def cellsAt (a : Nat) (bs : List Byte) : List Host.Cell := (List.range bs.length).zipWith (fun i b => (a + i, b)) bs

/-- Adds a number to a rising list of numbers. -/
def setAdd : List Nat → Nat → List Nat
  | [], n => [n]
  | k :: t, n => if n < k then n :: k :: t else if n = k then k :: t else k :: setAdd t n

/-- Removes a number from a list. -/
def setDel (l : List Nat) (n : Nat) : List Nat := l.filter (· ≠ n)

/-- Replaces element `i` of a list by `f` of it. -/
def listMod {α : Type} (l : List α) (i : Nat) (f : α → α) : List α :=
  match l, i with
  | [], _ => []
  | a :: t, 0 => f a :: t
  | a :: t, i + 1 => a :: listMod t i f

end Sys2Proof.Machine
end

