-- ==== Sys2Proof/Machine/Vault.lean ====
section
/-! DEFINITION. Vault.lean: the banks, parity groups and error handling of one vault (R222 to R230). Lines are numbered
by offset: a line of the vault's offsets lies at the physical line `vHome` gives, once R230 has remapped a group. -/

namespace Sys2Proof.Machine

open Sys2Proof

/-! ## Banks, rows and groups (R222, R230) -/

def vRow (line : Nat) : Nat := line / 32
def vBank (line : Nat) : Nat := line % 32
def vGroup (line : Nat) : Nat := line % 32 / 4

/-- Where a line lies after the remap of R230. -/
def vHome (v : Vault) (line : Nat) : Nat :=
  match v.remapped with
  | none => line
  | some g =>
    if vGroup line = g then
      let i := vRow line * 4 + line % 4
      let b := i % 28
      32 * (3584 + i / 28) + (if b < 4 * g then b else b + 4)
    else line

/-- The line of the vault's offsets that lies at a physical line. -/
def vUnhome (v : Vault) (p : Nat) : Nat :=
  match v.remapped with
  | none => p
  | some g =>
    if vGroup p ≠ g && 3584 ≤ vRow p then
      let b := if vBank p < 4 * g then vBank p else vBank p - 4
      let i := (vRow p - 3584) * 28 + b
      32 * (i / 4) + 4 * g + i % 4
    else p

/-- A parity group of a vault. -/
def vGrp (v : Vault) (g : Nat) : PGroup := v.groups.getD g {}

def setGrp (v : Vault) (g : Nat) (p : PGroup) : Vault := { v with groups := v.groups.set g p }

/-- The number of a parity line among uncorrectable lines. -/
def parityLine (g row : Nat) : Nat := 131072 + 4096 * g + row

/-- A physical line as its bank holds it. -/
def rawLine (v : Vault) (p : Nat) : BitVec 512 :=
  BitVec.ofNat 512 (leNat ((List.range 64).map fun i => memRead v.bytes (64 * p + i)))

def putRaw (v : Vault) (p : Nat) (x : BitVec 512) : Vault := { v with bytes := memWrites v.bytes (cellsAt (64 * p) (leBytes 64 x.toNat)) }

/-- The other three lines of a row's group. -/
def otherLines (p : Nat) : List Nat := ((List.range 4).map fun j => p - p % 4 + j).filter (· ≠ p)

def xorRaw (v : Vault) (ps : List Nat) : BitVec 512 := ps.foldl (fun x p => x ^^^ rawLine v p) 0

/-- A row's parity once every queued update has landed. -/
def fullParity (p : PGroup) (row : Nat) : BitVec 512 :=
  p.queue.foldl (fun x u => if u.1 = row then x ^^^ u.2 else x) (tgetD 0 p.parity row)

/-- Whether a row's parity lags behind its data (R224). -/
def staleRow (p : PGroup) (row : Nat) : Bool := p.queue.any fun u => u.1 = row

/-- Whether a line lies in the retired data bank of a DEGRADED group. -/
def retiredBank (g : PGroup) (p : Nat) : Bool := g.st = .degraded && g.rbank = some (p % 4)

/-- A physical line's bytes: of a retired bank, by reconstruction (R228). -/
def vContent (v : Vault) (p : Nat) : BitVec 512 :=
  let g := vGrp v (vGroup p)
  if retiredBank g p then xorRaw v (otherLines p) ^^^ fullParity g (vRow p) else rawLine v p

/-- A byte at an offset of the vault, without looking for errors. -/
def vPeek (v : Vault) (off : Nat) : Byte :=
  let p := vHome v (off / 64)
  if retiredBank (vGrp v (vGroup p)) p then (vContent v p).extractLsb' (8 * (off % 64)) 8 else memRead v.bytes (64 * p + off % 64)

/-- Whether a line's group has FAILED (R228). -/
def vFailed (v : Vault) (line : Nat) : Bool := (vGrp v (vGroup (vHome v line))).st = .failed

/-! ## Parity updates and transitions (R224, R227 to R229) -/

/-- The state after a bank is retired: 0 to 3 a data bank, 4 the parity bank (R228). -/
def retire (p : PGroup) (b : Nat) : PGroup :=
  match p.st with
  | .healthy => if b = 4 then { p with st := .noparity } else { p with st := .degraded, rbank := some b }
  | .degraded => if p.rbank = some b then p else { p with st := .failed, rbank := none }
  | .noparity => if b = 4 then p else { p with st := .failed }
  | .failed => p

/-- A bank whose count has reached 256 and which is not retired yet (R227). -/
def dueBank (p : PGroup) : Option Nat :=
  (List.range 5).find? fun b => 256 ≤ p.counts.getD b 0 && p.st ≠ .failed && !(p.st = .degraded && p.rbank = some b) && !(p.st = .noparity && b = 4)

/-- The transition that waits next, if none waits already. -/
def nextDue (p : PGroup) : PGroup := if p.pendingRetire.isNone then { p with pendingRetire := dueBank p } else p

/-- A waiting transition is taken; a further bank that is due then waits in its place (R227, R229). -/
def takeTransition (p : PGroup) : PGroup :=
  match p.pendingRetire with
  | none => p
  | some b => nextDue { retire p b with pendingRetire := none }

/-- Counts a rebuild or recomputation; the 256th retires the bank (R227). -/
def countError (p : PGroup) (b : Nat) : PGroup := nextDue { p with counts := listMod p.counts b (· + 1) }

/-- The parity of a line's row is computed anew from its data, its queued updates are dropped, and the parity bank is counted; a data line
that is itself uncorrectable meets a reconstruction fault (R225). -/
def mendParity (v : Vault) (p : Nat) : Vault :=
  let g := vGroup p
  let q := vGrp v g
  let lost := (p :: otherLines p).filter fun o => v.bad.contains o
  let v1 := { v with bad := setDel v.bad (parityLine g (vRow p)), marks := lost.foldl (fun m o => setAdd m (vUnhome v o)) v.marks }
  setGrp v1 g (countError { q with parity := tput q.parity (vRow p) (xorRaw v (p :: otherLines p))
                                   queue := q.queue.filter fun u => u.1 ≠ vRow p } 4)

/-- The oldest queued update of a group lands; a parity line that cannot be corrected is computed anew instead (R224, R225). -/
def landParity (v : Vault) (g : Nat) : Vault :=
  let p := vGrp v g
  match p.queue with
  | [] => v
  | (r, d) :: q =>
    if p.st = .healthy && v.bad.contains (parityLine g r) then mendParity v (32 * r + 4 * g)
    else setGrp v g { p with parity := tput p.parity r (tgetD 0 p.parity r ^^^ d), queue := q }

/-- Every queued update of a group lands. -/
def drainParity (v : Vault) (g : Nat) : Vault := (vGrp v g).queue.foldl (fun v _ => landParity v g) v

/-! ## Reading and writing a line (R225, R228) -/

/-- The rebuilt contents of an uncorrectable line, when R225 lets it be rebuilt. -/
def rebuilt? (v : Vault) (p : Nat) : Option (BitVec 512) :=
  let g := vGrp v (vGroup p)
  if g.st = .healthy && !staleRow g (vRow p) && !(otherLines p).any (fun o => v.bad.contains o) &&
     !v.bad.contains (parityLine (vGroup p) (vRow p))
  then some (xorRaw v (otherLines p) ^^^ fullParity g (vRow p)) else none

/-- Reads a line of the vault's offsets: `none` is a reconstruction fault, which has set the line's marker. -/
def vRead (v : Vault) (line : Nat) : Vault × Option (BitVec 512) :=
  let p := vHome v line
  let g := vGroup p
  let fault : Vault × Option (BitVec 512) := ({ v with marks := setAdd v.marks line }, none)
  if retiredBank (vGrp v g) p then
    if (otherLines p).any (fun o => v.bad.contains o) || v.bad.contains (parityLine g (vRow p)) then fault
    else (drainParity v g, some (vContent v p))
  else if v.bad.contains p then
    match rebuilt? v p with
    | some x => (setGrp { putRaw v p x with bad := setDel v.bad p } g (countError (vGrp v g) (p % 4)), some x)
    | none => fault
  else (v, some (rawLine v p))

/-- A waiting transition of a group is taken, one out of HEALTHY once the parity queue is empty (R229). -/
def settleGroup (v : Vault) (g : Nat) : Vault :=
  let v1 := if (vGrp v g).st = .healthy then drainParity v g else v
  setGrp v1 g (takeTransition (vGrp v1 g))

/-- The vault as a write to a group finds it: a waiting transition has been taken, and the queue has room (R224, R229). -/
def readyGroup (v : Vault) (g : Nat) : Vault :=
  let v1 := if (vGrp v g).pendingRetire.isSome then settleGroup v g else v
  if 16 ≤ (vGrp v1 g).queue.length then landParity v1 g else v1

/-- Bytes put into a line. -/
def mergeLine (x : BitVec 512) (cs : List (Nat × Byte)) : BitVec 512 :=
  cs.foldl (fun x c => (x &&& ~~~ (0xFF#512 <<< (8 * c.1))) ||| ((c.2.setWidth 512 : BitVec 512) <<< (8 * c.1))) x

/-- Writes bytes of a line of the vault's offsets; true when it met a reconstruction fault. A FAILED group takes nothing. -/
def vWriteLine (v0 : Vault) (line : Nat) (cs : List (Nat × Byte)) : Vault × Bool :=
  let p := vHome v0 line
  let gi := vGroup p
  let v := readyGroup v0 gi
  let g := vGrp v gi
  let queued (v : Vault) (d : BitVec 512) : Vault := setGrp v gi { vGrp v gi with queue := (vGrp v gi).queue ++ [(vRow p, d)] }
  let land (v : Vault) : Vault := { putRaw v p (mergeLine (rawLine v p) cs) with bad := setDel v.bad p, marks := setAdd v.marks line }
  match g.st with
  | .failed => (v, false)
  | .noparity => if v.bad.contains p then (land v, true) else (putRaw v p (mergeLine (rawLine v p) cs), false)
  | .degraded =>
    if retiredBank g p then
      let old := vContent v p
      let hurt := (otherLines p).any (fun o => v.bad.contains o) || v.bad.contains (parityLine gi (vRow p))
      let v1 := queued (drainParity v gi) (old ^^^ mergeLine old cs)
      (if hurt then { v1 with marks := setAdd v1.marks line } else v1, hurt)
    else if v.bad.contains p then (land v, true)
    else
      let old := rawLine v p
      (queued (putRaw v p (mergeLine old cs)) (old ^^^ mergeLine old cs), false)
  | .healthy =>
    if v.bad.contains p then
      let v1 := drainParity v gi
      match rebuilt? v1 p with
      | some old =>
        let v2 := { putRaw v1 p (mergeLine old cs) with bad := setDel v1.bad p }
        (queued (setGrp v2 gi (countError (vGrp v2 gi) (p % 4))) (old ^^^ mergeLine old cs), false)
      | none => (mendParity (land v1) p, true)
    else
      let old := rawLine v p
      (queued (putRaw v p (mergeLine old cs)) (old ^^^ mergeLine old cs), false)

/-- The lines from `n` that a run of bytes covers, each with its bytes by place in the line. -/
def lineChunks (a : Nat) (bs : List Byte) : List (Nat × List (Nat × Byte)) :=
  let cs := cellsAt a bs
  ((cs.map (·.1 / 64)).eraseDups).map fun l => (l, (cs.filter fun c => c.1 / 64 = l).map fun c => (c.1 % 64, c.2))

/-- Writes bytes at an offset of the vault; the lines that met a reconstruction fault. -/
def vWrite (v : Vault) (a : Nat) (bs : List Byte) : Vault × List Nat :=
  (lineChunks a bs).foldl (fun r c => let (v1, f) := vWriteLine r.1 c.1 c.2; (v1, if f then r.2 ++ [c.1] else r.2)) (v, [])

/-- Writes bytes at an offset of the vault (R224). -/
def vaultPoke (v : Vault) (a : Nat) (bs : List Byte) : Vault := (vWrite v a bs).1

/-- The scrubber reads a physical line, or a parity line, and handles its error: the line of the vault's offsets that met a reconstruction
fault (R225, R227, R228). -/
def vScrub (v : Vault) (n : Nat) : Vault × Option Nat :=
  if !v.bad.contains n then (v, none)
  else if n < 131072 then
    let r := vRead v (vUnhome v n)
    (r.1, if r.2.isNone then some (vUnhome v n) else none)
  else
    let g := (n - 131072) / 4096
    let p := 32 * ((n - 131072) % 4096) + 4 * g
    let q := vGrp v g
    match q.st with
    | .healthy => (mendParity v p, none)
    | .degraded =>
      -- the retired bank's line is lost with its parity
      let l := vUnhome v (p + q.rbank.getD 0)
      ({ v with marks := setAdd v.marks l }, some l)
    | _ => ({ v with bad := setDel v.bad n }, none)

end Sys2Proof.Machine
end

