-- ==== Sys2Proof/Machine/Ops.lean ====
section
/-! DEFINITION. Ops.lean: the named operations over registers, queue ports and the trap frame that every
meaning is written with; taking a trap (R369) and reading sources and writing destinations (R46, R47) are here, once. -/

namespace Sys2Proof.Machine

open Sys2Proof

/-- What a meaning answers. -/
abbrev Out := Host.Outcome State Fault Refusal

/-! ## Places of hardware (R11) -/

/-- Cluster of a core. -/
def clusterOf (core : Nat) : Nat := core / 4

/-- Bay of a core, 0 to 31. -/
def bayOf (core : Nat) : Nat := core / 32

/-- Die of a core. -/
def dieOf (core : Nat) : Nat := core / 256

/-- Column and row of a cluster in its die's mesh (R11). -/
def meshX (cl : Nat) : Nat := cl % 8

def meshY (cl : Nat) : Nat := cl % 64 / 8

/-! ## Parts of the state -/

/-- A hardware cluster. -/
def State.cluster (s : State) (c : Nat) : Cluster := tgetD {} s.clusters c

def State.setCluster (s : State) (c : Nat) (v : Cluster) : State := { s with clusters := tput s.clusters c v }

/-- A hardware core. -/
def State.coreUnit (s : State) (c : Nat) : CoreUnit := tgetD {} s.cores c

def State.setCore (s : State) (c : Nat) (v : CoreUnit) : State := { s with cores := tput s.cores c v }

/-- A context. -/
def State.ctx (s : State) (c : Nat) : Ctx := tgetD {} s.ctxs c

def State.setCtx (s : State) (c : Nat) (v : Ctx) : State := { s with ctxs := tput s.ctxs c v }

/-- A partition. -/
def State.part (s : State) (p : Nat) : Part := tgetD {} s.parts p

def State.setThread (s : State) (i : Nat) (t : Thread) : State := { s with threads := tput s.threads i t }

def State.setGroup (s : State) (i : Nat) (g : CoreGroup) : State := { s with groups := tput s.groups i g }

def State.setCGroup (s : State) (i : Nat) (g : ClusterGroup) : State := { s with cgroups := tput s.cgroups i g }

def State.setInst (s : State) (i : Nat) (v : Inst) : State := { s with insts := tput s.insts i v }

/-- Applies `f` to a thread, if it exists. -/
def State.modThread (s : State) (i : Nat) (f : Thread → Thread) : State :=
  match tget? s.threads i with
  | none => s
  | some t => s.setThread i (f t)

/-- Applies `f` to a core group, if it exists. -/
def State.modGroup (s : State) (i : Nat) (f : CoreGroup → CoreGroup) : State :=
  match tget? s.groups i with
  | none => s
  | some g => s.setGroup i (f g)

/-- Applies `f` to a cluster group, if it exists. -/
def State.modCGroup (s : State) (i : Nat) (f : ClusterGroup → ClusterGroup) : State :=
  match tget? s.cgroups i with
  | none => s
  | some g => s.setCGroup i (f g)

/-- Applies `f` to a card instance, if it exists. -/
def State.modInst (s : State) (i : Nat) (f : Inst → Inst) : State :=
  match tget? s.insts i with
  | none => s
  | some g => s.setInst i (f g)

/-- Where a thread stands: its number, itself, its core group, cluster group and card instance. -/
structure Env where
  tid : Nat
  t : Thread
  g : CoreGroup
  inst : Inst

/-- The environment of a thread. -/
def State.env? (s : State) (tid : Nat) : Option Env :=
  match tget? s.threads tid with
  | none => none
  | some t =>
    match tget? s.groups t.gid with
    | none => none
    | some g =>
      match tget? s.insts g.iid with
      | none => none
      | some i => some { tid := tid, t := t, g := g, inst := i }

/-- The context of a thread (R19). -/
def Env.cx (e : Env) : Nat := e.inst.q.ctx

/-- The hardware cluster of a thread. -/
def Env.cl (e : Env) : Nat := clusterOf e.g.core

/-- Threads of a core group that have not exited, by number. -/
def State.liveOf (s : State) (gid : Nat) : List (Nat × Thread) :=
  s.threads.filter fun e => e.2.gid = gid && e.2.status ≠ .exited

/-! ## Indices (R16 to R18) -/

/-- The global index of R18. -/
def gixOf (i : Inst) (g : CoreGroup) (tix : Nat) : Nat :=
  ((((g.dix * i.bsz + g.bix) * i.ksz + g.kix) * i.csz + g.cix) * i.tsz) + tix

/-- The scope instance of a core group: R186, with a scope above the card's level taken as the whole card. -/
def scopeKey (i : Inst) (g : CoreGroup) : Nat :=
  let sc := i.q.card.scope
  if i.q.card.lvl ≤ sc then 0
  else if sc = 1 then ((g.dix * i.bsz + g.bix) * i.ksz + g.kix) * i.csz + g.cix
  else if sc = 2 then (g.dix * i.bsz + g.bix) * i.ksz + g.kix
  else if sc = 3 then g.dix * i.bsz + g.bix
  else if sc = 4 then g.dix
  else 0

/-- The level at which a commit of an instance is acknowledged when it closes: 0 core, 1 cluster, ... 4 domain (R188). -/
def scopeLevel (i : Inst) : Nat := min i.q.card.scope i.q.card.lvl - 1

/-- Boundaries the thread's instance has closed. -/
def Env.quantum (e : Env) : Nat := tgetD 0 e.inst.bounds (scopeKey e.inst e.g)

/-! ## Registers -/

/-- A thread register. -/
def regAt (t : Thread) (n : Nat) : RegCell := t.regs.getD n {}

def setReg (t : Thread) (n : Nat) (c : RegCell) : Thread := { t with regs := t.regs.set n c }

/-- Writes a register: the value, F = 1 and P; a held mark stays (R371), a pending state ends (R123). -/
def writeReg (t : Thread) (n : Nat) (v : Word) (p : Bool) : Thread :=
  setReg t n { regAt t n with val := v, full := true, poison := p, pend := .no }

/-- Writes consecutive registers. -/
def writeRegs (t : Thread) (n : Nat) : List (Word × Bool) → Thread
  | [] => t
  | (v, p) :: vs => writeRegs (writeReg t n v p) (n + 1) vs

/-- Writes registers one by one. -/
def writeEach (t : Thread) (l : List (Nat × (Word × Bool))) : Thread := l.foldl (fun t p => writeReg t p.1 p.2.1 p.2.2) t

/-- Whether a read finds the register full: a held register reads as F = 0 (R371). -/
def RegCell.readable (c : RegCell) : Bool := c.full && !c.held

/-- Sets a register pending (R123). -/
def setPending (t : Thread) (n : Nat) (p : Pend) : Thread :=
  setReg t n { regAt t n with full := false, pend := p }

/-- A special register's value (R41). -/
def special (s : State) (e : Env) : Special → Word
  | .zr => 0
  | .tix => BitVec.ofNat 32 e.t.tix
  | .mix => BitVec.ofNat 32 (e.t.tix % 64)
  | .cix => BitVec.ofNat 32 e.g.cix
  | .kix => BitVec.ofNat 32 e.g.kix
  | .bix => BitVec.ofNat 32 e.g.bix
  | .dix => BitVec.ofNat 32 e.g.dix
  | .tsz => BitVec.ofNat 32 e.inst.tsz
  | .csz => BitVec.ofNat 32 e.inst.csz
  | .ksz => BitVec.ofNat 32 e.inst.ksz
  | .bsz => BitVec.ofNat 32 e.inst.bsz
  | .dsz => BitVec.ofNat 32 e.inst.dsz
  | .clk => BitVec.ofNat 32 (s.coreUnit e.g.core).clk
  | .prio => e.t.prio.setWidth 32
  | .ctx => BitVec.ofNat 32 e.cx
  | .jarg => (e.inst.q.card.arg.extractLsb' 40 24).setWidth 32

/-- A predicate; p7 is constant true and never poisoned (R26). -/
def predAt (t : Thread) (p : BitVec 3) : PredCell :=
  if p = 7 then { val := true, tok := none } else t.preds.getD p.toNat {}

def writePred (t : Thread) (p : BitVec 3) (v : Bool) (tok : Option Word) : Thread :=
  { t with preds := t.preds.set p.toNat { val := v, tok := tok } }

/-! ## Tokens (R9, R78) -/

/-- The token of a code made by a unit at a code offset. -/
def mkToken (code unit : Nat) (off : BitVec 40) : Word :=
  BitVec.ofNat 8 code ++ BitVec.ofNat 4 unit ++ off.extractLsb' 2 20

/-- The code of a token. -/
def tokCode (w : Word) : Nat := w.toNat / 2 ^ 24

/-- The words of a poisoned destination: the token in the first, zero in the others (R78). -/
def poisonWords (tok : Word) (n : Nat) : List (Word × Bool) :=
  match n with
  | 0 => []
  | n + 1 => (tok, true) :: List.replicate n (0, true)

/-- The words of a clean destination. -/
def cleanWords (ws : List Word) : List (Word × Bool) := ws.map fun w => (w, false)

/-! ## Movement of a thread -/

/-- The program counter `len` bytes on (R89). -/
def pcAdd (pc : Ref) (len : Nat) : Ref := { pc with offset := pc.offset + BitVec.ofNat 40 len }

/-- Moves a thread to the instruction that follows. -/
def advance (t : Thread) (len : Nat) : Thread := { t with pc := pcAdd t.pc len }

/-- Parks a thread; a park discards what it had fetched ahead (R173). -/
def parkThread (t : Thread) (p : Park) : Thread := { t with status := .parked p, fetched := [] }

/-- A next state in which the current thread has fallen through `len` bytes. -/
def fallThrough (s : State) (e : Env) (len : Nat) : Out := .next (s.setThread e.tid (advance e.t len))

/-- A next state in which the thread is parked. -/
def parkOut (s : State) (e : Env) (p : Park) : Out := .next (s.setThread e.tid (parkThread e.t p))

/-- Ends the thread's quantum and parks it to its boundary (R187). -/
def endQuantum (t : Thread) (a : After) : Thread := { parkThread t (.boundary a) with ended := true }

/-- Appends entries to a thread's store buffer, in program order (R183). -/
def appendSb (t : Thread) (es : List SbEntry) : Thread := { t with sb := t.sb ++ es }

/-- The completion of the instruction that fills the 64th entry ends the quantum; the thread has already moved on (R187). -/
def quantumIfFull (t : Thread) : Thread := if 64 ≤ t.sb.length then endQuantum t (.next 0) else t

/-- A store buffer that holds 64 entries takes no more (R183): only the handler of a CSTR that trapped after it stored a member's 64th
entry meets one. DEDUCED (log entry 79): the instruction that needs an entry then ends the quantum first, as a TSTK spill does. -/
def bufferFull (t : Thread) : Bool := 64 ≤ t.sb.length

def endQuantumOut (s : State) (e : Env) (a : After) : Out := .next (s.setThread e.tid (endQuantum e.t a))

/-! ## Kills and error reports (R383, R389, R390) -/

/-- The words of a loss record that depend on the kill: pa, ref, pc, token, and where it was noticed (R385). -/
def killWords (pa : Nat) (ref pc : Word64) (token : Word) (core : Nat) : List Word64 :=
  [BitVec.ofNat 64 pa, ref, pc, token.setWidth 64, BitVec.ofNat 64 core]

/-- Notices that a context must be killed; the first reason stands (R384). -/
def noticeKill (s : State) (cx reason : Nat) (ws : List Word64) : State :=
  let c := s.ctx cx
  match c.kill with
  | some _ => s
  | none => if c.state = .free || c.state = .lost then s else s.setCtx cx { c with kill := some (reason, ws) }

/-- A program counter as a 64-bit reference (R155). -/
def refWord (r : Ref) : Word64 := r.index ++ r.offset

/-- A 64-bit reference taken apart (R155). -/
def wordRef (w : Word64) : Ref := { index := w.extractLsb' 40 24, offset := w.extractLsb' 0 40 }

/-- Counts a correctable event of a die and unit class (R389). -/
def countCorrectable (s : State) (die unit : Nat) : State :=
  { s with correctable := tput s.correctable (16 * die + unit)
             (min (tgetD 0 s.correctable (16 * die + unit) + 1) 0xFFFFFFFF)
           aer := { s.aer with corr := true } }

/-- The header log of a contained event (R390). -/
def headerLog (part cx kind unit code : Nat) (site : BitVec 24) (pa : Nat) : List Word :=
  [BitVec.ofNat 32 (kind * 2 ^ 24 + unit * 2 ^ 20 + part * 2 ^ 10 + cx % 512), BitVec.ofNat 32 (code * 2 ^ 24 + site.toNat), BitVec.ofNat 32 pa,
   BitVec.ofNat 32 (pa / 2 ^ 32)]

/-- A contained event on one function: its status bits, and its log unless an earlier one is held (R390). -/
def logEvent (a : Aer) (log : List Word) (fn : Nat) : Aer :=
  { a with funcs := if a.funcs.contains fn then a.funcs else a.funcs ++ [fn]
           logs := if (tget? a.logs fn).isSome then a.logs else tput a.logs fn log }

/-- Reports a contained uncorrectable event on the physical function and on those that the context is bound to (R389, R390). -/
def reportContained (s : State) (kind unit cx code : Nat) (site : BitVec 24) (pa : Nat) : State :=
  let c := s.ctx cx
  let log := headerLog c.part cx kind unit code site pa
  { s with aer := (0 :: c.vfs.map (·.1)).foldl (logEvent · log ·) { s.aer with uncorr := true } }

/-- Software clears a function's status bits, and its first-error pointer is released (R390). -/
def clearAer (s : State) (fn : Nat) : State :=
  { s with aer := { s.aer with uncorr := s.aer.uncorr && fn ≠ 0, funcs := s.aer.funcs.filter (· ≠ fn), logs := terase s.aer.logs fn } }

/-! ## Traps (R367 to R370) -/

/-- What an instruction raises: cause, fault code, token, TFAUX, and whether TFPC holds the next instruction. -/
structure Raise where
  cause : Nat
  code : Nat := 0
  token : Word := 0
  aux : Word := 0
  pcOff : Nat := 0
  /-- Replay entries of the trapping instruction itself: CSTR's own, or what RETT has still to re-inject (R369, R372). -/
  extra : List Captive := []

/-- Whether an issued instruction has still to perform its access (R368). -/
def Acc.unperformed (a : Acc) : Bool :=
  match a.kind with
  | .load .. => true
  | .atomi .. => true
  | .atomiAck .. => false
  | .done _ => false
  | .trav .. => false

/-- Marks a register held: it reads as empty until its instruction is re-injected (R369, R371). -/
def holdReg (t : Thread) (n : Nat) : Thread :=
  setReg t n { regAt t n with full := false, pend := .no, held := true }

/-- TFCAUSE's value for a raise (R370). -/
def causeWord (t : Thread) (r : Raise) : Word :=
  BitVec.ofNat 11 0 ++ t.prio ++ BitVec.ofNat 8 r.code ++ BitVec.ofNat 8 r.cause

/-- The kill of a trap that finds its thread in handler mode, or no handler (R369, R383). -/
def trapKill (s : State) (e : Env) (reason : Nat) (r : Raise) : State :=
  noticeKill s e.cx reason (killWords 0 0 (refWord e.t.pc) (causeWord e.t r) e.g.core)

/-- The thread as a trap leaves it: frame written, captives captured, pc at the handler (R369). -/
def enterHandler (t : Thread) (trapbase : Word64) (r : Raise) : Thread :=
  let captured := t.accs.filter Acc.unperformed
  let t1 := captured.foldl (fun t a => a.dst.foldl holdReg t) t
  let q := captured.map Captive.acc ++ r.extra
  let base := wordRef trapbase
  { t1 with
    accs := t.accs.filter fun a => !a.unperformed
    replay := q
    tfcause := causeWord t r
    tftoken := r.token
    tfpc := refWord (pcAdd t.pc r.pcOff)
    tfaux := r.aux
    tfrqn := BitVec.ofNat 32 q.length
    handler := true
    reinject := false
    status := .ready
    pc := { base with offset := base.offset &&& ~~~ (3 : BitVec 40) } }

/-- Counts a raise for the completion record: R84, R348. -/
def countRaise (i : Inst) (gix : Nat) (first : Bool) (tok : Word) : Inst :=
  { i with
    ntok := min (i.ntok + 1) 0xFFFFFFFF
    ftok := match i.ftok with
      | none => some (gix, tok)
      | some (g, w) => if gix < g && first then some (gix, tok) else some (g, w) }

/-- `raise(cause)` (R369), for one thread. -/
def raise (s : State) (e : Env) (r : Raise) : State :=
  if e.t.handler then trapKill s e 3 r
  else if (s.ctx e.cx).trapbase.getLsbD 0 = false then trapKill s e 4 r
  else s.setThread e.tid (enterHandler e.t (s.ctx e.cx).trapbase r)

/-- A raise of a token (R84): the trap, and the count of R348. -/
def raisePoison (s : State) (e : Env) (tok : Word) (aux : Nat) (pcOff : Nat := 0) (extra : List Captive := []) : State :=
  let first := e.t.firstTok.isNone
  let s1 := s.modInst e.g.iid fun i => countRaise i (gixOf i e.g e.t.tix) first tok
  let t1 := { e.t with firstTok := some (e.t.firstTok.getD tok) }
  raise (s1.setThread e.tid t1) { e with t := t1 }
    { cause := 8, token := tok, aux := BitVec.ofNat 32 aux, pcOff := pcOff, extra := extra }

/-- The trap `FAULT` with a code, detected by a unit (R367). -/
def raiseFault (s : State) (e : Env) (code unit : Nat) : State :=
  raise s e { cause := 9, code := code, token := mkToken code unit e.t.pc.offset }

/-- The trap `FAULT` an entry takes because a source is poisoned (R84): the token itself. -/
def raiseFaultTok (s : State) (e : Env) (tok : Word) : State :=
  raise s e { cause := 9, code := tokCode tok, token := tok }

/-! ## Queue ports (R129 to R131) -/

/-- Words of a slot of a ring. -/
def slotWords (r : Ring) : Nat := 2 ^ r.ssz

/-- A ring's header, as its first 20 bytes (R239). -/
def ringHeader (r : Ring) : List Byte :=
  leBytes 4 r.head ++ leBytes 4 r.tail ++ leBytes 4 r.cval.toNat ++
    leBytes 4 (r.lg + 32 * r.ssz + (if r.closed then 128 else 0)) ++ leBytes 4 r.discarded

/-- Puts a ring back into its cluster group and its header into the vault. -/
def putRing (s : State) (cgid : Nat) (cg : ClusterGroup) (r : Ring) : State :=
  let s1 := s.setCGroup cgid { cg with rings := cg.rings.map fun x => if x.num = r.num then r else x }
  let c := s1.cluster cg.cluster
  s1.setCluster cg.cluster { c with vault := vaultPoke c.vault (cg.base + r.base) (ringHeader r) }

/-- A ring of a cluster group. -/
def findRing (s : State) (cgid num : Nat) : Option (ClusterGroup × Ring) :=
  match tget? s.cgroups cgid with
  | none => none
  | some cg => (cg.rings.find? fun r => r.num = num).map fun r => (cg, r)

/-- Published positions of a ring that no thread holds. -/
def readySlots (r : Ring) : List Nat :=
  ((List.range (r.tail - r.head)).map (· + r.head)).filter fun p => !r.freed.contains p && !r.reserved.contains p

/-- Free slots of a ring (R239). -/
def freeSlots (r : Ring) : Nat := 2 ^ r.lg - (r.tail - r.head) - r.opens.length

/-- The words at a position of a ring. -/
def slotData (s : State) (cg : ClusterGroup) (r : Ring) (pos : Nat) : List Word :=
  let a := cg.base + r.base + 64 + (pos % 2 ^ r.lg) * (4 * slotWords r)
  let v := (s.cluster cg.cluster).vault
  bytesToWords ((List.range (4 * slotWords r)).map fun i => vPeek v (a + i))

/-- Moves `head` over the freed positions that follow it (R130). -/
def advanceHead : Nat → Ring → Ring
  | 0, r => r
  | n + 1, r =>
    if r.freed.contains r.head then advanceHead n { r with head := r.head + 1, freed := r.freed.filter (· ≠ r.head) } else r

/-- Takes the next word for a thread's reservation on a port, whatever it is bound to; `none` when no word is there. -/
def popWord (s : State) (gid tid q : Nat) : Option (State × Word) :=
  match tget? s.groups gid with
  | none => none
  | some g =>
    let p := g.ports.getD q {}
    let setPops (s : State) (ps : List PopRes) : State :=
      s.modGroup gid fun g => { g with ports := listMod g.ports q fun p => { p with pops := ps } }
    let others := p.pops.filter fun r => r.tid ≠ tid
    match p.binding with
    | .unbound => none
    | .ring cgid num =>
      match findRing s cgid num with
      | none => none
      | some (cg, r) =>
        let finish (pos : Nat) (w : Word) (rest : List Word) (r : Ring) : Option (State × Word) :=
          match rest with
          | [] =>
            let r1 := advanceHead (r.freed.length + 1)
              { r with reserved := r.reserved.filter (· ≠ pos), freed := pos :: r.freed }
            some (setPops (putRing s cgid cg r1) others, w)
          | rest => some (setPops (putRing s cgid cg r) ({ tid := tid, slot := pos, rest := rest } :: others), w)
        match p.pops.find? fun r => r.tid = tid with
        | some { slot := pos, rest := w :: rest, .. } => finish pos w rest r
        | _ =>
          match readySlots r with
          | pos :: _ =>
            match slotData s cg r pos with
            | w :: rest => finish pos w rest { r with reserved := pos :: r.reserved }
            | [] => none
          | [] => if r.closed && r.reserved = [] then some (s, r.cval) else none
    | .miss w _ =>
      match p.pops.find? fun r => r.tid = tid with
      | some { rest := v :: rest, .. } =>
        some (setPops s (if rest = [] then others else { tid := tid, slot := 0, rest := rest } :: others), v)
      | _ =>
        match tget? s.worlds w with
        | none => none
        | some wd =>
          match wd.missq with
          | (v :: rest) :: more =>
            let cx := match tget? s.insts g.iid with | some i => i.q.ctx | none => 0
            let rec0 := v :: rest
            -- the pop of a record's first word claims the entry (R329)
            let claim (e : LEntry) : LEntry :=
              if !e.valid && e.world = w && e.claim = none && e.obj = v && e.uv = rec0.getD 1 0 &&
                 e.level = bitsOf (rec0.getD 2 0).toNat 12 8 && e.rev = bitsOf (rec0.getD 2 0).toNat 31 16 &&
                 e.slot = bitsOf (rec0.getD 3 0).toNat 23 0
              then { e with claim := some cx } else e
            let s1 := { s with worlds := tput s.worlds w { wd with missq := more }, lantern := s.lantern.map claim }
            some (setPops s1 ({ tid := tid, slot := 0, rest := rest } :: others), v)
          | _ => none
    | .jobs =>
      match p.pops.find? fun r => r.tid = tid with
      | some { rest := v :: rest, .. } =>
        some (setPops s (if rest = [] then others else { tid := tid, slot := 0, rest := rest } :: others), v)
      | _ =>
        match g.notices with
        | (v :: rest) :: more =>
          some (setPops (s.modGroup gid fun g => { g with notices := more }) ({ tid := tid, slot := 0, rest := rest } :: others), v)
        | _ => none

/-- Notices of a core group's view that take room: those unread, and those a thread has begun to pop (R130, R355). -/
def viewHeld (g : CoreGroup) : Nat :=
  g.ports.foldl (fun n p => n + if p.binding = .jobs then p.pops.length else 0) g.notices.length

/-- Pops `n` words, or none at all. -/
def popWords (s : State) (gid tid q : Nat) : Nat → Option (State × List Word)
  | 0 => some (s, [])
  | n + 1 =>
    match popWord s gid tid q with
    | none => none
    | some (s1, w) => (popWords s1 gid tid q n).map fun (s2, ws) => (s2, w :: ws)

/-- Pushes one word into a ring through a port: opens a slot, publishes it when full, or discards into a closed ring (R130, R131);
`none` when there is no room. -/
def pushWord (s : State) (cgid num tid q : Nat) (w : Word) : Option State :=
  match findRing s cgid num with
  | none => none
  | some (cg, r) =>
    if r.closed then some (putRing s cgid cg { r with discarded := min (r.discarded + 1) 0xFFFFFFFF })
    else
      let mine := (r.opens.find? fun o => o.tid = tid && o.port = q).map fun o => o.words
      let others := r.opens.filter fun o => !(o.tid = tid && o.port = q)
      if mine.isNone && freeSlots r = 0 then none
      else
        let ws := mine.getD [] ++ [w]
        if ws.length < slotWords r then some (putRing s cgid cg { r with opens := others ++ [{ tid := tid, port := q, words := ws }] })
        else
          let c := s.cluster cg.cluster
          let a := cg.base + r.base + 64 + (r.tail % 2 ^ r.lg) * (4 * slotWords r)
          let s1 := s.setCluster cg.cluster
            { c with vault := vaultPoke c.vault a (ws.flatMap fun w => leBytes 4 w.toNat) }
          some (putRing s1 cgid cg { r with opens := others, tail := r.tail + 1 })

/-- Pushes words in order, or none at all. -/
def pushWords (s : State) (cgid num tid q : Nat) : List Word → Option State
  | [] => some s
  | w :: ws =>
    match pushWord s cgid num tid q w with
    | none => none
    | some s1 => pushWords s1 cgid num tid q ws

/-! ## Sources and destinations (R42, R43, R46, R47) -/

/-- A source an instruction reads: how many registers, and whether its wait bit is implied 1. -/
structure SrcReq where
  src : Src
  words : Nat := 1

/-- A destination an instruction writes. -/
structure DstReq where
  reg : Reg
  words : Nat := 1

/-- What a source read gives: its words, and the token when it is poisoned (R9: the low register's P tag). -/
structure SrcVal where
  words : List Word
  tok : Option Word
deriving Inhabited

def SrcVal.v32 (v : SrcVal) : Word := v.words.headD 0

def SrcVal.v64 (v : SrcVal) : Word64 := pair64 (v.words.getD 1 0) (v.words.headD 0)

/-- The registers `x`n a register operand covers. -/
def xRegs (r : Reg) (words : Nat) : List Nat :=
  match r with
  | .x n => (List.range words).map (n + ·)
  | _ => []

/-- The outcome of the source part of R46. `go` carries the state after the pops. -/
inductive Prep where
  | skip
  | trap (r : Raise)
  | poison (tok : Word) (aux : Nat)
  | kill
  | park (p : Park)
  | atomicWait
  | go (s1 : State) (vals : List SrcVal) (gtok : Option Word)

/-- The first empty register of a list. -/
def firstEmpty (t : Thread) (rs : List Nat) : Option Nat := rs.find? fun n => !(regAt t n).readable

/-- What an empty source register does: R46's three-way choice, R187's wait for the thread's own deferred atomic, and
R371's held registers. `src` is the source's register number, `r` its first empty register. -/
def emptyOutcome (t : Thread) (sp : Bool) (src r : Nat) (wait : Bool) : Option Prep :=
  let c := regAt t r
  if wait then
    if c.held then some .kill
    else if c.pend = .atomic then some .atomicWait
    else some (.park (.full r))
  else if sp then none
  else some (.trap { cause := 7, aux := BitVec.ofNat 32 src })

/-- Reads a source that is no port: full registers, or token 0x07. -/
def readSrc (s : State) (e : Env) (q : SrcReq) : SrcVal :=
  match q.src.reg with
  | .x n =>
    match firstEmpty e.t (xRegs (.x n) q.words) with
    | some _ => { words := [], tok := some (mkToken 0x07 0 e.t.pc.offset) }
    | none =>
      { words := (xRegs (.x n) q.words).map fun i => (regAt e.t i).val
        tok := if (regAt e.t n).poison then some (regAt e.t n).val else none }
  | .k n => { words := (List.range q.words).map fun i => e.g.k.getD (n + i) 0, tok := none }
  | .s z => { words := special s e z :: List.replicate (q.words - 1) 0, tok := none }
  | .q _ => { words := [], tok := none }

/-- The binding of a port. -/
def portBinding (e : Env) (q : Nat) : Binding := (e.g.ports.getD q {}).binding

/-- What the first empty register among the used sources does, in the order A, B, C (R46). -/
def emptyCheck (e : Env) (h : Head) (q : SrcReq) : Option Prep :=
  match firstEmpty e.t (xRegs q.src.reg q.words) with
  | some n => emptyOutcome e.t h.sp ((xRegs q.src.reg 1).headD n) n q.src.wait
  | none => none

/-- Reads the used sources in order, popping the ports among them (R46, R130). -/
def readAll (e : Env) (h : Head) : State → List SrcReq → Except Prep (State × List SrcVal)
  | s, [] => .ok (s, [])
  | s, q :: qs =>
    let one : Except Prep (State × SrcVal) :=
      match q.src.reg with
      | .q n =>
        if portBinding e n = .unbound then
          if h.sp then .ok (s, { words := [], tok := some (mkToken 0x0E 0 e.t.pc.offset) })
          else .error (.trap { cause := 9, code := 0x0E, token := mkToken 0x0E 0 e.t.pc.offset })
        else match popWords s e.t.gid e.tid n q.words with
          | some (s1, ws) => .ok (s1, { words := ws, tok := none })
          | none =>
            if q.src.wait then .error (.park (.pop n q.words))
            else if h.sp then .ok (s, { words := [], tok := some (mkToken 0x07 0 e.t.pc.offset) })
            else .error (.trap { cause := 7, aux := BitVec.ofNat 32 (224 + n) })
      | _ => .ok (s, readSrc s e q)
    match one with
    | .error p => .error p
    | .ok (s1, v) =>
      match readAll e h s1 qs with
      | .error p => .error p
      | .ok (s2, vs) => .ok (s2, v :: vs)

/-- A destination that cannot be written yet: a pending or lent register, or a port with no room (R47, R124, R281). -/
def dstWait (s : State) (e : Env) (d : DstReq) : Option Prep :=
  match d.reg with
  | .x _ =>
    match (xRegs d.reg d.words).find? fun n => (regAt e.t n).pend ≠ .no || (regAt e.t n).lent with
    | none => none
    | some n => if (regAt e.t n).pend = .atomic then some .atomicWait else some (.park (.pending n))
  | .q n =>
    match portBinding e n with
    | .ring cgid num => if (pushWords s cgid num e.tid n (List.replicate d.words 0)).isSome then none else some (.park (.push n d.words))
    | .unbound => some (.trap { cause := 9, code := 0x0E, token := mkToken 0x0E 0 e.t.pc.offset })
    | _ => some (.trap { cause := 9, code := 0x02, token := mkToken 0x02 0 e.t.pc.offset })
  | _ => none

/-- The first destination that cannot be written yet. -/
def dstWaits (s : State) (e : Env) (ds : List DstReq) : Option Prep := ds.findSome? (dstWait s e)

/-- Whether every thread register named lies below the group's n (R43). -/
def allocated (e : Env) (rs : List Nat) : Bool := rs.all (· < e.g.nregs)

/-- The guard's value under `pn` (R46). -/
def guardVal (t : Thread) (h : Head) : Bool := (predAt t h.pg).val != h.pn

/-- Whether a destination is a queue port. -/
def Reg.isQ : Reg → Bool
  | .q _ => true
  | _ => false

/-- R46 up to the point where the sources are read, with R43 and R82. `strict`: a poisoned guard raises whatever `sp` is, as
for a store or a push; under `sp` it takes the sources' choices and pops nothing. -/
def prepare (s : State) (e : Env) (h : Head) (srcs : List SrcReq) (dsts : List DstReq) (extra : List Nat := [])
    (strict : Bool := false) : Prep :=
  let gtok := (predAt e.t h.pg).tok
  if gtok.isSome && (!h.sp || strict || dsts.any (fun d => Reg.isQ d.reg)) then .poison (gtok.getD 0) 3
  else if gtok.isNone && !guardVal e.t h then .skip
  else if !allocated e (srcs.flatMap (fun q => xRegs q.src.reg q.words) ++ dsts.flatMap (fun d => xRegs d.reg d.words) ++ extra) then
    .trap { cause := 4, aux := 11 }
  else
    match srcs.findSome? (emptyCheck e h) with
    | some p => p
    | none =>
      match readAll e h s srcs with
      | .error p => p
      | .ok (s1, vs) => .go (if gtok.isSome then s else s1) vs gtok

/-- What an instruction does with a `Prep` that does not go on: fall through, trap, park, or wait for its own atomic. -/
def prepOut (s : State) (e : Env) (len : Nat) : Prep → Out
  | .skip => fallThrough s e len
  | .trap r => .next (raise s e r)
  | .poison tok aux => .next (raisePoison s e tok aux)
  | .kill => .next (noticeKill s e.cx 3 (killWords 0 0 (refWord e.t.pc) e.t.tfcause e.g.core))
  | .park p => parkOut s e p
  | .atomicWait => endQuantumOut s e .again
  | .go _ _ _ => .next s

/-- The environment again after the state changed. -/
def Env.refresh (e : Env) (s : State) : Env := (s.env? e.tid).getD e

/-- The cause with which an outcome traps a thread or kills its context from the handler, if it does. -/
def trapCause (s : State) (e : Env) : Out → Option (BitVec 8)
  | .next t =>
    match (s.ctx e.cx).kill, (t.ctx e.cx).kill with
    | none, some (_, ws) => some ((ws.getD 3 0).extractLsb' 0 8)
    | _, _ => match tget? t.threads e.tid with
      | some x => if x.handler && !e.t.handler then some (x.tfcause.extractLsb' 0 8) else none
      | none => none
  | _ => none

/-- Whether an outcome traps before it writes its destinations; FPX, cause 11, comes after them (R46, R69). -/
def trapsFirst (s : State) (e : Env) (o : Out) : Bool :=
  match trapCause s e o with
  | some c => c ≠ 11
  | none => false

/-- The frame every thread instruction is written in: the current thread, R46's guard and sources, then `k` with the
state after the pops, the environment, the source values, and the guard's token when it is poisoned under `sp`. A destination that
cannot be written yet parks the thread, unless what comes before the write traps (R46, R47, R124; log entry 81). -/
def withSrcs (s : State) (h : Head) (len : Nat) (srcs : List SrcReq) (dsts : List DstReq)
    (k : State → Env → List SrcVal → Option Word → Out) (extra : List Nat := []) (strict : Bool := false) : Out :=
  match s.env? s.cur with
  | none => .fault .noThread
  | some e =>
    match prepare s e h srcs dsts extra strict with
    | .go s1 vals gtok =>
      match dstWaits s e dsts with
      | none => k s1 (e.refresh s1) vals gtok
      | some p => let o := k s1 (e.refresh s1) vals gtok; if trapsFirst s e o then o else prepOut s e len p
    | p => prepOut s e len p

/-- The token a poisoned result carries: the first poisoned source, then the guard (R81, R82). -/
def resultTok (vals : List SrcVal) (gtok : Option Word) : Option Word :=
  match vals.findSome? (·.tok) with
  | some t => some t
  | none => gtok

/-- Writes a register destination: registers, `zr`, or a push (R47, R130). Data may carry P. -/
def writeDst (s : State) (e : Env) (r : Reg) (ws : List (Word × Bool)) : State :=
  match r with
  | .x n => s.setThread e.tid (writeRegs e.t n ws)
  | .q n =>
    match portBinding e n with
    | .ring cgid num => (pushWords s cgid num e.tid n (ws.map (·.1))).getD s
    | _ => s
  | _ => s

/-- Writes the destination and moves on; a poisoned push raises instead, on the state `s0` from before the pops (R46, R84,
R130). -/
def finish (s : State) (e : Env) (len : Nat) (r : Reg) (ws : List (Word × Bool)) (s0 : State := s) : Out :=
  if Reg.isQ r && (ws.headD (0, false)).2 then .next (raisePoison s0 e (ws.headD (0, false)).1 5)
  else
    let s1 := writeDst s e r ws
    .next (s1.modThread e.tid fun t => advance t len)

/-- Writes the destination poisoned and moves on. -/
def finishTok (s : State) (e : Env) (len : Nat) (r : Reg) (words : Nat) (tok : Word) : Out :=
  finish s e len r (poisonWords tok words)

/-- Writes a predicate and moves on. -/
def finishPred (s : State) (e : Env) (len : Nat) (p : BitVec 3) (v : Bool) (tok : Option Word) : Out :=
  .next (s.setThread e.tid (advance (writePred e.t p v tok) len))

/-- A fault of an instruction with a destination: a trap, or under `sp` a token (R165). -/
def faultOrTok (s : State) (e : Env) (h : Head) (len : Nat) (r : Reg) (words code unit : Nat) : Out :=
  if h.sp then finishTok s e len r words (mkToken code unit e.t.pc.offset)
  else .next (raiseFault s e code unit)

/-- Adds an issued long-latency instruction: its destinations become pending (R123). -/
def issueAcc (s : State) (e : Env) (len : Nat) (op : BitVec 8) (fmt : BitVec 2) (sp : Bool) (dst : List Nat) (k : AccKind) : State :=
  let t1 := dst.foldl (fun t n => setPending t n .other) e.t
  let a : Acc := { id := s.fresh, kind := k, dst := dst, quantum := e.quantum, off := e.t.pc.offset, op := op, fmt := fmt, sp := sp }
  { s with fresh := s.fresh + 1 }.setThread e.tid (advance { t1 with accs := t1.accs ++ [a] } len)

/-- Whether a word among the sources was popped from a port. -/
def poppedAny (srcs : List SrcReq) (vals : List SrcVal) : Bool := (srcs.zip vals).any fun p => Reg.isQ p.1.src.reg && !p.2.words.isEmpty

/-- Writes a result: after a pop it lands in a thread register as a long-latency producer's does (R123, R130), else at once. `s0`: the
state of before the pops. -/
def finishLand (s : State) (e : Env) (len : Nat) (srcs : List SrcReq) (vals : List SrcVal) (r : Reg) (ws : List (Word × Bool))
    (s0 : State := s) : Out :=
  match r with
  | .x _ => if poppedAny srcs vals then .next (issueAcc s e len 0 0 false (xRegs r ws.length) (.done ws)) else finish s e len r ws s0
  | _ => finish s e len r ws s0

/-- A ninth captive instruction does not issue (R368): those under way and those captured in the frame count, since none of them has
performed its access. -/
def captiveFull (t : Thread) : Bool := 8 ≤ (t.accs.filter Acc.unperformed).length + t.replay.length

end Sys2Proof.Machine
end

