-- ==== Sys2Proof/Machine/Mem.lean ====
section
/-! DEFINITION. Mem.lean: memory as each observer reads it (R192, R195, R197), the caches that hold lines (R253), the
checks of a reference (R155 to R165), the two-stage walk (R174, R175) and fault records (R176). -/

namespace Sys2Proof.Machine

open Sys2Proof

/-! ## Physical addresses (R249, R397) -/

def hbmTop : Nat := 0x6000000000
def cxlBase : Nat := 0x10000000000
def cxlTop : Nat := cxlBase + min (Config.cxlBytes 0 + Config.cxlBytes 1) 0x40000000000
def remoteBase : Nat := 2 ^ 48
def hostBase : Nat := 2 ^ 51

def isHbm (pa : Nat) : Bool := pa < hbmTop
def isCxl (pa : Nat) : Bool := cxlBase ≤ pa && pa < cxlTop
def isRemote (pa : Nat) : Bool := remoteBase ≤ pa && pa < 2 ^ 49 && (pa - remoteBase) % 2 ^ 40 < hbmTop
def isHost (pa : Nat) : Bool := hostBase ≤ pa && pa < 2 ^ 52

/-- The expander and its own address at which a tier-1 address lies: 4 KiB interleaved when both are of one size, else port 0's first
(R400). -/
def cxlPlace (pa : Nat) : Nat × Nat :=
  let o := pa - cxlBase
  if Config.cxlBytes 0 = Config.cxlBytes 1 then (o / 4096 % 2, o / 8192 * 4096 + o % 4096)
  else if o < Config.cxlBytes 0 then (0, o) else (1, o - Config.cxlBytes 0)

/-- The tier-1 address of a place in an expander. -/
def cxlAddr (port off : Nat) : Nat :=
  cxlBase + (if Config.cxlBytes 0 = Config.cxlBytes 1 then off / 4096 * 8192 + port * 4096 + off % 4096
             else if port = 0 then off else Config.cxlBytes 0 + off)

/-- Addresses that something answers at (R397). -/
def populated (pa : Nat) : Bool := isHbm pa || isCxl pa || isRemote pa || isHost pa

/-- This device's number in its fabric domain: bits [7:0] of the identity word (R401). -/
def State.device (s : State) : Nat := s.ident.toNat % 256

/-- An address of this device's own HBM, named through the domain range, is that HBM address (R397). -/
def State.homePa (s : State) (pa : Nat) : Nat :=
  if isRemote pa && (pa - remoteBase) / 2 ^ 40 = s.device then pa % 2 ^ 40 else pa

/-- Whether requests to a remote address leave through a port that is up (R401, R402). -/
def State.reachable (s : State) (pa : Nat) : Bool :=
  let r := tgetD 0 s.routes ((pa - remoteBase) / 2 ^ 40)
  s.ident.getLsbD 63 && r.getLsbD 36 && (r.extractLsb' 0 36 &&& s.portsUp) ≠ 0

/-- The HBM frame of an address, its stack and die (R249). -/
def frameOf (pa : Nat) : Nat := pa / 2 ^ 21
def stackOf (pa : Nat) : Nat := frameOf pa % 8

/-- The default hash masks (R250). -/
def defaultMasks : List Nat := [0x0001, 0x0002, 0x0004, 0x0108, 0x0210, 0x0420, 0x0840, 0x1080]

/-- Parity of a 13-bit number. -/
def parity13 (v : Nat) : Bool := (List.range 13).foldl (fun p i => p != v.testBit i) false

/-- `pc_of` (R9): bit i is the parity of g AND mask i. -/
def pcOf (g : Nat) (masks : List Nat) : Nat :=
  (List.range 8).foldl (fun p i => if parity13 (g &&& masks.getD i 0) then p + 2 ^ i else p) 0

/-- The pseudo-channel of an HBM address under masks (R249). -/
def channelOf (masks : List Nat) (pa : Nat) : Nat := pcOf (pa % 2 ^ 21 / 256) masks

/-- Gaussian elimination over GF(2) on the low eight bits of the masks: whether Q is invertible (R251). -/
def invertible : Nat → List Nat → Bool
  | 0, _ => true
  | n + 1, rows =>
    match rows.find? fun r => r.testBit n with
    | none => false
    | some p => invertible n ((rows.erase p).map fun r => if r.testBit n then r ^^^ p else r)

/-! ## Bytes -/

/-- The resident line that holds a byte. -/
def findLine (ls : List CLine) (line : Nat) : Option CLine := ls.find? fun l => l.line = line

/-- A byte as the device holds it once every write to it is acknowledged: L2 or victim cache, else its memory. -/
def State.homeByte (s : State) (pa : Nat) : Byte :=
  if isRemote pa then Config.remoteByte s.tick pa
  else match (findLine s.lines (pa / 64)).bind fun l => (l.dirty.find? fun d => d.1 = pa % 64).map (·.2) with
    | some b => b
    | none => memRead s.mem pa

/-- Who looks (R192). -/
inductive Obs where
  | group (gid core : Nat)
  | cluster (cl : Nat)
  | die (d : Nat)
  | domain
deriving DecidableEq, Repr

/-- Writers that belong to no core group. -/
def noGroup : Nat := 2 ^ 64

/-- Whether a write has reached an observer in a cluster. -/
def Flight.seenIn (f : Flight) (cl : Nat) : Bool :=
  (1 ≤ f.lvl && clusterOf f.core = cl) || (2 ≤ f.lvl && f.core / 32 = cl / 8) || (3 ≤ f.lvl && f.core / 256 = cl / 64)

/-- Whether a write has reached an observer (R188, R192). -/
def Flight.seen (f : Flight) : Obs → Bool
  | .group gid core => (f.early && f.gid = gid) || f.seenIn (clusterOf core)
  | .cluster cl => f.seenIn cl
  | .die d => 3 ≤ f.lvl && f.core / 256 = d
  | .domain => false

/-- The last byte a flight writes at an address. -/
def cellOf (cs : List Host.Cell) (pa : Nat) : Option Byte :=
  cs.foldl (fun r c => if c.1 = pa then some c.2 else r) none

/-- The latest write, among those that `p` admits, to a byte (R197: flights stand in the order of their bytes). -/
def flightByte (fs : List Flight) (p : Flight → Bool) (pa : Nat) : Option Byte :=
  fs.foldl (fun r f => if p f then (match cellOf f.cells pa with | some b => some b | none => r) else r) none

/-- A byte as an observer reads it. -/
def State.viewByte (s : State) (o : Obs) (pa : Nat) : Byte :=
  (flightByte s.flights (fun f => f.seen o) pa).getD (s.homeByte pa)

/-- A byte as the last write of its order left it. -/
def State.lastByte (s : State) (pa : Nat) : Byte := (flightByte s.flights (fun _ => true) pa).getD (s.homeByte pa)

/-- Whether a write has left its writer's L1 for the L2 (R172, R219). -/
def Flight.inL2For (f : Flight) (core : Nat) : Bool := f.inL2 || (2 ≤ f.lvl && f.seenIn (clusterOf core))

/-- A byte as instruction fetch of a core fills it from L2. -/
def State.l2Byte (s : State) (core pa : Nat) : Byte :=
  (flightByte s.flights (fun f => f.inL2For core) pa).getD (s.homeByte pa)

/-- Whether a line's poison marker is set, as an observer finds it (R85). -/
def State.marked (s : State) (p : Flight → Bool) (line : Nat) : Bool :=
  s.flights.foldl (fun m f => if p f then (if f.marked.contains line then true else if f.whole.contains line then false else m) else m)
    (s.marks.contains line)

def State.viewMarked (s : State) (o : Obs) (line : Nat) : Bool := s.marked (fun f => f.seen o) line

def State.lastMarked (s : State) (line : Nat) : Bool := s.marked (fun _ => true) line

/-- The lines that addresses touch. -/
def linesOf (pas : List Nat) : List Nat := (pas.map (· / 64)).eraseDups

/-! ## Frames under two hashes (R251) -/

/-- Notes that an entry with some masks reached a frame. -/
def noteHash (s : State) (masks : List Nat) (pa : Nat) : State :=
  if !isHbm pa then s
  else match tget? s.hashes (frameOf pa) with
    | none => { s with hashes := tput s.hashes (frameOf pa) (masks, !invertible 8 (masks.map (· % 256))) }
    | some (m, c) => if c || m = masks then s else { s with hashes := tput s.hashes (frameOf pa) (m, true) }

/-- Whether reads of a frame may return any bytes of it. -/
def clashing (s : State) (pa : Nat) : Bool := isHbm pa && ((tget? s.hashes (frameOf pa)).map (·.2)).getD false

/-- A byte that a read finds: that of its address, or a byte of its frame that the spec leaves open. -/
def State.clashByte (s : State) (byte : Nat → Byte) (pa : Nat) : Byte :=
  if clashing s pa then byte (frameOf pa * 2 ^ 21 + Config.clashOffset (s.tick * 64 + pa % 64) % 2 ^ 21) else byte pa

/-- The byte a read by an observer finds. -/
def State.loadByte (s : State) (o : Obs) (pa : Nat) : Byte := s.clashByte (s.viewByte o) pa

/-- The byte an atomic finds: that of the last write of its order. -/
def State.atomByte (s : State) (pa : Nat) : Byte := s.clashByte s.lastByte pa

/-- The byte an instruction cache's fill from L2 finds. -/
def State.fillByte (s : State) (core pa : Nat) : Byte := s.clashByte (s.l2Byte core) pa

/-- A number of `n` bytes, read by an observer. -/
def State.viewNat (s : State) (o : Obs) (pa n : Nat) : Nat := leNat ((List.range n).map fun i => s.loadByte o (pa + i))

/-- Bytes at a physical address, as the device reads them. -/
def physBytes (s : State) (pa n : Nat) : List Byte := (List.range n).map fun i => s.loadByte .domain (pa + i)

/-! ## Requests at the budget points (R257) -/

/-- The slice that serves an address: of its stack's die for HBM (R13, R253, R257). -/
def slicePoint (pa : Nat) : Nat :=
  if isHbm pa then 32 * (stackOf pa / 2) + Config.sliceOf (pa / 64) % 32 else Config.sliceOf (pa / 64) % 128

/-- The memory port of an HBM address. -/
def portPoint (pa : Nat) : Nat := 128 + stackOf pa

/-- The device itself, where a request belongs to no context. -/
def noContext : Nat := 512

/-- The budget class of a context's requests, its partition's; the device's own are the management controller's (R257). -/
def classOf (s : State) (cx : Nat) : Nat := if cx = noContext then 15 else (s.part (s.ctx cx).part).bclass

/-- The class of a context's request for a line: tier-1 requests are the CXL ports' (R257, R400). -/
def classAt (s : State) (cx line : Nat) : Nat := if isCxl (64 * line) then 13 else classOf s cx

/-- A budget point. -/
def State.point (s : State) (p : Nat) : BPoint := tgetD {} s.points p

/-- A request joins a class queue at one of some points. -/
def joinQueue (pts : Tab BPoint) (p c id : Nat) : Tab BPoint :=
  let b := tgetD {} pts p
  tput pts p { b with queues := listMod b.queues c (· ++ [id]) }

/-- A request joins its class queue at a point. -/
def ask (s : State) (p c id : Nat) : State := { s with points := joinQueue s.points p c id }

/-- A request that nothing in the machine waits for. -/
def noWaiter : Nat := 2 ^ 64

/-- A line's request at its slice. -/
def askSlice (s : State) (cls line : Nat) : State := ask s (slicePoint (64 * line)) cls noWaiter

/-- A line's request at its stack's memory port. -/
def askPort (s : State) (cls line : Nat) : State := if isHbm (64 * line) then ask s (portPoint (64 * line)) cls noWaiter else s

/-! ## Lines in L2 and the victim cache (R253), counters (R263) -/

/-- Counts one transfer for a context: `ev` 0 a DRAM line read, 1 a DRAM line write, 3 a victim-cache hit. -/
def countPc (s : State) (cx : Nat) (masks : List Nat) (line ev : Nat) : State :=
  if !isHbm (line * 64) then s
  else
    let c := s.ctx cx
    match c.armed with
    | none => s
    | some (st, e) =>
      if st = stackOf (line * 64) && (e = ev || (e = 2 && ev ≤ 1)) then
        let p := channelOf masks (line * 64)
        s.setCtx cx { c with counts := tput c.counts p (min (tgetD 0 c.counts p + 1) 0xFFFFFFFF) }
      else s

/-- Whether lines of an address are held in L2 and, for the device's own stacks, in a victim cache. -/
def cacheable (line : Nat) : Bool := isHbm (line * 64) || isCxl (line * 64)

/-- A DRAM line that cannot be corrected gets its marker when it is read (R252). -/
def meetError (s : State) (line : Nat) : State :=
  if s.badLines.contains line then { s with marks := setAdd s.marks line, badLines := setDel s.badLines line } else s

/-- Lines of one L2 partition of 32 MiB, or of one victim cache of 32 MiB (R13). -/
def cacheLines : Nat := 524288

/-- Whether the partition of a line's slice, or its stack's victim cache, has room for one more line (R13). -/
def cacheRoom (s : State) (victim : Bool) (line : Nat) : Bool :=
  let same (l : CLine) : Bool := l.victim = victim &&
    (if victim then stackOf (64 * l.line) = stackOf (64 * line) else slicePoint (64 * l.line) / 4 = slicePoint (64 * line) / 4)
  s.lines.length < cacheLines || (s.lines.filter same).length < cacheLines

/-- Brings a line in for an access: a victim hit moves it to L2, a miss reads DRAM unless the line is written whole; `vict` puts it
into the victim cache (R163, R253). A line that finds no room passes through. -/
def bringLine (s : State) (cls cx : Nat) (masks : List Nat) (vict whole : Bool) (line : Nat) : State :=
  if !cacheable line then s
  else
    let vict := vict && isHbm (line * 64)
    match findLine s.lines line with
    | some l =>
      let s1 := if l.victim then countPc s cx masks line 3 else s
      if l.victim = vict || !cacheRoom s vict line then s1
      else { s1 with lines := s1.lines.map fun x => if x.line = line then { x with victim := vict } else x }
    | none =>
      let s1 := if whole then { s with badLines := setDel s.badLines line } else countPc (askPort (meetError s line) cls line) cx masks line 0
      if cacheRoom s vict line then { s1 with lines := s1.lines ++ [{ line := line, victim := vict, dirty := [] }] } else s1

/-- Whether an access that reads a line meets an error that ECC cannot correct. -/
def meetsError (s : State) (line : Nat) : Bool := s.badLines.contains line && cacheable line && (findLine s.lines line).isNone

/-- A request of a class for a line: it joins the queue of its slice, brings the line in, and reports an error it meets
(R252, R257). -/
def touchAs (s : State) (cls cx : Nat) (masks : List Nat) (vict whole : Bool) (line : Nat) : State :=
  let s1 := if !whole && meetsError s line then reportContained s 1 1 cx 0x0B 0 (64 * line) else s
  bringLine (askSlice s1 cls line) cls cx masks vict whole line

/-- A request of a context for a line, in its own class. -/
def touchLine (s : State) (cx : Nat) (masks : List Nat) (vict whole : Bool) (line : Nat) : State :=
  touchAs s (classAt s cx line) cx masks vict whole line

/-- Writes a byte into its resident line, or straight to memory where no line is held. -/
def putHome (cx : Nat) (s : State) (c : Host.Cell) : State :=
  match findLine s.lines (c.1 / 64) with
  | some _ =>
    { s with lines := s.lines.map fun l =>
        if l.line = c.1 / 64 then { l with dirty := (c.1 % 64, c.2) :: l.dirty.filter (fun d => d.1 ≠ c.1 % 64), ctx := cx } else l }
  | none => if isRemote c.1 then s else { s with mem := memWrite s.mem c.1 c.2 }

/-- Whether cells write every byte of a line. -/
def coversLine (cs : List Host.Cell) (line : Nat) : Bool :=
  (List.range 64).all fun i => (cellOf cs (64 * line + i)).isSome

/-- As `touchLine`, for an access that reports the token it makes of a marked line itself. -/
def touchQuiet (s : State) (cx : Nat) (masks : List Nat) (vict whole : Bool) (line : Nat) : State :=
  bringLine (askSlice s (classAt s cx line) line) (classAt s cx line) cx masks vict whole line

/-- A write on its way home: its context, budget class, masks and policy. -/
structure Via where
  cx : Nat
  cls : Nat
  masks : List Nat
  vict : Bool := false

/-- The class of a line of such a write. -/
def Via.classAt (v : Via) (line : Nat) : Nat := if isCxl (64 * line) then 13 else v.cls

/-- Lets a write reach its home, last in the order of its bytes: lines, bytes, and markers (R85, R253). Lines of `cover` are written
whole, though not by these bytes alone. -/
def landCells (s : State) (v : Via) (cs : List Host.Cell) (cover whole marked : List Nat) : State :=
  let s1 := (linesOf (cs.map (·.1))).foldl (fun s l => touchAs s (v.classAt l) v.cx v.masks v.vict (cover.contains l || coversLine cs l) l) s
  let s2 := cs.foldl (putHome v.cx) s1
  { s2 with marks := marked.foldl setAdd (whole.foldl setDel s2.marks) }

/-- Takes bytes that a later write has covered out of the flights before it. -/
def dropCells (fs : List Flight) (cs : List Host.Cell) : List Flight :=
  fs.map fun f => { f with cells := f.cells.filter fun c => (cellOf cs c.1).isNone }

/-- Lines that cells write whole. -/
def wholeLines (cs : List Host.Cell) : List Nat := (linesOf (cs.map (·.1))).filter (coversLine cs)

/-- Bytes written at domain level, arriving now: they are the last of their places (R192, R208). -/
def arriveBytes (s : State) (v : Via) (cs : List Host.Cell) : State :=
  landCells ((linesOf (cs.map (·.1))).foldl (fun s l => noteHash s v.masks (64 * l)) { s with flights := dropCells s.flights cs }) v cs [] (wholeLines cs) []

/-- A write of the device for a context, under the default masks (R250). -/
def pokeBytes (s : State) (cx : Nat) (pa : Nat) (bs : List Byte) : State :=
  arriveBytes s { cx := cx, cls := classOf s cx, masks := defaultMasks } (cellsAt pa bs)

/-- Adds a write in flight. -/
def addFlight (s : State) (f : Flight) : State :=
  { s with fresh := s.fresh + 1, flights := s.flights ++ [{ f with id := s.fresh }] }

/-! ## Buffer table (R158 to R160) -/

/-- A buffer-table entry taken apart. -/
structure BufE where
  ok : Bool
  base : Nat
  length : Nat
  owner : Nat
  shared : Bool
  /-- S L M C A X W R, from bit 7 down (R171). -/
  rights : BitVec 8
  tier : Nat
  masks : List Nat
deriving DecidableEq, Repr, Inhabited

/-- R159, R160. -/
def bufEntry (e : BitVec 256) : BufE :=
  let base := (e.extractLsb' 0 57).toNat
  let h := e.getLsbD 60
  let s := e.getLsbD 115
  let owner := (e.extractLsb' 116 12).toNat
  { ok := e.getLsbD 63 && e.extractLsb' 0 6 = 0 && e.extractLsb' 57 3 = 0 && e.extractLsb' 104 4 = 0 && e.extractLsb' 232 24 = 0 &&
      !(h && e.extractLsb' 0 21 ≠ 0) && !(!s && 512 ≤ owner)
    base := base
    length := (e.extractLsb' 64 40).toNat
    owner := owner
    shared := s
    rights := e.extractLsb' 108 8
    tier := (e.extractLsb' 61 2).toNat
    masks := if h then (List.range 8).map fun i => (e.extractLsb' (128 + 13 * i) 13).toNat else defaultMasks }

/-! ## Translation (R174, R175) -/

/-- A leaf: base of its page, the offset bits it leaves, its rights and flags, and where the entry lies. -/
structure Leaf where
  addr : Nat
  r : Bool
  w : Bool
  x : Bool
  sh : Bool
  dup : Bool
  at_ : Nat
  lvl : Nat
deriving DecidableEq, Repr

/-- The end of a walk. -/
inductive Walk where
  | leaf (l : Leaf)
  /-- Stopped at a level; `malformed`. -/
  | stop (level : Nat) (malformed : Bool)
deriving DecidableEq, Repr

/-- Whether an entry with V = 1 keeps to the table of R174 at a level. -/
def pteWf (stage2 : Bool) (lvl e : Nat) : Bool :=
  let lf := bitOf e 1
  let addrLow (n : Nat) := bitsOf e (n - 1) 12 = 0
  bitsOf e 63 60 = 0 && bitsOf e 55 52 = 0 && bitsOf e 11 9 = 0 && !bitOf e 5 &&
    (if lf then lvl ≤ 2 && (lvl = 0 || !bitOf e 8) && (stage2 || (!bitOf e 7 && !bitOf e 6)) &&
        (lvl = 0 || (if lvl = 1 then addrLow 21 else addrLow 30))
     else lvl ≠ 0 && bitsOf e 4 2 = 0 && bitsOf e 8 6 = 0)

/-- One level of a walk after another, with the addresses of the entries read; `rd` reads a table entry. -/
def walkFrom (stage2 : Bool) (rd : Nat → Nat) (va : Nat) : Nat → Nat → List Nat × Walk
  | 0, _ => ([], .stop 0 true)
  | n + 1, table =>
    let entryAt := table + 8 * (va / 2 ^ (12 + 9 * n) % 512)
    let e := rd entryAt
    if !bitOf e 0 then ([entryAt], .stop n false)
    else if !pteWf stage2 n e then ([entryAt], .stop n true)
    else
      let addr := bitsOf e 51 12 * 4096
      if bitOf e 1 then
        let off := va % 2 ^ (12 + 9 * n)
        if stage2 && !populated (addr + off) then ([entryAt], .stop n true)
        else ([entryAt], .leaf { addr := addr + off, r := bitOf e 2, w := bitOf e 3, x := bitOf e 4, sh := bitOf e 6, dup := bitOf e 7, at_ := entryAt, lvl := n })
      else let r := walkFrom stage2 rd va n addr; (entryAt :: r.1, r.2)

/-- Stage 2: intermediate physical to physical, for a context seen from a die, with the entries read. -/
def stage2Reads (s : State) (die root ipa : Nat) : List Nat × Walk := walkFrom true (fun a => s.viewNat (.die die) a 8) ipa 5 root

/-- Stage 2 alone. -/
def stage2 (s : State) (die root ipa : Nat) : Walk := (stage2Reads s die root ipa).2

/-- The address a stage-2 leaf gives a die: its own copy of a read-duplicated page (R179). -/
def leafAddr (c : Ctx) (die : Nat) (l : Leaf) : Nat := if l.dup then l.addr + die * c.stride else l.addr

/-- Why an access does not go ahead. -/
inductive Miss where
  | fault (code : Nat)
  /-- A fault record: level, kind, address (R176), and the virtual address of the access, where it has one. -/
  | page (level kind addr : Nat) (va : Option Nat)
  | collapse (leaf : Nat)
  /-- A write to a moving frame, through an entry of a level, at an intermediate physical and a virtual address. -/
  | moving (frame level ipa va : Nat)
deriving DecidableEq, Repr

/-- Reads a stage-1 table entry through stage 2; a stage-2 stop there names the entry's own address. -/
def readStage1 (s : State) (c : Ctx) (die : Nat) (va ipa : Nat) : List Nat × Except Miss Nat :=
  match stage2Reads s die c.s2root ipa with
  | (ps, .leaf l) => let pa := leafAddr c die l; (ps ++ [pa], .ok (s.viewNat (.die die) pa 8))
  | (ps, .stop lvl mal) => (ps, .error (.page lvl (if mal then 4 else 1) ipa (some va)))

/-- Stage 1, with the stage-2 stops of its own table reads. -/
def stage1 (s : State) (c : Ctx) (die va : Nat) : Nat → Nat → List Nat × Except Miss Leaf
  | 0, _ => ([], .error (.page 0 3 va (some va)))
  | n + 1, table =>
    let entryAt := table + 8 * (va / 2 ^ (12 + 9 * n) % 512)
    match readStage1 s c die va entryAt with
    | (ps, .error m) => (ps, .error m)
    | (ps, .ok e) =>
      if !bitOf e 0 then (ps, .error (.page n 0 va (some va)))
      else if !pteWf false n e then (ps, .error (.page n 3 va (some va)))
      else
        let addr := bitsOf e 51 12 * 4096
        if bitOf e 1 then
          (ps, .ok { addr := addr + va % 2 ^ (12 + 9 * n), r := bitOf e 2, w := bitOf e 3, x := bitOf e 4, sh := false, dup := false, at_ := entryAt, lvl := n })
        else let r := stage1 s c die va n addr; (ps ++ r.1, r.2)

/-- Walks both stages for a virtual page, with the physical addresses of the entries read. -/
def walk2 (s : State) (cx die va : Nat) : List Nat × Except Miss TlbE :=
  let c := s.ctx cx
  match stage1 s c die va 5 c.s1root with
  | (ps, .error m) => (ps, .error m)
  | (ps, .ok l1) =>
    match stage2Reads s die c.s2root l1.addr with
    | (qs, .stop lvl mal) => (ps ++ qs, .error (.page lvl (if mal then 4 else 1) l1.addr (some va)))
    | (qs, .leaf l2) =>
      (ps ++ qs, .ok { ctx := cx, vpage := va / 4096, ipage := l1.addr / 4096, ppage := leafAddr c die l2 / 4096
                       r1 := l1.r, w1 := l1.w, x1 := l1.x, r2 := l2.r, w2 := l2.w, x2 := l2.x, sh := l2.sh, dup := l2.dup, leaf := l2.at_, lvl := l2.lvl })

/-- The device reads entries of a table for a context, under the default masks (R250, R257, R263). -/
def tableReads (s : State) (cx : Nat) (pas : List Nat) : State :=
  pas.foldl (fun s pa => touchLine (noteHash s defaultMasks pa) cx defaultMasks false false (pa / 64)) s

/-- A tier's control block address, when its sweep is enabled (R181). -/
def tierBlock? (s : State) (tier : Nat) : Option Nat :=
  let p := (s.tierCur.getD tier 0).toNat
  if bitOf p 0 && bitsOf p 63 52 = 0 && bitsOf p 5 1 = 0 then some (bitsOf p 51 6 * 64) else none

/-- Base of a tier's memory. -/
def tierBase (tier : Nat) : Nat := if tier = 0 then 0 else cxlBase

/-- The frame-table entry of an address, when its tier is swept (R181). -/
def frameEntry? (s : State) (pa : Nat) : Option Nat :=
  let tier := if isHbm pa then 0 else 1
  if !(isHbm pa || isCxl pa) then none
  else match tierBlock? s tier with
    | none => none
    | some b =>
      let f := (pa - tierBase tier) / 2 ^ 21
      if f < s.viewNat .domain (b + 28) 4 then some (s.viewNat .domain (b + 32) 8 + 16 * f) else none

/-- A TLB fill sets `AC` of the in-use frame it lands in (R182): bit 71 of the entry. -/
def setAccessBit (s : State) (pa : Nat) : State :=
  match frameEntry? s pa with
  | none => s
  | some e =>
    let b := s.viewByte .domain (e + 8)
    if b.extractLsb' 4 2 = 1 then pokeBytes s noContext (e + 8) [b ||| 0x80] else s

/-- Entries of a cluster TLB (R13). -/
def tlbSize : Nat := 8192

/-- The last `n` elements: what a store of `n` places that lets its oldest go holds. -/
def lastOf {α : Type} (n : Nat) (l : List α) : List α := l.drop (l.length - n)

/-- The translation of a virtual address in a cluster: the TLB's, else a walk that fills it. -/
def translate (s : State) (cl cx va : Nat) : State × Except Miss TlbE :=
  let c := s.cluster cl
  match c.tlb.find? fun e => e.ctx = cx && e.vpage = va / 4096 with
  | some e => (s, .ok e)
  | none =>
    match walk2 s cx (cl / 64) va with
    | (ps, .error m) => (tableReads s cx ps, .error m)
    | (ps, .ok e) => (setAccessBit ((tableReads s cx ps).setCluster cl { c with tlb := lastOf tlbSize (c.tlb ++ [e]) }) (e.ppage * 4096), .ok e)

/-- A buffer-table entry of a context, from the cluster's cache or from the table (R158): `none` at or above the count. -/
def bufferOf (s : State) (cl cx idx : Nat) : State × Except Miss (Option (BitVec 256)) :=
  let c := s.ctx cx
  if c.bcount ≤ idx then (s, .ok none)
  else
    let u := s.cluster cl
    match u.bufs.find? fun e => e.1 = (cx, idx) with
    | some e => (s, .ok (some e.2))
    | none =>
      let ipa := c.btab + 32 * idx
      match stage2Reads s (cl / 64) c.s2root ipa with
      | (ps, .stop lvl mal) => (tableReads s cx ps, .error (.page lvl (if mal then 4 else 1) ipa none))
      | (ps, .leaf l) =>
        let pa := leafAddr c (cl / 64) l
        let e := BitVec.ofNat 256 (s.viewNat (.die (cl / 64)) pa 32)
        ((tableReads s cx (ps ++ [pa])).setCluster cl { u with bufs := u.bufs ++ [((cx, idx), e)] }, .ok (some e))

/-! ## The checks of an access (R161 to R165) -/

/-- Kinds of access: entry rights (any one of the mask, or all of it), page rights, write, and the code of a fault
record (R162, R176). -/
structure AKind where
  entry : BitVec 8
  anyEntry : Bool := false
  pr : Bool := false
  pw : Bool := false
  px : Bool := false
  write : Bool := false
  code : Nat

def kindRead : AKind := { entry := 0x01, pr := true, code := 0 }
def kindWrite : AKind := { entry := 0x02, pw := true, write := true, code := 1 }
def kindFetch : AKind := { entry := 0x04, px := true, code := 2 }
def kindAtomic : AKind := { entry := 0x08, pr := true, pw := true, write := true, code := 3 }
def kindCopyIn : AKind := { entry := 0x11, pr := true, code := 4 }
def kindCopyOut : AKind := { entry := 0x12, pw := true, write := true, code := 4 }

/-- Steps 1 to 4 of R161, without translation. -/
def checkEntry (c : Ctx) (cx : Nat) (e : Option (BitVec 256)) (k : AKind) (off size : Nat) : Except Nat BufE :=
  match e with
  | none => .error 0x04
  | some raw =>
    let b := bufEntry raw
    if !b.ok then .error 0x04
    else if b.length < off + size then .error 0x03
    else if !(if k.anyEntry then (b.rights &&& k.entry) ≠ 0 else (b.rights &&& k.entry) = k.entry) then .error 0x02
    else if !(if b.shared then c.stags.contains b.owner else b.owner = cx) then .error 0x02
    else .ok b

/-- What an access reaches: the physical address of each byte, the masks, and the virtual address. -/
structure Hit where
  pas : List Nat
  masks : List Nat
  /-- Virtual address of the first byte. -/
  va : Nat
deriving DecidableEq, Repr, Inhabited

/-- Steps 6 to 8 for one virtual page (R178, R179, R182). -/
def checkPage (s : State) (cl cx va : Nat) (k : AKind) : State × Except Miss Nat :=
  match translate s cl cx va with
  | (s1, .error m) => (s1, .error m)
  | (s1, .ok e) =>
    if (k.pr && !(e.r1 && e.r2)) || (k.pw && !(e.w1 && e.w2)) || (k.px && !(e.x1 && e.x2)) then (s1, .error (.fault 0x02))
    else if k.write && e.sh then (s1, .error (.page e.lvl 2 (e.ipage * 4096 + va % 4096) (some va)))
    else if k.write && (e.dup || s1.collapsing.contains e.leaf) then
      ({ s1 with collapsing := setAdd s1.collapsing e.leaf }, .error (.collapse e.leaf))
    else
      let pa := s1.homePa (e.ppage * 4096 + va % 4096)
      match s1.moving.find? fun m => k.write && m.2.1 = pa / 2 ^ 21 * 2 ^ 21 with
      | some m => (s1, .error (.moving m.2.1 e.lvl (e.ipage * 4096 + va % 4096) va))
      | none => (s1, .ok pa)

/-- The physical addresses of `n` bytes from a virtual address, page by page; fuel bounds the pages. -/
def checkPages (k : AKind) (cl cx : Nat) : Nat → State → Nat → Nat → State × Except Miss (List Nat)
  | 0, s, _, _ => (s, .ok [])
  | fuel + 1, s, va, n =>
    if n = 0 then (s, .ok [])
    else
      let m := min n (4096 - va % 4096)
      match checkPage s cl cx va k with
      | (s1, .error e) => (s1, .error e)
      | (s1, .ok pa) =>
        match checkPages k cl cx fuel s1 (va + m) (n - m) with
        | (s2, .error e) => (s2, .error e)
        | (s2, .ok pas) => (s2, .ok ((List.range m).map (pa + ·) ++ pas))

/-- R161 for a reference's index and offset. `align` is the multiple of step 5. -/
def checkRef (s : State) (cl cx idx off size align : Nat) (k : AKind) : State × Except Miss Hit :=
  match bufferOf s cl cx idx with
  | (s1, .error m) => (s1, .error m)
  | (s1, .ok e) =>
    match checkEntry (s1.ctx cx) cx e k off size with
    | .error c => (s1, .error (.fault c))
    | .ok b =>
      if off % align ≠ 0 then (s1, .error (.fault 0x05))
      else match checkPages k cl cx (size / 4096 + 2) s1 (b.base + off) size with
        | (s2, .error m) => (s2, .error m)
        | (s2, .ok pas) => (noteHash s2 b.masks (pas.headD 0), .ok { pas := pas, masks := b.masks, va := b.base + off })

/-- How a context's write goes home through the entry of an access. -/
def viaHit (s : State) (cx : Nat) (h : Hit) : Via := { cx := cx, cls := classOf s cx, masks := h.masks }

/-- `access(ref, disp, size, kind)` (R165). -/
def access (s : State) (cl cx : Nat) (ref : Ref) (disp : Int) (size align : Nat) (k : AKind) : State × Except Miss Hit :=
  let o := Int.ofNat ref.offset.toNat + disp
  if o < 0 ∨ 2 ^ 40 ≤ o then (s, .error (.fault 0x03))
  else checkRef s cl cx ref.index.toNat o.toNat size align k

/-- A reference moved by a displacement that R165 has found in range. -/
def Ref.plus (r : Ref) (disp : Int) : Ref :=
  { r with offset := BitVec.ofNat 40 (Int.ofNat r.offset.toNat + disp).toNat }

/-! ## Fault records (R176) -/

/-- The stage whose invalidation covers a record or a park: 1 for kinds 0 and 3, else 2. -/
def stageOf (kind : Nat) : Nat := if kind = 0 || kind = 3 then 1 else 2

/-- What ends the wait for a record. -/
def FRec.waitAt (r : FRec) : WaitAt := { stage := stageOf r.kind, addr := r.addr, va := r.va, frame := r.frame }

/-- Adds a record unless an identical one is outstanding; `va` and `frame` as in `WaitAt`. -/
def addRecord (s : State) (cx : Nat) (ref : Word64) (access level kind addr : Nat) (va : Option Nat) (frame : Option Nat := none) : State :=
  if s.recs.any fun r => r.ctx = cx && r.ref = ref && r.level = level && r.access = access && r.kind = kind && r.addr = addr then s
  else
    let r : FRec := { id := s.fresh, ctx := cx, ref := ref, level := level, access := access, kind := kind, addr := addr, va := va, frame := frame }
    { s with fresh := s.fresh + 1, recs := s.recs ++ [r] }

/-- What a thread instruction does with a miss (R165): trap or park, with its record, under `sp` = 0. -/
def missOut (s : State) (e : Env) (ref : Ref) (disp : Int) (k : AKind) (unit : Nat) : Miss → Out
  | .fault c => .next (raiseFault s e c unit)
  | .page level kind addr va =>
    let s1 := addRecord s e.cx (refWord (ref.plus disp)) k.code level kind addr va
    .next (s1.setThread e.tid (parkThread e.t (.page { stage := stageOf kind, addr := addr, va := va })))
  | .collapse l => .next (s.setThread e.tid (parkThread e.t (.collapse l)))
  | .moving f .. => .next (s.setThread e.tid (parkThread e.t (.moving f)))

/-- The token code of a miss under `sp` = 1 (R165). -/
def missCode : Miss → Nat
  | .fault c => c
  | .page .. => 0x01
  | .collapse _ => 0x12
  | .moving .. => 0x01

/-- A thread's own buffered byte at a reference, youngest entry first (R185). -/
def ownByte (t : Thread) (idx : BitVec 24) (off : Nat) : Option Byte :=
  t.sb.foldl (fun r e => match e with
    | .plain ref bs _ =>
      if ref.index = idx && ref.offset.toNat ≤ off && off < ref.offset.toNat + bs.length then some (bs.getD (off - ref.offset.toNat) 0) else r
    | .atomic .. => r) none

/-! ## Fabric requests (R402, R404) -/

/-- Why a request to another device fails: its port is down, or the device refuses; the code of the token of unit 7. -/
def remoteFails (s : State) (pa : Nat) (write : Bool) : Option Nat :=
  if !isRemote pa then none
  else if !s.reachable pa then some 0x0B
  else if Config.remoteRefuses s.tick write then some 0x02
  else none

/-- Wakes every thread that `p` selects by making it ready again. -/
def wakeWhere (s : State) (p : Thread → Park → Bool) : State :=
  { s with threads := tmap (fun _ t => match t.status with
      | .parked k => if p t k then { t with status := .ready } else t
      | _ => t) s.threads }

/-- The context of a thread, by its core group. -/
def ctxOf (s : State) (t : Thread) : Nat :=
  match tget? s.groups t.gid with
  | none => 512
  | some g => match tget? s.insts g.iid with
    | none => 512
    | some i => i.q.ctx

/-- Lets copy lines that an invalidation covers try again (R268). -/
def retryCopies (s : State) (cx : Nat) (covers : WaitAt → Bool) : State :=
  let retry (c : Copy) : Copy := if c.ctx = cx then { c with waiting := c.waiting.filter fun w => !covers w.2 } else c
  { s with clusters := tmap (fun _ u => { u with copies := u.copies.map retry }) s.clusters }

/-- Whether the entry that a record names still stops a walk on some die (R176, log entry 90). -/
def stillStops (s : State) (r : FRec) : Bool :=
  (List.range 4).any fun die => match r.frame, r.va with
    | some f, _ => s.moving.any fun m => m.2.1 = f
    | none, some va => (match (walk2 s r.ctx die va).2 with
      | .error (.page level kind addr _) => level = r.level && kind = r.kind && addr = r.addr
      | .error _ => false
      | .ok e => r.kind = 2 && e.sh)
    | none, none => (match stage2 s die (s.ctx r.ctx).s2root r.addr with
      | .stop level mal => level = r.level && (if mal then 4 else 1) = r.kind
      | .leaf _ => false)

/-- Wakes the threads and copy lines that an invalidation covers, and ends the records it covers whose entries stop walks no more
(R176). -/
def invalidated (s : State) (cx : Nat) (covers : WaitAt → Bool) : State :=
  let s1 := { s with recs := s.recs.filter fun r => !(r.ctx = cx && covers r.waitAt && !stillStops s r) }
  wakeWhere (retryCopies s1 cx covers) fun t k => match k with
    | .page w => covers w && ctxOf s t = cx
    | _ => false

end Sys2Proof.Machine
end

