-- ==== Sys2Proof/Machine/Budget.lean ====
section
/-! DEFINITION. Budget.lean: the budget points of the L2 slices and memory ports (R257 to R261): the class of a request,
where it waits, and which requests a point serves. -/

namespace Sys2Proof.Machine

open Sys2Proof

/-- Whether a point is a memory port. -/
def isPort (p : Nat) : Bool := 128 ≤ p

/-- The floor in force: refresh has the device's own need, at ports (R258). -/
def floorOf (p : Nat) (b : BPoint) (c : Nat) : Nat := if c = 8 then (if isPort p then Config.refreshFloor else 0) else b.floors.getD c 0

/-- The ceiling in force (R258). -/
def ceilOf (p : Nat) (b : BPoint) (c : Nat) : Nat := max (if c = 8 then floorOf p b 8 else b.ceils.getD c 0) (floorOf p b c)

/-- Whether a class has reached its ceiling at a point (R259). -/
def exhausted (s : State) (p c : Nat) : Bool := ceilOf p (s.point p) c ≤ (s.point p).spent.getD c 0

/-- A line request of a context joins the queue of its slice. -/
def askLine (s : State) (cx pa id : Nat) : State := ask s (slicePoint pa) (classAt s cx (pa / 64)) id

/-- Whether a request still waits at some point. -/
def waitsAnywhere (s : State) (id : Nat) : Bool := s.points.any fun p => p.2.queues.any fun q => q.contains id

/-- Takes a request out of every queue: its instruction was trapped, killed or dropped (R387). -/
def unask (s : State) (id : Nat) : State :=
  { s with points := tmap (fun _ b => { b with queues := b.queues.map fun q => q.filter (· ≠ id) }) s.points }

/-- Classes in rotating order after the one served last. -/
def rotation (last : Nat) : List Nat := (List.range 16).map fun i => (last + 1 + i) % 16

/-- The class whose head request a point serves next (R259). -/
def pickClass (p : Nat) (b : BPoint) : Option Nat :=
  let some? (q : Nat → Bool) := (rotation b.last).find? fun c => !(b.queues.getD c []).isEmpty && q c
  match some? fun c => b.spent.getD c 0 < floorOf p b c with
  | some c => some c
  | none => some? fun c => b.spent.getD c 0 < ceilOf p b c

/-- Whether a class's requests for an address are held by its slice: an engine pauses before such a line, and a commit before such an
entry (R260). -/
def paused (s : State) (cls pa : Nat) : Bool := cacheable (pa / 64) && exhausted s (slicePoint pa) cls

/-- Whether a cluster holds back a context's memory instructions: 64 of its requests wait at a point at which their class
is exhausted (R260). -/
def heldByBudget (s : State) (cl cx : Nat) : Bool :=
  let mine := s.threads.flatMap fun t => match tget? s.groups t.2.gid with
    | some g => if clusterOf g.core = cl then t.2.accs.map (·.id) else []
    | none => []
  s.points.any fun p => [classOf s cx, 13].any fun c => exhausted s p.1 c && 64 ≤ ((p.2.queues.getD c []).filter fun i => mine.contains i).length

end Sys2Proof.Machine
end

