-- ==== Sys2Proof/Machine/Shape.lean ====
section
/-! DEFINITION. Shape.lean: how many registers each operand of a class A operation (R37) covers, which sources it reads
in the order A, B, C, and what it writes; and the S64 equivalent of a P64 slot (R33). -/

namespace Sys2Proof

/-- Registers of an integer operand (R42, R48). -/
def IWidth.words : IWidth → Nat
  | .w64 => 2
  | _ => 1

/-- Registers of a float operand (R42, R49). -/
def FTy.words : FTy → Nat
  | .f64 => 2
  | _ => 1

/-- Registers of a converted value (R149). -/
def CTy.words : CTy → Nat
  | .i64 => 2
  | .n64 => 2
  | .f64 => 2
  | _ => 1

/-- Registers of a two-way width. -/
def wordsOf (w64 : Bool) : Nat := if w64 then 2 else 1

/-- Registers of a memory operand (R164). -/
def Size.words : Size → Nat
  | .b64 => 2
  | .b128 => 4
  | _ => 1

/-- Bytes of a memory operand (R50). -/
def Size.bytes : Size → Nat
  | .i8 => 1
  | .n8 => 1
  | .i16 => 2
  | .n16 => 2
  | .b32 => 4
  | .b64 => 8
  | .b128 => 16

/-! ## Registers that operands may name -/

/-- `pg` = 7 with `pn` = 1 is illegal (R26). -/
def Head.wf (h : Head) : Bool := !(h.pg = 7 && h.pn)

/-- The register exists (R40). -/
def Reg.wf : Reg → Bool
  | .x n => n < 192
  | .k n => n < 32
  | .q n => n < 16
  | .s _ => true

def Reg.isX : Reg → Bool
  | .x _ => true
  | _ => false

def Reg.isK : Reg → Bool
  | .k _ => true
  | _ => false

def Reg.isQPort : Reg → Bool
  | .q _ => true
  | _ => false

/-- An operand of 1, 2 or 4 registers names a register of its alignment: one of 128 bits a thread register or `zr` (R42). -/
def Reg.aligned (r : Reg) (words : Nat) : Bool :=
  words ≤ 1 || (match r with
    | .x n => n % words = 0
    | .k n => words ≤ 2 && n % words = 0
    | .q _ => words ≤ 2
    | .s z => z = .zr)

/-- A register that an ordinary instruction may write (R47). -/
def Reg.writable : Reg → Bool
  | .x _ => true
  | .q _ => true
  | .k _ => false
  | .s z => z = .zr

/-- A source operand of `n` registers. -/
def Src.wf (s : Src) (n : Nat := 1) : Bool := s.reg.wf && s.reg.aligned n

/-- A source that must not be a port. -/
def Src.wfNoQ (s : Src) (n : Nat := 1) : Bool := s.wf n && !s.reg.isQPort

/-- A destination of `n` registers: a thread register, a port or `zr`. -/
def Reg.dstWf (r : Reg) (n : Nat := 1) : Bool := r.wf && r.writable && r.aligned n

/-- A destination that must not be a port (R123). -/
def Reg.dstNoQ (r : Reg) (n : Nat := 1) : Bool := r.dstWf n && !r.isQPort

/-- A predicate destination (R44). -/
def predDst (p : BitVec 3) : Bool := p ≠ 7

def OpB.wf (b : OpB) (n : Nat := 1) : Bool :=
  match b with
  | .reg s => s.wf n
  | .imm _ => true

def OpB.isImm : OpB → Bool
  | .imm _ => true
  | .reg _ => false

/-- A cache hint: bit 4 reserved, and zero under a policy other than normal (R163). -/
def hintWf (policy : BitVec 2) (hint : BitVec 5) : Bool := hint.getLsbD 4 = false && (policy = 0 || hint = 0)

/-- What a class A operation writes. -/
inductive ADst where
  | reg (r : Reg) (n : Nat)
  | pred (p : BitVec 3)
  | mask (m : BitVec 7)
deriving DecidableEq, Repr, Inhabited

/-- Sources and destination of a class A operation. -/
structure Shape where
  srcs : List (Src × Nat)
  dst : ADst
  /-- Class S (R37). -/
  sfu : Bool := false
deriving DecidableEq, Repr, Inhabited

/-- The register of source B, if it is one. -/
def OpB.srcs (b : OpB) (n : Nat) : List (Src × Nat) :=
  match b with
  | .reg s => [(s, n)]
  | .imm _ => []

def IntB.shape (o : IntB) : Shape := { srcs := (o.a, o.w.words) :: o.b.srcs o.w.words, dst := .reg o.dst o.w.words }

def IntU.shape (o : IntU) (dw : Nat) : Shape := { srcs := [(o.a, o.w.words)], dst := .reg o.dst dw }

def IntT.shape (o : IntT) : Shape :=
  { srcs := [(o.a, o.w.words), (o.b, o.w.words), (o.c, o.w.words)], dst := .reg o.dst o.w.words }

def FltB.shape (o : FltB) : Shape := { srcs := (o.a, o.ty.words) :: o.b.srcs o.ty.words, dst := .reg o.dst o.ty.words }

def FltU.shape (o : FltU) (dw : Nat) (sfu : Bool) : Shape := { srcs := [(o.a, o.ty.words)], dst := .reg o.dst dw, sfu := sfu }

def FltT.shape (o : FltT) : Shape :=
  { srcs := [(o.a, o.ty.words), (o.b, o.ty.words), (o.c, o.ty.words)], dst := .reg o.dst o.ty.words }

def CvtO.shape (o : CvtO) (sfu : Bool) : Shape :=
  { srcs := [(o.a, o.sty.words)], dst := .reg o.dst o.dty.words, sfu := sfu }

/-- The shape of an operation from S64 0x10 to 0x4A, or of IADDL and ISETPL; none for every other instruction. -/
def Instr.shape : Instr → Option Shape
  | .iadd o | .isub o | .imul o | .imulh o | .idiv o | .irem o | .imin o | .imax o
  | .iand o | .ior o | .ixor o | .shl o | .shr o | .sar o | .rot o => some o.shape
  | .imad o | .bfi o | .idot4 o | .idot2 o => some o.shape
  | .iabs o | .brev o => some (o.shape o.w.words)
  | .popc o | .clz o => some (o.shape 1)
  | .lut3 _ _ dst a b c => some { srcs := [(a, 1), (b, 1), (c, 1)], dst := .reg dst 1 }
  | .bfx _ w64 _ dst a f =>
    let n := wordsOf w64
    let fs := match f with
      | .regs p l => [(p, n), (l, n)]
      | .imm _ _ => []
    some { srcs := (a, n) :: fs, dst := .reg dst n }
  | .isetp _ w64 _ _ pd a b => some { srcs := (a, wordsOf w64) :: b.srcs (wordsOf w64), dst := .pred pd }
  | .sel _ w64 dst _ _ a b => some { srcs := (a, wordsOf w64) :: b.srcs (wordsOf w64), dst := .reg dst (wordsOf w64) }
  | .lea _ dst base disp =>
    let ds := match disp with
      | .imm _ => []
      | .reg s w64 _ _ => [(s, wordsOf w64)]
    some { srcs := (base, 2) :: ds, dst := .reg dst 2 }
  | .mov _ w64 dst a => some { srcs := a.srcs (wordsOf w64), dst := .reg dst (wordsOf w64) }
  | .plop _ _ pd _ _ _ => some { srcs := [], dst := .pred pd }
  | .movpRead _ dst => some { srcs := [], dst := .reg dst 1 }
  | .movpWrite _ mask a => some { srcs := [(a, 1)], dst := .mask mask }
  | .movl _ form dst _ => some { srcs := [], dst := .reg dst (if form = 0 then 1 else 2) }
  | .iaddl _ w64 _ _ dst a _ => some { srcs := [(a, wordsOf w64)], dst := .reg dst (wordsOf w64) }
  | .isetpl _ w64 _ _ pd a _ => some { srcs := [(a, wordsOf w64)], dst := .pred pd }
  | .fadd o | .fsub o | .fmul o | .fmin o | .fmax o | .fdiv o => some o.shape
  | .fexpn o => some { srcs := (o.a, 1) :: o.b.srcs 1, dst := .reg o.dst 1 }
  | .fscl o => some { srcs := (o.a, o.ty.words) :: o.b.srcs 1, dst := .reg o.dst o.ty.words }
  | .ffma o => some o.shape
  | .fdot2 o => some { srcs := [(o.a, 1), (o.b, 1), (o.c, 1)], dst := .reg o.dst 1 }
  | .fneg o | .fabs o | .fsqrt o | .frnd o => some (o.shape o.ty.words false)
  | .fclass o => some (o.shape 1 false)
  | .frcp o | .frsq o | .fexp2 o | .flog2 o | .fsin o | .fcos o | .ftanh o => some (o.shape o.ty.words true)
  | .fsetp _ ty _ _ pd a b => some { srcs := (a, ty.words) :: b.srcs ty.words, dst := .pred pd }
  | .cvt o => some (o.shape true)
  | .cvts o => some (o.shape false)
  | .pack o => some { srcs := [(o.a, 1), (o.b, 1)] ++ (o.c.map fun c => (c, 1)).toList, dst := .reg o.dst 1, sfu := true }
  | .unpk _ _ dst a idx => some { srcs := (a, 1) :: idx.srcs 1, dst := .reg dst 1, sfu := true }
  | _ => none

/-! ## Types that operations admit (R137, R143) -/

def IWidth.scalar : IWidth → Bool
  | .w32 => true
  | .w64 => true
  | _ => false

def FTy.scalar : FTy → Bool
  | .f32 => true
  | .f64 => true
  | _ => false

/-- An f16x2 or bf16x2 immediate has its top two bits zero (R28). -/
def fltImmWf (ty : FTy) (b : OpB) : Bool :=
  match b with
  | .reg _ => true
  | .imm v => ty.scalar || v.extractLsb' 16 2 = 0

def FTy.any (_ : FTy) : Bool := true

/-- Types of the special functions (R143). -/
def FTy.special (t : FTy) : Bool := t ≠ .f64

/-- Types of FDOT2. -/
def FTy.halves (t : FTy) : Bool := !t.scalar

def CTy.isLow : CTy → Bool
  | .e4m3 | .e5m2 | .e3m2 | .e2m3 | .e2m1 => true
  | _ => false

/-- `.NOSAT` belongs to e4m3 and e5m2 (R149). -/
def nosatWf (t : CTy) (nosat : Bool) : Bool := !nosat || t = .e4m3 || t = .e5m2

/-- The source and destination types of CVTS (R149). -/
def cvtsTypes (s d : CTy) : Bool :=
  (s = .f32 || s = .f64) && (d = .f16 || d = .bf16 || (d = .f32 && s = .f64) || d.isLow)

/-! ## P64 slots -/

/-- The equivalent S64 integer operation of a binary slot: `mdp[0]` signed, `mdp[1]` saturate (R33). -/
def PairSlot.intB (h : Head) (p : PairSlot) (s : Src) : IntB :=
  { h := h, w := .w32, sgn := p.mdp.getLsbD 0, sat := p.mdp.getLsbD 1, dst := p.d, a := ⟨p.d, p.wd⟩, b := .reg s }

/-- A rounding mode by its code (R70). -/
def Rnd.ofBits (b : BitVec 2) : Rnd := if b = 0 then .rn else if b = 1 then .rz else if b = 2 then .ru else .rd

/-- The equivalent float operation of a binary slot: `mdp[1:0]` rounding, `mdp[2]` FTZ override (R33). -/
def PairSlot.fltB (h : Head) (p : PairSlot) (s : Src) (rnd : Rnd) : FltB :=
  { h := h, ty := .f32, rnd := rnd, fzo := p.mdp.getLsbD 2, clamp := false, dst := p.d, a := ⟨p.d, p.wd⟩, b := .reg s }

def PairSlot.fltU (h : Head) (p : PairSlot) (s : Src) (rnd : Rnd) : FltU :=
  { h := h, ty := .f32, rnd := rnd, fzo := p.mdp.getLsbD 2, clamp := false, dst := p.d, a := s }

/-- The register `s` of a slot; an immediate slot is given `zr` here, and its value is put in its place (R34). -/
def PairSlot.src (p : PairSlot) : Src :=
  match p.s with
  | .reg s => s
  | .imm _ => ⟨.s .zr, true⟩

/-- The S64 equivalent of a slot (R33). -/
def PairSlot.equiv (h : Head) (p : PairSlot) : Instr :=
  let s := p.src
  let ib := p.intB h s
  let iu : IntU := { h := h, w := .w32, sgn := p.mdp.getLsbD 0, sat := p.mdp.getLsbD 1, dst := p.d, a := s }
  let rnd := Rnd.ofBits (p.mdp.extractLsb' 0 2)
  let ity := if p.mdp.getLsbD 1 then CTy.n32 else CTy.i32
  match p.op with
  | .mov => .mov h false p.d (.reg s)
  | .iadd => .iadd ib
  | .isub => .isub ib
  | .and => .iand ib
  | .or => .ior ib
  | .xor => .ixor ib
  | .shl => .shl ib
  | .shr => .shr ib
  | .sar => .sar ib
  | .imin => .imin ib
  | .imax => .imax ib
  | .imul => .imul ib
  | .fadd => .fadd (p.fltB h s rnd)
  | .fsub => .fsub (p.fltB h s rnd)
  | .fmul => .fmul (p.fltB h s rnd)
  | .fmin => .fmin (p.fltB h s .rn)
  | .fmax => .fmax (p.fltB h s .rn)
  | .fneg => .fneg (p.fltU h s .rn)
  | .fabs => .fabs (p.fltU h s .rn)
  | .popc => .popc iu
  | .clz => .clz iu
  | .brev => .brev iu
  | .cvt =>
    .cvt { h := h, rnd := if p.mdp.getLsbD 2 then .rz else .rn, fzo := false
           sty := if p.mdp.getLsbD 0 then .f32 else ity, dty := if p.mdp.getLsbD 0 then ity else .f32
           nosat := false, dst := p.d, a := s }
  | .fexp2 => .fexp2 (p.fltU h s rnd)
  | .frcp => .frcp (p.fltU h s rnd)
  | .iabs => .iabs iu

/-- Whether a slot's `s` operand is an f32 (R34 item 2). -/
def PairSlot.isFloat (p : PairSlot) : Bool :=
  match p.op with
  | .fadd | .fsub | .fmul | .fmin | .fmax | .fneg | .fabs | .fexp2 | .frcp => true
  | .cvt => p.mdp.getLsbD 0
  | _ => false

/-- Unary slots do not read `d` (R33). -/
def PairOp.unary : PairOp → Bool
  | .mov | .fneg | .fabs | .popc | .clz | .brev | .cvt | .fexp2 | .frcp | .iabs => true
  | _ => false

/-- The bits of `mdp` that an operation reserves (R33). -/
def PairOp.mdpRsv : PairOp → BitVec 3
  | .iadd | .isub | .imul | .iabs => 4
  | .imin | .imax => 6
  | .fadd | .fsub | .fmul | .fexp2 | .frcp => 0
  | .fmin | .fmax | .fneg | .fabs => 3
  | .cvt => 0
  | _ => 7

/-- The bank of a register (R45). -/
def Reg.bank? : Reg → Option Nat
  | .x n => some (n % 4)
  | _ => none

/-! ## W96 (R37) -/

/-- The single registers a source covers; `zr` does not count (R37). DEDUCED (log entry 83): a 64-bit operand that names another
special, which R42 forbids at step 10, counts as one register at step 8. -/
def srcRegs (s : Src × Nat) : List Reg :=
  match s.1.reg with
  | .x n => (List.range s.2).map fun i => .x (n + i)
  | .k n => (List.range s.2).map fun i => .k (n + i)
  | .s .zr => []
  | r => [r]

/-- The thread registers a shape writes. -/
def Shape.written (s : Shape) : List Nat :=
  match s.dst with
  | .reg (.x n) k => (List.range k).map (n + ·)
  | _ => []

/-- The predicates a shape writes, as a mask. -/
def Shape.predMask (s : Shape) : BitVec 8 :=
  match s.dst with
  | .pred p => 1#8 <<< p.toNat
  | .mask m => m.setWidth 8
  | .reg _ _ => 0

/-- R37 items 2 to 7. -/
def wideRules (a b : Shape) : Bool :=
  let srcs := ((a.srcs ++ b.srcs).flatMap srcRegs).eraseDups
  let bankCount (n : Nat) := (srcs.filter fun r => r.bank? = some n).length
  let dstOk (s : Shape) : Bool := match s.dst with
    | .reg r _ => r.isX || r = .s .zr
    | _ => true
  let banks (s : Shape) := s.written.map (· % 4)
  srcs.length ≤ 6 && (List.range 4).all (fun n => bankCount n ≤ 2) && srcs.all (fun r => !r.isQPort) &&
    dstOk a && dstOk b && (banks a).all (fun n => !(banks b).contains n) &&
    (a.predMask &&& b.predMask) = 0

end Sys2Proof
end

