-- ==== Sys2Proof/Machine/ClassA.lean ====
section
/-! DEFINITION. ClassA.lean: the raw fields of S64 and X96 (R27, R39), the checks of R53 on them, the codes of the shared
modifiers, and decoding and encoding of the class A operations (R37), which S64 and W96 share. -/

namespace Sys2Proof

/-- The causes of an illegal encoding (R53, R367). -/
inductive Ill where
  | op | pair | wide | rsv | align | dst
deriving DecidableEq, Repr, Inhabited

/-- Cause code of R367. -/
def Ill.code : Ill → Nat
  | .op => 1
  | .pair => 2
  | .wide => 3
  | .rsv => 4
  | .align => 5
  | .dst => 6

/-- A failed check: the cause and the step of R53. -/
structure IllAt where
  cause : Ill
  step : Nat
deriving DecidableEq, Repr, Inhabited

/-- The fields of S64 and X96; a W96 slot is such a record with `wide` set (R36). -/
structure Raw where
  wide : Bool := false
  h : Head
  op : BitVec 8
  md : BitVec 4 := 0
  ib : Bool := false
  dst : BitVec 8 := 0
  sa : BitVec 8 := 0
  wa : Bool := false
  sb : BitVec 8 := 0
  wb : Bool := false
  sc : BitVec 8 := 0
  wc : Bool := false
  md2 : BitVec 10 := 0
  xm : BitVec 5 := 0
  imm : BitVec 32 := 0
deriving DecidableEq, Repr, Inhabited

/-- What the checks of steps 2, 5, 6, 9 and 10 of R53 say of an encoding, and the instruction it is if all pass. -/
structure Chk where
  s2 : Bool := true
  s5 : Bool := true
  s6 : Option Ill := none
  s9 : Bool := true
  s10 : Bool := true
  i : Instr

/-- The first check that fails, in R53's order. -/
def Chk.result (c : Chk) : Except IllAt Instr :=
  if !c.s2 then .error ⟨.op, 2⟩
  else if !c.s5 then .error ⟨.rsv, 5⟩
  else match c.s6 with
    | some x => .error ⟨x, 6⟩
    | none => if !c.s9 then .error ⟨.dst, 9⟩ else if !c.s10 then .error ⟨.align, 10⟩ else .ok c.i

/-! ## Codes -/

def Special.ofNum (n : Nat) : Special :=
  [.zr, .tix, .mix, .cix, .kix, .bix, .dix, .tsz, .csz, .ksz, .bsz, .dsz, .clk, .prio, .ctx, .jarg].getD n .zr

def Special.num : Special → Nat
  | .zr => 0
  | .tix => 1
  | .mix => 2
  | .cix => 3
  | .kix => 4
  | .bix => 5
  | .dix => 6
  | .tsz => 7
  | .csz => 8
  | .ksz => 9
  | .bsz => 10
  | .dsz => 11
  | .clk => 12
  | .prio => 13
  | .ctx => 14
  | .jarg => 15

/-- The register a field names (R40, R41). -/
def Reg.ofBits (b : BitVec 8) : Reg :=
  if b.toNat < 192 then .x b.toNat
  else if b.toNat < 224 then .k (b.toNat - 192)
  else if b.toNat < 240 then .q (b.toNat - 224)
  else .s (Special.ofNum (b.toNat - 240))

def Reg.bits : Reg → BitVec 8
  | .x n => BitVec.ofNat 8 n
  | .k n => BitVec.ofNat 8 (192 + n)
  | .q n => BitVec.ofNat 8 (224 + n)
  | .s z => BitVec.ofNat 8 (240 + z.num)

def IWidth.ofBits (b : BitVec 2) : IWidth := if b = 0 then .w32 else if b = 1 then .w64 else if b = 2 then .w16x2 else .w8x4

def IWidth.bits : IWidth → BitVec 2
  | .w32 => 0
  | .w64 => 1
  | .w16x2 => 2
  | .w8x4 => 3

def FTy.ofBits (b : BitVec 2) : FTy := if b = 0 then .f32 else if b = 1 then .f64 else if b = 2 then .f16x2 else .bf16x2

def FTy.bits : FTy → BitVec 2
  | .f32 => 0
  | .f64 => 1
  | .f16x2 => 2
  | .bf16x2 => 3

def Rnd.bits : Rnd → BitVec 2
  | .rn => 0
  | .rz => 1
  | .ru => 2
  | .rd => 3

/-- Comparison codes of R137. -/
def ICond.ofBits? (b : BitVec 3) : Option ICond := [.eq, .ne, .lt, .le, .gt, .ge][b.toNat]?

def ICond.bits : ICond → BitVec 3
  | .eq => 0
  | .ne => 1
  | .lt => 2
  | .le => 3
  | .gt => 4
  | .ge => 5

/-- Comparison codes of R143. -/
def FCond.ofBits (b : BitVec 3) : FCond := [FCond.eq, .ne, .lt, .le, .gt, .ge, .num, .nan].getD b.toNat .nan

def FCond.bits : FCond → BitVec 3
  | .eq => 0
  | .ne => 1
  | .lt => 2
  | .le => 3
  | .gt => 4
  | .ge => 5
  | .num => 6
  | .nan => 7

/-- Type codes of R149. -/
def CTy.ofBits? (b : BitVec 5) : Option CTy :=
  [CTy.i8, .n8, .i16, .n16, .i32, .n32, .i64, .n64, .f16, .bf16, .f32, .f64, .e4m3, .e5m2, .e3m2, .e2m3, .e2m1][b.toNat]?

def CTy.bits : CTy → BitVec 5
  | .i8 => 0
  | .n8 => 1
  | .i16 => 2
  | .n16 => 3
  | .i32 => 4
  | .n32 => 5
  | .i64 => 6
  | .n64 => 7
  | .f16 => 8
  | .bf16 => 9
  | .f32 => 10
  | .f64 => 11
  | .e4m3 => 12
  | .e5m2 => 13
  | .e3m2 => 14
  | .e2m3 => 15
  | .e2m1 => 16

/-- Element types of R150. -/
def PTy.ofBits? (b : BitVec 3) : Option PTy := [PTy.f16, .bf16, .e4m3, .e5m2, .e2m1][b.toNat]?

def PTy.bits : PTy → BitVec 3
  | .f16 => 0
  | .bf16 => 1
  | .e4m3 => 2
  | .e5m2 => 3
  | .e2m1 => 4

/-! ## Fields -/

/-- A register field with its wait bit. -/
def mkSrc (f : BitVec 8) (w : Bool) : Src := ⟨Reg.ofBits f, w⟩

def Raw.d (r : Raw) : Reg := Reg.ofBits r.dst
def Raw.a (r : Raw) : Src := mkSrc r.sa r.wa
def Raw.b (r : Raw) : Src := mkSrc r.sb r.wb
def Raw.c (r : Raw) : Src := mkSrc r.sc r.wc

/-- `imm18`: bits [54:37] of S64 (R27). -/
def Raw.imm18 (r : Raw) : BitVec 18 := BitVec.ofBool r.wc ++ (r.sc ++ (BitVec.ofBool r.wb ++ r.sb))

/-- Source B or `imm18`. -/
def Raw.opB (r : Raw) : OpB := if r.ib then .imm r.imm18 else .reg r.b

/-- Unused fields are zero, their wait bits too; a W96 slot has no wait bits (R29, R36). -/
def Raw.noA (r : Raw) : Bool := r.sa = 0 && (r.wide || !r.wa)
def Raw.noB (r : Raw) : Bool := r.sb = 0 && (r.wide || !r.wb)
def Raw.noC (r : Raw) : Bool := r.sc = 0 && (r.wide || !r.wc)
def Raw.noD (r : Raw) : Bool := r.dst = 0

/-- With `ib` = 1 the immediate replaces B and C. -/
def Raw.noCi (r : Raw) : Bool := r.ib || r.noC
def Raw.noBC (r : Raw) : Bool := r.noB && r.noC

/-- `md2`, `xm` and, in X96, `imm32` zero. -/
def Raw.m2z (r : Raw) : Bool := r.md2 = 0
def Raw.xz (r : Raw) : Bool := r.xm = 0

/-- A wait bit that names a source without meaning need only be any value; a predicate field holds zero above bit 2. -/
def predField (f : BitVec 8) : Bool := f.extractLsb' 3 5 = 0

def predOf (f : BitVec 8) : BitVec 3 := f.extractLsb' 0 3

/-- R44: `dst[7:3]` zero and not 7. -/
def predDstOk (f : BitVec 8) : Bool := predField f && predOf f ≠ 7

def predBits (p : BitVec 3) : BitVec 8 := p.setWidth 8

def illIf (b : Bool) (x : Ill) : Option Ill := if b then some x else none

/-- Alignment of B when it is a register. -/
def OpB.alignedB (b : OpB) (n : Nat) : Bool :=
  match b with
  | .reg s => s.reg.aligned n
  | .imm _ => true

/-! ## Checks by shape -/

def mdW (r : Raw) : IWidth := IWidth.ofBits (r.md.extractLsb' 0 2)
def mdT (r : Raw) : FTy := FTy.ofBits (r.md.extractLsb' 0 2)
def mdRnd (r : Raw) : Rnd := Rnd.ofBits (r.md.extractLsb' 2 2)

def chkIntB (r : Raw) (mk : IntB → Instr) (packed sgn sat : Bool) (noQ : Bool := false) : Chk :=
  let o : IntB := { h := r.h, w := mdW r, sgn := r.md.getLsbD 2, sat := r.md.getLsbD 3, dst := r.d, a := r.a, b := r.opB }
  { s5 := (sgn || !o.sgn) && (sat || !o.sat) && r.noCi && r.m2z && r.xz
    s6 := if packed || o.w.scalar then illIf (noQ && o.w = .w64 && o.dst.isQPort) .rsv else some .op
    s9 := o.dst.writable
    s10 := o.dst.aligned o.w.words && o.a.reg.aligned o.w.words && o.b.alignedB o.w.words
    i := mk o }

def chkIntU (r : Raw) (mk : IntU → Instr) (packed sgn sat pairDst : Bool) : Chk :=
  let o : IntU := { h := r.h, w := mdW r, sgn := r.md.getLsbD 2, sat := r.md.getLsbD 3, dst := r.d, a := r.a }
  { s2 := !r.ib
    s5 := (sgn || !o.sgn) && (sat || !o.sat) && r.noBC && r.m2z && r.xz
    s6 := illIf (!(packed || o.w.scalar)) .op
    s9 := o.dst.writable
    s10 := o.dst.aligned (if pairDst then o.w.words else 1) && o.a.reg.aligned o.w.words
    i := mk o }

def chkIntT (r : Raw) (mk : IntT → Instr) (width : IWidth → Bool) (sgn sat : Bool) : Chk :=
  let o : IntT := { h := r.h, w := mdW r, sgn := r.md.getLsbD 2, sat := r.md.getLsbD 3, dst := r.d, a := r.a, b := r.b, c := r.c }
  { s2 := !r.ib
    s5 := (sgn || !o.sgn) && (sat || !o.sat) && r.m2z && r.xz
    s6 := illIf (!width o.w) .op
    s9 := o.dst.writable
    s10 := o.dst.aligned o.w.words && o.a.reg.aligned o.w.words && o.b.reg.aligned o.w.words && o.c.reg.aligned o.w.words
    i := mk o }

def chkFltB (r : Raw) (mk : FltB → Instr) (types : FTy → Bool) (rnd clamp immOk : Bool) (bw : FTy → Nat := FTy.words) : Chk :=
  let o : FltB :=
    { h := r.h, ty := mdT r, rnd := mdRnd r, fzo := r.md2.getLsbD 0, clamp := r.md2.getLsbD 1, dst := r.d, a := r.a, b := r.opB }
  { s2 := immOk || !r.ib
    s5 := (rnd || o.rnd = .rn) && (clamp || !o.clamp) && r.noCi && r.md2.extractLsb' 2 8 = 0 && r.xz && fltImmWf o.ty o.b
    s6 := illIf (!types o.ty) .op
    s9 := o.dst.writable
    s10 := o.dst.aligned o.ty.words && o.a.reg.aligned o.ty.words && o.b.alignedB (bw o.ty)
    i := mk o }

def chkFltU (r : Raw) (mk : FltU → Instr) (types : FTy → Bool) (rnd fzo clamp pairDst : Bool) : Chk :=
  let o : FltU :=
    { h := r.h, ty := mdT r, rnd := mdRnd r, fzo := r.md2.getLsbD 0, clamp := r.md2.getLsbD 1, dst := r.d, a := r.a }
  { s2 := !r.ib
    s5 := (rnd || o.rnd = .rn) && (fzo || !o.fzo) && (clamp || !o.clamp) && r.noBC && r.md2.extractLsb' 2 8 = 0 && r.xz
    s6 := illIf (!types o.ty) .op
    s9 := o.dst.writable
    s10 := o.dst.aligned (if pairDst then o.ty.words else 1) && o.a.reg.aligned o.ty.words
    i := mk o }

def chkFltT (r : Raw) (mk : FltT → Instr) (types : FTy → Bool) (rnd fzo clamp : Bool) (n : FTy → Nat) : Chk :=
  let o : FltT :=
    { h := r.h, ty := mdT r, rnd := mdRnd r, fzo := r.md2.getLsbD 0, clamp := r.md2.getLsbD 1, dst := r.d
      a := r.a, b := r.b, c := r.c }
  { s2 := !r.ib
    s5 := (rnd || o.rnd = .rn) && (fzo || !o.fzo) && (clamp || !o.clamp) && r.md2.extractLsb' 2 8 = 0 && r.xz
    s6 := illIf (!types o.ty) .op
    s9 := o.dst.writable
    s10 := o.dst.aligned (n o.ty) && o.a.reg.aligned (n o.ty) && o.b.reg.aligned (n o.ty) && o.c.reg.aligned (n o.ty)
    i := mk o }

def mdW64 (r : Raw) : Bool := r.md.getLsbD 0

/-- The width field names 32 or 64 bits. -/
def mdScalar (r : Raw) : Bool := !r.md.getLsbD 1

def chkCvt (r : Raw) (mk : CvtO → Instr) (stoch : Bool) : Chk :=
  let sty := CTy.ofBits? (r.sb.extractLsb' 0 5)
  let dty := CTy.ofBits? (r.sc.extractLsb' 0 5)
  let o : CvtO :=
    { h := r.h, rnd := mdRnd r, fzo := r.md2.getLsbD 0, sty := sty.getD .i8, dty := dty.getD .i8
      nosat := r.sc.getLsbD 5, dst := r.d, a := r.a }
  { s2 := !r.ib
    s5 := r.md.extractLsb' 0 2 = 0 && (!stoch || o.rnd = .rn) && r.md2.extractLsb' 1 9 = 0 && r.xz &&
          r.sb.extractLsb' 5 3 = 0 && r.sc.extractLsb' 6 2 = 0 && (r.wide || (!r.wb && !r.wc))
    s6 := illIf (sty.isNone || dty.isNone || !nosatWf o.dty o.nosat || (stoch && !cvtsTypes o.sty o.dty)) .op
    s9 := o.dst.writable
    s10 := o.dst.aligned o.dty.words && o.a.reg.aligned o.sty.words
    i := mk o }

def chkPack (r : Raw) : Chk :=
  let ty := PTy.ofBits? (r.md2.extractLsb' 0 3)
  let half := ty = some .f16 || ty = some .bf16
  let o : PackO :=
    { h := r.h, rnd := mdRnd r, ty := ty.getD .f16, nosat := r.md2.getLsbD 3, pos := r.md.extractLsb' 0 2, dst := r.d
      a := r.a, b := r.b, c := if half then none else some r.c }
  { s2 := !r.ib
    s5 := r.md2.extractLsb' 4 6 = 0 && r.xz && (!half || r.noC)
    s6 := illIf (match ty with
      | none => true
      | some .f16 | some .bf16 => o.pos ≠ 0 || o.nosat
      | some .e4m3 | some .e5m2 => 1 < o.pos.toNat
      | some .e2m1 => o.nosat) .op
    s9 := o.dst.writable
    i := .pack o }

/-- The class A operations: S64 0x10 to 0x4A (R37, R137, R140, R143, R156). -/
def classA (r : Raw) : Option Chk :=
  let w64 := mdW64 r
  let n := wordsOf w64
  match r.op.toNat with
  | 0x10 => some (chkIntB r .iadd true true true)
  | 0x11 => some (chkIntB r .isub true true true)
  | 0x12 => some (chkIntB r .imul true true true)
  | 0x13 => some (chkIntB r .imulh true true false)
  | 0x14 => some (chkIntT r .imad (fun _ => true) true true)
  | 0x15 => some (chkIntB r .idiv false true true true)
  | 0x16 => some (chkIntB r .irem false true false true)
  | 0x17 => some (chkIntB r .imin true true false)
  | 0x18 => some (chkIntB r .imax true true false)
  | 0x19 => some (chkIntU r .iabs true true true true)
  | 0x1A => some (chkIntB r .iand false false false)
  | 0x1B => some (chkIntB r .ior false false false)
  | 0x1C => some (chkIntB r .ixor false false false)
  | 0x1D => some
      { s2 := !r.ib, s5 := r.md2.extractLsb' 4 6 = 0 && r.xz, s9 := r.d.writable
        i := .lut3 r.h (r.md2.extractLsb' 0 4 ++ r.md) r.d r.a r.b r.c }
  | 0x1E => some (chkIntB r .shl true false false)
  | 0x1F => some (chkIntB r .shr true false false)
  | 0x20 => some (chkIntB r .sar true false false)
  | 0x21 => some (chkIntB r .rot true false false)
  | 0x22 =>
    let f := if r.ib then BfxField.imm (r.imm18.extractLsb' 0 6) (r.imm18.extractLsb' 6 7) else .regs r.b r.c
    some
      { s5 := !r.md.getLsbD 3 && r.m2z && r.xz && (!r.ib || r.imm18.extractLsb' 13 5 = 0)
        s6 := illIf (!mdScalar r) .op
        s9 := r.d.writable
        s10 := r.d.aligned n && r.a.reg.aligned n && (r.ib || (r.b.reg.aligned n && r.c.reg.aligned n))
        i := .bfx r.h w64 (r.md.getLsbD 2) r.d r.a f }
  | 0x23 => some (chkIntT r .bfi IWidth.scalar false false)
  | 0x24 => some (chkIntU r .popc false false false false)
  | 0x25 => some (chkIntU r .clz false false false false)
  | 0x26 => some (chkIntU r .brev false false false true)
  | 0x27 =>
    let c := ICond.ofBits? (r.md2.extractLsb' 0 3)
    some
      { s5 := !r.md.getLsbD 3 && r.md2.extractLsb' 3 7 = 0 && r.noCi && r.xz
        s6 := illIf (!mdScalar r || c.isNone) .op
        s9 := predDstOk r.dst
        s10 := r.a.reg.aligned n && r.opB.alignedB n
        i := .isetp r.h w64 (r.md.getLsbD 2) (c.getD .eq) (predOf r.dst) r.a r.opB }
  | 0x28 => some
      { s5 := r.md.extractLsb' 2 2 = 0 && r.md2.extractLsb' 4 6 = 0 && r.noCi && r.xz
        s6 := illIf (!mdScalar r) .op
        s9 := r.d.writable
        s10 := r.d.aligned n && r.a.reg.aligned n && r.opB.alignedB n
        i := .sel r.h w64 r.d (r.md2.extractLsb' 0 3) (r.md2.getLsbD 3) r.a r.opB }
  | 0x29 =>
    let disp := if r.ib then LeaDisp.imm r.imm18 else .reg r.b w64 (r.md.getLsbD 2) (r.md2.extractLsb' 0 2)
    some
      { s5 := r.noCi && r.xz && r.md2.extractLsb' 2 8 = 0 && (!r.ib || (r.md = 0 && r.m2z)) && !r.md.getLsbD 3
        s6 := illIf (!mdScalar r) .op
        s9 := r.d.writable && !r.d.isQPort
        s10 := r.d.aligned 2 && r.a.reg.aligned 2 && (r.ib || r.b.reg.aligned n)
        i := .lea r.h r.d r.a disp }
  | 0x2A => some
      { s5 := r.md.extractLsb' 2 2 = 0 && r.m2z && r.xz && (if r.ib then r.noA else r.noBC)
        s6 := illIf (!mdScalar r) .op
        s9 := r.d.writable
        s10 := r.d.aligned n && (r.ib || r.a.reg.aligned n)
        i := .mov r.h w64 r.d (if r.ib then .imm r.imm18 else .reg r.a) }
  | 0x2B => some
      { s2 := !r.ib
        s5 := predField r.sa && predField r.sb && predField r.sc && r.md2.extractLsb' 4 6 = 0 && r.xz
        s9 := predDstOk r.dst
        i := .plop r.h (r.md2.extractLsb' 0 4 ++ r.md) (predOf r.dst) (predOf r.sa) (predOf r.sb) (predOf r.sc) }
  | 0x2C => some (chkIntT r .idot4 (· = .w32) true true)
  | 0x2D => some (chkIntT r .idot2 (· = .w32) true true)
  | 0x2E =>
    if w64 then some
      { s2 := r.ib
        s5 := r.md.extractLsb' 1 3 = 0 && r.m2z && r.xz && r.noD && r.imm18.extractLsb' 7 11 = 0
        i := .movpWrite r.h (r.imm18.extractLsb' 0 7) r.a }
    else some
      { s2 := !r.ib
        s5 := r.md.extractLsb' 1 3 = 0 && r.m2z && r.xz && r.noA && r.noBC
        s9 := r.d.writable
        i := .movpRead r.h r.d }
  | 0x30 => some (chkFltB r .fadd FTy.any true true true)
  | 0x31 => some (chkFltB r .fsub FTy.any true true true)
  | 0x32 => some (chkFltB r .fmul FTy.any true true true)
  | 0x33 => some (chkFltT r .ffma FTy.any true true true FTy.words)
  | 0x34 => some (chkFltB r .fmin FTy.any false false true)
  | 0x35 => some (chkFltB r .fmax FTy.any false false true)
  | 0x36 => some (chkFltU r .fneg FTy.any false true false true)
  | 0x37 => some (chkFltU r .fabs FTy.any false true false true)
  | 0x38 =>
    let t := mdT r
    some
      { s5 := mdRnd r = .rn && r.md2.extractLsb' 4 6 = 0 && r.noCi && r.xz && fltImmWf t r.opB
        s6 := illIf (!t.scalar) .op
        s9 := predDstOk r.dst
        s10 := r.a.reg.aligned t.words && r.opB.alignedB t.words
        i := .fsetp r.h t (r.md2.getLsbD 0) (FCond.ofBits (r.md2.extractLsb' 1 3)) (predOf r.dst) r.a r.opB }
  | 0x39 => some (chkFltU r .fclass FTy.any false false false false)
  | 0x3A => some (chkFltB r .fdiv FTy.scalar true true true)
  | 0x3B => some (chkFltU r .fsqrt FTy.scalar true true true true)
  | 0x3C => some (chkFltU r .frcp FTy.special true true true true)
  | 0x3D => some (chkFltU r .frsq FTy.special true true true true)
  | 0x3E => some (chkFltU r .fexp2 FTy.special true true true true)
  | 0x3F => some (chkFltU r .flog2 FTy.special true true true true)
  | 0x40 => some (chkFltU r .fsin FTy.special true true true true)
  | 0x41 => some (chkFltU r .fcos FTy.special true true true true)
  | 0x42 => some (chkFltU r .ftanh FTy.special true true true true)
  | 0x43 => some (chkFltU r .frnd FTy.any true true false true)
  | 0x44 => some (chkCvt r .cvt false)
  | 0x45 => some (chkCvt r .cvts true)
  | 0x46 => some (chkPack r)
  | 0x47 =>
    let ty := PTy.ofBits? (r.md2.extractLsb' 0 3)
    some
      { s5 := r.md = 0 && r.md2.extractLsb' 3 7 = 0 && r.noCi && r.xz
        s6 := illIf ty.isNone .op
        s9 := r.d.writable
        i := .unpk r.h (ty.getD .f16) r.d r.a r.opB }
  | 0x48 => some (chkFltT r .fdot2 FTy.halves false false false (fun _ => 1))
  | 0x49 => some (chkFltB r .fscl FTy.any true true false (fun _ => 1))
  | 0x4A => some (chkFltB r .fexpn (· = .f32) true true false)
  | _ => none

/-! ## W96 slots (R36, R37) -/

/-- The raw record a slot stands for: `ib`, `md2` and `xm` zero and every wait bit 1. -/
def WideSlot.raw (h : Head) (s : WideSlot) : Raw :=
  { wide := true, h := h, op := s.op, md := s.md, dst := s.dst, sa := s.sa, wa := true, sb := s.sb, wb := true
    sc := s.sc, wc := true }

/-- Opcodes outside class A, though classA knows them (R37). -/
def notWide (op : BitVec 8) : Bool := op = 0x15 || op = 0x16 || op = 0x3A || op = 0x3B

/-- The checks of a slot, when its opcode is in class A. -/
def WideSlot.chk (h : Head) (s : WideSlot) : Option Chk := if notWide s.op then none else classA (s.raw h)

/-- The instruction a slot executes as. -/
def WideSlot.instr (h : Head) (s : WideSlot) : Instr :=
  match s.chk h with
  | some c => c.i
  | none => .nop h

/-- A slot that passes its own checks. -/
def WideSlot.ok (h : Head) (s : WideSlot) : Bool :=
  match s.chk h with
  | some c =>
    match c.result with
    | .ok _ => true
    | .error _ => false
  | none => false

/-! ## Encoding -/

/-- Source A in its field. -/
def Raw.putA (r : Raw) (s : Src) : Raw := { r with sa := s.reg.bits, wa := s.wait }
def Raw.putB (r : Raw) (s : Src) : Raw := { r with sb := s.reg.bits, wb := s.wait }
def Raw.putC (r : Raw) (s : Src) : Raw := { r with sc := s.reg.bits, wc := s.wait }

/-- `imm18` in its field, with `ib` = 1. -/
def Raw.putImm (r : Raw) (v : BitVec 18) : Raw :=
  { r with ib := true, sb := v.extractLsb' 0 8, wb := v.getLsbD 8, sc := v.extractLsb' 9 8, wc := v.getLsbD 17 }

def Raw.putOpB (r : Raw) (b : OpB) : Raw :=
  match b with
  | .reg s => r.putB s
  | .imm v => r.putImm v

def mdInt (w : IWidth) (sgn sat : Bool) : BitVec 4 := BitVec.ofBool sat ++ (BitVec.ofBool sgn ++ w.bits)

def mdFlt (ty : FTy) (rnd : Rnd) : BitVec 4 := rnd.bits ++ ty.bits

def md2Flt (fzo clamp : Bool) : BitVec 10 := (BitVec.ofBool clamp ++ BitVec.ofBool fzo).setWidth 10

def encIntB (op : BitVec 8) (o : IntB) : Raw :=
  ({ h := o.h, op := op, md := mdInt o.w o.sgn o.sat, dst := o.dst.bits : Raw }.putA o.a).putOpB o.b

def encIntU (op : BitVec 8) (o : IntU) : Raw :=
  { h := o.h, op := op, md := mdInt o.w o.sgn o.sat, dst := o.dst.bits : Raw }.putA o.a

def encIntT (op : BitVec 8) (o : IntT) : Raw :=
  (({ h := o.h, op := op, md := mdInt o.w o.sgn o.sat, dst := o.dst.bits : Raw }.putA o.a).putB o.b).putC o.c

def encFltB (op : BitVec 8) (o : FltB) : Raw :=
  ({ h := o.h, op := op, md := mdFlt o.ty o.rnd, md2 := md2Flt o.fzo o.clamp, dst := o.dst.bits : Raw }.putA o.a).putOpB o.b

def encFltU (op : BitVec 8) (o : FltU) : Raw :=
  { h := o.h, op := op, md := mdFlt o.ty o.rnd, md2 := md2Flt o.fzo o.clamp, dst := o.dst.bits : Raw }.putA o.a

def encFltT (op : BitVec 8) (o : FltT) : Raw :=
  (({ h := o.h, op := op, md := mdFlt o.ty o.rnd, md2 := md2Flt o.fzo o.clamp, dst := o.dst.bits : Raw }.putA o.a).putB o.b).putC o.c

def encCvt (op : BitVec 8) (o : CvtO) : Raw :=
  { h := o.h, op := op, md := mdFlt .f32 o.rnd, md2 := md2Flt o.fzo false, dst := o.dst.bits
    sb := o.sty.bits.setWidth 8, sc := (BitVec.ofBool o.nosat ++ o.dty.bits).setWidth 8 : Raw }.putA o.a

def w64Bit (w64 : Bool) : BitVec 4 := (BitVec.ofBool w64).setWidth 4

/-- The raw fields of a class A operation; every other instruction answers `none`. -/
def encClassA : Instr → Option Raw
  | .iadd o => some (encIntB 0x10 o)
  | .isub o => some (encIntB 0x11 o)
  | .imul o => some (encIntB 0x12 o)
  | .imulh o => some (encIntB 0x13 o)
  | .imad o => some (encIntT 0x14 o)
  | .idiv o => some (encIntB 0x15 o)
  | .irem o => some (encIntB 0x16 o)
  | .imin o => some (encIntB 0x17 o)
  | .imax o => some (encIntB 0x18 o)
  | .iabs o => some (encIntU 0x19 o)
  | .iand o => some (encIntB 0x1A o)
  | .ior o => some (encIntB 0x1B o)
  | .ixor o => some (encIntB 0x1C o)
  | .lut3 h t dst a b c =>
    some ((({ h := h, op := 0x1D, md := t.extractLsb' 0 4, md2 := (t.extractLsb' 4 4).setWidth 10, dst := dst.bits : Raw }.putA a).putB b).putC c)
  | .shl o => some (encIntB 0x1E o)
  | .shr o => some (encIntB 0x1F o)
  | .sar o => some (encIntB 0x20 o)
  | .rot o => some (encIntB 0x21 o)
  | .bfx h w64 sgn dst a f =>
    let r := { h := h, op := 0x22, md := mdInt (if w64 then .w64 else .w32) sgn false, dst := dst.bits : Raw }.putA a
    match f with
    | .regs p l => some ((r.putB p).putC l)
    | .imm p l => some (r.putImm ((l ++ p).setWidth 18))
  | .bfi o => some (encIntT 0x23 o)
  | .popc o => some (encIntU 0x24 o)
  | .clz o => some (encIntU 0x25 o)
  | .brev o => some (encIntU 0x26 o)
  | .isetp h w64 sgn cond pd a b =>
    some (({ h := h, op := 0x27, md := mdInt (if w64 then .w64 else .w32) sgn false, md2 := cond.bits.setWidth 10
             dst := predBits pd : Raw }.putA a).putOpB b)
  | .sel h w64 dst p neg a b =>
    some (({ h := h, op := 0x28, md := w64Bit w64, md2 := (BitVec.ofBool neg ++ p).setWidth 10, dst := dst.bits : Raw }.putA a).putOpB b)
  | .lea h dst base disp =>
    match disp with
    | .imm v => some (({ h := h, op := 0x29, dst := dst.bits : Raw }.putA base).putImm v)
    | .reg s w64 sgn sh =>
      some (({ h := h, op := 0x29, md := mdInt (if w64 then .w64 else .w32) sgn false, md2 := sh.setWidth 10
               dst := dst.bits : Raw }.putA base).putB s)
  | .mov h w64 dst a =>
    let r : Raw := { h := h, op := 0x2A, md := w64Bit w64, dst := dst.bits }
    match a with
    | .reg s => some (r.putA s)
    | .imm v => some (r.putImm v)
  | .plop h t pd pa pb pc =>
    some { h := h, op := 0x2B, md := t.extractLsb' 0 4, md2 := (t.extractLsb' 4 4).setWidth 10, dst := predBits pd
           sa := predBits pa, wa := true, sb := predBits pb, wb := true, sc := predBits pc, wc := true }
  | .idot4 o => some (encIntT 0x2C o)
  | .idot2 o => some (encIntT 0x2D o)
  | .movpRead h dst => some { h := h, op := 0x2E, dst := dst.bits }
  | .movpWrite h m a => some (({ h := h, op := 0x2E, md := 1 : Raw }.putA a).putImm (m.setWidth 18))
  | .fadd o => some (encFltB 0x30 o)
  | .fsub o => some (encFltB 0x31 o)
  | .fmul o => some (encFltB 0x32 o)
  | .ffma o => some (encFltT 0x33 o)
  | .fmin o => some (encFltB 0x34 o)
  | .fmax o => some (encFltB 0x35 o)
  | .fneg o => some (encFltU 0x36 o)
  | .fabs o => some (encFltU 0x37 o)
  | .fsetp h ty fzo cond pd a b =>
    some (({ h := h, op := 0x38, md := mdFlt ty .rn, md2 := (cond.bits ++ BitVec.ofBool fzo).setWidth 10
             dst := predBits pd : Raw }.putA a).putOpB b)
  | .fclass o => some (encFltU 0x39 o)
  | .fdiv o => some (encFltB 0x3A o)
  | .fsqrt o => some (encFltU 0x3B o)
  | .frcp o => some (encFltU 0x3C o)
  | .frsq o => some (encFltU 0x3D o)
  | .fexp2 o => some (encFltU 0x3E o)
  | .flog2 o => some (encFltU 0x3F o)
  | .fsin o => some (encFltU 0x40 o)
  | .fcos o => some (encFltU 0x41 o)
  | .ftanh o => some (encFltU 0x42 o)
  | .frnd o => some (encFltU 0x43 o)
  | .cvt o => some (encCvt 0x44 o)
  | .cvts o => some (encCvt 0x45 o)
  | .pack o =>
    let r := ({ h := o.h, op := 0x46, md := o.rnd.bits ++ o.pos, md2 := (BitVec.ofBool o.nosat ++ o.ty.bits).setWidth 10
                dst := o.dst.bits : Raw }.putA o.a).putB o.b
    some (match o.c with
      | some c => r.putC c
      | none => r)
  | .unpk h ty dst a idx => some (({ h := h, op := 0x47, md2 := ty.bits.setWidth 10, dst := dst.bits : Raw }.putA a).putOpB idx)
  | .fdot2 o => some (encFltT 0x48 o)
  | .fscl o => some (encFltB 0x49 o)
  | .fexpn o => some (encFltB 0x4A o)
  | _ => none

end Sys2Proof
end

