-- ==== Sys2Proof/WellFormed.lean ====
section
/-! DEFINITION. WellFormed.lean: which terms of `Instr` stand for an encoding that passes steps 1 to 10 of R53, but for
the checks that depend on handler mode (RETT, TLBI, KEYLD and the system registers), which `Decode` makes. -/

namespace Sys2Proof

/-! ## Class A operations (R137, R143) -/

/-- `packed`: all widths; `sgn`, `sat`: the modifier is in use. -/
def IntB.wf (o : IntB) (packed sgn sat : Bool) (noQ : Bool := false) : Bool :=
  o.h.wf && (packed || o.w.scalar) && (sgn || !o.sgn) && (sat || !o.sat) && o.dst.dstWf o.w.words &&
    !(noQ && o.dst.isQPort) && o.a.wf o.w.words && o.b.wf o.w.words

def IntU.wf (o : IntU) (packed sgn sat : Bool) (dw : Nat) : Bool :=
  o.h.wf && (packed || o.w.scalar) && (sgn || !o.sgn) && (sat || !o.sat) && o.dst.dstWf dw && o.a.wf o.w.words

def IntT.wf (o : IntT) (width : IWidth → Bool) (sgn sat : Bool) : Bool :=
  o.h.wf && width o.w && (sgn || !o.sgn) && (sat || !o.sat) && o.dst.dstWf o.w.words &&
    o.a.wf o.w.words && o.b.wf o.w.words && o.c.wf o.w.words

def FltB.wf (o : FltB) (types : FTy → Bool) (rnd clamp : Bool) : Bool :=
  o.h.wf && types o.ty && (rnd || o.rnd = .rn) && (clamp || !o.clamp) && o.dst.dstWf o.ty.words && o.a.wf o.ty.words &&
    o.b.wf o.ty.words && fltImmWf o.ty o.b

def FltU.wf (o : FltU) (types : FTy → Bool) (rnd fzo clamp : Bool) (dw : Nat) : Bool :=
  o.h.wf && types o.ty && (rnd || o.rnd = .rn) && (fzo || !o.fzo) && (clamp || !o.clamp) && o.dst.dstWf dw && o.a.wf o.ty.words

def FltT.wf (o : FltT) (types : FTy → Bool) (rnd fzo clamp : Bool) (n : Nat) : Bool :=
  o.h.wf && types o.ty && (rnd || o.rnd = .rn) && (fzo || !o.fzo) && (clamp || !o.clamp) && o.dst.dstWf n &&
    o.a.wf n && o.b.wf n && o.c.wf n

def CvtO.wf (o : CvtO) (stoch : Bool) : Bool :=
  o.h.wf && nosatWf o.dty o.nosat && (!stoch || (cvtsTypes o.sty o.dty && o.rnd = .rn)) &&
    o.dst.dstWf o.dty.words && o.a.wf o.sty.words

/-- Positions and saturation of PACK (R150). -/
def PackO.wf (o : PackO) : Bool :=
  o.h.wf && o.dst.dstWf && o.a.wf && o.b.wf &&
    (match o.ty with
     | .f16 | .bf16 => o.pos = 0 && !o.nosat && o.c.isNone
     | .e4m3 | .e5m2 => o.pos.toNat ≤ 1 && (o.c.map (·.wf)).getD false
     | .e2m1 => !o.nosat && (o.c.map (·.wf)).getD false)

/-! ## P64 and W96 (R35, R37) -/

def PairSlot.wf (p : PairSlot) : Bool :=
  (p.mdp &&& p.op.mdpRsv) = 0 && !(p.op.unary && p.wd) &&
    (match p.d with
     | .x n => n < 192
     | _ => false) &&
    (match p.s with
     | .reg s => s.reg.wf && !s.reg.isQPort
     | .imm _ => true)

/-- The bank and register rules of R35 between the two slots. -/
def pairRules (p q : PairSlot) : Bool :=
  p.d.bank? ≠ q.d.bank? &&
    (match p.s, q.s with
     | .reg a, .reg b => !(a.reg.isX && b.reg.isX) || a.reg = b.reg || a.reg.bank? ≠ b.reg.bank?
     | _, _ => true)

/-! ## Matrix (R283 to R285) -/

/-- The B type codes of A's family, the element bits, and K of a matrix type: codes 0 f64, 1 f32, 2 bf16, 3 f16,
4 e4m3, 5 e5m2, 6 e3m2, 7 e2m3, 8 e2m1, 9 i8, 10 i4, as the opcode's low four bits give them (R284). -/
def matFamily (aty : Nat) : List Nat :=
  if aty = 0 then [0] else if aty = 1 then [1] else if aty ≤ 3 then [2, 3]
  else if aty ≤ 8 then [4, 5, 6, 7, 8] else if aty ≤ 10 then [9, 10] else []

def matBits (ty : Nat) : Nat :=
  [64, 32, 16, 16, 8, 8, 6, 6, 4, 8, 4].getD ty 8

def matK (ty : Nat) : Nat :=
  [16, 32, 64, 64, 128, 128, 256, 256, 256, 128, 256].getD ty 16

/-- The type B has: code `bty` of A's family. -/
def matB? (aty : Nat) (bty : BitVec 3) : Option Nat := (matFamily aty)[bty.toNat]?

/-- The accumulator's code for A's row (R284). -/
def matAcc (aty : Nat) : BitVec 2 := if aty = 0 then 1 else if 9 ≤ aty then 2 else 0

/-- K of an operation. -/
def mmaK (aty bty : Nat) : Nat := min (matK aty) (matK bty)

/-- Registers of a fragment of `k` elements of a type. -/
def fragWords (ty k : Nat) : Nat := (matBits ty * k + 31) / 32

/-- Registers of the C fragment. -/
def cWords (aty : Nat) : Nat := if aty = 0 then 64 else 32

/-- Two register ranges meet. -/
def overlap (a n b m : Nat) : Bool := a < b + m && b < a + n

/-- A fragment's register range, when the operand has register form. -/
def frag? (vault : Bool) (r : Reg) (n : Nat) : Option (Nat × Nat) :=
  if vault then none else match r with
    | .x k => some (k, n)
    | _ => none

def optOverlap (a b : Option (Nat × Nat)) : Bool :=
  match a, b with
  | some (x, n), some (y, m) => overlap x n y m
  | _, _ => false

/-- A scale operand names thread registers or constants; the sixteen of granularity 11 do not run on into the ports. -/
def scaleRegOk (scale : BitVec 2) (r : Reg) : Bool :=
  match r with
  | .x _ => true
  | .k n => scale ≠ 3 || n ≤ 16
  | _ => false

/-- Alignment of a scale operand: sixteen registers from a multiple of 4, else a pair (R284). -/
def scaleAligned (scale : BitVec 2) (r : Reg) : Bool :=
  match r with
  | .k n => n % (if scale = 3 then 4 else 2) = 0
  | r => r.aligned (if scale = 3 then 4 else 2)

def MmaO.wf (o : MmaO) (aty : Nat) : Bool :=
  match matB? aty o.bty with
  | none => false
  | some bt =>
    let k := mmaK aty bt
    let fa := frag? o.aVault o.a.reg (fragWords aty k)
    let fb := frag? o.bVault o.b.reg (fragWords bt k)
    let fc := frag? o.cVault o.c (cWords aty)
    let opnd (vault : Bool) (r : Reg) : Bool := r.wf && !r.isQPort &&
      (if vault then r.aligned 2 && (r.isX || r.isK) else r.isX && r.aligned 4)
    o.h.wf && (o.scale = 0 || (2 ≤ aty && aty ≤ 8)) && opnd o.aVault o.a.reg && opnd o.bVault o.b.reg && opnd o.cVault o.c &&
      (o.scale = 0 && o.sc.isNone || o.scale ≠ 0 && (o.sc.map fun s => s.wf && scaleRegOk o.scale s.reg && scaleAligned o.scale s.reg).getD false) &&
      (o.size = 31 || (o.aVault && o.bVault && o.cVault)) && (o.steps = 0 || (o.aVault && o.bVault)) &&
      !optOverlap fa fb && !optOverlap fa fc && !optOverlap fb fc

/-! ## Rays (R312) -/

/-- A window base: a thread register, a multiple of 32. -/
def windowWf : Reg → Bool
  | .x n => n < 192 && n % 32 = 0
  | _ => false

/-- Whether an operand of `n` registers stays clear of the window at `w`. -/
def clearOf (w r : Reg) (n : Nat) : Bool :=
  match w, r with
  | .x a, .x b => !overlap a 32 b n
  | .x a, .k b => !overlap a 32 (192 + b) n
  | _, _ => true

def Src.rayWf (w : Reg) (s : Src) (n : Nat) : Bool := s.wfNoQ n && clearOf w s.reg n

def rayDst (w r : Reg) : Bool := r.dstNoQ 2 && clearOf w r 2

/-! ## Everything -/

def AOp.wf (op : AOp) (w64 : Bool) : Bool :=
  !w64 || (match op with
    | .fadd | .fmin | .fmax => false
    | _ => true)

/-- Registers of an atomic's operand (R200). -/
def AOp.words (op : AOp) (w64 : Bool) : Nat := if op = .cas then 2 * wordsOf w64 else wordsOf w64

def AtomO.wf (o : AtomO) (imm : Bool) : Bool :=
  o.h.wf && o.op.wf o.w64 && o.dst.dstNoQ (wordsOf o.w64) && o.base.wfNoQ 2 && o.v.wfNoQ (o.op.words o.w64) &&
    (imm || o.scope = .cluster) && hintWf o.policy o.hint

def XtO.wf (o : XtO) : Bool :=
  o.h.wf && o.dst.dstNoQ (wordsOf o.w64) && o.a.wfNoQ (wordsOf o.w64) && o.mask.wfNoQ 2

def ROp.w64 (op : ROp) : Bool := op = .add64

def BarArg.wf : BarArg → Bool
  | .imm _ cnt => cnt.toNat ≤ 2048
  | .reg b c => b.wf && c.wf

def BarNum.wf : BarNum → Bool
  | .imm _ => true
  | .reg b => b.wf

/-- The system registers: number, width 64, and the modes that may read and write (R373). 0 none, 1 handler, 2 any. -/
def sysReg? (num : Nat) : Option (Bool × Nat × Nat) :=
  if num = 0x000 then some (false, 2, 2) else if num = 0x001 then some (false, 2, 2)
  else if num = 0x002 then some (true, 2, 1) else if num = 0x010 then some (false, 1, 0)
  else if num = 0x011 then some (false, 1, 0) else if num = 0x012 then some (true, 1, 1)
  else if num = 0x013 then some (false, 1, 0) else if num = 0x014 then some (false, 1, 0)
  else if num = 0x015 ∨ num = 0x016 then some (true, 1, 1)
  else if 0x018 ≤ num ∧ num ≤ 0x01F then some (true, 1, 0)
  else if num = 0x020 then some (false, 2, 2) else if num = 0x030 then some (false, 2, 0)
  else if num = 0x100 then some (false, 2, 2) else if num = 0x101 then some (false, 2, 0) else none

/-- Words of a system register. -/
def sysWords (num : BitVec 12) : Nat :=
  match sysReg? num.toNat with
  | some (w64, _) => wordsOf w64
  | none => 1

def thrOnly (r : Reg) : Bool := r.isX || r = .s .zr

/-- W96: two class A slots, class S only in slot B, each legal by itself, and R37 between them. -/
def wideWf (h : Head) (a b : WideSlot) : Bool :=
  a.ok h && b.ok h &&
    (match (a.instr h).shape, (b.instr h).shape with
     | some x, some y => !x.sfu && wideRules x y
     | _, _ => false)

/-- Whether an instruction stands for an encoding that decodes. Device steps stand for none. -/
def Instr.wf : Instr → Bool
  | .nop h | .yield h | .exit h | .prio h _ | .rett h | .fetchb h | .tlbiCtx h | .tlbiBufall h | .qend h | .fence h _
  | .vsplitXclose h => h.wf
  | .br h _ _ => h.wf
  | .brl h _ _ => h.wf
  | .call h link _ _ => h.wf && link.dstWf 2 && thrOnly link
  | .calll h link _ _ => h.wf && link.dstWf 2 && thrOnly link
  | .jmpr h link tgt _ => h.wf && link.dstWf 2 && thrOnly link && tgt.wf 2
  | .ret h tgt _ => h.wf && tgt.wf 2
  | .tryw h pd w b => h.wf && predDst pd && w.wf && w.isX && b.wf
  | .trap h _ => h.wf && !h.sp
  | .trapSp h w64 dst code => h.wf && h.sp && dst.dstWf (wordsOf w64) && 0x40 ≤ code.toNat && code.toNat ≤ 0x7F
  | .chk h src =>
    h.wf && (match src with
      | .reg s => s.wf
      | .pred _ => true)
  | .brk h _ => h.wf
  | .p64Pair h a b => h.wf && a.wf && b.wf && pairRules a b
  | .w96Pair h a b => h.wf && wideWf h a b
  | .iadd o | .isub o | .imul o => o.wf true true true
  | .imulh o | .imin o | .imax o => o.wf true true false
  | .idiv o => o.wf false true true (o.w = .w64)
  | .irem o => o.wf false true false (o.w = .w64)
  | .iand o | .ior o | .ixor o => o.wf false false false
  | .shl o | .shr o | .sar o | .rot o => o.wf true false false
  | .imad o => o.wf (fun _ => true) true true
  | .bfi o => o.wf IWidth.scalar false false
  | .idot4 o | .idot2 o => o.wf (· = .w32) true true
  | .iabs o => o.wf true true true o.w.words
  | .brev o => o.wf false false false o.w.words
  | .popc o | .clz o => o.wf false false false 1
  | .lut3 h _ dst a b c => h.wf && dst.dstWf && a.wf && b.wf && c.wf
  | .bfx h w64 _ dst a f =>
    h.wf && dst.dstWf (wordsOf w64) && a.wf (wordsOf w64) && (match f with
      | .regs p l => p.wf (wordsOf w64) && l.wf (wordsOf w64)
      | .imm _ _ => true)
  | .isetp h w64 _ _ pd a b => h.wf && predDst pd && a.wf (wordsOf w64) && b.wf (wordsOf w64)
  | .sel h w64 dst _ _ a b => h.wf && dst.dstWf (wordsOf w64) && a.wf (wordsOf w64) && b.wf (wordsOf w64)
  | .lea h dst base disp =>
    h.wf && dst.dstNoQ 2 && base.wf 2 && (match disp with
      | .imm _ => true
      | .reg s w64 _ _ => s.wf (wordsOf w64))
  | .mov h w64 dst a => h.wf && dst.dstWf (wordsOf w64) && a.wf (wordsOf w64)
  | .plop h _ pd _ _ _ => h.wf && predDst pd
  | .movpRead h dst => h.wf && dst.dstWf
  | .movpWrite h _ a => h.wf && a.wf
  | .movl h form dst _ => h.wf && form ≠ 3 && dst.dstWf (if form = 0 then 1 else 2)
  | .iaddl h w64 _ _ dst a _ => h.wf && dst.dstWf (wordsOf w64) && a.wf (wordsOf w64)
  | .isetpl h w64 _ _ pd a _ => h.wf && predDst pd && a.wf (wordsOf w64)
  | .fadd o | .fsub o | .fmul o => o.wf FTy.any true true
  | .fmin o | .fmax o => o.wf FTy.any false false
  | .fdiv o => o.wf FTy.scalar true true
  | .ffma o => o.wf FTy.any true true true o.ty.words
  | .fneg o | .fabs o => o.wf FTy.any false true false o.ty.words
  | .fsetp h ty _ _ pd a b => h.wf && ty.scalar && predDst pd && a.wf ty.words && b.wf ty.words
  | .fclass o => o.wf FTy.any false false false 1
  | .fsqrt o => o.wf FTy.scalar true true true o.ty.words
  | .frcp o | .frsq o | .fexp2 o | .flog2 o | .fsin o | .fcos o | .ftanh o => o.wf FTy.special true true true o.ty.words
  | .frnd o => o.wf FTy.any true true false o.ty.words
  | .cvt o => o.wf false
  | .cvts o => o.wf true
  | .pack o => o.wf
  | .unpk h _ dst a idx => h.wf && dst.dstWf && a.wf && idx.wf
  | .fdot2 o => o.wf FTy.halves false false false 1
  | .fscl o =>
    o.h.wf && o.dst.dstWf o.ty.words && o.a.wf o.ty.words && o.b.wf && !o.b.isImm
  | .fexpn o => o.h.wf && o.ty = .f32 && o.dst.dstWf && o.a.wf && o.b.wf && !o.b.isImm
  | .fusedSoftmax _ _ _ _ => false
  | .vote h form _ m =>
    h.wf && m.wfNoQ 2 && (match form with
      | .all pd | .any pd | .eq pd => predDst pd
      | .bal d => d.dstNoQ 2)
  | .shfl o idx => o.wf && idx.wfNoQ
  | .shflGive h w64 dst a tgt => h.wf && dst.dstNoQ (wordsOf w64) && a.wfNoQ (wordsOf w64) && tgt.wfNoQ
  | .slup o d | .sldn o d => o.wf && d.wfNoQ
  | .cmpr o _ | .expd o _ => o.wf
  | .redc h op dst a m | .scan h op _ dst a m =>
    h.wf && dst.dstNoQ (wordsOf op.w64) && a.wfNoQ (wordsOf op.w64) && m.wfNoQ 2
  | .xmatch o => o.h.wf && o.dst.dstNoQ 2 && o.a.wfNoQ (wordsOf o.w64) && o.mask.wfNoQ 2
  | .unif o => o.wf
  | .ld o => o.h.wf && o.reg.dstNoQ o.size.words && o.base.wf 2 && hintWf o.policy o.hint
  | .ldl o => o.h.wf && o.reg.dstNoQ o.size.words && o.base.wf 2 && hintWf o.policy o.hint
  | .st o => o.h.wf && o.reg.wf && o.reg.aligned o.size.words && o.base.wf 2 && hintWf o.policy o.hint
  | .stl o => o.h.wf && o.reg.wf && o.reg.aligned o.size.words && o.base.wf 2 && hintWf o.policy o.hint
  | .cstr o =>
    o.h.wf && o.data.wf (wordsOf o.w64) && o.data.wait && o.base.wf 2 && o.mask.wf 2 && o.cnt.dstWf && hintWf 0 o.hint
  | .pref h _ base _ policy hint => h.wf && base.wf 2 && hintWf policy hint
  | .bref h w64 dst idx off => h.wf && dst.dstNoQ 2 && idx.wf && off.wf (wordsOf w64) && !(w64 && off.isImm)
  | .bqry h dst base => h.wf && dst.dstWf 2 && base.wf 2
  | .cflush h _ base len => h.wf && base.wf 2 && len.wf
  | .iinv h _ arg =>
    h.wf && (match arg with
      | .range b l => b.wf 2 && l.wf
      | .all => true)
  | .tlbiVa h base len => h.wf && base.wf 2 && len.wf
  | .tlbiBuf h i => h.wf && i.wf
  | .atom o => o.wf false
  | .atomi o => o.wf true
  | .bara h b | .bars h b => h.wf && b.wf
  | .barw h b => h.wf && b.wf
  | .baraBuoy h lvl a | .barsBuoy h lvl a | .barx h lvl a => h.wf && !(lvl = .domain) && a.wf
  | .barwBuoy h a => h.wf && a.wf
  | .ldv o => o.h.wf && o.reg.dstNoQ o.size.words && o.a.wfNoQ
  | .stv o | .stx o => o.h.wf && o.reg.wf && o.reg.aligned o.size.words && o.a.wfNoQ
  | .atomv o =>
    o.h.wf && o.op.wf o.w64 && o.dst.dstNoQ (wordsOf o.w64) && o.a.wfNoQ && o.v.wfNoQ (o.op.words o.w64)
  | .presTest h pd a l => h.wf && predDst pd && a.wf && l.wf
  | .presSet h a l | .presClr h a l | .presUnmk h a l => h.wf && a.wf && l.wf
  | .vsplitSet h pd n =>
    h.wf && predDst pd && n.wf && (match n with
      | .imm v => v.getLsbD 17 = false
      | .reg _ => true)
  | .vsplitXopen h pd o l => h.wf && predDst pd && o.wf && l.wf
  | .vsplitRing h dst b c => h.wf && dst.dstWf && b.wf && c.wf
  | .vsplitRfree h n => h.wf && n.wf
  | .buoys h a v =>
    h.wf && a.wf && v.wf 2 && (match v with
      | .imm v => v.getLsbD 17 = false
      | .reg _ => true)
  | .buoyw h dst a => h.wf && dst.dstNoQ 2 && a.wf
  | .fsetSet h w64 dst | .fsetClr h w64 dst => h.wf && dst.dstNoQ (wordsOf w64)
  | .kset h w64 dst v => h.wf && dst.wf && dst.isK && dst.aligned (wordsOf w64) && v.wf (wordsOf w64)
  | .regs h pd n => h.wf && predDst pd && n.toNat % 8 = 0 && 8 ≤ n.toNat && n.toNat ≤ 192
  | .qbind h q a | .qclose h q a => h.wf && q.wf && q.isQPort && a.wf
  | .qstat h dst q => h.wf && dst.dstWf 2 && q.wf && q.isQPort
  | .mfsr h dst num => h.wf && (sysReg? num.toNat).isSome && dst.dstNoQ (sysWords num)
  | .mtsr h num a =>
    h.wf && (match sysReg? num.toNat with
      | some (_, _, wr) => !(wr = 0)
      | none => false) && a.wf (sysWords num) && (a.reg.isX || a.reg.isK)
  | .xcopy h a _ => h.wf && a.wf
  | .keyld h dst base slot _ => h.wf && dst.dstWf && base.wf 2 && slot.wf
  | .keyldClr h dst slot => h.wf && dst.dstWf && slot.wf
  | .post h _ pd base fill _ => h.wf && predDst pd && base.wfNoQ 2 && fill.dstNoQ
  | .mmaF64 o => o.wf 0
  | .mmaF32 o => o.wf 1
  | .mmaBf16 o => o.wf 2
  | .mmaF16 o => o.wf 3
  | .mmaE4m3 o => o.wf 4
  | .mmaE5m2 o => o.wf 5
  | .mmaE3m2 o => o.wf 6
  | .mmaE2m3 o => o.wf 7
  | .mmaE2m1 o => o.wf 8
  | .mmaI8 o => o.wf 9
  | .mmaI4 o => o.wf 10
  | .mwait h _ _ dst => h.wf && dst.dstNoQ
  | .mtrn h _ _ dst a => h.wf && dst.wf && dst.aligned 2 && a.wf 2
  | .mqnt h ty _ nosat _ dst a sc =>
    h.wf && ty.toNat ≤ 4 && (!nosat || ty.toNat ≤ 1) && dst.wf && dst.aligned 2 && a.wf 2 && sc.wf
  | .mclr h acc _ a => h.wf && acc ≠ 3 && a.wf 2
  | .mstat h _ dst => h.wf && dst.dstWf 2
  | .travi h _ w root => h.wf && windowWf w && root.reg.isX && root.rayWf w 1
  | .trav h dst w base inst n => h.wf && windowWf w && rayDst w dst && base.rayWf w 2 && inst.rayWf w 1 && n ≠ 0
  | .thitAcc h w b i => h.wf && windowWf w && b.rayWf w 1 && i.rayWf w 1
  | .thitRej h w => h.wf && windowWf w
  | .tri h _ dst w base _ => h.wf && windowWf w && rayDst w dst && base.rayWf w 2
  | .tbox h _ dst w base _ => h.wf && windowWf w && rayDst w dst && base.rayWf w 2
  | .tstk h w base _ => h.wf && windowWf w && base.rayWf w 2
  | .lnlk h dst o u k | .lnlkW h dst o u k => h.wf && dst.dstNoQ 4 && o.wfNoQ && u.wfNoQ && k.wfNoQ
  | .lnfil h dst o u k | .lninvKey h dst o u k => h.wf && dst.dstNoQ && o.wfNoQ && u.wfNoQ && k.wfNoQ
  | .lninvObj h dst o k | .lninvRev h dst o k => h.wf && dst.dstNoQ && o.wfNoQ && k.wfNoQ
  | .lnage h dst k t _ => h.wf && dst.dstNoQ 2 && k.wfNoQ && t.wfNoQ
  | .smpg h dst i s p => h.wf && dst.dstNoQ 2 && i.wfNoQ 2 && s.wfNoQ && p.wfNoQ
  | .smpgGrid h dst i p => h.wf && dst.dstNoQ 2 && i.wfNoQ 2 && p.wfNoQ
  | .matrixStep _ | .matrixSetDiscard _ _ => false
  | .longLatencyWriteback _ _ | .threadWake _ | .trywTimeout _ | .foghornTrap _ | .boundaryClose _ _ | .acknowledge _
  | .faultRecordPost _ | .readDupCollapse _ | .demotionSweep _ | .tierPointerWrite _ _ | .copyStart _ | .copyLine _ _
  | .decryptTagCheck _ | .parityUpdate _ _ | .vaultScrub _ _ | .groupTransition _ _ | .vaultRemap _ | .scratchGrantLower _
  | .budgetPick _ | .budgetPeriodStart _ | .budgetTableWrite _ _ | .dramPatrolScrub _ | .remoteRead _ _ _ _
  | .remoteWrite _ _ _ _ _ | .submitDoorbell _ _ | .cardPlace _ _ | .headWaitExpiry _ | .domainCardForward _ _ _
  | .coreGroupComplete _ | .cardComplete _ | .noticeDeliver _ | .partitionControlWrite _ _ | .sweepWindowEnd | .preempt _
  | .resume _ | .reset _ | .drainDeadline _ | .checkpoint _ | .checkpointDeadline _ | .resumePlace _ _ _ | .create _ _
  | .destroy _ | .killContext _ | .lossRecordPush _ | .share _ _ | .s2inv _ _ _ | .grant _ _ _ | .wcreate _ _ _
  | .wdestroy _ _ | .bindvf _ _ | .djoin _ _ _ | .qpcreate _ _ | .qpstate _ _ _ | .qpdestroy _ | .qpDoorbell _ _
  | .rdmaIncoming _ _ _ _ _ _ _ _ | .ethModeWrite _ _ | .fabricIdentityWrite _ | .fabricPortDown _ | .fabricIngress _ _ _ _ _
  | .registerWrite _ _ _ | .vfFlr _ | .pfFlr | .conventionalReset | .fatalError | .powerUp | .powerLimit _ | .firmwareUpdate _
  | .tdiEnterRun _ | .tdiLeaveRun _ | .ideIntegrityFail _ | .cflushIinvCompletion _ _ | .islandFrequencyStep _ _
  | .flitForward _ _ | .fabricPortUp _ | .mainRailsDown | .spdmRequest _ | .tdiLock _ | .qpCompletion _ _ _ => false

end Sys2Proof
end

