-- ==== Sys2Proof/Decode.lean ====
section
/-! DEFINITION. Decode.lean: from the bytes of code to an instruction or the cause it traps (R23 to R54), and the encoder
back. -/

namespace Sys2Proof

/-! ## Codes of the other families -/

/-- Memory sizes (R50); 111 is none. -/
def Size.ofBits? (b : BitVec 3) : Option Size := [Size.i8, .n8, .i16, .n16, .b32, .b64, .b128][b.toNat]?

def Size.bits : Size → BitVec 3
  | .i8 => 0
  | .n8 => 1
  | .i16 => 2
  | .n16 => 3
  | .b32 => 4
  | .b64 => 5
  | .b128 => 6

def Level.ofBits (b : BitVec 2) : Level := if b = 0 then .cluster else if b = 1 then .bay else if b = 2 then .die else .domain

def Level.bits : Level → BitVec 2
  | .cluster => 0
  | .bay => 1
  | .die => 2
  | .domain => 3

/-- Atomic operations (R201). -/
def AOp.ofBits? (b : BitVec 4) : Option AOp :=
  [AOp.add, .min, .mins, .max, .maxs, .and, .or, .xor, .xchg, .cas, .fadd, .fmin, .fmax][b.toNat]?

def AOp.bits : AOp → BitVec 4
  | .add => 0
  | .min => 1
  | .mins => 2
  | .max => 3
  | .maxs => 4
  | .and => 5
  | .or => 6
  | .xor => 7
  | .xchg => 8
  | .cas => 9
  | .fadd => 10
  | .fmin => 11
  | .fmax => 12

/-- Folds (R119). -/
def ROp.ofBits? (b : BitVec 4) : Option ROp :=
  [ROp.add, .add64, .mins, .min, .maxs, .max, .and, .or, .xor, .fadd, .fmin, .fmax][b.toNat]?

def ROp.bits : ROp → BitVec 4
  | .add => 0
  | .add64 => 1
  | .mins => 2
  | .min => 3
  | .maxs => 4
  | .max => 5
  | .and => 6
  | .or => 7
  | .xor => 8
  | .fadd => 9
  | .fmin => 10
  | .fmax => 11

def Reach.ofBits (b : BitVec 2) : Reach := if b = 0 then .core else if b = 1 then .clu else if b = 2 then .die else .dev

def Reach.bits : Reach → BitVec 2
  | .core => 0
  | .clu => 1
  | .die => 2
  | .dev => 3

/-- Pair opcodes (R33). -/
def PairOp.ofBits? (b : BitVec 6) : Option PairOp :=
  [PairOp.mov, .iadd, .isub, .and, .or, .xor, .shl, .shr, .sar, .imin, .imax, .imul, .fadd, .fsub, .fmul, .fmin, .fmax, .fneg,
    .fabs, .popc, .clz, .brev, .cvt, .fexp2, .frcp, .iabs][b.toNat]?

def PairOp.bits : PairOp → BitVec 6
  | .mov => 0
  | .iadd => 1
  | .isub => 2
  | .and => 3
  | .or => 4
  | .xor => 5
  | .shl => 6
  | .shr => 7
  | .sar => 8
  | .imin => 9
  | .imax => 10
  | .imul => 11
  | .fadd => 12
  | .fsub => 13
  | .fmul => 14
  | .fmin => 15
  | .fmax => 16
  | .fneg => 17
  | .fabs => 18
  | .popc => 19
  | .clz => 20
  | .brev => 21
  | .cvt => 22
  | .fexp2 => 23
  | .frcp => 24
  | .iabs => 25

/-! ## S64 outside class A -/

/-- Reserved-zero shorthands: no sources, no destination, no modifiers, no extension. -/
def Raw.noSrc (r : Raw) : Bool := r.noA && r.noBC
def Raw.noMod (r : Raw) : Bool := r.md = 0 && r.m2z && r.xz

/-- An opcode whose every field but the head is zero. -/
def chkBare (r : Raw) (i : Instr) : Chk := { s2 := !r.ib, s5 := r.noD && r.noSrc && r.noMod, i := i }

/-- A hint field by its policy (R163). -/
def hintOk (policy : BitVec 2) (hint : BitVec 5) : Bool := hintWf policy hint

/-- LD and ST (R164). -/
def chkMem (r : Raw) (mk : MemO → Instr) (load : Bool) : Chk :=
  let sz := Size.ofBits? (r.md.extractLsb' 0 3)
  let o : MemO :=
    { h := r.h, size := sz.getD .b32, reg := r.d, base := r.a, disp := r.imm18, policy := r.md2.extractLsb' 0 2, hint := r.xm }
  { s2 := r.ib && sz.isSome
    s5 := !r.md.getLsbD 3 && r.md2.extractLsb' 2 8 = 0 && hintOk o.policy o.hint
    s6 := illIf (load && o.reg.isQPort) .rsv
    s9 := !load || o.reg.writable
    s10 := o.reg.aligned o.size.words && o.base.reg.aligned 2
    i := mk o }

/-- LDL and STL (R164). -/
def chkMemL (r : Raw) (mk : MemL → Instr) (load : Bool) : Chk :=
  let sz := Size.ofBits? (r.md.extractLsb' 0 3)
  let o : MemL :=
    { h := r.h, size := sz.getD .b32, reg := r.d, base := r.a, disp := r.imm, policy := r.md2.extractLsb' 0 2
      hint := r.md2.extractLsb' 5 5 }
  { s2 := sz.isSome
    s5 := !r.md.getLsbD 3 && r.md2.extractLsb' 2 3 = 0 && hintOk o.policy o.hint && r.noBC
    s6 := illIf (load && o.reg.isQPort) .rsv
    s9 := !load || o.reg.writable
    s10 := o.reg.aligned o.size.words && o.base.reg.aligned 2
    i := mk o }

/-- LDV, STV and STX (R232). -/
def chkVault (r : Raw) (mk : VaultO → Instr) (load : Bool) : Chk :=
  let sz := Size.ofBits? (r.md.extractLsb' 0 3)
  let o : VaultO := { h := r.h, size := sz.getD .b32, reg := r.d, a := r.a, disp := r.imm18 }
  { s2 := r.ib && sz.isSome
    s5 := !r.md.getLsbD 3 && r.m2z && r.xz
    s6 := illIf (o.a.reg.isQPort || (load && o.reg.isQPort)) .rsv
    s9 := !load || o.reg.writable
    s10 := o.reg.aligned o.size.words
    i := mk o }

/-- ATOM and ATOMI (R200). -/
def chkAtom (r : Raw) (mk : AtomO → Instr) (imm : Bool) : Chk :=
  let op := AOp.ofBits? (r.sc.extractLsb' 0 4)
  let o : AtomO :=
    { h := r.h, op := op.getD .add, w64 := mdW64 r, dst := r.d, base := r.a, v := r.b
      scope := if imm then Level.ofBits (r.md2.extractLsb' 2 2) else .cluster
      policy := r.md2.extractLsb' 0 2, hint := r.xm }
  { s2 := !r.ib && r.md.extractLsb' 0 3 ≠ 7
    s5 := !r.md.getLsbD 3 && (imm || r.md2.extractLsb' 2 2 = 0) && r.md2.extractLsb' 4 6 = 0 && hintOk o.policy o.hint &&
          r.sc.extractLsb' 4 4 = 0 && !r.wc
    s6 := if r.md.extractLsb' 1 2 ≠ 2 || op.isNone || !o.op.wf o.w64 then some .op
          else illIf (o.dst.isQPort || o.base.reg.isQPort || o.v.reg.isQPort) .rsv
    s9 := o.dst.writable
    s10 := o.dst.aligned (wordsOf o.w64) && o.base.reg.aligned 2 && o.v.reg.aligned (o.op.words o.w64)
    i := mk o }

/-- ATOMV (R235). -/
def chkAtomV (r : Raw) : Chk :=
  let op := AOp.ofBits? (r.sc.extractLsb' 0 4)
  let o : AtomVO := { h := r.h, op := op.getD .add, w64 := mdW64 r, dst := r.d, a := r.a, v := r.b }
  { s2 := !r.ib && r.md.extractLsb' 0 3 ≠ 7
    s5 := !r.md.getLsbD 3 && r.m2z && r.xz && r.sc.extractLsb' 4 4 = 0 && !r.wc
    s6 := if r.md.extractLsb' 1 2 ≠ 2 || op.isNone || !o.op.wf o.w64 then some .op
          else illIf (o.dst.isQPort || o.a.reg.isQPort || o.v.reg.isQPort) .rsv
    s9 := o.dst.writable
    s10 := o.dst.aligned (wordsOf o.w64) && o.v.reg.aligned (o.op.words o.w64)
    i := .atomv o }

/-- Cross-thread opcodes: no port in any field (R114). -/
def Raw.anyQ (r : Raw) (c : Bool) : Bool :=
  r.d.isQPort || r.a.reg.isQPort || r.b.reg.isQPort || (c && r.c.reg.isQPort)

/-- SHFL, SLUP, SLDN, CMPR, EXPD, MATCH and UNIF (R114). `cReg`: `sc` is a register; `cPred`: a predicate; else zero. -/
def chkXt (r : Raw) (mk : XtO → Instr) (cReg cPred pairDst : Bool) (mdMask : BitVec 4) : Chk :=
  let o : XtO := { h := r.h, w64 := mdW64 r, dst := r.d, a := r.a, mask := r.b }
  { s2 := !r.ib
    s5 := (r.md &&& mdMask) = 0 && r.m2z && r.xz && (if cPred then predField r.sc else cReg || r.noC)
    s6 := illIf (r.anyQ cReg) .rsv
    s9 := o.dst.writable
    s10 := o.dst.aligned (if pairDst then 2 else wordsOf o.w64) && o.a.reg.aligned (wordsOf o.w64) && o.mask.reg.aligned 2
    i := mk o }

/-- REDC and SCAN (R119). -/
def chkFold (r : Raw) (mk : ROp → Instr) (excl : Bool) : Chk :=
  let op := ROp.ofBits? r.md
  let n := wordsOf (op.getD .add).w64
  { s2 := !r.ib
    s5 := (if excl then r.md2.extractLsb' 1 9 = 0 else r.m2z) && r.xz && r.noC
    s6 := if op.isNone then some .op else illIf (r.anyQ false) .rsv
    s9 := r.d.writable
    s10 := r.d.aligned n && r.a.reg.aligned n && r.b.reg.aligned 2
    i := mk (op.getD .add) }

/-- BARA, BARW and BARS (R204). `wait`: BARW, which has no count and no level. -/
def chkBar (r : Raw) (mkImm : BitVec 6 → BitVec 12 → Instr) (mkReg : Src → Src → Instr) (mkBuoy : Level → Src → Instr)
    (wait : Bool) : Chk :=
  let lvl := r.md.extractLsb' 1 2
  let common := r.noD && !r.md.getLsbD 3 && r.m2z && r.xz
  if r.md.getLsbD 0 then
    { s5 := common && (!wait || lvl = 0) && (r.ib || r.noBC)
      s6 := illIf (r.ib || lvl = 3) .op
      i := mkBuoy (Level.ofBits lvl) r.a }
  else if r.ib then
    { s5 := common && lvl = 0 && r.noA && (!wait || r.imm18.extractLsb' 6 12 = 0)
      s6 := illIf (2048 < (r.imm18.extractLsb' 6 12).toNat) .op
      i := mkImm (r.imm18.extractLsb' 0 6) (r.imm18.extractLsb' 6 12) }
  else
    { s5 := common && lvl = 0 && r.noC && (!wait || r.noB)
      i := mkReg r.a r.b }

/-- PRES forms without a destination (R236). -/
def chkPres (r : Raw) : Chk :=
  let form := (r.md.extractLsb' 0 2).toNat
  let s5 := r.noC && r.md.extractLsb' 2 2 = 0 && r.m2z && r.xz
  if form = 0 then { s2 := !r.ib, s5 := s5, s9 := predDstOk r.dst, i := .presTest r.h (predOf r.dst) r.a r.b }
  else
    { s2 := !r.ib, s5 := s5 && r.noD
      i := if form = 1 then .presSet r.h r.a r.b else if form = 2 then .presClr r.h r.a r.b else .presUnmk r.h r.a r.b }

/-- VSPLIT (R237). -/
def chkVsplit (r : Raw) : Chk :=
  let form := (r.md.extractLsb' 0 3).toNat
  let base := !r.md.getLsbD 3 && r.m2z && r.xz
  if form = 0 then
    { s5 := base && r.noA && r.noCi
      s6 := illIf (r.ib && r.imm18.getLsbD 17) .rsv
      s9 := predDstOk r.dst
      i := .vsplitSet r.h (predOf r.dst) r.opB }
  else if form = 1 then
    { s5 := base && r.noCi, s6 := illIf r.ib .op, s9 := predDstOk r.dst, i := .vsplitXopen r.h (predOf r.dst) r.a r.b }
  else if form = 2 then
    { s5 := base && r.noD && r.noA && (r.ib || r.noBC), s6 := illIf r.ib .op, i := .vsplitXclose r.h }
  else if form = 3 then
    { s5 := base && r.noCi, s6 := illIf r.ib .op, s9 := r.d.writable, i := .vsplitRing r.h r.d r.a r.b }
  else if form = 4 then
    { s5 := base && r.noD && (r.ib || r.noBC), s6 := illIf r.ib .op, i := .vsplitRfree r.h r.a }
  else { s5 := base && r.noD && r.noA && (r.ib || r.noBC), s6 := some .op, i := .nop r.h }

/-- TLBI (R180): legal in handler mode only. -/
def chkTlbi (r : Raw) (hm : Bool) : Chk :=
  let form := (r.md.extractLsb' 0 2).toNat
  let base := r.noD && r.md.extractLsb' 2 2 = 0 && r.noC && r.m2z && r.xz
  let s6 := illIf (!hm) .op
  if form = 0 then { s2 := !r.ib, s5 := base, s6 := s6, s10 := r.a.reg.aligned 2, i := .tlbiVa r.h r.a r.b }
  else if form = 1 then { s2 := !r.ib, s5 := base && r.noA && r.noB, s6 := s6, i := .tlbiCtx r.h }
  else if form = 2 then { s2 := !r.ib, s5 := base && r.noB, s6 := s6, i := .tlbiBuf r.h r.a }
  else { s2 := !r.ib, s5 := base && r.noA && r.noB, s6 := s6, i := .tlbiBufall r.h }

/-- MFSR and MTSR (R375): an access that R373 forbids in the present mode traps. -/
def sysAllowed (num : BitVec 12) (write hm : Bool) : Bool :=
  match sysReg? num.toNat with
  | none => false
  | some (_, rd, wr) =>
    let m := if write then wr else rd
    m = 2 || (m = 1 && hm)

/-- The S64 opcodes that are not class A (R51). -/
def s64Other (r : Raw) (hm : Bool) : Option Chk :=
  let w64 := mdW64 r
  let n := wordsOf w64
  let num := r.imm18.extractLsb' 0 12
  match r.op.toNat with
  | 0x00 => some (chkBare r (.nop r.h))
  | 0x01 => some
      { s5 := r.noD && r.noA && r.md = 0 && r.m2z && (r.ib || r.noBC), s6 := illIf (!r.ib) .op, i := .br r.h r.imm18 r.xm }
  | 0x02 => some
      { s5 := r.noA && r.md = 0 && r.m2z && (r.ib || r.noBC), s6 := illIf (!r.ib) .op
        s9 := r.d.writable && !r.d.isQPort, s10 := r.d.aligned 2, i := .call r.h r.d r.imm18 r.xm }
  | 0x03 => some
      { s2 := !r.ib, s5 := r.noBC && r.md = 0 && r.m2z, s9 := r.d.writable && !r.d.isQPort
        s10 := r.d.aligned 2 && r.a.reg.aligned 2, i := .jmpr r.h r.d r.a r.xm }
  | 0x04 => some
      { s2 := !r.ib, s5 := r.noD && r.noBC && r.md = 0 && r.m2z, s10 := r.a.reg.aligned 2, i := .ret r.h r.a r.xm }
  | 0x05 => some (chkBare r (.yield r.h))
  | 0x06 => some (chkBare r (.exit r.h))
  | 0x07 => some { s2 := !r.ib, s5 := r.noD && r.noSrc && r.md = 0 && r.m2z, i := .prio r.h r.xm }
  | 0x08 => some
      { s5 := r.noCi && r.noMod, s6 := illIf (!r.a.reg.isX) .rsv, s9 := predDstOk r.dst
        i := .tryw r.h (predOf r.dst) r.a.reg r.opB }
  | 0x09 =>
    -- DEDUCED (log entry 19): under `sp` with `ib` = 0 the code field reads as 0, which traps ILL.RSV at step 5 before ILL.OP at step 6
    let code := r.imm18.extractLsb' 0 8
    let common := r.noA && r.md.extractLsb' 1 3 = 0 && r.m2z && r.xz && (if r.ib then r.imm18.extractLsb' 8 10 = 0 else r.noBC)
    if r.h.sp then some
      { s5 := common && 0x40 ≤ code.toNat && code.toNat ≤ 0x7F, s6 := illIf (!r.ib) .op, s9 := r.d.writable, s10 := r.d.aligned n
        i := .trapSp r.h w64 r.d code }
    else some { s5 := common && r.noD, s6 := illIf (!r.ib) .op, i := .trap r.h code }
  | 0x0A => let c := chkBare r (.rett r.h); some { c with s6 := illIf (!hm) .op }
  | 0x0B => some
      { s2 := !r.ib, s5 := r.noD && r.noBC && r.md.extractLsb' 1 3 = 0 && r.m2z && r.xz && (!w64 || predField r.sa)
        i := .chk r.h (if w64 then .pred (predOf r.sa) else .reg r.a) }
  | 0x0C => some
      { s5 := r.noD && r.noA && r.noMod && (if r.ib then r.imm18.extractLsb' 16 2 = 0 else r.noBC), s6 := illIf (!r.ib) .op
        i := .brk r.h (r.imm18.extractLsb' 0 16) }
  | 0x50 =>
    let form := (r.md.extractLsb' 0 2).toNat
    let pd := predOf r.dst
    some
      { s2 := !r.ib
        s5 := predField r.sa && r.md.extractLsb' 2 2 = 0 && r.m2z && r.xz && r.noC
        s6 := illIf (r.b.reg.isQPort || (form = 3 && r.d.isQPort)) .rsv
        s9 := if form = 3 then r.d.writable else predDstOk r.dst
        s10 := (form ≠ 3 || r.d.aligned 2) && r.b.reg.aligned 2
        i := .vote r.h (if form = 0 then .all pd else if form = 1 then .any pd else if form = 2 then .eq pd else .bal r.d)
          (predOf r.sa) r.b }
  | 0x51 =>
    if r.md.getLsbD 1 then some
      { s2 := !r.ib
        s5 := r.md.extractLsb' 2 2 = 0 && r.m2z && r.xz && r.noB
        s6 := illIf (r.d.isQPort || r.a.reg.isQPort || r.c.reg.isQPort) .rsv
        s9 := r.d.writable
        s10 := r.d.aligned n && r.a.reg.aligned n
        i := .shflGive r.h w64 r.d r.a r.c }
    else some (chkXt r (fun o => .shfl o r.c) true false false 0xC)
  | 0x52 => some (chkXt r (fun o => .slup o r.c) true false false 0xE)
  | 0x53 => some (chkXt r (fun o => .sldn o r.c) true false false 0xE)
  | 0x54 => some (chkXt r (fun o => .cmpr o (predOf r.sc)) false true false 0xE)
  | 0x55 => some (chkXt r (fun o => .expd o (predOf r.sc)) false true false 0xE)
  | 0x56 => some (chkFold r (fun op => .redc r.h op r.d r.a r.b) false)
  | 0x57 => some (chkFold r (fun op => .scan r.h op (r.md2.getLsbD 0) r.d r.a r.b) true)
  | 0x58 => some (chkXt r .xmatch false false true 0xE)
  | 0x59 => some (chkXt r .unif false false false 0xE)
  | 0x60 => some (chkMem r .ld true)
  | 0x61 => some (chkMem r .st false)
  | 0x62 => some (chkVault r .ldv true)
  | 0x63 => some (chkVault r .stv false)
  | 0x64 => some (chkVault r .stx false)
  | 0x65 =>
    let o : CstrO :=
      { h := r.h, w64 := w64, data := ⟨r.d, true⟩, base := r.a, mask := r.b, cnt := r.c.reg, keep := r.md2.extractLsb' 0 3
        neg := r.md2.getLsbD 3, hint := r.xm }
    some
      { s2 := !r.ib && r.md.extractLsb' 0 3 ≠ 7
        s5 := !r.wc && !r.md.getLsbD 3 && r.md2.extractLsb' 4 6 = 0 && hintOk 0 o.hint
        s6 := illIf (r.md.extractLsb' 1 2 ≠ 2) .op
        s9 := o.cnt.writable
        s10 := o.data.reg.aligned n && o.base.reg.aligned 2 && o.mask.reg.aligned 2
        i := .cstr o }
  | 0x66 => some
      { s2 := r.ib
        s5 := r.noD && r.md.extractLsb' 1 3 = 0 && r.md2.extractLsb' 2 8 = 0 && hintOk (r.md2.extractLsb' 0 2) r.xm
        s10 := r.a.reg.aligned 2
        i := .pref r.h w64 r.a r.imm18 (r.md2.extractLsb' 0 2) r.xm }
  | 0x67 => some (chkAtom r .atom false)
  | 0x68 => some (chkAtom r .atomi true)
  | 0x69 => some (chkAtomV r)
  | 0x6A => some (chkBare r (.qend r.h))
  | 0x6B => some
      { s2 := !r.ib, s5 := r.noD && r.noSrc && r.md = 0 && r.xz && r.md2.extractLsb' 0 2 = 0 && r.md2.extractLsb' 4 6 = 0
        i := .fence r.h (Level.ofBits (r.md2.extractLsb' 2 2)) }
  | 0x6C => some
      { s2 := !r.ib, s5 := r.noD && r.noC && r.md.extractLsb' 1 3 = 0 && r.m2z && r.xz, s10 := r.a.reg.aligned 2
        i := .cflush r.h w64 r.a r.b }
  | 0x6D =>
    let all := r.md.getLsbD 2
    some
      { s2 := !r.ib, s5 := r.noD && r.noC && !r.md.getLsbD 3 && r.m2z && r.xz && (!all || (r.noA && r.noB))
        s10 := all || r.a.reg.aligned 2
        i := .iinv r.h (Reach.ofBits (r.md.extractLsb' 0 2)) (if all then .all else .range r.a r.b) }
  | 0x6E => some (chkBare r (.fetchb r.h))
  | 0x6F => some
      { s5 := r.md.extractLsb' 1 3 = 0 && (!r.ib || !w64) && r.m2z && r.xz && r.noCi
        s9 := r.d.writable && !r.d.isQPort
        s10 := r.d.aligned 2 && r.opB.alignedB n
        i := .bref r.h w64 r.d r.a r.opB }
  | 0x70 => some
      { s2 := !r.ib, s5 := r.noBC && r.noMod, s9 := r.d.writable, s10 := r.d.aligned 2 && r.a.reg.aligned 2, i := .bqry r.h r.d r.a }
  | 0x71 => some (chkPres r)
  | 0x72 => some (chkVsplit r)
  | 0x80 => some (chkBar r (fun b c => .bara r.h (.imm b c)) (fun b c => .bara r.h (.reg b c)) (.baraBuoy r.h) false)
  | 0x81 => some (chkBar r (fun b _ => .barw r.h (.imm b)) (fun b _ => .barw r.h (.reg b)) (fun _ a => .barwBuoy r.h a) true)
  | 0x82 => some (chkBar r (fun b c => .bars r.h (.imm b c)) (fun b c => .bars r.h (.reg b c)) (.barsBuoy r.h) false)
  | 0x83 => some
      { s2 := !r.ib, s5 := r.noD && r.noBC && !r.md.getLsbD 0 && !r.md.getLsbD 3 && r.m2z && r.xz
        s6 := illIf (r.md.extractLsb' 1 2 = 3) .op
        i := .barx r.h (Level.ofBits (r.md.extractLsb' 1 2)) r.a }
  | 0x84 => some
      { s2 := !r.ib, s5 := r.noBC && r.noMod, s9 := r.d.writable && !r.d.isQPort, s10 := r.d.aligned 2, i := .buoyw r.h r.d r.a }
  | 0x85 => some
      { s5 := r.noD && r.noCi && r.noMod, s6 := illIf (r.ib && r.imm18.getLsbD 17) .rsv, s10 := r.opB.alignedB 2
        i := .buoys r.h r.a r.opB }
  | 0x86 => some
      { s2 := !r.ib, s5 := r.noSrc && r.md.extractLsb' 2 2 = 0 && r.m2z && r.xz, s9 := r.d.writable && !r.d.isQPort
        s10 := r.d.aligned (wordsOf (r.md.getLsbD 1))
        i := if r.md.getLsbD 0 then .fsetSet r.h (r.md.getLsbD 1) r.d else .fsetClr r.h (r.md.getLsbD 1) r.d }
  | 0x87 => some
      { s2 := r.ib, s5 := r.noA && r.noMod
        s6 := illIf (!(r.imm18.toNat % 8 = 0 && 8 ≤ r.imm18.toNat && r.imm18.toNat ≤ 192)) .rsv
        s9 := predDstOk r.dst
        i := .regs r.h (predOf r.dst) r.imm18 }
  | 0x88 => some { s2 := !r.ib, s5 := r.noBC && r.noMod, s9 := r.d.isQPort, i := .qbind r.h r.d r.a }
  | 0x89 => some
      { s2 := !r.ib, s5 := r.noBC && r.noMod, s6 := illIf (!r.a.reg.isQPort) .rsv, s9 := r.d.writable, s10 := r.d.aligned 2
        i := .qstat r.h r.d r.a.reg }
  | 0x8A => some { s2 := !r.ib, s5 := r.noBC && r.noMod, s9 := r.d.isQPort, i := .qclose r.h r.d r.a }
  | 0xF0 => some
      { s2 := r.ib, s5 := r.noA && r.noMod && r.imm18.extractLsb' 12 6 = 0
        s6 := illIf (!sysAllowed num false hm) .op
        s9 := r.d.writable && !r.d.isQPort, s10 := r.d.aligned (sysWords num), i := .mfsr r.h r.d num }
  | 0xF1 => some
      { s2 := r.ib, s5 := r.noD && r.noMod && r.imm18.extractLsb' 12 6 = 0
        s6 := if !sysAllowed num true hm then some .op else illIf (!(r.a.reg.isX || r.a.reg.isK)) .rsv
        s10 := r.a.reg.aligned (sysWords num), i := .mtsr r.h num r.a }
  | 0xF2 => some (chkTlbi r hm)
  | 0xF3 => some
      { s5 := r.noA && r.noCi && r.md.extractLsb' 1 3 = 0 && r.m2z && r.xz, s9 := r.d.isK, s10 := r.d.aligned n && r.opB.alignedB n
        i := .kset r.h w64 r.d r.opB }
  | _ => none

/-! ## X96 (R39, R52) -/

/-- Fields that X96 has and an entry leaves unused. -/
def Raw.iz (r : Raw) : Bool := r.imm = 0

/-- MMA (R283 to R285). -/
def chkMma (r : Raw) (aty : Nat) (mk : MmaO → Instr) : Chk :=
  let scale := r.md2.extractLsb' 5 2
  let o : MmaO :=
    { h := r.h, cv := r.md, bty := r.md2.extractLsb' 0 3, scale := scale, aVault := r.md2.getLsbD 7, bVault := r.md2.getLsbD 8
      cVault := r.md2.getLsbD 9, c := r.d, a := r.a, b := r.b, sc := if scale = 0 then none else some r.c
      acc := r.imm.getLsbD 5, steps := r.imm.extractLsb' 6 5, size := r.imm.extractLsb' 0 5 }
  let bt := matB? aty o.bty
  let k := mmaK aty (bt.getD aty)
  let fa := frag? o.aVault o.a.reg (fragWords aty k)
  let fb := frag? o.bVault o.b.reg (fragWords (bt.getD aty) k)
  let fc := frag? o.cVault o.c (cWords aty)
  let regOk (x : Reg) : Bool := x.isX || x.isK
  { s5 := r.imm.extractLsb' 11 21 = 0 && (scale ≠ 0 || r.noC)
    s6 :=
      if bt.isNone || r.md2.extractLsb' 3 2 ≠ matAcc aty || (scale ≠ 0 && !(2 ≤ aty && aty ≤ 8)) ||
         (o.size ≠ 31 && !(o.aVault && o.bVault && o.cVault)) || (o.steps ≠ 0 && !(o.aVault && o.bVault)) then some .op
      else illIf (!regOk r.d || !regOk r.a.reg || !regOk r.b.reg || (scale ≠ 0 && !scaleRegOk scale r.c.reg) ||
         (!o.aVault && r.a.reg.isK) || (!o.bVault && r.b.reg.isK) || (!o.cVault && r.d.isK) ||
         optOverlap fa fb || optOverlap fa fc || optOverlap fb fc) .rsv
    s10 := r.a.reg.aligned (if o.aVault then 2 else 4) && r.b.reg.aligned (if o.bVault then 2 else 4) &&
           r.d.aligned (if o.cVault then 2 else 4) && (scale = 0 || scaleAligned scale r.c.reg)
    i := mk o }

/-- Ray opcodes (R312): the window, the destination pair, and what must stay clear of the window. -/
def rayChk (w : Reg) (srcs : List (Reg × Nat)) (dst : Option Reg) (s5 : Bool) (s6op : Bool) (i : Instr) : Chk :=
  { s5 := s5
    s6 := if s6op then some .op
          else illIf (!w.isX || srcs.any (fun s => s.1.isQPort || !clearOf w s.1 s.2) ||
            (match dst with
             | some d => d.isQPort || !clearOf w d 2
             | none => false)) .rsv
    s9 := match dst with
      | some d => d.writable
      | none => true
    s10 := windowWf w && srcs.all (fun s => s.1.aligned s.2) &&
      (match dst with
       | some d => d.aligned 2
       | none => true)
    i := i }

/-- Lantern opcodes (R330): `dw` destination registers. -/
def lnChk (r : Raw) (dw : Nat) (srcs : List (Reg × Nat)) (s5 : Bool) (i : Instr) (s6op : Bool := false) : Chk :=
  { s5 := s5
    s6 := if s6op then some .op else illIf (r.d.isQPort || srcs.any fun s => s.1.isQPort) .rsv
    s9 := r.d.writable
    s10 := r.d.aligned dw && srcs.all fun s => s.1.aligned s.2
    i := i }

/-- The targets of POST (R350). -/
def postTarget? (r : Raw) : Option PostTarget :=
  match (r.md.extractLsb' 0 3).toNat with
  | 0 => some .core
  | 1 => some .clu
  | 2 => some (.nbr (r.md2.extractLsb' 4 4) (r.md2.extractLsb' 0 4))
  | 3 => some .bay
  | 4 => some .die
  | 5 => some .dev
  | _ => none

/-- The X96 opcodes (R52). -/
def x96Chk (r : Raw) (hm : Bool) : Option Chk :=
  let w64 := mdW64 r
  let n := wordsOf w64
  match r.op.toNat with
  | 0x01 => some
      { s5 := r.noD && r.noSrc && r.md = 0 && r.md2.extractLsb' 0 5 = 0, i := .brl r.h r.imm (r.md2.extractLsb' 5 5) }
  | 0x02 => some
      { s5 := r.noSrc && r.md = 0 && r.md2.extractLsb' 0 5 = 0, s9 := r.d.writable && !r.d.isQPort, s10 := r.d.aligned 2
        i := .calll r.h r.d r.imm (r.md2.extractLsb' 5 5) }
  | 0x10 =>
    let form := r.md.extractLsb' 0 2
    some
      { s5 := r.noSrc && r.md.extractLsb' 2 2 = 0 && r.m2z, s6 := illIf (form = 3) .op, s9 := r.d.writable
        s10 := r.d.aligned (if form = 0 then 1 else 2), i := .movl r.h form r.d r.imm }
  | 0x11 => some
      { s5 := r.noBC && r.m2z, s6 := illIf (!mdScalar r) .op, s9 := r.d.writable
        s10 := r.d.aligned n && r.a.reg.aligned n, i := .iaddl r.h w64 (r.md.getLsbD 2) (r.md.getLsbD 3) r.d r.a r.imm }
  | 0x12 =>
    let c := ICond.ofBits? (r.md2.extractLsb' 0 3)
    some
      { s5 := r.noBC && !r.md.getLsbD 3 && r.md2.extractLsb' 3 7 = 0, s6 := illIf (!mdScalar r || c.isNone) .op
        s9 := predDstOk r.dst, s10 := r.a.reg.aligned n
        i := .isetpl r.h w64 (r.md.getLsbD 2) (c.getD .eq) (predOf r.dst) r.a r.imm }
  | 0x60 => some (chkMemL r .ldl true)
  | 0x61 => some (chkMemL r .stl false)
  | 0xA0 => some { s5 := r.noD && r.noBC && r.md = 0 && r.m2z, i := .xcopy r.h r.a r.imm }
  | 0xA1 =>
    let t := postTarget? r
    let nbr := r.md.extractLsb' 0 3 = 2
    some
      { s5 := !r.md.getLsbD 3 && !r.wb && r.noC && (if nbr then r.md2.extractLsb' 8 2 = 0 else r.m2z)
        s6 := if t.isNone then some .op else illIf (r.a.reg.isQPort || r.b.reg.isQPort) .rsv
        s9 := predDstOk r.dst && r.b.reg.writable
        s10 := r.a.reg.aligned 2
        i := .post r.h (t.getD .core) (predOf r.dst) r.a r.b.reg r.imm }
  | 0xA2 =>
    if w64 then some
      { s5 := r.noA && r.noC && r.md.extractLsb' 1 3 = 0 && r.m2z && r.iz, s6 := illIf (!hm) .op, s9 := r.d.writable
        i := .keyldClr r.h r.d r.b }
    else some
      { s5 := r.noC && r.md.extractLsb' 1 3 = 0 && r.m2z, s6 := illIf (!hm) .op, s9 := r.d.writable, s10 := r.a.reg.aligned 2
        i := .keyld r.h r.d r.a r.b r.imm }
  | 0xC0 => some (chkMma r 0 .mmaF64)
  | 0xC1 => some (chkMma r 1 .mmaF32)
  | 0xC2 => some (chkMma r 2 .mmaBf16)
  | 0xC3 => some (chkMma r 3 .mmaF16)
  | 0xC4 => some (chkMma r 4 .mmaE4m3)
  | 0xC5 => some (chkMma r 5 .mmaE5m2)
  | 0xC6 => some (chkMma r 6 .mmaE3m2)
  | 0xC7 => some (chkMma r 7 .mmaE2m3)
  | 0xC8 => some (chkMma r 8 .mmaE2m1)
  | 0xC9 => some (chkMma r 9 .mmaI8)
  | 0xCA => some (chkMma r 10 .mmaI4)
  | 0xCB => some
      { s5 := r.noSrc && r.md2.extractLsb' 1 9 = 0 && r.iz, s9 := r.d.writable && !r.d.isQPort
        i := .mwait r.h (r.md2.getLsbD 0) r.md r.d }
  | 0xCC => some
      { s5 := r.noBC && r.md2.extractLsb' 2 8 = 0 && r.iz, s10 := r.d.aligned 2 && r.a.reg.aligned 2
        i := .mtrn r.h (r.md2.extractLsb' 0 2) r.md r.d r.a }
  | 0xCD =>
    let ty := r.md2.extractLsb' 0 3
    some
      { s5 := r.noC && r.md2.extractLsb' 5 5 = 0 && r.iz
        s6 := illIf (4 < ty.toNat || (r.md2.getLsbD 4 && 1 < ty.toNat)) .op
        s10 := r.d.aligned 2 && r.a.reg.aligned 2
        i := .mqnt r.h ty (r.md2.getLsbD 3) (r.md2.getLsbD 4) r.md r.d r.a r.b }
  | 0xCE =>
    let acc := r.md2.extractLsb' 3 2
    some
      { s5 := r.noD && r.noBC && r.md2.extractLsb' 0 3 = 0 && r.md2.extractLsb' 5 5 = 0 && r.iz, s6 := illIf (acc = 3) .op
        s10 := r.a.reg.aligned 2, i := .mclr r.h acc r.md r.a }
  | 0xCF => some
      { s5 := r.noSrc && r.md = 0 && r.md2.extractLsb' 1 9 = 0 && r.iz, s9 := r.d.writable, s10 := r.d.aligned 2
        i := .mstat r.h (r.md2.getLsbD 0) r.d }
  | 0xE0 =>
    let c := rayChk r.d [(r.a.reg, 1)] none (r.noBC && r.md = 0 && r.md2.extractLsb' 4 6 = 0 && r.iz) false
      (.travi r.h (r.md2.extractLsb' 0 4) r.d r.a)
    some { c with s6 := match c.s6 with
                    | some x => some x
                    | none => illIf (!r.a.reg.isX) .rsv }
  | 0xE1 => some (rayChk r.a.reg [(r.b.reg, 2), (r.c.reg, 1)] (some r.d) (r.md = 0 && r.m2z && r.imm.extractLsb' 16 16 = 0)
      (r.imm.extractLsb' 0 16 = 0) (.trav r.h r.d r.a.reg r.b r.c (r.imm.extractLsb' 0 16)))
  | 0xE2 =>
    if w64 then some (rayChk r.a.reg [(r.b.reg, 1), (r.c.reg, 1)] none (r.noD && r.md.extractLsb' 1 3 = 0 && r.m2z && r.iz) false
      (.thitAcc r.h r.a.reg r.b r.c))
    else some (rayChk r.a.reg [] none (r.noD && r.noBC && r.md.extractLsb' 1 3 = 0 && r.m2z && r.iz) false
      (.thitRej r.h r.a.reg))
  | 0xE3 => some (rayChk r.a.reg [(r.b.reg, 2)] (some r.d) (r.noC && r.md = 0 && r.md2.extractLsb' 2 8 = 0) false
      (.tri r.h (r.md2.extractLsb' 0 2) r.d r.a.reg r.b r.imm))
  | 0xE4 => some (rayChk r.a.reg [(r.b.reg, 2)] (some r.d) (r.noC && r.md = 0 && r.md2.extractLsb' 3 7 = 0) false
      (.tbox r.h (r.md2.extractLsb' 0 3) r.d r.a.reg r.b r.imm))
  | 0xE5 => some (rayChk r.a.reg [(r.b.reg, 2)] none (r.noD && r.noC && r.md = 0 && r.m2z) false
      (.tstk r.h r.a.reg r.b r.imm))
  | 0xE8 => some (lnChk r 4 [(r.a.reg, 1), (r.b.reg, 1), (r.c.reg, 1)] (r.md.extractLsb' 1 3 = 0 && r.m2z && r.iz)
      (if w64 then .lnlkW r.h r.d r.a r.b r.c else .lnlk r.h r.d r.a r.b r.c))
  | 0xE9 => some (lnChk r 1 [(r.a.reg, 1), (r.b.reg, 1), (r.c.reg, 1)] (r.md = 0 && r.m2z && r.iz)
      (.lnfil r.h r.d r.a r.b r.c))
  | 0xEA =>
    let form := (r.md.extractLsb' 0 2).toNat
    let s5 := r.md.extractLsb' 2 2 = 0 && r.m2z && r.iz
    if form = 0 then some (lnChk r 1 [(r.a.reg, 1), (r.b.reg, 1), (r.c.reg, 1)] s5 (.lninvKey r.h r.d r.a r.b r.c))
    else some (lnChk r 1 [(r.a.reg, 1), (r.c.reg, 1)] (s5 && r.noB)
      (if form = 1 then .lninvObj r.h r.d r.a r.c else .lninvRev r.h r.d r.a r.c) (form = 3))
  | 0xEB => some (lnChk r 2 [(r.a.reg, 1), (r.b.reg, 1)] (r.noC && r.md = 0 && r.m2z && r.imm.extractLsb' 8 24 = 0)
      (.lnage r.h r.d r.a r.b (r.imm.extractLsb' 0 8)))
  | 0xEC =>
    if w64 then some (lnChk r 2 [(r.a.reg, 2), (r.c.reg, 1)] (r.md.extractLsb' 1 3 = 0 && r.m2z && r.iz && r.noB)
      (.smpgGrid r.h r.d r.a r.c))
    else some (lnChk r 2 [(r.a.reg, 2), (r.b.reg, 1), (r.c.reg, 1)] (r.md.extractLsb' 1 3 = 0 && r.m2z && r.iz)
      (.smpg r.h r.d r.a r.b r.c))
  | _ => none

/-! ## Words -/

/-- The head (R26). -/
def headOf (w : BitVec 7) : Head := { sp := w.getLsbD 6, pn := w.getLsbD 5, pg := w.extractLsb' 2 3 }

/-- R27. -/
def rawS64 (w : BitVec 64) : Raw :=
  { h := headOf (w.extractLsb' 0 7), op := w.extractLsb' 7 8, md := w.extractLsb' 15 4, ib := w.getLsbD 19
    dst := w.extractLsb' 20 8, sa := w.extractLsb' 28 8, wa := w.getLsbD 36, sb := w.extractLsb' 37 8, wb := w.getLsbD 45
    sc := w.extractLsb' 46 8, wc := w.getLsbD 54, md2 := (w.extractLsb' 55 4).setWidth 10, xm := w.extractLsb' 59 5 }

/-- R39. -/
def rawX96 (w : BitVec 96) : Raw :=
  { h := headOf (w.extractLsb' 0 7), op := w.extractLsb' 7 8, md := w.extractLsb' 15 4
    dst := w.extractLsb' 19 8, sa := w.extractLsb' 27 8, wa := w.getLsbD 35, sb := w.extractLsb' 36 8, wb := w.getLsbD 44
    sc := w.extractLsb' 45 8, wc := w.getLsbD 53, md2 := w.extractLsb' 54 10, imm := w.extractLsb' 64 32 }

/-- The result of an opcode lookup: an unassigned opcode traps at step 2. -/
def runChk (c : Option Chk) : Except IllAt Instr :=
  match c with
  | none => .error ⟨.op, 2⟩
  | some c => c.result

def decodeS64 (hm : Bool) (w : BitVec 64) : Except IllAt Instr :=
  let r := rawS64 w
  if !r.h.wf then .error ⟨.rsv, 1⟩
  else match classA r with
    | some c => c.result
    | none => runChk (s64Other r hm)

def decodeX96 (hm : Bool) (w : BitVec 96) : Except IllAt Instr :=
  let r := rawX96 w
  if !r.h.wf then .error ⟨.rsv, 1⟩ else runChk (x96Chk r hm)

/-- A P64 slot (R32); `none` for an unassigned `opp`. -/
def rawSlot (w : BitVec 28) : Option PairSlot :=
  (PairOp.ofBits? (w.extractLsb' 0 6)).map fun op =>
    { op := op, mdp := w.extractLsb' 6 3, d := Reg.ofBits (w.extractLsb' 9 8), wd := w.getLsbD 27
      s := if w.getLsbD 26 then .imm (w.extractLsb' 17 8) else .reg (mkSrc (w.extractLsb' 17 8) (w.getLsbD 25)) }

/-- Step 5 for a slot: `mdp`, `wd` of a unary slot, `ws` under `is` = 1 (R32, R33). -/
def slotRsvOk (p : PairSlot) (w : BitVec 28) : Bool :=
  (p.mdp &&& p.op.mdpRsv) = 0 && !(p.op.unary && p.wd) && !(w.getLsbD 26 && w.getLsbD 25)

/-- Step 7 for a slot by itself (R35). -/
def slotRegsOk (p : PairSlot) : Bool :=
  p.d.isX && (match p.s with
    | .reg s => !s.reg.isQPort
    | .imm _ => true)

def decodeP64 (w : BitVec 64) : Except IllAt Instr :=
  let h := headOf (w.extractLsb' 0 7)
  if w.getLsbD 63 || !h.wf then .error ⟨.rsv, 1⟩
  else
    match rawSlot (w.extractLsb' 7 28), rawSlot (w.extractLsb' 35 28) with
    | some p, some q =>
      if !(slotRsvOk p (w.extractLsb' 7 28) && slotRsvOk q (w.extractLsb' 35 28)) then .error ⟨.rsv, 5⟩
      else if !(slotRegsOk p && slotRegsOk q && pairRules p q) then .error ⟨.pair, 7⟩
      else .ok (.p64Pair h p q)
    | _, _ => .error ⟨.pair, 3⟩

/-- A W96 slot (R36). -/
def wideSlot (w : BitVec 44) : WideSlot :=
  { op := w.extractLsb' 0 8, md := w.extractLsb' 8 4, dst := w.extractLsb' 12 8, sa := w.extractLsb' 20 8
    sb := w.extractLsb' 28 8, sc := w.extractLsb' 36 8 }

/-- Step 2 for a slot: the `ib` = 0 that every slot has is one the entry allows (R136). -/
def slotIbOk (c : Option Chk) : Bool :=
  match c with
  | some c => c.s2
  | none => true

def decodeW96 (w : BitVec 96) : Except IllAt Instr :=
  let h := headOf (w.extractLsb' 0 7)
  let a := wideSlot (w.extractLsb' 7 44)
  let b := wideSlot (w.extractLsb' 51 44)
  if w.getLsbD 95 || !h.wf then .error ⟨.rsv, 1⟩
  else if !(slotIbOk (a.chk h) && slotIbOk (b.chk h)) then .error ⟨.op, 2⟩
  else
    match a.chk h, b.chk h with
    | some ca, some cb =>
      match ca.i.shape, cb.i.shape with
      | some x, some y =>
        if x.sfu then .error ⟨.wide, 4⟩
        else if !(ca.s5 && cb.s5) then .error ⟨.rsv, 5⟩
        else
          match ca.s6, cb.s6 with
          | some z, _ => .error ⟨z, 6⟩
          | none, some z => .error ⟨z, 6⟩
          | none, none =>
            if !wideRules x y then .error ⟨.wide, 8⟩
            else if !(ca.s9 && cb.s9) then .error ⟨.dst, 9⟩
            else if !(ca.s10 && cb.s10) then .error ⟨.align, 10⟩
            else .ok (.w96Pair h a b)
      | _, _ => .error ⟨.wide, 4⟩
    | _, _ => .error ⟨.wide, 4⟩

/-- Parcels of an instruction, by its first parcel (R23). -/
def parcels (p : Word) : Nat := if p.getLsbD 1 then 3 else 2

/-- The instruction whose parcels are the low bits of `w`, in a thread that is or is not in handler mode (R53). -/
def decodeWord (hm : Bool) (w : BitVec 96) : Except IllAt Instr :=
  match (w.extractLsb' 0 2).toNat with
  | 0 => decodeS64 hm (w.extractLsb' 0 64)
  | 1 => decodeP64 (w.extractLsb' 0 64)
  | 2 => decodeW96 w
  | _ => decodeX96 hm w

/-- Why bytes are no instruction. -/
inductive DecodeError where
  | short
  | illegal (i : IllAt)
deriving DecidableEq, Repr

/-- The number that bytes spell, low byte first. -/
def bytesNat : List Byte → Nat
  | [] => 0
  | b :: bs => b.toNat + 256 * bytesNat bs

/-- Decodes the first instruction of a sequence of bytes, and answers the bytes after it. -/
def decode (hm : Bool) (bs : List Byte) : Except DecodeError (Instr × List Byte) :=
  if bs.length < 4 then .error .short
  else
    let n := 4 * parcels (BitVec.ofNat 32 (bytesNat (bs.take 4)))
    if bs.length < n then .error .short
    else match decodeWord hm (BitVec.ofNat 96 (bytesNat (bs.take n))) with
      | .error e => .error (.illegal e)
      | .ok i => .ok (i, bs.drop n)

/-! ## Encoding (R26, R27, R31, R36, R39) -/

def headBits (h : Head) (fmt : BitVec 2) : BitVec 7 :=
  BitVec.ofBool h.sp ++ (BitVec.ofBool h.pn ++ (h.pg ++ fmt))

/-- R27, from the high bit down. -/
def packS64 (r : Raw) : BitVec 64 :=
  r.xm ++ (r.md2.extractLsb' 0 4 ++ (BitVec.ofBool r.wc ++ (r.sc ++ (BitVec.ofBool r.wb ++ (r.sb ++ (BitVec.ofBool r.wa ++
    (r.sa ++ (r.dst ++ (BitVec.ofBool r.ib ++ (r.md ++ (r.op ++ headBits r.h 0)))))))))))

/-- R39, from the high bit down. -/
def packX96 (r : Raw) : BitVec 96 :=
  r.imm ++ (r.md2 ++ (BitVec.ofBool r.wc ++ (r.sc ++ (BitVec.ofBool r.wb ++ (r.sb ++ (BitVec.ofBool r.wa ++ (r.sa ++
    (r.dst ++ (r.md ++ (r.op ++ headBits r.h 3))))))))))

/-- R32, from the high bit down. -/
def packSlot (p : PairSlot) : BitVec 28 :=
  let (is, ws, s) : Bool × Bool × BitVec 8 := match p.s with
    | .reg s => (false, s.wait, s.reg.bits)
    | .imm v => (true, false, v)
  BitVec.ofBool p.wd ++ (BitVec.ofBool is ++ (BitVec.ofBool ws ++ (s ++ (p.d.bits ++ (p.mdp ++ p.op.bits)))))

def packP64 (h : Head) (p q : PairSlot) : BitVec 64 := 0#1 ++ (packSlot q ++ (packSlot p ++ headBits h 1))

def packWide (s : WideSlot) : BitVec 44 := s.sc ++ (s.sb ++ (s.sa ++ (s.dst ++ (s.md ++ s.op))))

def packW96 (h : Head) (a b : WideSlot) : BitVec 96 := 0#1 ++ (packWide b ++ (packWide a ++ headBits h 2))

/-- A wait bit that has no meaning is written 1 (R29). -/
def free (r : Reg) : Src := ⟨r, true⟩

def mdMem (s : Size) : BitVec 4 := s.bits.setWidth 4

def encMem (op : BitVec 8) (o : MemO) : Raw :=
  ({ h := o.h, op := op, md := mdMem o.size, dst := o.reg.bits, md2 := o.policy.setWidth 10, xm := o.hint : Raw }.putA o.base).putImm o.disp

def encMemL (op : BitVec 8) (o : MemL) : Raw :=
  { h := o.h, op := op, md := mdMem o.size, dst := o.reg.bits, md2 := (o.hint ++ (0#3 ++ o.policy)).setWidth 10, imm := o.disp : Raw }.putA o.base

def encVault (op : BitVec 8) (o : VaultO) : Raw :=
  ({ h := o.h, op := op, md := mdMem o.size, dst := o.reg.bits : Raw }.putA o.a).putImm o.disp

def mdAtom (w64 : Bool) : BitVec 4 := if w64 then 5 else 4

def encAtom (op : BitVec 8) (o : AtomO) : Raw :=
  ({ h := o.h, op := op, md := mdAtom o.w64, dst := o.dst.bits, sc := o.op.bits.setWidth 8
     md2 := (o.scope.bits ++ o.policy).setWidth 10, xm := o.hint : Raw }.putA o.base).putB o.v

def encXt (op : BitVec 8) (o : XtO) : Raw :=
  ({ h := o.h, op := op, md := w64Bit o.w64, dst := o.dst.bits : Raw }.putA o.a).putB o.mask

def encBar (op : BitVec 8) (h : Head) (b : BarArg) : Raw :=
  match b with
  | .imm n c => { h := h, op := op : Raw }.putImm (c ++ n)
  | .reg n c => ({ h := h, op := op : Raw }.putA n).putB c

def encBuoyBar (op : BitVec 8) (h : Head) (lvl : Level) (buoy : Bool) (a : Src) : Raw :=
  { h := h, op := op, md := (lvl.bits ++ BitVec.ofBool buoy).setWidth 4 : Raw }.putA a

/-- The raw fields of an S64 instruction outside class A. -/
def encS64 : Instr → Option Raw
  | .nop h => some { h := h, op := 0x00 }
  | .br h imm p => some ({ h := h, op := 0x01, xm := p : Raw }.putImm imm)
  | .call h link imm p => some ({ h := h, op := 0x02, dst := link.bits, xm := p : Raw }.putImm imm)
  | .jmpr h link t p => some ({ h := h, op := 0x03, dst := link.bits, xm := p : Raw }.putA t)
  | .ret h t p => some ({ h := h, op := 0x04, xm := p : Raw }.putA t)
  | .yield h => some { h := h, op := 0x05 }
  | .exit h => some { h := h, op := 0x06 }
  | .prio h p => some { h := h, op := 0x07, xm := p }
  | .tryw h pd w b => some (({ h := h, op := 0x08, dst := predBits pd : Raw }.putA (free w)).putOpB b)
  | .trap h c => some ({ h := h, op := 0x09 : Raw }.putImm (c.setWidth 18))
  | .trapSp h w64 d c => some ({ h := h, op := 0x09, md := w64Bit w64, dst := d.bits : Raw }.putImm (c.setWidth 18))
  | .rett h => some { h := h, op := 0x0A }
  | .chk h s =>
    match s with
    | .reg s => some ({ h := h, op := 0x0B : Raw }.putA s)
    | .pred p => some { h := h, op := 0x0B, md := 1, sa := predBits p, wa := true }
  | .brk h n => some ({ h := h, op := 0x0C : Raw }.putImm (n.setWidth 18))
  | .vote h f p m =>
    let r (md : BitVec 4) (d : BitVec 8) : Raw := { h := h, op := 0x50, md := md, dst := d, sa := predBits p, wa := true : Raw }.putB m
    match f with
    | .all pd => some (r 0 (predBits pd))
    | .any pd => some (r 1 (predBits pd))
    | .eq pd => some (r 2 (predBits pd))
    | .bal d => some (r 3 d.bits)
  | .shfl o i => some ((encXt 0x51 o).putC i)
  | .shflGive h w64 d a t =>
    some (({ h := h, op := 0x51, md := (1#1 ++ BitVec.ofBool w64).setWidth 4, dst := d.bits : Raw }.putA a).putC t)
  | .slup o d => some ((encXt 0x52 o).putC d)
  | .sldn o d => some ((encXt 0x53 o).putC d)
  | .cmpr o p => some { encXt 0x54 o with sc := predBits p, wc := true }
  | .expd o p => some { encXt 0x55 o with sc := predBits p, wc := true }
  | .redc h op d a m => some (({ h := h, op := 0x56, md := op.bits, dst := d.bits : Raw }.putA a).putB m)
  | .scan h op e d a m =>
    some (({ h := h, op := 0x57, md := op.bits, md2 := (BitVec.ofBool e).setWidth 10, dst := d.bits : Raw }.putA a).putB m)
  | .xmatch o => some (encXt 0x58 o)
  | .unif o => some (encXt 0x59 o)
  | .ld o => some (encMem 0x60 o)
  | .st o => some (encMem 0x61 o)
  | .ldv o => some (encVault 0x62 o)
  | .stv o => some (encVault 0x63 o)
  | .stx o => some (encVault 0x64 o)
  | .cstr o =>
    some (({ h := o.h, op := 0x65, md := mdAtom o.w64, dst := o.data.reg.bits, sc := o.cnt.bits
             md2 := (BitVec.ofBool o.neg ++ o.keep).setWidth 10, xm := o.hint : Raw }.putA o.base).putB o.mask)
  | .pref h x b d pol hint =>
    some (({ h := h, op := 0x66, md := w64Bit x, md2 := pol.setWidth 10, xm := hint : Raw }.putA b).putImm d)
  | .atom o => some (encAtom 0x67 o)
  | .atomi o => some (encAtom 0x68 o)
  | .atomv o =>
    some (({ h := o.h, op := 0x69, md := mdAtom o.w64, dst := o.dst.bits, sc := o.op.bits.setWidth 8 : Raw }.putA o.a).putB o.v)
  | .qend h => some { h := h, op := 0x6A }
  | .fence h l => some { h := h, op := 0x6B, md2 := (l.bits ++ 0#2).setWidth 10 }
  | .cflush h inv b l => some (({ h := h, op := 0x6C, md := w64Bit inv : Raw }.putA b).putB l)
  | .iinv h r a =>
    match a with
    | .range b l => some (({ h := h, op := 0x6D, md := r.bits.setWidth 4 : Raw }.putA b).putB l)
    | .all => some { h := h, op := 0x6D, md := (1#1 ++ r.bits).setWidth 4 }
  | .fetchb h => some { h := h, op := 0x6E }
  | .bref h w64 d i o => some (({ h := h, op := 0x6F, md := w64Bit w64, dst := d.bits : Raw }.putA i).putOpB o)
  | .bqry h d b => some ({ h := h, op := 0x70, dst := d.bits : Raw }.putA b)
  | .presTest h pd a l => some (({ h := h, op := 0x71, dst := predBits pd : Raw }.putA a).putB l)
  | .presSet h a l => some (({ h := h, op := 0x71, md := 1 : Raw }.putA a).putB l)
  | .presClr h a l => some (({ h := h, op := 0x71, md := 2 : Raw }.putA a).putB l)
  | .presUnmk h a l => some (({ h := h, op := 0x71, md := 3 : Raw }.putA a).putB l)
  | .vsplitSet h pd n => some ({ h := h, op := 0x72, dst := predBits pd : Raw }.putOpB n)
  | .vsplitXopen h pd o l => some (({ h := h, op := 0x72, md := 1, dst := predBits pd : Raw }.putA o).putB l)
  | .vsplitXclose h => some { h := h, op := 0x72, md := 2 }
  | .vsplitRing h d b c => some (({ h := h, op := 0x72, md := 3, dst := d.bits : Raw }.putA b).putB c)
  | .vsplitRfree h n => some ({ h := h, op := 0x72, md := 4 : Raw }.putA n)
  | .bara h b => some (encBar 0x80 h b)
  | .barw h b =>
    match b with
    | .imm n => some ({ h := h, op := 0x81 : Raw }.putImm (n.setWidth 18))
    | .reg n => some ({ h := h, op := 0x81 : Raw }.putA n)
  | .bars h b => some (encBar 0x82 h b)
  | .baraBuoy h l a => some (encBuoyBar 0x80 h l true a)
  | .barwBuoy h a => some (encBuoyBar 0x81 h .cluster true a)
  | .barsBuoy h l a => some (encBuoyBar 0x82 h l true a)
  | .barx h l a => some (encBuoyBar 0x83 h l false a)
  | .buoyw h d a => some ({ h := h, op := 0x84, dst := d.bits : Raw }.putA a)
  | .buoys h a v => some (({ h := h, op := 0x85 : Raw }.putA a).putOpB v)
  | .fsetSet h w64 d => some { h := h, op := 0x86, md := (BitVec.ofBool w64 ++ 1#1).setWidth 4, dst := d.bits }
  | .fsetClr h w64 d => some { h := h, op := 0x86, md := (BitVec.ofBool w64 ++ 0#1).setWidth 4, dst := d.bits }
  | .regs h pd n => some ({ h := h, op := 0x87, dst := predBits pd : Raw }.putImm n)
  | .qbind h q a => some ({ h := h, op := 0x88, dst := q.bits : Raw }.putA a)
  | .qstat h d q => some ({ h := h, op := 0x89, dst := d.bits : Raw }.putA (free q))
  | .qclose h q a => some ({ h := h, op := 0x8A, dst := q.bits : Raw }.putA a)
  | .mfsr h d n => some ({ h := h, op := 0xF0, dst := d.bits : Raw }.putImm (n.setWidth 18))
  | .mtsr h n a => some (({ h := h, op := 0xF1 : Raw }.putA a).putImm (n.setWidth 18))
  | .tlbiVa h b l => some (({ h := h, op := 0xF2 : Raw }.putA b).putB l)
  | .tlbiCtx h => some { h := h, op := 0xF2, md := 1 }
  | .tlbiBuf h i => some ({ h := h, op := 0xF2, md := 2 : Raw }.putA i)
  | .tlbiBufall h => some { h := h, op := 0xF2, md := 3 }
  | .kset h w64 d v => some ({ h := h, op := 0xF3, md := w64Bit w64, dst := d.bits : Raw }.putOpB v)
  | _ => none

def encMma (aty : Nat) (o : MmaO) : Raw :=
  let r := ({ h := o.h, op := BitVec.ofNat 8 (0xC0 + aty), md := o.cv, dst := o.c.bits
              md2 := BitVec.ofBool o.cVault ++ (BitVec.ofBool o.bVault ++ (BitVec.ofBool o.aVault ++ (o.scale ++ (matAcc aty ++ o.bty))))
              imm := (o.steps ++ (BitVec.ofBool o.acc ++ o.size)).setWidth 32 : Raw }.putA o.a).putB o.b
  match o.sc with
  | some s => r.putC s
  | none => r

def encPost (h : Head) (t : PostTarget) (pd : BitVec 3) (b : Src) (f : Reg) (d : BitVec 32) : Raw :=
  let (md, md2) : BitVec 4 × BitVec 10 := match t with
    | .core => (0, 0)
    | .clu => (1, 0)
    | .nbr dx dy => (2, (dx ++ dy).setWidth 10)
    | .bay => (3, 0)
    | .die => (4, 0)
    | .dev => (5, 0)
  { h := h, op := 0xA1, md := md, md2 := md2, dst := predBits pd, sb := f.bits, imm := d : Raw }.putA b

/-- Three Lantern sources in their fields. -/
def encLn (op : BitVec 8) (h : Head) (md : BitVec 4) (d : Reg) (o u k : Src) : Raw :=
  (({ h := h, op := op, md := md, dst := d.bits : Raw }.putA o).putB u).putC k

/-- The raw fields of an X96 instruction. -/
def encX96 : Instr → Option Raw
  | .brl h imm p => some { h := h, op := 0x01, md2 := p ++ 0#5, imm := imm }
  | .calll h link imm p => some { h := h, op := 0x02, dst := link.bits, md2 := p ++ 0#5, imm := imm }
  | .movl h f d imm => some { h := h, op := 0x10, md := f.setWidth 4, dst := d.bits, imm := imm }
  | .iaddl h w64 sgn sat d a imm =>
    some ({ h := h, op := 0x11, md := mdInt (if w64 then .w64 else .w32) sgn sat, dst := d.bits, imm := imm : Raw }.putA a)
  | .isetpl h w64 sgn c pd a imm =>
    some ({ h := h, op := 0x12, md := mdInt (if w64 then .w64 else .w32) sgn false, md2 := c.bits.setWidth 10, dst := predBits pd
            imm := imm : Raw }.putA a)
  | .ldl o => some (encMemL 0x60 o)
  | .stl o => some (encMemL 0x61 o)
  | .xcopy h a d => some ({ h := h, op := 0xA0, imm := d : Raw }.putA a)
  | .post h t pd b f d => some (encPost h t pd b f d)
  | .keyld h d b s disp => some (({ h := h, op := 0xA2, dst := d.bits, imm := disp : Raw }.putA b).putB s)
  | .keyldClr h d s => some ({ h := h, op := 0xA2, md := 1, dst := d.bits : Raw }.putB s)
  | .mmaF64 o => some (encMma 0 o)
  | .mmaF32 o => some (encMma 1 o)
  | .mmaBf16 o => some (encMma 2 o)
  | .mmaF16 o => some (encMma 3 o)
  | .mmaE4m3 o => some (encMma 4 o)
  | .mmaE5m2 o => some (encMma 5 o)
  | .mmaE3m2 o => some (encMma 6 o)
  | .mmaE2m3 o => some (encMma 7 o)
  | .mmaE2m1 o => some (encMma 8 o)
  | .mmaI8 o => some (encMma 9 o)
  | .mmaI4 o => some (encMma 10 o)
  | .mwait h clr cv d => some { h := h, op := 0xCB, md := cv, md2 := (BitVec.ofBool clr).setWidth 10, dst := d.bits }
  | .mtrn h w cv d a => some ({ h := h, op := 0xCC, md := cv, md2 := w.setWidth 10, dst := d.bits : Raw }.putA a)
  | .mqnt h ty b32 ns cv d a s =>
    some (({ h := h, op := 0xCD, md := cv, md2 := (BitVec.ofBool ns ++ (BitVec.ofBool b32 ++ ty)).setWidth 10, dst := d.bits : Raw }.putA a).putB s)
  | .mclr h acc cv a => some ({ h := h, op := 0xCE, md := cv, md2 := (acc ++ 0#3).setWidth 10 : Raw }.putA a)
  | .mstat h clr d => some { h := h, op := 0xCF, md2 := (BitVec.ofBool clr).setWidth 10, dst := d.bits }
  | .travi h f w a => some ({ h := h, op := 0xE0, md2 := f.setWidth 10, dst := w.bits : Raw }.putA a)
  | .trav h d w b i n => some ((({ h := h, op := 0xE1, dst := d.bits, imm := n.setWidth 32 : Raw }.putA (free w)).putB b).putC i)
  | .thitAcc h w b i => some ((({ h := h, op := 0xE2, md := 1 : Raw }.putA (free w)).putB b).putC i)
  | .thitRej h w => some ({ h := h, op := 0xE2 : Raw }.putA (free w))
  | .tri h c d w b disp => some (({ h := h, op := 0xE3, md2 := c.setWidth 10, dst := d.bits, imm := disp : Raw }.putA (free w)).putB b)
  | .tbox h s d w b disp => some (({ h := h, op := 0xE4, md2 := s.setWidth 10, dst := d.bits, imm := disp : Raw }.putA (free w)).putB b)
  | .tstk h w b disp => some (({ h := h, op := 0xE5, imm := disp : Raw }.putA (free w)).putB b)
  | .lnlk h d o u k => some (encLn 0xE8 h 0 d o u k)
  | .lnlkW h d o u k => some (encLn 0xE8 h 1 d o u k)
  | .lnfil h d o u k => some (encLn 0xE9 h 0 d o u k)
  | .lninvKey h d o u k => some (encLn 0xEA h 0 d o u k)
  | .lninvObj h d o k => some (({ h := h, op := 0xEA, md := 1, dst := d.bits : Raw }.putA o).putC k)
  | .lninvRev h d o k => some (({ h := h, op := 0xEA, md := 2, dst := d.bits : Raw }.putA o).putC k)
  | .lnage h d k t thr => some (({ h := h, op := 0xEB, dst := d.bits, imm := thr.setWidth 32 : Raw }.putA k).putB t)
  | .smpg h d i s p => some (encLn 0xEC h 0 d i s p)
  | .smpgGrid h d i p => some (({ h := h, op := 0xEC, md := 1, dst := d.bits : Raw }.putA i).putC p)
  | _ => none

/-- The bits of an instruction and its parcel count; none for a step of the device and for the fused sequence, which is
four instructions. -/
def encodeBits? (i : Instr) : Option (BitVec 96 × Nat) :=
  match i with
  | .p64Pair h p q => some ((packP64 h p q).setWidth 96, 2)
  | .w96Pair h a b => some (packW96 h a b, 3)
  | i =>
    match encClassA i with
    | some r => some ((packS64 r).setWidth 96, 2)
    | none =>
      match encS64 i with
      | some r => some ((packS64 r).setWidth 96, 2)
      | none => (encX96 i).map fun r => (packX96 r, 3)

/-- The parcels of an instruction, in memory order (R23). -/
def encode (i : Instr) : List Word :=
  match encodeBits? i with
  | none => []
  | some (w, n) => (List.range n).map fun k => w.extractLsb' (32 * k) 32

/-- The bytes of parcels, each low byte first (R23). -/
def parcelBytes (ws : List Word) : List Byte :=
  ws.flatMap fun w => [w.extractLsb' 0 8, w.extractLsb' 8 8, w.extractLsb' 16 8, w.extractLsb' 24 8]

/-- The bytes that hold a number in `n` bytes, low byte first. -/
def natBytes : Nat → Nat → List Byte
  | 0, _ => []
  | n + 1, v => BitVec.ofNat 8 v :: natBytes n (v / 256)

/-- The instruction the decoder reads from an instruction whose bits are `w`, the bits above `nbits` zero; an instruction
that only handler mode may run is read as such. -/
def decodeTableWord (nbits w : Nat) : Option Instr :=
  let bs := natBytes 12 (w % 2 ^ nbits)
  match decode false bs with
  | .ok (i, _) => some i
  | .error _ =>
    match decode true bs with
    | .ok (i, _) => some i
    | .error _ => none

end Sys2Proof
end

