-- ==== Sys2Proof/Machine/Fetch.lean ====
section
/-! DEFINITION. Fetch.lean: instruction fetch, parcel by parcel, through the buffer checks with right X and the core's
instruction cache (R23, R24, R172, R173), and the shape that the core fuses (R153, R154). -/

namespace Sys2Proof.Machine

open Sys2Proof

/-- The 64 bytes of a line as a core's instruction cache fills them from L2. -/
def fetchLine (s : State) (core line : Nat) : List Byte := (List.range 64).map fun i => s.fillByte core (64 * line + i)

/-- Lines of an instruction cache of 128 KiB (R12). -/
def icacheLines : Nat := 2048

/-- Reads a parcel at a physical address through the instruction cache (R12, R172). A fill from another device that the fabric fails
faults the fetch with the failure's code (log entry 92). -/
def icacheWord (s : State) (core cx va pa : Nat) (masks : List Nat) : State × Except Miss Word :=
  let u := s.coreUnit core
  let pick (bs : List Byte) : Word := BitVec.ofNat 32 (leNat ((bs.drop (pa % 64)).take 4))
  match u.icache.find? fun l => l.1 = (cx, va / 64, pa / 64) with
  | some l => (s, .ok (pick l.2))
  | none =>
    match remoteFails s pa false with
    | some k => (s, .error (.fault k))
    | none =>
      let bs := fetchLine s core (pa / 64)
      let s1 := touchLine s cx masks false false (pa / 64)
      (s1.setCore core { u with icache := lastOf icacheLines (u.icache ++ [((cx, va / 64, pa / 64), bs)]) }, .ok (pick bs))

/-- Fetches the parcel at a reference: what the thread had fetched ahead, else a checked access (R24, R173). -/
def fetchParcel (s : State) (e : Env) (pc : Ref) : State × Except Miss Word :=
  match e.t.fetched.find? fun p => p.1 = (refWord pc).toNat with
  | some p => (s, .ok p.2)
  | none =>
    match checkRef s e.cl e.cx pc.index.toNat pc.offset.toNat 4 4 kindFetch with
    | (s1, .error m) => (s1, .error m)
    | (s1, .ok hit) => icacheWord s1 e.g.core e.cx hit.va (hit.pas.headD 0) hit.masks

/-- Fetches parcels one after another: the words, or the miss with the displacement it came at. -/
def fetchParcels (e : Env) (pc : Ref) : Nat → Nat → State → State × Except (Miss × Nat) (List Word)
  | 0, _, s => (s, .ok [])
  | n + 1, k, s =>
    if 2 ^ 40 ≤ pc.offset.toNat + 4 * k then (s, .error (.fault 0x03, 4 * k))
    else
      match fetchParcel s e (pcAdd pc (4 * k)) with
      | (s1, .error m) => (s1, .error (m, 4 * k))
      | (s1, .ok w) =>
        match fetchParcels e pc n (k + 1) s1 with
        | (s2, .error m) => (s2, .error m)
        | (s2, .ok ws) => (s2, .ok (w :: ws))

/-- Words as one number, the first lowest. -/
def wordsNat : List Word → Nat
  | [] => 0
  | w :: ws => w.toNat + 2 ^ 32 * wordsNat ws

/-- Fetches the instruction at the program counter: its first parcel, then the rest of its length (R23). -/
def fetchInstr (s : State) (e : Env) (pc : Ref) : State × Except (Miss × Nat) (BitVec 96) :=
  match fetchParcels e pc 1 0 s with
  | (s1, .error m) => (s1, .error m)
  | (s1, .ok ws) =>
    match fetchParcels e pc (parcels (ws.headD 0) - 1) 1 s1 with
    | (s2, .error m) => (s2, .error m)
    | (s2, .ok more) => (s2, .ok (BitVec.ofNat 96 (wordsNat (ws ++ more))))

/-- What a thread does with a fetch that misses: a trap at the instruction, or a park as of a non-speculative load (R24,
R367). -/
def fetchMiss (s : State) (e : Env) (m : Miss × Nat) : Out := missOut s e e.t.pc (m.2 : Int) kindFetch 0 m.1

/-- The instruction at an offset from the program counter, if it can be fetched and decodes. -/
def peek (s : State) (e : Env) (disp : Nat) : State × Option Instr :=
  match fetchInstr s e (pcAdd e.t.pc disp) with
  | (s1, .ok w) => (s1, (decodeWord e.t.handler w).toOption)
  | (s1, .error _) => (s1, none)

/-- A source naming a register. -/
def srcIs (s : Src) (r : Reg) : Bool := s.reg = r

/-- A B operand naming a register. -/
def opBIs (b : OpB) (r : Reg) : Bool :=
  match b with
  | .reg s => s.reg = r
  | .imm _ => false

/-- The fused form of four instructions that stand in R153's shape. -/
def fusedOf (i1 i2 i3 i4 : Instr) : Option Instr :=
  match i1, i2, i3, i4 with
  | .fmax m, .fexpn e, .fexpn c, .ffma f =>
    let n := m.dst
    let rm := m.a.reg
    let rv := match m.b with
      | .reg b => b.reg
      | .imm _ => .s .zr
    let regs := [rm, rv, n, e.dst, c.dst, f.dst]
    if m.ty = .f32 && f.ty = .f32 && !m.clamp && !f.clamp && !e.clamp && !c.clamp && e.rnd = .rn && c.rnd = .rn &&
       m.h = e.h && m.h = c.h && m.h = f.h && regs.all Reg.isX && regs.eraseDups.length = 6 &&
       srcIs e.a rv && opBIs e.b n && srcIs c.a rm && opBIs c.b n &&
       srcIs f.a f.dst && srcIs f.b c.dst && srcIs f.c e.dst &&
       (!m.fzo || (e.fzo && c.fzo && f.fzo))
    then some (.fusedSoftmax m e c f) else none
  | _, _, _, _ => none

/-- The fused sequence at the program counter, when its four instructions can all be fetched (R154). -/
def fusedAt (s : State) (e : Env) (i1 : Instr) : Option (State × Instr) :=
  match i1 with
  | .fmax _ =>
    let (s2, i2) := peek s e 8
    let (s3, i3) := peek s2 e 16
    let (s4, i4) := peek s3 e 24
    match i2, i3, i4 with
    | some b, some c, some d => (fusedOf i1 b c d).map fun i => (s4, i)
    | _, _, _ => none
  | _ => none

end Sys2Proof.Machine
end

