-- ==== Sys2Proof/Machine/Frontier.lean ====
section
/-! DEFINITION. Frontier.lean: the ready threads of a core and their frontier entries (R87, R88, R260, R368), and the core's side of a
demotion (R92). -/

namespace Sys2Proof.Machine

open Sys2Proof

/-- The engine that serves a core group runs operations: its context is not stopped (R303, R364, R384). -/
def engineRuns (s : State) (cx : Nat) : Bool :=
  let c := s.ctx cx
  !s.stopped && c.kill.isNone && (c.state = .run || c.state = .draining)

/-- A ready thread's place: number, thread, core group, effective priority. -/
structure Cand where
  tid : Nat
  t : Thread
  g : CoreGroup
  eff : Int

/-- Effective priority: −1 while R92 demotes (R87). -/
def effPrio (t : Thread) : Int := if t.demoted.isSome then -1 else t.prio.toNat

/-- The instruction kinds that R368 calls captive. -/
def captiveKind : Instr → Bool
  | .ld _ | .ldl _ | .bqry .. | .st _ | .stl _ | .atom _ | .atomi _ | .cstr _ | .ldv _ | .stv _ | .atomv _ | .trav .. | .tri ..
  | .tbox .. | .tstk .. | .lnlk .. | .lnlkW .. => true
  | _ => false

/-- The instruction kinds that R260 holds back. -/
def budgetKind : Instr → Bool
  | .ld _ | .ldl _ | .atom _ | .atomi _ | .pref .. | .cstr _ => true
  | _ => false

/-- Memory requests of a core that have still to be performed. -/
def outstanding (s : State) (core : Nat) : Nat :=
  s.threads.foldl (fun n p => match tget? s.groups p.2.gid with
    | some g => if g.core = core then n + (p.2.accs.filter Acc.unperformed).length else n
    | none => n) 0

/-- A core with 8,192 outstanding requests issues no other (R12). -/
def coreFull (s : State) (core : Nat) : Bool := 8192 ≤ outstanding s core

/-- A thread whose next instruction makes a request that its core has no room for (R12). -/
def heldByCore (s : State) (e : Env) : Bool := coreFull s e.g.core && (peek s e 0).2.any captiveKind

/-- A thread that holds its entry not ready: eight captive instructions, and a ninth next (R368), or its core's requests all
outstanding (R12); or a memory instruction next while its cluster's requests wait at an exhausted budget (R260). -/
def heldBack (s : State) (e : Env) : Bool :=
  match (peek s e 0).2 with
  | some i => ((captiveFull e.t || coreFull s e.g.core) && captiveKind i) || (budgetKind i && heldByBudget s e.cl e.cx)
  | none => false

/-- The ready threads of a core; one whose RETT re-injects is still in that instruction (R372). -/
def cands (s : State) (core : Nat) : List Cand :=
  s.threads.filterMap fun p =>
    match s.env? p.1 with
    | none => none
    | some e =>
      if e.g.core = core && e.t.status = .ready && !e.t.reinject && engineRuns s e.cx && !heldBack s e then
        some { tid := p.1, t := e.t, g := e.g, eff := effPrio e.t }
      else none

/-- A thread's frontier entry (R87). -/
def keyOf (t : Thread) : EntryKey := { gid := t.gid, pc := t.pc, prio := t.prio }

/-- Entries of a core that hold a thread, ready or held back. -/
def liveKeys (s : State) (core : Nat) : List EntryKey :=
  s.threads.filterMap fun p => match s.env? p.1 with
    | some e => if e.g.core = core && e.t.status = .ready then some (keyOf e.t) else none
    | none => none

/-- The demotion of YIELD: every other entry of the core that has a ready thread now (R92). -/
def demote (s : State) (tid : Nat) : State :=
  match s.env? tid with
  | none => s
  | some e =>
    let y := ((cands s e.g.core).map fun c => keyOf c.t).eraseDups.filter fun k => k ≠ keyOf e.t
    s.modThread tid fun t => { t with demoted := if y.isEmpty then none else some y }

end Sys2Proof.Machine
end

