-- ==== Sys2Proof/Machine/Rings.lean ====
section
/-! DEFINITION. Rings.lean: rings in memory (R378), fault records (R176) and the collapse of a read-duplicated page (R179). -/

namespace Sys2Proof.Machine

open Sys2Proof

/-- A ring's header as it stands in memory. -/
structure MemRing where
  hdr : Nat
  base : Nat
  lg : Nat
  esz : Nat
  tail : Nat
  head : Nat
deriving DecidableEq, Repr, Inhabited

/-- Reads a header at a physical address; a malformed one counts as full, so it gives none. -/
def readRing (s : State) (hdr : Nat) : Option MemRing :=
  let f (o n : Nat) : Nat := s.viewNat .domain (hdr + o) n
  let r : MemRing := { hdr := hdr, base := f 24 8, lg := f 23 1, esz := f 22 1, tail := f 4 4, head := f 0 4 }
  if hdr % 64 ≠ 0 || !populated hdr || f 8 8 ≠ 0 || f 16 6 ≠ 0 || f 32 8 ≠ 0 || f 40 8 ≠ 0 || f 48 8 ≠ 0 || f 56 8 ≠ 0 then none
  else if r.lg < 1 || 20 < r.lg || r.esz < 3 || 6 < r.esz then none
  else some r

/-- Entries a ring holds. -/
def MemRing.count (r : MemRing) : Nat := (r.tail + 2 ^ 32 - r.head) % 2 ^ 32

/-- Pushes an entry; `tr` gives the physical address of an address of the ring's owner. None while the ring is full. -/
def pushRing (s : State) (tr : Nat → Option Nat) (hdrAddr : Nat) (entry : List Byte) : Option State :=
  match tr hdrAddr with
  | none => none
  | some hdr =>
    match readRing s hdr with
    | none => none
    | some r =>
      if 2 ^ r.lg ≤ r.count then none
      else match tr (r.base + (r.tail % 2 ^ r.lg) * 2 ^ r.esz) with
        | none => none
        | some a =>
          if !populated a then none
          else some (pokeBytes (pokeBytes s noContext a (entry.take (2 ^ r.esz))) noContext (hdr + 4) (leBytes 4 (r.tail + 1)))

/-- Pops an entry of a ring at a physical address. -/
def popRing (s : State) (hdr : Nat) : Option (State × Nat) :=
  match readRing s hdr with
  | none => none
  | some r =>
    if r.count = 0 then none
    else
      let v := s.viewNat .domain (r.base + (r.head % 2 ^ r.lg) * 2 ^ r.esz) 8
      some (pokeBytes s noContext hdr (leBytes 4 (r.head + 1)), v)

/-- A context's intermediate physical address, through stage 2 as the device's memory side sees it. -/
def ipaToPhys (s : State) (cx : Nat) (a : Nat) : Option Nat :=
  match stage2 s 0 (s.ctx cx).s2root a with
  | .leaf l => some (leafAddr (s.ctx cx) 0 l)
  | .stop _ _ => none

/-- The 32 bytes of a fault record (R176). -/
def recordBytes (r : FRec) : List Byte :=
  leBytes 8 r.addr ++ leBytes 2 r.ctx ++ leBytes 1 r.kind ++ leBytes 1 r.access ++ leBytes 4 r.level ++ leBytes 8 r.ref.toNat ++
    List.replicate 8 0

/-- FAULT_RECORD_POST: a record goes to its ring; while the ring is full it waits (R176). -/
def execFaultRecordPost (rid : Nat) (s : State) : Out :=
  match s.recs.find? fun r => r.id = rid with
  | none => .next s
  | some r =>
    if r.posted then .next s
    else
      let c := s.ctx r.ctx
      let pushed := if stageOf r.kind = 1 then pushRing s (ipaToPhys s r.ctx) c.gring (recordBytes r)
                    else pushRing s some c.hring (recordBytes r)
      match pushed with
      | none => .next s
      | some s1 => .next { s1 with recs := s1.recs.map fun x => if x.id = rid then { x with posted := true } else x }

/-- READ_DUP_COLLAPSE: `D` is cleared in the leaf, and no cluster keeps a translation through it (R179). -/
def execReadDupCollapse (leaf : Nat) (s : State) : Out :=
  if !s.collapsing.contains leaf then .next s
  else
    let b := s.viewByte .domain leaf &&& 0x7F
    let s1 := pokeBytes s noContext leaf [b]
    let s2 := { s1 with clusters := tmap (fun _ c => { c with tlb := c.tlb.filter fun e => !(e.leaf = leaf) }) s1.clusters }
    .next { s2 with collapsing := setDel s2.collapsing leaf }

end Sys2Proof.Machine
end

