-- ==== Sys2Proof/Machine/Float.lean ====
section
/-! DEFINITION. Float.lean: the float formats (R65, R71), exact values, the one rounding of R70, and the functions that
R147 and R151 round once from their exact values. -/

namespace Sys2Proof.Machine

open Sys2Proof

/-- Flags, laid out as `FLAGS` (R69). -/
abbrev Flags := BitVec 5
def fNV : Flags := 1
def fDZ : Flags := 2
def fOF : Flags := 4
def fUF : Flags := 8
def fNX : Flags := 16

/-- What the top exponent field of a format means. -/
inductive FKind where
  | ieee | e4m3 | finite
deriving DecidableEq, Repr

/-- A binary float format: exponent bits, trailing significand bits, bias. -/
structure Fmt where
  eb : Nat
  mb : Nat
  bias : Nat
  kind : FKind := .ieee
  /-- Signalling NaNs exist (R71). -/
  snan : Bool := true
deriving DecidableEq, Repr

def fmtF64 : Fmt := { eb := 11, mb := 52, bias := 1023 }
def fmtF32 : Fmt := { eb := 8, mb := 23, bias := 127 }
def fmtF16 : Fmt := { eb := 5, mb := 10, bias := 15 }
def fmtBf16 : Fmt := { eb := 8, mb := 7, bias := 127 }
def fmtE4m3 : Fmt := { eb := 4, mb := 3, bias := 7, kind := .e4m3, snan := false }
def fmtE5m2 : Fmt := { eb := 5, mb := 2, bias := 15, snan := false }
def fmtE3m2 : Fmt := { eb := 3, mb := 2, bias := 3, kind := .finite, snan := false }
def fmtE2m3 : Fmt := { eb := 2, mb := 3, bias := 1, kind := .finite, snan := false }
def fmtE2m1 : Fmt := { eb := 2, mb := 1, bias := 1, kind := .finite, snan := false }

def Fmt.width (f : Fmt) : Nat := 1 + f.eb + f.mb

/-- The sign bit. -/
def Fmt.signBit (f : Fmt) : Nat := 2 ^ (f.eb + f.mb)

/-- Infinity's magnitude bits in an IEEE format. -/
def Fmt.inf (f : Fmt) : Nat := (2 ^ f.eb - 1) * 2 ^ f.mb

/-- The canonical NaN (R65, R71). -/
def Fmt.nan (f : Fmt) : Nat :=
  match f.kind with
  | .ieee => (2 ^ f.eb - 1) * 2 ^ f.mb + 2 ^ (f.mb - 1)
  | .e4m3 => 0x7F
  | .finite => 0

/-- The largest finite magnitude, as significand and exponent. -/
def Fmt.maxMant (f : Fmt) : Nat := if f.kind = .e4m3 then 14 else 2 ^ (f.mb + 1) - 1

def Fmt.maxExp (f : Fmt) : Int :=
  match f.kind with
  | .ieee => (2 ^ f.eb - 2 : Int) - f.bias - f.mb
  | _ => (2 ^ f.eb - 1 : Int) - f.bias - f.mb

/-- Its bits. -/
def Fmt.maxBits (f : Fmt) : Nat :=
  match f.kind with
  | .ieee => f.inf - 1
  | .e4m3 => 0x7E
  | .finite => 2 ^ (f.eb + f.mb) - 1

/-- Exponent of the smallest normal. -/
def Fmt.emin (f : Fmt) : Int := 1 - f.bias

/-- A value: NaN, an infinity, or sign, significand and exponent of two (zero: significand 0). -/
inductive FVal where
  | nan (signalling : Bool)
  | inf (neg : Bool)
  | num (neg : Bool) (m : Nat) (e : Int)
deriving DecidableEq, Repr, Inhabited

/-- The value of a bit pattern (R65, R71). -/
def Fmt.decode (f : Fmt) (v : Nat) : FVal :=
  let neg := v.testBit (f.eb + f.mb)
  let ef := v / 2 ^ f.mb % 2 ^ f.eb
  let mf := v % 2 ^ f.mb
  let special : Bool := match f.kind with
    | .ieee => ef = 2 ^ f.eb - 1
    | .e4m3 => ef = 15 && mf = 7
    | .finite => false
  if special then
    (if f.kind = .ieee && mf = 0 then .inf neg else .nan (f.snan && !mf.testBit (f.mb - 1)))
  else if ef = 0 then .num neg mf (f.emin - f.mb)
  else .num neg (2 ^ f.mb + mf) ((ef : Int) - f.bias - f.mb)

/-- A subnormal bit pattern. -/
def Fmt.isSub (f : Fmt) (v : Nat) : Bool := v / 2 ^ f.mb % 2 ^ f.eb = 0 && v % 2 ^ f.mb ≠ 0

/-- Reads an operand under an FTZ choice (R68). -/
def Fmt.read (f : Fmt) (ftz : Bool) (v : Nat) : FVal :=
  if ftz && f.isSub v then .num (v.testBit (f.eb + f.mb)) 0 0 else f.decode v

/-- A magnitude `m * 2^e`, plus something positive and smaller than its last bit when `sticky`. -/
structure Exact where
  neg : Bool
  m : Nat
  e : Int
  sticky : Bool := false
deriving DecidableEq, Repr, Inhabited

/-- Bits of a magnitude. -/
def bitLen (m : Nat) : Nat := if m = 0 then 0 else Nat.log2 m + 1

/-- Keeps the bits from `2^q` up and rounds in a mode: the kept count, and whether anything was lost (R70). -/
def roundAt (rnd : Rnd) (x : Exact) (q : Int) : Nat × Bool :=
  if q ≤ x.e then
    let k := x.m * 2 ^ (x.e - q).toNat
    let up := match rnd with
      | .ru => x.sticky && !x.neg
      | .rd => x.sticky && x.neg
      | _ => false
    (if up then k + 1 else k, x.sticky)
  else
    let sh := (q - x.e).toNat
    -- far below the quantum: nothing is kept, and the rest is less than half
    let (kept, rest, half) : Nat × Nat × Nat := if bitLen x.m + 2 < sh then (0, (if x.m = 0 then 0 else 1), 2)
      else (x.m / 2 ^ sh, x.m % 2 ^ sh, 2 ^ (sh - 1))
    let lost := rest ≠ 0 || x.sticky
    let up := match rnd with
      | .rn => half < rest || (rest = half && (x.sticky || kept % 2 = 1))
      | .rz => false
      | .ru => lost && !x.neg
      | .rd => lost && x.neg
    (if up then kept + 1 else kept, lost)

/-- A rounded magnitude `m * 2^q` with what rounding found. -/
structure Rounded where
  neg : Bool
  m : Nat
  q : Int
  lost : Bool
  tiny : Bool
deriving DecidableEq, Repr, Inhabited

/-- Rounds once to a format's precision, its exponent unbounded above; tiny is judged after rounding (R69). -/
def Fmt.round (f : Fmt) (rnd : Rnd) (x : Exact) : Rounded :=
  let top := (bitLen x.m : Int) - 1 + x.e
  let q := max (top - f.mb) (f.emin - f.mb)
  let (m, lost) := roundAt rnd x q
  let tiny :=
    if x.m = 0 then true
    else if f.emin ≤ top then false
    else if top < f.emin - 1 then true
    else (roundAt rnd x (top - f.mb)).1 < 2 ^ (f.mb + 1)
  { neg := x.neg, m := m, q := q, lost := lost, tiny := tiny }

/-- Whether a rounded magnitude exceeds the largest finite one. -/
def Fmt.overtops (f : Fmt) (r : Rounded) : Bool :=
  let top := (bitLen r.m : Int) + r.q
  let maxTop := (bitLen f.maxMant : Int) + f.maxExp
  let e := min r.q f.maxExp
  r.m ≠ 0 && (maxTop < top || (maxTop = top && f.maxMant * 2 ^ (f.maxExp - e).toNat < r.m * 2 ^ (r.q - e).toNat))

/-- The bits of a rounded magnitude that the format holds. -/
def Fmt.encode (f : Fmt) (r : Rounded) : Nat :=
  let (m, q) : Nat × Int := if r.m = 2 ^ (f.mb + 1) then (2 ^ f.mb, r.q + 1) else (r.m, r.q)
  let mag := if m < 2 ^ f.mb then m else ((q + f.bias + f.mb).toNat) * 2 ^ f.mb + (m - 2 ^ f.mb)
  (if r.neg then f.signBit else 0) + mag

def signed (f : Fmt) (neg : Bool) (mag : Nat) : Nat := (if neg then f.signBit else 0) + mag

/-- The result of an overflow in an IEEE format (R70). -/
def Fmt.overflow (f : Fmt) (rnd : Rnd) (neg : Bool) : Nat :=
  match rnd with
  | .rn => signed f neg f.inf
  | .rz => signed f neg f.maxBits
  | .ru => if neg then signed f true f.maxBits else f.inf
  | .rd => if neg then signed f true f.inf else f.maxBits

/-- Rounds an exact nonzero value, or one whose zero has a sign, into an IEEE format: bits and flags (R68 to R70). -/
def Fmt.finish (f : Fmt) (rnd : Rnd) (ftz : Bool) (x : Exact) : Nat × Flags :=
  let r := f.round rnd x
  if f.overtops r then (f.overflow rnd x.neg, fOF ||| fNX)
  else
    let v := f.encode r
    let flags := (if r.lost then fNX else 0) ||| (if r.lost && r.tiny then fUF else 0)
    if ftz && f.isSub v then (signed f x.neg 0, flags ||| fUF ||| fNX) else (v, flags)

/-! ## Exact arithmetic -/

def FVal.isNan : FVal → Bool
  | .nan _ => true
  | _ => false

def FVal.isSnan : FVal → Bool
  | .nan s => s
  | _ => false

def FVal.neg : FVal → Bool
  | .nan _ => false
  | .inf n => n
  | .num n _ _ => n

/-- NV of the signalling operands (R66). -/
def nvOf (vs : List FVal) : Flags := if vs.any FVal.isSnan then fNV else 0

/-- A signed integer times a power of two. -/
structure Dy where
  v : Int
  e : Int
deriving DecidableEq, Repr, Inhabited

def dyOf (neg : Bool) (m : Nat) (e : Int) : Dy := { v := if neg then -(m : Int) else m, e := e }

def Dy.add (a b : Dy) : Dy :=
  let e := min a.e b.e
  { v := a.v * 2 ^ (a.e - e).toNat + b.v * 2 ^ (b.e - e).toNat, e := e }

def Dy.mul (a b : Dy) : Dy := { v := a.v * b.v, e := a.e + b.e }

def Dy.exact (d : Dy) : Exact := { neg := d.v < 0, m := d.v.natAbs, e := d.e }

/-- a < b for finite values. -/
def Dy.lt (a b : Dy) : Bool :=
  let e := min a.e b.e
  a.v * 2 ^ (a.e - e).toNat < b.v * 2 ^ (b.e - e).toNat

/-- The sum of two finite values, with the zero of R70. -/
def sumExact (rnd : Rnd) (n1 : Bool) (m1 : Nat) (e1 : Int) (n2 : Bool) (m2 : Nat) (e2 : Int) : Exact :=
  let d := (dyOf n1 m1 e1).add (dyOf n2 m2 e2)
  if d.v = 0 then { neg := if n1 = n2 then n1 else rnd = .rd, m := 0, e := 0 } else d.exact

/-- a + b (R144). -/
def fAdd (f : Fmt) (rnd : Rnd) (ftz : Bool) (a b : FVal) : Nat × Flags :=
  match a, b with
  | .nan _, _ | _, .nan _ => (f.nan, nvOf [a, b])
  | .inf x, .inf y => if x = y then (signed f x f.inf, 0) else (f.nan, fNV)
  | .inf x, .num _ _ _ => (signed f x f.inf, 0)
  | .num _ _ _, .inf y => (signed f y f.inf, 0)
  | .num n1 m1 e1, .num n2 m2 e2 => f.finish rnd ftz (sumExact rnd n1 m1 e1 n2 m2 e2)

/-- The negated value; a NaN stays itself. -/
def FVal.negate : FVal → FVal
  | .nan s => .nan s
  | .inf n => .inf (!n)
  | .num n m e => .num (!n) m e

/-- a × b (R144). -/
def fMul (f : Fmt) (rnd : Rnd) (ftz : Bool) (a b : FVal) : Nat × Flags :=
  match a, b with
  | .nan _, _ | _, .nan _ => (f.nan, nvOf [a, b])
  | .inf x, .inf y => (signed f (x != y) f.inf, 0)
  | .inf x, .num y m _ | .num y m _, .inf x => if m = 0 then (f.nan, fNV) else (signed f (x != y) f.inf, 0)
  | .num n1 m1 e1, .num n2 m2 e2 => f.finish rnd ftz { neg := n1 != n2, m := m1 * m2, e := e1 + e2 }

/-- a × b + c with one rounding; (∞ × 0) + c is NaN with NV, even when c is NaN (R144). -/
def fFma (f : Fmt) (rnd : Rnd) (ftz : Bool) (a b c : FVal) : Nat × Flags :=
  let infZero : Bool := match a, b with
    | .inf _, .num _ 0 _ => true
    | .num _ 0 _, .inf _ => true
    | _, _ => false
  if infZero then (f.nan, fNV)
  else if a.isNan || b.isNan || c.isNan then (f.nan, nvOf [a, b, c])
  else
    match a, b, c with
    | .num n1 m1 e1, .num n2 m2 e2, .num n3 m3 e3 => f.finish rnd ftz (sumExact rnd (n1 != n2) (m1 * m2) (e1 + e2) n3 m3 e3)
    | .num _ _ _, .num _ _ _, .inf z => (signed f z f.inf, 0)
    | _, _, .inf z => if (a.neg != b.neg) = z then (signed f z f.inf, 0) else (f.nan, fNV)
    | _, _, _ => (signed f (a.neg != b.neg) f.inf, 0)

/-- A quotient of naturals to `extra` bits below the divisor's precision, with its remainder as sticky. -/
def quotExact (neg : Bool) (m1 : Nat) (e1 : Int) (m2 : Nat) (e2 : Int) : Exact :=
  let k := bitLen m2 + 200
  { neg := neg, m := m1 * 2 ^ k / m2, e := e1 - e2 - k, sticky := m1 * 2 ^ k % m2 ≠ 0 }

/-- a ÷ b (R147). -/
def fDiv (f : Fmt) (rnd : Rnd) (ftz : Bool) (a b : FVal) : Nat × Flags :=
  match a, b with
  | .nan _, _ | _, .nan _ => (f.nan, nvOf [a, b])
  | .inf _, .inf _ => (f.nan, fNV)
  | .inf x, .num y _ _ => (signed f (x != y) f.inf, 0)
  | .num x _ _, .inf y => (signed f (x != y) 0, 0)
  | .num n1 m1 e1, .num n2 m2 e2 =>
    if m2 = 0 then (if m1 = 0 then (f.nan, fNV) else (signed f (n1 != n2) f.inf, fDZ))
    else if m1 = 0 then (signed f (n1 != n2) 0, 0)
    else f.finish rnd ftz (quotExact (n1 != n2) m1 e1 m2 e2)

/-- Integer square root by bits, from bit `n - 1` down: the largest r with r * r ≤ v. -/
def isqrtFrom (v : Nat) : Nat → Nat → Nat
  | 0, r => r
  | n + 1, r => if (r + 2 ^ n) * (r + 2 ^ n) ≤ v then isqrtFrom v n (r + 2 ^ n) else isqrtFrom v n r

def isqrt (v : Nat) : Nat := isqrtFrom v (bitLen v / 2 + 1) 0

/-- √(m × 2^e), with 80 bits to spare. -/
def sqrtExact (m : Nat) (e : Int) : Exact :=
  let k : Nat := 160 + (if e % 2 = 0 then 0 else 1)
  let v := m * 2 ^ k
  let r := isqrt v
  { neg := false, m := r, e := (e - k) / 2, sticky := r * r ≠ v }

/-- √a (R147). -/
def fSqrt (f : Fmt) (rnd : Rnd) (ftz : Bool) (a : FVal) : Nat × Flags :=
  match a with
  | .nan _ => (f.nan, nvOf [a])
  | .inf n => if n then (f.nan, fNV) else (f.inf, 0)
  | .num n m e => if m = 0 then (signed f n 0, 0) else if n then (f.nan, fNV) else f.finish rnd ftz (sqrtExact m e)

/-- 1 ÷ a (R147). -/
def fRcp (f : Fmt) (rnd : Rnd) (ftz : Bool) (a : FVal) : Nat × Flags :=
  match a with
  | .nan _ => (f.nan, nvOf [a])
  | .inf n => (signed f n 0, 0)
  | .num n m e => if m = 0 then (signed f n f.inf, fDZ) else f.finish rnd ftz (quotExact n 1 0 m e)

/-- 1 ÷ √a (R147): the root of a long quotient; exact only when both divisions leave nothing. -/
def fRsq (f : Fmt) (rnd : Rnd) (ftz : Bool) (a : FVal) : Nat × Flags :=
  match a with
  | .nan _ => (f.nan, nvOf [a])
  | .inf n => if n then (f.nan, fNV) else (0, 0)
  | .num n m e =>
    if m = 0 then (signed f n f.inf, fDZ)
    else if n then (f.nan, fNV)
    else
      let x := quotExact false 1 0 m e
      let k : Nat := 160 + (if x.e % 2 = 0 then 0 else 1)
      let v := x.m * 2 ^ k
      let r := isqrt v
      f.finish rnd ftz { neg := false, m := r, e := (x.e - k) / 2, sticky := r * r ≠ v || x.sticky }

/-! ## Fixed-point series, for functions whose values are never exact outside the cases R147 lists

Values are integers scaled by 2^1024. Every step truncates once, so that a sum of a few hundred terms is off by less than
2^20 units: far below the 2^-700 that would matter to a 53-bit result. The rounding of a value and of its two bounds
agree; where they should not, the value itself is rounded (log entry 10). -/

def fxP : Nat := 1024
def fxOne : Nat := 2 ^ fxP

/-- Sum of `t / (2k+1)` for t shrinking by `d` at each k, signs alternating when `alt`. -/
def atanSum (alt : Bool) (d : Nat) : Nat → Nat → Nat → Int → Int
  | 0, _, _, acc => acc
  | n + 1, k, t, acc =>
    let term : Int := (t / (2 * k + 1) : Nat)
    atanSum alt d n (k + 1) (t / d) (if alt && k % 2 = 1 then acc - term else acc + term)

/-- π = 16 atan(1/5) − 4 atan(1/239). -/
def fxPi : Int := 16 * atanSum true 25 240 0 (fxOne / 5) 0 - 4 * atanSum true 57121 80 0 (fxOne / 239) 0

/-- ln 2 = 2 atanh(1/3). -/
def fxLn2 : Int := 2 * atanSum false 9 340 0 (fxOne / 3) 0

def fxMul (a b : Int) : Int := a * b / fxOne

/-- Σ y^k / k! from term k on. -/
def expSum (y : Int) : Nat → Nat → Int → Int → Int
  | 0, _, _, acc => acc
  | n + 1, k, t, acc => expSum y n (k + 1) (fxMul t y / (k + 1 : Nat)) (acc + t)

def fxExp (y : Int) : Int := expSum y 220 0 fxOne 0

/-- Σ (−1)^k y^(2k+1) / (2k+1)!. -/
def sinSum (y2 : Int) : Nat → Nat → Int → Int → Int
  | 0, _, _, acc => acc
  | n + 1, k, t, acc => sinSum y2 n (k + 1) (-(fxMul t y2) / ((2 * k + 2) * (2 * k + 3) : Nat)) (acc + t)

def fxSin (y : Int) : Int := sinSum (fxMul y y) 120 0 y 0

/-- Σ z^(2k+1) / (2k+1). -/
def atanhSum (z2 : Int) : Nat → Nat → Int → Int → Int
  | 0, _, _, acc => acc
  | n + 1, k, t, acc => atanhSum z2 n (k + 1) (fxMul t z2) (acc + t / (2 * k + 1 : Nat))

/-- A finite value as fixed point, rounded down. -/
def fxOf (d : Dy) : Int := if 0 ≤ d.e + fxP then d.v * 2 ^ (d.e + fxP).toNat else d.v / 2 ^ (-(d.e + fxP)).toNat

/-- Rounds a never-exact fixed-point value times 2^sh. -/
def fxFinish (f : Fmt) (rnd : Rnd) (ftz : Bool) (v : Int) (sh : Int) : Nat × Flags :=
  f.finish rnd ftz { neg := v < 0, m := v.natAbs, e := sh - fxP, sticky := true }

/-- Whether a dyadic value is an integer, and the integer below it. -/
def Dy.floor (d : Dy) : Int := if 0 ≤ d.e then d.v * 2 ^ d.e.toNat else d.v / 2 ^ (-d.e).toNat

def Dy.isInt (d : Dy) : Bool := d.v = 0 || 0 ≤ d.e || d.v % 2 ^ (-d.e).toNat = 0

/-- 2^d for a dyadic d, with the far ends cut off where every format overflows or vanishes. -/
def exp2Exact (f : Fmt) (rnd : Rnd) (ftz : Bool) (d : Dy) : Nat × Flags :=
  if d.v = 0 then f.finish rnd ftz { neg := false, m := 1, e := 0 }
  else
    let big := (5000 : Int) ≤ (bitLen d.v.natAbs : Int) + d.e || 16 ≤ (bitLen d.v.natAbs : Int) - 1 + d.e
    if big then f.finish rnd ftz { neg := false, m := 1, e := if d.v < 0 then -70000 else 70000 }
    else if d.isInt then f.finish rnd ftz { neg := false, m := 1, e := d.floor }
    else
      let n := d.floor
      let frac := d.add { v := -n, e := 0 }
      fxFinish f rnd ftz (fxExp (fxMul (fxOf frac) fxLn2)) n

/-- 2^a (R147). -/
def fExp2 (f : Fmt) (rnd : Rnd) (ftz : Bool) (a : FVal) : Nat × Flags :=
  match a with
  | .nan _ => (f.nan, nvOf [a])
  | .inf n => (if n then 0 else f.inf, 0)
  | .num n m e => exp2Exact f rnd ftz (dyOf n m e)

/-- log2 a (R147). -/
def fLog2 (f : Fmt) (rnd : Rnd) (ftz : Bool) (a : FVal) : Nat × Flags :=
  match a with
  | .nan _ => (f.nan, nvOf [a])
  | .inf n => if n then (f.nan, fNV) else (f.inf, 0)
  | .num n m e =>
    if m = 0 then (signed f true f.inf, fDZ)
    else if n then (f.nan, fNV)
    else
      let l := bitLen m - 1
      if m = 2 ^ l then
        let v : Int := (l : Int) + e
        f.finish rnd ftz { neg := v < 0, m := v.natAbs, e := 0 }
      else
        -- a = x × 2^k with x in (3/4, 3/2)
        let up := 2 ^ l * 3 ≤ m * 2
        let k : Int := (l : Int) + e + (if up then 1 else 0)
        let den := 2 ^ (if up then l + 1 else l)
        let z : Int := ((m : Int) - den) * fxOne / ((m : Int) + den)
        let ln := 2 * atanhSum (fxMul z z) 340 0 z 0
        fxFinish f rnd ftz (k * fxOne + ln * fxOne / fxLn2) 0

/-- sin(π × r) for a dyadic r strictly between 0 and 1, never exact but at 1/2. -/
def sinPiExact (f : Fmt) (rnd : Rnd) (ftz neg : Bool) (r : Dy) : Nat × Flags :=
  let r1 := if r.lt { v := 1, e := -1 } then r else (Dy.add { v := 1, e := 0 } { v := -r.v, e := r.e })
  if !(r1.lt { v := 1, e := -1 }) then f.finish rnd ftz { neg := neg, m := 1, e := 0 }
  else
    let y := fxMul (fxOf r1) fxPi
    let v := fxSin y
    fxFinish f rnd ftz (if neg then -v else v) 0

/-- sin(π × a) (R147). -/
def fSin (f : Fmt) (rnd : Rnd) (ftz : Bool) (a : FVal) : Nat × Flags :=
  match a with
  | .nan _ => (f.nan, nvOf [a])
  | .inf _ => (f.nan, fNV)
  | .num n m e =>
    let d := dyOf n m e
    if m = 0 then (signed f n 0, 0)
    else if d.isInt then (signed f n 0, 0)
    else
      let k := d.floor
      sinPiExact f rnd ftz (k % 2 = 1) (d.add { v := -k, e := 0 })

/-- cos(π × a) (R147): sin(π × (a + 1/2)), and +0 at n + 0.5. -/
def fCos (f : Fmt) (rnd : Rnd) (ftz : Bool) (a : FVal) : Nat × Flags :=
  match a with
  | .nan _ => (f.nan, nvOf [a])
  | .inf _ => (f.nan, fNV)
  | .num n m e =>
    -- beyond 2^40 every value is an even integer; the sum below would only be long
    if m = 0 || 40 < e then f.finish rnd ftz { neg := false, m := 1, e := 0 }
    else
      let d := (dyOf n m e).add { v := 1, e := -1 }
      if d.isInt then (0, 0)
      else
        let k := d.floor
        let r := d.add { v := -k, e := 0 }
        -- near a maximum the cosine of a tiny angle is 1 less something tiny
        let tiny := (dyOf false m e).lt { v := 1, e := -500 }
        if tiny then fxFinish f rnd ftz (fxOne - 1) 0 else sinPiExact f rnd ftz (k % 2 = 1) r

/-- tanh a (R147). -/
def fTanh (f : Fmt) (rnd : Rnd) (ftz : Bool) (a : FVal) : Nat × Flags :=
  match a with
  | .nan _ => (f.nan, nvOf [a])
  | .inf n => f.finish rnd ftz { neg := n, m := 1, e := 0 }
  | .num n m e =>
    if m = 0 then (signed f n 0, 0)
    else if 8 ≤ (bitLen m : Int) + e then fxFinish f rnd ftz (if n then -(fxOne - 1) else fxOne - 1) 0
    else
      -- e^(2x) = (e^(2x / 512))^512 keeps the series short
      let y := fxOf { v := m, e := e - 8 }
      let t := fxExp y
      let sq (x : Int) := fxMul x x
      let w := sq (sq (sq (sq (sq (sq (sq (sq (sq t))))))))
      let v := (w - fxOne) * fxOne / (w + fxOne)
      fxFinish f rnd ftz (if n then -v else v) 0

/-- 2^(a − b), with the difference exact (R151). -/
def fExpn (f : Fmt) (rnd : Rnd) (ftz : Bool) (a b : FVal) : Nat × Flags :=
  match a, b with
  | .nan _, _ | _, .nan _ => (f.nan, nvOf [a, b])
  | .inf x, .inf y => if x then (0, 0) else if y then (f.inf, 0) else (f.nan, fNV)
  | .inf x, .num _ _ _ => (if x then 0 else f.inf, 0)
  | .num _ _ _, .inf y => (if y then f.inf else 0, 0)
  | .num n1 m1 e1, .num n2 m2 e2 => exp2Exact f rnd ftz ((dyOf n1 m1 e1).add (dyOf (!n2) m2 e2))

/-- a × 2^b (R144). -/
def fScl (f : Fmt) (rnd : Rnd) (ftz : Bool) (a : FVal) (b : Int) : Nat × Flags :=
  match a with
  | .nan _ => (f.nan, nvOf [a])
  | .inf n => (signed f n f.inf, 0)
  | .num n m e => if m = 0 then (signed f n 0, 0) else f.finish rnd ftz { neg := n, m := m, e := e + b }

/-- a rounded to an integral value of its own type (R148). -/
def fRnd (f : Fmt) (rnd : Rnd) (a : FVal) : Nat × Flags :=
  match a with
  | .nan _ => (f.nan, nvOf [a])
  | .inf n => (signed f n f.inf, 0)
  | .num n m e =>
    if 0 ≤ e then (f.finish rnd false { neg := n, m := m, e := e }).1 |> (·, 0)
    else ((f.finish rnd false { neg := n, m := (roundAt rnd { neg := n, m := m, e := e } 0).1, e := 0 }).1, 0)

/-- A total order on values that are no NaN: −0 below +0 (R145). -/
def valLt (a b : FVal) : Bool :=
  match a, b with
  | .inf x, .inf y => x && !y
  | .inf x, _ => x
  | _, .inf y => !y
  | .num n1 m1 e1, .num n2 m2 e2 =>
    if m1 = 0 && m2 = 0 then n1 && !n2 else (dyOf n1 m1 e1).lt (dyOf n2 m2 e2)
  | _, _ => false

/-- The smaller or larger of two operands, given with their bits (R145). -/
def fMinMax (f : Fmt) (isMax : Bool) (va vb : Nat) (a b : FVal) : Nat × Flags :=
  let nv := nvOf [a, b]
  match a, b with
  | .nan _, .nan _ => (f.nan, nv)
  | .nan _, _ => (vb, nv)
  | _, .nan _ => (va, nv)
  | _, _ => (if isMax then (if valLt a b then vb else va) else (if valLt b a then vb else va), 0)

/-- A product as a value, exact when finite, with NV for ∞ × 0 and signalling operands. -/
def mulVal (a b : FVal) : FVal × Flags :=
  match a, b with
  | .nan _, _ | _, .nan _ => (.nan false, nvOf [a, b])
  | .inf x, .inf y => (.inf (x != y), 0)
  | .inf x, .num y m _ | .num y m _, .inf x => if m = 0 then (.nan false, fNV) else (.inf (x != y), 0)
  | .num n1 m1 e1, .num n2 m2 e2 => (.num (n1 != n2) (m1 * m2) (e1 + e2), 0)

/-- The sum of products as one block (R77): NaN, ∞ of one sign, or the exact sum, a zero being +0; NV when ∞ of both
signs meet. -/
def blockSum (ps : List FVal) : FVal × Flags :=
  if ps.any FVal.isNan then (.nan false, 0)
  else
    let pos := ps.any fun p => p = .inf false
    let neg := ps.any fun p => p = .inf true
    if pos && neg then (.nan false, fNV)
    else if pos || neg then (.inf neg, 0)
    else
      let d : Dy := ps.foldl (fun (d : Dy) p => match p with
        | .num n m e => d.add (dyOf n m e)
        | _ => d) { v := 0, e := 0 }
      (.num (d.v < 0) d.v.natAbs d.e, 0)

/-- A block rounded once to f32 with RN (R77). -/
def blockRound (v : FVal) : Nat × Flags :=
  match v with
  | .nan _ => (fmtF32.nan, 0)
  | .inf n => (signed fmtF32 n fmtF32.inf, 0)
  | .num n m e => if m = 0 then (0, 0) else fmtF32.finish .rn false { neg := n, m := m, e := e }

end Sys2Proof.Machine
end

