-- ==== Sys2Proof/Machine/Flags.lean ====
section
/-! DEFINITION. Flags.lean: the sticky float flags of a thread and the trap they take (R69), the clamp (R144), integer
lanes and the one finish of R64 and R138, and the shadow units of R152. -/

namespace Sys2Proof

/-- Lane width in bits, and lanes in a value. -/
def IWidth.bitsOf : IWidth → Nat
  | .w32 => 32
  | .w64 => 64
  | .w16x2 => 16
  | .w8x4 => 8

def IWidth.lanes : IWidth → Nat
  | .w16x2 => 2
  | .w8x4 => 4
  | _ => 1

/-- The format and lanes of an operation type (R49). -/
def FTy.fmt : FTy → Machine.Fmt
  | .f32 => Machine.fmtF32
  | .f64 => Machine.fmtF64
  | .f16x2 => Machine.fmtF16
  | .bf16x2 => Machine.fmtBf16

def FTy.lanes : FTy → Nat
  | .f16x2 => 2
  | .bf16x2 => 2
  | _ => 1

/-- FTZ touches f32 and f64 only (R68). -/
def FTy.flushes (t : FTy) (ftz : Bool) : Bool := t.scalar && ftz

end Sys2Proof

namespace Sys2Proof.Machine

open Sys2Proof

/-! ## Float flags (R67 to R69) -/

/-- TMODE.FTZ of a context (R67). -/
def Ctx.ftz (c : Ctx) : Bool := c.tmode.getLsbD 0

/-- TMODE.FPXE, laid out as `FLAGS`: bit [1] enables NV, up to bit [5] for NX (R67). -/
def Ctx.fpxe (c : Ctx) : Flags := c.tmode.extractLsb' 1 5

/-- TMODE.MXE (R67). -/
def Ctx.mxe (c : Ctx) : Bool := c.tmode.getLsbD 6

/-- The FTZ choice in force (R68). -/
def Env.ftz (e : Env) (s : State) (fzo : Bool) : Bool := (s.ctx e.cx).ftz != fzo

/-- After an instruction of a thread has written its destinations and moved on: its flags stick, and an enabled one traps
`FPX` unless the instruction is speculative (R69). The thread's `pc` is already the next instruction. -/
def raiseFlags (s : State) (tid : Nat) (sp : Bool) (fl : Flags) : State :=
  let s1 := s.modThread tid fun t => { t with flags := t.flags ||| fl }
  match s1.env? tid with
  | none => s1
  | some e =>
    let on := fl &&& (s1.ctx e.cx).fpxe
    if sp || on = 0 then s1 else raise s1 e { cause := 11, aux := on.setWidth 32 }

/-! ## Shadow units (R152) -/

/-- Reports a token of the classes that are contained uncorrectable events (R389). -/
def reportToken (s : State) (e : Env) (code unit pa : Nat) : State :=
  reportContained s 1 unit e.cx code ((mkToken code unit e.t.pc.offset).extractLsb' 0 20 |>.setWidth 24) pa

/-- The first shadow disagreement that waits, and the rest. -/
def takeShadow : List Inject → Option (Bool × List Inject)
  | [] => none
  | .shadow again :: r => some (again, r)
  | i :: r => (takeShadow r).map fun (b, l) => (b, i :: l)

/-! ## Integers (R48, R64) -/

/-- Lane i of a value. -/
def laneOf (w : Nat) (v : Nat) (i : Nat) : Nat := v / 2 ^ (w * i) % 2 ^ w

/-- A lane read as signed or natural. -/
def readInt (w : Nat) (sgn : Bool) (v : Nat) : Int := if sgn && 2 ^ (w - 1) ≤ v then (v : Int) - 2 ^ w else v

/-- The low `w` bits of an exact value. -/
def wrapTo (w : Nat) (v : Int) : Nat := (v % 2 ^ w).toNat

/-- The bounds of a type (R64). -/
def intMin (w : Nat) (sgn : Bool) : Int := if sgn then -(2 ^ (w - 1) : Int) else 0
def intMax (w : Nat) (sgn : Bool) : Int := if sgn then (2 ^ (w - 1) : Int) - 1 else 2 ^ w - 1

/-- `finish(E)` of R138. -/
def intFinish (w : Nat) (sgn sat : Bool) (v : Int) : Nat :=
  wrapTo w (if sat then max (intMin w sgn) (min (intMax w sgn) v) else v)

/-- Puts lanes together. -/
def packLanes (w : Nat) : List Nat → Nat
  | [] => 0
  | l :: ls => l + 2 ^ w * packLanes w ls

/-- The words of a value of a lane type. -/
def valWords (n v : Nat) : List Word := if n = 2 then [BitVec.ofNat 32 v, BitVec.ofNat 32 (v / 2 ^ 32)] else [BitVec.ofNat 32 v]

/-- A source's value as a number. -/
def SrcVal.nat (v : SrcVal) (words : Nat) : Nat := if words = 2 then v.v64.toNat else v.v32.toNat

/-! ## Floats -/

/-- The clamp of R144: at or below zero and NaN become +0, above one becomes one. -/
def clampBits (f : Fmt) (v : Nat) : Nat :=
  let one := f.bias * 2 ^ f.mb
  match f.decode v with
  | .nan _ => 0
  | .inf n => if n then 0 else one
  | .num n m _ => if n || m = 0 then 0 else if one < v then one else v

/-- ORs the flags of lanes. -/
def flagsOr (l : List (Nat × Flags)) : Flags := l.foldl (fun f r => f ||| r.2) 0

end Sys2Proof.Machine
end

