-- ==== Sys2Proof/Machine/Control.lean ====
section
/-! DEFINITION. Control.lean: the control-flow entries (R96 to R109), but for RETT, which is in Traps.lean. -/

namespace Sys2Proof.Machine

open Sys2Proof

/-- Moves a thread by a branch displacement counted in parcels, with the priority of the target (R25, R97). -/
def jumpBy (s : State) (e : Env) (parcels : Int) (prio : BitVec 5) (link : Option (Reg × Nat)) : Out :=
  let o : Int := (e.t.pc.offset.toNat : Int) + 4 * parcels
  if o < 0 || 2 ^ 40 ≤ o then .next (raiseFault s e 0x03 0)
  else
    let s1 := match link with
      | some (r, len) => writeDst s e r (cleanWords (valWords 2 (refWord (pcAdd e.t.pc len)).toNat))
      | none => s
    .next (s1.modThread e.tid fun t => { t with pc := { t.pc with offset := BitVec.ofNat 40 o.toNat }, prio := prio })

/-- A transfer whose guard is poisoned under `sp` falls through, its link poisoned (R97). -/
def noTransfer (s : State) (e : Env) (len : Nat) (link : Reg) (tok : Word) : Out := finishTok s e len link 2 tok

/-- NOP (R101). -/
def execNop (h : Head) (s : State) : Out := withSrcs s h 8 [] [] fun s e _ _ => fallThrough s e 8

/-- BR (R98). -/
def execBr (h : Head) (imm : BitVec 18) (prio : BitVec 5) (s : State) : Out :=
  withSrcs s h 8 [] [] fun s e _ gtok => if gtok.isSome then fallThrough s e 8 else jumpBy s e imm.toInt prio none

/-- BRL (R98). -/
def execBrl (h : Head) (imm : BitVec 32) (prio : BitVec 5) (s : State) : Out :=
  withSrcs s h 12 [] [] fun s e _ gtok => if gtok.isSome then fallThrough s e 12 else jumpBy s e imm.toInt prio none

/-- CALL (R99). -/
def execCall (h : Head) (link : Reg) (imm : BitVec 18) (prio : BitVec 5) (s : State) : Out :=
  withSrcs s h 8 [] [{ reg := link, words := 2 }] fun s e _ gtok =>
    match gtok with
    | some tok => noTransfer s e 8 link tok
    | none => jumpBy s e imm.toInt prio (some (link, 8))

/-- CALLL (R99). -/
def execCalll (h : Head) (link : Reg) (imm : BitVec 32) (prio : BitVec 5) (s : State) : Out :=
  withSrcs s h 12 [] [{ reg := link, words := 2 }] fun s e _ gtok =>
    match gtok with
    | some tok => noTransfer s e 12 link tok
    | none => jumpBy s e imm.toInt prio (some (link, 12))

/-- A transfer to a reference held in a register pair (R25, R99): `s0` is the state of before the pops. -/
def jumpReg (s0 s : State) (e : Env) (link : Reg) (v : SrcVal) (prio : BitVec 5) : Out :=
  match v.tok with
  | some tok => .next (raiseFaultTok s0 e tok)
  | none =>
    let t := wordRef v.v64
    if t.offset.extractLsb' 0 2 ≠ 0 then .next (raise s0 e { cause := 5, aux := 12 })
    else
      let s1 := writeDst s e link (cleanWords (valWords 2 (refWord (pcAdd e.t.pc 8)).toNat))
      .next (s1.modThread e.tid fun th => { th with pc := t, prio := prio })

/-- Whether the current thread's guard is poisoned. -/
def guardPoisoned (s : State) (h : Head) : Bool := (s.env? s.cur).any fun e => (predAt e.t h.pg).tok.isSome

/-- The sources of a transfer to a register: none under a poisoned guard, which leaves the transfer without effect (R97). -/
def jumpSrcs (s : State) (h : Head) (tgt : Src) : List SrcReq := if guardPoisoned s h then [] else [{ src := tgt, words := 2 }]

/-- JMPR (R99). -/
def execJmpr (h : Head) (link : Reg) (tgt : Src) (prio : BitVec 5) (s : State) : Out :=
  withSrcs s h 8 (jumpSrcs s h tgt) [{ reg := link, words := 2 }] (fun s1 e vals gtok =>
    match gtok with
    | some tok => noTransfer s1 e 8 link tok
    | none => jumpReg s s1 e link (vals.headD default) prio) (extra := xRegs tgt.reg 2)

/-- RET: JMPR without a link (R100). -/
def execRet (h : Head) (tgt : Src) (prio : BitVec 5) (s : State) : Out :=
  withSrcs s h 8 (jumpSrcs s h tgt) [] (fun s1 e vals gtok =>
    if gtok.isSome then fallThrough s1 e 8 else jumpReg s s1 e (.s .zr) (vals.headD default) prio) (extra := xRegs tgt.reg 2)

/-- YIELD ends the quantum; R92 demotes the thread when it rejoins (R102). -/
def execYield (h : Head) (s : State) : Out :=
  withSrcs s h 8 [] [] fun s e _ gtok => if gtok.isSome then fallThrough s e 8 else endQuantumOut s e (.yield 8)

/-! ## Named barriers (R205) -/

/-- A phase ends: the next one starts with no arrivals, and its waiters need the boundary that closes after its last arrival.
`closed` is the number of boundaries closed so far. -/
def endPhase (b : Barrier) (closed : Nat) : Barrier :=
  { phase := b.phase + 1, cnt := none, arrived := []
    doneAt := (b.doneAt ++ [(b.phase, b.lastAt + 1)]).filter fun d => closed < d.2 }

/-- Ends the phase when its arrivals reach its count: a count of 0 means every live thread of the core group. -/
def settlePhase (live : List Nat) (closed : Nat) (b : Barrier) : Barrier :=
  match b.cnt with
  | none => b
  | some 0 => if live.all fun t => b.arrived.contains t then endPhase b closed else b
  | some (c + 1) => if c + 1 ≤ b.arrived.length then endPhase b closed else b

/-- Checks the barriers of a core group again (R205). -/
def settleBarriers (s : State) (gid closed : Nat) : State :=
  let live := (s.liveOf gid).map (·.1)
  s.modGroup gid fun g => { g with bars := g.bars.map (settlePhase live closed) }

/-- What a thread leaves behind in the rings: its reserved slots are freed, its open slots dropped. -/
def endReservations (s : State) (e : Env) : State :=
  (List.range 16).foldl (fun s q =>
    match tget? s.groups e.t.gid with
    | none => s
    | some g =>
      let p := g.ports.getD q {}
      let s1 := s.modGroup e.t.gid fun g => { g with ports := listMod g.ports q fun p => { p with pops := p.pops.filter fun r => r.tid ≠ e.tid } }
      match p.binding with
      | .ring cgid num =>
        match findRing s1 cgid num with
        | none => s1
        | some (cg, r) =>
          let mine := (p.pops.filter fun x => x.tid = e.tid).map (·.slot)
          putRing s1 cgid cg (advanceHead (r.freed.length + mine.length + 1)
            { r with freed := mine ++ r.freed, reserved := r.reserved.filter (fun x => !mine.contains x)
                     opens := r.opens.filter fun o => o.tid ≠ e.tid })
      | _ => s1) s

/-- The items of captured atomics, which EXIT in a handler discards (R371). -/
def capturedItems (q : List Captive) : List Nat :=
  q.filterMap fun c => match c with
    | .acc a => match a.kind with
      | .atomi _ _ _ _ _ _ i .. => some i
      | _ => none
    | .cstr .. => none

/-- EXIT ends the quantum and the thread; it never parks, and its buffer merges at the boundary (R103, R348, R371). -/
def exitThread (s : State) (e : Env) : State :=
  let s1 := endReservations s e
  let gone := capturedItems e.t.replay
  let s2 := s1.modThread e.tid fun t =>
    { t with status := .exited, ended := true, replay := [], demoted := none, fetched := [], reinject := false
             items := t.items.filter fun i => !gone.contains i.id }
  let s3 := settleBarriers s2 e.t.gid e.quantum
  s3.modInst e.g.iid fun i => { i with nthr := i.nthr + 1, flags := i.flags ||| e.t.flags }

def execExit (h : Head) (s : State) : Out :=
  withSrcs s h 8 [] [] fun s e _ gtok => if gtok.isSome then fallThrough s e 8 else .next (exitThread s e)

/-- PRIO (R104). -/
def execPrio (h : Head) (p : BitVec 5) (s : State) : Out :=
  withSrcs s h 8 [] [] fun s e _ gtok =>
    if gtok.isSome then fallThrough s e 8 else .next (s.setThread e.tid (advance { e.t with prio := p } 8))

/-- The number of a thread register; TRYW watches no other kind (R105). -/
def xNum : Reg → Nat
  | .x n => n
  | _ => 0

/-- TRYW ends the quantum; with a poisoned bound it does not wait (R105). -/
def execTryw (h : Head) (pd : BitVec 3) (watched : Reg) (bound : OpB) (s : State) : Out :=
  withSrcs s h 8 (bound.srcs 1 |>.map fun p => { src := p.1, words := p.2 }) [] (fun s e vals gtok =>
    match gtok with
    | some _ => finishPred s e 8 pd false (resultTok vals gtok)
    | none =>
      match resultTok vals none with
      | some tok => endQuantumOut s { e with t := writePred e.t pd false (some tok) } (.next 8)
      | none =>
        let b := match bound with
          | .imm v => v.toInt.toNat
          | .reg _ => (vals.headD default).v32.toNat
        endQuantumOut s e (.tryw 8 pd (xNum watched) b)) (xRegs watched 1)

/-- TRAP with `sp` = 0: the software trap (R106). -/
def execTrap (h : Head) (code : BitVec 8) (s : State) : Out :=
  withSrcs s h 8 [] [] fun s e _ gtok =>
    if gtok.isSome then fallThrough s e 8
    else .next (raise s e { cause := 13, token := mkToken code.toNat 0 e.t.pc.offset, aux := code.setWidth 32, pcOff := 8 })

/-- TRAP.sp writes a software token (R106). -/
def execTrapSp (h : Head) (w64 : Bool) (dst : Reg) (code : BitVec 8) (s : State) : Out :=
  withSrcs s h 8 [] [{ reg := dst, words := wordsOf w64 }] fun s e _ gtok =>
    finishTok s e 8 dst (wordsOf w64) (gtok.getD (mkToken code.toNat 0 e.t.pc.offset))

/-- The head with which CHK treats its source: `sp` has no effect on it (R108). Under a poisoned guard `sp` does as R82 says.
DEDUCED (log entry 24): so too for FSET and BRK, whose rules (R126, R109) say the same of `sp`. -/
def chkHead (s : State) (h : Head) : Head := if guardPoisoned s h then h else { h with sp := false }

/-- CHK (R108): a poisoned source raises, whatever `sp` is. -/
def execChk (h : Head) (src : ChkSrc) (s : State) : Out :=
  match src with
  | .reg r =>
    withSrcs s (chkHead s h) 8 [{ src := r }] [] fun s1 e vals gtok =>
      if gtok.isSome then fallThrough s1 e 8
      else match resultTok vals none with
        | some tok => .next (raisePoison s e tok 0)
        | none => fallThrough s1 e 8
  | .pred p =>
    withSrcs s h 8 [] [] fun s e _ gtok =>
      if gtok.isSome then fallThrough s e 8
      else match (predAt e.t p).tok with
        | some tok => .next (raisePoison s e tok 0)
        | none => fallThrough s e 8

/-- BRK (R109). Under a poisoned guard with `sp` it falls through by R82, though R109 gives `sp` no effect: DEDUCED, log entry 24. -/
def execBrk (h : Head) (num : BitVec 16) (s : State) : Out :=
  withSrcs s h 8 [] [] fun s e _ gtok =>
    if gtok.isSome then fallThrough s e 8 else .next (raise s e { cause := 12, token := num.setWidth 32 })

end Sys2Proof.Machine
end

