-- ==== Sys2Proof/Machine/Operands.lean ====
section
/-! DEFINITION. Operands.lean: the operand forms of the arithmetic instructions (R28, R137, R143) and the one way in which
such an instruction, or the two slots of a pair, executes: read everything, then write everything (R34, R38, R136). -/

namespace Sys2Proof.Machine

open Sys2Proof

/-! ## Immediates (R28) -/

/-- `imm18` for an integer of a width. -/
def immInt (w : IWidth) (v : BitVec 18) : Nat :=
  match w with
  | .w32 => (v.signExtend 32).toNat
  | .w64 => (v.signExtend 64).toNat
  | .w16x2 => packLanes 16 (List.replicate 2 (v.extractLsb' 0 16).toNat)
  | .w8x4 => packLanes 8 (List.replicate 4 (v.extractLsb' 0 8).toNat)

/-- `imm18` for a float type. -/
def immFloat (t : FTy) (v : BitVec 18) : Nat :=
  match t with
  | .f32 => v.toNat * 2 ^ 14
  | .f64 => v.toNat * 2 ^ 46
  | _ => packLanes 16 (List.replicate 2 (v.extractLsb' 0 16).toNat)

/-! ## Tasks -/

/-- What the result of an arithmetic operation is computed from. -/
structure AluIn where
  vals : List SrcVal
  preds : List Bool
  /-- TMODE.FTZ. -/
  ftz : Bool
  /-- The draw of R75. -/
  draw : Nat

/-- Source `i` as a number of `n` registers. -/
def AluIn.nat (x : AluIn) (i n : Nat) : Nat := (x.vals.getD i default).nat n

/-- The operand B of an operation: the register source that stands after A, or the immediate. -/
def AluIn.opB (x : AluIn) (b : OpB) (n : Nat) (imm : BitVec 18 → Nat) : Nat :=
  match b with
  | .reg _ => x.nat 1 n
  | .imm v => imm v

/-- The result of an operation whose sources carry no token. -/
inductive AluRes where
  | val (v : Nat) (fl : Flags)
  | pred (b : Bool) (fl : Flags)
  /-- A fault that traps under `sp` = 0 and makes a token under `sp` = 1. -/
  | fault (code : Nat)
  /-- A token whatever `sp` is. -/
  | token (code : Nat)

/-- One arithmetic operation as it is to be executed. -/
structure AluTask where
  srcs : List SrcReq
  /-- A source replaced by a constant: a P64 immediate (R34). -/
  subst : Option (Nat × Word) := none
  /-- Source predicates, after the registers in the order of tokens. -/
  preds : List (BitVec 3) := []
  /-- The last source predicate is the selector of `SEL` (R84). -/
  selects : Bool := false
  dst : ADst
  /-- A long-latency producer with its opcode (R123). -/
  long : Option (BitVec 8) := none
  /-- It stands under a shadow unit (R152). -/
  shadowed : Bool := false
  /-- It draws and counts (R76). -/
  draws : Bool := false
  f : AluIn → AluRes

/-- The registers a destination covers. -/
def dstReqs : ADst → List DstReq
  | .reg r n => [{ reg := r, words := n }]
  | _ => []

/-- A round of R75's mix. -/
def mixRound (h : BitVec 64) : BitVec 64 :=
  let a := (h ^^^ (h >>> 31)) * 0xBF58476D1CE4E5B9#64
  a ^^^ (a >>> 29)

/-- R75's 64-bit mix. -/
def cvtsDraw (seed : BitVec 64) (gix n j : Nat) : Nat :=
  let c : BitVec 64 := BitVec.ofNat 64 (n * 64 + j)
  let h0 := seed ^^^ (BitVec.ofNat 64 gix * 0x9E3779B97F4A7C15#64)
  let h1 := h0 ^^^ (c * 0xC2B2AE3D27D4EB4F#64)
  ((mixRound (mixRound (mixRound h1))).extractLsb' 32 32).toNat

/-- How one operation of an instruction came out. -/
inductive AluDone where
  | trap (r : Raise)
  | poison (tok : Word) (aux : Nat)
  | write (tok : Option Word) (v : Nat) (pred : Bool) (fl : Flags)

/-- Runs the shadow check of a computed result (R152): the state with its reports, and the token if the replay disagrees. -/
def shadowCheck (s : State) (e : Env) (shadowed : Bool) : State × Option Word :=
  if !shadowed then (s, none)
  else match takeShadow s.injected with
    | none => (s, none)
    | some (again, rest) =>
      let s1 := { s with injected := rest }
      if again then (reportToken s1 e 0x0A 0 0, some (mkToken 0x0A 0 e.t.pc.offset))
      else (countCorrectable s1 (dieOf e.g.core) 0, none)

/-- The first poisoned source of an instruction, slot after slot: under a poisoned guard every slot's destination takes it
(R82). DEDUCED (log entry 80): R33 makes each slot an instruction of its own and R82 names the sources of the instruction. -/
def firstTok (t : Thread) : List AluTask → List SrcVal → Option Word
  | [], _ => none
  | k :: ks, vals =>
    let n := k.srcs.length
    (((vals.take n).findSome? (·.tok)).or ((k.preds.map (predAt t)).findSome? (·.tok))).or (firstTok t ks (vals.drop n))

/-- Executes one operation on the values read; `gtok`: what a poisoned guard writes (R82); `k` counts the CVTS before it in its instruction. -/
def aluOne (s : State) (e : Env) (sp : Bool) (gtok : Option Word) (k : Nat) (t : AluTask) (vals0 : List SrcVal) : State × AluDone :=
  let vals := match t.subst with
    | some (i, w) => vals0.set i { words := [w], tok := none }
    | none => vals0
  let ps := t.preds.map (predAt e.t)
  let ptok := ps.findSome? (·.tok)
  let sel := if t.selects then (ps.getLast?.bind (·.tok)) else none
  match sel, sp with
  | some tok, false => (s, .poison tok 3)
  | _, _ =>
    match gtok.or ((vals.findSome? (·.tok)).or ptok) with
    | some tok => (s, .write (some tok) 0 false 0)
    | none =>
      let x : AluIn :=
        { vals := vals, preds := ps.map (·.val), ftz := (s.ctx e.cx).ftz
          draw := if t.draws then cvtsDraw (s.ctx e.cx).seed (gixOf e.inst e.g e.t.tix) (e.t.cvts.toNat + k) 0 else 0 }
      match t.f x with
      | .fault c =>
        if sp then (s, .write (some (mkToken c 0 e.t.pc.offset)) 0 false 0)
        else (s, .trap { cause := 9, code := c, token := mkToken c 0 e.t.pc.offset })
      | .token c => (s, .write (some (mkToken c 0 e.t.pc.offset)) 0 false 0)
      | .val v fl =>
        let (s1, tok) := shadowCheck s e t.shadowed
        (s1, if tok.isSome then .write tok 0 false 0 else .write none v false fl)
      | .pred b fl => (s, .write none 0 b fl)

/-- How the result of an operation lands: after a pop from a port it is a long-latency producer too, and its register is pending
until the write-back (R123, R130). DEDUCED (log entry 85): of a pair, only in the slots that pop. -/
def AluTask.landing (t : AluTask) (vals : List SrcVal) : AluTask :=
  match t.long with
  | some _ => t
  | none => if isX t.dst && poppedAny t.srcs vals then { t with long := some 0 } else t
where
  /-- A destination that is a thread register. -/
  isX : ADst → Bool
    | .reg (.x _) _ => true
    | _ => false

/-- Executes operations one after another on the values read; each takes as many values as it has sources. -/
def aluAll (s : State) (e : Env) (sp : Bool) (gtok : Option Word) : Nat → List AluTask → List SrcVal → State × List (AluTask × AluDone)
  | _, [], _ => (s, [])
  | k, t :: ts, vals =>
    let (s1, d) := aluOne s e sp gtok k t (vals.take t.srcs.length)
    let (s2, ds) := aluAll s1 e sp gtok (if t.draws then k + 1 else k) ts (vals.drop t.srcs.length)
    (s2, (if gtok.isSome then t else t.landing (vals.take t.srcs.length), d) :: ds)

/-- The words of a result, with its token. -/
def resultWords (tok : Option Word) (n v : Nat) : List (Word × Bool) :=
  match tok with
  | some w => poisonWords w n
  | none => cleanWords (valWords n v)

/-- Writes predicates of a mask from the bits of a value (R140). -/
def writeMask (t : Thread) (m : BitVec 7) (v : Nat) (tok : Option Word) : Thread :=
  (List.range 7).foldl (fun t i => if m.getLsbD i then writePred t (BitVec.ofNat 3 i) (tok.isNone && v.testBit i) tok else t) t

/-- Writes the destination of one operation. -/
def aluWrite (s : State) (tid : Nat) (sp : Bool) (td : AluTask × AluDone) : State :=
  match td.2, s.env? tid with
  | .write tok v b _, some e =>
    match td.1.dst with
    | .reg r n =>
      match td.1.long with
      | none => writeDst s e r (resultWords tok n v)
      | some op =>
        -- the register is pending until the write-back (R123); `issueAcc` moves on, so it is given no length here
        issueAcc s e 0 op 0 sp (xRegs r n) (.done (resultWords tok n v))
    | .pred p => s.setThread tid (writePred e.t p (tok.isNone && b) tok)
    | .mask m => s.setThread tid (writeMask e.t m v tok)
  | _, _ => s

/-- The flags of the operations, none from one with a poisoned destination (R69). -/
def aluFlags (ds : List (AluTask × AluDone)) : Flags :=
  ds.foldl (fun f d => match d.2 with
    | .write none _ _ fl => f ||| fl
    | _ => f) 0

/-- The first poisoned push among the results (R84). -/
def poisonedPush (ds : List (AluTask × AluDone)) : Option Word :=
  ds.findSome? fun d => match d.1.dst, d.2 with
    | .reg r _, .write tok _ _ _ => if Reg.isQ r then tok else none
    | _, _ => none

/-- A trap among the outcomes, in slot order. -/
def aluTrap (s : State) (e : Env) (ds : List (AluTask × AluDone)) : Option State :=
  ds.findSome? fun d => match d.2 with
    | .trap r => some (raise s e r)
    | .poison tok aux => some (raisePoison s e tok aux)
    | .write .. => none

/-- Executes an instruction made of arithmetic operations: all sources, then all results, all writes, the flags (R34,
R38, R46, R69, R136). A trap leaves the state of before the pops. A CVTS counts under a poisoned guard with `sp` too: DEDUCED (log
entry 22), since R76 speaks of true and false guards only. -/
def runAlu (s : State) (h : Head) (len : Nat) (ts : List AluTask) : Out :=
  withSrcs s h len (ts.flatMap (·.srcs)) (ts.flatMap (fun t => dstReqs t.dst)) fun s1 e vals gtok =>
    let (s2, ds) := aluAll s1 e h.sp (gtok.map fun g => (firstTok e.t ts vals).getD g) 0 ts vals
    match aluTrap s e ds with
    | some t => .next t
    | none =>
      match poisonedPush ds with
      | some tok => .next (raisePoison s e tok 5)
      | none =>
        let s3 := ds.foldl (fun s d => aluWrite s e.tid h.sp d) s2
        let n := (ts.filter (·.draws)).length
        let s4 := s3.modThread e.tid fun t => { advance t len with cvts := t.cvts + BitVec.ofNat 64 n }
        .next (raiseFlags s4 e.tid h.sp (aluFlags ds))

/-- A source with its registers, as a request. -/
def srcReqs (l : List (Src × Nat)) : List SrcReq := l.map fun p => { src := p.1, words := p.2 }

/-- The task of an operation of a shape. -/
def shapeTask (sh : Shape) (f : AluIn → AluRes) : AluTask := { srcs := srcReqs sh.srcs, dst := sh.dst, f := f }

end Sys2Proof.Machine
end

