-- ==== Sys2Proof/Machine/Memory.lean ====
section
/-! DEFINITION. Memory.lean: loads and stores through references, prefetch, reference building, cache maintenance and
invalidation (R156 to R180), but for LEA (Operands.lean) and CSTR (Cross.lean). -/

namespace Sys2Proof.Machine

open Sys2Proof

/-- Physical addresses an access touches. -/
def Acc.span (a : Acc) : Nat × Nat :=
  match a.kind with
  | .load size _ _ pa _ _ _ => (pa, size.bytes)
  | .atomi _ w64 _ _ pa _ _ _ _ => (pa, 4 * wordsOf w64)
  | _ => (0, 0)

/-! ## The outcome of an access (R165) -/

/-- An access on the state after the pops, and what its failure does: a token under `sp`; otherwise a trap or a park, on
the state from before the pops. -/
def accessOr (s0 s : State) (e : Env) (sp : Bool) (ref : Ref) (disp : Int) (size align : Nat) (k : AKind)
    (onTok : State → Env → Word → Out) (go : State → Env → Hit → Out) : Out :=
  match access s e.cl e.cx ref disp size align k with
  | (s1, .ok hit) => go s1 (e.refresh s1) hit
  | (s1, .error m) =>
    if sp then onTok s1 (e.refresh s1) (mkToken (missCode m) 1 e.t.pc.offset)
    else
      let s2 := (access s0 e.cl e.cx ref disp size align k).1
      missOut s2 (e.refresh s2) ref disp k 1 m

/-- Loaded bytes, extended by size (R164). -/
def extendBytes (size : Size) (bs : List Byte) : List Word :=
  let v := leNat bs
  match size with
  | .i8 => [BitVec.ofNat 32 (wrapTo 32 (readInt 8 true v))]
  | .i16 => [BitVec.ofNat 32 (wrapTo 32 (readInt 16 true v))]
  | .n8 | .n16 | .b32 => [BitVec.ofNat 32 v]
  | .b64 => valWords 2 v
  | .b128 => (List.range 4).map fun i => BitVec.ofNat 32 (v / 2 ^ (32 * i))

/-- The bytes that a store of some size takes from its data registers (R164). -/
def storeBytes (size : Size) (ws : List Word) : List Byte := (ws.flatMap fun w => leBytes 4 w.toNat).take size.bytes

/-! ## Loads (R166) -/

/-- A load issues: its own buffered bytes are taken now, the rest when it is performed. -/
def issueLoad (s : State) (e : Env) (len : Nat) (op : BitVec 8) (fmt : BitVec 2) (sp : Bool) (size : Size) (dst : Reg) (ref : Ref)
    (policy : BitVec 2) (hit : Hit) : State :=
  let own := (List.range size.bytes).map fun i => ownByte e.t ref.index (ref.offset.toNat + i)
  let pa := hit.pas.headD 0
  let s1 := issueAcc s e len op fmt sp (xRegs dst size.words) (.load size ref hit.va pa own policy hit.masks)
  askLine s1 e.cx pa s.fresh

/-- LD and LDL. -/
def loadAt (s : State) (h : Head) (len : Nat) (fmt : BitVec 2) (size : Size) (dst : Reg) (base : Src) (disp : Int)
    (policy : BitVec 2) : Out :=
  withSrcs s h len [{ src := base, words := 2 }] [{ reg := dst, words := size.words }] fun s1 e vals gtok =>
    match resultTok vals gtok with
    | some tok => finishTok s1 e len dst size.words tok
    | none =>
      if captiveFull e.t then .next s
      else
        let ref := wordRef (vals.headD default).v64
        accessOr s s1 e h.sp ref disp size.bytes size.bytes kindRead
          (fun s2 e2 tok => finishTok s2 e2 len dst size.words tok)
          (fun s2 e2 hit => .next (issueLoad s2 e2 len 0x60 fmt h.sp size dst (ref.plus disp) policy hit))

/-- LD (R164, R166). -/
def execLd (o : MemO) (s : State) : Out := loadAt s o.h 8 0 o.size o.reg o.base o.disp.toInt o.policy

/-- LDL (R164, R166). -/
def execLdl (o : MemL) (s : State) : Out := loadAt s o.h 12 3 o.size o.reg o.base o.disp.toInt o.policy

/-! ## Stores (R167) -/

/-- A store whose check failed under `sp` writes its token over its data registers, once none of them is lent (R281); only thread
registers can take it. `s0`: the state of before the pops. -/
def tokenOverData (s0 s : State) (e : Env) (len : Nat) (data : Reg) (words : Nat) (tok : Word) : Out :=
  match data with
  | .x n =>
    match (xRegs data words).find? fun r => (regAt e.t r).lent with
    | some r => parkOut s0 e (.pending r)
    | none => .next (s.setThread e.tid (advance (writeRegs e.t n (poisonWords tok words)) len))
  | _ => fallThrough s e len

/-- Appends one plain entry and moves on; the 64th entry ends the quantum (R167, R187). -/
def bufferStore (s : State) (e : Env) (len : Nat) (ref : Ref) (bs : List Byte) (vict : Bool) : Out :=
  .next (s.setThread e.tid (quantumIfFull (advance (appendSb e.t [.plain ref bs vict]) len)))

/-- ST and STL. -/
def storeAt (s : State) (h : Head) (len : Nat) (size : Size) (data : Reg) (base : Src) (disp : Int) (policy : BitVec 2) : Out :=
  withSrcs s h len [{ src := base, words := 2 }, { src := { reg := data, wait := true }, words := size.words }] []
    (fun s1 e vals _ =>
      let r := vals.headD default
      let v := vals.getD 1 default
      match r.tok, v.tok with
      | some tok, _ => .next (raisePoison s e tok 4)
      | none, some tok => .next (raisePoison s e tok 5)
      | none, none =>
        if captiveFull e.t then .next s
        else if bufferFull e.t then endQuantumOut s e .again
        else
          let ref := wordRef r.v64
          accessOr s s1 e h.sp ref disp size.bytes size.bytes kindWrite
            (fun s2 e2 tok => tokenOverData s s2 e2 len data size.words tok)
            (fun s2 e2 _ => bufferStore s2 e2 len (ref.plus disp) (storeBytes size v.words) (policy = 3)))
    [] true

/-- ST (R164, R167). -/
def execSt (o : MemO) (s : State) : Out := storeAt s o.h 8 o.size o.reg o.base o.disp.toInt o.policy

/-- STL (R164, R167). -/
def execStl (o : MemL) (s : State) : Out := storeAt s o.h 12 o.size o.reg o.base o.disp.toInt o.policy

/-! ## Prefetch and reference building (R157, R170, R171) -/

/-- PREF: any failure drops it without trace (R170). -/
def execPref (h : Head) (xlat : Bool) (base : Src) (disp : BitVec 18) (policy : BitVec 2) (_hint : BitVec 5) (s : State) : Out :=
  withSrcs s h 8 [] [] (fun s e _ gtok =>
    if gtok.isSome then fallThrough s e 8
    else match readAll e { h with sp := true } s [{ src := { base with wait := false }, words := 2 }] with
      | .ok (s1, [v]) =>
        if v.tok.isSome then fallThrough s1 (e.refresh s1) 8
        else match access s1 e.cl e.cx (wordRef v.v64) disp.toInt 1 1 kindRead with
          | (s2, .ok hit) =>
            let s3 := if xlat then s2 else touchLine s2 e.cx hit.masks (policy = 3) false (hit.pas.headD 0 / 64)
            fallThrough s3 (e.refresh s3) 8
          | (s2, .error _) => fallThrough s2 (e.refresh s2) 8
      | _ => fallThrough s e 8) (xRegs base.reg 2)

/-- BREF (R157): the index is tested first, then the offset; both tokens whatever `sp` is. -/
def execBref (h : Head) (w64 : Bool) (dst : Reg) (idx : Src) (off : OpB) (s : State) : Out :=
  let n := wordsOf w64
  let srcs : List SrcReq := { src := idx } :: (off.srcs n).map fun p => { src := p.1, words := p.2 }
  withSrcs s h 8 srcs [{ reg := dst, words := 2 }] fun s1 e vals gtok =>
    let out (s1 : State) (ws : List (Word × Bool)) : Out := finishLand s1 e 8 (if gtok.isSome then [] else srcs) vals dst ws s
    match resultTok vals gtok with
    | some tok => out s1 (poisonWords tok 2)
    | none =>
      let i := (vals.headD default).v32.toNat
      let o : Int := match off with
        | .imm v => v.toInt
        | .reg _ => ((vals.getD 1 default).nat n : Int)
      if 2 ^ 24 ≤ i then out s1 (poisonWords (mkToken 0x04 0 e.t.pc.offset) 2)
      else if o < 0 || 2 ^ 40 ≤ o then out s1 (poisonWords (mkToken 0x03 0 e.t.pc.offset) 2)
      else out s1 (cleanWords (valWords 2 (i * 2 ^ 40 + o.toNat)))

/-- The word BQRY gives for an entry (R171). -/
def bqryWord (c : Ctx) (cx : Nat) (raw : Option (BitVec 256)) : Nat :=
  match raw with
  | none => 0
  | some e =>
    let b := bufEntry e
    let u : Bool := if b.shared then c.stags.contains b.owner else b.owner = cx
    (if b.ok then 2 ^ 63 else 0) + (if b.ok && u then 2 ^ 62 else 0) + b.tier * 2 ^ 60 + b.rights.toNat * 2 ^ 52 + b.owner * 2 ^ 40 + b.length

/-- BQRY (R171). It parks until the entry is read, in this step, so what was fetched ahead is discarded (R173). -/
def execBqry (h : Head) (dst : Reg) (base : Src) (s : State) : Out :=
  withSrcs s h 8 [{ src := base, words := 2 }] [{ reg := dst, words := 2 }] fun s1 e vals gtok =>
    match resultTok vals gtok with
    | some tok => finish s1 e 8 dst (poisonWords tok 2) s
    | none =>
      if captiveFull e.t then .next s
      else
        let ref := wordRef (vals.headD default).v64
        match bufferOf s1 e.cl e.cx ref.index.toNat with
        | (s2, .ok raw) =>
          let s3 := s2.modThread e.tid fun t => { t with fetched := [] }
          finish s3 (e.refresh s3) 8 dst (cleanWords (valWords 2 (bqryWord (s2.ctx e.cx) e.cx raw))) s
        | (s2, .error m) =>
          if h.sp then finish s2 (e.refresh s2) 8 dst (poisonWords (mkToken (missCode m) 1 e.t.pc.offset) 2) s
          else
            let s3 := (bufferOf s e.cl e.cx ref.index.toNat).1
            missOut s3 (e.refresh s3) ref 0 kindRead 1 m

/-! ## Cache maintenance (R172, R173) -/

/-- The rights of CFLUSH and IINV (R162). -/
def kindFlush : AKind := { entry := 0x03, anyEntry := true, code := 0 }
def kindIinv : AKind := { entry := 0x04, code := 2 }

/-- Whether a thread's counter stands at 255 at some level (R193). -/
def count255 (t : Thread) : Bool :=
  255 ≤ (t.items.filter (·.cl)).length || 255 ≤ (t.items.filter (·.bay)).length ||
    255 ≤ (t.items.filter (·.die)).length || 255 ≤ (t.items.filter (·.dom)).length

/-- Adds a maintenance item and moves on; a counter at 255 parks (R172, R193). -/
def addMaint (s0 s : State) (e : Env) (m : Maint) : Out :=
  if count255 e.t then parkOut s0 (e.refresh s0) .count255
  else
    let t := { e.t with items := e.t.items ++ [{ id := s.fresh, maint := some m }] }
    .next ({ s with fresh := s.fresh + 1 }.setThread e.tid (advance t 8))

/-- Steps 1 to 4 of R161 for a range, and the virtual lines it overlaps. -/
def maintRange (s0 s : State) (e : Env) (h : Head) (base len : SrcVal) (k : AKind) (mk : Nat → Nat → Maint) : Out :=
  if base.tok.isSome || len.tok.isSome || len.v32 = 0 then fallThrough s e 8
  else
    let ref := wordRef base.v64
    match bufferOf s e.cl e.cx ref.index.toNat with
    | (s1, .error m) =>
      if h.sp then fallThrough s1 (e.refresh s1) 8
      else
        let s2 := (bufferOf s0 e.cl e.cx ref.index.toNat).1
        missOut s2 (e.refresh s2) ref 0 k 1 m
    | (s1, .ok raw) =>
      match checkEntry (s1.ctx e.cx) e.cx raw k ref.offset.toNat len.v32.toNat with
      | .error c => if h.sp then fallThrough s1 (e.refresh s1) 8 else .next (raiseFault s0 (e.refresh s0) c 1)
      | .ok b =>
        let va := b.base + ref.offset.toNat
        addMaint s0 s1 (e.refresh s1) (mk (va / 64) ((va + len.v32.toNat + 63) / 64))

/-- CFLUSH (R172). -/
def execCflush (h : Head) (_inv : Bool) (base len : Src) (s : State) : Out :=
  withSrcs s h 8 [{ src := base, words := 2 }, { src := len }] [] fun s1 e vals gtok =>
    if gtok.isSome then fallThrough s1 e 8
    else maintRange s s1 e h (vals.headD default) (vals.getD 1 default) kindFlush Maint.flush

/-- IINV (R172). -/
def execIinv (h : Head) (reach : Reach) (arg : IinvArg) (s : State) : Out :=
  match arg with
  | .range base len =>
    withSrcs s h 8 [{ src := base, words := 2 }, { src := len }] [] fun s1 e vals gtok =>
      if gtok.isSome then fallThrough s1 e 8
      else maintRange s s1 e h (vals.headD default) (vals.getD 1 default) kindIinv (Maint.icache reach false)
  | .all =>
    withSrcs s h 8 [] [] fun s1 e _ gtok =>
      if gtok.isSome then fallThrough s1 e 8 else addMaint s s1 e (.icache reach true 0 0)

/-- Whether a core lies in the reach of an IINV of a core; DIE and DEV name cores that hold a thread of the context. -/
def inReach (s : State) (cx core : Nat) (r : Reach) (c : Nat) : Bool :=
  let holds : Bool := s.groups.any fun g => g.2.core = c && (match tget? s.insts g.2.iid with
    | some i => i.q.ctx = cx
    | none => false)
  match r with
  | .core => c = core
  | .clu => c / 4 = core / 4
  | .die => c / 256 = core / 256 && holds
  | .dev => holds

/-- A write whose bytes lie in one of some physical lines leaves the L1 of a core. -/
def cleanLines (s : State) (core : Nat) (lines : List Nat) : State :=
  { s with flights := s.flights.map fun f =>
      if f.core = core && f.cells.any (fun c => lines.contains (c.1 / 64)) then { f with inL2 := true } else f }

/-- What a maintenance item does when it completes (R172). -/
def runMaint (s : State) (core cx : Nat) (m : Maint) : State :=
  match m with
  | .flush lo hi =>
    let hit (f : Flight) : Bool := f.core = core && (match f.vline with
      | some (c, l) => c = cx && lo ≤ l && l < hi
      | none => false)
    cleanLines s core ((s.flights.filter hit).flatMap fun f => linesOf (f.cells.map (·.1)))
  | .icache reach all lo hi =>
    { s with cores := tmap (fun c u =>
        if inReach s cx core reach c then
          { u with icache := u.icache.filter fun l => !(l.1.1 = cx && (all || (lo ≤ l.1.2.1 && l.1.2.1 < hi))) }
        else u) s.cores }

/-- CFLUSH_IINV_COMPLETION: a maintenance item of a thread takes effect and leaves every count (R172, R193). -/
def execCflushIinvCompletion (tid item : Nat) (s : State) : Out :=
  match s.env? tid with
  | none => .next s
  | some e =>
    match e.t.items.find? fun i => i.id = item with
    | some { maint := some m, .. } =>
      .next ((runMaint s e.g.core e.cx m).modThread tid fun t => { t with items := t.items.filter fun i => i.id ≠ item })
    | _ => .next s

/-- FETCHB parks until the thread's CFLUSH and IINV items have completed, then fetches anew (R173). -/
def execFetchb (h : Head) (s : State) : Out :=
  withSrcs s h 8 [] [] fun s e _ gtok =>
    if gtok.isSome then fallThrough s e 8
    else
      let ms := (e.t.items.filter (·.maint.isSome)).map (·.id)
      if ms.isEmpty then .next (s.setThread e.tid { advance e.t 8 with fetched := [] })
      else parkOut s e (.maint ms 8)

/-! ## Invalidation (R176, R177, R180) -/

/-- Drops cached translations of a context in every cluster. -/
def dropTlb (s : State) (p : TlbE → Bool) : State :=
  { s with clusters := tmap (fun _ c => { c with tlb := c.tlb.filter fun e => !p e }) s.clusters }

/-- Drops cached buffer-table entries in every cluster. -/
def dropBufs (s : State) (p : Nat × Nat → Bool) : State :=
  { s with clusters := tmap (fun _ c => { c with bufs := c.bufs.filter fun e => !p e.1 }) s.clusters }

/-- Writes of a context leave their L1s (R177). -/
def cleanVirtual (s : State) (cx : Nat) (p : Nat → Bool) : State :=
  { s with flights := s.flights.map fun f =>
      if (match f.vline with | some (c, l) => c = cx && p l | none => false) then { f with inL2 := true } else f }

/-- TLBI moves on; what the thread fetched ahead is discarded, as by the park of R180. -/
def afterTlbi (s : State) (e : Env) : Out := .next (s.modThread e.tid fun t => { advance t 8 with fetched := [] })

/-- TLBI.VA (R180). -/
def execTlbiVa (h : Head) (base len : Src) (s : State) : Out :=
  withSrcs s h 8 [{ src := base, words := 2 }, { src := len }] [] fun s1 e vals gtok =>
    let b := vals.headD default
    let n := (vals.getD 1 default).v32.toNat
    if gtok.isSome || b.tok.isSome || (vals.getD 1 default).tok.isSome || n = 0 then fallThrough s1 e 8
    else
      let ref := wordRef b.v64
      match bufferOf s1 e.cl e.cx ref.index.toNat with
      | (s2, .error m) =>
        if h.sp then fallThrough s2 (e.refresh s2) 8
        else
          let s3 := (bufferOf s e.cl e.cx ref.index.toNat).1
          missOut s3 (e.refresh s3) ref 0 kindRead 1 m
      | (s2, .ok none) => fallThrough s2 (e.refresh s2) 8
      | (s2, .ok (some raw)) =>
        let en := bufEntry raw
        if !en.ok then fallThrough s2 (e.refresh s2) 8
        else
          let lo := en.base + ref.offset.toNat
          let hi := lo + n
          let s3 := dropTlb s2 fun t => t.ctx = e.cx && lo / 4096 ≤ t.vpage && t.vpage * 4096 < hi
          let s4 := cleanVirtual s3 e.cx fun l => lo / 64 ≤ l && l * 64 < hi
          afterTlbi (invalidated s4 e.cx fun w => w.va.any fun a => lo ≤ a && a < hi) e

/-- TLBI.CTX (R180). -/
def execTlbiCtx (h : Head) (s : State) : Out :=
  withSrcs s h 8 [] [] fun s1 e _ gtok =>
    if gtok.isSome then fallThrough s1 e 8
    else
      let s2 := cleanVirtual (dropTlb s1 fun t => t.ctx = e.cx) e.cx fun _ => true
      afterTlbi (invalidated s2 e.cx fun _ => true) e

/-- TLBI.BUF (R180). -/
def execTlbiBuf (h : Head) (idx : Src) (s : State) : Out :=
  withSrcs s h 8 [{ src := idx }] [] fun s1 e vals gtok =>
    let i := vals.headD default
    if gtok.isSome || i.tok.isSome || 2 ^ 24 ≤ i.v32.toNat then fallThrough s1 e 8
    else afterTlbi (dropBufs s1 fun k => k = (e.cx, i.v32.toNat)) e

/-- TLBI.BUFALL (R180). -/
def execTlbiBufall (h : Head) (s : State) : Out :=
  withSrcs s h 8 [] [] fun s1 e _ gtok =>
    if gtok.isSome then fallThrough s1 e 8 else afterTlbi (dropBufs s1 fun k => k.1 = e.cx) e

end Sys2Proof.Machine
end

