-- ==== Sys2Proof/Machine/VaultOps.lean ====
section
/-! DEFINITION. VaultOps.lean: the checks of a vault access (R215, R216), and vault accesses with their errors (R220,
R225), which instructions, engines and Buoys share. -/

namespace Sys2Proof.Machine

open Sys2Proof

/-- Where a vault access lies: cluster, cluster group, offset in its allocation and offset in the vault. -/
structure VHit where
  cl : Nat
  cgid : Nat
  o : Nat
  off : Nat
deriving DecidableEq, Repr, Inhabited

/-- Kinds of vault access (R216 step 4). -/
inductive VMode where
  | read | write | stx
deriving DecidableEq, Repr

/-- The cluster a vault address names from an issuing cluster (R11, R215). -/
def vaultTarget (cl : Nat) (a : Word) : Option Nat :=
  let x : Int := (meshX cl : Int) + (a.extractLsb' 28 4).toInt
  let y : Int := (meshY cl : Int) + (a.extractLsb' 24 4).toInt
  if a.getLsbD 23 || x < 0 || 8 ≤ x || y < 0 || 8 ≤ y then none else some (cl / 64 * 64 + 8 * y.toNat + x.toNat)

/-- Bytes of a ring's region (R239). -/
def ringBytes (r : Ring) : Nat := 64 + 2 ^ r.lg * (4 * slotWords r)

/-- Whether bytes meet a ring region of a group. -/
def meetsRing (cg : ClusterGroup) (o size : Nat) : Bool := cg.rings.any fun r => r.base < o + size && o < r.base + ringBytes r

/-- R216. `align` is the multiple of step 5. -/
def vaultCheck (s : State) (cl iid : Nat) (a : Word) (disp : Int) (size align : Nat) (m : VMode) : Except Nat VHit :=
  match vaultTarget cl a with
  | none => .error 0x04
  | some tc =>
    match s.cgroups.find? fun p => p.2.iid = iid && p.2.cluster = tc && p.2.len ≠ 0 with
    | none => .error 0x02
    | some (cgid, cg) =>
      let o : Int := ((a.extractLsb' 0 23).toNat : Int) + disp
      if o < 0 || (cg.len : Int) < o + size then .error 0x03
      else
        let n := o.toNat
        let inWindow : Bool := match cg.window with
          | some w => w.off ≤ n && n < w.off + w.len
          | none => false
        if (m ≠ .read && meetsRing cg n 1) || (m = .stx && !inWindow) then .error 0x02
        else if n % align ≠ 0 then .error 0x05
        else .ok { cl := tc, cgid := cgid, o := n, off := cg.base + n }

/-- The lines that bytes at an offset touch. -/
def vLines (off size : Nat) : List Nat := (List.range ((off + size + 63) / 64 - off / 64)).map (off / 64 + ·)

/-- The vault of a cluster. -/
def State.vault (s : State) (cl : Nat) : Vault := (s.cluster cl).vault

def State.setVault (s : State) (cl : Nat) (v : Vault) : State := s.setCluster cl { s.cluster cl with vault := v }

/-- Whether every line touched is present; a line of a FAILED group counts as present (R220). -/
def vPresent (v : Vault) (off size : Nat) : Bool := (vLines off size).all fun l => vFailed v l || !v.absent.contains l

/-- The context whose allocation holds an offset of a vault, with its card instance. -/
def vaultOwner (s : State) (cl off : Nat) : Option Nat :=
  match s.cgroups.find? fun p => p.2.cluster = cl && p.2.base ≤ off && off < p.2.base + p.2.len with
  | none => none
  | some p => (tget? s.insts p.2.iid).map fun i => i.q.ctx

/-- Reports a reconstruction fault for the context whose allocation holds the line (R225). -/
def reportVault (s : State) (cl line : Nat) (site : BitVec 24) : State :=
  match vaultOwner s cl (64 * line) with
  | some cx => reportContained s 1 2 cx 0x0C site 0
  | none => s

/-- The site of a thread's instruction, as a token holds it (R78). -/
def siteOf (e : Env) : BitVec 24 := (mkToken 0 0 e.t.pc.offset).extractLsb' 0 20 |>.setWidth 24

/-- Reads bytes of one line: a FAILED group or a reconstruction fault gives 0x0C, a marked line 0x0B (R85, R225, R233). -/
def vaultRead (s : State) (cl off size : Nat) (site : BitVec 24) : State × Except Nat (List Byte) :=
  let v := s.vault cl
  let line := off / 64
  if vFailed v line then (s, .error 0x0C)
  else if v.marks.contains line then (s, .error 0x0B)
  else
    let rebuilt := (rebuilt? v (vHome v line)).isSome && v.bad.contains (vHome v line)
    match vRead v line with
    | (v1, some x) =>
      let s1 := s.setVault cl v1
      (if rebuilt then countCorrectable s1 (cl / 64) 2 else s1, .ok ((List.range size).map fun i => x.extractLsb' (8 * (off % 64 + i)) 8))
    | (v1, none) => (reportVault (s.setVault cl v1) cl line site, .error 0x0C)

/-- A vault's presence park (R220). -/
def presencePark (h : VHit) (size : Nat) : Park := .vault h.cl (h.off / 64) (vLines h.off size).length

/-- A trap or a token of a failed vault check (R216). -/
def vaultFail (s0 s : State) (e : Env) (sp : Bool) (len : Nat) (dst : Reg) (words code : Nat) : Out :=
  if sp then finishTok s e len dst words (mkToken code 2 e.t.pc.offset)
  else .next (raiseFault s0 ((s0.env? e.tid).getD e) code 2)

/-! ## Buoys (R242, R244) -/

/-- The count of a Buoy word. -/
def buoyCount (w : Nat) : Nat := w % 2 ^ 62

/-- A Buoy's word at an offset of a vault; the code of a marked line or FAILED group. -/
def buoyRead (s : State) (cl off : Nat) (site : BitVec 24) : State × Except Nat Nat :=
  match vaultRead s cl off 8 site with
  | (s1, .ok bs) => (s1, .ok (leNat bs))
  | (s1, .error c) => (s1, .error c)

/-- The Buoy a thread is parked on (R206, R242, R246). -/
def parkedBuoy (s : State) (e : Env) : Option (Nat × Nat) :=
  match e.t.status with
  | .parked (.buoyw cl off _) => some (cl, off)
  | .parked (.barxWait _ cl off) => some (cl, off)
  | .parked (.buoyWait _ a) =>
    match vaultCheck s e.cl e.g.iid a 0 8 8 .read with
    | .ok h => some (h.cl, h.off)
    | .error _ => none
  | _ => none

/-- A woken thread runs on after its instruction. -/
def wakeNext (s : State) (tid len : Nat) : State := s.modThread tid fun t => { advance t len with status := .ready }

/-- Ends a thread's wait on a Buoy: with the word, or with the code of a marked line or FAILED group (R244). A push with no
room yet goes on waiting. -/
def endBuoyWait (s : State) (e : Env) (r : Except Nat Nat) : State :=
  match e.t.status with
  | .parked (.buoyw _ _ dst) =>
    let ws := match r with
      | .ok w => cleanWords (valWords 2 w)
      | .error c => poisonWords (mkToken c 2 e.t.pc.offset) 2
    let s1 := match r with
      | .ok _ => s
      | .error c => reportToken s e c 2 0
    if (dstWait s e { reg := dst, words := 2 }).isSome then s
    else wakeNext (writeDst s1 e dst ws) e.tid 8
  | .parked (.barxWait len _ _) | .parked (.buoyWait len _) =>
    match r with
    | .ok _ => wakeNext s e.tid len
    | .error c => raiseFault s e c 2
  | _ => s

/-- Wakes the threads whose Buoy, on a cluster, stands at zero or can no longer be read (R244 to R246). -/
def wakeBuoys (s : State) (cl : Nat) : State :=
  s.threads.foldl (fun s p =>
    match s.env? p.1 with
    | none => s
    | some e =>
      match parkedBuoy s e with
      | some (c, off) =>
        if c ≠ cl || !vPresent (s.vault c) off 8 then s
        else match buoyRead s c off (siteOf e) with
          | (s1, .ok w) => if buoyCount w = 0 then endBuoyWait s1 e (.ok w) else s1
          | (s1, .error k) => endBuoyWait s1 e (.error k)
      | none => s) s

/-! ## Writing -/

/-- Writes bytes, reports the lines that met a reconstruction fault, and wakes who waits on a Buoy among them (R224, R225,
R244). -/
def vaultStore (s : State) (cl off : Nat) (bs : List Byte) (site : BitVec 24) : State :=
  let r := vWrite (s.vault cl) off bs
  wakeBuoys (r.2.foldl (fun s l => reportVault s cl l site) (s.setVault cl r.1)) cl

/-- Writes a Buoy's word. -/
def buoyWrite (s : State) (cl off w : Nat) : State := vaultStore s cl off (leBytes 8 w) 0

/-- Ends every enrolment on a Buoy. -/
def clearEnrol (s : State) (cl off : Nat) : State :=
  let u := s.cluster cl
  s.setCluster cl { u with enrol := u.enrol.filter fun e => e.1 ≠ off }

/-- A window takes the records of its shadow, as one access (R221, R243). -/
def swapWindow (s : State) (cgid : Nat) : State :=
  match (tget? s.cgroups cgid).bind fun cg => cg.window.map fun w => (cg, w) with
  | none => s
  | some (cg, w) =>
    let put (r : Vault × List Nat) (x : ShadowByte) : Vault × List Nat :=
      let (v, f) := vWrite r.1 (cg.base + x.off) [x.val]
      (v, r.2 ++ f)
    let (v, lost) := w.recs.foldl put (s.vault cg.cluster, [])
    let s1 := lost.eraseDups.foldl (fun s l => reportVault s cg.cluster l 0) (s.setVault cg.cluster v)
    s1.setCGroup cgid { cg with window := some { w with recs := [] } }

/-- The windows of some cluster groups are swapped at one instant; then who waits on a Buoy in one of them is looked at (R243). -/
def swapWindows (s : State) (cgids : List Nat) : State :=
  let s1 := cgids.foldl swapWindow s
  (cgids.filterMap fun n => (tget? s.cgroups n).map (·.cluster)).eraseDups.foldl wakeBuoys s1

/-- Counts a Buoy down by `n`, with `U` when it holds fewer and `E` for an error (R244); at zero every enrolment ends. -/
def buoyDown (s : State) (cl off n : Nat) (err : Bool) : State :=
  match buoyRead s cl off 0 with
  | (s1, .error _) => wakeBuoys s1 cl
  | (s1, .ok w) =>
    let c := buoyCount w
    let e := if err || w.testBit 63 then 2 ^ 63 else 0
    let u := if c < n || w.testBit 62 then 2 ^ 62 else 0
    let s2 := if c - n = 0 then clearEnrol s1 cl off else s1
    buoyWrite s2 cl off (e + u + (c - n))

/-- Accepted decrypt copies whose destination holds one of some lines of a vault (R273). -/
def decHolds (s : State) (cl : Nat) (lines : List Nat) : List Nat :=
  s.clusters.flatMap fun u => u.2.copies.filterMap fun c =>
    if !c.blk.dec then none
    else match vaultCheck s u.1 c.iid (c.blk.dst.setWidth 32) 0 c.blk.len 64 .read with
      | .ok h => if h.cl = cl && (vLines h.off c.blk.len).any (fun l => lines.contains l) then some c.id else none
      | .error _ => none

/-! ## Space in a vault (R217, R238, R240) -/

/-- Physical lines that may hold bytes other than zero. -/
def vUsed (v : Vault) : List Nat :=
  let data := v.bytes.map (·.1 / 64)
  let lost := (List.range 8).flatMap fun g =>
    match (vGrp v g).rbank with
    | some b => ((vGrp v g).parity.map (·.1) ++ (vGrp v g).queue.map (·.1) ++ (data.filter fun p => vGroup p = g).map vRow).map fun r => 32 * r + 4 * g + b
    | none => []
  (data ++ lost).eraseDups

/-- Every byte of a range zero, every line present and unmarked (R217, R238). -/
def vClear (v : Vault) (lo hi : Nat) : Vault :=
  let inside (l : Nat) : Bool := lo / 64 ≤ l && l * 64 < hi
  let v1 := (((vUsed v).map (vUnhome v)).filter inside).foldl (fun v l => vaultPoke v (64 * l) (List.replicate 64 0)) v
  { v1 with absent := v1.absent.filter fun l => !inside l, marks := v1.marks.filter fun l => !inside l }

/-- What occupies the scratch of a cluster: allocations, and shadows, with their lengths. Ring regions lie in allocations. -/
def vOccupied (s : State) (cl : Nat) : List (Nat × Nat) :=
  s.cgroups.flatMap fun p =>
    if p.2.cluster ≠ cl then []
    else (if p.2.len = 0 then [] else [(p.2.base, p.2.len)]) ++ (match p.2.window with
      | some w => [(w.shadowAt, w.len)]
      | none => [])

/-- Rounds up to a multiple. -/
def roundUp (n m : Nat) : Nat := (n + m - 1) / m * m

/-- The lowest free place of a length in scratch below a bound, a multiple of `m`. -/
def vPlace (s : State) (cl len m bound : Nat) : Option Nat :=
  let occ := vOccupied s cl
  let ok (a : Nat) : Bool := a + len ≤ bound && occ.all fun r => a + len ≤ r.1 || r.1 + r.2 ≤ a
  let cands := (0 :: occ.map fun r => roundUp (r.1 + r.2) m).filter ok
  match cands with
  | [] => none
  | c :: cs => some (cs.foldl min c)

/-- The grant of a cluster's partition, in 256 KiB units (R218). -/
def grantOf (s : State) (cx : Nat) : Nat := (s.part (s.ctx cx).part).grant

end Sys2Proof.Machine
end

