-- ==== Sys2Proof/Machine/Sync.lean ====
section
/-! DEFINITION. Sync.lean: atomics (R200 to R203), quantum ends (R198, R199) and barriers (R204 to R207, R242). What these
do once their boundary has closed is in Boundary.lean. -/

namespace Sys2Proof.Machine

open Sys2Proof

/-! ## Atomics (R201) -/

/-- The new value of an atomic's memory operand `m`. The operand holds v, or for CAS the expected and the new value. -/
def atomicNew (op : AOp) (w64 : Bool) (m : Nat) (operand : BitVec 128) : Nat :=
  let w := if w64 then 64 else 32
  let v := operand.toNat % 2 ^ w
  match op with
  | .add => (m + v) % 2 ^ w
  | .min => min m v
  | .mins => if readInt w true v < readInt w true m then v else m
  | .max => max m v
  | .maxs => if readInt w true m < readInt w true v then v else m
  | .and => m &&& v
  | .or => m ||| v
  | .xor => m ^^^ v
  | .xchg => v
  | .cas => if m = v then operand.toNat / 2 ^ w % 2 ^ w else m
  | .fadd => (fAdd fmtF32 .rn false (fmtF32.decode m) (fmtF32.decode v)).1
  | .fmin => (fMinMax fmtF32 false m v (fmtF32.decode m) (fmtF32.decode v)).1
  | .fmax => (fMinMax fmtF32 true m v (fmtF32.decode m) (fmtF32.decode v)).1

/-- Operand registers as one value, the low register first. -/
def operandOf (ws : List Word) : BitVec 128 := BitVec.ofNat 128 (leNat (ws.flatMap fun w => leBytes 4 w.toNat))

/-- ATOM defers its operation to the boundary (R202). -/
def execAtom (o : AtomO) (s : State) : Out :=
  let n := wordsOf o.w64
  withSrcs s o.h 8 [{ src := o.base, words := 2 }, { src := o.v, words := o.op.words o.w64 }] [{ reg := o.dst, words := n }]
    fun s1 e vals gtok =>
      match resultTok vals gtok with
      | some tok => finishTok s1 e 8 o.dst n tok
      | none =>
        if captiveFull e.t then .next s
        else if bufferFull e.t then endQuantumOut s ((s.env? e.tid).getD e) .again
        else
          let ref := wordRef (vals.headD default).v64
          accessOr s s1 e o.h.sp ref 0 (4 * n) (4 * n) kindAtomic (fun s2 e2 tok => finishTok s2 e2 8 o.dst n tok)
            (fun s2 e2 _ =>
              let rs := xRegs o.dst n
              let en := SbEntry.atomic ref o.op o.w64 (operandOf (vals.getD 1 default).words) rs.head? e2.t.pc.offset (o.policy = 3)
              let t := rs.foldl (fun t r => setPending t r .atomic) e2.t
              .next (s2.setThread e2.tid (quantumIfFull (advance (appendSb t [en]) 8))))

/-- ATOMI issues: an item of the counter, and an access performed later (R203). -/
def execAtomi (o : AtomO) (s : State) : Out :=
  let n := wordsOf o.w64
  withSrcs s o.h 8 [{ src := o.base, words := 2 }, { src := o.v, words := o.op.words o.w64 }] [{ reg := o.dst, words := n }]
    fun s1 e vals gtok =>
      match resultTok vals gtok with
      | some tok => finishTok s1 e 8 o.dst n tok
      | none =>
        if captiveFull e.t then .next s
        else if count255 e.t then parkOut s ((s.env? e.tid).getD e) .count255
        else
          let ref := wordRef (vals.headD default).v64
          accessOr s s1 e o.h.sp ref 0 (4 * n) (4 * n) kindAtomic (fun s2 e2 tok => finishTok s2 e2 8 o.dst n tok)
            (fun s2 e2 hit =>
              let item := s2.fresh
              let t := { e2.t with items := e2.t.items ++ [{ id := item }] }
              let s3 := { s2 with fresh := s2.fresh + 1 }
              let k := AccKind.atomi o.op o.w64 (operandOf (vals.getD 1 default).words) ref (hit.pas.headD 0) o.scope item o.policy hit.masks
              let s4 := issueAcc s3 { e2 with t := t } 8 0x68 0 o.h.sp (xRegs o.dst n) k
              .next (askLine s4 e2.cx (hit.pas.headD 0) s3.fresh))

/-! ## Ends of a quantum (R198, R199) -/

/-- QEND (R198). -/
def execQend (h : Head) (s : State) : Out :=
  withSrcs s h 8 [] [] fun s e _ gtok => if gtok.isSome then fallThrough s e 8 else endQuantumOut s e (.next 8)

/-- FENCE (R199); the items it waits for are taken when its boundary closes. -/
def execFence (h : Head) (lvl : Level) (s : State) : Out :=
  withSrcs s h 8 [] [] fun s e _ gtok => if gtok.isSome then fallThrough s e 8 else endQuantumOut s e (.fence 8 lvl [])

/-! ## Named barriers (R204, R205, R207) -/

def BarArg.reqs : BarArg → List SrcReq
  | .imm _ _ => []
  | .reg b c => [{ src := b }, { src := c }]

def BarNum.reqs : BarNum → List SrcReq
  | .imm _ => []
  | .reg b => [{ src := b }]

/-- Number and count of an arrival. -/
def BarArg.vals (a : BarArg) (vs : List SrcVal) : Nat × Nat :=
  match a with
  | .imm b c => (b.toNat, c.toNat)
  | .reg _ _ => ((vs.headD default).v32.toNat, (vs.getD 1 default).v32.toNat)

def BarNum.val (a : BarNum) (vs : List SrcVal) : Nat :=
  match a with
  | .imm b => b.toNat
  | .reg _ => (vs.headD default).v32.toNat

/-- The phase in which a thread last arrived on a barrier. -/
def lastPhase (t : Thread) (b : Nat) : Option Nat := (t.barPhases.find? fun p => p.1 = b).map (·.2)

/-- A thread arrives on a barrier (R205): `after` says what follows its boundary. -/
def arriveBar (s0 s : State) (e : Env) (b c : Nat) (after : Nat → After) : Out :=
  let e0 := (s0.env? e.tid).getD e
  match e.g.bars[b]? with
  | none => .next (raise s0 e0 { cause := 4, aux := 12 })
  | some bar =>
    if 2048 < c then .next (raise s0 e0 { cause := 4, aux := 12 })
    else if bar.arrived.contains e.tid then parkOut s0 e0 (.barNext b bar.phase)
    else if bar.cnt.getD c ≠ c then .next (raiseFault s0 e0 0x08 0)
    else
      let live := (s.liveOf e.t.gid).map (·.1)
      let bar1 := settlePhase live e.quantum { bar with cnt := some c, arrived := bar.arrived ++ [e.tid], lastAt := e.quantum }
      let t := { e.t with barPhases := (b, bar.phase) :: e.t.barPhases.filter fun p => p.1 ≠ b }
      let s1 := (s.setThread e.tid (endQuantum t (after bar.phase))).modGroup e.t.gid fun g => { g with bars := g.bars.set b bar1 }
      .next s1

/-- Poison and guards of a barrier instruction (R207). -/
def barrierOut (s : State) (h : Head) (reqs : List SrcReq) (go : State → Env → List SrcVal → Out) : Out :=
  withSrcs s h 8 reqs [] fun s1 e vals gtok =>
    if gtok.isSome then fallThrough s1 e 8
    else match resultTok vals none with
      | some tok => .next (raiseFaultTok s ((s.env? e.tid).getD e) tok)
      | none => go s1 e vals

/-- BARA (R205). -/
def execBara (h : Head) (b : BarArg) (s : State) : Out :=
  barrierOut s h (BarArg.reqs b) fun s1 e vals => arriveBar s s1 e (BarArg.vals b vals).1 (BarArg.vals b vals).2 fun _ => .next 8

/-- BARS: BARA, whose boundary is followed by the quantum that BARW ends (R205, R420). -/
def execBars (h : Head) (b : BarArg) (s : State) : Out :=
  barrierOut s h (BarArg.reqs b) fun s1 e vals =>
    arriveBar s s1 e (BarArg.vals b vals).1 (BarArg.vals b vals).2 fun p => .bars 8 (BarArg.vals b vals).1 p

/-- BARW (R205). -/
def execBarw (h : Head) (b : BarNum) (s : State) : Out :=
  barrierOut s h (BarNum.reqs b) fun s1 e vals =>
    let n := BarNum.val b vals
    if e.g.bars.length ≤ n then .next (raise s ((s.env? e.tid).getD e) { cause := 4, aux := 12 })
    else endQuantumOut s1 e (match lastPhase e.t n with
      | some p => .barw 8 n p
      | none => .next 8)

/-! ## Buoy barriers (R206, R242): their vault accesses come after the boundary -/

/-- BARA.BUOY (R206). -/
def execBaraBuoy (h : Head) (lvl : Level) (a : Src) (s : State) : Out :=
  barrierOut s h [{ src := a }] fun s1 e vals => endQuantumOut s1 e (.buoyArrive 8 lvl (vals.headD default).v32 false [])

/-- BARW.BUOY (R206). -/
def execBarwBuoy (h : Head) (a : Src) (s : State) : Out :=
  barrierOut s h [{ src := a }] fun s1 e vals => endQuantumOut s1 e (.buoyWait 8 (vals.headD default).v32)

/-- BARS.BUOY (R206). -/
def execBarsBuoy (h : Head) (lvl : Level) (a : Src) (s : State) : Out :=
  barrierOut s h [{ src := a }] fun s1 e vals => endQuantumOut s1 e (.buoyArrive 8 lvl (vals.headD default).v32 true [])

/-- BARX (R242). -/
def execBarx (h : Head) (lvl : Level) (a : Src) (s : State) : Out :=
  barrierOut s h [{ src := a }] fun s1 e vals => endQuantumOut s1 e (.barx 8 lvl (vals.headD default).v32 [])

/-! ## Presence -/

/-- Wakes the threads parked on lines of a vault that are all present now (R220, R236). -/
def wakePresent (s : State) (cl : Nat) : State :=
  wakeWhere s fun _ k => match k with
    | .vault c first n => c = cl && (List.range n).all fun i =>
        vFailed (s.vault cl) (first + i) || !(s.vault cl).absent.contains (first + i)
    | _ => false

end Sys2Proof.Machine
end

