-- ==== Sys2Proof/Machine/FloatOps.lean ====
section
/-! DEFINITION. FloatOps.lean: the float entries (R143 to R151), conversions (R74, R149) and stochastic rounding (R75). A
`task…` says what an operation computes; the `exec…` beside it runs it as an instruction of its own. -/

namespace Sys2Proof.Machine

open Sys2Proof

/-! ## Lanes -/

/-- Width of a lane in bits. -/
def ftyBits (t : FTy) : Nat := t.fmt.width

/-- Puts the results of lanes together, clamped where asked (R144), with the OR of their flags (R69). -/
def fltLanes (t : FTy) (clamp : Bool) (f : Nat → Nat × Flags) : AluRes :=
  let rs := (List.range t.lanes).map f
  .val (packLanes (ftyBits t) (rs.map fun r => if clamp then clampBits t.fmt r.1 else r.1)) (flagsOr rs)

/-- Lane `i` of a value, read under FTZ. -/
def fltLane (t : FTy) (ftz : Bool) (v i : Nat) : FVal := t.fmt.read (t.flushes ftz) (laneOf (ftyBits t) v i)

/-- A two-source operation by its function on values: format, rounding, FTZ, operands. -/
def fltBin (o : FltB) (f : Fmt → Rnd → Bool → FVal → FVal → Nat × Flags) : AluTask :=
  { shapeTask o.shape (fun x =>
      let ftz := x.ftz != o.fzo
      let a := x.nat 0 o.ty.words
      let b := x.opB o.b o.ty.words (immFloat o.ty)
      fltLanes o.ty o.clamp fun i => f o.ty.fmt o.rnd (o.ty.flushes ftz) (fltLane o.ty ftz a i) (fltLane o.ty ftz b i)) with
    shadowed := true }

/-- A one-source operation. -/
def fltUn (o : FltU) (f : Fmt → Rnd → Bool → FVal → Nat × Flags) : AluTask :=
  { shapeTask (o.shape o.ty.words false) (fun x =>
      let ftz := x.ftz != o.fzo
      let a := x.nat 0 o.ty.words
      fltLanes o.ty o.clamp fun i => f o.ty.fmt o.rnd (o.ty.flushes ftz) (fltLane o.ty ftz a i)) with
    shadowed := true }

/-- A one-source operation on the bits of each lane, without flags (R66). -/
def fltBits (o : FltU) (f : Fmt → Nat → Nat) : AluTask :=
  { shapeTask (o.shape o.ty.words false) (fun x =>
      let a := x.nat 0 o.ty.words
      fltLanes o.ty false fun i => (f o.ty.fmt (laneOf (ftyBits o.ty) a i), 0)) with
    shadowed := true }

/-- FMIN and FMAX: the operand's own bits, flushed before the comparison (R145). -/
def fltMinMax (o : FltB) (isMax : Bool) : AluTask :=
  { shapeTask o.shape (fun x =>
      let ftz := o.ty.flushes (x.ftz != o.fzo)
      let a := x.nat 0 o.ty.words
      let b := x.opB o.b o.ty.words (immFloat o.ty)
      let f := o.ty.fmt
      let flushed (v : Nat) : Nat := if ftz && f.isSub v then signed f (v.testBit (f.eb + f.mb)) 0 else v
      fltLanes o.ty o.clamp fun i =>
        let va := flushed (laneOf (ftyBits o.ty) a i)
        let vb := flushed (laneOf (ftyBits o.ty) b i)
        fMinMax f isMax va vb (f.decode va) (f.decode vb)) with
    shadowed := true }

/-! ## Comparison and class (R146) -/

/-- A float comparison with its flag. -/
def fcond (c : FCond) (a b : FVal) : Bool × Flags :=
  let un := a.isNan || b.isNan
  let fl := match c with
    | .lt | .le | .gt | .ge => if un then fNV else 0
    | _ => nvOf [a, b]
  -- zeros of either sign are equal
  let norm (v : FVal) : FVal := match v with
    | .num _ 0 _ => .num false 0 0
    | v => v
  let lt := valLt (norm a) (norm b)
  let gt := valLt (norm b) (norm a)
  let r := match c with
    | .eq => !un && !lt && !gt
    | .ne => un || lt || gt
    | .lt => !un && lt
    | .le => !un && !gt
    | .gt => !un && gt
    | .ge => !un && !lt
    | .num => !un
    | .nan => un
  (r, fl)

/-- The class bit of a stored value. -/
def fclassBit (f : Fmt) (v : Nat) : Nat :=
  match f.decode v with
  | .nan s => if s then 0 else 1
  | .inf n => if n then 2 else 9
  | .num n m _ => if m = 0 then (if n then 5 else 6) else if f.isSub v then (if n then 4 else 7) else (if n then 3 else 8)

/-! ## Conversions (R74, R149) -/

/-- The format of a float type code. -/
def ctyFmt : CTy → Option Fmt
  | .f16 => some fmtF16
  | .bf16 => some fmtBf16
  | .f32 => some fmtF32
  | .f64 => some fmtF64
  | .e4m3 => some fmtE4m3
  | .e5m2 => some fmtE5m2
  | .e3m2 => some fmtE3m2
  | .e2m3 => some fmtE2m3
  | .e2m1 => some fmtE2m1
  | _ => none

/-- Width and sign of an integer type code. -/
def ctyInt : CTy → Nat × Bool
  | .i8 => (8, true)
  | .n8 => (8, false)
  | .i16 => (16, true)
  | .n16 => (16, false)
  | .i32 => (32, true)
  | .n32 => (32, false)
  | .i64 => (64, true)
  | _ => (64, false)

/-- FTZ concerns f32 and f64 only (R68). -/
def ctyFlushes (t : CTy) (ftz : Bool) : Bool := (t = .f32 || t = .f64) && ftz

/-- A source read from the low bits of its registers (R149). -/
def cvtIn (t : CTy) (ftz : Bool) (v : Nat) : FVal :=
  match ctyFmt t with
  | some f => f.read (ctyFlushes t ftz) (v % 2 ^ f.width)
  | none =>
    let (w, sgn) := ctyInt t
    let i := readInt w sgn (v % 2 ^ w)
    .num (i < 0) i.natAbs 0

/-- Whether a float target follows R70 at its limit, rather than saturating. -/
def ieeeLimit (t : CTy) (nosat : Bool) : Bool := t = .f64 || t = .f32 || t = .f16 || t = .bf16 || (t = .e5m2 && nosat)

/-- What a finite overflow writes (R74). -/
def overBits (t : CTy) (f : Fmt) (nosat : Bool) (rnd : Rnd) (neg : Bool) : Nat :=
  if ieeeLimit t nosat then f.overflow rnd neg
  else if nosat then f.nan
  else signed f neg f.maxBits

/-- A rounded magnitude delivered in a float type: limits and flags of R74, R68 and R69. -/
def deliver (t : CTy) (f : Fmt) (nosat : Bool) (rnd : Rnd) (ftz : Bool) (r : Rounded) : Nat × Flags :=
  if f.overtops r then (overBits t f nosat rnd r.neg, fOF ||| fNX)
  else
    let v := f.encode r
    let ieee := t = .f64 || t = .f32 || t = .f16 || t = .bf16
    let fl := (if r.lost then fNX else 0) ||| (if ieee && r.lost && r.tiny then fUF else 0)
    if ctyFlushes t ftz && f.isSub v then (signed f r.neg 0, fl ||| fUF ||| fNX) else (v, fl)

/-- NaN and ∞ into a float type (R74). -/
def deliverSpecial (t : CTy) (f : Fmt) (nosat same : Bool) (v : FVal) : Nat × Flags :=
  let ieee := t = .f64 || t = .f32 || t = .f16 || t = .bf16
  match v with
  | .inf n =>
    if ieeeLimit t nosat || same then (signed f n f.inf, 0)
    else if nosat then (f.nan, fNV)
    else (signed f n f.maxBits, fNV)
  | v => (f.nan, if ieee then nvOf [v] else fNV)

/-- The integer a conversion gives, with its flags. -/
def cvtInt (w : Nat) (sgn : Bool) (rnd : Rnd) (v : FVal) : Int × Flags :=
  match v with
  | .nan _ => (0, fNV)
  | .inf n => (if n then intMin w sgn else intMax w sgn, fNV)
  | .num n m e =>
    let (k, lost) := roundAt rnd { neg := n, m := m, e := e } 0
    let i : Int := if n then -(k : Int) else k
    if i < intMin w sgn then (intMin w sgn, fNV)
    else if intMax w sgn < i then (intMax w sgn, fNV)
    else (i, if lost then fNX else 0)

/-- Writes a value in a type: the bits as the destination register holds them, and the flags (R74, R149). -/
def cvtOut (s t : CTy) (rnd : Rnd) (nosat ftz : Bool) (v : FVal) : Nat × Flags :=
  match ctyFmt t with
  | none =>
    let (w, sgn) := ctyInt t
    let (i, fl) := cvtInt w sgn rnd v
    (wrapTo (if w = 64 then 64 else 32) i, fl)
  | some f =>
    match v with
    | .num n m e => deliver t f nosat rnd ftz (f.round rnd { neg := n, m := m, e := e })
    | v => deliverSpecial t f nosat (s = t) v

/-- Stochastic rounding of a finite value with 32 random bits (R75). -/
def stochastic (f : Fmt) (draw : Nat) (n : Bool) (m : Nat) (e : Int) : Rounded :=
  let top := (bitLen m : Int) - 1 + e
  let q := max (top - f.mb) (f.emin - f.mb)
  if q ≤ e then { neg := n, m := m * 2 ^ (e - q).toNat, q := q, lost := false, tiny := false }
  else
    let sh := (q - e).toNat
    let rest := m % 2 ^ sh
    let k := if draw < rest * 2 ^ 32 / 2 ^ sh then m / 2 ^ sh + 1 else m / 2 ^ sh
    { neg := n, m := k, q := q, lost := rest ≠ 0, tiny := k < 2 ^ f.mb && q = f.emin - f.mb }

/-! ## Elements of packed words (R150) -/

/-- The type code of an element type. -/
def ptyCode : PTy → CTy
  | .f16 => .f16
  | .bf16 => .bf16
  | .e4m3 => .e4m3
  | .e5m2 => .e5m2
  | .e2m1 => .e2m1

def ptyFmt : PTy → Fmt
  | .f16 => fmtF16
  | .bf16 => fmtBf16
  | .e4m3 => fmtE4m3
  | .e5m2 => fmtE5m2
  | .e2m1 => fmtE2m1

/-! ## The entries -/

/-- a + b (R144). -/
def taskFadd (o : FltB) : AluTask :=
  fltBin o fAdd

def execFadd (o : FltB) (s : State) : Out := runAlu s o.h 8 [taskFadd o]

/-- a − b (R144). -/
def taskFsub (o : FltB) : AluTask :=
  fltBin o fun f r z a b => fAdd f r z a b.negate

def execFsub (o : FltB) (s : State) : Out := runAlu s o.h 8 [taskFsub o]

/-- a × b (R144). -/
def taskFmul (o : FltB) : AluTask :=
  fltBin o fMul

def execFmul (o : FltB) (s : State) : Out := runAlu s o.h 8 [taskFmul o]

/-- a × b + c, rounded once (R144). -/
def taskFfma (o : FltT) : AluTask :=
  { shapeTask o.shape (fun x =>
      let ftz := x.ftz != o.fzo
      let n := o.ty.words
      fltLanes o.ty o.clamp fun i =>
        fFma o.ty.fmt o.rnd (o.ty.flushes ftz) (fltLane o.ty ftz (x.nat 0 n) i) (fltLane o.ty ftz (x.nat 1 n) i)
          (fltLane o.ty ftz (x.nat 2 n) i)) with
    shadowed := true }

def execFfma (o : FltT) (s : State) : Out := runAlu s o.h 8 [taskFfma o]

/-- The smaller operand (R145). -/
def taskFmin (o : FltB) : AluTask :=
  fltMinMax o false

def execFmin (o : FltB) (s : State) : Out := runAlu s o.h 8 [taskFmin o]

/-- The larger operand (R145). -/
def taskFmax (o : FltB) : AluTask :=
  fltMinMax o true

def execFmax (o : FltB) (s : State) : Out := runAlu s o.h 8 [taskFmax o]

/-- The sign bit inverted (R66). -/
def taskFneg (o : FltU) : AluTask :=
  fltBits o fun f v => v ^^^ f.signBit

def execFneg (o : FltU) (s : State) : Out := runAlu s o.h 8 [taskFneg o]

/-- The sign bit cleared (R66). -/
def taskFabs (o : FltU) : AluTask :=
  fltBits o fun f v => v % f.signBit

def execFabs (o : FltU) (s : State) : Out := runAlu s o.h 8 [taskFabs o]

/-- A comparison (R146). -/
def taskFsetp (ty : FTy) (fzo : Bool) (cond : FCond) (pd : BitVec 3) (a : Src) (b : OpB) : AluTask :=
  let n := ty.words
  shapeTask { srcs := (a, n) :: b.srcs n, dst := .pred pd } fun x =>
    let ftz := x.ftz != fzo
    let r := fcond cond (fltLane ty ftz (x.nat 0 n) 0) (fltLane ty ftz (x.opB b n (immFloat ty)) 0)
    .pred r.1 r.2

def execFsetp (h : Head) (ty : FTy) (fzo : Bool) (cond : FCond) (pd : BitVec 3) (a : Src) (b : OpB) (s : State) : Out := runAlu s h 8 [taskFsetp ty fzo cond pd a b]

/-- The class mask of the stored value (R146). -/
def taskFclass (o : FltU) : AluTask :=
  shapeTask (o.shape 1 false) fun x =>
    let a := x.nat 0 o.ty.words
    .val (packLanes 16 ((List.range o.ty.lanes).map fun i => 2 ^ fclassBit o.ty.fmt (laneOf (ftyBits o.ty) a i))) 0

def execFclass (o : FltU) (s : State) : Out := runAlu s o.h 8 [taskFclass o]

/-- a ÷ b (R147). -/
def taskFdiv (o : FltB) : AluTask :=
  fltBin o fDiv

def execFdiv (o : FltB) (s : State) : Out := runAlu s o.h 8 [taskFdiv o]

/-- √a (R147). -/
def taskFsqrt (o : FltU) : AluTask :=
  fltUn o fSqrt

def execFsqrt (o : FltU) (s : State) : Out := runAlu s o.h 8 [taskFsqrt o]

/-- 1 ÷ a (R147). -/
def taskFrcp (o : FltU) : AluTask :=
  fltUn o fRcp

def execFrcp (o : FltU) (s : State) : Out := runAlu s o.h 8 [taskFrcp o]

/-- 1 ÷ √a (R147). -/
def taskFrsq (o : FltU) : AluTask :=
  fltUn o fRsq

def execFrsq (o : FltU) (s : State) : Out := runAlu s o.h 8 [taskFrsq o]

/-- 2^a (R147). -/
def taskFexp2 (o : FltU) : AluTask :=
  fltUn o fExp2

def execFexp2 (o : FltU) (s : State) : Out := runAlu s o.h 8 [taskFexp2 o]

/-- log2 a (R147). -/
def taskFlog2 (o : FltU) : AluTask :=
  fltUn o fLog2

def execFlog2 (o : FltU) (s : State) : Out := runAlu s o.h 8 [taskFlog2 o]

/-- sin(π × a) (R147). -/
def taskFsin (o : FltU) : AluTask :=
  fltUn o fSin

def execFsin (o : FltU) (s : State) : Out := runAlu s o.h 8 [taskFsin o]

/-- cos(π × a) (R147). -/
def taskFcos (o : FltU) : AluTask :=
  fltUn o fCos

def execFcos (o : FltU) (s : State) : Out := runAlu s o.h 8 [taskFcos o]

/-- tanh a (R147). -/
def taskFtanh (o : FltU) : AluTask :=
  fltUn o fTanh

def execFtanh (o : FltU) (s : State) : Out := runAlu s o.h 8 [taskFtanh o]

/-- a rounded to an integral value (R148). -/
def taskFrnd (o : FltU) : AluTask :=
  fltUn o fun f r _ a => fRnd f r a

def execFrnd (o : FltU) (s : State) : Out := runAlu s o.h 8 [taskFrnd o]

/-- A conversion (R74, R149). -/
def taskCvt (o : CvtO) : AluTask :=
  { shapeTask (o.shape true) (fun x =>
      let ftz := x.ftz != o.fzo
      let r := cvtOut o.sty o.dty o.rnd o.nosat ftz (cvtIn o.sty ftz (x.nat 0 o.sty.words))
      .val r.1 r.2) with
    shadowed := true }

def execCvt (o : CvtO) (s : State) : Out := runAlu s o.h 8 [taskCvt o]

/-- A stochastic conversion (R75, R76, R149). -/
def taskCvts (o : CvtO) : AluTask :=
  { shapeTask (o.shape false) (fun x =>
      let ftz := x.ftz != o.fzo
      let f := (ctyFmt o.dty).getD fmtF32
      let r := match cvtIn o.sty ftz (x.nat 0 o.sty.words) with
        | .num n m e => deliver o.dty f o.nosat .rn ftz (stochastic f x.draw n m e)
        | v => deliverSpecial o.dty f o.nosat false v
      .val r.1 r.2) with
    shadowed := true, draws := true }

def execCvts (o : CvtO) (s : State) : Out := runAlu s o.h 8 [taskCvts o]

/-- Two f32 values packed into elements (R150). -/
def taskPack (o : PackO) : AluTask :=
  { shapeTask { srcs := [(o.a, 1), (o.b, 1)] ++ (o.c.map fun c => (c, 1)).toList, dst := .reg o.dst 1, sfu := true } (fun x =>
      let cv (v : Nat) : Nat × Flags := cvtOut .f32 (ptyCode o.ty) o.rnd o.nosat x.ftz (cvtIn .f32 x.ftz v)
      let ea := cv (x.nat 0 1)
      let eb := cv (x.nat 1 1)
      let w := (ptyFmt o.ty).width
      let field := ea.1 + eb.1 * 2 ^ w
      let lo := 2 * w * o.pos.toNat
      let c := if o.c.isSome then x.nat 2 1 else 0
      .val (c - c / 2 ^ lo % 2 ^ (2 * w) * 2 ^ lo + field * 2 ^ lo) (ea.2 ||| eb.2)) with
    shadowed := true }

def execPack (o : PackO) (s : State) : Out := runAlu s o.h 8 [taskPack o]

/-- One element as an f32, exact (R150). DEDUCED (log entry 86): `TMODE.FTZ` leaves it alone even where it is an f32 subnormal, since
R150 calls it exact and R68 never touches a bf16 value. -/
def taskUnpk (ty : PTy) (dst : Reg) (a : Src) (idx : OpB) : AluTask :=
  { shapeTask { srcs := (a, 1) :: idx.srcs 1, dst := .reg dst 1, sfu := true } (fun x =>
      let f := ptyFmt ty
      let n := 32 / f.width
      let i := x.opB idx 1 (immInt .w32) % n
      let v := f.decode (laneOf f.width (x.nat 0 1) i)
      let r := match v with
        | .num n m e => ((fmtF32.finish .rn false { neg := n, m := m, e := e }).1, (0 : Flags))
        | .inf n => (signed fmtF32 n fmtF32.inf, 0)
        | .nan _ => (fmtF32.nan, nvOf [v])
      .val r.1 r.2) with
    shadowed := true }

def execUnpk (h : Head) (ty : PTy) (dst : Reg) (a : Src) (idx : OpB) (s : State) : Out := runAlu s h 8 [taskUnpk ty dst a idx]

/-- One block of two products and an f32 addend (R151). -/
def taskFdot2 (o : FltT) : AluTask :=
  { shapeTask { srcs := [(o.a, 1), (o.b, 1), (o.c, 1)], dst := .reg o.dst 1 } (fun x =>
      let f := o.ty.fmt
      let ps := (List.range 2).map fun i =>
        mulVal (f.decode (laneOf 16 (x.nat 0 1) i)) (f.decode (laneOf 16 (x.nat 1 1) i))
      let (blk, nv) := blockSum (ps.map (·.1))
      let b := blockRound blk
      let r := fAdd fmtF32 .rn x.ftz (fmtF32.read x.ftz (x.nat 2 1)) (fmtF32.decode b.1)
      .val r.1 (ps.foldl (fun fl p => fl ||| p.2) 0 ||| nv ||| b.2 ||| r.2)) with
    shadowed := true }

def execFdot2 (o : FltT) (s : State) : Out := runAlu s o.h 8 [taskFdot2 o]

/-- a × 2^b, with b an i32 (R144). -/
def taskFscl (o : FltB) : AluTask :=
  { shapeTask { srcs := (o.a, o.ty.words) :: o.b.srcs 1, dst := .reg o.dst o.ty.words } (fun x =>
      let ftz := x.ftz != o.fzo
      let a := x.nat 0 o.ty.words
      fltLanes o.ty o.clamp fun i =>
        fScl o.ty.fmt o.rnd (o.ty.flushes ftz) (fltLane o.ty ftz a i) (readInt 32 true (x.nat 1 1))) with
    shadowed := true }

def execFscl (o : FltB) (s : State) : Out := runAlu s o.h 8 [taskFscl o]

/-- 2^(a − b), rounded once (R151). -/
def taskFexpn (o : FltB) : AluTask :=
  fltBin o fExpn

def execFexpn (o : FltB) (s : State) : Out := runAlu s o.h 8 [taskFexpn o]

end Sys2Proof.Machine
end

