-- ==== Sys2Proof/Machine/Integer.lean ====
section
/-! DEFINITION. Integer.lean: the integer entries (R137 to R142), the bitwise selectors and predicate moves (R140), and
`LEA` (R156). A `task…` says what an operation computes; the `exec…` beside it runs it as an instruction of its own. -/

namespace Sys2Proof.Machine

open Sys2Proof

/-! ## Lanes -/

/-- Applies a lane function to the lanes of one value. -/
def lanes1 (w : IWidth) (f : Nat → Nat) (a : Nat) : Nat :=
  packLanes w.bitsOf ((List.range w.lanes).map fun i => f (laneOf w.bitsOf a i))

/-- Applies a lane function to the matching lanes of two values. -/
def lanes2 (w : IWidth) (f : Nat → Nat → Nat) (a b : Nat) : Nat :=
  packLanes w.bitsOf ((List.range w.lanes).map fun i => f (laneOf w.bitsOf a i) (laneOf w.bitsOf b i))

/-- Applies a lane function to the matching lanes of three values. -/
def lanes3 (w : IWidth) (f : Nat → Nat → Nat → Nat) (a b c : Nat) : Nat :=
  packLanes w.bitsOf ((List.range w.lanes).map fun i => f (laneOf w.bitsOf a i) (laneOf w.bitsOf b i) (laneOf w.bitsOf c i))

/-- A two-source operation by its lane function. -/
def intBin (o : IntB) (f : Nat → Nat → Nat) : AluTask :=
  shapeTask o.shape fun x => .val (lanes2 o.w f (x.nat 0 o.w.words) (x.opB o.b o.w.words (immInt o.w))) 0

/-- A three-source operation by its lane function. -/
def intTri (o : IntT) (f : Nat → Nat → Nat → Nat) : AluTask :=
  shapeTask o.shape fun x => .val (lanes3 o.w f (x.nat 0 o.w.words) (x.nat 1 o.w.words) (x.nat 2 o.w.words)) 0

/-- A one-source operation by its lane function; `dw` registers of destination. -/
def intUn (o : IntU) (dw : Nat) (f : Nat → Nat) : AluTask :=
  shapeTask (o.shape dw) fun x => .val (lanes1 o.w f (x.nat 0 o.w.words)) 0

/-- An exact value of two lanes read under `sgn`, finished (R138). -/
def intArith (o : IntB) (f : Int → Int → Int) : AluTask :=
  let w := o.w.bitsOf
  intBin o fun a b => intFinish w o.sgn o.sat (f (readInt w o.sgn a) (readInt w o.sgn b))

/-! ## Exact values (R138, R139) -/

/-- Count of 1 bits. -/
def popCount (w v : Nat) : Nat := ((List.range w).filter fun i => v.testBit i).length

/-- Bits reversed. -/
def bitReverse (w v : Nat) : Nat := (List.range w).foldl (fun r i => if v.testBit i then r + 2 ^ (w - 1 - i) else r) 0

/-- A logical shift left of a lane. -/
def shlLane (w a b : Nat) : Nat := if w ≤ b then 0 else a * 2 ^ b % 2 ^ w

/-- A logical shift right. -/
def shrLane (w a b : Nat) : Nat := if w ≤ b then 0 else a / 2 ^ b

/-- An arithmetic shift right. -/
def sarLane (w a b : Nat) : Nat := wrapTo w (readInt w true a / 2 ^ (min b w))

/-- A rotation to the left. -/
def rotLane (w a b : Nat) : Nat :=
  let k := b % w
  (a * 2 ^ k + a / 2 ^ (w - k)) % 2 ^ w

/-- Bits [min(pos + len, w) − 1 : pos] of a, with sign extension (R140). -/
def bfxBits (w : Nat) (sgn : Bool) (a pos len : Nat) : Nat :=
  if len = 0 || w ≤ pos then 0
  else
    let n := min (pos + len) w - pos
    wrapTo w (readInt n sgn (a / 2 ^ pos % 2 ^ n))

/-- The field of a replaced by the low bits of b (R140). -/
def bfiBits (w a b c : Nat) : Nat :=
  let pos := c % 256
  let len := c / 256 % 256
  if len = 0 || w ≤ pos then a
  else
    let n := min (pos + len) w - pos
    a - a / 2 ^ pos % 2 ^ n * 2 ^ pos + b % 2 ^ n * 2 ^ pos

/-- A comparison (R137). -/
def icond (c : ICond) (a b : Int) : Bool :=
  match c with
  | .eq => a = b
  | .ne => a ≠ b
  | .lt => a < b
  | .le => a ≤ b
  | .gt => b < a
  | .ge => b ≤ a

/-- A bit of an 8-entry table at {a, b, c} (R140). -/
def table8 (t : BitVec 8) (a b c : Bool) : Bool := t.getLsbD (4 * a.toNat + 2 * b.toNat + c.toNat)

/-- A quotient or remainder, with the faults of R139. -/
def divTask (o : IntB) (op : BitVec 8) (f : Int → Int → Int) : AluTask :=
  let w := o.w.bitsOf
  { shapeTask o.shape (fun x =>
      let a := x.nat 0 o.w.words
      let b := x.opB o.b o.w.words (immInt o.w)
      if b = 0 then .fault 0x06
      else .val (intFinish w o.sgn o.sat (f (readInt w o.sgn a) (readInt w o.sgn b))) 0) with
    long := if o.w = .w64 then some op else none }

/-- The width of a two-way operation. -/
def scalarW (w64 : Bool) : IWidth := if w64 then .w64 else .w32

/-- A dot product of lanes with one addend, saturated once (R77, R141). -/
def dotTask (o : IntT) (w n : Nat) : AluTask :=
  shapeTask o.shape fun x =>
    let a := x.nat 0 1
    let b := x.nat 1 1
    let t := (List.range n).foldl (fun t i => t + readInt w o.sgn (laneOf w a i) * readInt w o.sgn (laneOf w b i))
      (readInt 32 o.sgn (x.nat 2 1))
    .val (intFinish 32 o.sgn o.sat t) 0

/-! ## The entries -/

/-- a + b (R138). -/
def taskIadd (o : IntB) : AluTask :=
  intArith o fun a b => a + b

def execIadd (o : IntB) (s : State) : Out := runAlu s o.h 8 [taskIadd o]

/-- a − b (R138). -/
def taskIsub (o : IntB) : AluTask :=
  intArith o fun a b => a - b

def execIsub (o : IntB) (s : State) : Out := runAlu s o.h 8 [taskIsub o]

/-- a × b (R138). -/
def taskImul (o : IntB) : AluTask :=
  intArith o fun a b => a * b

def execImul (o : IntB) (s : State) : Out := runAlu s o.h 8 [taskImul o]

/-- The high half of a × b (R138). -/
def taskImulh (o : IntB) : AluTask :=
  let w := o.w.bitsOf
  intBin o fun a b => wrapTo w (readInt w o.sgn a * readInt w o.sgn b / 2 ^ w)

def execImulh (o : IntB) (s : State) : Out := runAlu s o.h 8 [taskImulh o]

/-- a × b + c, exact (R138). -/
def taskImad (o : IntT) : AluTask :=
  let w := o.w.bitsOf
  intTri o fun a b c => intFinish w o.sgn o.sat (readInt w o.sgn a * readInt w o.sgn b + readInt w o.sgn c)

def execImad (o : IntT) (s : State) : Out := runAlu s o.h 8 [taskImad o]

/-- The quotient, towards zero (R139). -/
def taskIdiv (o : IntB) : AluTask :=
  divTask o 0x15 fun a b => a.tdiv b

def execIdiv (o : IntB) (s : State) : Out := runAlu s o.h 8 [taskIdiv o]

/-- The remainder, with the sign of a (R139). -/
def taskIrem (o : IntB) : AluTask :=
  divTask o 0x16 fun a b => a - a.tdiv b * b

def execIrem (o : IntB) (s : State) : Out := runAlu s o.h 8 [taskIrem o]

/-- The smaller lane (R138). -/
def taskImin (o : IntB) : AluTask :=
  let w := o.w.bitsOf
  intBin o fun a b => if readInt w o.sgn b < readInt w o.sgn a then b else a

def execImin (o : IntB) (s : State) : Out := runAlu s o.h 8 [taskImin o]

/-- The larger lane (R138). -/
def taskImax (o : IntB) : AluTask :=
  let w := o.w.bitsOf
  intBin o fun a b => if readInt w o.sgn a < readInt w o.sgn b then b else a

def execImax (o : IntB) (s : State) : Out := runAlu s o.h 8 [taskImax o]

/-- |a|, under signed bounds (R138). -/
def taskIabs (o : IntU) : AluTask :=
  let w := o.w.bitsOf
  intUn o o.w.words fun a => intFinish w true o.sat (readInt w true a).natAbs

def execIabs (o : IntU) (s : State) : Out := runAlu s o.h 8 [taskIabs o]

/-- Bitwise and (R138). -/
def taskIand (o : IntB) : AluTask :=
  intBin o fun a b => a &&& b

def execIand (o : IntB) (s : State) : Out := runAlu s o.h 8 [taskIand o]

/-- Bitwise or (R138). -/
def taskIor (o : IntB) : AluTask :=
  intBin o fun a b => a ||| b

def execIor (o : IntB) (s : State) : Out := runAlu s o.h 8 [taskIor o]

/-- Bitwise exclusive or (R138). -/
def taskIxor (o : IntB) : AluTask :=
  intBin o fun a b => a ^^^ b

def execIxor (o : IntB) (s : State) : Out := runAlu s o.h 8 [taskIxor o]

/-- a table of the bits of a, b and c (R140). -/
def taskLut3 (table : BitVec 8) (dst : Reg) (a b c : Src) : AluTask :=
  shapeTask { srcs := [(a, 1), (b, 1), (c, 1)], dst := .reg dst 1 } fun x =>
    .val ((List.range 32).foldl (fun r i =>
      if table8 table ((x.nat 0 1).testBit i) ((x.nat 1 1).testBit i) ((x.nat 2 1).testBit i) then r + 2 ^ i else r) 0) 0

def execLut3 (h : Head) (table : BitVec 8) (dst : Reg) (a b c : Src) (s : State) : Out := runAlu s h 8 [taskLut3 table dst a b c]

/-- a × 2^b (R138). -/
def taskShl (o : IntB) : AluTask :=
  intBin o (shlLane o.w.bitsOf)

def execShl (o : IntB) (s : State) : Out := runAlu s o.h 8 [taskShl o]

/-- a ÷ 2^b, a natural (R138). -/
def taskShr (o : IntB) : AluTask :=
  intBin o (shrLane o.w.bitsOf)

def execShr (o : IntB) (s : State) : Out := runAlu s o.h 8 [taskShr o]

/-- a ÷ 2^b, a signed (R138). -/
def taskSar (o : IntB) : AluTask :=
  intBin o (sarLane o.w.bitsOf)

def execSar (o : IntB) (s : State) : Out := runAlu s o.h 8 [taskSar o]

/-- a rotated left (R138). -/
def taskRot (o : IntB) : AluTask :=
  intBin o (rotLane o.w.bitsOf)

def execRot (o : IntB) (s : State) : Out := runAlu s o.h 8 [taskRot o]

/-- a field of a (R140). -/
def taskBfx (w64 sgn : Bool) (dst : Reg) (a : Src) (f : BfxField) : AluTask :=
  let n := wordsOf w64
  let fs := match f with
    | .regs p l => [(p, n), (l, n)]
    | .imm _ _ => []
  shapeTask { srcs := (a, n) :: fs, dst := .reg dst n } fun x =>
    let (p, l) := match f with
      | .regs _ _ => (x.nat 1 n % 256, x.nat 2 n % 256)
      | .imm p l => (p.toNat, l.toNat)
    .val (bfxBits (32 * n) sgn (x.nat 0 n) p l) 0

def execBfx (h : Head) (w64 sgn : Bool) (dst : Reg) (a : Src) (f : BfxField) (s : State) : Out := runAlu s h 8 [taskBfx w64 sgn dst a f]

/-- a with a field replaced (R140). -/
def taskBfi (o : IntT) : AluTask :=
  intTri o (bfiBits o.w.bitsOf)

def execBfi (o : IntT) (s : State) : Out := runAlu s o.h 8 [taskBfi o]

/-- The count of 1 bits (R138). -/
def taskPopc (o : IntU) : AluTask :=
  intUn o 1 (popCount o.w.bitsOf)

def execPopc (o : IntU) (s : State) : Out := runAlu s o.h 8 [taskPopc o]

/-- The count of leading 0 bits (R138). -/
def taskClz (o : IntU) : AluTask :=
  intUn o 1 fun a => o.w.bitsOf - bitLen a

def execClz (o : IntU) (s : State) : Out := runAlu s o.h 8 [taskClz o]

/-- The bits reversed (R138). -/
def taskBrev (o : IntU) : AluTask :=
  intUn o o.w.words (bitReverse o.w.bitsOf)

def execBrev (o : IntU) (s : State) : Out := runAlu s o.h 8 [taskBrev o]

/-- a comparison (R140). -/
def taskIsetp (w64 sgn : Bool) (cond : ICond) (pd : BitVec 3) (a : Src) (b : OpB) : AluTask :=
  let n := wordsOf w64
  shapeTask { srcs := (a, n) :: b.srcs n, dst := .pred pd } fun x =>
    .pred (icond cond (readInt (32 * n) sgn (x.nat 0 n)) (readInt (32 * n) sgn (x.opB b n (immInt (scalarW w64))))) 0

def execIsetp (h : Head) (w64 sgn : Bool) (cond : ICond) (pd : BitVec 3) (a : Src) (b : OpB) (s : State) : Out := runAlu s h 8 [taskIsetp w64 sgn cond pd a b]

/-- a selection by a predicate (R140). -/
def taskSel (w64 : Bool) (dst : Reg) (p : BitVec 3) (neg : Bool) (a : Src) (b : OpB) : AluTask :=
  let n := wordsOf w64
  { shapeTask { srcs := (a, n) :: b.srcs n, dst := .reg dst n } (fun x =>
      .val (if x.preds.headD false != neg then x.nat 0 n else x.opB b n (immInt (scalarW w64))) 0) with
    preds := [p], selects := true }

def execSel (h : Head) (w64 : Bool) (dst : Reg) (p : BitVec 3) (neg : Bool) (a : Src) (b : OpB) (s : State) : Out := runAlu s h 8 [taskSel w64 dst p neg a b]

/-- a reference moved; no index and no length is looked at (R156). -/
def taskLea (dst : Reg) (base : Src) (disp : LeaDisp) : AluTask :=
  let ds := match disp with
    | .imm _ => []
    | .reg s w64 _ _ => [(s, wordsOf w64)]
  shapeTask { srcs := (base, 2) :: ds, dst := .reg dst 2 } fun x =>
    let ref := x.nat 0 2
    let d : Int := match disp with
      | .imm v => v.toInt
      | .reg _ w64 sgn sh => readInt (32 * wordsOf w64) sgn (x.nat 1 (wordsOf w64)) * 2 ^ sh.toNat
    let o : Int := (ref % 2 ^ 40 : Nat) + d
    if o < 0 || 2 ^ 40 ≤ o then .token 0x03 else .val (ref / 2 ^ 40 * 2 ^ 40 + o.toNat) 0

def execLea (h : Head) (dst : Reg) (base : Src) (disp : LeaDisp) (s : State) : Out := runAlu s h 8 [taskLea dst base disp]

/-- A, or the immediate (R138). -/
def taskMov (w64 : Bool) (dst : Reg) (a : OpB) : AluTask :=
  let n := wordsOf w64
  shapeTask { srcs := a.srcs n, dst := .reg dst n } fun x =>
    .val (match a with
      | .reg _ => x.nat 0 n
      | .imm v => immInt (scalarW w64) v) 0

def execMov (h : Head) (w64 : Bool) (dst : Reg) (a : OpB) (s : State) : Out := runAlu s h 8 [taskMov w64 dst a]

/-- a table of three predicates (R140). -/
def taskPlop (table : BitVec 8) (pd pa pb pc : BitVec 3) : AluTask :=
  { shapeTask { srcs := [], dst := .pred pd } (fun x =>
      .pred (table8 table (x.preds.getD 0 false) (x.preds.getD 1 false) (x.preds.getD 2 false)) 0) with
    preds := [pa, pb, pc] }

def execPlop (h : Head) (table : BitVec 8) (pd pa pb pc : BitVec 3) (s : State) : Out := runAlu s h 8 [taskPlop table pd pa pb pc]

/-- Four 8-bit products and an addend (R141). -/
def taskIdot4 (o : IntT) : AluTask :=
  dotTask o 8 4

def execIdot4 (o : IntT) (s : State) : Out := runAlu s o.h 8 [taskIdot4 o]

/-- Two 16-bit products and an addend (R141). -/
def taskIdot2 (o : IntT) : AluTask :=
  dotTask o 16 2

def execIdot2 (o : IntT) (s : State) : Out := runAlu s o.h 8 [taskIdot2 o]

/-- The predicates in a register (R140). -/
def taskMovpRead (dst : Reg) : AluTask :=
  { shapeTask { srcs := [], dst := .reg dst 1 } (fun x =>
      .val ((List.range 7).foldl (fun r i => if x.preds.getD i false then r + 2 ^ i else r) 0) 0) with
    preds := [0, 1, 2, 3, 4, 5, 6] }

def execMovpRead (h : Head) (dst : Reg) (s : State) : Out := runAlu s h 8 [taskMovpRead dst]

/-- The predicates a mask names, from a register (R140). -/
def taskMovpWrite (mask : BitVec 7) (a : Src) : AluTask :=
  shapeTask { srcs := [(a, 1)], dst := .mask mask } fun x => .val (x.nat 0 1) 0

def execMovpWrite (h : Head) (mask : BitVec 7) (a : Src) (s : State) : Out := runAlu s h 8 [taskMovpWrite mask a]

/-- a long immediate (R142). -/
def taskMovl (form : BitVec 2) (dst : Reg) (imm : BitVec 32) : AluTask :=
  shapeTask { srcs := [], dst := .reg dst (if form = 0 then 1 else 2) } fun _ =>
    .val (if form = 0 then imm.toNat else if form = 1 then (imm.signExtend 64).toNat else imm.toNat * 2 ^ 32) 0

def execMovl (h : Head) (form : BitVec 2) (dst : Reg) (imm : BitVec 32) (s : State) : Out := runAlu s h 12 [taskMovl form dst imm]

/-- a plus a long immediate (R142). -/
def taskIaddl (w64 sgn sat : Bool) (dst : Reg) (a : Src) (imm : BitVec 32) : AluTask :=
  let n := wordsOf w64
  shapeTask { srcs := [(a, n)], dst := .reg dst n } fun x =>
    let b := if w64 then (imm.signExtend 64).toNat else imm.toNat
    .val (intFinish (32 * n) sgn sat (readInt (32 * n) sgn (x.nat 0 n) + readInt (32 * n) sgn b)) 0

def execIaddl (h : Head) (w64 sgn sat : Bool) (dst : Reg) (a : Src) (imm : BitVec 32) (s : State) : Out := runAlu s h 12 [taskIaddl w64 sgn sat dst a imm]

/-- a comparison with a long immediate (R142). -/
def taskIsetpl (w64 sgn : Bool) (cond : ICond) (pd : BitVec 3) (a : Src) (imm : BitVec 32) : AluTask :=
  let n := wordsOf w64
  shapeTask { srcs := [(a, n)], dst := .pred pd } fun x =>
    let b := if w64 then (imm.signExtend 64).toNat else imm.toNat
    .pred (icond cond (readInt (32 * n) sgn (x.nat 0 n)) (readInt (32 * n) sgn b)) 0

def execIsetpl (h : Head) (w64 sgn : Bool) (cond : ICond) (pd : BitVec 3) (a : Src) (imm : BitVec 32) (s : State) : Out := runAlu s h 12 [taskIsetpl w64 sgn cond pd a imm]

end Sys2Proof.Machine
end

