-- ==== Sys2Proof/Machine/Cross.lean ====
section
/-! DEFINITION. Cross.lean: the cross-thread instructions (R110 to R121): arrival at a rendezvous, its resolution, and what
each instruction gives the members that execute together, CSTR among them (R169). -/

namespace Sys2Proof.Machine

open Sys2Proof

/-! ## Members -/

/-- A thread's place in its mate set. -/
def mixOf (t : Thread) : Nat := t.tix % 64

def mateOf (t : Thread) : Nat := t.tix / 64

/-- The thread of a mate set with a `mix`. -/
def mateAt (s : State) (gid mate mix : Nat) : Option (Nat × Thread) :=
  s.threads.find? fun p => p.2.gid = gid && mateOf p.2 = mate && mixOf p.2 = mix

/-- How often a thread has arrived at an offset of a code buffer (R111). -/
def arrivalsAt (t : Thread) (idx : BitVec 24) (off : BitVec 40) : Nat :=
  ((t.arrivals.find? fun a => a.1 = (idx, off)).map (·.2)).getD 0

/-- Counts an arrival. -/
def countArrival (t : Thread) (idx : BitVec 24) (off : BitVec 40) : Thread :=
  { t with arrivals := ((idx, off), arrivalsAt t idx off + 1) :: t.arrivals.filter fun a => a.1 ≠ (idx, off) }

/-- The members a mask names: bits of a nonzero mask, else every thread of the mate set that has not exited (R110). -/
def membersOf (s : State) (a : Arrival) (gid : Nat) : List Nat :=
  if a.mask = 0 then (List.range 64).filter fun m => match mateAt s gid a.mate m with
    | some (_, t) => t.status ≠ .exited
    | none => false
  else (List.range 64).filter fun m => a.mask.getLsbD m

/-- Whether two arrivals are at one instruction with one number. -/
def sameMeet (a b : Arrival) : Bool := a.mate = b.mate && a.index = b.index && a.off = b.off && a.num = b.num

/-- How a member stands towards an arrival. -/
inductive Meet where
  | matching | broken | awaited
deriving DecidableEq, Repr

/-- A member's standing: the rows of R111's table. DESIGN CHOICE (log entry 82): masks are compared as captured, so that an implicit
mask and an explicit one that names the same members are different masks. -/
def standing (s : State) (gid : Nat) (rdv : List Arrival) (a : Arrival) (mix : Nat) : Meet :=
  match rdv.find? fun b => sameMeet a b && b.mix = mix with
  | some b =>
    if b.again then
      (match tget? s.threads b.tid with
        | some t => if t.status = .exited then .broken else .awaited
        | none => .broken)
    else if b.maskTok.isNone && b.mask = a.mask then .matching else .broken
  | none =>
    match mateAt s gid a.mate mix with
    | none => .broken
    | some (_, t) => if t.status = .exited && arrivalsAt t a.index a.off < a.num then .broken else .awaited

/-! ## Folds (R119) -/

/-- The fold operations on values, with their flags. -/
def foldOp (op : ROp) (ftz : Bool) (a b : Nat) : Nat × Flags :=
  let mm (isMax : Bool) : Nat × Flags :=
    let fl (v : Nat) : Nat := if ftz && fmtF32.isSub v then signed fmtF32 (v.testBit 31) 0 else v
    fMinMax fmtF32 isMax (fl a) (fl b) (fmtF32.decode (fl a)) (fmtF32.decode (fl b))
  match op with
  | .add => ((a + b) % 2 ^ 32, 0)
  | .add64 => ((a + b) % 2 ^ 64, 0)
  | .mins => (if readInt 32 true b < readInt 32 true a then b else a, 0)
  | .min => (min a b, 0)
  | .maxs => (if readInt 32 true a < readInt 32 true b then b else a, 0)
  | .max => (max a b, 0)
  | .and => (a &&& b, 0)
  | .or => (a ||| b, 0)
  | .xor => (a ^^^ b, 0)
  | .fadd => fAdd fmtF32 .rn ftz (fmtF32.read ftz a) (fmtF32.read ftz b)
  | .fmin => mm false
  | .fmax => mm true

/-- The identity of a fold. -/
def foldId : ROp → Nat
  | .mins => 0x7FFFFFFF
  | .min => 0xFFFFFFFF
  | .maxs => 0x80000000
  | .and => 0xFFFFFFFF
  | .fadd => 0x80000000
  | .fmin => 0x7F800000
  | .fmax => 0xFF800000
  | _ => 0

/-- Registers of a fold's values. -/
def foldWords (op : ROp) : Nat := if op = .add64 then 2 else 1

/-- The fold of values in order, from the identity. -/
def foldAll (op : ROp) (ftz : Bool) (vs : List Nat) : Nat × Flags :=
  vs.foldl (fun r v => let (x, f) := foldOp op ftz r.1 v; (x, r.2 ||| f)) (foldId op, 0)

/-! ## Results (R115 to R121) -/

/-- What a member gets: a value or a token, in registers or in a predicate. -/
inductive XRes where
  | reg (r : Reg) (n : Nat) (v : Nat) (tok : Option Word)
  | pred (p : BitVec 3) (v : Bool) (tok : Option Word)

/-- The lowest-`mix` token among values. -/
def firstTokOf (l : List Arrival) (f : Arrival → Option Word) : Option Word := l.findSome? f

/-- A member's own token: its value, then its C source or predicate (R81, R112). -/
def ownTok (a : Arrival) : Option Word := a.aTok.or a.cTok

/-- The flags of a whole float chain, up to the first poisoned value. -/
def chainFlags (op : ROp) (ftz : Bool) (act : List Arrival) : Flags :=
  (foldAll op ftz ((act.takeWhile fun b => b.aTok.isNone).map fun b => b.a.toNat)).2

/-- The result of the member of rank `i` among the active members `act`, in ascending `mix`. -/
def xtResult (ftz : Bool) (act : List Arrival) (i : Nat) (a : Arrival) : Option (XRes × Flags) :=
  let site := a.off
  let take (j : Option Arrival) (own : Arrival) : Nat × Option Word := match j with
    | some b => (b.a.toNat, b.aTok)
    | none => (own.a.toNat, own.aTok)
  let give (o : XtO) (vt : Nat × Option Word) : Option (XRes × Flags) :=
    some (.reg o.dst (wordsOf o.w64) vt.1 ((ownTok a).or vt.2), 0)
  match a.i with
  | .vote _ form _ _ =>
    let tok := (ownTok a).or (firstTokOf act (·.aTok))
    let bits : List Bool := act.map fun b => b.a ≠ 0
    match form with
    | .all pd => some (.pred pd (bits.all id) tok, 0)
    | .any pd => some (.pred pd (bits.any id) tok, 0)
    | .eq pd => some (.pred pd (bits.all id || !bits.any id) tok, 0)
    | .bal d => some (.reg d 2 (act.foldl (fun r b => if b.a ≠ 0 then r + 2 ^ b.mix else r) 0) tok, 0)
  | .shfl o _ => give o (take (act.find? fun b => b.mix = a.c.toNat % 64) a)
  | .slup o _ =>
    let d := a.c.toNat % 2 ^ 32
    give o (if d ≤ i then take act[i - d]? a else take none a)
  | .sldn o _ => give o (take act[i + a.c.toNat % 2 ^ 32]? a)
  | .cmpr o _ =>
    let ptok := firstTokOf act (·.cTok)
    let k := act.filter fun b => b.c ≠ 0
    let (v, t) := match k[i]? with
      | some b => (b.a.toNat, b.aTok)
      | none => (0, none)
    give o (v, ptok.or t)
  | .expd o _ =>
    let ptok := firstTokOf act (·.cTok)
    let j := ((act.take i).filter fun b => b.c ≠ 0).length
    let (v, t) := if a.c ≠ 0 then take act[j]? a else (0, none)
    give o (v, ptok.or t)
  | .redc _ op dst _ _ =>
    let tok := (ownTok a).or (firstTokOf act (·.aTok))
    let r := foldAll op ftz (act.map fun b => b.a.toNat)
    some (.reg dst (foldWords op) r.1 tok, chainFlags op ftz act)
  | .scan _ op excl dst _ _ =>
    let part := act.take (if excl then i else i + 1)
    let tok := (ownTok a).or (firstTokOf part (·.aTok))
    some (.reg dst (foldWords op) (foldAll op ftz (part.map fun b => b.a.toNat)).1 tok, chainFlags op ftz act)
  | .xmatch o =>
    let m := act.foldl (fun r b => if b.aTok.isNone && b.a = a.a then r + 2 ^ b.mix else r) 0
    some (.reg o.dst 2 m (ownTok a), 0)
  | .unif o =>
    let tok := (ownTok a).or (firstTokOf act (·.aTok))
    let same := act.all fun b => b.a = a.a
    some (.reg o.dst (wordsOf o.w64) a.a.toNat (tok.or (if same then none else some (mkToken 0x08 0 site))), 0)
  | _ => none

/-- The destination of a cross-thread instruction, poisoned with a token. -/
def xtTok (i : Instr) (tok : Word) : Option XRes :=
  match i with
  | .vote _ form _ _ => match form with
    | .all pd | .any pd | .eq pd => some (.pred pd false (some tok))
    | .bal d => some (.reg d 2 0 (some tok))
  | .shfl o _ | .slup o _ | .sldn o _ | .cmpr o _ | .expd o _ | .unif o => some (.reg o.dst (wordsOf o.w64) 0 (some tok))
  | .xmatch o => some (.reg o.dst 2 0 (some tok))
  | .redc _ op dst _ _ | .scan _ op _ dst _ _ => some (.reg dst (foldWords op) 0 (some tok))
  | .cstr o => some (.reg o.cnt 1 0 (some tok))
  | _ => none

/-- The head of an instruction that arrives. -/
def xtSp (i : Instr) : Bool :=
  match i with
  | .vote h .. => h.sp
  | .shfl o _ | .slup o _ | .sldn o _ | .cmpr o _ | .expd o _ | .unif o | .xmatch o => o.h.sp
  | .redc h .. | .scan h .. => h.sp
  | .cstr o => o.h.sp
  | _ => false

/-- Moves a member on: to the next instruction, or to the next entry that RETT re-injects (R111, R372). -/
def settleMember (t : Thread) : Thread :=
  if t.reinject then { t with status := .ready, replay := t.replay.drop 1 } else { advance t 8 with status := .ready }

/-- Writes a member's result, and moves it on (R111, R112). -/
def xtDeliver (s : State) (tid : Nat) (sp : Bool) (r : Option (XRes × Flags)) : State :=
  match s.env? tid with
  | none => s
  | some e =>
    let s1 := match r with
      | some (.reg d n v tok, _) => writeDst s e d (resultWords tok n v)
      | some (.pred p v tok, _) => s.setThread tid (writePred e.t p (tok.isNone && v) tok)
      | none => s
    let s2 := s1.modThread tid settleMember
    match r with
    | some (.reg _ _ _ none, fl) => if fl = 0 then s2 else raiseFlags s2 tid sp fl
    | _ => s2

/-! ## CSTR (R169) -/

/-- Why a CSTR stops at a rank. -/
inductive CstrStop where
  | poison (tok : Word) (aux : Nat)
  | fault (code unit : Nat)
  | wait (m : Miss)

/-- Stores the kept elements from rank `i` on, each into its own thread's buffer. -/
def cstrLoop (cl cx size : Nat) (ref : Ref) : List Arrival → Nat → State → State × Nat × Option CstrStop
  | [], i, s => (s, i, none)
  | b :: bs, i, s =>
    match b.cTok with
    | some tok => (s, i, some (.poison tok 5))
    | none =>
      match access s cl cx ref ((i * size : Nat) : Int) size size kindWrite with
      | (s1, .error (.fault c)) => (s1, i, some (.fault c 1))
      | (s1, .error m) => (s1, i, some (.wait m))
      | (s1, .ok _) =>
        cstrLoop cl cx size ref bs (i + 1)
          (s1.modThread b.tid fun t => appendSb t [.plain (ref.plus ((i * size : Nat) : Int)) (leBytes size b.c.toNat) false])

/-- The replay entry of a member. -/
def cstrEntry (o : CstrO) (b : Arrival) (i : Nat) : Captive :=
  .cstr o b.index b.off b.num i b.a b.aTok b.c b.cTok b.keep b.keepTok

/-- A member traps with its restart entry, before whatever RETT has still to re-inject (R169, R369, R372). -/
def cstrTrap (o : CstrO) (i : Nat) (st : CstrStop) (s : State) (b : Arrival) : State :=
  match s.env? b.tid with
  | none => s
  | some e =>
    let extra := cstrEntry o b i :: (if e.t.reinject then e.t.replay.drop 1 else [])
    let pcOff := if e.t.reinject then 0 else 8
    match st with
    | .poison tok aux => raisePoison s e tok (aux * 2 ^ 16 + i) pcOff extra
    | .fault c u => raise s e { cause := 9, code := c, token := mkToken c u b.off, aux := BitVec.ofNat 32 i, pcOff := pcOff, extra := extra }
    | .wait _ => s

/-- A member parks; it will rendezvous again from rank `i`. -/
def cstrPark (ref : Ref) (disp : Int) (m : Miss) (s : State) (b : Arrival) : State :=
  match s.env? b.tid with
  | none => s
  | some e => match missOut s e ref disp kindWrite 1 m with
    | .next s1 => s1
    | _ => s

/-- Marks the members that will rendezvous again, with their rank. -/
def cstrAgain (s : State) (gid i : Nat) (act : List Arrival) : State :=
  let mark := fun (a : Arrival) =>
    if act.any (fun b => sameMeet a b && a.tid = b.tid) then { a with again := true, start := i, done := true } else a
  s.modGroup gid fun g => { g with rdv := g.rdv.map mark }

/-- Writes every active count and moves the members on. -/
def cstrCounts (s : State) (sp : Bool) (o : CstrO) (act : List Arrival) (n : Nat) (tok : Option Word) : State :=
  act.foldl (fun s b => (xtDeliver s b.tid sp (some (.reg o.cnt 1 n tok, 0))).modThread b.tid quantumIfFull) s

/-- CSTR for the active members of a set (R169). -/
def cstrRun (s : State) (gid : Nat) (act : List Arrival) : State :=
  match act with
  | [] => s
  | b0 :: _ =>
    match b0.i, s.env? b0.tid with
    | .cstr o, some e =>
      let sp := o.h.sp
      let stopAll (s : State) (i : Nat) (st : CstrStop) : State := act.foldl (cstrTrap o i st) (cstrAgain s gid i act)
      match act.findSome? (·.aTok) with
      | some tok => stopAll s 0 (.poison tok 4)
      | none =>
        if act.any (fun b => b.a ≠ b0.a) then
          (if sp then cstrCounts s sp o act 0 (some (mkToken 0x08 0 b0.off)) else stopAll s 0 (.fault 0x08 0))
        else match act.findSome? (·.keepTok) with
        | some tok => stopAll s 0 (.poison tok 3)
        | none =>
          let k := act.filter (·.keep)
          let size := 4 * wordsOf o.w64
          match cstrLoop e.cl e.cx size (wordRef b0.a) (k.drop b0.start) b0.start s with
          | (s1, _, none) => cstrCounts s1 sp o act k.length none
          | (s1, i, some (.poison tok aux)) => stopAll s1 i (.poison tok aux)
          | (s1, i, some st) =>
            if sp then cstrCounts s1 sp o act i none
            else match st with
              | .wait m => act.foldl (cstrPark (wordRef b0.a) ((i * size : Nat) : Int) m) (cstrAgain s1 gid i act)
              | st => stopAll s1 i st
    | _, _ => s

/-! ## Resolution (R111) -/

/-- Marks arrivals as resolved. -/
def markDone (s : State) (gid : Nat) (p : Arrival → Bool) : State :=
  s.modGroup gid fun g => { g with rdv := g.rdv.map fun a => if p a then { a with done := true } else a }

/-- Drops what no member compares against any more: meets at which every live mate has arrived and been resolved. -/
def pruneArrivals (s : State) (gid : Nat) : State :=
  s.modGroup gid fun g =>
    { g with rdv := g.rdv.filter fun a =>
        (g.rdv.any fun b => sameMeet a b && (!b.done || b.again)) ||
        (s.liveOf gid).any fun p => mateOf p.2 = a.mate && arrivalsAt p.2 a.index a.off < a.num }

/-- Resolves one arrival if a row of R111's table does. -/
def resolveOne (s : State) (gid : Nat) (a : Arrival) : State :=
  match tget? s.groups gid with
  | none => s
  | some g =>
    let ms := membersOf s a gid
    let st := ms.map (standing s gid g.rdv a)
    if st.any (· = .broken) then
      let s1 := markDone s gid fun b => sameMeet a b && b.tid = a.tid
      xtDeliver s1 a.tid (xtSp a.i)
        (if a.active then (xtTok a.i (mkToken 0x09 0 a.off)).map (·, 0) else none)
    else if st.all (· = .matching) then
      let set := ms.filterMap fun m => g.rdv.find? fun b => sameMeet a b && b.mix = m
      let act := set.filter (·.active)
      let ftz := match s.env? a.tid with
        | some e => (s.ctx e.cx).ftz
        | none => false
      let s1 := markDone s gid fun b => sameMeet a b && set.any fun c => c.tid = b.tid
      let isCstr : Bool := match a.i with
        | .cstr _ => true
        | _ => false
      if isCstr then
        cstrRun (set.foldl (fun s b => if b.done || b.active then s else xtDeliver s b.tid (xtSp b.i) none) s1) gid act
      else
      (List.range set.length).foldl (fun s k =>
        match set[k]? with
        | none => s
        | some b =>
          if b.done then s
          else if b.active then
            let i := (act.takeWhile fun c => c.mix ≠ b.mix).length
            xtDeliver s b.tid (xtSp b.i) (xtResult ftz act i b)
          else xtDeliver s b.tid (xtSp b.i) none) s1
    else s

/-- Resolves what can be resolved at the meets of a core group: one pass over the arrivals that still wait. -/
def resolveMeets (s : State) (gid : Nat) : State :=
  match tget? s.groups gid with
  | none => s
  | some g =>
    let s1 := g.rdv.foldl (fun s a =>
      match (tget? s.groups gid).bind fun g => g.rdv.find? fun b => sameMeet a b && b.tid = a.tid with
      | some b => if b.done then s else resolveOne s gid b
      | none => s) s
    pruneArrivals s1 gid

/-! ## Arrival -/

/-- The captured parts of an arrival. -/
structure Captured where
  active : Bool
  keep : Bool := true
  keepTok : Option Word := none
  mask : SrcVal
  a : SrcVal := { words := [], tok := none }
  c : SrcVal := { words := [], tok := none }

/-- A predicate as a captured value. -/
def predVal (t : Thread) (p : BitVec 3) : SrcVal :=
  { words := [if (predAt t p).val then 1 else 0], tok := (predAt t p).tok }

/-- A thread arrives (R111), unless its mask lacks its own bit (R110) or is poisoned (R112). -/
def arrive (s : State) (e : Env) (i : Instr) (sp : Bool) (c : Captured) : Out :=
  let mix := mixOf e.t
  let m := c.mask.v64
  if c.mask.tok.isNone && m ≠ 0 && !m.getLsbD mix then
    if sp then .next (xtDeliver s e.tid sp (if c.active then (xtTok i (mkToken 0x09 0 e.t.pc.offset)).map (·, 0) else none))
    else .next (raise s e { cause := 15 })
  else
    let t1 := countArrival e.t e.t.pc.index e.t.pc.offset
    let num := arrivalsAt t1 e.t.pc.index e.t.pc.offset
    let a : Arrival :=
      { tid := e.tid, mix := mix, mate := mateOf e.t, index := e.t.pc.index, off := e.t.pc.offset, num := num, i := i
        active := c.active, mask := m, maskTok := c.mask.tok, a := c.a.v64, aTok := c.a.tok, c := c.c.v64, cTok := c.c.tok
        keep := c.keep, keepTok := c.keepTok, done := c.mask.tok.isSome }
    let s1 := (s.setThread e.tid (parkThread t1 (.rendezvous e.t.pc.offset num))).modGroup e.t.gid fun g => { g with rdv := g.rdv ++ [a] }
    let s2 := match c.mask.tok with
      | some tok => xtDeliver s1 e.tid sp (if c.active then (xtTok i tok).map (·, 0) else none)
      | none => s1
    .next (resolveMeets s2 e.t.gid)

/-- The common frame of the rendezvous instructions: guard, sources, arrival. `pa` and `pc` are captured predicates. DESIGN CHOICE (log
entry 82): a thread whose guard is poisoned under `sp` makes no arrival, neither active nor inactive, since R111 names only true and
false guards; and an inactive member whose mask register lies at or above n reads it as 0 without a trap, since R43 speaks of
executed instructions and R111 gives only R46's choices. -/
def rendezvous (s : State) (i : Instr) (h : Head) (a : Option SrcReq) (pa : Option (BitVec 3)) (mask : Src)
    (c : Option SrcReq) (pc : Option (BitVec 3)) (dsts : List DstReq) : Out :=
  match s.env? s.cur with
  | none => .fault .noThread
  | some e =>
    let mreq : SrcReq := { src := mask, words := 2 }
    if (predAt e.t h.pg).tok.isNone && !guardVal e.t h then
      -- an inactive member reads its mask only (R111)
      match emptyCheck e h mreq with
      | some p => prepOut s e 8 p
      | none => arrive s e i h.sp { active := false, mask := readSrc s e mreq }
    else
      withSrcs s h 8 (a.toList ++ [mreq] ++ c.toList) dsts fun s1 e vals gtok =>
        let va := match a with
          | some _ => vals.headD default
          | none => (pa.map (predVal e.t)).getD { words := [], tok := none }
        let vm := vals.getD a.toList.length default
        let vc := match c with
          | some _ => vals.getD (a.toList.length + 1) default
          | none => (pc.map (predVal e.t)).getD { words := [], tok := none }
        match gtok with
        | some g => .next (xtDeliver s1 e.tid h.sp ((xtTok i ((va.tok.or (vm.tok.or vc.tok)).getD g)).map (·, 0)))
        | none => arrive s1 e i h.sp { active := true, mask := vm, a := va, c := vc }

/-- A member of a CSTR that rendezvouses again, with its captured or newly read operands (R169). -/
def arriveAgain (s : State) (e : Env) (b : Arrival) (ref : SrcVal) (data : SrcVal) (keep : Bool) (keepTok : Option Word) : State :=
  let s1 := (s.setThread e.tid (parkThread e.t (.rendezvous b.off b.num))).modGroup e.t.gid fun g =>
    { g with rdv := g.rdv.map fun a =>
        if sameMeet a b && a.tid = b.tid then
          { a with again := false, done := false, a := ref.v64, aTok := ref.tok, c := data.v64, cTok := data.tok, keep := keep, keepTok := keepTok }
        else a }
  resolveMeets s1 e.t.gid

/-- The arrival of a thread that has still to rendezvous again at its program counter. -/
def againAt (e : Env) : Option Arrival :=
  e.g.rdv.find? fun a => a.tid = e.tid && a.again && a.index = e.t.pc.index && a.off = e.t.pc.offset

/-! ## The entries (R114) -/

/-- VOTE (R115). -/
def execVote (h : Head) (form : VoteForm) (p : BitVec 3) (mask : Src) (s : State) : Out :=
  rendezvous s (.vote h form p mask) h none (some p) mask none none (match form with
    | .bal d => [{ reg := d, words := 2 }]
    | _ => [])

/-- The value source and destination of an `XtO`. -/
def xtSrc (o : XtO) : SrcReq := { src := o.a, words := wordsOf o.w64 }

def xtDst (o : XtO) : List DstReq := [{ reg := o.dst, words := wordsOf o.w64 }]

/-- SHFL (R116). -/
def execShfl (o : XtO) (idx : Src) (s : State) : Out :=
  rendezvous s (.shfl o idx) o.h (some (xtSrc o)) none o.mask (some { src := idx }) none (xtDst o)

/-- SLUP (R118). -/
def execSlup (o : XtO) (dist : Src) (s : State) : Out :=
  rendezvous s (.slup o dist) o.h (some (xtSrc o)) none o.mask (some { src := dist }) none (xtDst o)

/-- SLDN (R118). -/
def execSldn (o : XtO) (dist : Src) (s : State) : Out :=
  rendezvous s (.sldn o dist) o.h (some (xtSrc o)) none o.mask (some { src := dist }) none (xtDst o)

/-- CMPR (R118). -/
def execCmpr (o : XtO) (p : BitVec 3) (s : State) : Out :=
  rendezvous s (.cmpr o p) o.h (some (xtSrc o)) none o.mask none (some p) (xtDst o)

/-- EXPD (R118). -/
def execExpd (o : XtO) (p : BitVec 3) (s : State) : Out :=
  rendezvous s (.expd o p) o.h (some (xtSrc o)) none o.mask none (some p) (xtDst o)

/-- REDC (R119). -/
def execRedc (h : Head) (op : ROp) (dst : Reg) (a mask : Src) (s : State) : Out :=
  rendezvous s (.redc h op dst a mask) h (some { src := a, words := foldWords op }) none mask none none [{ reg := dst, words := foldWords op }]

/-- SCAN (R119). -/
def execScan (h : Head) (op : ROp) (excl : Bool) (dst : Reg) (a mask : Src) (s : State) : Out :=
  rendezvous s (.scan h op excl dst a mask) h (some { src := a, words := foldWords op }) none mask none none
    [{ reg := dst, words := foldWords op }]

/-- MATCH (R120). -/
def execXmatch (o : XtO) (s : State) : Out :=
  rendezvous s (.xmatch o) o.h (some (xtSrc o)) none o.mask none none [{ reg := o.dst, words := 2 }]

/-- UNIF (R121). -/
def execUnif (o : XtO) (s : State) : Out := rendezvous s (.unif o) o.h (some (xtSrc o)) none o.mask none none (xtDst o)

/-- SHFL.GIVE writes a register of another thread of the mate set, at once (R117, R125). DESIGN CHOICE (log entry 84): the POISON that
R117 raises for a poisoned thread index counts as a raise, though R84's table does not list it. -/
def execShflGive (h : Head) (w64 : Bool) (dst : Reg) (a : Src) (tgt : Src) (s : State) : Out :=
  withSrcs s h 8 [{ src := a, words := wordsOf w64 }, { src := tgt }] [] (fun s1 e vals gtok =>
    let v := vals.headD default
    let t := vals.getD 1 default
    if gtok.isSome then fallThrough s1 e 8
    else match t.tok, h.sp with
      | some tok, false => .next (raisePoison s e tok 2)
      | some _, true => fallThrough s1 e 8
      | none, _ =>
        match mateAt s1 e.t.gid (mateOf e.t) (t.v32.toNat % 64), dst with
        | some (tid, th), .x n =>
          if th.status = .exited then fallThrough s1 e 8
          else
            match (xRegs dst (wordsOf w64)).find? fun r => (regAt th r).lent || (regAt th r).pend ≠ .no with
            | some r => parkOut s e (.give tid r)
            | none =>
              let ws := match v.tok with
                | some tok => poisonWords tok (wordsOf w64)
                | none => cleanWords (v.words.take (wordsOf w64))
              let s2 := s1.modThread tid fun x => writeRegs x n ws
              .next (s2.modThread e.tid fun x => advance x 8)
        | _, _ => fallThrough s1 e 8) (xRegs dst (wordsOf w64))

/-- CSTR: a rendezvous whose set stores its kept elements one after another (R169). A poisoned guard raises (R82). -/
def execCstr (o : CstrO) (s : State) : Out :=
  let n := wordsOf o.w64
  let keepOf (e : Env) : Bool := (predAt e.t o.keep).val != o.neg
  match s.env? s.cur with
  | none => .fault .noThread
  | some e =>
    let mreq : SrcReq := { src := o.mask, words := 2 }
    if captiveFull e.t then .next s
    else if bufferFull e.t && (predAt e.t o.h.pg).tok.isNone && guardVal e.t o.h && (againAt e).isNone then endQuantumOut s e .again
    else if (predAt e.t o.h.pg).tok.isNone && !guardVal e.t o.h then
      match emptyCheck e o.h mreq with
      | some p => prepOut s e 8 p
      | none => arrive s e (.cstr o) o.h.sp { active := false, mask := readSrc s e mreq }
    else
      withSrcs s o.h 8 [{ src := o.base, words := 2 }, mreq, { src := { o.data with wait := true }, words := n }]
        [{ reg := o.cnt, words := 1 }] (fun s1 e vals _ =>
          let ref := vals.headD default
          let data := vals.getD 2 default
          match againAt e with
          | some b => .next (arriveAgain s1 e b ref data (keepOf e) (predAt e.t o.keep).tok)
          | none =>
            arrive s1 e (.cstr o) o.h.sp
              { active := true, keep := keepOf e, keepTok := (predAt e.t o.keep).tok, mask := vals.getD 1 default, a := ref, c := data })
        [] true

end Sys2Proof.Machine
end

