-- ==== Sys2Proof/Machine/Traps.lean ====
section
/-! DEFINITION. Traps.lean: the return from a trap with the re-injection of the replay queue (R372), and Foghorn's trap
(R94). Taking a trap is `raise` in Ops.lean. -/

namespace Sys2Proof.Machine

open Sys2Proof

/-- RETT (R372): priority, mode and program counter are restored; the replay queue is re-injected, oldest first, by the
thread's next turns. -/
def execRett (h : Head) (s : State) : Out :=
  withSrcs s h 8 [] [] fun s e _ gtok =>
    if gtok.isSome then fallThrough s e 8
    else .next (s.setThread e.tid
      { e.t with prio := e.t.tfcause.extractLsb' 16 5, handler := false, pc := wordRef e.t.tfpc, reinject := e.t.replay ≠ [] })

/-- A register's held mark ends: its instruction is under way again. -/
def unhold (t : Thread) (n : Nat) : Thread := setReg t n { regAt t n with held := false, pend := .other, full := false }

/-- Takes the head of the replay queue away. -/
def dropReplay (t : Thread) : Thread := { t with replay := t.replay.drop 1, reinject := 2 ≤ t.replay.length }

/-- A captured access performs its checks afresh and is under way again, or ends in a token, a trap or a park. -/
def reinjectAcc (s : State) (e : Env) (a : Acc) (ref : Ref) (size : Nat) (k : AKind) (mk : Hit → AccKind) : Out :=
  match access s e.cl e.cx ref 0 size size k with
  | (s1, .ok hit) =>
    let e1 := e.refresh s1
    let t := dropReplay (a.dst.foldl unhold e1.t)
    let s2 := { s1 with fresh := s1.fresh + 1 }.setThread e.tid
      { t with accs := t.accs ++ [{ a with id := s1.fresh, kind := mk hit, quantum := e1.quantum }] }
    .next (askLine s2 e.cx (hit.pas.headD 0) s1.fresh)
  | (s1, .error m) =>
    let e1 := e.refresh s1
    if a.sp then
      let t := a.dst.foldl unhold e1.t
      let t1 := match a.dst with
        | [] => t
        | n :: _ => writeRegs t n (poisonWords (mkToken (missCode m) 1 a.off) a.dst.length)
      let gone := capturedItems [.acc a]
      .next (s1.setThread e.tid { dropReplay t1 with items := t1.items.filter fun i => !gone.contains i.id })
    else match m with
      | .fault c => .next (raise s1 e1 { cause := 9, code := c, token := mkToken c 1 a.off, extra := e.t.replay })
      | m => missOut s1 e1 ref 0 k 1 m

/-- Re-injects the oldest entry of the replay queue, once the accesses before it have been performed: an entry that traps leaves itself
and those after it in the new frame, and none before it (R372). -/
def reinjectOut (s : State) (e : Env) : Out :=
  if e.t.accs.any Acc.unperformed then .next s
  else match e.t.replay with
  | [] => .next (s.setThread e.tid { e.t with reinject := false })
  | .acc a :: _ =>
    (match a.kind with
     | .load size ref _ _ own policy _ =>
       reinjectAcc s e a ref size.bytes kindRead fun hit => .load size ref hit.va (hit.pas.headD 0) own policy hit.masks
     | .atomi op w64 v ref _ lvl item policy _ =>
       reinjectAcc s e a ref (4 * wordsOf w64) kindAtomic fun hit => .atomi op w64 v ref (hit.pas.headD 0) lvl item policy hit.masks
     | _ => .next (s.setThread e.tid (dropReplay e.t)))
  | .cstr _ idx off num _ ref refTok data dataTok keep keepTok :: _ =>
    match e.g.rdv.find? fun b => b.tid = e.tid && b.index = idx && b.off = off && b.num = num && b.again with
    | none => .next (s.setThread e.tid (dropReplay e.t))
    | some b =>
      .next (arriveAgain s e b { words := valWords 2 ref.toNat, tok := refTok } { words := valWords 2 data.toNat, tok := dataTok } keep keepTok)

/-- FOGHORN_TRAP: every ready or issued thread of the issuing class of a core traps, and the quiet counter starts again (R94).
DEDUCED (log entry 87): of the threads that are ready without having issued, those in handler mode do not trap (R371). -/
def execFoghornTrap (core : Nat) (s : State) : Out :=
  let u := s.coreUnit core
  .next (if u.fog.isEmpty then s
    else u.fog.foldl (fun s tid => match s.env? tid with
      | some e => if e.g.core = core && !e.t.handler then raise s e { cause := 10, extra := if e.t.reinject then e.t.replay else [] } else s
      | none => s) (s.setCore core { u with fog := [], quiet := 0 }))

end Sys2Proof.Machine
end

