-- ==== Sys2Proof/Machine/Boundary.lean ====
section
/-! DEFINITION. Boundary.lean: long-latency write-back (R123, R166, R196, R203), the close of a boundary (R186 to R191),
acknowledgement level by level (R192, R193), and what follows a boundary. -/

namespace Sys2Proof.Machine

open Sys2Proof

/-! ## Levels and items (R192, R193) -/

/-- The number of a level: cluster 1, bay 2, die 3, domain 4. -/
def levelNum : Level → Nat
  | .cluster => 1
  | .bay => 2
  | .die => 3
  | .domain => 4

/-- Whether an item still counts at a level. -/
def Item.counts (i : Item) : Level → Bool
  | .cluster => i.cl
  | .bay => i.bay
  | .die => i.die
  | .domain => i.dom

/-- Whether some of these items still count at a level. -/
def waitsFor (t : Thread) (lvl : Level) (ids : List Nat) : Bool := t.items.any fun i => ids.contains i.id && i.counts lvl

/-- The lowest level that the flights of an item have reached; 4 when none is left. -/
def itemLevel (s : State) (tid id : Nat) : Nat :=
  s.flights.foldl (fun n f => if f.items.contains (tid, id) then min n f.lvl else n) 4

/-- Takes an item out of the counts of the levels its writes have reached. -/
def settleItem (s : State) (tid id : Nat) : State :=
  let n := itemLevel s tid id
  let lower (i : Item) : Item :=
    if i.id = id && i.maint.isNone then
      { i with cl := i.cl && n < 1, bay := i.bay && n < 2, die := i.die && n < 3, dom := i.dom && n < 4 }
    else i
  let counted (i : Item) : Bool := i.maint.isSome || i.cl || i.bay || i.die || i.dom
  s.modThread tid fun t => { t with items := (t.items.map lower).filter counted }

/-! ## Landing -/

/-- Takes a flight out and puts its bytes home: bytes of earlier writes to the same places are no longer due. -/
def landFlight (s : State) (f : Flight) : State :=
  let before := s.flights.takeWhile fun x => x.id ≠ f.id
  let after := (s.flights.dropWhile fun x => x.id ≠ f.id).drop 1
  landCells { s with flights := dropCells before f.cells ++ after } { cx := f.ctx, cls := f.cls.getD (classOf s f.ctx), masks := f.masks, vict := f.vict } f.cells
    f.cover f.whole f.marked

/-- A flight is acknowledged one level further out (R192). -/
def ackFlight (s : State) (f : Flight) : State :=
  let s1 := if 3 ≤ f.lvl then landFlight s f
            else { s with flights := s.flights.map fun x => if x.id = f.id then { x with lvl := x.lvl + 1, inL2 := x.inL2 || 1 ≤ x.lvl } else x }
  f.items.foldl (fun s i => settleItem s i.1 i.2) s1

/-- Writes of one scope instance go outward in commit order (R191). -/
def ackBlocked (s : State) (f : Flight) : Bool :=
  match f.bound with
  | none => false
  | some (iid, key, _) =>
    (s.flights.takeWhile fun x => x.id ≠ f.id).any fun x => x.lvl ≤ f.lvl && (match x.bound with
      | some (i, k, _) => i = iid && k = key
      | none => false)

/-- A write to another device that cannot be made kills its context (R402, R404). -/
def remoteKill (s : State) (f : Flight) : Option Nat :=
  match f.cells with
  | [] => none
  | c :: _ => match remoteFails s c.1 true with
    | some 0x0B => some 1
    | some _ => some 2
    | none => none

/-- ACKNOWLEDGE (R192, R193). -/
def execAcknowledge (fid : Nat) (s : State) : Out :=
  match s.flights.find? fun f => f.id = fid with
  | none => .next s
  | some f =>
    if s.stopped || ackBlocked s f then .next s
    else match (if f.lvl = 3 then remoteKill s f else none) with
      | some r =>
        let pa := (f.cells.map (·.1)).headD 0
        .next (noticeKill { s with flights := s.flights.filter fun x => x.id ≠ fid } f.ctx r (killWords pa 0 0 0 (f.core % 1024)))
      | none => .next (ackFlight s f)

/-! ## Write-back (R123) -/

/-- An earlier load that must be performed first: before a quantum end of the thread, or to some of the same bytes (R196). -/
def orderedBefore (a b : Acc) : Bool :=
  a.unperformed && (a.quantum < b.quantum ||
    (let (x, n) := a.span; let (y, m) := b.span; x < y + m && y < x + n))

/-- Removes an access and writes its destinations; an exited thread's results are discarded (R103). -/
def deliverAcc (s : State) (tid : Nat) (a : Acc) (ws : List (Word × Bool)) : State :=
  s.modThread tid fun t =>
    let t1 := { t with accs := t.accs.filter fun x => x.id ≠ a.id }
    if t.status = .exited then t1 else writeEach t1 (a.dst.zip ws)

/-- A load that meets a marked line, or a device that does not answer: the token, reported (R85, R389, R402). -/
def deliverTok (s : State) (e : Env) (a : Acc) (code unit pa : Nat) : State :=
  let tok := mkToken code unit a.off
  let s1 := if code = 0x0B then reportContained s 1 unit e.cx code (tok.extractLsb' 0 20 |>.setWidth 24) pa else s
  deliverAcc s1 e.tid a (poisonWords tok (max 1 a.dst.length))

/-- A fill of a core's L1 places a physical line under a tag. A copy that the core holds under another tag is retagged and keeps its
dirty bytes; one that another core of the cluster holds under another tag is written back first (R177). -/
def fillL1 (s : State) (core : Nat) (tag : Nat × Nat) (line : Nat) : State :=
  { s with flights := s.flights.map fun f =>
      if f.vline.isNone || f.vline = some tag || !f.cells.any (fun c => c.1 / 64 = line) || clusterOf f.core ≠ clusterOf core then f
      else if f.core = core then { f with vline := some tag } else { f with inL2 := true } }

/-- A load is performed: bytes not taken from the thread's own buffer come from memory (R166). -/
def performLoad (s : State) (e : Env) (a : Acc) (size : Size) (va pa : Nat) (own : List (Option Byte)) (policy : BitVec 2)
    (masks : List Nat) : State :=
  let o := Obs.group e.t.gid e.g.core
  let needs := own.any Option.isNone
  match (if needs then remoteFails s pa false else none) with
  | some c => deliverTok s e a c 7 pa
  | none =>
    let s1 := if needs then bringLine (fillL1 s e.g.core (e.cx, va / 64) (pa / 64)) (classAt s e.cx (pa / 64)) e.cx masks (policy = 3) false (pa / 64) else s
    if needs && s1.viewMarked o (pa / 64) then deliverTok s1 e a 0x0B 1 (pa / 64 * 64)
    else
      let bs := (List.range size.bytes).map fun i => (own.getD i none).getD (s1.loadByte o (pa + i))
      deliverAcc s1 e.tid a (cleanWords (extendBytes size bs))

/-- Changes the kind of an access under way. -/
def setKind (s : State) (tid : Nat) (a : Acc) (k : AccKind) : State :=
  s.modThread tid fun t => { t with accs := t.accs.map fun x => if x.id = a.id then { x with kind := k } else x }

/-- Drops an item of a thread from every count. -/
def dropItem (s : State) (tid item : Nat) : State := s.modThread tid fun t => { t with items := t.items.filter fun i => i.id ≠ item }

/-- An immediate atomic is performed: next in the order of its bytes (R203). -/
def performAtomi (s : State) (e : Env) (a : Acc) (op : AOp) (w64 : Bool) (v : BitVec 128) (pa : Nat) (lvl : Level) (item : Nat)
    (policy : BitVec 2) (masks : List Nat) : State :=
  match remoteFails s pa true with
  | some c => deliverTok (dropItem s e.tid item) e a c 7 pa
  | none =>
    let s0 := bringLine s (classAt s e.cx (pa / 64)) e.cx masks (policy = 3) false (pa / 64)
    if s0.lastMarked (pa / 64) then deliverTok (dropItem s0 e.tid item) e a 0x0B 1 (pa / 64 * 64)
    else
      let n := 4 * wordsOf w64
      let old := leNat ((List.range n).map fun i => s0.atomByte (pa + i))
      let fid := s0.fresh
      let s1 := addFlight s0 { id := 0, cells := cellsAt pa (leBytes n (atomicNew op w64 old v)), core := e.g.core, gid := e.t.gid, lvl := 0
                               ctx := e.cx, masks := masks, vict := policy = 3, items := [(e.tid, item)] }
      setKind s1 e.tid a (.atomiAck (BitVec.ofNat 64 old) w64 fid lvl)

/-- Whether a flight is acknowledged at a level. -/
def acknowledged (s : State) (fid : Nat) (lvl : Level) : Bool :=
  match s.flights.find? fun f => f.id = fid with
  | none => true
  | some f => levelNum lvl ≤ f.lvl

/-- LONG_LATENCY_WRITEBACK: an access under way is performed, or its result lands, once its point has served it and the
loads it must follow have been performed (R123, R196, R203). -/
def execLongLatencyWriteback (tid aid : Nat) (s : State) : Out :=
  match s.env? tid with
  | none => .next s
  | some e =>
    match e.t.accs.find? fun a => a.id = aid with
    | none => .next s
    | some a =>
      if s.stopped || waitsAnywhere s aid || (e.t.accs.takeWhile fun x => x.id ≠ aid).any fun x => orderedBefore x a then .next s
      else match a.kind with
        | .load size _ va pa own policy masks => .next (performLoad s e a size va pa own policy masks)
        | .atomi op w64 v _ pa lvl item policy masks =>
          -- a write that reaches a moving frame waits until the move has ended (R182)
          if s.moving.any fun m => m.2.1 = pa / 2 ^ 21 * 2 ^ 21 then .next s else .next (performAtomi s e a op w64 v pa lvl item policy masks)
        | .atomiAck old w64 fid lvl =>
          if acknowledged s fid lvl then .next (deliverAcc s tid a (cleanWords (valWords (wordsOf w64) old.toNat))) else .next s
        | .done vals => .next (deliverAcc s tid a vals)
        | .trav stops vals =>
          -- a checkpoint stops a TRAV after a visit, as if N had been reached (R320)
          let vals := if (s.ctx e.cx).state = .saving then stops.getD (Config.travStop s.tick) vals else vals
          .next (deliverAcc s tid a vals)

/-! ## The close of a boundary (R188) -/

/-- A thread's global index in its instance. -/
def gixE (e : Env) : Nat := gixOf e.inst e.g e.t.tix

/-- Puts a thread in its place by global index. -/
def insertGix (e : Env) : List Env → List Env
  | [] => [e]
  | x :: xs => if gixE e < gixE x then e :: x :: xs else x :: insertGix e xs

/-- The threads of a scope instance, in ascending global index (R18, R189). -/
def scopeThreads (s : State) (iid key : Nat) : List Env :=
  let es := s.threads.filterMap fun p => match s.env? p.1 with
    | some e => if e.g.iid = iid && scopeKey e.inst e.g = key then some e else none
    | none => none
  es.foldr insertGix []

/-- Whether a named barrier lets a waiter of a phase go: the phase has completed, and a boundary has closed since its last
arrival (R205). -/
def barrierPassed (e : Env) (b phase : Nat) : Bool :=
  let bar := e.g.bars.getD b {}
  phase < bar.phase && !bar.doneAt.any fun d => d.1 = phase && e.quantum < d.2

/-- Whether a wait on a Buoy is over: it stands at zero, or cannot be read (R206, R242). -/
def buoyOver (s : State) (cl off : Nat) : Bool :=
  vPresent (s.vault cl) off 8 && (match (buoyRead s cl off 0).2 with
    | .ok w => buoyCount w = 0
    | .error _ => true)

/-- A thread in the waiting part of a barrier (R430). One whose wait is over runs in the current quantum, though its wake is a turn of
its own, so it holds the boundary open until it has woken and ended that quantum. -/
def inWaitingPart (s : State) (e : Env) : Bool :=
  match e.t.status with
  | .parked (.barPhase _ b phase) => !barrierPassed e b phase
  | .parked (.buoyWait _ a) => (match vaultCheck s e.cl e.g.iid a 0 8 8 .read with
    | .ok h => !buoyOver s h.cl h.off
    | .error _ => false)
  | .parked (.barxWait _ cl off) => !buoyOver s cl off
  | _ => false

/-- Whether a boundary closes now: every live thread has ended its quantum or counts as having done so, and the loads of
the quantum have been performed (R188, R191, R430). -/
def mayClose (s : State) (es : List Env) : Bool :=
  es.any (fun e => e.t.ended) && es.all fun e =>
    (e.t.status = .exited || e.t.ended || inWaitingPart s e) && !(e.t.accs.any Acc.unperformed)

/-- One entry as the close finds it: its thread, its place in memory. -/
structure Landing where
  e : Env
  entry : SbEntry
  hit : Hit

def SbEntry.ref : SbEntry → Ref
  | .plain r .. => r
  | .atomic r .. => r

def SbEntry.size : SbEntry → Nat
  | .plain _ bs _ => bs.length
  | .atomic _ _ w64 .. => 4 * wordsOf w64

def SbEntry.vict : SbEntry → Bool
  | .plain _ _ v => v
  | .atomic _ _ _ _ _ _ v => v

def SbEntry.kind : SbEntry → AKind
  | .plain .. => kindWrite
  | .atomic .. => kindAtomic

/-- Translates every entry again (R168); its alignment was checked when it was appended. -/
def recheck : State → List (Env × SbEntry) → State × Except (Env × SbEntry × Miss) (List Landing)
  | s, [] => (s, .ok [])
  | s, (e, en) :: rest =>
    match access s e.cl e.cx en.ref 0 en.size 1 en.kind with
    | (s1, .error m) => (s1, .error (e, en, m))
    | (s1, .ok hit) =>
      match recheck s1 rest with
      | (s2, .error x) => (s2, .error x)
      | (s2, .ok ls) => (s2, .ok ({ e := e, entry := en, hit := hit } :: ls))

/-- A landed write of a boundary, as a flight; at domain scope it is memory at once (R188 step 3). It enters its core's L1 under its
own tag (R177). `cover`: lines that the boundary writes whole; `whole`: those that this write completes (R85, R253). -/
def commitCells (s : State) (l : Landing) (lvl item : Nat) (bound : Nat × Nat × Nat) (cs : List Host.Cell) (cover whole : List Nat) : State :=
  let tag := (l.e.cx, l.hit.va / 64)
  let s0 := (linesOf (cs.map (·.1))).foldl (fun s n => fillL1 s l.e.g.core tag n) s
  let s1 := addFlight s0 { id := 0, cells := cs, whole := whole, core := l.e.g.core, gid := l.e.t.gid, early := true, lvl := min lvl 3, vline := some tag
                           vict := l.entry.vict, cover := cover, ctx := l.e.cx, masks := l.hit.masks, bound := some bound, items := [(l.e.tid, item)] }
  if 4 ≤ lvl then match s1.flights.find? fun f => f.id = s.fresh with
    | some f => landFlight s1 f
    | none => s1
  else s1

/-- The bytes of a plain entry, where they land. -/
def Landing.cells (l : Landing) : List Host.Cell :=
  match l.entry with
  | .plain _ bs _ => l.hit.pas.zip bs
  | .atomic .. => []

/-- Merges the plain entries (R189). `cover`: the lines that they write whole together; the last write to such a line completes it. -/
def commitPlain (lvl : Nat) (bound : Nat × Nat × Nat) (item : Nat → Nat) (cover : List Nat) : State → List Landing → State
  | s, [] => s
  | s, l :: rest =>
    let mine := (linesOf (l.cells.map (·.1))).filter cover.contains
    let later := linesOf ((rest.flatMap Landing.cells).map (·.1))
    let s1 := if l.cells.isEmpty then s else commitCells s l lvl (item l.e.tid) bound l.cells mine (mine.filter fun n => !later.contains n)
    commitPlain lvl bound item cover s1 rest

/-- Applies the deferred atomics and writes their results (R190, R188 step 4). -/
def commitAtomic (lvl : Nat) (bound : Nat × Nat × Nat) (item : Nat → Nat) (s : State) (l : Landing) : State :=
  match l.entry with
  | .plain .. => s
  | .atomic _ op w64 v dst site vict =>
    let n := wordsOf w64
    let pa := l.hit.pas.headD 0
    let write (s : State) (ws : List (Word × Bool)) : State :=
      match dst with
      | none => s
      | some r => s.modThread l.e.tid fun t => if t.status = .exited then t else writeRegs t r ws
    let s0 := touchQuiet s l.e.cx l.hit.masks vict false (pa / 64)
    if s0.lastMarked (pa / 64) then
      let tok := mkToken 0x0B 1 site
      write (reportContained s0 1 1 l.e.cx 0x0B (tok.extractLsb' 0 20 |>.setWidth 24) (pa / 64 * 64)) (poisonWords tok n)
    else
      let old := leNat ((List.range (4 * n)).map fun i => s0.atomByte (pa + i))
      let s1 := commitCells s0 l lvl (item l.e.tid) bound (cellsAt pa (leBytes (4 * n) (atomicNew op w64 old v))) [] []
      write s1 (cleanWords (valWords n old))

/-- A thread past its boundary: an empty buffer, and a quantum begun. -/
def emptied (t : Thread) : Thread := { t with sb := [], ended := false }

/-! ## What follows a boundary (R187, R188 step 5) -/

/-- Starts what an instruction still has to do once its boundary has closed. -/
def startAfter (s : State) (e : Env) (a : After) : State :=
  let park (p : Park) : State := s.setThread e.tid (parkThread e.t p)
  let all := e.t.items.map (·.id)
  match a with
  | .next len | .yield len => s.setThread e.tid { advance e.t len with status := .ready }
  | .again => s.setThread e.tid { e.t with status := .ready }
  | .fence len lvl _ => park (.fence len lvl all)
  | .tryw len pd reg bound => park (.tryw len pd reg ((s.coreUnit e.g.core).clk + bound))
  | .barw len b phase => park (.barPhase len b phase)
  | .bars len b phase => s.setThread e.tid (endQuantum e.t (.barw len b phase))
  | .buoyArrive len lvl addr thenWait _ => park (.buoyArrive len lvl addr thenWait all)
  | .buoyWait len addr => park (.buoyWait len addr)
  | .barx len lvl addr _ => park (.barxArrive len lvl addr all)
  | .lnfil len dst world obj uv key _ => park (.lnfil len dst world obj uv key all)

/-- The instruction that a thread's quantum ended with, when it parks to its boundary. -/
def afterOf (t : Thread) : Option After :=
  match t.status with
  | .parked (.boundary a) => some a
  | _ => none

/-- The steps of R188 for a boundary whose entries can all land. -/
def closeNow (s : State) (iid key : Nat) (es : List Env) (ls : List Landing) : State :=
  let inst := (tget? s.insts iid).getD default
  let q := tgetD 0 inst.bounds key + 1
  let bound := (iid, key, q)
  let lvl := scopeLevel inst
  let owners := (es.filter fun e => !e.t.sb.isEmpty).map (·.tid)
  let base := s.fresh
  let item (tid : Nat) : Nat := base + (owners.takeWhile (· ≠ tid)).length
  let s1 := { s with fresh := base + owners.length }
  let s2 := owners.foldl (fun s t => s.modThread t fun th => { th with items := th.items ++ [{ id := item t }] }) s1
  let s3 := commitPlain lvl bound item (wholeLines (ls.flatMap Landing.cells)) s2 ls
  let s4 := ls.foldl (commitAtomic lvl bound item) s3
  let s5 := es.foldl (fun s e => s.modThread e.tid emptied) s4
  let s6 := owners.foldl (fun s t => settleItem s t (item t)) s5
  let s7 := s6.modInst iid fun i => { i with bounds := tput i.bounds key q }
  let conts := es.filterMap fun e => (afterOf e.t).map fun a => (e.tid, a)
  let s8 := conts.foldl (fun s c => match s.env? c.1 with
    | some e => startAfter s e c.2
    | none => s) s7
  conts.foldl (fun s c => match c.2 with
    | .yield _ => demote s c.1
    | _ => s) s8

/-- BOUNDARY_CLOSE: the boundary of a scope instance closes, if it may (R188). A commit that fails a check kills the context,
and one whose page is missing or moving holds the close (R168). -/
def execBoundaryClose (iid key : Nat) (s : State) : Out :=
  match tget? s.insts iid with
  | none => .next s
  | some inst =>
    let es := scopeThreads s iid key
    -- the other members of a domain context hold the boundary of a domain scope open until their threads are ready (R403)
    let held := scopeLevel inst = 4 && (match (s.ctx inst.q.ctx).member with
      | some m => 1 < m.count && !Config.membersReady m.domain s.tick
      | none => false)
    if s.stopped || (s.ctx inst.q.ctx).kill.isSome || held || !mayClose s es || es.any (fun e => !e.t.sb.isEmpty && count255 e.t) then .next s
    else
      match recheck s (es.flatMap fun e => e.t.sb.map fun en => (e, en)) with
      | (s1, .ok ls) =>
        -- commits of an exhausted class pause, and the boundary stays open longer (R260)
        if ls.any fun l => paused s1 (classAt s1 l.e.cx (l.hit.pas.headD 0 / 64)) (l.hit.pas.headD 0) then .next s1
        else match (if scopeLevel inst = 4 then ls.find? fun l => (remoteFails s1 (l.hit.pas.headD 0) true).isSome else none) with
        | some l =>
          let r := if remoteFails s1 (l.hit.pas.headD 0) true = some 0x0B then 1 else 2
          .next (noticeKill s1 l.e.cx r (killWords (l.hit.pas.headD 0) (refWord l.entry.ref) (refWord l.e.t.pc) 0 l.e.g.core))
        | none => .next (closeNow s1 iid key es ls)
      | (s1, .error (e, en, .fault _)) => .next (noticeKill s1 e.cx 2 (killWords 0 (refWord en.ref) (refWord e.t.pc) 0 e.g.core))
      | (s1, .error (e, en, .page level kind addr va)) => .next (addRecord s1 e.cx (refWord en.ref) en.kind.code level kind addr va)
      | (s1, .error _) => .next s1

end Sys2Proof.Machine
end

