-- ==== Sys2Proof/Machine/Crypto.lean ====
section
/-! DEFINITION. Crypto.lean: the algorithms that R272, R273, R365 and R399 name: CRC-32C, AES-256 with its inverse (FIPS 197), counter mode
and the tag of GCM (SP 800-38D), key unwrap (RFC 3394), SHA-384 (FIPS 180-4), HMAC (RFC 2104) and HKDF (RFC 5869). -/

namespace Sys2Proof.Machine

open Sys2Proof

/-- Bytes of a number, most significant first. -/
def beBytes (n v : Nat) : List Byte := (leBytes n v).reverse

/-- The number that bytes spell, most significant first. -/
def beNat (bs : List Byte) : Nat := bs.foldl (fun n b => n * 256 + b.toNat) 0

def xorBytes (a b : List Byte) : List Byte := a.zipWith (· ^^^ ·) b

/-- Pieces of `n` elements; fuel bounds their number. -/
def chunks {α : Type} (n : Nat) : Nat → List α → List (List α)
  | 0, _ => []
  | _ + 1, [] => []
  | f + 1, l => l.take n :: chunks n f (l.drop n)

/-! ## CRC-32C -/

/-- One byte more of a CRC-32C, its polynomial reflected. -/
def crcByte (r : Word) (b : Byte) : Word :=
  (List.range 8).foldl (fun r _ => if r.getLsbD 0 then (r >>> 1) ^^^ 0x82F63B78 else r >>> 1) (r ^^^ b.setWidth 32)

/-- The CRC-32C of bytes. -/
def crc32c (bs : List Byte) : Word := ~~~(bs.foldl crcByte 0xFFFFFFFF)

/-! ## AES-256 -/

/-- Times x in GF(2^8). -/
def xtime (b : Byte) : Byte := if b.getLsbD 7 then (b <<< 1) ^^^ 0x1B else b <<< 1

/-- The product in GF(2^8). -/
def gmul (a b : Byte) : Byte :=
  ((List.range 8).foldl (fun (r : Byte × Byte) i => (if b.getLsbD i then r.1 ^^^ r.2 else r.1, xtime r.2)) (0, a)).1

/-- The inverse in GF(2^8), as the 254th power; 0 for 0. -/
def ginv (a : Byte) : Byte :=
  let a2 := gmul a a
  let a4 := gmul a2 a2
  let a8 := gmul a4 a4
  let a16 := gmul a8 a8
  let a32 := gmul a16 a16
  let a64 := gmul a32 a32
  let a128 := gmul a64 a64
  gmul a128 (gmul a64 (gmul a32 (gmul a16 (gmul a8 (gmul a4 a2)))))

def sbox (a : Byte) : Byte :=
  let b := ginv a
  b ^^^ b.rotateLeft 1 ^^^ b.rotateLeft 2 ^^^ b.rotateLeft 3 ^^^ b.rotateLeft 4 ^^^ 0x63

def invSbox (a : Byte) : Byte := ginv (a.rotateLeft 1 ^^^ a.rotateLeft 3 ^^^ a.rotateLeft 6 ^^^ 0x05)

/-- Expands a key of eight words to 60; `ws` holds the words so far, newest first. -/
def aesExpand : Nat → Nat → Byte → List (List Byte) → List (List Byte)
  | 0, _, _, ws => ws
  | n + 1, i, rcon, ws =>
    let prev := ws.headD []
    let old := ws.getD 7 []
    if i % 8 = 0 then
      let rot := (prev.drop 1 ++ prev.take 1).map sbox
      let t := match rot with
        | b :: r => (b ^^^ rcon) :: r
        | [] => []
      aesExpand n (i + 1) (xtime rcon) (xorBytes old t :: ws)
    else if i % 8 = 4 then aesExpand n (i + 1) rcon (xorBytes old (prev.map sbox) :: ws)
    else aesExpand n (i + 1) rcon (xorBytes old prev :: ws)

/-- The 15 round keys of a 32-byte key. -/
def aesKeys (key : List Byte) : List (List Byte) :=
  chunks 16 15 ((aesExpand 52 8 1 (chunks 4 8 key).reverse).reverse.flatten)

/-- Byte r of column c stands at 4c + r. -/
def shiftRows (s : List Byte) : List Byte := (List.range 16).map fun i => s.getD ((i + 4 * (i % 4)) % 16) 0

def invShiftRows (s : List Byte) : List Byte := (List.range 16).map fun i => s.getD ((i + 16 - 4 * (i % 4)) % 16) 0

/-- Each column times a circulant matrix whose first row is given. -/
def mixWith (m : List Byte) (s : List Byte) : List Byte :=
  (List.range 16).map fun i =>
    (List.range 4).foldl (fun x k => x ^^^ gmul (m.getD ((k + 4 - i % 4) % 4) 0) (s.getD (i / 4 * 4 + k) 0)) 0

def aesEncrypt (keys : List (List Byte)) (b : List Byte) : List Byte :=
  let s0 := xorBytes b (keys.headD [])
  let s1 := (List.range 13).foldl (fun s r => xorBytes (mixWith [2, 3, 1, 1] (shiftRows (s.map sbox))) (keys.getD (r + 1) [])) s0
  xorBytes (shiftRows (s1.map sbox)) (keys.getD 14 [])

def aesDecrypt (keys : List (List Byte)) (b : List Byte) : List Byte :=
  let s0 := xorBytes b (keys.getD 14 [])
  let s1 := (List.range 13).foldl
    (fun s r => mixWith [14, 11, 13, 9] (xorBytes ((invShiftRows s).map invSbox) (keys.getD (13 - r) []))) s0
  xorBytes ((invShiftRows s1).map invSbox) (keys.headD [])

/-! ## GCM -/

/-- One step of the field product of GCM: the accumulator, and the other factor moved by one bit. -/
def ghashStep (x : BitVec 128) (r : BitVec 128 × BitVec 128) (i : Nat) : BitVec 128 × BitVec 128 :=
  (if x.getLsbD (127 - i) then r.1 ^^^ r.2 else r.1,
   if r.2.getLsbD 0 then (r.2 >>> 1) ^^^ (0xE1#128 <<< 120) else r.2 >>> 1)

/-- The field product of GCM. -/
def ghashMul (x y : BitVec 128) : BitVec 128 := ((List.range 128).foldl (ghashStep x) (0, y)).1

/-- A block as a number, padded with zeros. -/
def block128 (bs : List Byte) : BitVec 128 := BitVec.ofNat 128 (beNat (bs ++ List.replicate (16 - bs.length) 0))

/-- The key stream block for counter `c`. -/
def gcmStream (keys : List (List Byte)) (iv : List Byte) (c : Nat) : List Byte := aesEncrypt keys (iv ++ beBytes 4 c)

/-- Decrypts bytes that start at block `first` of the message. -/
def gcmDecrypt (keys : List (List Byte)) (iv : List Byte) (first : Nat) (ct : List Byte) : List Byte :=
  let bs := chunks 16 (ct.length / 16 + 1) ct
  ((List.range bs.length).map fun i => xorBytes (bs.getD i []) (gcmStream keys iv (2 + first + i))).flatten

/-- The tag of a ciphertext with empty additional data. -/
def gcmTag (keys : List (List Byte)) (iv : List Byte) (ct : List Byte) : List Byte :=
  let h := block128 (aesEncrypt keys (List.replicate 16 0))
  let x := (chunks 16 (ct.length / 16 + 1) ct).foldl (fun x b => ghashMul (x ^^^ block128 b) h) 0
  let y := ghashMul (x ^^^ BitVec.ofNat 128 (8 * ct.length)) h
  xorBytes (beBytes 16 y.toNat) (gcmStream keys iv 1)

/-! ## Key unwrap (RFC 3394) -/

/-- One inverse step on the register and the blocks. -/
def unwrapStep (keys : List (List Byte)) (n : Nat) (r : List Byte × List (List Byte)) (k : Nat) : List Byte × List (List Byte) :=
  let t := 6 * n - k
  let i := (t - 1) % n
  let b := aesDecrypt keys (xorBytes r.1 (beBytes 8 t) ++ r.2.getD i [])
  (b.take 8, r.2.set i (b.drop 8))

/-- The plaintext of a wrapped key, if its integrity check passes. -/
def keyUnwrap (kek wrapped : List Byte) : Option (List Byte) :=
  let bs := chunks 8 (wrapped.length / 8) wrapped
  let n := bs.length - 1
  let r := (List.range (6 * n)).foldl (unwrapStep (aesKeys kek) n) (bs.headD [], bs.drop 1)
  if r.1 = List.replicate 8 0xA6 then some r.2.flatten else none

/-! ## SHA-384, HMAC and HKDF -/

/-- The first 64 bits of the fractional part of a prime's root: FIPS 180-4's way to the constants. -/
def rootFrac (k p : Nat) : BitVec 64 :=
  let target := p * 2 ^ (64 * k)
  let r := (List.range 72).foldl (fun r i => let c := r + 2 ^ (71 - i); if c ^ k ≤ target then c else r) 0
  BitVec.ofNat 64 r

/-- The first `n` primes from `p` on. -/
def primesFrom : Nat → Nat → Nat → List Nat
  | 0, _, _ => []
  | f + 1, n, p =>
    if n = 0 then []
    else if (List.range p).all fun d => d < 2 || p % d ≠ 0 then p :: primesFrom f (n - 1) (p + 1) else primesFrom f n (p + 1)

/-- The round constants: cube roots of the first 80 primes. -/
def shaK : List (BitVec 64) := (primesFrom 420 80 2).map (rootFrac 3)

/-- The initial value of SHA-384: square roots of the ninth to sixteenth primes. -/
def sha384Init : List (BitVec 64) := ((primesFrom 60 16 2).drop 8).map (rootFrac 2)

/-- The message schedule: newest word first. -/
def shaSchedule : Nat → List (BitVec 64) → List (BitVec 64)
  | 0, w => w
  | n + 1, w =>
    let a := w.getD 1 0
    let b := w.getD 14 0
    let s1 := a.rotateRight 19 ^^^ a.rotateRight 61 ^^^ (a >>> 6)
    let s0 := b.rotateRight 1 ^^^ b.rotateRight 8 ^^^ (b >>> 7)
    shaSchedule n ((s1 + w.getD 6 0 + s0 + w.getD 15 0) :: w)

/-- One round on the eight working words. -/
def shaRound (h : List (BitVec 64)) (kw : BitVec 64 × BitVec 64) : List (BitVec 64) :=
  match h with
  | [a, b, c, d, e, f, g, i] =>
    let t1 := i + (e.rotateRight 14 ^^^ e.rotateRight 18 ^^^ e.rotateRight 41) + ((e &&& f) ^^^ (~~~e &&& g)) + kw.1 + kw.2
    let t2 := (a.rotateRight 28 ^^^ a.rotateRight 34 ^^^ a.rotateRight 39) + ((a &&& b) ^^^ (a &&& c) ^^^ (b &&& c))
    [t1 + t2, a, b, c, d + t1, e, f, g]
  | h => h

/-- One block of 128 bytes. -/
def shaBlock (h : List (BitVec 64)) (blk : List Byte) : List (BitVec 64) :=
  let w := ((chunks 8 16 blk).map fun b => BitVec.ofNat 64 (beNat b)).reverse
  let ws := (shaSchedule 64 w).reverse
  h.zipWith (· + ·) ((shaK.zip ws).foldl shaRound h)

/-- SHA-384. -/
def sha384 (m : List Byte) : List Byte :=
  let pad := (239 - m.length % 128) % 128
  let msg := m ++ [0x80] ++ List.replicate pad 0 ++ beBytes 16 (8 * m.length)
  let h := (chunks 128 (msg.length / 128) msg).foldl shaBlock sha384Init
  (h.flatMap fun w => beBytes 8 w.toNat).take 48

/-- HMAC with SHA-384. -/
def hmac384 (key msg : List Byte) : List Byte :=
  let k0 := if 128 < key.length then sha384 key else key
  let k := k0 ++ List.replicate (128 - k0.length) 0
  sha384 (k.map (· ^^^ 0x5C) ++ sha384 (k.map (· ^^^ 0x36) ++ msg))

/-- HKDF-Expand: `n` bytes. -/
def hkdfExpand (prk info : List Byte) (n : Nat) : List Byte :=
  let r := (List.range ((n + 47) / 48)).foldl
    (fun (r : List Byte × List Byte) i => let t := hmac384 prk (r.1 ++ info ++ [BitVec.ofNat 8 (i + 1)]); (t, r.2 ++ t)) ([], [])
  r.2.take n

end Sys2Proof.Machine
end

