-- ==== Sys2Proof/Machine/Copy.lean ====
section
/-! DEFINITION. Copy.lean: the copy engine: request blocks (R264, R265), XCOPY (R266), the movement of lines (R267 to R270),
key slots and confidential copy-in (R271 to R273). -/

namespace Sys2Proof.Machine

open Sys2Proof

/-! ## Request blocks (R264, R265) -/

/-- A block's 64 bytes taken apart. -/
def readBlock (bs : List Byte) : ReqBlock :=
  let v : BitVec 512 := BitVec.ofNat 512 (leNat bs)
  let f (lo n : Nat) : Nat := (v.extractLsb' lo n).toNat
  { strm := f 360 4, slot := f 352 6, ctr := v.extractLsb' 288 64
    fg := v.getLsbD 277, pc := v.getLsbD 276, zf := v.getLsbD 275, dec := v.getLsbD 274, dv := v.getLsbD 273, sv := v.getLsbD 272
    rows := f 256 16, buoy := v.extractLsb' 224 32, dpitch := f 192 32, spitch := f 160 32, len := f 128 32
    dst := v.extractLsb' 64 64, src := v.extractLsb' 0 64
    rsv := f 364 116 ≠ 0 || f 358 2 ≠ 0 || f 278 10 ≠ 0 || (v.getLsbD 273 && f 96 32 ≠ 0) || (v.getLsbD 272 && f 32 32 ≠ 0) }

/-- Whether R265 refuses a block. -/
def badShape (b : ReqBlock) : Bool :=
  b.rsv || b.rows = 0 || (b.dec && b.zf) ||
    (b.dv && (b.pc || b.dec) && (b.dst.toNat % 64 ≠ 0 || b.len % 64 ≠ 0 || b.dpitch % 64 ≠ 0)) ||
    (b.dec && (b.sv || !b.dv || b.rows ≠ 1))

/-- Bytes of a copy (R264). -/
def copyTotal (b : ReqBlock) : Nat := b.len * b.rows

/-- A status word (R270). -/
def statusWord (st code line : Nat) : Word := BitVec.ofNat 32 (st * 2 ^ 28 + code * 2 ^ 20 + min line 0xFFFFF)

/-- Budget class of a copy (R257, R264). -/
def copyClass (s : State) (c : Copy) : Nat := if c.blk.fg then classOf s c.ctx else 12

/-! ## Places of a copy -/

/-- Where destination bytes of a copy lie in a vault. -/
def copyDstVault (s : State) (cl iid : Nat) (b : ReqBlock) (o n : Nat) : Except Nat VHit :=
  vaultCheck s cl iid (b.dst.setWidth 32) (o : Int) n 1 .write

/-- Where the source bytes lie in a vault. -/
def copySrcVault (s : State) (cl iid : Nat) (b : ReqBlock) (o n : Nat) : Except Nat VHit :=
  vaultCheck s cl iid (b.src.setWidth 32) (o : Int) n 1 .read

/-- The lines of a vault destination that pass their checks: cluster and line, row by row. -/
def dstLines (s : State) (cl iid : Nat) (b : ReqBlock) : List (Nat × Nat) :=
  (List.range b.rows).flatMap fun r =>
    (List.range (b.len / 64)).filterMap fun k =>
      match copyDstVault s cl iid b (r * b.dpitch + 64 * k) 64 with
      | .ok h => some (h.cl, h.off / 64)
      | .error _ => none

/-- Sets or clears the presence bits of lines. -/
def setPresence (s : State) (present : Bool) (ls : List (Nat × Nat)) : State :=
  let s1 := ls.foldl (fun s l =>
    let v := s.vault l.1
    s.setVault l.1 { v with absent := if present then setDel v.absent l.2 else setAdd v.absent l.2 }) s
  if present then (ls.map (·.1)).eraseDups.foldl wakePresent s1 else s1

/-- Writes a copy's status word into its block, when the block can still be reached. -/
def writeStatus (s : State) (cl iid : Nat) (blockAt w : Word) : State :=
  match vaultCheck s cl iid blockAt 60 4 4 .write with
  | .ok h => vaultStore s h.cl h.off (leBytes 4 w.toNat) 0
  | .error _ => s

/-- Counts a copy's bytes down on its Buoy (R269). -/
def countCopy (s : State) (cl iid : Nat) (buoy : Word) (n : Nat) (err : Bool) : State :=
  match vaultCheck s cl iid buoy 0 8 8 .write with
  | .ok h => buoyDown s h.cl h.off n err
  | .error _ => s

/-- Items 1 of R273: the status that refuses, if any. -/
def slotRefusal (s : State) (cx : Nat) (b : ReqBlock) : Option Nat :=
  match tget? s.slots b.slot with
  | none => some 6
  | some k => if k.ctx ≠ cx then some 5
              else if (tgetD {} s.tdis k.tdi).st = .run then none else some 6

/-- Item 2 of R273: the destination lies in an allocation of the slot's context. -/
def dstRefusal (s : State) (cl iid : Nat) (b : ReqBlock) : Option Nat :=
  match vaultCheck s cl iid (b.dst.setWidth 32) 0 b.len 1 .read with
  | .ok _ => none
  | .error _ => some 5

/-- Item 3 of R273. -/
def counterRefusal (s : State) (b : ReqBlock) : Option Nat :=
  match tget? s.slots b.slot with
  | none => some 6
  | some k => match k.ctrs.getD b.strm none with
    | some c => if b.ctr.toNat ≤ c.toNat then some 4 else none
    | none => none

/-! ## XCOPY (R266) -/

/-- A vault address moved by a displacement that the check has found in range. -/
def movedAddr (a : Word) (o : Nat) : Word := a.extractLsb' 23 9 ++ BitVec.ofNat 23 o

/-- XCOPY. -/
def execXcopy (h : Head) (a : Src) (disp : BitVec 32) (s : State) : Out :=
  withSrcs s h 12 [{ src := a }] [] fun s1 e vals gtok =>
    let e0 := (s.env? e.tid).getD e
    let trap (c : Nat) : Out := .next (raiseFault s e0 c 2)
    if gtok.isSome then fallThrough s1 e 12
    else match (vals.headD default).tok with
      | some tok => .next (raiseFaultTok s e0 tok)
      | none =>
        let va := (vals.headD default).v32
        match vaultCheck s1 e.cl e.g.iid va disp.toInt 64 64 .read with
        | .error c => trap c
        | .ok hit =>
          if !vPresent (s1.vault hit.cl) hit.off 64 then parkOut s e0 (presencePark hit 64)
          else if 64 ≤ ((s1.cluster e.cl).copies.filter fun c => !c.started).length then parkOut s e0 (.copyRoom e.cl)
          else match vaultRead s1 hit.cl hit.off 64 (siteOf e) with
            | (s2, .error c) => .next (raiseFault s2 (e0.refresh s2) c 2)
            | (s2, .ok bs) =>
              let b := readBlock bs
              match vaultCheck s2 e.cl e.g.iid b.buoy 0 8 8 .write with
              | .error c => trap c
              | .ok _ =>
                let at_ := movedAddr va hit.o
                let next (s : State) : Out := .next (s.modThread e.tid fun t => advance t 12)
                let s3 := writeStatus s2 e.cl e.g.iid at_ 0
                let refused := if badShape b then some 7
                  else if b.dec then (match slotRefusal s3 e.cx b with
                    | some r => some r
                    | none => dstRefusal s3 e.cl e.g.iid b)
                  else none
                match refused with
                | some st =>
                  let s4 := writeStatus s3 e.cl e.g.iid at_ (statusWord st 0 0)
                  next (countCopy s4 e.cl e.g.iid b.buoy (copyTotal b) true)
                | none =>
                  let s4 := if b.dv && (b.pc || b.dec) then setPresence s3 false (dstLines s3 e.cl e.g.iid b) else s3
                  let c : Copy := { id := s4.fresh, ctx := e.cx, iid := e.g.iid, cgid := e.g.cgid, gid := e.t.gid, blockAt := at_, blk := b }
                  let u := s4.cluster e.cl
                  next ({ s4 with fresh := s4.fresh + 1 }.setCluster e.cl { u with copies := u.copies ++ [c] })

/-! ## Moving lines (R267 to R270) -/

def setCopies (s : State) (cl : Nat) (f : List Copy → List Copy) : State :=
  let u := s.cluster cl
  s.setCluster cl { u with copies := f u.copies }

def setCopy (s : State) (cl : Nat) (c : Copy) : State := setCopies s cl fun l => l.map fun x => if x.id = c.id then c else x

def dropCopy (s : State) (cl id : Nat) : State := setCopies s cl fun l => l.filter fun x => x.id ≠ id

/-- Whether a copy has issued its last line; a decrypt copy also reads its tag, though it be empty (R273). -/
def issuedAll (c : Copy) : Bool := if c.blk.dec then 2 ≤ c.row else c.blk.len = 0 || c.blk.rows ≤ c.row

/-- The next line of a copy, and the cursor after it. -/
def nextLine (c : Copy) : CopyLn × Copy :=
  let b := c.blk
  if b.dec && (c.row = 1 || b.len = 0) then
    ({ idx := c.idx, row := 1, start := 0, n := 16 }, { c with row := 2, idx := c.idx + 1 })
  else
    let d := b.dst.toNat + c.row * b.dpitch + c.pos
    let n := min (b.len - c.pos) (64 - d % 64)
    let ln : CopyLn := { idx := c.idx, row := c.row, start := c.pos, n := n }
    if b.len ≤ c.pos + n then (ln, { c with row := c.row + 1, pos := 0, idx := c.idx + 1 })
    else (ln, { c with pos := c.pos + n, idx := c.idx + 1 })

/-- Issues lines while fewer than 64 are in flight. -/
def fillLines : Nat → Copy → Copy
  | 0, c => c
  | n + 1, c =>
    if issuedAll c || 64 ≤ (c.out.filter fun l => !c.waiting.any fun w => w.1 = l.idx).length then c
    else let (l, c1) := nextLine c; fillLines n { c1 with out := c1.out ++ [l] }

/-- A copy that may start: no earlier copy of the engine still issues lines, and no earlier copy of its stream runs. -/
def startable (copies : List Copy) (c : Copy) : Bool :=
  !c.started && !(copies.any fun x => x.started && !issuedAll x) &&
    !(c.blk.dec && copies.any fun x => x.started && x.blk.dec && x.blk.slot = c.blk.slot && x.blk.strm = c.blk.strm)

/-- Whether an earlier copy of the same stream, on any engine, has still to settle. -/
def streamBusy (s : State) (c : Copy) : Bool :=
  c.blk.dec && s.clusters.any fun u => u.2.copies.any fun x =>
    x.blk.dec && x.blk.slot = c.blk.slot && x.blk.strm = c.blk.strm && x.id < c.id

/-- A refusal at the start: presence set again, status, and the whole total counted down as one access (R273). -/
def refuseStart (s : State) (cl : Nat) (c : Copy) (st : Nat) : State :=
  let s1 := setPresence s true (dstLines s cl c.iid c.blk)
  let s2 := writeStatus s1 cl c.iid c.blockAt (statusWord st 0 0)
  dropCopy (countCopy s2 cl c.iid c.blk.buoy (copyTotal c.blk) true) cl c.id

/-- Whether the engine takes copies and lines of a context: it is not stopped, and no checkpoint quiesces it (R274, R364). -/
def copyRuns (s : State) (cx : Nat) : Bool :=
  let c := s.ctx cx
  !s.stopped && c.kill.isNone && (c.state = .run || c.state = .draining)

/-- The queued copy that an engine takes next, foreground first, then in order of acceptance (R267). DEDUCED (log entry 91): one whose
stream has an earlier copy still to settle is passed over meanwhile, or that copy could stand behind it for ever (R273). -/
def nextCopy (s : State) (cl : Nat) : Option Copy :=
  let cs := ((s.cluster cl).copies).filter fun c => !c.started && copyRuns s c.ctx && !streamBusy s c
  match (cs.filter fun c => c.blk.fg) ++ cs with
  | [] => none
  | c :: _ => if startable (s.cluster cl).copies c then some c else none

/-- COPY_START: the next queued copy starts (R267, R273). -/
def execCopyStart (cl : Nat) (s : State) : Out :=
  match nextCopy s cl with
  | none => .next s
  | some c =>
    let bad := if c.blk.dec then (match slotRefusal s c.ctx c.blk with
      | some r => some r
      | none => counterRefusal s c.blk) else none
    match bad with
    | some st => .next (refuseStart s cl c st)
    | none =>
      let c1 := { c with started := true }
      if c.blk.len = 0 && !c.blk.dec then .next (dropCopy s cl c.id) else .next (setCopy s cl c1)

/-- What the source of a line gives: bytes and whether a line among them is marked, a failure, or a wait. -/
inductive SrcOut where
  | bytes (bs : List Byte) (marked : Bool)
  | fail (code : Nat)
  | wait (m : Miss)
  | later

/-- Reads a line's source (R266, R268). -/
def readSource (s : State) (cl : Nat) (c : Copy) (o n : Nat) : State × SrcOut :=
  let b := c.blk
  if b.zf then (s, .bytes (List.replicate n 0) false)
  else if b.sv then
    match copySrcVault s cl c.iid b o n with
    | .error k => (s, .fail k)
    | .ok h =>
      if !vPresent (s.vault h.cl) h.off n then (s, .later)
      else
        let lines := vLines h.off n
        let r := lines.foldl (fun (r : State × Option Nat) l =>
          match vRead (r.1.vault h.cl) l with
          | (v, some _) => (r.1.setVault h.cl v, r.2)
          | (v, none) => (reportVault (r.1.setVault h.cl v) h.cl l 0, some 0x0C)) (s, if lines.any (vFailed (s.vault h.cl)) then some 0x0C else none)
        let v := r.1.vault h.cl
        match r.2 with
        | some k => (r.1, .fail k)
        | none => (r.1, .bytes ((List.range n).map fun i => vPeek v (h.off + i)) (lines.any fun l => (s.vault h.cl).marks.contains l))
  else
    let ref := wordRef b.src
    match access s cl c.ctx ref (o : Int) n 1 kindCopyIn with
    | (s1, .error (.fault k)) => (s1, .fail k)
    | (s1, .error m) => (s1, .wait m)
    | (s1, .ok hit) =>
      match remoteFails s1 (hit.pas.headD 0) false with
      | some k => (s1, .fail k)
      | none =>
      let s2 := (linesOf hit.pas).foldl (fun s l => touchAs s (copyClass s c) c.ctx hit.masks false false l) s1
      let core := ((tget? s2.groups c.gid).map (·.core)).getD 0
      let ob := Obs.group c.gid core
      (s2, .bytes (hit.pas.map (s2.loadByte ob)) ((linesOf hit.pas).any (s2.viewMarked ob)))

/-- What became of a line's destination. -/
inductive DstOut where
  | done
  | fail (code : Nat)
  | wait (m : Miss)

/-- A write of a copy for the core group that issued it, acknowledged at die level (R213). -/
def copyFlight (s : State) (cl : Nat) (c : Copy) (masks : List Nat) (cs : List Host.Cell) (whole marked : List Nat) : State :=
  addFlight s { id := 0, cells := cs, whole := whole, marked := marked, core := 4 * cl, gid := noGroup + 1 + c.gid, lvl := 3, ctx := c.ctx
                cls := some (copyClass s c), masks := masks, inL2 := true }

/-- A vault line that an engine writes: bytes, marker, presence (R226). -/
def engineVaultLine (s : State) (h : VHit) (bs : List Byte) (mark present : Bool) : State :=
  let l := h.off / 64
  let s1 := vaultStore s h.cl h.off bs 0
  let v := s1.vault h.cl
  let s2 := s1.setVault h.cl { v with marks := if mark then setAdd v.marks l else setDel v.marks l
                                      absent := if present then setDel v.absent l else v.absent }
  wakeBuoys (wakePresent s2 h.cl) h.cl

/-- Whether a line of a higher row, already ended, has written a destination byte (R265). `p`: the byte's place in the destination. -/
def laterRowWrote (c : Copy) (row p : Nat) : Bool :=
  let b := c.blk
  let holds (r : Nat) (l : CopyLn) : Bool := l.row = r && l.start ≤ p - r * b.dpitch && p - r * b.dpitch < l.start + l.n
  b.dpitch < b.len && (List.range (min b.rows (c.row + 1))).any fun r =>
    row < r && r * b.dpitch ≤ p && p < r * b.dpitch + b.len && (r < c.row || p - r * b.dpitch < c.pos) &&
      !c.out.any (holds r) && !c.missed.any (holds r)

/-- A line's bytes, without those that a higher row has written (R265). -/
def keptBytes (c : Copy) (l : CopyLn) (bs : List Byte) : List (Option Byte) :=
  (List.range l.n).map fun j => if laterRowWrote c l.row (l.row * c.blk.dpitch + l.start + j) then none else some (bs.getD j 0)

/-- Writes a line's destination, marked when its source was; the write is acknowledged at die level at once (R213, R268). A byte that
is none keeps its value. -/
def writeDest (s : State) (cl : Nat) (c : Copy) (o n : Nat) (bs : List (Option Byte)) (marked : Bool) : State × DstOut :=
  let b := c.blk
  if b.dv then
    match copyDstVault s cl c.iid b o n with
    | .error k => (s, .fail k)
    | .ok h =>
      if vFailed (s.vault h.cl) (h.off / 64) then (s, .fail 0x0C)
      else if bs.all Option.isNone then (s, .done)
      else
        let full := (List.range n).map fun i => (bs.getD i none).getD (vPeek (s.vault h.cl) (h.off + i))
        (engineVaultLine s h full marked (!b.dec && !(marked && b.pc)), .done)
  else
    match access s cl c.ctx (wordRef b.dst) (o : Int) n 1 kindCopyOut with
    | (s1, .error (.fault k)) => (s1, .fail k)
    | (s1, .error m) => (s1, .wait m)
    | (s1, .ok hit) =>
      match hit.pas with
      | [] => (s1, .done)
      | pa :: _ =>
        match remoteFails s1 pa true with
        | some k => (s1, .fail k)
        | none =>
          let cs := (hit.pas.zip bs).filterMap fun c => c.2.map fun v => (c.1, v)
          if cs.isEmpty then (s1, .done)
          else (copyFlight s1 cl c hit.masks cs (if marked then [] else wholeLines cs) (if marked then [pa / 64] else []), .done)

/-- Ends a line: its outcome is noted, `status` written when it is the lowest failure so far, and its bytes counted (R269,
R270). A decrypt copy counts nothing before its tag is checked. `wrote`: it has written its destination. -/
def endLine (s : State) (cl : Nat) (c : Copy) (l : CopyLn) (wrote : Bool) (bad : Option Word) : State :=
  let c1 := { c with out := c.out.filter (fun x => x.idx ≠ l.idx), waiting := c.waiting.filter (fun w => w.1 ≠ l.idx)
                     missed := if wrote || c.blk.len ≤ c.blk.dpitch then c.missed else c.missed ++ [l] }
  let lower := match bad, c.failed with
    | some w, none => some (l.idx, w)
    | some w, some (i, v) => if l.idx < i then some (l.idx, w) else some (i, v)
    | none, f => f
  let c2 := { c1 with failed := lower }
  let s1 := setCopy s cl c2
  if c.blk.dec then s1
  else
    let s2 := if lower ≠ c.failed then writeStatus s1 cl c.iid c.blockAt ((lower.map (·.2)).getD 0) else s1
    let s3 := countCopy s2 cl c.iid c.blk.buoy l.n bad.isSome
    if c2.out.isEmpty && issuedAll c2 then dropCopy s3 cl c.id else s3

/-- A line waits: its record is posted, and an invalidation that covers it lets it try again (R268). One that meets a moving page waits
for the invalidation that ends the move; its record names the page's own entry (log entry 89). -/
def lineWaits (s : State) (cl : Nat) (c : Copy) (l : CopyLn) (ref : Ref) (o : Nat) (m : Miss) : State :=
  let wait (level kind addr : Nat) (va frame : Option Nat) : State :=
    let s1 := addRecord s c.ctx (refWord (ref.plus (o : Int))) 4 level kind addr va frame
    setCopy s1 cl { c with waiting := (l.idx, { stage := stageOf kind, addr := addr, va := va, frame := frame }) :: c.waiting }
  match m with
  | .page level kind addr va => wait level kind addr va none
  | .moving f level ipa va => wait level 1 ipa (some va) (some f)
  | _ => setCopy s cl c

/-- The key schedule and IV of a decrypt copy. -/
def copyKey (s : State) (b : ReqBlock) : List (List Byte) × List Byte :=
  match tget? s.slots b.slot with
  | none => ([], [])
  | some k => (aesKeys (beBytes 32 k.key.toNat), beBytes 4 (k.ids.getD b.strm 0).toNat ++ beBytes 8 b.ctr.toNat)

/-- One line of a copy is moved or failed. -/
def moveLine (s : State) (cl : Nat) (c : Copy) (l : CopyLn) : State :=
  let b := c.blk
  let so := if b.dec then (if l.row = 1 then b.len else l.start) else l.row * b.spitch + l.start
  let d := l.row * b.dpitch + l.start
  let tagLine := b.dec && l.row = 1
  match readSource s cl c so l.n with
  | (s1, .later) => setCopy s1 cl c
  | (s1, .wait m) => lineWaits s1 cl c l (wordRef b.src) so m
  | (s1, .fail k) =>
    let w := statusWord 1 k l.idx
    if b.dv && !tagLine then
      match writeDest s1 cl c d l.n (keptBytes c l []) true with
      | (s2, .done) => endLine s2 cl c l true (some w)
      | (s2, _) => endLine s2 cl c l false (some w)
    else endLine s1 cl c l false (some w)
  | (s1, .bytes bs marked) =>
    let bad := if marked then some (statusWord 2 0x0B l.idx) else none
    if b.dec then
      let c1 := { c with cipher := tput c.cipher l.idx bs }
      if tagLine then endLine s1 cl c1 l true bad
      else
        let (ks, iv) := copyKey s1 b
        let plain := gcmDecrypt ks iv (l.start / 16) bs
        match writeDest s1 cl c d l.n (plain.map some) false with
        | (s2, .fail k) => endLine s2 cl c1 l false (some (statusWord 1 k l.idx))
        | (s2, _) => endLine s2 cl c1 l true bad
    else
      match writeDest s1 cl c d l.n (keptBytes c l bs) marked with
      | (s2, .fail k) => endLine s2 cl c l false (some (statusWord 1 k l.idx))
      | (s2, .wait m) => lineWaits s2 cl c l (wordRef b.dst) d m
      | (s2, .done) => endLine s2 cl c l true bad

/-- The slice whose budget a copy's line uses: that of its memory operand, as a cached translation gives it. -/
def lineExhausted (s : State) (cl : Nat) (c : Copy) (l : CopyLn) : Bool :=
  let b := c.blk
  let at? (k : AKind) (r : Ref) (o : Nat) : Bool :=
    match (access s cl c.ctx r (o : Int) 1 1 k).2 with
    | .ok hit => exhausted s (slicePoint (hit.pas.headD 0)) (copyClass s c)
    | .error _ => false
  (!b.sv && !b.zf && at? kindCopyIn (wordRef b.src) (l.row * b.spitch + l.start)) || (!b.dv && at? kindCopyOut (wordRef b.dst) (l.row * b.dpitch + l.start))

/-- COPY_LINE: one of the lines in flight of the engine's started copies is moved or failed; `pick` says which (R267). -/
def execCopyLine (cl pick : Nat) (s : State) : Out :=
  let cs := (((s.cluster cl).copies).filter fun c => c.started && !s.stopped && (s.ctx c.ctx).kill.isNone).map fun c =>
    if copyRuns s c.ctx then fillLines 64 c else c
  let ls := cs.flatMap fun c => (c.out.filter fun l => !c.waiting.any fun w => w.1 = l.idx).map fun l => (c, l)
  match ls[pick % max 1 (min 64 ls.length)]? with
  | none => .next s
  | some (c, l) => if lineExhausted s cl c l then .next s else .next (moveLine (setCopy s cl c) cl c l)

/-! ## Confidential copy-in (R273) -/

/-- A decrypt copy fails whole: its lines are zeroed, marked and left absent. -/
def failWhole (s : State) (cl : Nat) (c : Copy) (w : Word) : State :=
  let s1 := (dstLines s cl c.iid c.blk).foldl (fun s l =>
    engineVaultLine s { cl := l.1, cgid := 0, o := 0, off := 64 * l.2 } (List.replicate 64 0) true false) s
  let s2 := writeStatus s1 cl c.iid c.blockAt w
  dropCopy (countCopy s2 cl c.iid c.blk.buoy c.blk.len true) cl c.id

/-- DECRYPT_TAG_CHECK: the tag of the engine's started decrypt copy whose lines have all been read. -/
def execDecryptTagCheck (cl : Nat) (s : State) : Out :=
  match (s.cluster cl).copies.find? fun c => c.started && c.blk.dec && (issuedAll c && c.out.isEmpty) && (s.ctx c.ctx).kill.isNone with
  | none => .next s
  | some c =>
    let b := c.blk
    match c.failed, tget? s.slots b.slot with
    | some (_, w), _ => .next (failWhole s cl c w)
    | none, none => .next (failWhole s cl c 0x60000000)
    | none, some k =>
      let (ks, iv) := copyKey s b
      let n := b.len / 64
      let ct := (c.cipher.filter fun p => p.1 < n).flatMap (·.2)
      if gcmTag ks iv ct = tgetD [] c.cipher n then
        let s1 := { s with slots := tput s.slots b.slot { k with ctrs := k.ctrs.set b.strm (some b.ctr) } }
        let s2 := setPresence s1 true (dstLines s1 cl c.iid b)
        .next (dropCopy (countCopy s2 cl c.iid b.buoy b.len false) cl c.id)
      else .next (failWhole s cl c 0x30D00000)

/-! ## Key slots (R271, R272) -/

/-- Whether a started copy uses a slot. -/
def slotInFlight (s : State) (slot : Nat) : Bool :=
  s.clusters.any fun u => u.2.copies.any fun c => c.started && c.blk.dec && c.blk.slot = slot

/-- KEYLD.CLR. -/
def execKeyldClr (h : Head) (dst : Reg) (slot : Src) (s : State) : Out :=
  withSrcs s h 12 [{ src := slot }] [{ reg := dst }] fun s1 e vals gtok =>
    match resultTok vals gtok with
    | some tok => finish s1 e 12 dst (poisonWords tok 1) s
    | none =>
      let n := (vals.headD default).v32.toNat
      let done (s2 : State) (v : Word) : Out := finish s2 e 12 dst [(v, false)] s
      if 63 < n then done s1 5
      else match tget? s1.slots n with
        | none => done s1 0
        | some k =>
          if k.ctx ≠ e.cx then done s1 1
          else if slotInFlight s1 n then parkOut s ((s.env? e.tid).getD e) (.slotCopies n)
          else done { s1 with slots := terase s1.slots n } 0

/-- Whether a record's bytes are reached through the IDE stream of a context's TDI, which is in RUN (R272, R399). -/
def streamReaches (s : State) (cx : Nat) (pas : List Nat) : Bool :=
  let n := (s.ctx cx).tdi
  match tget? s.tdis n with
  | none => false
  | some t => t.st = .run && t.stream && pas.all fun pa => isHost pa && t.ranges.any fun r => r.1 ≤ pa - hostBase && pa - hostBase < r.2

/-- The status of a key record, and the slot it gives. -/
def keyRecord (s : State) (cx : Nat) (hit : Hit) (bs : List Byte) : Nat × Option KeySlot :=
  let c := s.ctx cx
  if !streamReaches s cx hit.pas then (2, none)
  else if (bs.drop 106).any (· ≠ 0) || leNat ((bs.drop 104).take 2) ≠ c.tdi then (4, none)
  else
    match (tgetD {} s.tdis c.tdi).kwk with
    | none => (3, none)
    | some kek =>
      match keyUnwrap (beBytes 32 kek.toNat) (bs.take 104) with
      | none => (3, none)
      | some p =>
        (0, some { ctx := cx, tdi := c.tdi, key := BitVec.ofNat 256 (beNat (p.take 32))
                   ids := bytesToWords (p.drop 32), ctrs := List.replicate 16 none })

/-- KEYLD (R272). -/
def execKeyld (h : Head) (dst : Reg) (base : Src) (slot : Src) (disp : BitVec 32) (s : State) : Out :=
  withSrcs s h 12 [{ src := base, words := 2 }, { src := slot }] [{ reg := dst }] fun s1 e vals gtok =>
    match resultTok vals gtok with
    | some tok => finish s1 e 12 dst (poisonWords tok 1) s
    | none =>
      let n := (vals.getD 1 default).v32.toNat
      let ref := wordRef (vals.headD default).v64
      if 63 < n then finish s1 e 12 dst [(5, false)] s
      else if (tget? s1.slots n).isSome then finish s1 e 12 dst [(1, false)] s
      else match access s1 e.cl e.cx ref disp.toInt 128 16 kindRead with
        | (s2, .error m) =>
          if h.sp then finish s2 (e.refresh s2) 12 dst (poisonWords (mkToken (missCode m) 3 e.t.pc.offset) 1) s
          else
            let s3 := (access s e.cl e.cx ref disp.toInt 128 16 kindRead).1
            missOut s3 (e.refresh s3) ref disp.toInt kindRead 3 m
        | (s2, .ok hit) =>
          let e2 := e.refresh s2
          let bs := hit.pas.map (s2.loadByte (.group e.t.gid e.g.core))
          match keyRecord s2 e.cx hit bs with
          | (_, some k) => finish { s2 with slots := tput s2.slots n k } e2 12 dst [(0, false)] s
          | (st, none) => finish s2 e2 12 dst [(BitVec.ofNat 32 st, false)] s

end Sys2Proof.Machine
end

