-- ==== Sys2Proof/Machine/Hidden.lean ====
section
/-! DEFINITION. Hidden.lean: what happens to caches, to error sites and to clocks without an instruction of the opcode
table: evictions (R253), prefetch of instructions (R173), cleaning of an L1 (R172), error sites (R225, R252, R383),
disagreements of redundant hardware (R152, R294, R295) and the crossbar clocks (R5). -/

namespace Sys2Proof.Machine

open Sys2Proof

/-- Drops element `i` of a list. -/
def dropAt {α : Type} (l : List α) (i : Nat) : List α := l.take i ++ l.drop (i + 1)

/-- The masks a frame was first reached with. -/
def frameMasks (s : State) (pa : Nat) : List Nat := ((tget? s.hashes (frameOf pa)).map (·.1)).getD defaultMasks

/-- Writes a line's dirty bytes back to its memory, as a request of a class at its port, and lets the line go (R253, R257, R263). -/
def writeBackAs (s : State) (cls : Nat) (l : CLine) : State :=
  let s1 := if l.dirty.isEmpty then s else countPc (askPort s cls l.line) l.ctx (frameMasks s (64 * l.line)) l.line 1
  { s1 with mem := memWrites s1.mem (l.dirty.map fun d => (64 * l.line + d.1, d.2))
            lines := s1.lines.filter fun x => x.line ≠ l.line }

/-- The write-back of an eviction, in the class of the context that wrote the line last. -/
def writeBack (s : State) (l : CLine) : State := writeBackAs s (classAt s l.ctx l.line) l

/-- An L2 eviction: into the victim cache, or, for CXL memory and where the victim cache is full, written back (R253). -/
def evictL2 (s : State) (line : Nat) : State :=
  match findLine s.lines line with
  | some l =>
    if l.victim then s
    else if isHbm (64 * line) && cacheRoom s true line then { s with lines := s.lines.map fun x => if x.line = line then { x with victim := true } else x }
    else writeBack s l
  | none => s

/-- A victim-cache eviction (R253). -/
def evictVictim (s : State) (line : Nat) : State :=
  match findLine s.lines line with
  | some l => if l.victim then writeBack s l else s
  | none => s

/-- A thread fetches one more parcel ahead of the ones it holds (R173). -/
def prefetchParcel (s : State) (e : Env) : State :=
  if e.t.status ≠ .ready then s
  else
    let held := (List.range 16).filter fun k => (e.t.fetched.any fun p => p.1 = (refWord (pcAdd e.t.pc (4 * k))).toNat)
    let pc := pcAdd e.t.pc (4 * held.length)
    match fetchParcel s e pc with
    | (_, .error _) => s
    | (s1, .ok w) => s1.modThread e.tid fun t => { t with fetched := t.fetched ++ [((refWord pc).toNat, w)] }

end Sys2Proof.Machine
end

