-- ==== Sys2Proof/Machine/Lantern.lean ====
section
/-! DEFINITION. Lantern.lean: worlds, the tag store and the Lantern entries, and SMPG (R321 to R339). -/

namespace Sys2Proof.Machine

open Sys2Proof

/-! ## Grants and key words (R322, R323) -/

/-- A grant taken apart. -/
structure LGrant where
  ok : Bool
  age : Bool
  inv : Bool
  fill : Bool
  look : Bool
  tag : Nat
  world : Nat
  heap : Nat
deriving DecidableEq, Repr, Inhabited

def readGrant (w : BitVec 64) : LGrant :=
  { ok := w.getLsbD 63 && w.extractLsb' 53 6 = 0 && w.extractLsb' 36 5 = 0
    age := w.getLsbD 62, inv := w.getLsbD 61, fill := w.getLsbD 60, look := w.getLsbD 59
    tag := (w.extractLsb' 41 12).toNat, world := (w.extractLsb' 24 12).toNat, heap := (w.extractLsb' 0 24).toNat }

/-- A key word's fields. -/
def keyRev (k : Word) : Nat := (k.extractLsb' 16 16).toNat
def keyLevel (k : Word) : Nat := (k.extractLsb' 8 5).toNat
def keyOk (k : Word) : Bool := k.extractLsb' 13 3 = 0 && k.extractLsb' 6 2 = 0

/-- The grant of a handle, when nothing of R323 denies it. -/
def grantFor (s : State) (cx handle : Nat) (right : LGrant → Bool) : Option LGrant :=
  let g := readGrant ((s.ctx cx).grants.getD handle 0)
  match tget? s.worlds g.world with
  | some w => if g.ok && right g && w.live && g.tag = w.tag then some g else none
  | none => none

/-- The grant a key word names, when it resolves (R323). -/
def resolveKey (s : State) (cx : Nat) (k : Word) (right : LGrant → Bool) : Option LGrant :=
  if keyOk k then grantFor s cx (k.extractLsb' 0 6).toNat right else none

/-! ## The tag store (R324 to R328) -/

/-- Home die and set of a key (R324). -/
def lanternHome (world : Nat) (obj uv : Word) (level : Nat) : Nat × Nat :=
  let f : Word := obj ^^^ uv ^^^ (BitVec.ofNat 32 world <<< 20) ^^^ (BitVec.ofNat 32 level <<< 27)
  let g := f ^^^ (f >>> 13)
  ((g.extractLsb' 0 2).toNat, (g.extractLsb' 2 18).toNat)

/-- Whether an entry holds a key. -/
def LEntry.isKey (e : LEntry) (world : Nat) (obj uv : Word) (level : Nat) : Bool :=
  e.world = world && e.obj = obj && e.uv = uv && e.level = level

/-- The entry of a key. -/
def findKey (s : State) (world : Nat) (obj uv : Word) (level : Nat) : Option LEntry :=
  s.lantern.find? fun e => e.isKey world obj uv level

/-- The same place of the tag store. -/
def LEntry.sameWay (a b : LEntry) : Bool := a.die = b.die && a.set = b.set && a.way = b.way

/-- Takes an entry out; its slot joins its world's pending list (R328). -/
def dropEntry (s : State) (e : LEntry) : State :=
  let s1 := { s with lantern := s.lantern.filter fun x => !x.sameWay e }
  match tget? s1.worlds e.world with
  | some w => { s1 with worlds := tput s1.worlds e.world { w with pending := w.pending ++ [e.slot] } }
  | none => s1

/-- Replaces an entry. -/
def putEntry (s : State) (e : LEntry) : State := { s with lantern := s.lantern.filter (fun x => !x.sameWay e) ++ [e] }

/-- Slots of a world that entries hold. -/
def usedSlots (s : State) (world : Nat) : List Nat := (s.lantern.filter fun e => e.world = world).map (·.slot)

/-- Free slots of a world: neither held nor pending (R327, R328). -/
def freeCount (s : State) (world : Nat) : Nat :=
  match tget? s.worlds world with
  | some w => if w.live then w.nslot - (usedSlots s world).length - w.pending.length else 0
  | none => 0

/-- The lowest free slot. -/
def lowestFree (s : State) (world : Nat) : Option Nat :=
  match tget? s.worlds world with
  | none => none
  | some w =>
    let taken := usedSlots s world ++ w.pending
    ((List.range (taken.length + 1)).find? fun n => !taken.contains n).filter fun n => n < w.nslot

/-- The older of two entries, the lower way at the same age. -/
def olderWay (a b : LEntry) : LEntry := if a.age < b.age || (a.age = b.age && b.way < a.way) then b else a

/-- A way for a new entry, with the entry it replaces (R326). -/
def allocWay (s : State) (die set : Nat) : Option (Nat × Option LEntry) :=
  let here := s.lantern.filter fun e => e.die = die && e.set = set
  match (List.range 16).find? fun w => !here.any fun e => e.way = w with
  | some w => some (w, none)
  | none =>
    match here.filter (·.valid) with
    | [] => none
    | e :: es => let v := es.foldl olderWay e; some (v.way, some v)

/-- Records a miss queue holds (R329). -/
def missRoom : Nat := 4096

/-- Records of a world's miss queue that take room: those waiting, and those a thread has begun to pop (R130). -/
def missHeld (s : State) (world : Nat) : Nat :=
  let popping (p : Port) : Nat := match p.binding with
    | .miss w _ => if w = world then p.pops.length else 0
    | _ => 0
  ((tget? s.worlds world).map fun w => w.missq.length).getD 0 +
    s.groups.foldl (fun n g => g.2.ports.foldl (fun n p => n + popping p) n) 0

/-- What a lookup finds (R331). -/
inductive Look where
  | hit (rev slot : Nat)
  | inflight (rev slot : Nat)
  | miss (slot : Nat)
  | full

/-- One lookup at a key's home. -/
def lookup (s : State) (world : Nat) (obj uv : Word) (level rev : Nat) : State × Look :=
  let found := findKey s world obj uv level
  let w := (tget? s.worlds world).getD default
  let alloc (old : Option LEntry) (die set way : Nat) : State × Look :=
    match lowestFree s world with
    | none => (s, .full)
    | some slot =>
      if missRoom ≤ missHeld s world then (s, .full)
      else
        let s1 := match old with
          | some e => dropEntry s e
          | none => s
        let e : LEntry := { die := die, set := set, way := way, world := world, obj := obj, level := level, uv := uv
                            valid := false, rev := rev, age := 0, tag := w.tag, slot := slot, claim := none }
        let s2 := putEntry s1 e
        let w2 := (tget? s2.worlds world).getD w
        let rec0 : List Word := [obj, uv, BitVec.ofNat 32 (rev * 2 ^ 16 + level * 2 ^ 8), BitVec.ofNat 32 slot]
        ({ s2 with worlds := tput s2.worlds world { w2 with missq := w2.missq ++ [rec0] } }, .miss slot)
  match found with
  | some e =>
    if e.rev = rev then
      if e.valid then (putEntry s { e with age := 0 }, .hit e.rev e.slot) else (s, .inflight e.rev e.slot)
    else alloc (some e) e.die e.set e.way
  | none =>
    let h := lanternHome world obj uv level
    match allocWay s h.1 h.2 with
    | none => (s, .full)
    | some (way, old) => alloc old h.1 h.2 way

/-! ## LNLK (R331, R332) -/

/-- The rights of a heap (R323). -/
def kindLook : AKind := { entry := 0x41, code := 0 }

/-- The four destination words of a lookup (R331). -/
def lookWords (heap : Nat) (l : Look) : List Word :=
  let ref (slot : Nat) : List Word := valWords 2 (heap * 2 ^ 40 + 512 * slot)
  match l with
  | .hit rev slot => [0, BitVec.ofNat 32 rev] ++ ref slot
  | .inflight rev slot => [1, BitVec.ofNat 32 rev] ++ ref slot
  | .miss slot => [2, 0] ++ ref slot
  | .full => [3, 0, 0, 0]

/-- LNLK and LNLK.W. -/
def lookOut (s : State) (h : Head) (wait : Bool) (dst : Reg) (obj uv key : Src) : Out :=
  withSrcs s h 12 [{ src := obj }, { src := uv }, { src := key }] [{ reg := dst, words := 4 }] fun s1 e vals gtok =>
    let issue (s : State) (ws : List (Word × Bool)) : Out := .next (issueAcc s (e.refresh s) 12 0xE8 3 h.sp (xRegs dst 4) (.done ws))
    match gtok, resultTok vals gtok with
    | some _, some t => finishTok s1 e 12 dst 4 t
    | _, some t => issue s1 (poisonWords t 4)
    | _, none =>
      if captiveFull e.t then .next s
      else
        let deny (s : State) : Out :=
          if h.sp then issue s (List.replicate 4 (mkToken 0x10 6 e.t.pc.offset, true)) else issue s (cleanWords [4, 0, 0, 0])
        let ob := (vals.headD default).v32
        let v := (vals.getD 1 default).v32
        let k := (vals.getD 2 default).v32
        match resolveKey s1 e.cx k (·.look) with
        | none => deny s1
        | some g =>
          match bufferOf s1 e.cl e.cx g.heap with
          | (s2, .error m) =>
            if h.sp then issue s2 (List.replicate 4 (mkToken (missCode m) 6 e.t.pc.offset, true))
            else
              let s3 := (bufferOf s e.cl e.cx g.heap).1
              missOut s3 (e.refresh s3) { index := BitVec.ofNat 24 g.heap, offset := 0 } 0 kindRead 6 m
          | (s2, .ok raw) =>
            let w := (tget? s2.worlds g.world).getD default
            match checkEntry (s2.ctx e.cx) e.cx raw kindLook 0 (512 * w.nslot) with
            | .error _ => deny s2
            | .ok _ =>
              match lookup s2 g.world ob v (keyLevel k) (keyRev k) with
              | (s3, .inflight r slot) =>
                if wait then parkOut s ((s.env? e.tid).getD e) (.lnInflight g.world ob (keyLevel k) v (keyRev k))
                else issue s3 (cleanWords (lookWords g.heap (.inflight r slot)))
              | (s3, l) => issue s3 (cleanWords (lookWords g.heap l))

/-- LNLK (R331). -/
def execLnlk (h : Head) (dst : Reg) (obj uv key : Src) (s : State) : Out := lookOut s h false dst obj uv key

/-- LNLK.W (R332). -/
def execLnlkW (h : Head) (dst : Reg) (obj uv key : Src) (s : State) : Out := lookOut s h true dst obj uv key

/-! ## LNFIL, LNINV, LNAGE (R333, R335, R336) -/

/-- The frame of an entry that resolves a key word with a right: poison, denial, then `go`. -/
def lanternOut (s : State) (h : Head) (srcs : List Src) (dst : Reg) (dw : Nat) (key : List SrcVal → Word) (ok : Word → Bool)
    (right : LGrant → Bool) (go : State → Env → List SrcVal → LGrant → Out) : Out :=
  withSrcs s h 12 (srcs.map fun x => { src := x }) [{ reg := dst, words := dw }] fun s1 e vals gtok =>
    match resultTok vals gtok with
    | some t => finishTok s1 e 12 dst dw t
    | none =>
      match (if ok (key vals) then resolveKey s1 e.cx (key vals) right else none) with
      | none => if h.sp then finishTok s1 e 12 dst dw (mkToken 0x10 6 e.t.pc.offset) else .next (raiseFault s1 e 0x10 6)
      | some g => go s1 e vals g

/-- LNFIL: what follows its boundary is `fillTile` (R333). -/
def execLnfil (h : Head) (dst : Reg) (obj uv key : Src) (s : State) : Out :=
  lanternOut s h [obj, uv, key] dst 1 (fun v => (v.getD 2 default).v32) (fun _ => true) (·.fill) fun s e vals g =>
    endQuantumOut s e (.lnfil 12 dst g.world (vals.headD default).v32 (vals.getD 1 default).v32 (vals.getD 2 default).v32 [])

/-- The fill itself: 0, or 1 for a stale one. -/
def fillTile (s : State) (cx world : Nat) (obj uv key : Word) : State × Word :=
  match findKey s world obj uv (keyLevel key) with
  | some e =>
    if !e.valid && e.rev = keyRev key && (e.claim = none || e.claim = some cx) then
      (putEntry s { e with valid := true, age := 0, claim := none }, 0)
    else (s, 1)
  | none => (s, 1)

/-- LNINV.KEY: one home access (R335). -/
def execLninvKey (h : Head) (dst : Reg) (obj uv key : Src) (s : State) : Out :=
  lanternOut s h [obj, uv, key] dst 1 (fun v => (v.getD 2 default).v32) (fun _ => true) (·.inv) fun s e vals g =>
    let srcs : List SrcReq := [{ src := obj }, { src := uv }, { src := key }]
    let k := (vals.getD 2 default).v32
    match findKey s g.world (vals.headD default).v32 (vals.getD 1 default).v32 (keyLevel k) with
    | some x => let s1 := dropEntry s x; finishLand s1 (e.refresh s1) 12 srcs vals dst [(1, false)]
    | none => finishLand s e 12 srcs vals dst [(0, false)]

/-- The forms that walk the tag store. -/
def walkObj : Nat := 1
def walkRev : Nat := 2
def walkAge : Nat := 3
def walkEvict : Nat := 4

/-- LNINV.OBJ (R335). -/
def execLninvObj (h : Head) (dst : Reg) (obj key : Src) (s : State) : Out :=
  lanternOut s h [obj, key] dst 1 (fun v => (v.getD 1 default).v32) (fun _ => true) (·.inv) fun s e vals g =>
    parkOut s e (.lnWalk walkObj dst g.world g.heap (vals.headD default).v32 0 0 0 [] 0 0)

/-- LNINV.REV (R335). -/
def execLninvRev (h : Head) (dst : Reg) (obj key : Src) (s : State) : Out :=
  lanternOut s h [obj, key] dst 1 (fun v => (v.getD 1 default).v32) (fun _ => true) (·.inv) fun s e vals g =>
    parkOut s e (.lnWalk walkRev dst g.world g.heap (vals.headD default).v32 (keyRev (vals.getD 1 default).v32) 0 0 [] 0 0)

/-- LNAGE (R336). -/
def execLnage (h : Head) (dst : Reg) (key target : Src) (thr : BitVec 8) (s : State) : Out :=
  lanternOut s h [key, target] dst 2 (fun v => (v.headD default).v32) (fun k => keyRev k = 0 && keyLevel k = 0) (·.age) fun s e vals g =>
    match tget? s.worlds g.world with
    | none => .next s
    | some w =>
      if w.ageing then parkOut s e (.lnAge g.world)
      else
        let s1 := { s with worlds := tput s.worlds g.world { w with ageing := true } }
        parkOut s1 e (.lnWalk walkAge dst g.world g.heap 0 0 (vals.getD 1 default).v32.toNat thr.toNat w.pending 0 0)

/-! ## The walks, entry by entry -/

/-- An entry's place in the order of a walk. -/
def LEntry.place (e : LEntry) : Nat := (e.set * 16 + e.way) * 4 + e.die

/-- The first entry at or after a cursor that a walk selects. -/
def nextEntry (s : State) (cursor : Nat) (sel : LEntry → Bool) : Option LEntry :=
  (s.lantern.filter fun e => cursor ≤ e.place && sel e).foldl (fun r e => match r with
    | none => some e
    | some x => if e.place < x.place then some e else some x) none

/-- The entry that a sweep evicts next: age above the threshold, greatest age, lowest slot. -/
def victimEntry (s : State) (world thr : Nat) : Option LEntry :=
  (s.lantern.filter fun e => e.world = world && e.valid && thr < e.age).foldl (fun r e => match r with
    | none => some e
    | some x => if x.age < e.age || (x.age = e.age && e.slot < x.slot) then some e else some x) none

/-- The lines of a slot through one context's buffer of the heap. -/
def heapLines (s : State) (cl slot : Nat) (via : Nat × Nat) : Option (List Nat) :=
  match bufferOf s cl via.1 via.2 with
  | (s1, .ok (some raw)) =>
    match checkPages { entry := 0, code := 0 } cl via.1 2 s1 ((bufEntry raw).base + 512 * slot) 512 with
    | (_, .ok pas) => some (linesOf pas)
    | _ => none
  | _ => none

/-- The buffers through which contexts reach a world's heap (R322). -/
def heapsOf (s : State) (world : Nat) : List (Nat × Nat) :=
  s.ctxs.flatMap fun c => (c.2.grants.map readGrant).filterMap fun g => if g.ok && g.world = world then some (c.1, g.heap) else none

/-- The lines of a slot: through the heap of the context that sweeps, else through that of another context with a grant to the world
(log entry 49). -/
def slotLines (s : State) (cl cx heap world slot : Nat) : List Nat :=
  (((cx, heap) :: heapsOf s world).findSome? (heapLines s cl slot)).getD []

/-- Writes back and drops resident lines, as requests of a class. -/
def flushLines (s : State) (cls : Nat) (ls : List Nat) : State :=
  ls.foldl (fun s l => match findLine s.lines l with
    | some x => writeBackAs (askSlice s cls l) cls x
    | none => s) s

/-- The pending slots of a sweep's start become free (R328, R336). -/
def endSweep (s : State) (world : Nat) (p0 : List Nat) : State :=
  match tget? s.worlds world with
  | none => s
  | some w => { s with worlds := tput s.worlds world { w with ageing := false, pending := w.pending.filter fun n => !p0.contains n } }

/-- A walking thread's next access, or its end. -/
def walkStep (s : State) (e : Env) (which : Nat) (dst : Reg) (world heap : Nat) (obj : Word) (rev target thr : Nat) (p0 : List Nat)
    (cursor n : Nat) : State :=
  let again (s : State) (which cursor n : Nat) : State :=
    s.modThread e.tid fun t => { t with status := .parked (.lnWalk which dst world heap obj rev target thr p0 cursor n) }
  if which = walkObj || which = walkRev then
    match nextEntry s cursor fun x => x.world = world && x.obj = obj && (which = walkObj || x.rev ≠ rev) with
    | some x => again (dropEntry s x) which (x.place + 1) (n + 1)
    | none =>
      if (dstWait s e { reg := dst }).isSome then s else wakeNext (writeDst s e dst [(BitVec.ofNat 32 n, false)]) e.tid 12
  else if which = walkAge then
    match nextEntry s cursor fun x => x.world = world && x.valid with
    | some x => again (putEntry s { x with age := min (x.age + 1) 255 }) which (x.place + 1) 0
    | none => again s walkEvict 0 0
  else
    let pend := ((tget? s.worlds world).map fun w => w.pending.length).getD 0
    match (if freeCount s world + pend < target then victimEntry s world thr else none) with
    | some x =>
      let s1 := flushLines s 11 (slotLines s e.cl e.cx heap world x.slot)
      again (dropEntry s1 x) which 0 (n + 1)
    | none =>
      let s1 := endSweep s world p0
      if (dstWait s e { reg := dst, words := 2 }).isSome then s else wakeNext (writeDst s1 e dst (cleanWords [BitVec.ofNat 32 n, BitVec.ofNat 32 (freeCount s1 world)])) e.tid 12

/-! ## Kill and world death (R337, R338) -/

/-- A killed context's claimed entries revert, and a sweep it was running ends. -/
def revertClaims (s : State) (cx : Nat) : State := (s.lantern.filter fun e => e.claim = some cx).foldl dropEntry s

/-- A world stops being live: its queue is gone, and the ports bound to it meet 0x0E. -/
def endWorld (s : State) (world : Nat) : State :=
  match tget? s.worlds world with
  | none => s
  | some w =>
    let cut (p : Port) : Port := match p.binding with
      | .miss x _ => if x = world then {} else p
      | _ => p
    let cutGroup (_ : Nat) (g : CoreGroup) : CoreGroup := { g with ports := g.ports.map cut }
    let s1 := { s with lantern := s.lantern.filter fun e => e.world ≠ world
                       groups := tmap cutGroup s.groups
                       ctxs := tmap (fun _ (c : Ctx) => { c with image := c.image.map fun (i : Image) => { i with groups := tmap cutGroup i.groups } }) s.ctxs }
    { s1 with worlds := tput s1.worlds world { w with live := false, pending := [], missq := [], ageing := false } }

/-- Every world that a context owns stops being live. -/
def endWorldsOf (s : State) (cx : Nat) : State :=
  s.worlds.foldl (fun s w => if w.2.owner = cx && w.2.live then endWorld s w.1 else s) s

/-! ## SMPG (R339) -/

/-- `mix(i)` of R339. -/
def sampleMix (seed pos : Word) (i : Nat) : BitVec 64 :=
  let h : BitVec 64 := seed.setWidth 64 ^^^ (BitVec.ofNat 64 (pos.toNat * 8 + i) * 0x9E3779B97F4A7C15#64)
  mixRound (mixRound (mixRound h))

/-- The result pair of some positions. -/
def sampleWord (l : List (Nat × Nat)) : Nat := packLanes 12 (l.map fun p => p.1 + 64 * p.2) + l.length * 2 ^ 48

/-- The block's importance: 4 bits of the pair. -/
def blockImportance (imp : Nat) (pos : Word) : Nat := imp / 2 ^ (4 * (pos.toNat % 16)) % 16

/-- The samples of a block. -/
def sampleBlock (p : Nat) (seed pos : Word) : List (Nat × Nat) :=
  let n := p / 4 + (if (sampleMix seed pos 7).toNat / 2 ^ 62 < p % 4 then 1 else 0)
  (List.range n).map fun i => ((sampleMix seed pos i).toNat / 2 ^ 58, (sampleMix seed pos i).toNat / 2 ^ 52 % 64)

/-- The fixed positions of `.GRID`. -/
def gridBlock (p : Nat) : List (Nat × Nat) :=
  [[], [(32, 32)], [(16, 16), (48, 48)], [(16, 16), (48, 16), (32, 48)], [(16, 16), (48, 16), (16, 48), (48, 48)]].getD ((p + 3) / 4) []

/-- SMPG (R339). -/
def execSmpg (h : Head) (dst : Reg) (imp seed pos : Src) (s : State) : Out :=
  let srcs : List SrcReq := [{ src := imp, words := 2 }, { src := seed }, { src := pos }]
  withSrcs s h 12 srcs [{ reg := dst, words := 2 }] fun s1 e vals gtok =>
    match resultTok vals gtok with
    | some t => finishLand s1 e 12 (if gtok.isSome then [] else srcs) vals dst (poisonWords t 2)
    | none =>
      let ps := (vals.getD 2 default).v32
      let p := blockImportance (vals.headD default).v64.toNat ps
      finishLand s1 e 12 srcs vals dst (cleanWords (valWords 2 (sampleWord (sampleBlock p (vals.getD 1 default).v32 ps))))

/-- SMPG.GRID (R339). -/
def execSmpgGrid (h : Head) (dst : Reg) (imp pos : Src) (s : State) : Out :=
  let srcs : List SrcReq := [{ src := imp, words := 2 }, { src := pos }]
  withSrcs s h 12 srcs [{ reg := dst, words := 2 }] fun s1 e vals gtok =>
    match resultTok vals gtok with
    | some t => finishLand s1 e 12 (if gtok.isSome then [] else srcs) vals dst (poisonWords t 2)
    | none =>
      let p := blockImportance (vals.headD default).v64.toNat (vals.getD 1 default).v32
      finishLand s1 e 12 srcs vals dst (cleanWords (valWords 2 (sampleWord (gridBlock p))))

end Sys2Proof.Machine
end

