-- ==== Sys2Proof/Machine/Regs.lean ====
section
/-! DEFINITION. Regs.lean: FSET, KSET, REGS, the queue ports' own instructions (R126 to R135) and the system registers
(R373 to R377). -/

namespace Sys2Proof.Machine

open Sys2Proof

/-! ## Tags and constants (R126, R128) -/

/-- Sets or clears the F tag of a destination. -/
def fsetOut (s : State) (h : Head) (w64 : Bool) (dst : Reg) (v : Bool) : Out :=
  withSrcs s h 8 [] [{ reg := dst, words := wordsOf w64 }] fun s e _ gtok =>
    match gtok with
    | some tok => finishTok s e 8 dst (wordsOf w64) tok
    | none =>
      let t := (xRegs dst (wordsOf w64)).foldl (fun t n => setReg t n { regAt t n with full := v }) e.t
      .next (s.setThread e.tid (advance t 8))

/-- FSET.SET (R126). -/
def execFsetSet (h : Head) (w64 : Bool) (dst : Reg) (s : State) : Out := fsetOut s h w64 dst true

/-- FSET.CLR (R126). -/
def execFsetClr (h : Head) (w64 : Bool) (dst : Reg) (s : State) : Out := fsetOut s h w64 dst false

/-- Writes consecutive elements of a list. -/
def setMany (l : List Word) (n : Nat) : List Word → List Word
  | [] => l
  | w :: ws => setMany (l.set n w) (n + 1) ws

/-- KSET (R128). -/
def execKset (h : Head) (w64 : Bool) (dst : Reg) (v : OpB) (s : State) : Out :=
  let n := wordsOf w64
  withSrcs s h 8 ((v.srcs n).map fun p => { src := p.1, words := p.2 }) [] fun s1 e vals gtok =>
    if gtok.isSome then fallThrough s1 e 8
    else match resultTok vals none with
      | some tok => .next (raiseFaultTok s ((s.env? e.tid).getD e) tok)
      | none =>
        let ws := match v with
          | .imm i => valWords n (wrapTo (32 * n) i.toInt)
          | .reg _ => (vals.headD default).words.take n
        let s2 := match dst with
          | .k r => s1.modGroup e.t.gid fun g => { g with k := setMany g.k r ws }
          | _ => s1
        .next (s2.modThread e.tid fun t => advance t 8)

/-! ## REGS (R135) -/

/-- Registers a core's pool holds for its groups. -/
def poolUsed (s : State) (core : Nat) : Nat :=
  s.groups.foldl (fun n p => if p.2.core = core then n + p.2.nregs * ((tget? s.insts p.2.iid).map (·.tsz)).getD 0 else n) 0

/-- The register pool of a core. -/
def poolSize : Nat := 262144

/-- A thread of a REGS gets its answer and runs on. -/
def regsAnswer (v : Bool) (code : Option Nat) (t : Thread) : Thread :=
  match t.status with
  | .parked (.regs pd) | .parked (.regsGrow pd) =>
    { advance (writePred t pd v (code.map fun c => mkToken c 0 t.pc.offset)) 8 with status := .ready }
  | _ => t

/-- Applies `f` to every thread of a core group. -/
def modThreadsOf (s : State) (gid : Nat) (f : Thread → Thread) : State :=
  { s with threads := tmap (fun _ t => if t.gid = gid then f t else t) s.threads }

/-- Registers 0 to n − 1: some discarded, or new ones at zero. -/
def resizeRegs (n : Nat) (t : Thread) : Thread :=
  { t with regs := t.regs.take n ++ List.replicate (n - t.regs.length) {} }

/-- Whether a REGS that waits may be carried out. -/
def regsReady (s : State) (gid : Nat) (g : CoreGroup) (n ord : Nat) : Bool :=
  if n ≤ g.nregs then
    s.threads.all fun p => p.2.gid ≠ gid || (p.2.regs.drop n).all fun c => c.pend = .no && !c.lent
  else
    let t := ((tget? s.insts g.iid).map (·.tsz)).getD 0
    poolUsed s g.core + t * (n - g.nregs) ≤ poolSize &&
      !(s.groups.any fun p => p.1 ≠ gid && p.2.core = g.core && (match p.2.growing with
        | some (m, o) => p.2.nregs < m && o < ord
        | none => false))

/-- Carries out a REGS that waits, if it may be. -/
def regsTry (s : State) (gid : Nat) : State :=
  match tget? s.groups gid with
  | none => s
  | some g =>
    match g.growing with
    | none => s
    | some (n, ord) =>
      if regsReady s gid g n ord then
        modThreadsOf (s.setGroup gid { g with nregs := n, growing := none }) gid fun t => regsAnswer true none (resizeRegs n t)
      else s

/-- Resolves the rendezvous once every live thread has arrived. -/
def regsResolve (s : State) (gid : Nat) : State :=
  match tget? s.groups gid with
  | none => s
  | some g =>
    let live := s.liveOf gid
    match g.regsRdv with
    | [] => s
    | (_, n) :: _ =>
      if !(live.all fun p => g.regsRdv.any fun r => r.1 = p.1) then s
      else
        let s1 := s.setGroup gid { g with regsRdv := [] }
        let t := ((tget? s.insts g.iid).map (·.tsz)).getD 0
        if g.regsRdv.any fun r => r.2 ≠ n then modThreadsOf s1 gid (regsAnswer false (some 0x08))
        else if poolSize < t * n then modThreadsOf s1 gid (regsAnswer false none)
        else
          let wait (t : Thread) : Thread := match t.status with
            | .parked (.regs pd) => { t with status := .parked (.regsGrow pd) }
            | _ => t
          let s2 := modThreadsOf { s1 with fresh := s1.fresh + 1 } gid wait
          regsTry (s2.modGroup gid fun g => { g with growing := some (n, s.fresh) }) gid

/-- REGS (R135). -/
def execRegs (h : Head) (pd : BitVec 3) (n : BitVec 18) (s : State) : Out :=
  withSrcs s h 8 [] [] fun s e _ gtok =>
    match gtok with
    | some tok => finishPred s e 8 pd false (some tok)
    | none =>
      let s1 := (s.setThread e.tid (parkThread e.t (.regs pd))).modGroup e.t.gid fun g =>
        { g with regsRdv := g.regsRdv ++ [(e.tid, n.toNat)] }
      .next (regsResolve s1 e.t.gid)

/-! ## Queue ports (R132 to R134) -/

/-- The number of a port. -/
def qNum : Reg → Nat
  | .q n => n
  | _ => 0

/-- Whether a thread of the core group holds a reservation or an open push slot through a port. -/
def portHeld (s : State) (g : CoreGroup) (gid q : Nat) : Bool :=
  let p := g.ports.getD q {}
  p.pops ≠ [] || (match p.binding with
    | .ring cgid num => (match findRing s cgid num with
      | some (_, r) => r.opens.any fun o => o.port = q && (tget? s.threads o.tid).any fun t => t.gid = gid
      | none => false)
    | _ => false)

/-- The target a descriptor names, or none (R129). -/
def bindTarget (s : State) (e : Env) (d : Word) : Option Binding :=
  let t := d.extractLsb' 0 24
  if d.extractLsb' 24 6 ≠ 0 then none
  else match (d.extractLsb' 30 2).toNat with
    | 0 => if t = 0 then some .unbound else none
    | 1 => if 32 ≤ t.toNat then none
           else (findRing s e.g.cgid t.toNat).map fun _ => .ring e.g.cgid t.toNat
    | 2 =>
      if 64 ≤ t.toNat then none else (grantFor s e.cx t.toNat (·.fill)).map fun g => .miss g.world t.toNat
    | _ => if t = 0 then some .jobs else none

def setBinding (s : State) (gid q : Nat) (b : Binding) : State :=
  s.modGroup gid fun g => { g with ports := g.ports.set q { binding := b } }

/-- QBIND (R132). -/
def execQbind (h : Head) (q : Reg) (a : Src) (s : State) : Out :=
  withSrcs s h 8 [{ src := a }] [] fun s1 e vals gtok =>
    let e0 := (s.env? e.tid).getD e
    if gtok.isSome then fallThrough s1 e 8
    else match (vals.headD default).tok with
      | some tok => if h.sp then fallThrough s1 e 8 else .next (raiseFaultTok s e0 tok)
      | none =>
        if portHeld s1 e.g e.t.gid (qNum q) then parkOut s e0 (.port (qNum q))
        else match bindTarget s1 e (vals.headD default).v32 with
          | some b => fallThrough (setBinding s1 e.t.gid (qNum q) b) e 8
          | none =>
            if h.sp then fallThrough (setBinding s1 e.t.gid (qNum q) .unbound) e 8
            else .next (raiseFault s e0 0x0E 0)

/-- The word of QSTAT (R133). -/
def qstatWord (s : State) (g : CoreGroup) (q : Nat) : Nat :=
  let word (closed : Bool) (kind slot disc free ready : Nat) : Nat :=
    2 ^ 63 + (if closed then 2 ^ 62 else 0) + kind * 2 ^ 60 + slot * 2 ^ 58 + min disc (2 ^ 26 - 1) * 2 ^ 32 +
      min free 0xFFFF * 2 ^ 16 + min ready 0xFFFF
  match (g.ports.getD q {}).binding with
  | .unbound => 0
  | .ring cgid num =>
    match findRing s cgid num with
    | none => 0
    | some (_, r) => word r.closed 1 r.ssz r.discarded (freeSlots r) (readySlots r).length
  | .miss w _ =>
    let n := ((tget? s.worlds w).map fun x => x.missq.length).getD 0
    word false 2 2 0 (missRoom - missHeld s w) n
  | .jobs => word false 3 2 0 (64 - viewHeld g) g.notices.length

/-- QSTAT (R133). -/
def execQstat (h : Head) (dst : Reg) (q : Reg) (s : State) : Out :=
  withSrcs s h 8 [] [{ reg := dst, words := 2 }] fun s1 e _ gtok =>
    match gtok with
    | some tok => finish s1 e 8 dst (poisonWords tok 2) s
    | none => finish s1 e 8 dst (cleanWords (valWords 2 (qstatWord s1 e.g (qNum q)))) s

/-- A ring closes: open push slots are discarded with the words they hold (R131, R134). -/
def closeRing (r : Ring) (v : Word) : Ring :=
  if r.closed then r
  else
    let lost := r.opens.foldl (fun n o => n + o.words.length) 0
    { r with closed := true, cval := v, opens := [], discarded := min (r.discarded + lost) 0xFFFFFFFF }

/-- QCLOSE (R134). -/
def execQclose (h : Head) (q : Reg) (a : Src) (s : State) : Out :=
  withSrcs s h 8 [{ src := a }] [] fun s1 e vals gtok =>
    let e0 := (s.env? e.tid).getD e
    if gtok.isSome then fallThrough s1 e 8
    else match portBinding e (qNum q), (vals.headD default).tok with
      | .unbound, _ => .next (raiseFault s e0 0x0E 0)
      | .miss _ _, _ | .jobs, _ => .next (raiseFault s e0 0x02 0)
      | .ring _ _, some tok => .next (raiseFaultTok s e0 tok)
      | .ring cgid num, none =>
        let s2 := match findRing s1 cgid num with
          | some (cg, r) => putRing s1 cgid cg (closeRing r (vals.headD default).v32)
          | none => s1
        .next (s2.modThread e.tid fun t => advance t 8)

/-! ## System registers (R373 to R377) -/

/-- A replay entry as TFRQi shows it (R370). -/
def replayWord (c : Captive) : Nat :=
  let word (off : BitVec 40) (op fmt dst : Nat) (rs : Bool) : Nat :=
    off.toNat * 2 ^ 24 + op * 2 ^ 16 + fmt * 2 ^ 14 + dst * 2 ^ 6 + (if rs then 2 ^ 5 else 0)
  match c with
  | .acc a => word a.off a.op.toNat a.fmt.toNat (a.dst.headD 0) false
  | .cstr o _ off _ _ _ _ _ _ _ _ => word off 0x65 0 o.cnt.bits.toNat true

/-- VGRP of a vault (R231). -/
def vgrpWord (v : Vault) : Nat :=
  (List.range 8).foldl (fun n g =>
    let p := vGrp v g
    let st := match p.st with
      | .healthy => 0
      | .degraded => 1
      | .noparity => 2
      | .failed => 3
    n + st * 2 ^ (2 * g) + (if p.st = .degraded then p.rbank.getD 0 else 0) * 2 ^ (16 + 2 * g)) 0

/-- A system register's value. -/
def sysRead (s : State) (e : Env) (num : Nat) : Nat :=
  let c := s.ctx e.cx
  let frame (i : Nat) : Nat := if i < e.t.tfrqn.toNat then ((e.t.replay[i]?).map replayWord).getD 0 else 0
  if num = 0x000 then c.tmode.toNat
  else if num = 0x001 then e.t.flags.toNat
  else if num = 0x002 then c.trapbase.toNat
  else if num = 0x010 then e.t.tfcause.toNat
  else if num = 0x011 then e.t.tftoken.toNat
  else if num = 0x012 then e.t.tfpc.toNat
  else if num = 0x013 then e.t.tfrqn.toNat
  else if num = 0x014 then e.t.tfaux.toNat
  else if num = 0x015 then e.t.tfs0.toNat
  else if num = 0x016 then e.t.tfs1.toNat
  else if 0x018 ≤ num ∧ num ≤ 0x01F then frame (num - 0x018)
  else if num = 0x020 then c.foglim.toNat
  else if num = 0x030 then vgrpWord (s.vault e.cl)
  else if num = 0x100 then c.pcsel.toNat + (if c.armed.isSome then 2 ^ 31 else 0)
  else if num = 0x101 then (if c.armed.isSome then tgetD 0 c.counts (c.pcsel.toNat % 256) else 0)
  else 0

/-- MFSR (R375, R376). -/
def execMfsr (h : Head) (dst : Reg) (num : BitVec 12) (s : State) : Out :=
  let n := sysWords num
  withSrcs s h 8 [] [{ reg := dst, words := n }] fun s1 e _ gtok =>
    match gtok with
    | some tok => finishTok s1 e 8 dst n tok
    | none => finish s1 e 8 dst (cleanWords (valWords n (sysRead s1 e num.toNat)))

/-- A write that sets a reserved bit, or misaligns TFPC (R377). -/
def sysBad (num v : Nat) : Bool :=
  if num = 0x000 then 2 ^ 7 ≤ v
  else if num = 0x001 then 2 ^ 5 ≤ v
  else if num = 0x002 then v.testBit 1
  else if num = 0x012 then v % 4 ≠ 0
  else if num = 0x100 then v / 2 ^ 14 % 2 ^ 16 ≠ 0 || v.testBit 11
  else false

/-- A write of PCSEL (R262): with `CLR` it clears and arms, unless 16 other contexts hold the port's sets. -/
def pcselWrite (s : State) (cx v : Nat) : State :=
  let c := s.ctx cx
  if v.testBit 30 then
    let st := v / 2 ^ 8 % 8
    let others := (s.ctxs.filter fun p => p.1 ≠ cx && (p.2.armed.map (·.1)) = some st).length
    s.setCtx cx { c with pcsel := BitVec.ofNat 32 (v % 2 ^ 14), counts := []
                         armed := if 16 ≤ others then none else some (st, v / 2 ^ 12 % 4) }
  else s.setCtx cx { c with pcsel := BitVec.ofNat 32 (c.pcsel.toNat / 2 ^ 8 * 2 ^ 8 + v % 2 ^ 8) }

/-- Writes a system register. -/
def sysWrite (s : State) (e : Env) (num : Nat) (v : Nat) : State :=
  let c := s.ctx e.cx
  if num = 0x000 then s.setCtx e.cx { c with tmode := BitVec.ofNat 32 v }
  else if num = 0x001 then s.setThread e.tid { e.t with flags := BitVec.ofNat 5 v }
  else if num = 0x002 then s.setCtx e.cx { c with trapbase := BitVec.ofNat 64 v }
  else if num = 0x012 then s.setThread e.tid { e.t with tfpc := BitVec.ofNat 64 v }
  else if num = 0x015 then s.setThread e.tid { e.t with tfs0 := BitVec.ofNat 64 v }
  else if num = 0x016 then s.setThread e.tid { e.t with tfs1 := BitVec.ofNat 64 v }
  else if num = 0x020 then s.setCtx e.cx { c with foglim := BitVec.ofNat 32 v }
  else if num = 0x100 then pcselWrite s e.cx v
  else s

/-- Registers held per context: the write parks until every core has taken it (R377). -/
def perContext (num : Nat) : Bool := num = 0x000 || num = 0x002 || num = 0x020 || num = 0x100

/-- MTSR (R375, R377). -/
def execMtsr (h : Head) (num : BitVec 12) (a : Src) (s : State) : Out :=
  let n := sysWords num
  withSrcs s h 8 [{ src := a, words := n }] [] fun s1 e vals gtok =>
    let e0 := (s.env? e.tid).getD e
    let v := (vals.headD default).nat n
    if gtok.isSome then fallThrough s1 e 8
    else match (vals.headD default).tok with
      | some tok => .next (raiseFaultTok s e0 tok)
      | none =>
        if sysBad num.toNat v then .next (raise s e0 { cause := 4, aux := 12 })
        else if perContext num.toNat then parkOut s1 e (.mtsr num.toNat v)
        else .next ((sysWrite s1 e num.toNat v).modThread e.tid fun t => advance t 8)

/-- The context registers that threads of a context are writing, each parked until its value has been taken everywhere. -/
def sysPending (s : State) (cx : Nat) : List (Nat × Nat) :=
  s.threads.filterMap fun p => match p.2.status with
    | .parked (.mtsr num v) => if ctxOf s p.2 = cx then some (num, v) else none
    | _ => none

/-- A context as an instruction sees it that takes a value still being written; the arming of PCSEL waits for the write's end. -/
def viewReg (c : Ctx) (w : Nat × Nat) : Ctx :=
  if w.1 = 0x000 then { c with tmode := BitVec.ofNat 32 w.2 }
  else if w.1 = 0x002 then { c with trapbase := BitVec.ofNat 64 w.2 }
  else if w.1 = 0x020 then { c with foglim := BitVec.ofNat 32 w.2 }
  else c

/-- The writes still under way whose value this turn's instruction already takes (R377). -/
def sysSeen (s : State) (cx : Nat) : List (Nat × Nat) :=
  ((sysPending s cx).zipIdx.filter fun w => Config.sysTaken s.tick w.2).map (·.1)

/-- The machine as such an instruction sees it: an instruction of a context may use either value of a register that a parked MTSR
is writing (R377). -/
def sysView (s : State) (cx : Nat) : State :=
  match sysSeen s cx with
  | [] => s
  | ws => s.setCtx cx (ws.foldl viewReg (s.ctx cx))

/-- The registers still being written stand as they did, whatever the instruction saw. -/
def sysBack (s : State) (cx : Nat) (o : Out) : Out :=
  match sysSeen s cx, o with
  | _ :: _, .next t => .next (t.setCtx cx { t.ctx cx with tmode := (s.ctx cx).tmode, trapbase := (s.ctx cx).trapbase, foglim := (s.ctx cx).foglim })
  | _, o => o

end Sys2Proof.Machine
end

