-- ==== Sys2Proof/Machine/Jobs.lean ====
section
/-! DEFINITION. Jobs.lean: job cards, their queues and their placement (R343 to R358), with `RECON`'s check (R342). -/

namespace Sys2Proof.Machine

open Sys2Proof

/-! ## Cards (R343, R344, R346) -/

/-- A card's 512 bits taken apart. -/
def readCard (b : BitVec 512) : Card :=
  let f (hi lo : Nat) : Nat := (b.extractLsb' lo (hi + 1 - lo)).toNat
  { entry := b.extractLsb' 448 64, arg := b.extractLsb' 384 64, crec := b.extractLsb' 320 64, cadd := b.extractLsb' 256 64
    cval := b.extractLsb' 224 32, parent := b.extractLsb' 192 32
    thr := f 191 181, ncg := f 180 177, nkl := f 176 174, nby := f 173 171, ndi := f 170 161, regs := f 160 156, vlt := f 155 143
    nbar := f 142 136, lvl := f 135 133, scope := f 132 130, pcls := f 129 127, kind := f 126 125
    cr := b.getLsbD 124, ca := b.getLsbD 123, nv := b.getLsbD 122, rsv := f 121 0 }

/-- The sizes of R17: `tsz`, `csz`, `ksz`, `bsz`, `dsz`. -/
def Card.tsz (c : Card) : Nat := c.thr + 1

def Card.csz (c : Card) : Nat := if 2 ≤ c.lvl then c.ncg + 1 else 1

def Card.ksz (c : Card) : Nat := if 3 ≤ c.lvl then c.nkl + 1 else 1

def Card.bsz (c : Card) : Nat := if 4 ≤ c.lvl then c.nby + 1 else 1

def Card.dsz (c : Card) : Nat := if 5 ≤ c.lvl then c.ndi + 1 else 1

/-- Registers of one core group. -/
def Card.pool (c : Card) : Nat := c.tsz * c.regs * 8

/-- R344: the size field of a level at or above the card's is zero. -/
def Card.sizesOk (c : Card) : Bool :=
  (2 ≤ c.lvl || c.ncg = 0) && (3 ≤ c.lvl || c.nkl = 0) && (4 ≤ c.lvl || c.nby = 0) && (5 ≤ c.lvl || c.ndi = 0)

/-- The highest level that a queue accepts (R352). -/
def maxLevel (key : QKey) (dev : Bool) : Nat :=
  match key with
  | .core _ => 1
  | .clu _ => 2
  | .bay _ => 3
  | .die _ => if dev then 5 else 4

/-- Core groups of a card that one empty core takes. -/
def Card.perCore (c : Card) : Nat :=
  min (2048 / c.tsz) (min (poolSize / max 1 c.pool) (if c.nbar = 0 then 16 else 64 / c.nbar))

/-- Steps 1 to 3 of R346: the status of the first failure. -/
def checkCard (c : Card) (key : QKey) (dev : Bool) : Option Nat :=
  if c.rsv ≠ 0 || c.lvl = 0 || 5 < c.lvl || c.scope = 0 || 5 < c.scope || 2 ≤ c.kind || c.regs = 0 || 24 < c.regs || !c.sizesOk then some 1
  else if maxLevel key dev < c.lvl then some 1
  else if poolSize < c.pool || 64 < c.nbar || 16 < c.ncg + 1 || 4096 < c.vlt || 4 * c.perCore < c.ncg + 1 then some 2
  else none

/-! ## Queues (R352, R353) -/

/-- Capacity of a queue. -/
def queueCap : QKey → Nat
  | .core _ => 16
  | .clu _ => 64
  | .bay _ => 128
  | .die _ => 512

/-- The die whose dispatcher serves a queue. -/
def keyDie : QKey → Nat
  | .core n => n / 256
  | .clu n => n / 64
  | .bay n => n / 8
  | .die n => n

/-- Cards that stand in a queue itself. -/
def queueLen (s : State) (key : QKey) : Nat := (s.cards.filter fun p => p.2.key = key && !p.2.spilled).length

/-- The head of a class in a queue: no earlier card of the class stands in the queue (R357). -/
def isHead (s : State) (id : Nat) (q : QCard) : Bool :=
  !q.spilled && !(s.cards.any fun p => p.1 < id && p.2.key = q.key && p.2.card.pcls = q.card.pcls && !p.2.spilled)

/-- Queues refill from the heaps, oldest first, and new heads start to wait (R353, R357). -/
def tidyQueues (s : State) : State :=
  let refill (s : State) (p : Nat × QCard) : State :=
    if p.2.spilled && (s.ctx p.2.ctx).state ≠ .saved && queueLen s p.2.key < queueCap p.2.key then
      { s with cards := tput s.cards p.1 { p.2 with spilled := false } }
    else s
  let s1 := s.cards.foldl refill s
  let since (id : Nat) (q : QCard) : QCard :=
    if q.since.isNone && isHead s1 id q then { q with since := some (s1.xclk.getD (keyDie q.key) 0) } else q
  { s1 with cards := tmap since s1.cards }

/-- A card joins its queue, or its context's heap; none when neither has room (R351, R353). A saved context's cards go to the
heap (R364). -/
def enqueue (s : State) (q : QCard) : Option State :=
  let spills := (s.ctx q.ctx).state = .saved || queueCap q.key ≤ queueLen s q.key ||
    (s.cards.any fun p => p.2.key = q.key && p.2.ctx = q.ctx && p.2.spilled)
  let held := (s.cards.filter fun p => p.2.ctx = q.ctx && p.2.spilled).length
  if spills && (s.ctx q.ctx).hcnt ≤ held then none
  else
    let q1 := { q with spilled := spills, born := s.xclk.headD 0 }
    some (tidyQueues { s with fresh := s.fresh + 1, cards := tput s.cards s.fresh q1 })

/-- A card that is never placed completes by R349 (R346, R352). -/
def completeUnplaced (s : State) (q : QCard) (st code : Nat) : State :=
  let i : Inst := { q := { q with st := st, code := code }, tsz := 0, csz := 0, ksz := 0, bsz := 0, dsz := 0, stage := 1 }
  { s with fresh := s.fresh + 1, insts := tput s.insts s.fresh i }

/-- A queued card leaves its queue. -/
def takeCard (s : State) (id : Nat) : State := tidyQueues { s with cards := terase s.cards id }

/-- A card is posted: it completes at once, waits, or is turned away (R346, R351). -/
def postCard (s : State) (q : QCard) : Option State :=
  match checkCard q.card q.key q.dev with
  | some st => some (completeUnplaced s q st 0)
  | none => enqueue s q

/-! ## POST (R350, R351) -/

/-- Whether a partition owns a cluster. -/
def owns (s : State) (part cl : Nat) : Bool := (s.part part).clu.getLsbD cl

/-- Dies on which a context's partition owns a cluster (R344). -/
def heldDies (s : State) (cx : Nat) : List Nat :=
  (List.range 4).filter fun d => (List.range 64).any fun c => owns s (s.ctx cx).part (64 * d + c)

/-- Whether a core lies in the region of a queued card (R352). -/
def inRegion (s : State) (q : QCard) (core : Nat) : Bool :=
  match q.key with
  | .core n => core = n
  | .clu n => core / 4 = n
  | .bay n => core / 32 = n
  | .die n => if q.dev then (heldDies s q.ctx).contains (core / 256) else core / 256 = n

/-- The cluster a hop leads to. -/
def hopCluster (cl : Nat) (dx dy : BitVec 4) : Option Nat := vaultTarget cl (dx ++ dy ++ (0 : BitVec 24))

/-- The queue a target names from a core; the hop of `.NBR` has been checked. -/
def targetQueue (core : Nat) : PostTarget → QKey × Bool
  | .core => (.core core, false)
  | .clu => (.clu (core / 4), false)
  | .nbr dx dy => (.clu ((hopCluster (core / 4) dx dy).getD 0), false)
  | .bay => (.bay (core / 32), false)
  | .die => (.die (core / 256), false)
  | .dev => (.die (core / 256), true)

/-- The fault of `.NBR`'s hop. -/
def hopFault (s : State) (e : Env) : PostTarget → Option Nat
  | .nbr dx dy =>
    match hopCluster e.cl dx dy with
    | none => some 0x04
    | some c => if owns s (s.ctx e.cx).part c then none else some 0x02
  | _ => none

/-- The end of a POST, once its card has been read and its thread's writes are acknowledged. -/
def postOut (s : State) (e : Env) (target : PostTarget) (pd : BitVec 3) (fill : Reg) (ref : Word64) (card : BitVec 512) : State :=
  let c := readCard card
  let (key, dev) := targetQueue e.g.core target
  let q : QCard := { ctx := e.cx, card := c, ref := ref, key := key, dev := dev
                     fill := (xRegs fill 1).head?.map fun r => (e.tid, r)
                     notice := if c.nv then some e.t.gid else none }
  let done (s : State) (v : Bool) (t : Thread) : State := s.setThread e.tid { advance (writePred t pd v none) 12 with status := .ready }
  match postCard s q with
  | none => done s false e.t
  | some s1 => done s1 true ((xRegs fill 1).foldl (fun t r => setPending t r .other) e.t)

/-- POST (R351). -/
def execPost (h : Head) (target : PostTarget) (pd : BitVec 3) (base : Src) (fill : Reg) (disp : BitVec 32) (s : State) : Out :=
  withSrcs s h 12 [{ src := base, words := 2 }] [{ reg := fill }] fun s1 e vals gtok =>
    match resultTok vals gtok with
    | some tok => finishPred s1 e 12 pd false (some tok)
    | none =>
      let ref := wordRef (vals.headD default).v64
      let fail (s : State) (e : Env) (c : Nat) : Out :=
        if h.sp then finishPred s e 12 pd false (some (mkToken c 1 e.t.pc.offset)) else .next (raiseFault s e c 1)
      let (s2, found) := access s1 e.cl e.cx ref disp.toInt 64 64 kindRead
      let e2 := e.refresh s2
      -- a bad hop takes the place of whatever the access found
      match hopFault s2 e target with
      | some c => fail s2 e2 c
      | none =>
        match found with
        | .error (.fault c) => fail s2 e2 c
        | .error m => if h.sp then fail s2 e2 (missCode m) else missOut s2 e2 ref disp.toInt kindRead 1 m
        | .ok hit =>
          let r := ref.plus disp.toInt
          let own := (List.range 64).map fun i => ownByte e.t r.index (r.offset.toNat + i)
          let pa := hit.pas.headD 0
          let o := Obs.group e.t.gid e.g.core
          match (if own.any Option.isNone then remoteFails s2 pa false else none) with
          | some c => finishPred s2 e2 12 pd false (some (mkToken c 7 e.t.pc.offset))
          | none =>
            let s3 := if own.any Option.isNone then touchQuiet s2 e.cx hit.masks false false (pa / 64) else s2
            let e3 := e.refresh s3
            if own.any Option.isNone && s3.viewMarked o (pa / 64) then
              let tok := mkToken 0x0B 1 e.t.pc.offset
              finishPred (reportContained s3 1 1 e.cx 0x0B (siteOf e) (pa / 64 * 64)) e3 12 pd false (some tok)
            else
              let bs := (List.range 64).map fun i => (own.getD i none).getD (s3.loadByte o (pa + i))
              let card := BitVec.ofNat 512 (leNat bs)
              let ids := (e3.t.items.filter (·.dom)).map (·.id)
              if ids.isEmpty then .next (postOut s3 e3 target pd fill (refWord r) card)
              else parkOut s3 e3 (.post target pd fill (refWord r) card ids)

/-! ## The submit window (R356) -/

/-- Reads bytes at domain level through a context's buffers, for a dispatcher; a line that is marked is 0x0B. -/
def dispatcherRead (s : State) (die cx : Nat) (ref : Ref) (n align : Nat) : State × Except Miss (List Byte) :=
  match access s (64 * die) cx ref 0 n align kindRead with
  | (s1, .error m) => (s1, .error m)
  | (s1, .ok hit) =>
    match remoteFails s1 (hit.pas.headD 0) false with
    | some c => (s1, .error (.fault c))
    | none =>
      let s2 := (linesOf hit.pas).foldl (fun s l => touchLine s cx hit.masks false false l) s1
      if (linesOf hit.pas).any (s2.viewMarked .domain) then (s2, .error (.fault 0x0B))
      else (s2, .ok (hit.pas.map (s2.loadByte .domain)))

/-- Whether a read of a dispatcher waits for an invalidation (R176). -/
def waitsRecord (s : State) (cx : Nat) (ref : Word64) : Bool := s.recs.any fun r => r.ctx = cx && r.ref = ref && r.access = 0

/-- Counts a doorbell as posted or refused. -/
def countBell (s : State) (cx : Nat) (ok : Bool) : State :=
  let c := s.ctx cx
  s.setCtx cx (if ok then { c with posted := min (c.posted + 1) 0xFFFFFFFF } else { c with refused := min (c.refused + 1) 0xFFFFFFFF })

/-- The oldest doorbell of a context is handled, or waits: `false`. -/
def serveBell (s : State) (cx : Nat) (ref : BitVec 64) : State × Bool :=
  let c := s.ctx cx
  if c.kill.isSome || c.state = .lost || c.state = .free then (countBell s cx false, true)
  else if waitsRecord s cx ref then (s, false)
  else match dispatcherRead s 0 cx (wordRef ref) 64 64 with
    | (s1, .error (.page level kind addr va)) => (addRecord s1 cx ref 0 level kind addr va, false)
    | (s1, .error _) => (countBell s1 cx false, true)
    | (s1, .ok bs) =>
      let q : QCard := { ctx := cx, card := readCard (BitVec.ofNat 512 (leNat bs)), ref := ref, key := .die 0, dev := true }
      match postCard s1 q with
      | some s2 => (countBell s2 cx true, true)
      | none => (countBell s1 cx false, true)

/-- Handles a context's doorbells in arrival order, as far as they go; a doorbell whose page is missing stays. -/
def serveBells (cx : Nat) : Nat → State → State
  | 0, s => s
  | n + 1, s =>
    match (s.ctx cx).bells with
    | [] => s
    | b :: bs =>
      match serveBell s cx b with
      | (s1, false) => s1
      | (s1, true) => serveBells cx n (s1.setCtx cx { s1.ctx cx with bells := bs })

/-- SUBMIT_DOORBELL: a doorbell arrives (R356). -/
def execSubmitDoorbell (cx : Nat) (ref : BitVec 64) (s : State) : Out :=
  if 512 ≤ cx then .next s
  else
    let c := s.ctx cx
    .next (serveBells cx (c.bells.length + 1) (s.setCtx cx { c with bells := c.bells ++ [ref] }))

/-! ## Room (R21, R358) -/

/-- Core groups on a core or a cluster. -/
def groupsOn (s : State) (p : Nat → Bool) : List CoreGroup := (s.groups.filter fun g => p g.2.core).map (·.2)

/-- Threads a core holds for its groups. -/
def threadsUsed (s : State) (core : Nat) : Nat :=
  (groupsOn s (· = core)).foldl (fun n g => n + ((tget? s.insts g.iid).map (·.tsz)).getD 0) 0

/-- Core groups of a card that a core can take now; none while a REGS grow waits there (R135). -/
def coreRoom (s : State) (c : Card) (core : Nat) : Nat :=
  let gs := groupsOn s (· = core)
  if gs.any fun g => match g.growing with
    | some (n, _) => g.nregs < n
    | none => false
  then 0
  else
    let bars := gs.foldl (fun n g => n + g.bars.length) 0
    min ((2048 - threadsUsed s core) / c.tsz)
      (min ((poolSize - poolUsed s core) / max 1 c.pool) (if c.nbar = 0 then 16 else (64 - bars) / c.nbar))

/-- Where a card's allocation would lie in a cluster's vault: below the split, the grant and the capacity (R217, R218, R230). -/
def vaultRoom (s : State) (part cl vlt : Nat) : Option Nat :=
  let v := s.vault cl
  vPlace s cl (vlt * 2048) 2048 (min (min v.split (s.part part).grant * 2 ^ 18) (v.cap * 2 ^ 20))

/-- Whether new groups of a partition may be placed on a cluster: it owns it, and it is not leaving (R360). -/
def mayPlace (s : State) (part cl : Nat) : Bool :=
  cl < 256 && (s.part part).v && owns s part cl && (s.part part).want.getLsbD cl

/-- Whether a cluster has what a cluster group of a card needs, its cores apart. -/
def clusterTakes (s : State) (q : QCard) (cl : Nat) : Bool :=
  let part := (s.ctx q.ctx).part
  mayPlace s part cl && (q.card.vlt = 0 || (vaultRoom s part cl q.card.vlt).isSome)

/-- Cores of a cluster in a card's region. -/
def regionCores (s : State) (q : QCard) (cl : Nat) : List Nat := ((List.range 4).map (4 * cl + ·)).filter (inRegion s q)

/-- Matrix queues of a cluster that no group has (R276). -/
def freeQueues (s : State) (cl : Nat) : List Nat :=
  let used := (groupsOn s fun c => c / 4 = cl).map (·.mqueue)
  (List.range 16).filter fun n => !used.contains n

/-- Whether a cluster group of a card fits on a cluster. -/
def clusterFits (s : State) (q : QCard) (cl : Nat) : Bool :=
  clusterTakes s q cl && q.card.csz ≤ (freeQueues s cl).length &&
    q.card.csz ≤ (regionCores s q cl).foldl (fun n c => n + coreRoom s q.card c) 0

/-- Whether a bay group fits in a bay. -/
def bayFits (s : State) (q : QCard) (bay : Nat) : Bool :=
  q.card.ksz ≤ (((List.range 8).map (8 * bay + ·)).filter (clusterFits s q)).length

/-- Whether a die group, or the card's group below die level, fits on a die. -/
def dieFits (s : State) (q : QCard) (die : Nat) : Bool :=
  q.card.bsz ≤ (((List.range 8).map (8 * die + ·)).filter (bayFits s q)).length

/-- Dies that the members of a domain context before a rank hold: this device's own, or another's (R403). -/
def diesBefore (s : State) (cx : Nat) (m : Member) (rank : Nat) : Nat :=
  ((List.range rank).map fun r => if r = m.rank then (heldDies s cx).length else Config.memberDies m.domain r s.tick).foldl (· + ·) 0

/-- The number of dies a context holds in its domain, and the `dix` of its own first one. -/
def domainDies (s : State) (cx : Nat) : Nat × Nat :=
  match (s.ctx cx).member with
  | none => ((heldDies s cx).length, 0)
  | some m => (diesBefore s cx m m.count, diesBefore s cx m m.rank)

/-- Whether every member of a context's domain context has joined (R403). -/
def domainWhole (s : State) (cx : Nat) : Bool :=
  match (s.ctx cx).member with
  | none => true
  | some m => m.count = 1 || Config.domainJoined m.domain s.tick

/-! ## Dispatch (R357) -/

/-- Whether cards of a context are placed now (R364, R384, R391). -/
def ctxPlaces (s : State) (cx : Nat) : Bool := !s.stopped && (s.ctx cx).kill.isNone && (s.ctx cx).state = .run

/-- Whether a domain card may be placed: every member has joined, and no domain card of its context was posted before it. -/
def domainTurn (s : State) (id : Nat) (q : QCard) : Bool :=
  q.card.lvl ≠ 5 || (domainWhole s q.ctx && !(s.cards.any fun p => p.1 < id && p.2.ctx = q.ctx && p.2.card.lvl = 5))

/-- Whether a head could be placed now. -/
def placeable (s : State) (id : Nat) (q : QCard) : Bool :=
  ctxPlaces s q.ctx && !waitsRecord s q.ctx q.card.arg && domainTurn s id q &&
    (if q.card.lvl = 5 then (heldDies s q.ctx).all (dieFits s q) else (List.range 4).any (dieFits s q))

/-- Whether the dispatcher offers a card now: it heads its class, and no head of a higher class of its queue can be placed. -/
def offered (s : State) (id : Nat) (q : QCard) : Bool :=
  isHead s id q && ctxPlaces s q.ctx && !waitsRecord s q.ctx q.card.arg && domainTurn s id q &&
    !(s.cards.any fun p => p.2.key = q.key && q.card.pcls < p.2.card.pcls && isHead s p.1 p.2 && placeable s p.1 p.2)

/-- Whether an expired head of a higher class keeps a place from a card; one that must itself be placed after the card, by the post order
of domain cards, does not (log entry 51). -/
def keptBack (s : State) (id : Nat) (q : QCard) (cores : List Nat) : Bool :=
  s.cards.any fun p => p.2.expired && keyDie p.2.key = keyDie q.key && q.card.pcls < p.2.card.pcls && cores.any (inRegion s p.2) &&
    !(p.2.ctx = q.ctx && p.2.card.lvl = 5 && q.card.lvl = 5 && id < p.1)

/-- Whether the other members of a domain context have their parts of its card reserved (R357, R403). -/
def othersReserved (s : State) (cx : Nat) : Bool :=
  match (s.ctx cx).member with
  | none => true
  | some m => m.count ≤ 1 || Config.membersReady m.domain s.tick

/-- Cuts a list into runs of `n`. -/
def chunksOf {α : Type} (n : Nat) (l : List α) : List (List α) :=
  (List.range (l.length / max 1 n)).map fun i => (l.drop (i * n)).take n

/-- The one value that `f` takes on a list. -/
def common (f : Nat → Nat) (l : List Nat) : Option Nat :=
  match l with
  | [] => none
  | a :: _ => if l.all fun b => f b = f a then some (f a) else none

/-- The common values of the runs of a list, when they are all different. -/
def distinctRuns (n : Nat) (f : Nat → Nat) (l : List Nat) : Option (List Nat) :=
  match (chunksOf n l).mapM (common f) with
  | none => none
  | some vs => if vs.eraseDups.length = vs.length then some vs else none

/-- Whether the cores chosen for one cluster group take it. -/
def runFits (s : State) (q : QCard) (cores : List Nat) : Bool :=
  match common (· / 4) cores with
  | none => false
  | some cl =>
    clusterTakes s q cl && cores.length ≤ (freeQueues s cl).length &&
      cores.all fun c => inRegion s q c && (cores.filter (· = c)).length ≤ coreRoom s q.card c

/-- Whether chosen cores, one for each core group in the order of their indices, place one die group, or a lower card, whole:
the die (R358). -/
def placesOn (s : State) (q : QCard) (cores : List Nat) : Option Nat :=
  let c := q.card
  if cores.length ≠ c.csz * c.ksz * c.bsz || !(chunksOf c.csz cores).all (runFits s q) then none
  else match distinctRuns c.csz (· / 4) cores with
    | none => none
    | some cls => match distinctRuns c.ksz (· / 8) cls with
      | none => none
      | some bays => match distinctRuns c.bsz (· / 8) bays with
        | some [d] => if q.dev && c.lvl < 5 && (List.range d).any (dieFits s q) then none else some d
        | _ => none

/-! ## Placement (R86, R127, R217, R358) -/

/-- A cluster group is given its place: one allocation, all zero, present and unmarked. -/
def placeClusterGroup (s : State) (iid part cl vlt : Nat) : State :=
  let base := (vaultRoom s part cl vlt).getD 0
  let s1 := if vlt = 0 then s else s.setVault cl (vClear (s.vault cl) base (base + vlt * 2048))
  { s1 with fresh := s1.fresh + 1 }.setCGroup s1.fresh { iid := iid, cluster := cl, base := if vlt = 0 then 0 else base, len := vlt * 2048 }

/-- A core group is given its place, still without threads. -/
def placeCoreGroup (s : State) (iid cgid core : Nat) (c : Card) (dix bix kix cix : Nat) : State :=
  let g : CoreGroup := { iid := iid, cgid := cgid, core := core, dix := dix, bix := bix, kix := kix, cix := cix, order := s.fresh
                         nregs := 8 * c.regs, bars := List.replicate c.nbar {}, mqueue := (freeQueues s (core / 4)).headD 0 }
  { s with fresh := s.fresh + 1 }.setGroup s.fresh g

/-- The groups of one die are given their places. -/
def placeDie (s : State) (iid part : Nat) (c : Card) (dix : Nat) (cores : List Nat) : State :=
  ((chunksOf c.csz cores).zipIdx).foldl (fun s run =>
    let (cs, j) := run
    let cgid := s.fresh
    let s1 := placeClusterGroup s iid part (cs.headD 0 / 4) c.vlt
    cs.zipIdx.foldl (fun s p => placeCoreGroup s iid cgid p.1 c dix (j / c.ksz) (j % c.ksz) p.2) s1) s

/-- The threads of every group of an instance start, with the argument block in `k` (R86, R127). -/
def startInst (s : State) (iid : Nat) (arg : List Byte) : State :=
  match tget? s.insts iid with
  | none => s
  | some i =>
    let k := (bytesToWords (arg.take 128))
    let start (s : State) (p : Nat × CoreGroup) : State :=
      if p.2.iid ≠ iid then s
      else
        let mk (n : Nat) : Thread := { gid := p.1, tix := n, pc := wordRef i.q.card.entry, regs := List.replicate p.2.nregs {} }
        (List.range i.tsz).foldl (fun s n => { s with fresh := s.fresh + 1 }.setThread s.fresh (mk n)) (s.setGroup p.1 { p.2 with k := k })
    (s.groups.foldl start s).setInst iid { i with reserving := false }

/-- An instance of a card. -/
def newInst (q : QCard) (reserving : Bool) : Inst :=
  { q := q, tsz := q.card.tsz, csz := q.card.csz, ksz := q.card.ksz, bsz := q.card.bsz, dsz := q.card.dsz, reserving := reserving }

/-- Gives back the parts an instance holds reserved. -/
def dropReserved (s : State) (iid : Nat) : State :=
  { s with groups := s.groups.filter fun g => g.2.iid ≠ iid, cgroups := s.cgroups.filter fun g => g.2.iid ≠ iid, insts := terase s.insts iid }

/-! ## The check of a RECON card (R341, R342) -/

/-- Outcome of the check: ok, a failure's code, or a wait for a page of the buffer table. -/
inductive Recon where
  | ok
  | fail (code : Nat)
  | wait (ref : Word64) (level kind addr : Nat) (va : Option Nat)

/-- Steps 1 to 4 of R161 for the whole extent of one reference. -/
def reconRef (s : State) (die cx : Nat) (ref : Word64) (n : Nat) (write : Bool) : State × Recon :=
  match bufferOf s (64 * die) cx (wordRef ref).index.toNat with
  | (s1, .error (.page l k a v)) => (s1, .wait ref l k a v)
  | (s1, .error m) => (s1, .fail (missCode m))
  | (s1, .ok raw) =>
    match checkEntry (s1.ctx cx) cx raw (if write then kindWrite else kindRead) (wordRef ref).offset.toNat n with
    | .error c => (s1, .fail c)
    | .ok _ => (s1, .ok)

/-- The references in turn; the first that does not pass decides. -/
def reconRefs (die cx : Nat) : State → List (Word64 × Nat × Bool) → State × Recon
  | s, [] => (s, .ok)
  | s, (r, n, w) :: rest =>
    match reconRef s die cx r n w with
    | (s1, .ok) => reconRefs die cx s1 rest
    | x => x

/-- The whole check, on the argument block's words. -/
def reconCheck (s : State) (die cx : Nat) (k : List Word) : State × Recon :=
  let w (i : Nat) : Word := k.getD i 0
  let r (i : Nat) : Word64 := pair64 (w (i + 1)) (w i)
  let width := (w 3).toNat % 65536
  let height := (w 3).toNat / 65536
  let dimOk (n : Nat) : Bool := n % 16 = 0 && 16 ≤ n && n ≤ 4096
  if !dimOk width || !dimOk height || 2 ≤ (w 14).toNat then (s, .fail 0)
  else
    let n := width * height
    reconRefs die cx s ([(r 0, 32 * (w 2).toNat, false), (r 4, 4 * n, false), (r 6, 4 * n, false), (r 8, 4 * n, false)] ++
      (if (w 14).getLsbD 0 then [(r 10, 8 * n, false)] else []) ++ [(r 12, 8 * n, true)])

/-! ## CARD_PLACE -/

/-- The argument block is read and, for RECON, checked (R346): its bytes, the status and code of a failure, or a wait. -/
def argCheck (s : State) (q : QCard) : State × Except (Option (Nat × Nat)) (List Byte) :=
  let die := keyDie q.key
  match dispatcherRead s die q.ctx (wordRef q.card.arg) 128 1 with
  | (s1, .error (.page l k a v)) => (addRecord s1 q.ctx q.card.arg 0 l k a v, .error none)
  | (s1, .error m) => (s1, .error (some (3, missCode m)))
  | (s1, .ok bs) =>
    if q.card.kind = 0 then (s1, .ok bs)
    else match reconCheck s1 die q.ctx (bytesToWords bs) with
      | (s2, .ok) => (s2, .ok bs)
      | (s2, .fail c) => (s2, .error (some (4, c)))
      | (s2, .wait ref l k a v) => (addRecord s2 q.ctx ref 0 l k a v, .error none)

/-- The last step of a placement: the argument block, then the threads; a failure completes the card unplaced. `place` gives
the groups their places and names the instance. -/
def placeNow (s : State) (id : Nat) (q : QCard) (place : State → State × Nat) : State :=
  match argCheck s q with
  | (s1, .error none) => s1
  | (s1, .error (some (st, code))) =>
    let s2 := match q.reserved with
      | some iid => dropReserved s1 iid
      | none => s1
    completeUnplaced (takeCard s2 id) q st code
  | (s1, .ok bs) =>
    let (s2, iid) := place s1
    takeCard (startInst s2 iid bs) id

/-- A part of a domain card is placed on one die: reserved while others are missing, else the card starts (R344, R357). -/
def placeDomain (s : State) (id : Nat) (q : QCard) (cores : List Nat) : State :=
  let dies := heldDies s q.ctx
  let (total, first) := domainDies s q.ctx
  let part := (s.ctx q.ctx).part
  let held (iid : Nat) : List Nat := (s.groups.filterMap fun g => if g.2.iid = iid then some (g.2.core / 256) else none).eraseDups
  if q.card.ndi + 1 ≠ total then
    let s1 := match q.reserved with
      | some iid => dropReserved s iid
      | none => s
    completeUnplaced (takeCard s1 id) q 1 0
  else
    let got := (q.reserved.map held).getD []
    if got.length = dies.length then
      match q.reserved with
      | some iid => if othersReserved s q.ctx then placeNow s id q fun s => (s, iid) else s
      | none => s
    else match placesOn s q cores with
      | none => s
      | some d =>
        if got.contains d || !dies.contains d || keptBack s id q cores then s
        else
          let dix := first + (dies.takeWhile (· ≠ d)).length
          let put (s : State) : State × Nat :=
            match q.reserved with
            | some iid => (placeDie s iid part q.card dix cores, iid)
            | none =>
              let iid := s.fresh
              (placeDie ({ s with fresh := s.fresh + 1 }.setInst iid (newInst q true)) iid part q.card dix cores, iid)
          if got.length + 1 = dies.length && othersReserved s q.ctx then placeNow s id q put
          else
            let (s1, iid) := put s
            { s1 with cards := tput s1.cards id { q with reserved := some iid } }

/-- CARD_PLACE: the dispatcher places a head on chosen cores, if they take it (R357, R358). -/
def execCardPlace (qid : Nat) (cores : List Nat) (s : State) : Out :=
  match tget? s.cards qid with
  | none => .next s
  | some q =>
    if !offered s qid q then .next s
    else if q.card.lvl = 5 then .next (placeDomain s qid q cores)
    else match placesOn s q cores with
      | none => .next s
      | some _ =>
        if keptBack s qid q cores then .next s
        else .next (placeNow s qid q fun s =>
          let iid := s.fresh
          (placeDie ({ s with fresh := s.fresh + 1 }.setInst iid (newInst q false)) iid (s.ctx q.ctx).part q.card 0 cores, iid))

/-- HEAD_WAIT_EXPIRY: a head has waited 2^16 crossbar cycles of its die (R357). -/
def execHeadWaitExpiry (qid : Nat) (s : State) : Out :=
  match tget? s.cards qid with
  | none => .next s
  | some q =>
    match q.since with
    | none => .next s
    | some t =>
      if t + 2 ^ 16 ≤ s.xclk.getD (keyDie q.key) 0 then .next { s with cards := tput s.cards qid { q with expired := true } } else .next s

/-- DOMAIN_CARD_FORWARD: another member of a domain context forwards a domain card; it waits in die 0's queue (R353, R403). -/
def execDomainCardForward (cx : Nat) (ref : BitVec 64) (card : BitVec 512) (s : State) : Out :=
  let c := s.ctx cx
  let q : QCard := { ctx := cx, card := readCard card, ref := ref, key := .die 0, dev := true, forwarded := true }
  if c.member.isNone || c.kill.isSome || c.state = .lost || c.state = .free || q.card.lvl ≠ 5 then .next s
  else match checkCard q.card q.key true with
    | some _ => .next s
    | none => .next ((enqueue s q).getD s)

/-! ## Completion (R194, R275, R347 to R349, R355) -/

/-- Whether a core group's threads, engines and writes are all at an end (R103, R194, R275). -/
def groupEnded (s : State) (gid : Nat) (g : CoreGroup) : Bool :=
  let ts := s.threads.filter fun p => p.2.gid = gid
  let cl := g.core / 4
  ts.all (fun p => p.2.status = .exited && !p.2.ended && p.2.sb.isEmpty && p.2.items.isEmpty && p.2.regs.all fun r => !r.lent) &&
    !((s.cluster cl).copies.any fun c => c.gid = gid) && !((s.cluster cl).mqs.any fun m => m.any fun o => o.gid = gid) &&
    !(s.flights.any fun f => f.gid = noGroup + 1 + gid)

/-- A cluster group whose core groups are all gone returns its allocation, rings, window and enrolments (R217, R239). -/
def endClusterGroup (s : State) (cgid : Nat) : State :=
  if s.groups.any fun g => g.2.cgid = cgid then s
  else { s with cgroups := terase s.cgroups cgid
                clusters := tmap (fun _ u => { u with enrol := u.enrol.filter fun x => x.2 ≠ cgid }) s.clusters }

/-- Removes a core group with its threads and its unread notices. -/
def endCoreGroup (s : State) (gid : Nat) (g : CoreGroup) : State :=
  endClusterGroup { s with threads := s.threads.filter fun p => p.2.gid ≠ gid, groups := terase s.groups gid
                           waitingNotices := s.waitingNotices.filter fun n => n.2.1 ≠ gid } g.cgid

/-- The status word (R347). -/
def statusOf (i : Inst) : Word :=
  BitVec.ofNat 32 (i.q.st * 2 ^ 24 + i.q.code * 2 ^ 16 + (if i.af then 2 else 0) + (if i.rf then 1 else 0))

/-- The sums of a record: threads, tokens, first token and flags; a domain card of several members adds the others' (R348,
R403). -/
def recordSums (s : State) (i : Inst) : Nat × Nat × Word × BitVec 5 :=
  let own := (i.nthr, i.ntok, (i.ftok.map (·.2)).getD 0, i.flags)
  match (s.ctx i.q.ctx).member with
  | none => own
  | some m =>
    if i.q.card.lvl < 5 || m.count ≤ 1 then own
    else
      let o := Config.memberSums m.domain s.tick
      let first := match i.ftok, o.ftok with
        | some (a, t), some (b, u) => if b < a then u else t
        | some (_, t), none => t
        | none, some (_, u) => u
        | none, none => 0
      (i.nthr + o.nthr, min (i.ntok + o.ntok) 0xFFFFFFFF, first, i.flags ||| o.flags)

/-- The 32 bytes of the completion record (R347); all sums are zero but for DONE (R348). -/
def recordOf (s : State) (i : Inst) : List Byte :=
  let (nthr, ntok, ftok, flags) := if i.q.st = 0 then recordSums s i else (0, 0, 0, 0)
  leBytes 32 ((statusOf i).toNat + flags.toNat * 2 ^ 32 + (nthr % 2 ^ 32) * 2 ^ 96 + ntok * 2 ^ 128 + ftok.toNat * 2 ^ 160 +
    i.q.card.parent.toNat * 2 ^ 224)

/-- Step 1 of R349. -/
def completeRecord (s : State) (iid : Nat) (i : Inst) : State :=
  if !i.q.card.cr then s.setInst iid { i with stage := 2 }
  else match access s (64 * keyDie i.q.key) i.q.ctx (wordRef i.q.card.crec) 0 32 32 kindWrite with
    | (s1, .error (.fault _)) => s1.setInst iid { i with stage := 2, rf := true }
    | (s1, .error (.page l k a v)) => addRecord s1 i.q.ctx i.q.card.crec 1 l k a v
    | (s1, .error _) => s1
    | (s1, .ok hit) =>
      match remoteFails s1 (hit.pas.headD 0) true with
      | some _ => s1.setInst iid { i with stage := 2, rf := true }
      | none => (arriveBytes s1 (viaHit s1 i.q.ctx hit) (hit.pas.zip (recordOf s i))).setInst iid { i with stage := 2 }

/-- Step 2 of R349. -/
def completeAdd (s : State) (iid : Nat) (i : Inst) : State :=
  let next (s : State) (af : Bool) : State := s.setInst iid { i with stage := 3, af := af }
  if !i.q.card.ca then next s false
  else match access s (64 * keyDie i.q.key) i.q.ctx (wordRef i.q.card.cadd) 0 4 4 kindAtomic with
    | (s1, .error (.fault _)) => next s1 true
    | (s1, .error (.page l k a v)) => addRecord s1 i.q.ctx i.q.card.cadd 3 l k a v
    | (s1, .error _) => s1
    | (s1, .ok hit) =>
      let pa := hit.pas.headD 0
      match remoteFails s1 pa true with
      | some _ => next s1 true
      | none =>
        let s2 := touchQuiet s1 i.q.ctx hit.masks false false (pa / 64)
        if s2.lastMarked (pa / 64) then next (reportContained s2 1 1 i.q.ctx 0x0B 0 (pa / 64 * 64)) false
        else
          let old := leNat ((List.range 4).map fun k => s2.atomByte (pa + k))
          next (arriveBytes s2 (viaHit s2 i.q.ctx hit) (cellsAt pa (leBytes 4 (old + i.q.card.cval.toNat)))) false

/-- Step 3 of R349: a poster that has exited loses the fill. -/
def completeFill (s : State) (iid : Nat) (i : Inst) : State :=
  let s1 := match i.q.fill with
    | none => s
    | some (tid, r) => s.modThread tid fun (t : Thread) => if t.status = Status.exited then t else writeReg t r (statusOf i) false
  s1.setInst iid { i with stage := 4 }

/-- The four words of a notice (R355). -/
def noticeOf (i : Inst) : List Word := [statusOf i, i.q.card.parent, lo32 i.q.ref, hi32 i.q.ref]

/-- Step 4 of R349, and the end of the completion: a notice that finds the view full waits in the dispatcher. -/
def completeNotice (s : State) (iid : Nat) (i : Inst) : State :=
  let p := (s.ctx i.q.ctx).part
  let s1 := if i.q.st = 0 then { s with parts := tput s.parts p { s.part p with count := (s.part p).count + 1 } } else s
  let s2 := { s1 with insts := terase s1.insts iid }
  match i.q.notice with
  | none => s2
  | some gid =>
    match tget? s2.groups gid with
    | none => s2
    | some g =>
      if 64 ≤ viewHeld g || s2.waitingNotices.any fun n => n.2.1 = gid then
        { s2 with fresh := s2.fresh + 1, waitingNotices := tput s2.waitingNotices s2.fresh (gid, noticeOf i) }
      else s2.setGroup gid { g with notices := g.notices ++ [noticeOf i] }

/-- Whether the other members of a domain card have done their part (R402, R403). -/
def othersDone (s : State) (i : Inst) : Bool :=
  match (s.ctx i.q.ctx).member with
  | none => true
  | some m => i.q.card.lvl < 5 || m.count ≤ 1 || Config.membersReady m.domain s.tick

/-- CARD_COMPLETE: the next step of an instance's completion (R349). A forwarded card completes on the member that posted
it. -/
def execCardComplete (iid : Nat) (s : State) : Out :=
  match tget? s.insts iid with
  | none => .next s
  | some i =>
    if s.stopped || (s.ctx i.q.ctx).kill.isSome then .next s
    else if i.q.forwarded && i.stage ≠ 0 then .next { s with insts := terase s.insts iid }
    else if i.stage = 1 then (if othersDone s i then .next (completeRecord s iid i) else .next s)
    else if i.stage = 2 then .next (completeAdd s iid i)
    else if i.stage = 3 then .next (completeFill s iid i)
    else if i.stage = 4 then .next (completeNotice s iid i)
    else .next s

/-- NOTICE_DELIVER: the oldest waiting notice of a core group enters its view (R355). -/
def execNoticeDeliver (nid : Nat) (s : State) : Out :=
  match tget? s.waitingNotices nid with
  | none => .next s
  | some (gid, ws) =>
    match tget? s.groups gid with
    | none => .next { s with waitingNotices := terase s.waitingNotices nid }
    | some g =>
      if 64 ≤ viewHeld g || s.waitingNotices.any fun n => n.1 < nid && n.2.1 = gid then .next s
      else .next ({ s with waitingNotices := terase s.waitingNotices nid }.setGroup gid { g with notices := g.notices ++ [ws] })

end Sys2Proof.Machine
end

