-- ==== Sys2Proof/Machine/Parts.lean ====
section
/-! DEFINITION. Parts.lean: partitions and the clusters they own (R359 to R361), and the completion of a core group, which may
leave a cluster empty (R194, R360). -/

namespace Sys2Proof.Machine

open Sys2Proof

/-! ## Ownership (R218, R360) -/

/-- Whether no group of any context is resident on a cluster. -/
def clusterEmpty (s : State) (cl : Nat) : Bool :=
  !(s.groups.any fun g => g.2.core / 4 = cl) && !(s.cgroups.any fun g => g.2.cluster = cl)

/-- The partition that owns a cluster. -/
def ownerOf (s : State) (cl : Nat) : Option Nat := (s.parts.find? fun p => p.2.clu.getLsbD cl).map (·.1)

/-- A cluster set, with one cluster put in or taken out. -/
def setClu (v : BitVec 256) (cl : Nat) (b : Bool) : BitVec 256 :=
  if b then v ||| BitVec.twoPow 256 cl else v &&& ~~~ (BitVec.twoPow 256 cl)

def setPart (s : State) (p : Nat) (v : Part) : State := { s with parts := tput s.parts p v }

/-- A cluster that nobody owns joins the partition whose `want` holds it; its split becomes the grant. -/
def joinCluster (s : State) (cl : Nat) : State :=
  match s.parts.find? fun p => p.2.v && p.2.want.getLsbD cl with
  | none => s
  | some (n, p) =>
    let v := s.vault cl
    (setPart s n { p with clu := setClu p.clu cl true }).setVault cl { v with split := min p.grant (4 * v.cap) }

/-- One cluster leaves its partition, or joins one, if it may. -/
def settleCluster (s : State) (cl : Nat) : State :=
  match ownerOf s cl with
  | none => joinCluster s cl
  | some n =>
    let p := s.part n
    if (p.v && p.want.getLsbD cl) || !clusterEmpty s cl then s
    else joinCluster (setPart s n { p with clu := setClu p.clu cl false }) cl

/-- Cards of queues whose region has left their partition complete with GONE (R352). -/
def dropGone (s : State) : State :=
  s.cards.foldl (fun s p =>
    let q := p.2
    let left : Bool := !q.dev && !((List.range 256).any fun c => owns s (s.ctx q.ctx).part c && (regionCores s q c) ≠ [])
    if left then completeUnplaced (takeCard s p.1) q 5 0 else s) s

/-- Every cluster's ownership settles. -/
def settleOwners (s : State) : State := dropGone ((List.range 256).foldl settleCluster s)

/-! ## CORE_GROUP_COMPLETE -/

/-- CORE_GROUP_COMPLETE: the group's resources return; the last one of an instance lets its completion begin (R194, R349). -/
def execCoreGroupComplete (gid : Nat) (s : State) : Out :=
  match tget? s.groups gid with
  | none => .next s
  | some g =>
    let inst := (tget? s.insts g.iid).getD default
    if s.stopped || inst.reserving || (s.ctx inst.q.ctx).kill.isSome || !groupEnded s gid g then .next s
    else
      let s1 := endCoreGroup s gid g
      let s2 := if s1.groups.any fun x => x.2.iid = g.iid then s1 else s1.modInst g.iid fun i => { i with stage := 1 }
      .next (tidyQueues (settleOwners (regsWaiters s2 g.core)))
where
  /-- A pool that has grown may carry out a REGS of the core (R135). -/
  regsWaiters (s : State) (core : Nat) : State :=
    s.groups.foldl (fun s p => if p.2.core = core then regsTry s p.1 else s) s

/-! ## The control block (R359) -/

/-- A partition's control block as it reads. -/
def partBlock (p : Part) : Nat :=
  p.want.toNat * 2 ^ 768 + p.clu.toNat * 2 ^ 512 + p.target * 2 ^ 480 + p.done * 2 ^ 448 + p.grant * 2 ^ 408 + p.bclass * 2 ^ 405 +
    (if p.auto then 2 ^ 404 else 0) + (if p.v then 2 ^ 403 else 0) + (if p.refused then 2 ^ 402 else 0)

/-- The lowest-numbered whole bay in a cluster set. -/
def wholeBay (v : BitVec 256) : Option Nat := (List.range 32).find? fun b => (List.range 8).all fun i => v.getLsbD (8 * b + i)

/-- Whether a `want` may stand: it holds a whole bay, and meets no other partition's. -/
def wantOk (s : State) (n : Nat) (want : BitVec 256) : Bool :=
  (wholeBay want).isSome && !(s.parts.any fun p => p.1 ≠ n && p.2.v && (p.2.want &&& want) ≠ 0)

/-- A write of a partition's control block; `wants`: it writes `want`. Clearing `V` kills the partition's contexts (R382). -/
def writePart (s : State) (n : Nat) (blk : BitVec 1024) (wants : Bool) : State :=
  let p := s.part n
  let want := blk.extractLsb' 768 256
  let ok := wantOk s n want
  let grant := (blk.extractLsb' 408 8).toNat
  let p1 := { p with target := (blk.extractLsb' 480 32).toNat
                     grant := if grant ≤ 32 then grant else p.grant
                     bclass := (blk.extractLsb' 405 3).toNat
                     auto := blk.getLsbD 404, v := blk.getLsbD 403
                     want := if wants && ok then want else p.want
                     refused := if wants then !ok else p.refused }
  let s1 := setPart s n p1
  let s2 := if p.v && !p1.v then
      s1.ctxs.foldl (fun s c => if c.2.part = n then noticeKill s c.1 9 [] else s) s1
    else s1
  tidyQueues (settleOwners s2)

/-- PARTITION_CONTROL_WRITE: the whole block (R359). -/
def execPartitionControlWrite (part : Nat) (blk : BitVec 1024) (s : State) : Out :=
  if 64 ≤ part || s.stopped || s.power ≠ .ready then .next s else .next (writePart s part blk true)

/-! ## The sweep window (R361) -/

/-- Whether `a`'s done ÷ target is below `b`'s. -/
def lessServed (a b : Part) : Bool := a.done * b.target < b.done * a.target

/-- Whether a partition has a card that waited the whole window unplaced. -/
def starved (s : State) (n : Nat) : Bool := s.cards.any fun p => (s.ctx p.2.ctx).part = n && p.2.born ≤ s.window

/-- The highest-numbered cluster of a `want` outside its lowest-numbered whole bay. -/
def spareCluster (p : Part) : Option Nat :=
  match wholeBay p.want with
  | none => none
  | some b => ((List.range 256).filter fun c => p.want.getLsbD c && c / 8 ≠ b).getLast?

/-- The partition with the least, or greatest, done ÷ target among some; the lowest number on a tie. -/
def pickPart (better : Part → Part → Bool) : List (Nat × Part) → Option (Nat × Part)
  | [] => none
  | x :: xs => match pickPart better xs with
    | none => some x
    | some y => if better y.2 x.2 then some y else some x

/-- The controller moves at most one cluster. -/
def moveCluster (s : State) : State :=
  let auto := s.parts.filter fun p => p.2.auto && p.2.v && p.2.target ≠ 0
  let recv := pickPart lessServed (auto.filter fun p => starved s p.1)
  let donor := pickPart (fun a b => lessServed b a) (auto.filter fun p => p.2.target ≤ p.2.done && (spareCluster p.2).isSome)
  match recv, donor with
  | some (r, pr), some (d, pd) =>
    if r = d then s
    else match spareCluster pd with
      | none => s
      | some c => settleOwners (setPart (setPart s d { pd with want := setClu pd.want c false }) r { pr with want := setClu pr.want c true })
  | _, _ => s

/-- SWEEP_WINDOW_END: 2^20 crossbar cycles of die 0 have passed (R361). -/
def execSweepWindowEnd (s : State) : Out :=
  if s.stopped || s.xclk.headD 0 < s.window + 2 ^ 20 then .next s
  else
    let s1 := { s with parts := tmap (fun _ p => { p with done := p.count, count := 0 }) s.parts }
    .next { tidyQueues (moveCluster s1) with window := s.window + 2 ^ 20 }

end Sys2Proof.Machine
end

