-- ==== Sys2Proof/Machine/Queues.lean ====
section
/-! DEFINITION. Queues.lean: the Ethernet ports and their queue pairs (R405, R406). A command's result code is OK 0,
BADARG 1, NOCTX 2, BUSY 3 (R398). -/

namespace Sys2Proof.Machine

open Sys2Proof

/-! ## Queue pairs -/

/-- Logical ports that a mode gives a physical port. -/
def modePorts (m : BitVec 2) : Nat :=
  match m.toNat with
  | 0 => 0
  | 1 => 1
  | 2 => 2
  | _ => 4

/-- Whether a logical port is up. -/
def lportUp (s : State) (l : Nat) : Bool := l % 4 < modePorts (s.ethMode.getD (l / 4) 0)

def setQp (s : State) (n : Nat) (q : Qp) : State := { s with qps := tput s.qps n q }

/-- The `k`-th entry of a ring in a context's memory. -/
def ringEntry (s : State) (cx : Nat) (hdrAddr k : Nat) : Option (List Byte) :=
  match ipaToPhys s cx hdrAddr with
  | none => none
  | some hdr =>
    match readRing s hdr with
    | none => none
    | some r => (ipaToPhys s cx (r.base + (k % 2 ^ r.lg) * 2 ^ r.esz)).map fun a => physBytes s a (2 ^ r.esz)

/-- A ring's `tail` as it stands. -/
def ringTail (s : State) (cx hdrAddr : Nat) : Option Nat := ((ipaToPhys s cx hdrAddr).bind (readRing s)).map (·.tail)

/-- Takes an entry: the device is the ring's consumer (R378). -/
def ringTake (s : State) (cx hdrAddr : Nat) : State :=
  match (ipaToPhys s cx hdrAddr).bind (readRing s) with
  | none => s
  | some r => pokeBytes s cx r.hdr (leBytes 4 (r.head + 1))

/-- A completion entry (R406). -/
def completionEntry (qpn widx op status n : Nat) (imm : Option Word) : List Byte :=
  leBytes 32 ((match imm with | some v => v.toNat * 2 ^ 224 + 1 | none => 0) + (n % 2 ^ 32) * 2 ^ 192 + (widx % 2 ^ 32) * 2 ^ 160 +
    qpn % 65536 * 2 ^ 144 + op * 2 ^ 136 + status * 2 ^ 128)

/-- Writes a completion entry; a full or malformed ring takes none. -/
def complete (s : State) (qpn : Nat) (q : Qp) (widx op status n : Nat) (imm : Option Word) : State :=
  (pushRing s (ipaToPhys s q.ctx) q.cq (completionEntry qpn widx op status n imm)).getD s

/-! ## Local references (R161, R405) -/

/-- The die of an Ethernet port (R10), and a logical port's cluster at which its references are checked (R11). -/
def ethDie (port : Nat) : Nat := port % 4
def portCluster (lport : Nat) : Nat := 64 * ethDie (lport / 4)

/-- Checks a whole reference of a queue pair in its context: what it reaches, or none. The alignment of R161 holds for 8-byte atomics. -/
def checkLocal (s : State) (q : Qp) (ref : Word64) (n align : Nat) (k : AKind) : State × Option Hit :=
  match access s (portCluster q.lport) q.ctx (wordRef ref) 0 n align k with
  | (s1, .ok h) => (s1, some h)
  | (s1, .error _) => (s1, none)

/-- How a queue pair's writes go home: in the budget class of the fabric and CXL (R405). -/
def qpVia (q : Qp) (h : Hit) : Via := { cx := q.ctx, cls := 13, masks := h.masks }

/-- Writes bytes at domain level, as an arrival-ordered writer (R192, R208). -/
def writeLocal (s : State) (q : Qp) (h : Hit) (bs : List Byte) : State := arriveBytes s (qpVia q h) (h.pas.zip bs)

/-- The lines a queue pair reads are requested in the class of the fabric (R405). -/
def touchLocal (s : State) (q : Qp) (h : Hit) : State :=
  (linesOf h.pas).foldl (fun s l => touchAs s 13 q.ctx h.masks false false l) s

/-- Reads bytes at domain level; none if one of their lines is marked. -/
def readLocal (s : State) (q : Qp) (h : Hit) : State × Option (List Byte) :=
  let s1 := touchLocal s q h
  (s1, if (linesOf h.pas).any (s1.viewMarked .domain) then none else some (h.pas.map (s1.loadByte .domain)))

/-! ## The send queue -/

/-- A send queue entry taken apart; its reserved bits are ignored (R4). -/
structure SendE where
  op : Nat
  sig : Bool
  len : Nat
  lref : Word64
  raddr : Word64
  cmp : BitVec 64
  swap : BitVec 64
  imm : Option Word
  path : Nat
deriving DecidableEq, Repr, Inhabited

def readSend (bs : List Byte) : SendE :=
  let e := BitVec.ofNat 512 (leNat bs)
  { op := (e.extractLsb' 0 8).toNat, sig := e.getLsbD 8, len := (e.extractLsb' 160 32).toNat, lref := e.extractLsb' 192 64
    raddr := e.extractLsb' 256 64, cmp := e.extractLsb' 320 64, swap := e.extractLsb' 384 64
    imm := if e.getLsbD 9 then some (e.extractLsb' 128 32) else none, path := (e.extractLsb' 448 64).toNat }

/-- The bytes a send entry sends, none for a kind that sends none; or that the queue pair cannot carry it, its local reference is not
good, or its data are marked (R406, log entry 95). -/
def sendData (s : State) (q : Qp) (e : SendE) : State × Option (List Byte) :=
  if 4 < e.op || (q.ud && e.op ≠ 0) || (!q.ud && e.path ≠ 0) || (3 ≤ e.op && e.len ≠ 8) then (s, none)
  else
    match checkLocal s q e.lref e.len 1 (if e.op ≤ 1 then kindRead else kindWrite) with
    | (s1, none) => (s1, none)
    | (s1, some h) => if e.op ≤ 1 then readLocal s1 q h else (s1, some [])

/-- Takes the next send entry: it leaves for the remote port, a datagram with its data as an answer of kind 6, or completes with LOCAL. -/
def takeSend (s : State) (qpn : Nat) (q : Qp) (k : Nat) : State × Qp :=
  match ringEntry s q.ctx q.sq k with
  | none => (s, q)
  | some bs =>
    let e := readSend bs
    let (s1, data) := sendData s q e
    let s2 := ringTake s1 q.ctx q.sq
    match data with
    | none => (if e.sig then complete s2 qpn q k e.op 1 0 none else s2, q)
    | some ds =>
      if q.ud then
        let s3 := { s2 with replies := (6, 0, ds) :: s2.replies }
        (if e.sig then complete s3 qpn q k e.op 0 e.len none else s3, q)
      else
        let w : Work := { idx := k, op := e.op, lref := e.lref, len := e.len, sig := e.sig, raddr := e.raddr, cmp := e.cmp, swap := e.swap
                          imm := e.imm, data := ds }
        (s2, { q with inflight := q.inflight ++ [w] })

/-- The entries between a ring's head and the tail that a doorbell made known. -/
def pendingOf (s : State) (cx hdrAddr tail : Nat) : List Nat :=
  match (ipaToPhys s cx hdrAddr).bind (readRing s) with
  | none => []
  | some r => (List.range ((tail + 2 ^ 32 - r.head) % 2 ^ 32 % (2 ^ r.lg + 1))).map fun i => (r.head + i) % 2 ^ 32

/-- A queue pair ready to send takes every entry it knows of. -/
def runSends (s : State) (qpn : Nat) : State :=
  match tget? s.qps qpn with
  | none => s
  | some q =>
    if q.st ≠ .rts || !lportUp s q.lport then s
    else
      let r := (pendingOf s q.ctx q.sq q.sqTail).foldl (fun r k => takeSend r.1 qpn r.2 k) (s, q)
      setQp r.1 qpn r.2

/-- Every entry of a queue pair, under way or waiting, completes with FLUSH (R406). -/
def flushQp (s : State) (qpn : Nat) : State :=
  match tget? s.qps qpn with
  | none => s
  | some q =>
    let s1 := q.inflight.foldl (fun s w => complete s qpn q w.idx w.op 4 0 none) s
    let send (s : State) (k : Nat) : State :=
      let op := ((ringEntry s q.ctx q.sq k).map fun bs => (readSend bs).op).getD 0
      complete (ringTake s q.ctx q.sq) qpn q k op 4 0 none
    let s2 := (pendingOf s1 q.ctx q.sq ((ringTail s1 q.ctx q.sq).getD q.sqTail)).foldl send s1
    let recv (s : State) (k : Nat) : State := complete (ringTake s q.ctx q.rq) qpn q k 5 4 0 none
    let s3 := (pendingOf s2 q.ctx q.rq ((ringTail s2 q.ctx q.rq).getD q.rqTail)).foldl recv s2
    setQp s3 qpn { q with inflight := [] }

/-! ## Commands (R406) -/

/-- A context that exists: neither FREE nor LOST (R398). -/
def ctxExists (s : State) (cx : Nat) : Bool := cx < 512 && (s.ctx cx).state ≠ .free && (s.ctx cx).state ≠ .lost

/-- QPCREATE's effect and result. -/
def qpCreate (s : State) (qpn : Nat) (a0 : BitVec 64) : State × Nat :=
  let a := a0.toNat
  if (tget? s.qps qpn).isSome then (s, 3)
  else if 2 ^ 52 ≤ a || a % 64 ≠ 0 || !populated a then (s, 1)
  else
    let d := BitVec.ofNat 512 (leNat (physBytes s a 64))
    let f (hi lo : Nat) : Nat := (d.extractLsb' lo (hi + 1 - lo)).toNat
    let q : Qp :=
      { st := .init, ctx := f 240 232, ud := d.getLsbD 264, lport := f 263 259, mtu := f 255 248, rr := d.getLsbD 256, rw := d.getLsbD 257
        ra := d.getLsbD 258, rfirst := f 295 272, rlast := f 319 296, sq := f 511 448, rq := f 447 384, cq := f 383 320, path := 0 }
    if f 271 265 ≠ 0 || f 247 241 ≠ 0 || f 231 0 ≠ 0 || 19 < q.lport || q.mtu < 8 || 12 < q.mtu then (s, 1)
    else if !ctxExists s q.ctx then (s, 2)
    else (setQp s qpn q, 0)

/-- QPSTATE's effect and result. -/
def qpState (s : State) (qpn : Nat) (a0 a1 : BitVec 64) : State × Nat :=
  match tget? s.qps qpn with
  | none => (s, 2)
  | some q =>
    let to? : Option QpState := match a0.toNat with
      | 1 => some .rtr
      | 2 => some .rts
      | 3 => some .err
      | _ => none
    match to? with
    | none => (s, 1)
    | some st =>
      let a := a1.toNat
      let takesPath := !q.ud && a ≠ 0
      if takesPath && (2 ^ 52 ≤ a || a % 64 ≠ 0 || !populated a) then (s, 1)
      else
        let path := if takesPath then BitVec.ofNat 512 (leNat (physBytes s a 64)) else q.path
        (runSends (setQp s qpn { q with st := st, path := path }) qpn, 0)

/-- QPDESTROY's effect and result. -/
def qpDestroy (s : State) (qpn : Nat) : State × Nat :=
  match tget? s.qps qpn with
  | none => (s, 2)
  | some _ => let s1 := flushQp s qpn; ({ s1 with qps := terase s1.qps qpn }, 0)

/-- A kill moves a context's queue pairs to ERR and flushes them (R406). -/
def killQps (s : State) (cx : Nat) : State :=
  s.qps.foldl (fun s p =>
    if p.2.ctx = cx then
      let s1 := flushQp s p.1
      match tget? s1.qps p.1 with
      | some q => setQp s1 p.1 { q with st := .err }
      | none => s1
    else s) s

/-! ## Events -/

/-- QP_DOORBELL: the device reads the ring's tail (R406). -/
def execQpDoorbell (cx : Nat) (v : BitVec 64) (s : State) : Out :=
  let qpn := (v.extractLsb' 0 16).toNat
  match tget? s.qps qpn with
  | none => .next s
  | some q =>
    if q.ctx ≠ cx || s.stopped then .next s
    else if v.getLsbD 16 then .next (setQp s qpn { q with rqTail := (ringTail s cx q.rq).getD q.rqTail })
    else .next (runSends (setQp s qpn { q with sqTail := (ringTail s cx q.sq).getD q.sqTail }) qpn)

/-- QP_COMPLETION: the answer to the oldest request under way arrives; its completion entry follows its data (R406). -/
def execQpCompletion (qpn : Nat) (ok : Bool) (data : List Byte) (s : State) : Out :=
  match tget? s.qps qpn with
  | none => .next s
  | some q =>
    match q.inflight with
    | [] => .next s
    | w :: rest =>
      if q.st ≠ .rts || s.stopped then .next s
      else
        let done (s : State) (st n : Nat) : Out :=
          .next (setQp (if w.sig then complete s qpn q w.idx w.op st n none else s) qpn { q with inflight := rest })
        if !ok then done s (if Config.rdmaStatus s.tick % 2 = 0 then 2 else 3) 0
        else if w.op ≤ 1 then done s 0 w.len
        else
          let bs := (data ++ List.replicate w.len 0).take w.len
          match checkLocal s q w.lref w.len 1 kindWrite with
          | (s1, none) => done s1 1 0
          | (s1, some h) => done (writeLocal s1 q h bs) 0 w.len

/-- Takes the receive queue's next entry. -/
def takeRecv (s : State) (q : Qp) : Option (State × Nat × Word64 × Nat) :=
  match pendingOf s q.ctx q.rq q.rqTail with
  | [] => none
  | k :: _ =>
    match ringEntry s q.ctx q.rq k with
    | none => none
    | some bs => some (ringTake s q.ctx q.rq, k, BitVec.ofNat 64 (leNat (bs.take 8)), leNat ((bs.drop 8).take 4))

/-- An incoming request's answer: kind 4, with its status. -/
def rdmaReply (s : State) (status : Nat) (bs : List Byte) : Out := .next { s with replies := (4, status, bs) :: s.replies }

/-- A receive: the data go to the entry's reference, or the entry completes with LOCAL. -/
def receive (s : State) (qpn : Nat) (q : Qp) (data : List Byte) (imm : Option Word) : Out :=
  match takeRecv s q with
  | none => rdmaReply s 3 []
  | some (s1, k, lref, n) =>
    match (if data.length ≤ n then checkLocal s1 q lref data.length 1 kindWrite else (s1, none)) with
    | (s2, none) => rdmaReply (complete s2 qpn q k 5 1 0 none) 2 []
    | (s2, some h) => rdmaReply (complete (writeLocal s2 q h data) qpn q k 5 0 data.length imm) 0 []

/-- RDMA_INCOMING (R405, R406): a request for one of this device's queue pairs. -/
def execRdmaIncoming (qpn : Nat) (op : RdmaOp) (raddr : BitVec 64) (len : Nat) (data : List Byte) (cmp swap : BitVec 64)
    (imm : Option (BitVec 32)) (s : State) : Out :=
  match tget? s.qps qpn with
  | none => .next s
  | some q =>
    if s.stopped || !(q.st = .rtr || q.st = .rts) || !lportUp s q.lport || (q.ud && op ≠ .send) then .next s
    else
      let idx := (wordRef raddr).index.toNat
      let named := q.rfirst ≤ idx && idx ≤ q.rlast
      match op with
      | .send => receive s qpn q data imm
      | .write =>
        if !named || !q.rw then rdmaReply s 2 []
        else match checkLocal s q raddr data.length 1 kindWrite with
          | (s1, none) => rdmaReply s1 2 []
          | (s1, some h) =>
            let s2 := writeLocal s1 q h data
            match imm with
            | none => rdmaReply s2 0 []
            | some v =>
              match takeRecv s2 q with
              | none => rdmaReply s2 3 []
              | some (s3, k, _, _) => rdmaReply (complete s3 qpn q k 5 0 data.length (some v)) 0 []
      | .read =>
        if !named || !q.rr then rdmaReply s 2 []
        else match checkLocal s q raddr len 1 kindRead with
          | (s1, none) => rdmaReply s1 2 []
          | (s1, some h) =>
            match readLocal s1 q h with
            | (s2, none) => rdmaReply s2 2 []
            | (s2, some bs) => rdmaReply s2 0 bs
      | .fadd | .cas =>
        if !named || !q.ra then rdmaReply s 2 []
        else match checkLocal s q raddr 8 8 kindAtomic with
          | (s1, none) => rdmaReply s1 2 []
          | (s1, some h) =>
            let pa := h.pas.headD 0
            let s2 := touchLocal s1 q h
            if s2.lastMarked (pa / 64) then rdmaReply s2 2 []
            else
              let old := leNat ((List.range 8).map fun i => s2.atomByte (pa + i))
              let new := if op = .fadd then (old + swap.toNat) % 2 ^ 64 else if old = cmp.toNat then swap.toNat else old
              rdmaReply (writeLocal s2 q h (leBytes 8 new)) 0 (leBytes 8 old)

/-- Requests under way on a port's links are not answered once they are down: they complete with RETRY (R406). -/
def dropLinks (s : State) (port : Nat) : State :=
  s.qps.foldl (fun s p =>
    if p.2.lport / 4 = port then
      setQp (p.2.inflight.foldl (fun s w => if w.sig then complete s p.1 p.2 w.idx w.op 3 0 none else s) s) p.1 { p.2 with inflight := [] }
    else s) s

/-- A port's mode word is written: a change between two running modes passes through 00, whose links are down (R406). -/
def writeEthMode (s : State) (port : Nat) (v : BitVec 64) : State :=
  let new := v.extractLsb' 0 2
  let set (s : State) (m : BitVec 2) : State := { s with ethMode := listMod s.ethMode port fun _ => m }
  let old := s.ethMode.getD port 0
  if old = new then s else if old = 0 then set s new else set (dropLinks (set s 0) port) new

/-- ETH_MODE_WRITE (R406). -/
def execEthModeWrite (port : Nat) (v : BitVec 64) (s : State) : Out :=
  if 5 ≤ port || s.stopped || s.power ≠ .ready then .next s else .next (writeEthMode s port v)

end Sys2Proof.Machine
end

