-- ==== Sys2Proof/Machine/Rays.lean ====
section
/-! DEFINITION. Rays.lean: the ray unit (R304 to R320): the hierarchy, the window, the exact tests and the ray entries. -/

namespace Sys2Proof.Machine

open Sys2Proof

/-! ## Exact values (R310, R311) -/

/-- A ratio with a positive denominator. -/
structure Frac where
  n : Int
  d : Nat
deriving DecidableEq, Repr, Inhabited

def Frac.le (a b : Frac) : Bool := a.n * b.d ≤ b.n * a.d
def Frac.lt (a b : Frac) : Bool := a.n * b.d < b.n * a.d
def Frac.max (a b : Frac) : Frac := if Frac.lt a b then b else a
def Frac.min (a b : Frac) : Frac := if Frac.lt b a then b else a

/-- A quotient by a divisor other than zero. -/
def ratio (n d : Int) : Frac := if d < 0 then ⟨-n, d.natAbs⟩ else ⟨n, d.natAbs⟩

/-- A finite f32 in units of 2^−149. -/
def fixed (v : Word) : Option Int :=
  match fmtF32.decode v.toNat with
  | .num n m e => some ((if n then -1 else 1) * ((m * 2 ^ (e + 149).toNat : Nat) : Int))
  | _ => none

/-- Such a value as a ratio. -/
def realOf (x : Int) : Frac := ⟨x, 2 ^ 149⟩

/-- A ratio rounded once to f32. -/
def fracF32 (rnd : Rnd) (f : Frac) : Nat := (fmtF32.finish rnd false (quotExact (f.n < 0) f.n.natAbs 0 f.d 0)).1

/-- A ratio in [0, 1] as unorm16, ties to even. -/
def unorm16 (f : Frac) : Nat := (roundAt .rn (quotExact false (f.n.natAbs * 65535) 0 f.d 0) 0).1

/-! ## Rays, boxes and triangles -/

/-- A valid ray (R310). -/
structure Ray where
  o : List Int
  d : List Int
  tmin : Int
  tmax : Int

def validRay (v : List Word) : Option Ray :=
  match (v.take 8).map fixed with
  | [some ox, some oy, some oz, some dx, some dy, some dz, some a, some b] =>
    if (dx = 0 && dy = 0 && dz = 0) || !(a < b) then none else some { o := [ox, oy, oz], d := [dx, dy, dz], tmin := a, tmax := b }
  | _ => none

/-- The box test: the interval, when it is not empty (R310). -/
def boxTest (r : Ray) (bound : Int) (lo hi : List Int) : Option (Frac × Frac) :=
  let axis (i : Option (Frac × Frac)) (a : Nat) : Option (Frac × Frac) :=
    match i with
    | none => none
    | some (tn, tf) =>
      let o := r.o.getD a 0
      let d := r.d.getD a 0
      let l := lo.getD a 0
      let h := hi.getD a 0
      if d = 0 then (if o < l || h < o then none else some (tn, tf))
      else
        let t0 := ratio (l - o) d
        let t1 := ratio (h - o) d
        some (tn.max (t0.min t1), tf.min (t0.max t1))
  match (List.range 3).foldl axis (some (realOf r.tmin, realOf bound)) with
  | some (tn, tf) => if tn.le tf then some (tn, tf) else none
  | none => none

def vsub (a b : List Int) : List Int := a.zipWith (· - ·) b
def vdot (a b : List Int) : Int := (a.zipWith (· * ·) b).foldl (· + ·) 0
def vcross (a b : List Int) : List Int :=
  let x (i : Nat) := a.getD i 0
  let y (i : Nat) := b.getD i 0
  [x 1 * y 2 - x 2 * y 1, x 2 * y 0 - x 0 * y 2, x 0 * y 1 - x 1 * y 0]

/-- What a triangle's hit reports: t_f, {v16, u16}, and whether it is front-facing (R311). -/
structure TriHit where
  t : Word
  bary : Word
  front : Bool

/-- The exact solution of a ray and a triangle of nine f32 words. -/
def triTest (r : Ray) (v : List Word) : Option TriHit :=
  match (v.take 9).map fixed with
  | [some a, some b, some c, some d, some e, some f, some g, some h, some i] =>
    let v0 := [a, b, c]
    let e1 := vsub [d, e, f] v0
    let e2 := vsub [g, h, i] v0
    let n := vcross e1 e2
    let s := vsub r.o v0
    let den := vdot r.d n
    if den = 0 then none
    else
      let t := ratio (-(vdot n s)) den
      let u := ratio (vdot (vcross s e2) r.d) den
      let w := ratio (vdot (vcross e1 s) r.d) den
      if u.n < 0 || w.n < 0 || !(Frac.le ⟨u.n + w.n, u.d⟩ ⟨1, 1⟩) then none
      else some { t := BitVec.ofNat 32 (fracF32 .rn t), bary := BitVec.ofNat 32 (unorm16 w * 65536 + unorm16 u), front := den < 0 }
  | _ => none

/-- Whether a hit lies in the ray's interval: tmin ≤ t < tmax. -/
def inInterval (tmin tmax : Option Int) (t : Word) : Bool :=
  match tmin, tmax, fixed t with
  | some a, some b, some x => a ≤ x && x < b
  | _, _, _ => false

/-- Whether cull flags `CB` (bit 0) and `CF` (bit 1) drop a hit. -/
def culled (flags : Nat) (front : Bool) : Bool := if front then flags.testBit 1 else flags.testBit 0

/-! ## Nodes (R305, R306) -/

/-- The kind of an entry: 1 node, 2 leaf, 0 empty. -/
def entryKind (e : Word) : Nat :=
  let k := (e.extractLsb' 30 2).toNat
  if k = 1 && e.extractLsb' 0 3 ≠ 0 then 0 else if k = 3 then 0 else k

def entryCnt (e : Word) : Nat := (e.extractLsb' 27 3).toNat
def entryOff (e : Word) : Nat := 16 * (e.extractLsb' 0 27).toNat

/-- The box of a child slot, when the child is not empty: lower and upper corner. -/
def childBox (node : List Byte) (i : Nat) : Option (List Int × List Int) :=
  let byte (k : Nat) : Nat := (node.getD k 0).toNat
  let word (k : Nat) : Word := BitVec.ofNat 32 (leNat ((node.drop k).take 4))
  let p := (List.range 3).map fun a => fixed (word (4 * a))
  let ex := (List.range 3).map fun a => byte (12 + a)
  let lo := (List.range 3).map fun a => byte (16 + 6 * i + a)
  let hi := (List.range 3).map fun a => byte (19 + 6 * i + a)
  if p.any Option.isNone || ex.contains 0xFF || entryKind (word (64 + 4 * i)) = 0 ||
     (List.range 3).any (fun a => hi.getD a 0 < lo.getD a 0) then none
  else
    let corner (q : List Nat) : List Int :=
      (List.range 3).map fun a => ((p.getD a none).getD 0) + ((q.getD a 0 * 2 ^ (ex.getD a 0 + 22) : Nat) : Int)
    some (corner lo, corner hi)

def childEntry (node : List Byte) (i : Nat) : Word := BitVec.ofNat 32 (leNat ((node.drop (64 + 4 * i)).take 4))

/-- Puts a hit in its place by key; an equal key goes after. -/
def insertHit (x : Frac × Word) : List (Frac × Word) → List (Frac × Word)
  | [] => [x]
  | y :: ys => if Frac.le x.1 y.1 then x :: y :: ys else y :: insertHit x ys

/-- The entries of the children hit, by key and slot. -/
def nodeHits (r : Ray) (bound : Int) (node : List Byte) : List Word :=
  let hits := (List.range 8).filterMap fun i => match childBox node i with
    | some (lo, hi) => (boxTest r bound lo hi).map fun t => (t.1, childEntry node i)
    | none => none
  (hits.foldr insertHit []).map (·.2)

/-! ## The window (R308, R309) -/

/-- A window: its registers with their tokens, and the state word taken apart. -/
structure Win where
  val : List Word
  tok : List (Option Word)
  depth : Nat
  status : Nat
  cur : Nat
  h : Bool
  flags : Nat
  spilled : Nat
deriving Inhabited

def stDone : Nat := 0
def stCandidate : Nat := 1
def stMore : Nat := 2
def stSpill : Nat := 3
def stBad : Nat := 4

def Win.word (w : Win) (i : Nat) : Word := w.val.getD i 0

/-- Reads the 32 registers from `x`n. -/
def readWin (t : Thread) (n : Nat) : Win :=
  let c := (List.range 32).map fun i => regAt t (n + i)
  let s := (regAt t (n + 12)).val.toNat
  { val := c.map (·.val), tok := c.map fun r => if r.poison then some r.val else none
    depth := bitsOf s 31 27, status := bitsOf s 26 24, cur := bitsOf s 23 21, h := bitOf s 20, flags := bitsOf s 19 16, spilled := bitsOf s 15 0 }

/-- The state word. -/
def Win.state (w : Win) : Word :=
  BitVec.ofNat 32 (w.depth * 2 ^ 27 + w.status * 2 ^ 24 + w.cur * 2 ^ 21 + (if w.h then 2 ^ 20 else 0) + w.flags * 2 ^ 16 + w.spilled)

/-- An invalid state (R309). -/
def Win.invalid (w : Win) : Bool :=
  16 < w.depth || 4 ≤ w.status || (entryKind (w.word 13) = 2 && entryCnt (w.word 13) < w.cur) ||
    (w.status = stSpill && ((1 ≤ w.depth && w.depth ≤ 7) || (w.depth = 0 && w.spilled = 0))) ||
    (w.h && (fixed (w.word 8)).isNone)

def Win.set (w : Win) (i : Nat) (v : Word) : Win := { w with val := w.val.set i v, tok := w.tok.set i none }

/-- Registers 8 to 31 as written back. -/
def Win.cells (w : Win) : List (Word × Bool) :=
  (List.range 24).map fun j =>
    let i := j + 8
    if i = 12 then (w.state, false)
    else match w.tok.getD i none with
      | some t => if 16 ≤ i then (t, true) else (w.word i, false)
      | none => (w.word i, false)

/-- Whether a finite t lies between the window's tmin and tmax, which software may have set to infinities (R317). -/
def Win.spans (w : Win) (t : Word) : Bool :=
  (fixed t).any fun x =>
    (match fixed (w.word 6) with
      | some a => a ≤ x
      | none => w.word 6 = 0xFF800000) &&
    (match fixed (w.word 7) with
      | some b => x < b
      | none => w.word 7 = 0x7F800000)

/-- Whether (t, prim, inst) is in the interval and lower than the best (R311). -/
def Win.better (w : Win) (t : Word) (prim inst : Nat) : Bool :=
  w.spans t &&
    (!w.h || (match fixed t, fixed (w.word 8) with
      | some x, some b => x < b || (x = b && (prim < (w.word 9).toNat || (prim = (w.word 9).toNat && inst < (w.word 11).toNat)))
      | _, _ => true))

/-! ## Reads (R304, R315, R316) -/

/-- The end of a read of the unit. -/
inductive RayRead where
  | ok (bs : List Byte)
  | miss (m : Miss)
  | tok (code unit pa : Nat)
  | wait

/-- Whether an earlier load of the thread to some of these bytes has still to be performed (R196). -/
def awaitsLoad (t : Thread) (pas : List Nat) : Bool :=
  t.accs.any fun a => a.unperformed && pas.any fun p => a.span.1 ≤ p && p < a.span.1 + a.span.2

/-- One checked read, after the loads it must follow; it never takes bytes from the thread's store buffer. `unit`: that of the token of a
marked line. -/
def rayRead (s : State) (e : Env) (ref : Ref) (disp : Int) (n unit : Nat) : State × RayRead :=
  match access s e.cl e.cx ref disp n 1 kindRead with
  | (s1, .error m) => (s1, .miss m)
  | (s1, .ok hit) =>
    if awaitsLoad e.t hit.pas then (s1, .wait)
    else match hit.pas.findSome? fun a => remoteFails s1 a false with
    | some c => (s1, .tok c 7 (hit.pas.headD 0))
    | none =>
      let s2 := (linesOf hit.pas).foldl (fun s l => touchQuiet s e.cx hit.masks false false l) s1
      let o := Obs.group e.t.gid e.g.core
      match (linesOf hit.pas).find? fun l => s2.viewMarked o l with
      | some l => (s2, .tok 0x0B unit (64 * l))
      | none => (s2, .ok (hit.pas.map (s2.loadByte o)))

/-- A token made by a read, reported when it is an uncorrectable line (R389). -/
def rayTok (s : State) (e : Env) (code unit pa : Nat) : State × Word :=
  (if code = 0x0B then reportToken s e code unit pa else s, mkToken code unit e.t.pc.offset)

/-! ## TRAVI and TRAV (R313, R314) -/

/-- The window's first register. -/
def winNum : Reg → Nat
  | .x n => n
  | _ => 0

/-- A window's registers as a source: implied wait 1. -/
def winSrc (w first n : Nat) : SrcReq := { src := { reg := .x (w + first), wait := true }, words := n }

/-- The first token among registers of the window. -/
def winTok (w : Win) (first n : Nat) : Option Word := ((w.tok.drop first).take n).findSome? id

/-- Registers of the window written at once, and on to the next instruction. -/
def winOut (s : State) (e : Env) (w first : Nat) (cells : List (Word × Bool)) : Out :=
  .next (s.setThread e.tid (advance (writeRegs e.t (w + first) cells) 12))

/-- TRAVI (R313). -/
def execTravi (h : Head) (flags : BitVec 4) (w : Reg) (root : Src) (s : State) : Out :=
  let n := winNum w
  withSrcs s h 12 [winSrc n 0 8, { src := root }] [{ reg := .x (n + 8), words := 24 }] fun s1 e vals gtok =>
    let win := readWin e.t n
    let v := vals.getD 1 default
    match (winTok win 0 8).or v.tok, gtok with
    | some tok, none => winOut s1 e n 8 (List.replicate 8 (tok, true) ++ List.replicate 16 (0, false))
    | p, some g => winOut s1 e n 8 (List.replicate 24 (p.getD g, true))
    | none, none =>
      let w1 : Win :=
        { val := (win.val.take 8) ++ [win.word 7, 0, 0, 0, 0, v.v32] ++ List.replicate 18 0, tok := List.replicate 32 none
          depth := 0, status := if (validRay win.val).isSome then stMore else stDone, cur := 0, h := false, flags := flags.toNat, spilled := 0 }
      winOut s1 e n 8 w1.cells

/-- How a traversal ends. -/
inductive TravEnd where
  | out (w : Win) (high : Word)
  | tok (w : Win) (code unit pa : Nat)
  | word (w : Win) (t : Word)
  | miss (w : Win) (disp : Nat) (m : Miss)
  | empty (r : Nat)
  | wait

/-- The bound of box tests: the best t, else tmax. -/
def Win.bound (w : Win) (r : Ray) : Int := if w.h then (fixed (w.word 8)).getD r.tmax else r.tmax

/-- A node's children go to register 13 and to the stack. -/
def pushHits (w : Win) (hits : List Word) : Win :=
  let w1 := w.set 13 (hits.headD 0)
  hits.tail.reverse.foldl (fun w e => { w.set (16 + w.depth) e with depth := w.depth + 1 }) w1

/-- One triangle record of a leaf is tested: on, or the end. -/
def visitTri (r : Ray) (inst : Word) (w0 : Win) (rec : List Byte) : Win × Option Word :=
  let cnt := entryCnt (w0.word 13)
  let w := if cnt < w0.cur + 1 then { w0.set 13 0 with cur := 0 } else { w0 with cur := w0.cur + 1 }
  let prim : Word := BitVec.ofNat 32 (leNat ((rec.drop 40).take 4))
  match triTest r (bytesToWords (rec.take 36)) with
  | none => (w, none)
  | some hit =>
    if culled w.flags hit.front || !w.better hit.t prim.toNat inst.toNat then (w, none)
    else if (rec.getD 44 0).getLsbD 0 || w.flags.testBit 2 then
      let b := { (((w.set 8 hit.t).set 9 prim).set 10 hit.bary).set 11 inst with h := true }
      if w.flags.testBit 3 then ({ b with status := stDone }, some 0) else (b, none)
    else ({ (w.set 14 hit.t).set 15 prim with status := stCandidate }, some hit.bary)

/-- The loop of R314. `last`: the window after the last completed visit (R315); `low`: the lowest depth so far, below which
the stack still holds the registers' own entries; `stops`: the windows with which smaller N would have ended, newest first. -/
def travLoop (e : Env) (base : Nat) (ref : Ref) (r : Ray) (inst : Word) (nmax : Nat) :
    Nat → State → Win → Win → Nat → Nat → List Win → (State × TravEnd) × List Win
  | 0, s, w, _, _, _, stops => ((s, .out w 0), stops)
  | fuel + 1, s, w, last, low, v, stops =>
    let k := entryKind (w.word 13)
    if k = 0 then
      if w.depth = 0 then ((s, .out { w with status := if w.spilled = 0 then stDone else stSpill } 0), stops)
      else
        let j := 16 + w.depth - 1
        if w.depth ≤ low && !(regAt e.t (base + j)).readable then ((s, .empty (base + j)), stops)
        else match w.tok.getD j none with
          | some t => ((s, .word w t), stops)
          | none =>
            travLoop e base ref r inst nmax fuel s { w.set 13 (w.word j) with depth := w.depth - 1, cur := 0 } last (min low (w.depth - 1)) v stops
    else if v = nmax then ((s, .out w 0), stops)
    else
      let stops := if v = 0 then stops else w :: stops
      let off := entryOff (w.word 13)
      let n := if k = 1 then 128 else 48 * (entryCnt (w.word 13) + 1)
      match rayRead s e ref (off : Int) n 5 with
      | (s1, .wait) => ((s1, .wait), stops)
      | (s1, .miss m) => ((s1, .miss last off m), stops)
      | (s1, .tok c u pa) => ((s1, .tok { last with status := stMore } c u pa), stops)
      | (s1, .ok bs) =>
        if k = 1 then
          let hits := nodeHits r (w.bound r) bs
          if 16 < w.depth + hits.length - 1 then
            if w.spilled = 0xFFFF then ((s1, .tok w 0x0F 5 0), stops) else ((s1, .out { w with status := stSpill } 0), stops)
          else
            let w1 := pushHits w hits
            travLoop e base ref r inst nmax fuel s1 w1 w1 low (v + 1) stops
        else
          match visitTri r inst w ((bs.drop (48 * w.cur)).take 48) with
          | (w1, some high) => ((s1, .out w1 high), stops)
          | (w1, none) => travLoop e base ref r inst nmax fuel s1 w1 w1 low (v + 1) stops

/-- TRAV's destinations: its pair and window registers 8 to 31. -/
def travDst (n : Nat) (dst : Reg) : List Nat := xRegs dst 2 ++ (List.range 24).map (n + 8 + ·)

/-- What a TRAV writes: its pair, then window registers 8 to 31. -/
def travCells (dst : Reg) (d : List (Word × Bool)) (w : Win) : List (Word × Bool) := d.take (xRegs dst 2).length ++ w.cells

/-- A TRAV that has run goes to its write-back, with what each of its stops would write. -/
def travIssue (s : State) (e : Env) (h : Head) (n : Nat) (dst : Reg) (d : List (Word × Bool)) (w : Win) (stops : List Win := []) : Out :=
  let stop (x : Win) : List (Word × Bool) := travCells dst (cleanWords [BitVec.ofNat 32 x.status, 0]) x
  .next (issueAcc s (e.refresh s) 12 0xE1 3 h.sp (travDst n dst) (.trav (stops.map stop) (travCells dst d w)))

/-- A TRAV with a poisoned source: its pair takes the token, and its window stands; all of them are pending meanwhile. -/
def travPoison (s : State) (e : Env) (h : Head) (n : Nat) (dst : Reg) (t : Word) : Out :=
  let win := ((List.range 24).map (n + 8 + ·)).filter fun r => (regAt e.t r).readable
  .next (issueAcc s e 12 0xE1 3 h.sp (xRegs dst 2 ++ win)
    (.done ((poisonWords t 2).take (xRegs dst 2).length ++ win.map fun r => ((regAt e.t r).val, (regAt e.t r).poison))))

/-- TRAV (R314, R315). -/
def execTrav (h : Head) (dst : Reg) (w : Reg) (base inst : Src) (nmax : BitVec 16) (s : State) : Out :=
  let n := winNum w
  withSrcs s h 12 [winSrc n 0 16, { src := base, words := 2 }, { src := inst }]
      [{ reg := dst, words := 2 }, { reg := .x (n + 8), words := 24 }] fun s1 e vals gtok =>
    let win := readWin e.t n
    let ref := vals.getD 1 default
    let ins := vals.getD 2 default
    let tok := (ref.tok.or ins.tok).or (winTok win 0 16)
    match gtok, tok with
    | some g, p =>
      let t := p.getD g
      .next (s1.setThread e.tid (advance (writeEach e.t ((travDst n dst).zip
        ((poisonWords t 2).take (xRegs dst 2).length ++ List.replicate 24 (t, true)))) 12))
    | none, some t => travPoison s1 e h n dst t
    | none, none =>
      if captiveFull e.t then .next s
      else
        let done (s : State) (w : Win) (high : Word) (stops : List Win) : Out :=
          travIssue s e h n dst (cleanWords [BitVec.ofNat 32 w.status, high]) w stops
        if win.invalid then done s1 { win with status := stBad } 0 []
        else if win.status ≠ stMore then done s1 win 0 []
        else match validRay win.val with
          | none => done s1 { win with status := stDone } 0 []
          | some r =>
            let (last, stops) := travLoop e n (wordRef ref.v64) r ins.v32 nmax.toNat (9 * nmax.toNat + 40) s1 win win win.depth 0 []
            match last with
            | (_, .wait) => .next s
            | (s2, .out w high) => done s2 w high stops
            | (s2, .word w t) => travIssue s2 e h n dst (poisonWords t 2) w stops
            | (s2, .tok w c u pa) => let (s3, t) := rayTok s2 e c u pa; travIssue s3 e h n dst (poisonWords t 2) w stops
            | (_, .empty r) =>
              match emptyOutcome e.t h.sp r r true with
              | some p => prepOut s e 12 p
              | none => .next s
            | (s2, .miss last disp m) =>
              let w1 := { last with status := stMore }
              if h.sp then travIssue s2 e h n dst (poisonWords (mkToken (missCode m) 5 e.t.pc.offset) 2) w1 stops
              else
                let t := writeRegs ((e.refresh s2).t) (n + 8) w1.cells
                let s3 := s2.setThread e.tid t
                missOut s3 (e.refresh s3) (wordRef ref.v64) (disp : Int) kindRead 5 m

/-! ## THIT (R317) -/

/-- The two forms of THIT; `acc`: barycentrics and instance. -/
def thitOut (s : State) (h : Head) (w : Reg) (acc : Option (Src × Src)) : Out :=
  let n := winNum w
  let srcs : List SrcReq := match acc with
    | some (b, i) => [{ src := b }, { src := i }]
    | none => []
  withSrcs s h 12 (winSrc n 6 10 :: srcs) [{ reg := .x (n + 8), words := 8 }] (extra := (List.range 32).map (n + ·)) fun s1 e vals gtok =>
    let win := readWin e.t n
    let b := vals.getD 1 default
    let i := vals.getD 2 default
    match ((b.tok.or i.tok).or (winTok win 6 10)).or gtok with
    | some t => winOut s1 e n 8 (List.replicate 8 (t, true))
    | none =>
      let put (w : Win) : Out := winOut s1 e n 8 (w.cells.take 8)
      if win.status ≠ stCandidate then .next (s1.setThread e.tid (advance e.t 12))
      else if win.invalid then put { win with status := stBad }
      else
        let took : Bool := acc.isSome && win.better (win.word 14) (win.word 15).toNat i.v32.toNat
        let w1 := if took then
            { (((win.set 8 (win.word 14)).set 9 (win.word 15)).set 10 b.v32).set 11 i.v32 with h := true }
          else win
        put { (w1.set 14 0).set 15 0 with status := if took && win.flags.testBit 3 then stDone else stMore }

/-- THIT.ACC. -/
def execThitAcc (h : Head) (w : Reg) (bary inst : Src) (s : State) : Out := thitOut s h w (some (bary, inst))

/-- THIT.REJ. -/
def execThitRej (h : Head) (w : Reg) (s : State) : Out := thitOut s h w none

/-! ## TRI and TBOX (R318) -/

/-- A single test on `n` bytes at a reference. -/
def rayTest (s : State) (h : Head) (op : BitVec 8) (dst : Reg) (w : Reg) (base : Src) (disp : BitVec 32) (n : Nat)
    (f : List Word → List Byte → Word × Word) : Out :=
  let k := winNum w
  withSrcs s h 12 [winSrc k 0 8, { src := base, words := 2 }] [{ reg := dst, words := 2 }] (extra := (List.range 32).map (k + ·))
      fun s1 e vals gtok =>
    let win := readWin e.t k
    let ref := vals.getD 1 default
    let issue (s : State) (d : List (Word × Bool)) : Out := .next (issueAcc s (e.refresh s) 12 op 3 h.sp (xRegs dst 2) (.done d))
    match gtok, (winTok win 0 8).or ref.tok with
    | some g, p => finishTok s1 e 12 dst 2 (p.getD g)
    | none, some t => issue s1 (poisonWords t 2)
    | none, none =>
      if captiveFull e.t then .next s
      else match rayRead s1 e (wordRef ref.v64) disp.toInt n 1 with
        | (_, .wait) => .next s
        | (s2, .ok bs) => let r := f win.val bs; issue s2 (cleanWords [r.1, r.2])
        | (s2, .tok c u pa) => let (s3, t) := rayTok s2 e c u pa; issue s3 (poisonWords t 2)
        | (s2, .miss m) =>
          if h.sp then issue s2 (poisonWords (mkToken (missCode m) 5 e.t.pc.offset) 2)
          else missOut s2 (e.refresh s2) (wordRef ref.v64) disp.toInt kindRead 5 m

/-- TRI (R318). -/
def execTri (h : Head) (cull : BitVec 2) (dst : Reg) (w : Reg) (base : Src) (disp : BitVec 32) (s : State) : Out :=
  rayTest s h 0xE3 dst w base disp 48 fun v bs =>
    let miss : Word × Word := (0x7F800000, 0xFFFFFFFF)
    match validRay v with
    | none => miss
    | some r => match triTest r (bytesToWords (bs.take 36)) with
      | none => miss
      | some hit =>
        if culled cull.toNat hit.front || !inInterval (some r.tmin) (some r.tmax) hit.t then miss else (hit.t, hit.bary)

/-- TBOX (R318). -/
def execTbox (h : Head) (slot : BitVec 3) (dst : Reg) (w : Reg) (base : Src) (disp : BitVec 32) (s : State) : Out :=
  rayTest s h 0xE4 dst w base disp 128 fun v bs =>
    let miss : Word × Word := (0x7F800000, 0xFF800000)
    match validRay v, childBox bs slot.toNat with
    | some r, some (lo, hi) => match boxTest r r.tmax lo hi with
      | some (tn, tf) => (BitVec.ofNat 32 (fracF32 .rd tn), BitVec.ofNat 32 (fracF32 .ru tf))
      | none => miss
    | _, _ => miss

/-! ## TSTK (R319) -/

/-- A fault of TSTK traps whatever `sp` is; a missing page parks. -/
def tstkMiss (s0 : State) (e : Env) (ref : Ref) (disp : Int) (k : AKind) (m : Miss) : Out :=
  let s1 := (access s0 e.cl e.cx ref disp 32 16 k).1
  missOut s1 (e.refresh s1) ref disp k 5 m

/-- The words of a filled group: the thread's own bytes first, then memory; an entry of a marked line holds 0x0B. -/
def fillWords (s : State) (e : Env) (ref : Ref) (disp : Int) (hit : Hit) : State × List (Word × Bool) :=
  let r := ref.plus disp
  let own := (List.range 32).map fun i => ownByte e.t r.index (r.offset.toNat + i)
  let s1 := (linesOf hit.pas).foldl (fun s l => touchQuiet s e.cx hit.masks false false l) s
  let o := Obs.group e.t.gid e.g.core
  let one (s : State) (j : Nat) : State × (Word × Bool) :=
    let idx := (List.range 4).map (4 * j + ·)
    let mine := idx.filter fun i => (own.getD i none).isNone
    match mine.find? fun i => s.viewMarked o (hit.pas.getD i 0 / 64) with
    | some i => let (s2, t) := rayTok s e 0x0B 1 (hit.pas.getD i 0 / 64 * 64); (s2, (t, true))
    | none => (s, (BitVec.ofNat 32 (leNat (idx.map fun i => (own.getD i none).getD (s.loadByte o (hit.pas.getD i 0)))), false))
  (List.range 8).foldl (fun r j => let (s2, c) := one r.1 j; (s2, r.2 ++ [c])) (s1, [])

/-- TSTK (R319). -/
def execTstk (h : Head) (w : Reg) (base : Src) (disp : BitVec 32) (s : State) : Out :=
  let n := winNum w
  withSrcs s h 12 [winSrc n 12 1, { src := base, words := 2 }] [{ reg := .x (n + 12) }, { reg := .x (n + 16), words := 16 }]
      (extra := (List.range 32).map (n + ·)) fun s1 e vals gtok =>
    let win := readWin e.t n
    let ref := vals.getD 1 default
    let spill : Bool := win.status = stSpill && win.depth ≠ 0
    let e0 := (s.env? e.tid).getD e
    let poisonDst (t : Word) : Out :=
      .next (s1.setThread e.tid (advance (writeRegs (writeReg e.t (n + 12) t true) (n + 16) (List.replicate 16 (t, true))) 12))
    match gtok, win.tok.getD 12 none with
    | some g, p => poisonDst (((p.or ref.tok).or (if spill then winTok win 16 8 else none)).getD g)
    | none, some t => .next (raisePoison s e0 t 0)
    | none, none =>
      if win.status ≠ stSpill then fallThrough s1 e 12
      else match firstEmpty e.t [n + 8, n + 13] with
        | some r => match emptyOutcome e.t h.sp r r true with
          | some p => prepOut s e0 12 p
          | none => .next s
        | none =>
          if win.invalid then .next (s1.setThread e.tid (advance (writeReg e.t (n + 12) { win with status := stBad }.state false) 12))
          else if captiveFull e.t then .next s
          else if !spill then
            match ref.tok with
            | some t => poisonDst t
            | none =>
              let r := wordRef ref.v64
              let d : Int := disp.toInt + 32 * ((win.spilled : Int) - 1)
              match access s1 e.cl e.cx r d 32 16 kindRead with
              | (_, .error m) => tstkMiss s e0 r d kindRead m
              | (s2, .ok hit) =>
                if awaitsLoad e.t hit.pas then .next s
                else
                  let (s3, ws) := match hit.pas.findSome? fun a => remoteFails s2 a false with
                    | some c => (s2, List.replicate 8 (mkToken c 7 e.t.pc.offset, true))
                    | none => fillWords s2 (e.refresh s2) r d hit
                  let e3 := e.refresh s3
                  let st := { win with depth := 8, spilled := win.spilled - 1, status := stMore }.state
                  let t := writeRegs (writeReg e3.t (n + 12) st false) (n + 24) (List.replicate 8 (0, false))
                  .next (issueAcc s3 { e3 with t := t } 12 0xE5 3 h.sp ((List.range 8).map (n + 16 + ·)) (.done ws))
          else
            match firstEmpty e.t ((List.range 16).map (n + 16 + ·)) with
            | some r => match emptyOutcome e.t h.sp r r true with
              | some p => prepOut s e0 12 p
              | none => .next s
            | none =>
              match ref.tok, winTok win 16 8 with
              | some t, _ => .next (raisePoison s e0 t 4)
              | none, some t => .next (raisePoison s e0 t 5)
              | none, none =>
                if win.spilled = 0xFFFF then .next (raiseFault s e0 0x0F 5)
                else
                  let r := wordRef ref.v64
                  let d : Int := disp.toInt + 32 * (win.spilled : Int)
                  match access s1 e.cl e.cx r d 32 16 kindWrite with
                  | (_, .error m) => tstkMiss s e0 r d kindWrite m
                  | (s2, .ok _) =>
                    if 63 ≤ e.t.sb.length then endQuantumOut s e0 .again
                    else
                      let e2 := e.refresh s2
                      let half (k : Nat) : SbEntry :=
                        .plain (r.plus (d + 16 * (k : Int))) (((win.val.drop (16 + 4 * k)).take 4).flatMap fun v => leBytes 4 v.toNat) false
                      let st := { win with depth := win.depth - 8, spilled := win.spilled + 1, status := stMore }.state
                      let up := (List.range 8).map fun j => match win.tok.getD (24 + j) none with
                        | some t => (t, true)
                        | none => (win.word (24 + j), false)
                      let t := writeRegs (writeReg e2.t (n + 12) st false) (n + 16) (up ++ List.replicate 8 (0, false))
                      .next (s2.setThread e.tid (quantumIfFull (advance (appendSb t [half 0, half 1]) 12)))

end Sys2Proof.Machine
end

