-- ==== Sys2Proof/Machine/Contexts.lean ====
section
/-! DEFINITION. Contexts.lean: contexts created, destroyed and killed, and the loss record (R379 to R388). -/

namespace Sys2Proof.Machine

open Sys2Proof

/-! ## The command queue (R380, R398) -/

/-- Whether a command of the windows is under way: a DESTROY that waits for its loss record. -/
def busyHost (s : State) : Bool := s.ctxs.any fun c => c.2.destroying

/-- Whether the device answers its host (R391, R399, R407). -/
def hostAnswers (s : State) : Bool := !s.stopped && s.power = .ready

/-- A command runs, or waits its turn in arrival order. -/
def hostCmd (i : Turn) (f : State → State) (s : State) : Out :=
  if !hostAnswers s then .next s
  else if busyHost s then .next { s with hostQueue := s.hostQueue ++ [i] }
  else .next (f s)

/-- A command ends: its result, and one more completed. -/
def CmdWin.ended (w : CmdWin) (res : Nat) : CmdWin := { w with res := res, seq := (w.seq + 1) % 2 ^ 32 }

/-- A command of the context window ends. -/
def endCtxCmd (s : State) (res : Nat) : State := { s with ctxWin := CmdWin.ended s.ctxWin res }

/-- A command of the host window ends. -/
def endHostCmd (r : State × Nat) : State := { r.1 with hostWin := CmdWin.ended r.1.hostWin r.2 }

/-! ## CREATE (R379, R381) -/

/-- Invalidates everything cached under a context's number. -/
def forgetContext (s : State) (cx : Nat) : State :=
  let s1 := dropBufs (dropTlb s fun t => t.ctx = cx) fun k => k.1 = cx
  cleanVirtual { s1 with cores := tmap (fun _ u => { u with icache := u.icache.filter fun l => l.1.1 ≠ cx }) s1.cores } cx fun _ => true

/-- A field `[hi:lo]` of a descriptor. -/
def descField (d : BitVec 1024) (hi lo : Nat) : Nat := (d.extractLsb' lo (hi + 1 - lo)).toNat

/-- The reserved fields of a descriptor (R379). -/
def descReserved : List (Nat × Nat) :=
  [(1023, 896), (879, 870), (799, 775), (743, 736), (575, 564), (511, 500), (447, 436), (383, 372), (319, 308), (255, 244), (191, 180),
   (127, 89), (63, 52)]

/-- Whether a descriptor is well-formed (R381). -/
def descOk (d : BitVec 1024) : Bool :=
  let f := descField d
  descReserved.all (fun r => f r.1 r.2 = 0) && f 88 64 ≤ 2 ^ 24 && f 51 0 % 4096 = 0 && f 179 128 % 4096 = 0 && f 243 192 % 4096 = 0 &&
    f 307 256 % 64 = 0 && f 371 320 % 64 = 0 && f 435 384 % 64 = 0 && !d.getLsbD 641 &&
    (f 895 880 = 0xFFFF || (1 ≤ f 895 880 && f 895 880 ≤ 64))

/-- The tags of a 512-byte share-tag set. -/
def tagsOf (bs : List Byte) : List Nat := (bs.zipIdx).flatMap fun b => ((List.range 8).filter fun i => b.1.getLsbD i).map (8 * b.2 + ·)

/-- The context a descriptor makes; its host-written pre-emption fields and its virtual function slots stay. -/
def contextOf (s : State) (old : Ctx) (d : BitVec 1024) : Ctx :=
  let f := descField d
  { state := .run, hamper := old.hamper, hlen := old.hlen, dl1 := old.dl1, dl2 := old.dl2, vfs := old.vfs
    part := f 869 864, tdi := f 895 880, stride := f 863 832 * 2 ^ 30, btab := f 51 0, bcount := f 88 64, s1root := f 179 128, s2root := f 243 192
    gring := f 307 256, hring := f 371 320, lring := f 435 384, hidx := f 767 744, hcnt := f 735 704, seed := d.extractLsb' 576 64
    grants := (List.range 64).map fun i => BitVec.ofNat 64 (leNat (physBytes s (f 563 512 + 8 * i) 8))
    stags := tagsOf (physBytes s (f 499 448) 512)
    tmode := BitVec.ofNat 32 (f 774 768), foglim := BitVec.ofNat 32 (f 831 800), trapbase := d.extractLsb' 640 64 }

/-- CREATE's effect and result. -/
def createCtx (s : State) (cx : Nat) (desc : BitVec 64) : State × Nat :=
  let old := s.ctx cx
  let a := desc.toNat
  if old.state ≠ .free then (s, 1)
  else if 2 ^ 52 ≤ a || a % 128 ≠ 0 || !populated a then (s, 2)
  else
    let d := BitVec.ofNat 1024 (leNat (physBytes s a 128))
    if !(s.part (descField d 869 864)).v then (s, 3)
    else if !descOk d then (s, 2)
    else ((forgetContext s cx).setCtx cx (contextOf s old d), 0)

/-- CREATE (R380, R381). -/
def execCreate (cx : Nat) (desc : BitVec 64) (s : State) : Out :=
  hostCmd (.event (.create cx desc)) (fun s =>
    if 512 ≤ cx then s else let r := createCtx { s with ctxWin := { s.ctxWin with desc := desc, ctx := cx } } cx desc; endCtxCmd r.1 r.2) s

/-! ## DESTROY (R382) -/

/-- The last part of DESTROY, once the context is LOST: what waits in the command queue then runs. -/
def finishDestroy (s : State) (cx : Nat) : State :=
  let c := s.ctx cx
  let s1 := (forgetContext s cx).setCtx cx { hamper := c.hamper, hlen := c.hlen, dl1 := c.dl1, dl2 := c.dl2, res := c.res, used := c.used, vfs := c.vfs }
  let s2 := endCtxCmd s1 0
  { s2 with hostQueue := [], agenda := s2.agenda ++ s2.hostQueue }

/-- DESTROY (R382). -/
def execDestroy (cx : Nat) (s : State) : Out :=
  hostCmd (.event (.destroy cx)) (fun s =>
    if 512 ≤ cx then s
    else
      let s1 := { s with ctxWin := { s.ctxWin with ctx := cx } }
      let c := s1.ctx cx
      if c.state = .free then endCtxCmd s1 4
      else if c.state = .lost then finishDestroy s1 cx
      else
        let s2 := noticeKill s1 cx 8 []
        s2.setCtx cx { s2.ctx cx with destroying := true }) s

/-! ## KILL_CONTEXT (R212, R275, R303, R337, R384, R386, R387) -/

/-- Writes of a killed context: those that have reached a level stand, and so do writes of no boundary; the others never land. -/
def settleFlights (s : State) (cx : Nat) : State :=
  let mine := s.flights.filter fun f => f.ctx = cx
  let stands (f : Flight) : Bool := 1 ≤ f.lvl || f.bound.isNone
  mine.foldl (fun s f => if stands f then landFlight s f else { s with flights := s.flights.filter fun x => x.id ≠ f.id }) s

/-- Sets `PIN` on the frame whose line's error caused a kill (R181, R384): bit 70 of its entry. -/
def pinFrame (s : State) (pa : Nat) : State :=
  match (if pa = 0 then none else frameEntry? s pa) with
  | none => s
  | some e => pokeBytes s noContext (e + 8) [s.viewByte .domain (e + 8) ||| 0x40]

/-- A sweep that a killed context's thread was running ends without freeing a slot (R336, R337). -/
def endAgeing (s : State) (t : Thread) : State :=
  match t.status with
  | .parked (.lnWalk which _ w ..) =>
    if which = walkAge || which = walkEvict then
      match tget? s.worlds w with
      | some wd => { s with worlds := tput s.worlds w { wd with ageing := false } }
      | none => s
    else s
  | _ => s

/-- Removes every card instance, group and thread of a context, with its engines' work (R275, R303, R384). -/
def evict (s : State) (cx : Nat) : State :=
  let iids := (s.insts.filter fun i => i.2.q.ctx = cx).map (·.1)
  let gids := (s.groups.filter fun g => iids.contains g.2.iid).map (·.1)
  let cgids := (s.cgroups.filter fun g => iids.contains g.2.iid).map (·.1)
  let ts := s.threads.filter fun t => gids.contains t.2.gid
  let asked := ts.flatMap fun t => t.2.accs.map (·.id)
  let s2 := asked.foldl unask s
  { s2 with threads := s2.threads.filter fun t => !gids.contains t.2.gid
            groups := s2.groups.filter fun g => !gids.contains g.1
            cgroups := s2.cgroups.filter fun g => !cgids.contains g.1
            insts := s2.insts.filter fun i => i.2.q.ctx ≠ cx
            waitingNotices := s2.waitingNotices.filter fun n => !gids.contains n.2.1
            clusters := tmap (fun _ u =>
              { u with copies := u.copies.filter fun c => c.ctx ≠ cx
                       mqs := u.mqs.map fun q => q.filter fun o => o.ctx ≠ cx
                       enrol := u.enrol.filter fun x => !cgids.contains x.2 }) s2.clusters }

/-- The contexts here that joined a domain context. -/
def domainMembers (s : State) (domain : Nat) : List Nat := (s.ctxs.filter fun p => (p.2.member.map Member.domain) = some domain).map (·.1)

/-- A kill of one member kills every other member (R403). -/
def killDomain (s : State) (cx domain : Nat) : State :=
  (domainMembers s domain).foldl (fun s c => if c ≠ cx then noticeKill s c 10 [] else s) s

/-- Everything a kill does before its record: what remains is the loss ring's room. -/
def purge (s : State) (cx : Nat) : State :=
  let c := s.ctx cx
  let (reason, ws) := c.kill.getD (0, [])
  let s1 := killQps s cx
  let saved := (c.image.map fun i => i.threads).getD []
  let ts := s1.threads.filter (fun t => ctxOf s1 t.2 = cx) ++ saved
  let s2 := evict (ts.foldl (fun s t => endAgeing s t.2) (settleFlights s1 cx)) cx
  let s3 := endWorldsOf (revertClaims s2 cx) cx
  let s4 := { s3 with cards := s3.cards.filter fun p => p.2.ctx ≠ cx, slots := s3.slots.filter fun k => k.2.ctx ≠ cx
                      recs := s3.recs.filter fun r => r.ctx ≠ cx }
  let s5 := if reason = 1 then pinFrame s4 ((ws.headD 0).toNat) else s4
  let c1 := s5.ctx cx
  let s6 := s5.setCtx cx { c1 with purged := true, bells := [], image := none, unplaced := [] }
  let s7 := match c.member with
    | none => s6
    | some m => killDomain s6 cx m.domain
  let s8 := s7.groups.foldl (fun (s : State) (p : Nat × CoreGroup) => regsTry s p.1) s7
  tidyQueues (settleOwners s8)

/-- KILL_CONTEXT: every die stops and discards the context (R384). -/
def execKillContext (cx : Nat) (s : State) : Out :=
  if s.stopped || (s.ctx cx).kill.isNone || (s.ctx cx).purged then .next s else .next (purge s cx)

/-! ## LOSS_RECORD_PUSH (R384, R385) -/

/-- The 64 bytes of a loss record. -/
def lossRecord (s : State) (cx : Nat) (reason : Nat) (ws : List Word64) : List Byte :=
  let c := s.ctx cx
  let w (i : Nat) : Nat := (ws.getD i 0).toNat
  let core := w 4
  leBytes 64 (w 0 * 2 ^ 448 + w 1 * 2 ^ 384 + w 2 * 2 ^ 320 + w 3 * 2 ^ 288 + (s.kills + 1) % 2 ^ 32 * 2 ^ 224 + c.tdi * 2 ^ 208 +
    reason * 2 ^ 200 + c.part * 2 ^ 194 + cx * 2 ^ 185 + core / 256 % 4 * 2 ^ 183 + core / 4 % 64 * 2 ^ 177 + core % 4 * 2 ^ 175)

/-- The result a kill leaves in the pre-emption block (R363, R364). -/
def killRes (reason old : Nat) : Nat := if reason = 5 then 1 else if reason = 6 then 2 else old

/-- The unit class of a kill by an uncorrectable error or a failed commit (R78, R390): a core's own state has no address; an address of
another device is the fabric's, and any other memory's. -/
def killUnit (ws : List Word64) : Nat :=
  let pa := (ws.headD 0).toNat
  if pa = 0 then 0 else if isRemote pa then 7 else 1

/-- LOSS_RECORD_PUSH: the record once its ring has room; the state is then LOST (R384). -/
def execLossRecordPush (cx : Nat) (s : State) : Out :=
  let c := s.ctx cx
  match c.kill with
  | none => .next s
  | some (reason, ws) =>
    if s.stopped || !c.purged then .next s
    else match pushRing s some c.lring (lossRecord s cx reason ws) with
      | none => .next s
      | some s1 =>
        let s2 := { s1 with kills := s1.kills + 1 }.setCtx cx
          { s1.ctx cx with kill := none, purged := false, state := .lost, res := killRes reason c.res }
        let s3 := if reason = 1 || reason = 2 then reportContained s2 2 (killUnit ws) cx reason 0 ((ws.headD 0).toNat) else s2
        .next (if c.destroying then finishDestroy s3 cx else s3)

end Sys2Proof.Machine
end

