-- ==== Sys2Proof/Machine/Banks.lean ====
section
/-! DEFINITION. Banks.lean: what vaults, stacks and budget points do by themselves: parity, scrubbing and group states
(R224 to R230), the lowering of a split (R218), budget points (R257 to R260), patrol scrub (R252) and the remote stack
ports (R254 to R256). -/

namespace Sys2Proof.Machine

open Sys2Proof

/-! ## Parity groups (R224 to R230) -/

/-- PARITY_UPDATE: the oldest queued update of a group lands (R224). In a DEGRADED group it may meet a parity line that cannot be corrected:
the retired bank's line is lost (R228). -/
def execParityUpdate (cl grp : Nat) (s : State) : Out :=
  if 256 ≤ cl || 8 ≤ grp then .next s
  else
    let v := s.vault cl
    let g := vGrp v grp
    let s1 := s.setVault cl (landParity v grp)
    match g.queue with
    | (r, _) :: _ =>
      if g.st = .degraded && v.bad.contains (parityLine grp r) then
        let l := vUnhome v (32 * r + 4 * grp + g.rbank.getD 0)
        .next (reportVault (s1.setVault cl { s1.vault cl with marks := setAdd v.marks l }) cl l 0)
      else .next s1
    | [] => .next s1

/-- VAULT_SCRUB: the scrubber reads a data line, or a parity line, and handles its error (R225, R227); a line of the vault cache that is lost
is discarded (R219). -/
def execVaultScrub (cl line : Nat) (s : State) : Out :=
  let v := s.vault cl
  if 256 ≤ cl || !v.bad.contains line then .next s
  else match vScrub v line with
    | (v1, none) => .next (countCorrectable (s.setVault cl v1) (cl / 64) 2)
    | (v1, some l) =>
      if 4096 * v.split ≤ l then
        .next (countCorrectable (s.setVault cl { v1 with bad := setDel v1.bad line, marks := v.marks }) (cl / 64) 2)
      else .next (reportVault (s.setVault cl v1) cl l 0)

/-- FAILED groups of a vault. -/
def failedGroups (v : Vault) : List Nat := (List.range 8).filter fun g => (vGrp v g).st = .failed

/-- The capacity that firmware sets for a vault's failed groups (R230). -/
def capOf (v : Vault) : Nat :=
  match (failedGroups v).length with
  | 0 => 8
  | 1 => 7
  | _ => 0

/-- GROUP_TRANSITION: a waiting transition is taken, one out of HEALTHY once the parity queue is empty, firmware sets the capacity, and accesses
that waited on lines of a FAILED group go on (R220, R229, R230). -/
def execGroupTransition (cl grp : Nat) (s : State) : Out :=
  let v := s.vault cl
  if 256 ≤ cl || 8 ≤ grp || ((vGrp v grp).st = .healthy && (vGrp v grp).queue ≠ []) then .next s
  else
    let v1 := setGrp v grp (takeTransition (vGrp v grp))
    .next (wakeBuoys (wakePresent (s.setVault cl { v1 with cap := capOf v1 }) cl) cl)

/-- VAULT_REMAP: a vault with one FAILED group and no allocation, shadow or ring region is remapped (R230). -/
def execVaultRemap (cl : Nat) (s : State) : Out :=
  let v := s.vault cl
  match failedGroups v with
  | [g] =>
    if 256 ≤ cl || v.remapped.isSome || vOccupied s cl ≠ [] then .next s
    else .next (s.setVault cl { v with remapped := some g, cap := 7, split := min v.split 28 })
  | _ => .next s

/-- SCRATCH_GRANT_LOWER: the split falls to a lowered grant once nothing lies above it (R218). -/
def execScratchGrantLower (cl : Nat) (s : State) : Out :=
  match ownerOf s cl with
  | none => .next s
  | some n =>
    let v := s.vault cl
    let g := (s.part n).grant
    if v.split ≤ g || (vOccupied s cl).any fun r => g * 2 ^ 18 < r.1 + r.2 then .next s
    else .next (s.setVault cl { v with split := g })

/-! ## Budget points (R257 to R260) -/

/-- Picks of one cycle. -/
def pickRun (p : Nat) : Nat → BPoint → BPoint
  | 0, b => b
  | n + 1, b =>
    match pickClass p b with
    | none => b
    | some c => pickRun p n { b with spent := listMod b.spent c (· + 1), queues := listMod b.queues c (List.drop 1), last := c }

/-- BUDGET_PICK: a cycle's picks at a point, 4 at a slice and 64 at a port (R259). -/
def execBudgetPick (point : Nat) (s : State) : Out :=
  if 136 ≤ point then .next s
  else .next { s with points := tput s.points point (pickRun point (if isPort point then 64 else 4) (s.point point)) }

/-- The budget table of a point. -/
def tableOf (point : Nat) : Nat := if isPort point then 2 * ((point - 128) / 2) + 1 else 2 * (point / 32)

/-- A table. -/
def State.btable (s : State) (t : Nat) : BTable := tgetD {} s.btables t

/-- BUDGET_PERIOD_START: counts are zeroed and the table as last accepted applies (R258, R259). -/
def execBudgetPeriodStart (point : Nat) (s : State) : Out :=
  if 136 ≤ point then .next s
  else
    let es := (s.btable (tableOf point)).entries
    let b := { s.point point with floors := es.map fun e => (e.extractLsb' 0 32).toNat
                                  ceils := es.map fun e => (e.extractLsb' 32 32).toNat
                                  spent := List.replicate 16 0 }
    .next { s with points := tput s.points point b }

/-- A table's entry as it reads: class 8 has the device's own need as floor and ceiling (R258). -/
def tableEntry (t : BTable) (table c : Nat) : BitVec 64 :=
  if c = 8 then
    let n := BitVec.ofNat 32 (if table % 2 = 1 then Config.refreshFloor else 0)
    n ++ n
  else t.entries.getD c 0

/-- Half a point's capacity. -/
def halfCapacity (table : Nat) : Nat := if table % 2 = 1 then 32768 else 2048

/-- A table is written: accepted, or refused whole (R258). -/
def writeTable (s : State) (table : Nat) (es : List (BitVec 64)) : State :=
  let t := s.btable table
  let own := if table % 2 = 1 then Config.refreshFloor else 0
  let es1 := (List.range 16).map fun c => if c = 8 then t.entries.getD 8 0 else es.getD c 0
  let sum := ((List.range 16).map fun c => if c = 8 then own else ((es1.getD c 0).extractLsb' 0 32).toNat).foldl (· + ·) 0
  let t1 := if halfCapacity table < sum then { t with refused := true } else { entries := es1, refused := false }
  { s with btables := tput s.btables table t1 }

/-- BUDGET_TABLE_WRITE (R258). -/
def execBudgetTableWrite (table : Nat) (entries : List (BitVec 64)) (s : State) : Out :=
  if 8 ≤ table || s.stopped || s.power ≠ .ready then .next s else .next (writeTable s table entries)

/-! ## Stacks (R252, R254 to R256) -/

/-- DRAM_PATROL_SCRUB: the scrubber reads a line of its stack in class 9; one that cannot be corrected is marked, and only the management
controller learns of it (R252, R257). -/
def execDramPatrolScrub (line : Nat) (s : State) : Out :=
  if !isHbm (64 * line) then .next s
  else if s.badLines.contains line then
    .next { meetError (askPort s 9 line) line with scrubs := listMod s.scrubs (stackOf (64 * line)) (· + 1) }
  else .next (askPort s 9 line)

/-- The address of a place in a stack (R249). -/
def stackAddr (stack frame off : Nat) : Nat := (8 * frame + stack) * 2 ^ 21 + off

/-- Whether an entry of a remote port's table counts (R254). -/
def aclValid (e : BitVec 64) : Bool := e.getLsbD 63 && e.extractLsb' 48 13 = 0 && (e.extractLsb' 0 16).toNat ≤ (e.extractLsb' 16 16).toNat

/-- Steps 1 to 3 of R255: 1 RANGE, 2 NOACL, 3 RIGHTS. `right` is the bit of the entry that grants the request. -/
def aclCheck (s : State) (stack : Nat) (rid : BitVec 16) (frame off right : Nat) : Option Nat :=
  if 24576 ≤ frame || off % 64 ≠ 0 || 2 ^ 21 ≤ off then some 1
  else
    let es := (List.range 256).map fun i => tgetD 0 s.acl (256 * stack + i)
    match es.find? fun e => aclValid e && e.extractLsb' 32 16 = rid && (e.extractLsb' 0 16).toNat ≤ frame && frame ≤ (e.extractLsb' 16 16).toNat with
    | none => some 2
    | some e => if e.getLsbD right then none else some 3

/-- An answer given on a link: kind, status and data. -/
def reply (s : State) (kind status : Nat) (bs : List Byte) : State := { s with replies := (kind, status, bs) :: s.replies }

/-- A refusal of a remote port. -/
def refuseRemote (s : State) (stack kind status : Nat) : State :=
  reply { s with refusals := listMod s.refusals stack (· + 1) } kind status []

/-- REMOTE_READ: the line's current bytes, or a refusal, which changes nothing but the count; an error that DRAM then meets marks the
line first (R252, R255, R256). -/
def execRemoteRead (stack : Nat) (rid : BitVec 16) (frame off : Nat) (s : State) : Out :=
  if 8 ≤ stack || s.stopped then .next s
  else match aclCheck s stack rid frame off 61 with
    | some st => .next (refuseRemote s stack 1 st)
    | none =>
      let pa := stackAddr stack frame off
      let line := pa / 64
      if s.viewMarked .domain line then .next (refuseRemote s stack 1 4)
      else if meetsError s line then .next (refuseRemote (reportContained (meetError s line) 1 1 noContext 0x0B 0 pa) stack 1 4)
      else
        let s1 := askPort (noteHash s defaultMasks pa) 14 line
        .next (reply s1 1 0 ((List.range 64).map fun i => s1.loadByte .domain (pa + i)))

/-- REMOTE_WRITE: copies of the line are discarded, DRAM is written and the marker cleared (R256). -/
def execRemoteWrite (stack : Nat) (rid : BitVec 16) (frame off : Nat) (data : BitVec 512) (s : State) : Out :=
  if 8 ≤ stack || s.stopped then .next s
  else match aclCheck s stack rid frame off 62 with
    | some st => .next (refuseRemote s stack 2 st)
    | none =>
      let pa := stackAddr stack frame off
      let cs := cellsAt pa (leBytes 64 data.toNat)
      let s1 := askPort (noteHash s defaultMasks pa) 14 (pa / 64)
      .next (reply { s1 with flights := (dropCells s1.flights cs).map fun f => { f with marked := setDel f.marked (pa / 64) }
                             lines := s1.lines.filter fun l => l.line ≠ pa / 64
                             mem := memWrites s1.mem cs, marks := setDel s1.marks (pa / 64), badLines := setDel s1.badLines (pa / 64) } 2 0 [])

end Sys2Proof.Machine
end

