-- ==== Sys2Proof/Machine/Checkpoint.lean ====
section
/-! DEFINITION. Checkpoint.lean: pre-emption, the Hamper and resume (R122, R211, R247, R274, R303, R363 to R366). -/

namespace Sys2Proof.Machine

open Sys2Proof

/-! ## Commands (R363, R364) -/

/-- The contexts a pre-emption command reaches: the context itself and the other members of its domain here (R403). -/
def carriedTo (s : State) (cx : Nat) : List Nat :=
  match (s.ctx cx).member with
  | none => [cx]
  | some m => cx :: (domainMembers s m.domain).filter (· ≠ cx)

/-- PREEMPT on one context. -/
def preemptOne (s : State) (cx : Nat) : State :=
  let c := s.ctx cx
  if c.state ≠ .run || c.kill.isSome then s
  else s.setCtx cx { c with state := if c.dl1 = 0 then .saving else .draining, since := s.xclk }

/-- PREEMPT: drain, or checkpoint at once (R364). -/
def execPreempt (cx : Nat) (s : State) : Out :=
  if 512 ≤ cx || !hostAnswers s then .next s else .next ((carriedTo s cx).foldl preemptOne s)

/-- RESET: the context is killed (R363, R364). -/
def execReset (cx : Nat) (s : State) : Out :=
  if 512 ≤ cx || !hostAnswers s then .next s else .next ((carriedTo s cx).foldl (fun s c => noticeKill s c 7 []) s)

/-- Whether a deadline has passed on some die since the command was received. -/
def deadlinePassed (s : State) (c : Ctx) (dl : Nat) : Bool := (List.range 4).any fun d => c.since.getD d 0 + dl ≤ s.xclk.getD d 0

/-- Whether a context has groups or completing cards. -/
def resident (s : State) (cx : Nat) : Bool := s.insts.any fun i => i.2.q.ctx = cx && !i.2.reserving

/-- Whether groups of a context are resident. -/
def groupsResident (s : State) (cx : Nat) : Bool := s.groups.any fun g => (tget? s.insts g.2.iid).any fun i => i.q.ctx = cx

/-- DRAIN_DEADLINE: `dl1` passes with groups resident (R364). -/
def execDrainDeadline (cx : Nat) (s : State) : Out :=
  let c := s.ctx cx
  if c.state = .draining && c.kill.isNone && deadlinePassed s c c.dl1 && groupsResident s cx then .next (s.setCtx cx { c with state := .saving })
  else .next s

/-- CHECKPOINT_DEADLINE: `dl2` passes before the save has ended (R364). -/
def execCheckpointDeadline (cx : Nat) (s : State) : Out :=
  let c := s.ctx cx
  if c.state = .saving && c.kill.isNone && c.dl2 ≠ 0 && deadlinePassed s c c.dl2 then .next (noticeKill s cx 5 []) else .next s

/-! ## What a checkpoint saves -/

/-- Whether the engines are quiet and everything of a context is acknowledged at domain level (R211, R274, R303). -/
def quiesced (s : State) (cx : Nat) : Bool :=
  !(s.flights.any fun f => f.ctx = cx) &&
    s.clusters.all (fun u => (u.2.copies.all fun c => c.ctx ≠ cx || !c.started || c.out.isEmpty) &&
      u.2.mqs.all fun q => q.all fun o => o.ctx ≠ cx || o.cache.isEmpty) &&
    s.threads.all fun t => ctxOf s t.2 ≠ cx || (t.2.items.isEmpty && t.2.accs.isEmpty)

/-- The destination lines that a decrypt copy has written so far. -/
def writtenLines (s : State) (cl : Nat) (c : Copy) : List (Nat × Nat) :=
  (List.range c.blk.rows).flatMap fun r =>
    (List.range (c.blk.len / 64)).filterMap fun k =>
      if (r < c.row || r = c.row && 64 * k < c.pos) && !c.missed.any (fun l => l.row = r && l.start = 64 * k) then
        match copyDstVault s cl c.iid c.blk (r * c.blk.dpitch + 64 * k) 64 with
        | .ok h => some (h.cl, h.off / 64)
        | .error _ => none
      else none

/-- A started decrypt copy restarts whole: the lines it has written are zeroed and stay absent (R274). -/
def rewindDecrypt (s : State) (cx : Nat) : State :=
  s.clusters.foldl (fun s u => u.2.copies.foldl (fun s c =>
    if c.ctx = cx && c.started && c.blk.dec then
      let s1 := (writtenLines s u.1 c).foldl (fun s l =>
        let s2 := s.setVault l.1 (vaultPoke (s.vault l.1) (64 * l.2) (List.replicate 64 0))
        s2.setVault l.1 { s2.vault l.1 with absent := setAdd (s2.vault l.1).absent l.2 }) s
      setCopy s1 u.1 { c with started := false, row := 0, pos := 0, idx := 0, out := [], waiting := [], missed := [], failed := none, cipher := [] }
    else s) s) s

/-- The contents of an allocation: bytes, absent lines and marks, counted from its base (R247). -/
def saveVault (s : State) (cg : ClusterGroup) : List Host.Cell × List Nat × List Nat :=
  let v := s.vault cg.cluster
  let inside (l : Nat) : Bool := cg.base / 64 ≤ l && l < (cg.base + cg.len) / 64
  let ls := ((vUsed v).map (vUnhome v)).filter inside
  let bs := ls.flatMap fun l => (List.range 64).map fun i => (64 * l + i - cg.base, vPeek v (64 * l + i))
  (memWrites [] bs, (v.absent.filter inside).map (· - cg.base / 64), (v.marks.filter inside).map (· - cg.base / 64))

/-- The enrolments among some cluster groups: the group whose Buoy it is, the Buoy's offset in it, the group enrolled. -/
def saveEnrol (s : State) (cgs : List (Nat × ClusterGroup)) : List (Nat × Nat × Nat) :=
  s.clusters.flatMap fun u => u.2.enrol.filterMap fun x =>
    (cgs.find? fun g => g.2.cluster = u.1 && g.2.base ≤ x.1 && x.1 < g.2.base + g.2.len).map fun g => (g.1, x.1 - g.2.base, x.2)

/-- Cycles left to a thread parked in TRYW (R105). -/
def trywLeft (s : State) (t : Nat × Thread) : Option (Nat × Nat) :=
  match t.2.status with
  | .parked (.tryw _ _ _ d) => (tget? s.groups t.2.gid).map fun g => (t.1, d - (s.coreUnit g.core).clk)
  | _ => none

/-- The image of a context. -/
def imageOf (s : State) (cx : Nat) (dr : Bool) : Image :=
  let insts := s.insts.filter fun i => i.2.q.ctx = cx
  let iids := insts.map (·.1)
  let groups := s.groups.filter fun g => iids.contains g.2.iid
  let gids := groups.map (·.1)
  let cgs := s.cgroups.filter fun g => iids.contains g.2.iid
  let threads := s.threads.filter fun t => gids.contains t.2.gid
  { ver := Config.imageVersion.toNat, dr := dr, threads := tmap (fun _ t => { t with fetched := [] }) threads, groups := groups, cgroups := cgs
    insts := insts, vaults := cgs.map fun g => (g.1, saveVault s g.2), enrol := saveEnrol s cgs
    copies := s.clusters.flatMap fun u => u.2.copies.filter fun c => c.ctx = cx
    ops := s.clusters.flatMap fun u => u.2.mqs.flatMap fun q => (q.filter fun o => o.ctx = cx).map fun o => (o.gid, o)
    cards := s.cards.filter fun p => p.2.ctx = cx && !p.2.spilled
    claims := (s.lantern.filter fun e => e.claim = some cx).map (·.slot)
    trywLeft := threads.filterMap (trywLeft s), waiting := s.waitingNotices.filter fun n => gids.contains n.2.1 }

/-- A saved store-buffer entry (R184). -/
def savedEntry : SbEntry → List Byte
  | .plain ref bs _ =>
    let o := ref.offset.toNat % 16
    leBytes 16 (leNat bs * 2 ^ (8 * o)) ++ leBytes 16 ((2 ^ bs.length - 1) * 2 ^ o * 2 ^ 48 + ((refWord ref).toNat - o) * 2 ^ 64)
  | .atomic ref op w64 v dst _ _ =>
    let adst := (dst.map Reg.x).getD (.s .zr)
    leBytes 16 v.toNat ++
      leBytes 16 (adst.bits.toNat * 2 ^ 34 + op.bits.toNat * 2 ^ 42 + (if w64 then 2 ^ 46 else 0) + 2 ^ 47 + (refWord ref).toNat * 2 ^ 64)

/-- The saved counter word (R184). -/
def counterWord (t : Thread) : Nat :=
  let n (f : Item → Bool) : Nat := (t.items.filter f).length
  n (·.cl) + n (·.bay) * 2 ^ 8 + n (·.die) * 2 ^ 16 + n (·.dom) * 2 ^ 24

/-- The sections of an image, each with its type (R365): what R184 lays out stands first in a thread's body; the rest is the image
version's (log entry 8). -/
def sectionsOf (i : Image) : List (Nat × List Byte) :=
  let plain {α : Type} (typ : Nat) (l : List α) : List (Nat × List Byte) := (List.range l.length).map fun k => (typ, Config.sectionBody i typ k)
  [(1, Config.sectionBody i 1 0)] ++ plain 2 i.insts ++ plain 3 i.groups ++
    i.threads.zipIdx.map (fun t => (4, t.1.2.sb.flatMap savedEntry ++ leBytes 4 (counterWord t.1.2) ++ Config.sectionBody i 4 t.2)) ++
    plain 5 i.cgroups ++ plain 6 i.copies

/-- Whether a context's image is encrypted (R365). -/
def sealsImage (s : State) (cx : Nat) : Bool := s.slots.any (fun k => k.2.ctx = cx) || (tgetD {} s.tdis (s.ctx cx).tdi).st = .run

/-- A body under AES-256-GCM with the context's device key, its tag last (log entry 8). -/
def sealBody (cx time k : Nat) (body : List Byte) : List Byte :=
  let keys := aesKeys (beBytes 32 (Config.hamperKey cx).toNat)
  let iv := beBytes 12 (Config.hamperIv time k).toNat
  let ct := gcmDecrypt keys iv 0 body
  ct ++ gcmTag keys iv ct

/-- A section: its header, its body, and zeros up to the next multiple of 64 (R365). -/
def sectionBytes (typ : Nat) (body : List Byte) : List Byte :=
  leBytes 16 (body.length + typ * 2 ^ 80 + (crc32c body).toNat * 2 ^ 96) ++ body ++
    List.replicate (roundUp (16 + body.length) 64 - (16 + body.length)) 0

/-- The sections of a context's image as they are written. -/
def hamperSections (s : State) (cx : Nat) (i : Image) : List Byte :=
  (sectionsOf i).zipIdx.flatMap fun x => sectionBytes x.1.1 (if sealsImage s cx then sealBody cx s.tick x.2 x.1.2 else x.1.2)

/-- The header of a Hamper (R365). -/
def hamperHeader (s : State) (cx : Nat) (i : Image) (used : Nat) : List Byte :=
  let c := s.ctx cx
  let enc := sealsImage s cx
  let nsec := (sectionsOf i).length
  leBytes 64 (0x4841A960 + (if i.dr then 2 ^ 32 else 0) + (if enc then 2 ^ 128 else 0) + cx * 2 ^ 129 + c.part * 2 ^ 138 + i.ver * 2 ^ 144 +
    nsec * 2 ^ 160 + used * 2 ^ 192)

/-- The reserved parts of a domain card's placement are given back: the card waits as a whole again. -/
def dropReservations (s : State) (cx : Nat) : State :=
  s.cards.foldl (fun s p => match p.2.reserved with
    | some iid => if p.2.ctx = cx then { dropReserved s iid with cards := tput s.cards p.1 { p.2 with reserved := none } } else s
    | none => s) s

/-- CHECKPOINT: once everything is quiet, the context is saved into its Hamper; a drain that emptied it saves its queued cards
only (R364, R365). -/
def execCheckpoint (cx : Nat) (s : State) : Out :=
  let c0 := s.ctx cx
  let dr := c0.state = .draining && !resident s cx
  if s.stopped || c0.kill.isSome || !(c0.state = .saving || dr) || !quiesced s cx then .next s
  else
    let s1 := rewindDecrypt (dropReservations s cx) cx
    let i := imageOf s1 cx dr
    let body := hamperSections s1 cx i
    let used := 64 + body.length
    if c0.hlen * 4096 < used then .next (noticeKill s cx 6 [])
    else
      let bs := hamperHeader s1 cx i used ++ body
      let s2 := evict s1 cx
      let s3 := { s2 with cards := s2.cards.filter fun p => p.2.ctx ≠ cx || p.2.spilled }
      let s4 := pokeBytes s3 cx (c0.hamper.toNat / 4096 * 4096) bs
      let s5 := s4.setCtx cx { s4.ctx cx with state := .saved, res := 0, used := used, image := some { i with bytes := bs } }
      let s6 := s5.groups.foldl (fun s p => regsTry s p.1) s5
      .next (tidyQueues (settleOwners s6))

/-! ## RESUME (R363, R365) -/

/-- Whether `n` sections with good checksums stand from an offset on, below the image's end (R365). -/
def sectionsGood (s : State) (base fin : Nat) : Nat → Nat → Bool
  | 0, _ => true
  | n + 1, o =>
    let len := leNat (physBytes s (base + o) 5)
    o + 16 + len ≤ fin && leNat (physBytes s (base + o + 12) 4) = (crc32c (physBytes s (base + o + 16) len)).toNat &&
      sectionsGood s base fin n (o + roundUp (16 + len) 64)

/-- Whether an image names nothing that another context uses: what a Hamper of earlier or elsewhere holds is a free value, kept within
the model's numbering (log entry 8). -/
def ownImage (s : State) (cx : Nat) (i : Image) : Bool :=
  let others := s.ctxs.filterMap fun c => c.2.image.map fun j => (c.1, j)
  let used (n : Nat) : Bool :=
    (tget? s.insts n).isSome || (tget? s.groups n).isSome || (tget? s.cgroups n).isSome || (tget? s.threads n).isSome || (tget? s.cards n).isSome ||
      others.any fun j => j.1 ≠ cx && ((tget? j.2.insts n).isSome || (tget? j.2.groups n).isSome || (tget? j.2.cgroups n).isSome ||
        (tget? j.2.threads n).isSome || (tget? j.2.cards n).isSome)
  let keys := i.insts.map (·.1) ++ i.groups.map (·.1) ++ i.cgroups.map (·.1) ++ i.threads.map (·.1) ++ i.cards.map (·.1)
  keys.eraseDups.length = keys.length && keys.all (fun n => n < s.fresh && !used n) && i.insts.all (fun x => x.2.q.ctx = cx) &&
    i.cards.all (fun x => x.2.ctx = cx) && i.groups.all (fun g => (tget? i.insts g.2.iid).isSome && (tget? i.cgroups g.2.cgid).isSome) &&
    i.threads.all (fun t => (tget? i.groups t.2.gid).isSome) && i.copies.all (fun c => c.ctx = cx)

/-- What a context's Hamper holds, or why it may not be resumed: `CHECK` 4 or `VERSION` 3. Bytes that are not those saved last are another
image of this version; one that is encrypted resumes only as it was saved last (R365, log entry 8). -/
def hamperRead (s : State) (cx : Nat) : Except Nat Image :=
  let c := s.ctx cx
  let a := c.hamper.toNat / 4096 * 4096
  let used := leNat (physBytes s (a + 24) 8)
  if leNat (physBytes s a 4) ≠ 0x4841A960 then .error 4
  else if leNat (physBytes s (a + 18) 2) ≠ Config.imageVersion.toNat then .error 3
  else if c.hlen * 4096 < used || !sectionsGood s a used (leNat (physBytes s (a + 20) 4)) 64 then .error 4
  else
    match c.image with
    | none => .error 4
    | some i =>
      if physBytes s a i.bytes.length = i.bytes then .ok i
      else
        let j := { Config.foreignImage s.tick (physBytes s a used) with bytes := physBytes s a used }
        if leNat (physBytes s (a + 16) 1) % 2 = 1 || !ownImage s cx j then .error 4 else .ok j

/-- Whether an instance of an image has groups to place. -/
def Image.hasGroups (i : Image) (iid : Nat) : Bool := i.groups.any fun g => g.2.iid = iid

/-- Whether the members of a context's domain card have all resumed, so that its groups run again (R403). -/
def membersBack (s : State) (cx : Nat) (i : Image) : Bool :=
  match (s.ctx cx).member with
  | none => true
  | some m =>
    let local_ := domainMembers s m.domain
    let back (c : Ctx) : Bool := c.state = .run || c.state = .draining || (c.state = .resuming && c.unplaced.isEmpty)
    !i.insts.any (fun x => x.2.q.card.lvl = 5) ||
      ((local_.all fun d => back (s.ctx d)) && (m.count ≤ local_.length || Config.membersReady m.domain s.tick))

/-- The context runs again once nothing of it is left to place. -/
def runIfPlaced (s : State) (cx : Nat) : State :=
  let c := s.ctx cx
  match c.image with
  | some i => if c.state = .resuming && c.unplaced.isEmpty && membersBack s cx i then s.setCtx cx { c with state := .run, image := none } else s
  | none => s

/-- A context has nothing more to place: it runs again, with the members that waited for it. -/
def runMembers (s : State) (cx : Nat) : State := (carriedTo s cx).foldl runIfPlaced s

/-- RESUME on one context: its queued cards and completing instances are back at once, its groups wait for room. -/
def resumeOne (s : State) (cx : Nat) : State :=
  let c := s.ctx cx
  if c.state ≠ .saved || c.kill.isSome then s
  else match hamperRead s cx with
    | .error r => s.setCtx cx { c with res := r }
    | .ok i =>
      let whole := i.insts.filter fun x => !i.hasGroups x.1
      let s1 := whole.foldl (fun s x => s.setInst x.1 x.2) s
      let s2 := i.cards.foldl (fun s p => { s with cards := tput s.cards p.1 { p.2 with spilled := true, since := none, expired := false } }) s1
      let s3 := s2.setCtx cx { c with state := .resuming, res := 0, used := i.bytes.length, image := some i
                                      unplaced := (i.insts.filter fun x => i.hasGroups x.1).map (·.1) }
      tidyQueues (runMembers s3 cx)

/-- RESUME (R363, R365). -/
def execResume (cx : Nat) (s : State) : Out :=
  if 512 ≤ cx || !hostAnswers s then .next s else .next ((carriedTo s cx).foldl resumeOne s)

/-! ## RESUME_PLACE (R247, R366) -/

/-- One cluster group's move: its number, what it was, and its new cluster. -/
structure Move where
  cgid : Nat
  old : ClusterGroup
  dix : Nat
  cl : Nat
deriving DecidableEq, Repr, Inhabited

/-- The moves that chosen cores make, when each cluster group stays together. -/
def movesOf (i : Image) (gs : List ((Nat × CoreGroup) × Nat)) : Option (List Move) :=
  let cgids := (gs.map fun g => g.1.2.cgid).eraseDups
  cgids.mapM fun n =>
    let mine := gs.filter fun g => g.1.2.cgid = n
    match tget? i.cgroups n, common (· / 4) (mine.map (·.2)), mine with
    | some cg, some cl, g :: _ => some { cgid := n, old := cg, dix := g.1.2.dix, cl := cl }
    | _, _, _ => none

/-- Whether the cluster groups of each die group keep their shape, on a die of its own (R366). -/
def shapeKept (s : State) (cx : Nat) (ms : List Move) : Bool :=
  let dies := ms.map fun m => (m.dix, m.cl / 64)
  let shift (m : Move) : Int × Int := ((meshX m.cl : Int) - meshX m.old.cluster, (meshY m.cl : Int) - meshY m.old.cluster)
  (ms.all fun m => (heldDies s cx).contains (m.cl / 64) &&
    ms.all fun n => m.dix ≠ n.dix || (m.cl / 64 = n.cl / 64 && shift m = shift n)) &&
    dies.all fun a => dies.all fun b => a.1 = b.1 || a.2 ≠ b.2

/-- Whether the chosen cores hold their groups; their clusters are empty. -/
def coresHold (tsz : Nat) (gs : List ((Nat × CoreGroup) × Nat)) : Bool :=
  gs.all fun g =>
    let on := gs.filter fun h => h.2 = g.2
    on.length * tsz ≤ 2048 && (on.foldl (fun n h => n + tsz * h.1.2.nregs) 0) ≤ poolSize && (on.foldl (fun n h => n + h.1.2.bars.length) 0) ≤ 64

/-- The place of a moved cluster group's allocation in its new cluster's vault, and that of its window's shadow (R247). -/
def moveSpace (s : State) (part : Nat) (m : Move) : Option (Nat × Option Nat) :=
  (if m.old.len = 0 then some 0 else vaultRoom s part m.cl (m.old.len / 2048)).bind fun base =>
    match m.old.window with
    | none => some (base, none)
    | some w =>
      let v := s.vault m.cl
      let room := min (min v.split (s.part part).grant * 2 ^ 18) (v.cap * 2 ^ 20)
      (vPlace (s.setCGroup m.cgid { m.old with cluster := m.cl, base := base, window := none }) m.cl w.len 64 room).map fun p => (base, some p)

/-- Whether a cluster takes a moved cluster group, with room for its window's shadow. -/
def takesMove (s : State) (part : Nat) (m : Move) : Bool :=
  clusterEmpty s m.cl && mayPlace s part m.cl && (moveSpace s part m).isSome

/-- A cluster group is restored: contents, presence, marks, a new place for its shadow, and its copies in their order (R247, R267). -/
def restoreCluster (s : State) (part : Nat) (i : Image) (m : Move) : State :=
  let (base, shadow) := (moveSpace s part m).getD (0, none)
  let (bs, absent, marks) := ((i.vaults.find? fun v => v.1 = m.cgid).map (·.2)).getD ([], [], [])
  let v0 := if m.old.len = 0 then s.vault m.cl else vClear (s.vault m.cl) base (base + m.old.len)
  let v1 := bs.foldl (fun v c => vaultPoke v (base + c.1) [c.2]) v0
  let s1 := s.setVault m.cl { v1 with absent := absent.foldl (fun l n => setAdd l (n + base / 64)) v1.absent
                                      marks := marks.foldl (fun l n => setAdd l (n + base / 64)) v1.marks }
  let window := m.old.window.map fun w => { w with shadowAt := shadow.getD w.shadowAt }
  let s2 := s1.setCGroup m.cgid { m.old with cluster := m.cl, base := base, window := window }
  let u := s2.cluster m.cl
  s2.setCluster m.cl { u with copies := u.copies ++ i.copies.filter fun c => c.cgid = m.cgid }

/-- Where a place of a vault lies after the moves. -/
def movedPlace (s : State) (ms : List Move) (cl off : Nat) : Nat × Nat :=
  match ms.find? fun m => m.old.cluster = cl && m.old.base ≤ off && off < m.old.base + m.old.len with
  | none => (cl, off)
  | some m => (m.cl, ((tget? s.cgroups m.cgid).map (·.base)).getD 0 + off - m.old.base)

/-- A restored thread's park names the moved places. -/
def movedPark (s : State) (ms : List Move) (clk : Nat) (left : Option Nat) : Park → Park
  | .vault cl first cnt => let p := movedPlace s ms cl (64 * first); .vault p.1 (p.2 / 64) cnt
  | .buoyw cl off dst => let p := movedPlace s ms cl off; .buoyw p.1 p.2 dst
  | .barxWait len cl off => let p := movedPlace s ms cl off; .barxWait len p.1 p.2
  | .tryw len pd reg _ => .tryw len pd reg (clk + left.getD 0)
  | .copyRoom cl => .copyRoom (((ms.find? fun m => m.old.cluster = cl).map (·.cl)).getD cl)
  | p => p

/-- A core group is restored on a core, with its threads and operations; the core's quiet counter is zero (R122). -/
def restoreGroup (s : State) (i : Image) (ms : List Move) (gid : Nat) (g : CoreGroup) (core : Nat) : State :=
  let cl := core / 4
  let queue := (freeQueues s cl).headD 0
  let s0 := s.setCore core { s.coreUnit core with quiet := 0, last := none }
  let s1 := { s0 with fresh := s.fresh + 1 }.setGroup gid { g with core := core, order := s.fresh, mqueue := queue }
  let fix (tid : Nat) (t : Thread) : Thread :=
    match t.status with
    | .parked (.matRoom _ _) => { t with status := .parked (.matRoom cl queue) }
    | .parked p => { t with status := .parked (movedPark s ms (s.coreUnit core).clk ((i.trywLeft.find? fun x => x.1 = tid).map (·.2)) p) }
    | _ => t
  let s2 := i.threads.foldl (fun s t => if t.2.gid = gid then s.setThread t.1 (fix t.1 t.2) else s) s1
  let u := s2.cluster cl
  s2.setCluster cl { u with mqs := listMod u.mqs queue (· ++ (i.ops.filter fun o => o.1 = gid).map (·.2)) }

/-- An enrolment is restored. -/
def restoreEnrol (s : State) (x : Nat × Nat × Nat) : State :=
  match tget? s.cgroups x.1 with
  | none => s
  | some cg => let u := s.cluster cg.cluster; s.setCluster cg.cluster { u with enrol := u.enrol ++ [(cg.base + x.2.1, x.2.2)] }

/-- A waiting notice is restored. -/
def restoreNotice (s : State) (n : Nat × (Nat × List Word)) : State := { s with waitingNotices := tput s.waitingNotices n.1 n.2 }

/-- RESUME_PLACE: the groups of one instance are placed on chosen cores, at a translation of their shape (R366); a context that has
nothing left to place runs once its domain's other members are back. -/
def execResumePlace (cx iid : Nat) (cores : List Nat) (s : State) : Out :=
  let c := s.ctx cx
  match c.image with
  | none => .next s
  | some i =>
    if c.unplaced.isEmpty then .next (if s.stopped || c.kill.isSome then s else runMembers s cx)
    else
    let gs := (i.groups.filter fun g => g.2.iid = iid).zip cores
    let inst := tget? i.insts iid
    match inst, movesOf i gs with
    | some inst, some ms =>
      let cls := ms.map (·.cl)
      if s.stopped || c.kill.isSome || c.state ≠ .resuming || !c.unplaced.contains iid ||
         cores.length ≠ (i.groups.filter fun g => g.2.iid = iid).length || cls.eraseDups.length ≠ cls.length ||
         !ms.all (takesMove s c.part) || !shapeKept s cx ms || !coresHold inst.tsz gs || !cores.all (· < 1024) then .next s
      else
        let s1 := ms.foldl (fun s m => restoreCluster s c.part i m) (s.setInst iid inst)
        let s2 := gs.foldl (fun s g => restoreGroup s i ms g.1.1 g.1.2 g.2) s1
        let s3 := (i.enrol.filter fun x => ms.any fun m => m.cgid = x.1).foldl restoreEnrol s2
        let gids := gs.map fun g => g.1.1
        let s4 := (i.waiting.filter fun n => gids.contains n.2.1).foldl restoreNotice s3
        .next (runMembers (s4.setCtx cx { s4.ctx cx with unplaced := c.unplaced.filter (· ≠ iid) }) cx)
    | _, _ => .next s

end Sys2Proof.Machine
end

