-- ==== Sys2Proof/Machine/Dual.lean ====
section
/-! DEFINITION. Dual.lean: the two-slot formats (R32 to R38) and the fused softmax sequence (R153, R154): the same
operations, put together. -/

namespace Sys2Proof.Machine

open Sys2Proof

/-- The task of an operation that a slot may hold (R33, R37). -/
def aluTask : Instr → Option AluTask
  | .iadd o => some (taskIadd o)
  | .isub o => some (taskIsub o)
  | .imul o => some (taskImul o)
  | .imulh o => some (taskImulh o)
  | .imad o => some (taskImad o)
  | .imin o => some (taskImin o)
  | .imax o => some (taskImax o)
  | .iabs o => some (taskIabs o)
  | .iand o => some (taskIand o)
  | .ior o => some (taskIor o)
  | .ixor o => some (taskIxor o)
  | .lut3 _ t d a b c => some (taskLut3 t d a b c)
  | .shl o => some (taskShl o)
  | .shr o => some (taskShr o)
  | .sar o => some (taskSar o)
  | .rot o => some (taskRot o)
  | .bfx _ w s d a f => some (taskBfx w s d a f)
  | .bfi o => some (taskBfi o)
  | .popc o => some (taskPopc o)
  | .clz o => some (taskClz o)
  | .brev o => some (taskBrev o)
  | .isetp _ w s c p a b => some (taskIsetp w s c p a b)
  | .sel _ w d p n a b => some (taskSel w d p n a b)
  | .lea _ d b disp => some (taskLea d b disp)
  | .mov _ w d a => some (taskMov w d a)
  | .plop _ t pd pa pb pc => some (taskPlop t pd pa pb pc)
  | .idot4 o => some (taskIdot4 o)
  | .idot2 o => some (taskIdot2 o)
  | .movpRead _ d => some (taskMovpRead d)
  | .movpWrite _ m a => some (taskMovpWrite m a)
  | .fadd o => some (taskFadd o)
  | .fsub o => some (taskFsub o)
  | .fmul o => some (taskFmul o)
  | .ffma o => some (taskFfma o)
  | .fmin o => some (taskFmin o)
  | .fmax o => some (taskFmax o)
  | .fneg o => some (taskFneg o)
  | .fabs o => some (taskFabs o)
  | .fsetp _ t z c p a b => some (taskFsetp t z c p a b)
  | .fclass o => some (taskFclass o)
  | .frcp o => some (taskFrcp o)
  | .frsq o => some (taskFrsq o)
  | .fexp2 o => some (taskFexp2 o)
  | .flog2 o => some (taskFlog2 o)
  | .fsin o => some (taskFsin o)
  | .fcos o => some (taskFcos o)
  | .ftanh o => some (taskFtanh o)
  | .frnd o => some (taskFrnd o)
  | .cvt o => some (taskCvt o)
  | .cvts o => some (taskCvts o)
  | .pack o => some (taskPack o)
  | .unpk _ t d a i => some (taskUnpk t d a i)
  | .fdot2 o => some (taskFdot2 o)
  | .fscl o => some (taskFscl o)
  | .fexpn o => some (taskFexpn o)
  | _ => none

/-- The f32 of a small integer, exactly (R34). -/
def f32OfInt (i : Int) : Word :=
  BitVec.ofNat 32 (fmtF32.finish .rn false { neg := i < 0, m := i.natAbs, e := 0 }).1

/-- The task of a P64 slot: its S64 equivalent, with an immediate in the place of `s` (R33, R34). -/
def slotTask (h : Head) (p : PairSlot) : Option AluTask :=
  (aluTask (p.equiv h)).map fun t =>
    match p.s with
    | .reg _ => t
    | .imm v => { t with subst := some (t.srcs.length - 1, if p.isFloat then f32OfInt v.toInt else v.signExtend 32) }

/-- A P64 pair (R34). -/
def execP64Pair (h : Head) (s0 s1 : PairSlot) (s : State) : Out :=
  runAlu s h 8 ((slotTask h s0).toList ++ (slotTask h s1).toList)

/-- A W96 pair (R38). -/
def execW96Pair (h : Head) (sa sb : WideSlot) (s : State) : Out :=
  runAlu s h 12 ((aluTask (sa.instr h)).toList ++ (aluTask (sb.instr h)).toList)

/-- Whether a thread has moved on to the next S64 word, ready to execute it. -/
def movedOn (e : Env) (s : State) : Bool :=
  match tget? s.threads e.tid with
  | some t => t.status = .ready && t.pc = pcAdd e.t.pc 8 && t.handler = e.t.handler
  | none => false

/-- Runs instructions one after another for as long as each completes and falls through (R154). -/
def runFused (s : State) : List (State → Out) → Out
  | [] => .next s
  | f :: fs =>
    match s.env? s.cur with
    | none => .fault .noThread
    | some e =>
      match f s with
      | .next s1 => if fs.isEmpty || !movedOn e s1 then .next s1 else runFused s1 fs
      | o => o

/-- The fused softmax sequence: the four instructions, each as if issued alone (R153, R154). -/
def execFusedSoftmax (m : FltB) (e c : FltB) (f : FltT) (s : State) : Out :=
  runFused s [execFmax m, execFexpn e, execFexpn c, execFfma f]

end Sys2Proof.Machine
end

