-- ==== Sys2Proof/Machine/Fabric.lean ====
section
/-! DEFINITION. Fabric.lean: the scale-up fabric (R401, R402, R404) and the demotion engine (R181, R182). -/

namespace Sys2Proof.Machine

open Sys2Proof

/-! ## Identity, ports and routes (R401) -/

/-- A write of the identity word; one that sets a reserved bit is refused. -/
def writeIdent (s : State) (v : BitVec 64) : State :=
  if v.extractLsb' 8 8 ≠ 0 || v.extractLsb' 32 31 ≠ 0 then s else { s with ident := v }

/-- FABRIC_IDENTITY_WRITE. -/
def execFabricIdentityWrite (v : BitVec 64) (s : State) : Out := if hostAnswers s then .next (writeIdent s v) else .next s

/-- FABRIC_PORT_DOWN: a link has stayed down past its retries (R402). -/
def execFabricPortDown (port : Nat) (s : State) : Out :=
  if 36 ≤ port then .next s else .next { s with portsUp := s.portsUp &&& ~~~ (BitVec.twoPow 36 port) }

/-- FABRIC_PORT_UP: a link trains. -/
def execFabricPortUp (port : Nat) (s : State) : Out :=
  if 36 ≤ port then .next s else .next { s with portsUp := s.portsUp ||| BitVec.twoPow 36 port }

/-- The port through which a request to a line of a device leaves: none when it cannot. -/
def routePort (s : State) (dev line : Nat) : Option Nat :=
  let r := tgetD 0 s.routes dev
  let ports := (List.range 36).filter fun p => r.getLsbD p && s.portsUp.getLsbD p
  if !s.ident.getLsbD 63 || !r.getLsbD 36 || ports.isEmpty then none
  else ports[(bitsOf line 13 6 ^^^ bitsOf line 21 14) % ports.length]?

/-- FLIT_FORWARD: a flit for another device leaves by the table; one that has no way out is dropped (R401). -/
def execFlitForward (dev : BitVec 8) (line : Nat) (s : State) : Out :=
  if s.stopped || dev.toNat = s.device then .next s
  else match routePort s dev.toNat line with
    | none => .next s
    | some p => .next { s with forwarded := s.forwarded ++ [(dev.toNat, p)] }

/-! ## Ingress (R404) -/

/-- The check of an ingress request in the manner of R255: 1 RANGE, 2 NOACL, 3 RIGHTS. -/
def exportCheck (s : State) (die : Nat) (dev : BitVec 8) (pa size align right : Nat) : Option Nat :=
  if !isHbm pa || !isHbm (pa + size - 1) || stackOf pa / 2 ≠ die || frameOf pa ≠ frameOf (pa + size - 1) || pa % align ≠ 0 then some 1
  else
    let es := (List.range 512).map fun i => tgetD 0 s.exports (512 * die + i)
    let f := frameOf pa
    match es.find? fun e => e.getLsbD 63 && e.extractLsb' 52 8 = 0 && e.extractLsb' 36 8 = 0 && e.extractLsb' 44 8 = dev &&
        (e.extractLsb' 0 18).toNat ≤ f && f ≤ (e.extractLsb' 18 18).toNat with
    | none => some 2
    | some e => if e.getLsbD right then none else some 3

/-- A refused ingress request changes nothing but its die's count (R255, R404). -/
def refuseIngress (s : State) (die status : Nat) : State :=
  reply { s with exportRefusals := listMod s.exportRefusals die (· + 1) } 3 status []

/-- An ingress request's line is asked for in class 13 (R404). -/
def touchIngress (s : State) (pa : Nat) : State := touchAs (noteHash s defaultMasks pa) 13 noContext defaultMasks false false (pa / 64)

/-- FABRIC_INGRESS: a request of another device, performed at domain level or refused: kind 3 (R404). -/
def execFabricIngress (die : Nat) (dev : BitVec 8) (op : IngressOp) (pa : Nat) (data : List Byte) (s : State) : Out :=
  if 4 ≤ die || s.stopped || !s.ident.getLsbD 63 then .next s
  else
    let (size, align, right) := match op with
      | .read => (64, 64, 61)
      | .write => (max 1 data.length, 1, 62)
      | .atomic _ w64 _ => (4 * wordsOf w64, 4 * wordsOf w64, 60)
    let via : Via := { cx := noContext, cls := 13, masks := defaultMasks }
    match exportCheck s die dev pa size align right with
    | some st => .next (refuseIngress s die st)
    | none =>
      match op with
      | .read =>
        if s.viewMarked .domain (pa / 64) then .next (refuseIngress s die 4)
        else
          let s1 := touchIngress s pa
          if s1.viewMarked .domain (pa / 64) then .next (refuseIngress s1 die 4)
          else .next (reply s1 3 0 ((List.range 64).map fun i => s1.loadByte .domain (pa + i)))
      | .write => .next (reply (arriveBytes s via (cellsAt pa data)) 3 0 [])
      | .atomic aop w64 v =>
        if s.lastMarked (pa / 64) then .next (refuseIngress s die 4)
        else
          let s1 := touchIngress s pa
          if s1.lastMarked (pa / 64) then .next (refuseIngress s1 die 4)
          else
            let old := leNat ((List.range size).map fun i => s1.atomByte (pa + i))
            .next (reply (arriveBytes s1 via (cellsAt pa (leBytes size (atomicNew aop w64 old v)))) 3 0 (leBytes size old))

/-! ## Tiers (R181, R182) -/

/-- TIER_POINTER_WRITE: the pointer takes effect at the tier's next sweep (R181). -/
def execTierPointerWrite (tier : Nat) (v : BitVec 64) (s : State) : Out :=
  if 2 ≤ tier || !hostAnswers s then .next s else .next { s with tierPtr := listMod s.tierPtr tier fun _ => v }

/-- A tier control block as it stands. -/
structure Tier where
  blk : Nat
  freed : Nat
  spare : Nat
  ftab : Nat
  nframe : Nat
  free : Nat
  lowm : Nat
  highm : Nat
  agemin : Nat
deriving DecidableEq, Repr, Inhabited

def readTier (s : State) (blk : Nat) : Tier :=
  let f (o n : Nat) : Nat := s.viewNat .domain (blk + o) n
  { blk := blk, freed := f 48 8, spare := f 40 8, ftab := f 32 8, nframe := f 28 4, free := f 24 4, lowm := f 20 4, highm := f 16 4
    agemin := f 15 1 / 16 }

/-- The byte of a frame-table entry that holds AC, PIN, state and age. -/
def frameByte (s : State) (t : Tier) (f : Nat) : Nat := (s.viewByte .domain (t.ftab + 16 * f + 8)).toNat

/-- A write of the demotion engine, in its class and under the default masks (R182, R250, R257). -/
def demotionWrite (s : State) (pa : Nat) (bs : List Byte) : State :=
  arriveBytes s { cx := noContext, cls := 10, masks := defaultMasks } (cellsAt pa bs)

def putFrameByte (s : State) (t : Tier) (f v : Nat) : State := demotionWrite s (t.ftab + 16 * f + 8) [BitVec.ofNat 8 v]

/-- Drops every TLB entry that lands in a frame. -/
def dropFrame (s : State) (base : Nat) : State := dropTlb s fun e => base ≤ e.ppage * 4096 && e.ppage * 4096 < base + 2 ^ 21

/-- The first loop of R182 for one frame. -/
def ageFrame (tier : Nat) (t : Tier) (s : State) (f : Nat) : State :=
  let b := frameByte s t f
  if b.testBit 7 then dropFrame (putFrameByte s t f (b / 16 % 8 * 16)) (tierBase tier + f * 2 ^ 21)
  else putFrameByte s t f (b / 16 * 16 + min (b % 16 + 1) 15)

/-- The victim of R182: in use, unpinned, with a leaf, of the greatest age; the lowest number on a tie. -/
def pickVictim (s : State) (t : Tier) : Option Nat :=
  let ok (f : Nat) : Bool :=
    let b := frameByte s t f
    b / 16 % 4 = 1 && !b.testBit 6 && t.agemin ≤ b % 16 && s.viewNat .domain (t.ftab + 16 * f) 8 ≠ 0
  ((List.range t.nframe).filter ok).foldl (fun r f => match r with
    | none => some f
    | some g => if frameByte s t g % 16 < frameByte s t f % 16 then some f else some g) none

/-- A victim starts to move: a spare frame is taken, and writes to the frame wait from now on. -/
def startMove (s : State) (tier : Nat) (t : Tier) : State :=
  match pickVictim s t with
  | none => s
  | some f =>
    match popRing s t.spare with
    | none => s
    | some (s1, new) =>
      let b := frameByte s1 t f
      let s2 := putFrameByte s1 t f (b / 64 * 64 + 32 + b % 16)
      { s2 with moving := s2.moving ++ [(tier, tierBase tier + f * 2 ^ 21, new)] }

/-- Whether an address lies in a frame of 2 MiB. -/
def inFrame (base pa : Nat) : Bool := base ≤ pa && pa < base + 2 ^ 21

/-- The requests for every line of a frame, in the class of the demotion engine (R182, R257). -/
def askFrame (s : State) (base : Nat) : State :=
  let one (pts : Tab BPoint) (i : Nat) : Tab BPoint :=
    let pa := base + 64 * i
    let pts1 := joinQueue pts (slicePoint pa) 10 noWaiter
    if isHbm pa then joinQueue pts1 (portPoint pa) 10 noWaiter else pts1
  { s with points := (List.range 32768).foldl one s.points }

/-- An access that has translated to the old frame and is performed after the move goes to the new one. -/
def AccKind.moved (old new : Nat) : AccKind → AccKind
  | .load size ref va pa own policy masks => .load size ref va (if inFrame old pa then pa - old + new else pa) own policy masks
  | .atomi op w64 v ref pa lvl item policy masks => .atomi op w64 v ref (if inFrame old pa then pa - old + new else pa) lvl item policy masks
  | k => k

def moveAccs (s : State) (old new : Nat) : State :=
  { s with threads := tmap (fun _ t => { t with accs := t.accs.map fun a => { a with kind := a.kind.moved old new } }) s.threads }

/-- The invalidation that ends a move: the copy lines that waited for it try again, and their records end (R176, R268). -/
def retryFrame (s : State) (old : Nat) : State :=
  let retry (c : Copy) : Copy := { c with waiting := c.waiting.filter fun w => w.2.frame ≠ some old }
  { s with clusters := tmap (fun _ u => { u with copies := u.copies.map retry }) s.clusters, recs := s.recs.filter fun r => r.frame ≠ some old }

/-- A move ends: the frame's lines are written back, its bytes copied, its leaf rewritten and its translations dropped; the frame
is free. -/
def endMove (s : State) (tier : Nat) (t : Tier) (old new : Nat) : State :=
  let f := (old - tierBase tier) / 2 ^ 21
  let s1 := flushLines (askFrame (askFrame s old) new) 10 ((s.lines.map (·.line)).filter fun l => old ≤ 64 * l && 64 * l < old + 2 ^ 21)
  let cells := s1.mem.filter fun c => inFrame old c.1
  let stale := s1.mem.filter fun c => !(new ≤ c.1 && c.1 < new + 2 ^ 21)
  let late (x : Flight) : List Host.Cell := (x.cells.filter fun c => old ≤ c.1 && c.1 < old + 2 ^ 21).map fun c => (c.1 - old + new, c.2)
  let s2 := { s1 with mem := memWrites stale (cells.map fun c => (c.1 - old + new, c.2))
                      lines := s1.lines.filter fun l => !(new ≤ 64 * l.line && 64 * l.line < new + 2 ^ 21)
                      flights := s1.flights.map fun x => { x with cells := (x.cells.filter fun c => !(old ≤ c.1 && c.1 < old + 2 ^ 21)) ++ late x }
                      marks := ((s1.marks.filter fun l => old ≤ 64 * l && 64 * l < old + 2 ^ 21).map fun l => (64 * l - old + new) / 64).foldl setAdd
                        (s1.marks.filter fun l => !(new ≤ 64 * l && 64 * l < new + 2 ^ 21))
                      hashes := match tget? s1.hashes (frameOf old) with
                        | some h => if isHbm old && isHbm new then tput s1.hashes (frameOf new) h else s1.hashes
                        | none => s1.hashes }
  let leafAt := s2.viewNat .domain (t.ftab + 16 * f) 8
  let e := s2.viewNat .domain leafAt 8
  let s3 := demotionWrite s2 leafAt (leBytes 8 (e - bitsOf e 51 21 * 2 ^ 21 + bitsOf new 51 21 * 2 ^ 21))
  let s4 := dropFrame s3 old
  let b := frameByte s4 t f
  let s5 := putFrameByte s4 t f (b / 64 * 64 + b % 16)
  let s6 := (pushRing s5 some t.freed (leBytes 8 old)).getD s5
  retryFrame (moveAccs { demotionWrite s6 (t.blk + 24) (leBytes 4 (t.free + 1)) with moving := s6.moving.filter fun m => m.2.1 ≠ old } old new) old

/-- DEMOTION_SWEEP: a pass over the frame table with the start of the first move, or the end of a move and the start of the
next, until `free` reaches `highm` (R182). -/
def execDemotionSweep (tier : Nat) (s : State) : Out :=
  if 2 ≤ tier || s.stopped then .next s
  else match s.moving.find? fun m => m.1 = tier with
    | some (_, old, new) =>
      match tierBlock? s tier with
      | none => .next { s with moving := s.moving.filter fun m => m.1 ≠ tier }
      | some b =>
        -- the engine pauses between lines while its class is exhausted where the next line goes (R260)
        if paused s 10 old || paused s 10 new then .next s else
        let s1 := endMove s tier (readTier s b) old new
        let t := readTier s1 b
        .next (if t.free < t.highm then startMove s1 tier t else s1)
    | none =>
      let s0 := { s with tierCur := listMod s.tierCur tier fun _ => s.tierPtr.getD tier 0 }
      match tierBlock? s0 tier with
      | none => .next s0
      | some b =>
        let t := readTier s0 b
        let s1 := (List.range t.nframe).foldl (ageFrame tier t) s0
        let s2 := demotionWrite s1 b (leBytes 8 (s1.viewNat .domain b 8 + 1))
        .next (if t.free < t.lowm then startMove s2 tier t else s2)

end Sys2Proof.Machine
end

