-- ==== Sys2Proof/Machine/HostPort.lean ====
section
/-! DEFINITION. HostPort.lean: the host's registers and commands (R393 to R398, R403), security (R399), resets and power
(R391, R396, R407, R408). -/

namespace Sys2Proof.Machine

open Sys2Proof

/-! ## Host commands (R398): each gives the state and its result, 0 OK, 1 BADARG, 2 NOCTX, 3 BUSY -/

/-- A command of the host window on a context that must exist. -/
def hostCtxCmd (i : Instr) (cx : Nat) (a0 : BitVec 64) (a1 : Option (BitVec 64)) (f : State → State × Nat) (s : State) : Out :=
  hostCmd (.event i) (fun s =>
    let s1 := { s with hostWin := { s.hostWin with ctx := cx, a0 := a0, a1 := a1.getD s.hostWin.a1 } }
    endHostCmd (if ctxExists s1 cx then f s1 else (s1, 2))) s

/-- SHARE: one bit of the share-tag set (R161). -/
def execShare (cx : Nat) (a0 : BitVec 64) (s : State) : Out :=
  hostCtxCmd (.share cx a0) cx a0 none (fun s =>
    let c := s.ctx cx
    let tag := (a0.extractLsb' 0 12).toNat
    if a0.extractLsb' 13 51 ≠ 0 then (s, 1)
    else (s.setCtx cx { c with stags := if a0.getLsbD 12 then setAdd c.stags tag else setDel c.stags tag }, 0)) s

/-- S2INV: translations through an IPA range, and who waits on them (R175, R176, R177). -/
def execS2inv (cx : Nat) (a0 a1 : BitVec 64) (s : State) : Out :=
  hostCtxCmd (.s2inv cx a0 a1) cx a0 (some a1) (fun s =>
    let lo := a0.toNat
    let hi := lo + a1.toNat
    if lo % 4096 ≠ 0 || 2 ^ 52 ≤ lo then (s, 1)
    else
      let meets (page : Nat) : Bool := page * 4096 < hi && lo < page * 4096 + 4096
      let c := s.ctx cx
      let vpages := s.clusters.flatMap fun u => (u.2.tlb.filter fun t => t.ctx = cx && meets t.ipage).map (·.vpage)
      let s1 := dropTlb s fun t => t.ctx = cx && meets t.ipage
      let s2 := dropBufs s1 fun k => k.1 = cx && meets ((c.btab + 32 * k.2) / 4096)
      let s3 := cleanVirtual s2 cx fun l => vpages.contains (l / 64)
      (invalidated s3 cx fun w => w.stage = 2 && lo ≤ w.addr && w.addr < hi, 0)) s

/-- GRANT: one entry of a context's grant table (R322). -/
def execGrant (cx : Nat) (a0 a1 : BitVec 64) (s : State) : Out :=
  hostCtxCmd (.grant cx a0 a1) cx a0 (some a1) (fun s =>
    let c := s.ctx cx
    if a0.extractLsb' 6 58 ≠ 0 || a1.extractLsb' 53 6 ≠ 0 || a1.extractLsb' 36 5 ≠ 0 then (s, 1)
    else (s.setCtx cx { c with grants := c.grants.set (a0.extractLsb' 0 6).toNat a1 }, 0)) s

/-- WCREATE: a live world with every slot free (R321, R327). -/
def execWcreate (cx : Nat) (a0 a1 : BitVec 64) (s : State) : Out :=
  hostCtxCmd (.wcreate cx a0 a1) cx a0 (some a1) (fun s =>
    let n := (a0.extractLsb' 0 12).toNat
    let nslot := (a1.extractLsb' 12 25).toNat
    if a0.extractLsb' 12 52 ≠ 0 || a1.extractLsb' 37 27 ≠ 0 || nslot = 0 || 2 ^ 24 < nslot then (s, 1)
    else if ((tget? s.worlds n).map (·.live)).getD false then (s, 3)
    else ({ s with worlds := tput s.worlds n { live := true, owner := cx, tag := (a1.extractLsb' 0 12).toNat, nslot := nslot } }, 0)) s

/-- WDESTROY (R338). -/
def execWdestroy (cx : Nat) (a0 : BitVec 64) (s : State) : Out :=
  hostCtxCmd (.wdestroy cx a0) cx a0 none (fun s =>
    let n := (a0.extractLsb' 0 12).toNat
    if a0.extractLsb' 12 52 ≠ 0 then (s, 1)
    else match tget? s.worlds n with
      | none => (s, 1)
      | some w => if w.live && w.owner = cx then (endWorld s n, 0) else (s, 1)) s

/-- Takes a context out of the slots that `p` selects (R395). -/
def unbindSlots (s : State) (cx : Nat) (p : Nat × Nat → Bool) : State :=
  let c := s.ctx cx
  let gone := c.vfs.filter p
  { s with vfSlots := s.vfSlots.filter fun x => !(gone.any fun g => 8 * g.1 + g.2 = x.1) }.setCtx cx { c with vfs := c.vfs.filter fun v => !p v }

/-- BINDVF: function 0 unbinds the context from the slot number given (R395). -/
def execBindvf (cx : Nat) (a0 : BitVec 64) (s : State) : Out :=
  hostCtxCmd (.bindvf cx a0) cx a0 none (fun s =>
    let fn := (a0.extractLsb' 0 7).toNat
    let slot := (a0.extractLsb' 8 3).toNat
    if a0.getLsbD 7 || a0.extractLsb' 11 53 ≠ 0 || 64 < fn then (s, 1)
    else if fn = 0 then (unbindSlots s cx fun v => v.2 = slot, 0)
    else if (tget? s.vfSlots (8 * fn + slot)).isSome then (s, 3)
    else
      let c := s.ctx cx
      ({ s with vfSlots := tput s.vfSlots (8 * fn + slot) cx }.setCtx cx { c with vfs := c.vfs ++ [(fn, slot)] }, 0)) s

/-- DJOIN (R403). -/
def execDjoin (cx : Nat) (a0 a1 : BitVec 64) (s : State) : Out :=
  hostCtxCmd (.djoin cx a0 a1) cx a0 (some a1) (fun s =>
    let c := s.ctx cx
    let rank := (a0.extractLsb' 16 8).toNat
    let count := (a0.extractLsb' 24 8).toNat + 1
    let a := a1.toNat
    let busy : Bool := s.cards.any (fun p => p.2.ctx = cx) || s.insts.any fun i => i.2.q.ctx = cx
    if c.member.isSome then (s, 3)
    else if a0.extractLsb' 32 32 ≠ 0 || count ≤ rank || 2 ^ 52 ≤ a || !populated a then (s, 1)
    else
      let table := (physBytes s a 256).map BitVec.toNat
      if table.getD rank 0 ≠ s.device || busy then (s, 1)
      else (s.setCtx cx { c with member := some { domain := (a0.extractLsb' 0 16).toNat, rank := rank, count := count, devices := table.take count } }, 0)) s

/-! ## Queue-pair commands (R406) -/

/-- A command of the queue-pair window. -/
def qpCmd (i : Instr) (qpn : Nat) (a0 a1 : Option (BitVec 64)) (f : State → State × Nat) (s : State) : Out :=
  hostCmd (.event i) (fun s =>
    let r := f { s with qpWin := { s.qpWin with ctx := qpn, a0 := a0.getD s.qpWin.a0, a1 := a1.getD s.qpWin.a1 } }
    { r.1 with qpWin := CmdWin.ended r.1.qpWin r.2 }) s

/-- QPCREATE. -/
def execQpcreate (qpn : Nat) (a0 : BitVec 64) (s : State) : Out := qpCmd (.qpcreate qpn a0) qpn (some a0) none (fun s => qpCreate s qpn a0) s

/-- QPSTATE. -/
def execQpstate (qpn : Nat) (a0 a1 : BitVec 64) (s : State) : Out := qpCmd (.qpstate qpn a0 a1) qpn (some a0) (some a1) (fun s => qpState s qpn a0 a1) s

/-- QPDESTROY. -/
def execQpdestroy (qpn : Nat) (s : State) : Out := qpCmd (.qpdestroy qpn) qpn none none (fun s => qpDestroy s qpn) s

/-! ## REGISTER_WRITE (R394) -/

/-- A field of `bytes` bytes at byte `at_` of a number of 8 bytes takes a value. -/
def mergeReg (old : BitVec 64) (at_ bytes : Nat) (v : BitVec 64) : BitVec 64 :=
  if bytes = 8 then v
  else if at_ % 8 = 0 then old.extractLsb' 32 32 ++ v.extractLsb' 0 32
  else v.extractLsb' 0 32 ++ old.extractLsb' 0 32

/-- A write of an 8-byte table entry. -/
def putEntry64 (t : Tab (BitVec 64)) (i off bytes : Nat) (v : BitVec 64) : Tab (BitVec 64) := tput t i (mergeReg (tgetD 0 t i) off bytes v)

/-- The command that a write of a window's command word starts; arguments are the window's own. -/
def ctxCommand (s : State) (v : BitVec 64) : Option Instr :=
  let cx := (v.extractLsb' 32 9).toNat
  match (v.extractLsb' 48 8).toNat with
  | 1 => some (.create cx s.ctxWin.desc)
  | 2 => some (.destroy cx)
  | _ => none

def hostCommand (s : State) (v : BitVec 64) : Option Instr :=
  let cx := (v.extractLsb' 0 9).toNat
  let w := s.hostWin
  match (v.extractLsb' 16 8).toNat with
  | 1 => some (.share cx w.a0)
  | 2 => some (.s2inv cx w.a0 w.a1)
  | 3 => some (.grant cx w.a0 w.a1)
  | 4 => some (.wcreate cx w.a0 w.a1)
  | 5 => some (.wdestroy cx w.a0)
  | 6 => some (.bindvf cx w.a0)
  | 7 => some (.djoin cx w.a0 w.a1)
  | _ => none

def qpCommand (s : State) (v : BitVec 64) : Option Instr :=
  let n := (v.extractLsb' 0 16).toNat
  let w := s.qpWin
  match (v.extractLsb' 16 8).toNat with
  | 1 => some (.qpcreate n w.a0)
  | 2 => some (.qpstate n w.a0 w.a1)
  | 3 => some (.qpdestroy n)
  | _ => none

/-- A command is taken into the queue: it is the next turn. -/
def startCommand (s : State) (i : Option Instr) : State :=
  match i with
  | none => s
  | some i => { s with agenda := s.agenda ++ [.event i] }

/-- A command that no row names, or that finds a reserved bit of its window set, ends with BADARG in its turn (R398). -/
def badCommand (qp : Bool) (n : Nat) (s : State) : State :=
  let ended (w : CmdWin) : CmdWin := CmdWin.ended { w with ctx := n } 1
  match hostCmd (.hidden (.badCommand qp n)) (fun s => if qp then { s with qpWin := ended s.qpWin } else { s with hostWin := ended s.hostWin }) s with
  | .next t => t
  | _ => s

/-- A write of a window's command word: a command starts, or one that is a bad argument. -/
def startOrBad (s : State) (v : BitVec 64) (i : Option Instr) (qp : Bool) : State :=
  let w := if qp then s.qpWin else s.hostWin
  let n := if qp then (v.extractLsb' 0 16).toNat else (v.extractLsb' 0 9).toNat
  let rsv := (!qp && v.extractLsb' 9 7 ≠ 0) || w.rsv.any fun x => x.2 ≠ 0
  if (v.extractLsb' 16 8).toNat = 0 then s
  else match (if rsv then none else i) with
    | some i => startCommand s (some i)
    | none => { s with agenda := s.agenda ++ [.hidden (.badCommand qp n)] }

/-- A write of the other words of a window: `a0` at 16, `a1` at 24, the rest reserved. -/
def windowArg (w : CmdWin) (o bytes : Nat) (v : BitVec 64) : CmdWin :=
  if o / 8 = 2 then { w with a0 := mergeReg w.a0 o bytes v }
  else if o / 8 = 3 then { w with a1 := mergeReg w.a1 o bytes v }
  else { w with rsv := putEntry64 w.rsv (o / 8) o bytes v }

/-- A write to a pre-emption block (R363): `o` is the offset in it. -/
def writePreempt (s : State) (cx o bytes : Nat) (v : BitVec 64) : State :=
  let c := s.ctx cx
  let covers (b : Nat) : Bool := o ≤ b && b < o + bytes
  let at_ (b n : Nat) : Nat := (v.extractLsb' (8 * (b - o)) (8 * n)).toNat
  let c1 := if covers 12 then { c with dl1 := at_ 12 4 } else c
  let c2 := if covers 16 then { c1 with dl2 := at_ 16 4 } else c1
  let c3 := if covers 20 then { c2 with hlen := at_ 20 4 } else c2
  let c4 := if 24 ≤ o then { c3 with hamper := mergeReg c3.hamper o bytes v } else c3
  let s1 := s.setCtx cx c4
  if covers 8 then
    match at_ 8 1 with
    | 1 => startCommand s1 (some (.preempt cx))
    | 2 => startCommand s1 (some (.resume cx))
    | 3 => startCommand s1 (some (.reset cx))
    | _ => s1
  else s1

/-- A write to a submit window page (R356, R406). -/
def writeSubmit (s : State) (cx o bytes : Nat) (v : BitVec 64) : State :=
  if bytes ≠ 8 then s
  else if o = 0 then startCommand s (some (.submitDoorbell cx v))
  else if o = 0x40 then startCommand s (some (.qpDoorbell cx v))
  else s

/-- A BAR 0 write of the physical function. -/
def barWrite (s : State) (off bytes : Nat) (v : BitVec 64) : State :=
  let o8 := off / 8 * 8
  if off < 0x10 then
    if o8 = 0 then (if bytes = 8 && v.extractLsb' 48 8 ≠ 0 then startCommand s (ctxCommand s v) else s)
    else { s with ctxWin := { s.ctxWin with desc := mergeReg s.ctxWin.desc off bytes v } }
  else if 0x40 ≤ off && off < 0x80 then
    if o8 = 0x40 then (if bytes = 8 then startOrBad s v (hostCommand s v) false else s)
    else { s with hostWin := windowArg s.hostWin (off - 0x40) bytes v }
  else if off < 0x100 then s
  else if off < 0x110 then { s with tierPtr := listMod s.tierPtr ((off - 0x100) / 8) fun p => mergeReg p off bytes v }
  else if 0x1000 ≤ off && off < 0x1800 then
    let t := (off - 0x1000) / 0x100
    let e := (off - 0x1000) % 0x100
    if e < 0x80 && e / 8 ≠ 8 then writeTable s t (listMod (s.btable t).entries (e / 8) fun x => mergeReg x off bytes v) else s
  else if 0x2000 ≤ off && off < 0x6000 then { s with acl := putEntry64 s.acl ((off - 0x2000) / 8) off bytes v }
  else if 0x8000 ≤ off && off < 0xA000 then
    let n := (off - 0x8000) / 128
    let o := (off - 0x8000) % 128
    let old := BitVec.ofNat 1024 (partBlock (s.part n))
    let w := mergeReg (old.extractLsb' (o / 8 * 64) 64) off bytes v
    let blk := (old &&& ~~~ ((BitVec.allOnes 64).setWidth 1024 <<< (o / 8 * 64))) ||| (w.setWidth 1024 <<< (o / 8 * 64))
    writePart s n blk (96 ≤ o)
  else if 0x10000 ≤ off && off < 0x14000 then writePreempt s ((off - 0x10000) / 32) ((off - 0x10000) % 32) bytes v
  else if 0x20000 ≤ off && off < 0x24000 then { s with exports := putEntry64 s.exports ((off - 0x20000) / 8) off bytes v }
  else if o8 = 0x24000 then writeIdent s (mergeReg s.ident off bytes v)
  else if 0x25000 ≤ off && off < 0x25800 then { s with routes := putEntry64 s.routes ((off - 0x25000) / 8) off bytes v }
  else if 0x30000 ≤ off && off < 0x30028 then
    let p := (off - 0x30000) / 8
    writeEthMode s p (mergeReg ((s.ethMode.getD p 0).setWidth 64) off bytes v)
  else if 0x30100 ≤ off && off < 0x30140 then
    if o8 = 0x30100 then
      (if bytes = 8 then startOrBad s v (qpCommand s v) true else s)
    else { s with qpWin := windowArg s.qpWin (off - 0x30100) bytes v }
  else if 0x100000 ≤ off && off < 0x300000 then writeSubmit s ((off - 0x100000) / 0x1000) ((off - 0x100000) % 0x1000) bytes v
  else s

/-- Whether a BAR access is one that the device serves: 4 or 8 bytes, naturally aligned (R394). -/
def barFits (off bytes : Nat) : Bool := (bytes = 4 || bytes = 8) && off % bytes = 0

/-- The answer to a BAR access: kind 7, with status 0 or 1 for Unsupported Request. -/
def barAnswer (s : State) (status : Nat) (bs : List Byte) : State := { s with replies := (7, status, bs) :: s.replies }

/-- REGISTER_WRITE: a BAR write of 4 or 8 bytes, naturally aligned; any other completes with Unsupported Request (R394). -/
def execRegisterWrite (off bytes : Nat) (v : BitVec 64) (s : State) : Out :=
  if !hostAnswers s || 0x400000 ≤ off then .next s
  else if barFits off bytes then .next (barWrite s off bytes v)
  else .next (barAnswer s 1 [])

/-! ## What the registers read (R356, R359, R363, R380, R398) -/

/-- The code of a pre-emption state. -/
def PreState.code : PreState → Nat
  | .run => 0
  | .draining => 1
  | .saving => 2
  | .saved => 3
  | .resuming => 4
  | .lost => 5
  | .free => 6

/-- The command word of the host or queue-pair window as it reads. -/
def windowWord (w : CmdWin) : Nat := w.seq * 2 ^ 32 + w.res * 2 ^ 24 + w.ctx

/-- A submit window page as it reads (R356). -/
def submitRead (s : State) (cx o : Nat) : BitVec 64 :=
  let c := s.ctx cx
  if o = 8 then BitVec.ofNat 64 (c.posted + c.refused * 2 ^ 32) else 0

/-- A BAR 0 read of the physical function at an 8-byte place; reserved bits read as zero (R4). -/
def barRead (s : State) (off : Nat) : BitVec 64 :=
  let word (n : Nat) : BitVec 64 := BitVec.ofNat 64 n
  let window (w : CmdWin) (o : Nat) : BitVec 64 := if o = 0 then word (windowWord w) else if o = 16 then w.a0 else if o = 24 then w.a1 else 0
  if off = 0 then word (s.ctxWin.seq + s.ctxWin.ctx * 2 ^ 32 + s.ctxWin.res * 2 ^ 56)
  else if off = 8 then s.ctxWin.desc
  else if 0x40 ≤ off && off < 0x80 then window s.hostWin (off - 0x40)
  else if off = 0x100 || off = 0x108 then s.tierPtr.getD ((off - 0x100) / 8) 0 &&& 0x000FFFFFFFFFFFC1
  else if 0x1000 ≤ off && off < 0x1800 then
    let t := s.btable ((off - 0x1000) / 0x100)
    let e := (off - 0x1000) % 0x100
    if e < 0x80 then tableEntry t ((off - 0x1000) / 0x100) (e / 8) else if e = 0x80 && t.refused then 1 else 0
  else if 0x2000 ≤ off && off < 0x6000 then tgetD 0 s.acl ((off - 0x2000) / 8) &&& 0xE000FFFFFFFFFFFF
  else if 0x8000 ≤ off && off < 0xA000 then
    (BitVec.ofNat 1024 (partBlock (s.part ((off - 0x8000) / 128)))).extractLsb' ((off - 0x8000) % 128 * 8) 64
  else if 0x10000 ≤ off && off < 0x14000 then
    let c := s.ctx ((off - 0x10000) / 32)
    match (off - 0x10000) % 32 / 8 with
    | 0 => word c.used
    | 1 => word (PreState.code c.state * 2 ^ 8 + c.res * 2 ^ 16 + c.dl1 * 2 ^ 32)
    | 2 => word (c.dl2 + c.hlen * 2 ^ 32)
    | _ => c.hamper
  else if 0x20000 ≤ off && off < 0x24000 then tgetD 0 s.exports ((off - 0x20000) / 8) &&& 0xF00FF00FFFFFFFFF
  else if off = 0x24000 then s.ident
  else if 0x25000 ≤ off && off < 0x25800 then tgetD 0 s.routes ((off - 0x25000) / 8) &&& 0x1FFFFFFFFF
  else if 0x30000 ≤ off && off < 0x30028 then (s.ethMode.getD ((off - 0x30000) / 8) 0).setWidth 64
  else if 0x30100 ≤ off && off < 0x30140 then window s.qpWin (off - 0x30100)
  else if 0x100000 ≤ off && off < 0x300000 then submitRead s ((off - 0x100000) / 0x1000) ((off - 0x100000) % 0x1000)
  else 0

/-- The bytes of an access at an 8-byte place. -/
def cutReg (w : BitVec 64) (off bytes : Nat) : List Byte := ((leBytes 8 w.toNat).drop (off % 8)).take bytes

/-- The host reads BAR 0 of the physical function (R394). -/
def readBar (s : State) (off bytes : Nat) : State :=
  if !hostAnswers s || 0x400000 ≤ off then s
  else if barFits off bytes then barAnswer s 0 (cutReg (barRead s (off / 8 * 8)) off bytes)
  else barAnswer s 1 []

/-- The context whose submit window a page of a virtual function is (R395). -/
def vfContext (s : State) (vf off : Nat) : Option Nat := tget? s.vfSlots (8 * vf + off / 0x1000)

/-- The host reads, or writes, BAR 0 of a virtual function: an unbound page reads as zero and ignores writes (R395). -/
def vfReadBar (s : State) (vf off bytes : Nat) : State :=
  if !hostAnswers s || vf = 0 || 64 < vf || 0x8000 ≤ off then s
  else if barFits off bytes then
    barAnswer s 0 (cutReg (((vfContext s vf off).map fun cx => submitRead s cx (off % 0x1000 / 8 * 8)).getD 0) off bytes)
  else barAnswer s 1 []

def vfWriteBar (s : State) (vf off bytes : Nat) (v : BitVec 64) : State :=
  if !hostAnswers s || vf = 0 || 64 < vf || 0x8000 ≤ off then s
  else if barFits off bytes then
    match vfContext s vf off with
    | some cx => writeSubmit s cx (off % 0x1000) bytes v
    | none => s
  else barAnswer s 1 []

/-! ## Security (R271, R273, R399) -/

/-- SPDM_REQUEST: measurements are read, and a session's secret is established by KEY_EXCHANGE and FINISH. -/
def execSpdmRequest (req : SpdmReq) (s : State) : Out :=
  if !hostAnswers s then .next s
  else match req with
    | .getMeasurements => .next { s with replies := (5, if s.measured then 1 else 0, s.blocks.flatMap fun b => leBytes 48 b.toNat) :: s.replies }
    | .keyExchange => .next { s with spdmPending := true }
    | .finish secret => if s.spdmPending then .next { s with spdm := some secret, spdmPending := false } else .next s

def setTdi (s : State) (n : Nat) (t : Tdi) : State := { s with tdis := tput s.tdis n t }

/-- The key-wrap key of a TDI under a master secret. -/
def wrapKey (secret : BitVec 384) (n : Nat) : BitVec 256 :=
  let info := "EVR-A960 keywrap".toList.map fun c => BitVec.ofNat 8 c.toNat
  BitVec.ofNat 256 (beNat (hkdfExpand (hmac384 (List.replicate 48 0) (beBytes 48 secret.toNat)) (info ++ beBytes 2 n) 32))

/-- TDI_LOCK: CONFIG_UNLOCKED to CONFIG_LOCKED, with the stream that the host has bound. -/
def execTdiLock (n : Nat) (s : State) : Out :=
  let t := tgetD {} s.tdis n
  let used := (s.tdis.filter fun x => x.2.stream && x.1 ≠ n).length
  if n = 0 || 64 < n || t.st ≠ .unlocked || !hostAnswers s then .next s
  else match Config.ideStream s.tick n with
    | some rs => .next (setTdi s n { st := .locked, stream := decide (used < 16), ranges := if used < 16 then rs else [] })
    | none => .next (setTdi s n { st := .locked })

/-- TDI_ENTER_RUN: only with a stream bound; the key-wrap key is derived anew (R399). -/
def execTdiEnterRun (n : Nat) (s : State) : Out :=
  let t := tgetD {} s.tdis n
  if t.st ≠ .locked || !t.stream || !hostAnswers s then .next s
  else .next (setTdi s n { t with st := .run, kwk := s.spdm.map fun m => wrapKey m n })

/-- A TDI leaves RUN: its slots are cleared, and the decrypt copies that have started on them fail whole (R271, R273). -/
def leaveRun (s : State) (n : Nat) (st1 : TdiState) : State :=
  let t := tgetD {} s.tdis n
  let mine (b : Nat) : Bool := ((tget? s.slots b).map (·.tdi)) = some n
  let hit := s.clusters.flatMap fun u => (u.2.copies.filter fun c => c.started && c.blk.dec && mine c.blk.slot && (s.ctx c.ctx).kill.isNone).map fun c => (u.1, c)
  let s1 := if t.st = .run then { s with slots := s.slots.filter fun k => k.2.tdi ≠ n } else s
  let s2 := if t.st = .run then hit.foldl (fun s x => failWhole s x.1 x.2 0x60000000) s1 else s1
  setTdi s2 n { st := st1 }

/-- TDI_LEAVE_RUN. -/
def execTdiLeaveRun (n : Nat) (s : State) : Out :=
  if (tgetD {} s.tdis n).st ≠ .run then .next s else .next (leaveRun s n .unlocked)

/-- IDE_INTEGRITY_FAIL: the TDI of the stream moves to ERROR. -/
def execIdeIntegrityFail (n : Nat) (s : State) : Out :=
  if (tgetD {} s.tdis n).stream then .next (leaveRun s n .error) else .next s

/-! ## Resets (R391, R396) -/

/-- VF_FLR: kills and unbinds the function's contexts; its TDI is unlocked (R396). -/
def execVfFlr (vf : Nat) (s : State) : Out :=
  if vf = 0 || 64 < vf || !hostAnswers s then .next s
  else
    let cxs := (s.ctxs.filter fun c => c.2.vfs.any fun v => v.1 = vf).map (·.1)
    let s1 := cxs.foldl (fun s c => unbindSlots (noticeKill s c 7 []) c fun v => v.1 = vf) s
    .next (leaveRun s1 vf .unlocked)

/-- What a reset of the device leaves: everything at its power-up value but memory, the clocks, the vaults' group states, the
management controller's state and what its counters hold. -/
def resetDevice (s : State) (mem : List Host.Cell) (power : Power) : State :=
  let keepVault (_ : Nat) (u : Cluster) : Cluster :=
    { vault := { cap := u.vault.cap, remapped := u.vault.remapped
                 groups := u.vault.groups.map fun g => { st := g.st, rbank := g.rbank, counts := g.counts } } }
  { State.reset with
    cur := s.cur, tick := s.tick, fresh := s.fresh, mem := mem, clusters := tmap keepVault s.clusters
    cores := tmap (fun _ u => { clk := u.clk }) s.cores, xclk := s.xclk, window := s.window, power := power, plimit := s.plimit, freq := s.freq
    staged := s.staged, firmware := s.firmware, measured := s.measured, blocks := s.blocks, minVersion := s.minVersion, boot := s.boot, correctable := s.correctable, scrubs := s.scrubs
    refusals := s.refusals, kills := s.kills, portsUp := s.portsUp }

/-- PF_FLR: DRAM and CXL bytes hold their last values; dirty lines are lost (R396). -/
def execPfFlr (s : State) : Out :=
  if s.power ≠ .ready then .next s
  else .next { resetDevice s s.mem .ready with marks := s.marks, badLines := s.badLines, hashes := s.hashes }

/-- Host memory is not the device's: no reset of the device changes it. -/
def hostMemory (m : List Host.Cell) : List Host.Cell := m.filter fun c => isHost c.1

/-- CONVENTIONAL_RESET: DRAM contents are unspecified, and the device boots, with the firmware staged (R396, R408). -/
def execConventionalReset (s : State) : Out :=
  if s.power = .off then .next s
  else
    let mem := memWrites (memWrites [] ((Config.dramAfterReset s.tick).filter fun c => c.1 < remoteBase)) (hostMemory s.mem)
    let s1 := resetDevice s mem .booting
    .next { s1 with firmware := s.staged.getD s.firmware, staged := none, measured := false, blocks := [], boot := 0 }

/-- FATAL_ERROR: a shared structure is corrupt; every context stops at once, and ERR_FATAL is sent (R389, R391). -/
def execFatalError (s : State) : Out := .next { s with stopped := true, agenda := [], aer := { s.aer with fatal := true } }

/-! ## Power and firmware (R22, R399, R407, R408) -/

/-- The built-in test retires banks with hard failures (R227). -/
def builtInTest (s : State) : State :=
  (Config.hardBanks s.tick).foldl (fun s x =>
    if x.1 < 256 && x.2.1 < 8 && x.2.2 < 5 then
      let v := s.vault x.1
      let v1 := setGrp v x.2.1 (retire (vGrp v x.2.1) x.2.2)
      s.setVault x.1 { v1 with cap := capOf v1 }
    else s) s

/-- Whether the chain of R399 verifies an image: the boot ROM the controller's firmware, both signatures, and the security version against
the fused minimum. -/
def imageVerified (s : State) (image : Nat) : Bool :=
  Config.controllerOk image && Config.rsaOk image && Config.mldsaOk image && s.minVersion ≤ Config.securityVersion image

/-- POWER_UP: the next step of the order of R407: the rails and the management controller, the chain of R399, the stacks, the vault
built-in test, the host link. An image that does not verify holds the device in recovery. -/
def execPowerUp (s : State) : Out :=
  if s.power = .ready || s.power = .recovery then .next s
  else match s.boot with
    | 0 =>
      let mem := if s.power = .off then memWrites (memWrites [] ((Config.dramAfterReset s.tick).filter fun c => c.1 < remoteBase)) (hostMemory s.mem)
                 else s.mem
      .next { s with mem := mem, power := .booting, boot := 1 }
    | 1 =>
      if imageVerified s s.firmware then
        .next { s with measured := true, blocks := (List.range 4).map (Config.measurement s.firmware), boot := 2 }
      else .next { s with power := .recovery, measured := false, blocks := [] }
    | 2 => .next { s with boot := 3 }
    | 3 => .next { builtInTest s with boot := 4 }
    | _ => .next { s with power := .ready, boot := 5 }

/-- MAIN_RAILS_DOWN: everything loses power; staged and running firmware images and host memory are not on the rails (R22). -/
def execMainRailsDown (s : State) : Out :=
  .next { State.reset with cur := s.cur, tick := s.tick, fresh := s.fresh, power := .off, mem := hostMemory s.mem, staged := s.staged
                           firmware := s.firmware, minVersion := s.minVersion }

/-- POWER_LIMIT: a limit from 1,200 to 3,200 W (R407, R408). -/
def execPowerLimit (watts : Nat) (s : State) : Out := 
  if s.power = .ready && 1200 ≤ watts && watts ≤ 3200 then .next { s with plimit := watts } else .next s

/-- FIRMWARE_UPDATE: images are staged until the next Conventional Reset (R408). -/
def execFirmwareUpdate (image : Nat) (s : State) : Out := if s.power = .off then .next s else .next { s with staged := some image }

/-- The frequency range of an island in MHz, and its nominal frequency; none where it is fixed (R5, R407). -/
def islandRange (island : Nat) : Option (Nat × Nat) :=
  let i := island % 32
  if i < 16 then some (1000, 3000) else if i ≤ 24 then some (1000, 2000) else if i = 25 then some (750, 1500) else none

/-- An island's frequency: nominal is the top of its range (R5). -/
def islandMHz (s : State) (island : Nat) : Nat := (tget? s.freq island).getD (((islandRange island).map (·.2)).getD 0)

/-- ISLAND_FREQUENCY_STEP: 100 MHz within the range; L2 islands fall only once every compute island stands at its least (R407). -/
def execIslandFrequencyStep (island : Nat) (up : Bool) (s : State) : Out :=
  match (if 128 ≤ island then none else islandRange island) with
  | none => .next s
  | some (lo, hi) =>
    let f := islandMHz s island
    let computeLow : Bool := (List.range 128).all fun j => 16 ≤ j % 32 || islandMHz s j = 1000
    let g := if up then min hi (f + 100) else max lo (f - 100)
    -- a step up waits until the package is within its power limit (log entry 93)
    if s.power ≠ .ready || (up && s.plimit < Config.packagePower s.tick) || (!up && 16 ≤ island % 32 && island % 32 ≤ 24 && !computeLow) then .next s
    else .next { s with freq := if g = hi then terase s.freq island else tput s.freq island g }

end Sys2Proof.Machine
end

