-- ==== Sys2Proof/Machine/Matrix.lean ====
section
/-! DEFINITION. Matrix.lean: the matrix engine's instructions (R276 to R302): descriptors, signing and resolution, MWAIT,
MSTAT, and the queueing of MTRN, MQNT and MCLR. What a step computes is in Tile.lean. -/

namespace Sys2Proof.Machine

open Sys2Proof

/-! ## Descriptors (R288) -/

/-- A vault operand's descriptor taken apart. -/
structure Desc where
  rsv : Bool
  hops : BitVec 8
  rot : Nat
  tpitch : Nat
  rpitch : Nat
  base : Nat
deriving DecidableEq, Repr, Inhabited

def readDesc (w : Word64) : Desc :=
  { rsv := w.extractLsb' 56 8 ≠ 0, hops := w.extractLsb' 48 8, rot := (w.extractLsb' 45 3).toNat, tpitch := (w.extractLsb' 29 16).toNat
    rpitch := (w.extractLsb' 17 12).toNat, base := (w.extractLsb' 0 17).toNat }

/-- The vault address that names a descriptor's target, at offset zero. -/
def Desc.addr (d : Desc) : Word := d.hops ++ (0 : BitVec 24)

/-- Where an unrotated offset of row `r` lies; a rotated one has 23 bits. -/
def Desc.rotated (d : Desc) (r o : Nat) : Nat :=
  if d.rot = 0 then o else o % 2 ^ 23 / 2048 * 2048 + (o / 64 + r * d.rot) % 32 * 64 + o % 64

/-- The pieces of storage row `r` of step `t`: offset and length, none crossing a line. -/
def Desc.row (d : Desc) (t r n : Nat) : List (Nat × Nat) :=
  let o := 64 * d.base + 64 * t * d.tpitch + 16 * r * d.rpitch
  (vLines o n).map fun l =>
    let lo := max o (64 * l)
    let hi := min (o + n) (64 * l + 64)
    (d.rotated r lo, hi - lo)

/-- The pieces of 32 rows of steps `t0` up to `t1`. -/
def Desc.rows (d : Desc) (t0 t1 n : Nat) : List (Nat × Nat) :=
  (List.range (t1 - t0)).flatMap fun t => (List.range 32).flatMap fun r => d.row (t0 + t) r n

/-- The check of a descriptor: the code of the first failure. `isC`: rows are whole lines that do not overlap. -/
def descCheck (s : State) (cl iid : Nat) (d : Desc) (steps n : Nat) (isC : Bool) (m : VMode) : Option Nat :=
  if d.rsv then some 0x04
  else
    match (d.rows 0 steps n).findSome? fun p =>
      match vaultCheck s cl iid d.addr (p.1 : Int) p.2 1 m with
      | .error c => some c
      | .ok _ => none with
    | some c => some c
    | none => if (d.rot ≠ 0 || isC) && d.rpitch % 4 ≠ 0 || isC && 16 * d.rpitch < n then some 0x05 else none

/-- The check of every byte of a plain range of a vault. -/
def rangeCheck (s : State) (cl iid : Nat) (a : Word) (n : Nat) (m : VMode) : Option Nat :=
  let o := (a.extractLsb' 0 23).toNat
  (vLines o n).findSome? fun l =>
    let lo := max o (64 * l)
    match vaultCheck s cl iid a ((lo - o : Nat) : Int) (min (o + n) (64 * l + 64) - lo) 1 m with
    | .error c => some c
    | .ok _ => none

/-! ## Types (R284, R287) -/

/-- Accumulator bytes by code: f32, f64, i32. -/
def accBytes (acc : Nat) : Nat := if acc = 1 then 8 else 4

/-- Bytes of a row of K elements of a type. -/
def rowBytes (ty k : Nat) : Nat := matBits ty * k / 8

/-- Scales in a row of a step: K over 32 or 16 (R290). -/
def scalesPer (scale k : Nat) : Nat := if scale = 1 then k / 32 else k / 16

/-! ## Signing (R279) -/

/-- A fragment as read: an empty register that may be read speculatively is token 0x07 (R46). -/
def fragCells (e : Env) (r : Reg) (n : Nat) : List (Word × Bool) :=
  (xRegs r n).map fun i =>
    let c := regAt e.t i
    if c.readable then (c.val, c.poison) else (mkToken 0x07 0 e.t.pc.offset, true)

/-- The registers of a uniform operand as compared and used: value bits and P tags. -/
def uniformCells (e : Env) (r : Reg) (v : SrcVal) (n : Nat) : List (Word × Bool) :=
  match v.words, r with
  | [], _ => [(v.tok.getD 0, true)]
  | ws, .x i => ws.zip ((List.range n).map fun j => (regAt e.t (i + j)).poison)
  | ws, _ => ws.map fun w => (w, false)

/-- A convergence register of a core group. -/
def cvOf (g : CoreGroup) (c : Nat) : Cv := g.cvs.getD c {}

def modCv (s : State) (gid c : Nat) (f : Cv → Cv) : State := s.modGroup gid fun g => { g with cvs := listMod g.cvs c f }

/-- The status of a convergence register takes a token when it is empty (R278). -/
def failStatus (s : State) (gid c : Nat) (tok : Word) : State := modCv s gid c fun v => { v with status := some (v.status.getD tok) }

/-- Whether a thread's register is lent to an open set of its group. -/
def lentBy (g : CoreGroup) (tid n : Nat) : Bool := g.cvs.any fun c => c.sigs.any fun x => x.tid = tid && x.lent.contains n

/-- Releases the lent registers of signatures that no open set holds any more (R281). -/
def releaseLent (s : State) (gid : Nat) (sigs : List Signature) : State :=
  let g := (tget? s.groups gid).getD default
  sigs.foldl (fun s x => s.modThread x.tid fun t =>
    x.lent.foldl (fun t n => setReg t n { regAt t n with lent := lentBy g x.tid n }) t) s

/-- Puts a signature in its place by thread index (R280). -/
def insertSig (x : Signature) : List Signature → List Signature
  | [] => [x]
  | y :: ys => if x.tix < y.tix then x :: y :: ys else y :: insertSig x ys

/-- Writes a C fragment of a signer that has not exited. -/
def writeFrag (s : State) (tid r : Nat) (ws : List (Word × Bool)) : State :=
  s.modThread tid fun t => if t.status = .exited then t else writeRegs t r ws

/-- Adds an operation to its group's queue and to its convergence register's count. -/
def enqueueOp (s : State) (cl queue : Nat) (op : MatOp) : State :=
  let u := s.cluster cl
  modCv (s.setCluster cl { u with mqs := listMod u.mqs queue (· ++ [op]) }) op.gid op.cv fun c => { c with ops := c.ops ++ [(op.id, op.serial)] }

/-- A register pair as a descriptor. -/
def pairOf (l : List (Word × Bool)) : Word64 := pair64 (l.getD 1 (0, false)).1 (l.headD (0, false)).1

/-- Whether a signer's C is of f64: the opcode comes first in its encoding. -/
def Signature.isF64 (x : Signature) : Bool := x.enc.head? = some 0

/-- Resolves the open set of a convergence register (R280); `mk` makes the operation of the ranked signers. -/
def resolveSet (s : State) (gid c : Nat) (site : Word) (mk : List Signature → Nat → MatOp) : State :=
  match tget? s.groups gid with
  | none => s
  | some g =>
    let cv := cvOf g c
    let sigs := cv.sigs.foldr insertSig []
    let s1 := modCv s gid c fun v => { v with target := 0, sigs := [], serial := v.serial + 1 }
    let s2 := releaseLent s1 gid sigs
    let first := sigs.headD default
    let bad := match sigs.findSome? (·.u) with
      | some t => some t
      | none => if sigs.all fun x => x.enc = first.enc && x.uniform = first.uniform then none else some (mkToken 0x08 4 0 ||| site)
    match bad with
    | some t =>
      sigs.foldl (fun s x => match x.cdst with
        | some r =>
          writeFrag s x.tid r (if x.isF64 then (List.range 32).flatMap fun _ => poisonWords t 2 else List.replicate 32 (t, true))
        | none => failStatus s gid c t) s2
    | none => enqueueOp { s2 with fresh := s2.fresh + 1 } (clusterOf g.core) g.mqueue (mk sigs cv.serial)

/-- The checks of the vault operands of an MMA (R279). -/
def mmaChecks (s : State) (e : Env) (o : MmaO) (aty bty : Nat) (a b c : Word64) (sc : List (Word × Bool)) : Option Nat :=
  let k := mmaK aty bty
  let steps := o.steps.toNat + 1
  let desc (on : Bool) (w : Word64) (steps n : Nat) (isC : Bool) (m : VMode) : Option Nat :=
    if on then descCheck s e.cl e.g.iid (readDesc w) steps n isC m else none
  let scales (i : Nat) : Option Nat :=
    if o.scale = 1 || o.scale = 2 then
      rangeCheck s e.cl e.g.iid (sc.getD i (0, false)).1 (scalesPer o.scale.toNat k * steps * 32) .read
    else none
  [desc o.aVault a steps (rowBytes aty k) false .read, desc o.bVault b steps (rowBytes bty k) false .read, scales 0, scales 1,
   if o.acc then desc o.cVault c 1 (32 * accBytes (matAcc aty).toNat) true .read else none,
   desc o.cVault c 1 (32 * accBytes (matAcc aty).toNat) true .write].findSome? id

/-- The encoding that R280 compares: opcode, `md`, `md2` and `imm32`. -/
def MmaO.code (o : MmaO) (aty : Nat) : List Nat :=
  [aty, o.cv.toNat, o.bty.toNat, o.scale.toNat, o.aVault.toNat, o.bVault.toNat, o.cVault.toNat, o.acc.toNat, o.steps.toNat, o.size.toNat]

/-- The operation that a resolved set of signers issues. -/
def mmaOp (e : Env) (o : MmaO) (aty bty id : Nat) (site : Word) (sigs : List Signature) (serial : Nat) : MatOp :=
  let u := (sigs.headD default).uniform
  let take (on : Bool) (l : List (Word × Bool)) : List (Word × Bool) × List (Word × Bool) := if on then (l.take 2, l.drop 2) else ([], l)
  let (da, u1) := take o.aVault u
  let (db, u2) := take o.bVault u1
  let (dc, sc) := take o.cVault u2
  { id := id, gid := e.t.gid, cgid := e.g.cgid, iid := e.g.iid, ctx := e.cx, cv := o.cv.toNat, serial := some serial
    kind := .mma aty bty (matAcc aty).toNat o.scale.toNat o.acc
    a := if o.aVault then .vault (pairOf da) else .frag (sigs.map (·.afrag))
    b := if o.bVault then .vault (pairOf db) else .frag (sigs.map (·.bfrag))
    c := if o.cVault then .vault (pairOf dc) else .frag (sigs.map (·.cfrag))
    scale := sc, steps := o.steps.toNat + 1, site := site
    cdst := if o.cVault then [] else sigs.filterMap fun x => x.cdst.map fun r => (x.tid, r) }

/-- One thread signs an MMA whose A type is `aty` (R279). -/
def signMma (aty : Nat) (o : MmaO) (s : State) : Out :=
  let bty := (matB? aty o.bty).getD aty
  let k := mmaK aty bty
  let nA := if o.aVault then 2 else fragWords aty k
  let nB := if o.bVault then 2 else fragWords bty k
  let nC := if o.cVault then 2 else cWords aty
  let nS := if o.scale = 3 then 16 else 2
  let c := o.cv.toNat
  let srcs : List SrcReq :=
    [{ src := o.a, words := nA }, { src := o.b, words := nB }] ++ (o.sc.map fun x => { src := x, words := nS : SrcReq }).toList ++
      (if o.cVault || o.acc then [{ src := { reg := o.c, wait := true }, words := nC }] else [])
  let dsts : List DstReq := if o.cVault then [] else [{ reg := o.c, words := nC }]
  let held : Option (Env × Nat) := match s.env? s.cur with
    | none => none
    | some e =>
      let cv := cvOf e.g c
      if (predAt e.t o.h.pg).tok.isNone && guardVal e.t o.h && cv.sigs.any (fun x => x.tid = e.tid) then some (e, cv.serial) else none
  match held with
  | some (e, n) => parkOut s e (.signSet c n)
  | none =>
    withSrcs s o.h 12 srcs dsts fun s1 e vals gtok =>
      match gtok with
      | some _ =>
        let tok := (resultTok vals gtok).getD 0
        if o.cVault then fallThrough s1 e 12
        else finish s1 e 12 o.c (if aty = 0 then (List.range 32).flatMap (fun _ => poisonWords tok 2) else List.replicate 32 (tok, true))
      | none =>
        let va := vals.headD default
        let vb := vals.getD 1 default
        let vs := if o.sc.isSome then vals.getD 2 default else default
        let vc := vals.getD (if o.sc.isSome then 3 else 2) default
        let uA := if o.aVault then uniformCells e o.a.reg va 2 else []
        let uB := if o.bVault then uniformCells e o.b.reg vb 2 else []
        let uC := if o.cVault then uniformCells e o.c vc 2 else []
        let uS := match o.sc with
          | some x => uniformCells e x.reg vs nS
          | none => []
        let tokOf (on : Bool) (v : SrcVal) : Option Word := if on then v.tok else none
        let poisoned := [tokOf o.aVault va, tokOf o.bVault vb, tokOf o.sc.isSome vs, tokOf o.cVault vc].findSome? id
        let failed := if poisoned.isSome then none else mmaChecks s1 e o aty bty va.v64 vb.v64 vc.v64 uS
        match failed, o.h.sp with
        | some code, false => .next (raiseFault s ((s.env? e.tid).getD e) code 4)
        | _, _ =>
          let cv := cvOf e.g c
          let target := if cv.target = 0 then o.size.toNat + 1 else cv.target
          let full := cv.sigs.length + 1 = target
          if full && 4 ≤ ((s1.cluster e.cl).mqs.getD e.g.mqueue []).length then parkOut s ((s.env? e.tid).getD e) (.matRoom e.cl e.g.mqueue)
          else
            let lent := (if o.aVault then [] else xRegs o.a.reg nA) ++ (if o.bVault then [] else xRegs o.b.reg nB)
            let sig : Signature :=
              { tid := e.tid, tix := e.t.tix, u := match poisoned with
                  | some t => some t
                  | none => failed.map fun k => mkToken k 4 e.t.pc.offset
                enc := MmaO.code o aty, uniform := uA ++ uB ++ uC ++ uS
                afrag := if o.aVault then [] else fragCells e o.a.reg nA
                bfrag := if o.bVault then [] else fragCells e o.b.reg nB
                cfrag := if o.cVault || !o.acc then [] else fragCells e o.c nC
                cdst := if o.cVault then none else (xRegs o.c nC).head?, lent := lent }
            let t1 := lent.foldl (fun t n => setReg t n { regAt t n with lent := true }) e.t
            let t2 := if o.cVault then t1 else (xRegs o.c nC).foldl (fun t n => setPending t n .other) t1
            let s2 := modCv (s1.setThread e.tid (advance t2 12)) e.t.gid c fun v => { v with target := target, sigs := v.sigs ++ [sig] }
            let site := mkToken 0 0 e.t.pc.offset
            .next (if full then resolveSet s2 e.t.gid c site (mmaOp e o aty bty s2.fresh site) else s2)

/-- MMA.F64 (R279, R284). -/
def execMmaF64 (o : MmaO) (s : State) : Out := signMma 0 o s

/-- MMA.F32 (R279, R284). -/
def execMmaF32 (o : MmaO) (s : State) : Out := signMma 1 o s

/-- MMA.BF16 (R279, R284). -/
def execMmaBf16 (o : MmaO) (s : State) : Out := signMma 2 o s

/-- MMA.F16 (R279, R284). -/
def execMmaF16 (o : MmaO) (s : State) : Out := signMma 3 o s

/-- MMA.E4M3 (R279, R284). -/
def execMmaE4m3 (o : MmaO) (s : State) : Out := signMma 4 o s

/-- MMA.E5M2 (R279, R284). -/
def execMmaE5m2 (o : MmaO) (s : State) : Out := signMma 5 o s

/-- MMA.E3M2 (R279, R284). -/
def execMmaE3m2 (o : MmaO) (s : State) : Out := signMma 6 o s

/-- MMA.E2M3 (R279, R284). -/
def execMmaE2m3 (o : MmaO) (s : State) : Out := signMma 7 o s

/-- MMA.E2M1 (R279, R284). -/
def execMmaE2m1 (o : MmaO) (s : State) : Out := signMma 8 o s

/-- MMA.I8 (R279, R284). -/
def execMmaI8 (o : MmaO) (s : State) : Out := signMma 9 o s

/-- MMA.I4 (R279, R284). -/
def execMmaI4 (o : MmaO) (s : State) : Out := signMma 10 o s

/-- Waits on other threads of the group: on a boundary, a meeting or a set. -/
def Park.onOthers : Park → Bool
  | .boundary _ | .barPhase .. | .barNext .. | .buoyWait .. | .barxWait .. | .rendezvous .. | .signSet .. => true
  | _ => false

/-- MATRIX_SET_DISCARD: an open set is discarded once every thread of the group has exited or is parked, unless a thread that has not
signed waits on the signers or on a boundary (R282; log entry 45). -/
def execMatrixSetDiscard (gid cv : Nat) (s : State) : Out :=
  match tget? s.groups gid with
  | none => .next s
  | some g =>
    let sigs := (cvOf g cv).sigs
    let stuck (p : Nat × Thread) : Bool := match p.2.status with
      | .exited => true
      | .parked k => !k.onOthers || sigs.any fun x => x.tid = p.1
      | .ready => false
    if (cvOf g cv).target = 0 || !(s.threads.all fun p => p.2.gid ≠ gid || stuck p) then .next s
    else .next (releaseLent (modCv s gid cv fun v => { v with target := 0, sigs := [], serial := v.serial + 1 }) gid sigs)

/-! ## MWAIT and MSTAT (R297, R298) -/

/-- Whether what an MWAIT waits for has come: operations complete, and sets resolved and complete. -/
def mwaitDone (cv : Cv) (ops sets : List Nat) : Bool :=
  ops.all (fun i => !cv.ops.any fun o => o.1 = i) && sets.all fun n => n < cv.serial && !cv.ops.any fun o => o.2 = some n

/-- MWAIT's result: the status, and its clearing. -/
def mwaitEnd (s : State) (e : Env) (clr : Bool) (cv : Nat) (dst : Reg) : State :=
  let ws := match (cvOf e.g cv).status with
    | some t => [(t, true)]
    | none => [((0 : Word), false)]
  let s1 := if clr then modCv s e.t.gid cv fun v => { v with status := none } else s
  if (dstWait s e { reg := dst }).isSome then s else wakeNext (writeDst s1 e dst ws) e.tid 12

/-- MWAIT (R297). -/
def execMwait (h : Head) (clr : Bool) (cv : BitVec 4) (dst : Reg) (s : State) : Out :=
  withSrcs s h 12 [] [{ reg := dst }] fun s e _ gtok =>
    match gtok with
    | some tok => finishTok s e 12 dst 1 tok
    | none =>
      let c := cvOf e.g cv.toNat
      let ops := c.ops.map (·.1)
      let sets := if c.sigs.any fun x => x.tid = e.tid then [c.serial] else []
      if mwaitDone c ops sets then .next (mwaitEnd s e clr cv.toNat dst) else parkOut s e (.mwait clr cv.toNat dst ops sets)

/-- MSTAT (R298). -/
def execMstat (h : Head) (clr : Bool) (dst : Reg) (s : State) : Out :=
  withSrcs s h 12 [] [{ reg := dst, words := 2 }] fun s e _ gtok =>
    match gtok with
    | some tok => finishTok s e 12 dst 2 tok
    | none =>
      let s1 := if clr then s.modGroup e.t.gid fun g => { g with mstat := 0 } else s
      finish s1 e 12 dst (cleanWords (valWords 2 e.g.mstat.toNat))

/-! ## MTRN, MQNT and MCLR (R299 to R302) -/

/-- One issuer queues an operation: a poisoned or failed descriptor traps, or under `sp` fails the status (R299). -/
def issueOne (s0 s : State) (e : Env) (h : Head) (cv : Nat) (bad : Option Word) (code : Option Nat) (mk : Nat → Word → MatOp) : Out :=
  let e0 := (s0.env? e.tid).getD e
  let next (s : State) : Out := .next (s.modThread e.tid fun t => advance t 12)
  match bad, code with
  | some tok, _ => if h.sp then next (failStatus s e.t.gid cv tok) else .next (raiseFaultTok s0 e0 tok)
  | none, some k => if h.sp then next (failStatus s e.t.gid cv (mkToken k 4 e.t.pc.offset)) else .next (raiseFault s0 e0 k 4)
  | none, none =>
    if 4 ≤ ((s.cluster e.cl).mqs.getD e.g.mqueue []).length then parkOut s0 e0 (.matRoom e.cl e.g.mqueue)
    else next (enqueueOp { s with fresh := s.fresh + 1 } e.cl e.g.mqueue (mk s.fresh (mkToken 0 0 e.t.pc.offset)))

/-- An operation of one issuer. -/
def soloOp (e : Env) (cv : Nat) (kind : MatKind) (a c : MatOpnd) (scale : List (Word × Bool)) (id : Nat) (site : Word) : MatOp :=
  { id := id, gid := e.t.gid, cgid := e.g.cgid, iid := e.g.iid, ctx := e.cx, cv := cv, serial := none, kind := kind
    a := a, b := .none, c := c, scale := scale, steps := 1, site := site }

/-- Element bytes of MTRN by its code. -/
def mtrnBytes (w : BitVec 2) : Nat := 2 ^ w.toNat

/-- MTRN (R300). -/
def execMtrn (h : Head) (w : BitVec 2) (cv : BitVec 4) (dst : Reg) (a : Src) (s : State) : Out :=
  withSrcs s h 12 [{ src := a, words := 2 }, { src := { reg := dst, wait := true }, words := 2 }] [] fun s1 e vals gtok =>
    if gtok.isSome then fallThrough s1 e 12
    else
      let va := vals.headD default
      let vd := vals.getD 1 default
      let n := 32 * mtrnBytes w
      let code := [descCheck s1 e.cl e.g.iid (readDesc va.v64) 1 n false .read,
                   descCheck s1 e.cl e.g.iid (readDesc vd.v64) 1 n false .write].findSome? id
      issueOne s s1 e h cv.toNat (resultTok vals none) code (soloOp e cv.toNat (.mtrn w.toNat) (.vault va.v64) (.vault vd.v64) [])

/-- The matrix type of an MQNT target. -/
def mqntTy (ty : BitVec 3) : Nat := 4 + ty.toNat

/-- MQNT (R301). -/
def execMqnt (h : Head) (ty : BitVec 3) (b32 nosat : Bool) (cv : BitVec 4) (dst : Reg) (a sc : Src) (s : State) : Out :=
  withSrcs s h 12 [{ src := a, words := 2 }, { src := sc }, { src := { reg := dst, wait := true }, words := 2 }] [] fun s1 e vals gtok =>
    if gtok.isSome then fallThrough s1 e 12
    else
      let va := vals.headD default
      let vs := vals.getD 1 default
      let vd := vals.getD 2 default
      let k := matK (mqntTy ty)
      let code := [descCheck s1 e.cl e.g.iid (readDesc va.v64) 1 (4 * k) false .read,
                   rangeCheck s1 e.cl e.g.iid vs.v32 (32 * k / (if b32 then 32 else 16)) .write,
                   descCheck s1 e.cl e.g.iid (readDesc vd.v64) 1 (rowBytes (mqntTy ty) k) false .write].findSome? id
      issueOne s s1 e h cv.toNat (resultTok vals none) code
        (soloOp e cv.toNat (.mqnt (mqntTy ty) b32 nosat) (.vault va.v64) (.vault vd.v64) [(vs.v32, false)])

/-- MCLR (R302). -/
def execMclr (h : Head) (acc : BitVec 2) (cv : BitVec 4) (a : Src) (s : State) : Out :=
  withSrcs s h 12 [{ src := a, words := 2 }] [] fun s1 e vals gtok =>
    if gtok.isSome then fallThrough s1 e 12
    else
      let va := vals.headD default
      let code := descCheck s1 e.cl e.g.iid (readDesc va.v64) 1 (32 * accBytes acc.toNat) true .write
      issueOne s s1 e h cv.toNat (resultTok vals none) code (soloOp e cv.toNat (.mclr acc.toNat) .none (.vault va.v64) [])

end Sys2Proof.Machine
end

