-- ==== Sys2Proof/Machine/Tile.lean ====
section
/-! DEFINITION. Tile.lean: a step of a cluster's matrix engine (R277, R291 to R296, R299 to R302): the choice of an
operation, its vault reads, the arithmetic of a tile, and the writes at its completion. -/

namespace Sys2Proof.Machine

open Sys2Proof

/-! ## Pieces of a vault -/

/-- A run of bytes an operation touches: vault address, displacement, length. -/
abbrev Piece := Word × Nat × Nat

/-- The pieces of a descriptor's rows over some steps. -/
def descPieces (w : Word64) (t0 t1 n : Nat) : List Piece :=
  let d := readDesc w
  (d.rows t0 t1 n).map fun p => (d.addr, p.1, p.2)

/-- The pieces of an operand; registers and no operand have none. -/
def opndPieces (o : MatOpnd) (t0 t1 n : Nat) : List Piece :=
  match o with
  | .vault w => descPieces w t0 t1 n
  | _ => []

/-- Where a piece lies. -/
def pieceHit (s : State) (cl iid : Nat) (p : Piece) : Option VHit := (vaultCheck s cl iid p.1 (p.2.1 : Int) p.2.2 1 .read).toOption

/-- The vault bytes of R290 that hold the scales of steps `t0` up to `t1`, row by row. -/
def scalePieces (scale : Nat) (words : List (Word × Bool)) (k steps t0 t1 : Nat) : List Piece :=
  let nb := scalesPer scale k
  if scale = 1 || scale = 2 then
    [0, 1].flatMap fun i => (List.range 32).map fun r => ((words.getD i (0, false)).1, r * nb * steps + t0 * nb, (t1 - t0) * nb)
  else []

/-- The vault bytes an operation reads in steps `t0` up to `t1`. -/
def opReads (op : MatOp) (t0 t1 : Nat) : List Piece :=
  match op.kind with
  | .mma aty bty acc scale addC =>
    let k := mmaK aty bty
    opndPieces op.a t0 t1 (rowBytes aty k) ++ opndPieces op.b t0 t1 (rowBytes bty k) ++ scalePieces scale op.scale k op.steps t0 t1 ++
      (if addC && t0 = 0 then opndPieces op.c 0 1 (32 * accBytes acc) else [])
  | .mtrn w => opndPieces op.a 0 1 (32 * 2 ^ w)
  | .mqnt ty _ _ => opndPieces op.a 0 1 (4 * matK ty)
  | .mclr _ => []

/-- The vault bytes an operation writes. -/
def opWrites (op : MatOp) : List Piece :=
  match op.kind with
  | .mma _ _ acc _ _ => opndPieces op.c 0 1 (32 * accBytes acc)
  | .mtrn w => opndPieces op.c 0 1 (32 * 2 ^ w)
  | .mqnt ty b32 _ =>
    opndPieces op.c 0 1 (rowBytes ty (matK ty)) ++ [((op.scale.headD (0, false)).1, 0, 32 * matK ty / (if b32 then 32 else 16))]
  | .mclr acc => opndPieces op.c 0 1 (32 * accBytes acc)

/-- Lines of vaults that pieces touch. -/
def pieceLines (s : State) (cl iid : Nat) (ps : List Piece) : List (Nat × Nat) :=
  (ps.flatMap fun p => match pieceHit s cl iid p with
    | some h => (vLines h.off p.2.2).map fun l => (h.cl, l)
    | none => []).eraseDups

/-- Whether two runs of pieces share a byte. -/
def piecesMeet (s : State) (cl iid iid2 : Nat) (ps qs : List Piece) : Bool :=
  let at_ (i : Nat) (l : List Piece) : List (Nat × Nat × Nat) :=
    l.filterMap fun p => (pieceHit s cl i p).map fun h => (h.cl, h.off, p.2.2)
  (at_ iid ps).any fun p => (at_ iid2 qs).any fun q => p.1 = q.1 && p.2.1 < q.2.1 + q.2.2 && q.2.1 < p.2.1 + p.2.2

/-! ## Which operation (R277) -/

/-- Whether an operation that has started keeps another from starting (R292 item 6). -/
def holdsUp (s : State) (cl : Nat) (old new : MatOp) : Bool :=
  piecesMeet s cl old.iid new.iid (opWrites old) (opReads new 0 new.steps ++ opWrites new) ||
    piecesMeet s cl old.iid new.iid (opReads old 0 old.steps) (opWrites new)

/-- Whether an operation is amid a step: it has read lines of it. The array is then taken until the step ends, a checkpoint or not (R303). -/
def midStep (s : State) (op : MatOp) : Bool := !op.cache.isEmpty && !s.stopped && (s.ctx op.ctx).kill.isNone

/-- Whether the next step of an operation is ready. -/
def stepReady (s : State) (cl : Nat) (op : MatOp) : Bool :=
  engineRuns s op.ctx &&
    (pieceLines s cl op.iid (opReads op op.next (op.next + 1))).all (fun l => vFailed (s.vault l.1) l.2 || !(s.vault l.1).absent.contains l.2) &&
    (op.started || !((s.cluster cl).mqs.any fun q => q.any fun x => x.started && x.id ≠ op.id && holdsUp s cl x op))

/-- The queue that the engine serves next, with its head: that of the step under way, else the next in turn. -/
def pickQueue (s : State) (cl : Nat) : Option (Nat × MatOp) :=
  let u := s.cluster cl
  let first (p : MatOp → Bool) : Option (Nat × MatOp) := (rotation u.mlast).findSome? fun q =>
    match u.mqs.getD q [] with
    | op :: _ => if p op then some (q, op) else none
    | [] => none
  (first (midStep s)).or (first (stepReady s cl))

/-! ## Reading operands (R292 to R294) -/

/-- A byte of an operand: with the token of a poisoned register or marked line, or unreadable. -/
structure MByte where
  b : Byte
  tok : Option Word := none
  err : Bool := false
deriving Inhabited

/-- An element: value bits, token, and whether an error hit it. -/
structure MElem where
  v : Nat
  tok : Option Word := none
  err : Bool := false
deriving Inhabited

/-- A token the engine makes (R293). -/
def engTok (op : MatOp) (code : Nat) : Word := mkToken code 4 0 ||| op.site

/-- Lines as one step reads them, each once (R292 item 3): code 0, 0x0B for a marked line, 0x0C for one that is lost. -/
abbrev LineCache := List ((Nat × Nat) × (Nat × BitVec 512))

/-- Reads one line; a marked one, and a lost one, is a contained event of the context (R294, R389). -/
def cacheLine (op : MatOp) (r : State × LineCache) (l : Nat × Nat) : State × LineCache :=
  let raw (s : State) : BitVec 512 := BitVec.ofNat 512 (leNat ((List.range 64).map fun i => vPeek (s.vault l.1) (64 * l.2 + i)))
  match vaultRead r.1 l.1 (64 * l.2) 64 (op.site.setWidth 24) with
  | (s1, .ok bs) => (s1, (l, 0, BitVec.ofNat 512 (leNat bs)) :: r.2)
  | (s1, .error 0x0B) => (reportContained s1 1 4 op.ctx 0x0B (op.site.setWidth 24) 0, (l, 0x0B, raw s1) :: r.2)
  | (s1, .error k) => (reportContained s1 1 4 op.ctx 0x11 (op.site.setWidth 24) 0, (l, k, 0) :: r.2)

/-- The lines of a step: those it has read already, then the others (R292 item 3). -/
def readLines (s : State) (cl : Nat) (op : MatOp) (t : Nat) : State × LineCache :=
  ((pieceLines s cl op.iid (opReads op t (t + 1))).filter fun l => !op.cache.any fun e => e.1 = l).foldl (cacheLine op) (s, op.cache)

/-- An operation in its queue is replaced. -/
def putOp (s : State) (cl q : Nat) (op : MatOp) : State :=
  let u := s.cluster cl
  s.setCluster cl { u with mqs := listMod u.mqs q fun l => l.map fun x => if x.id = op.id then op else x }

/-- The engine reads one line of its step ahead of the rest: the reads of a step are not one access together (R292 item 3). -/
def readAhead (s : State) (cl : Nat) (l : Nat × Nat) : State :=
  match pickQueue s cl with
  | none => s
  | some (q, op) =>
    if (pieceLines s cl op.iid (opReads op op.next (op.next + 1))).contains l && !op.cache.any fun e => e.1 = l then
      let (s1, c) := cacheLine op (s, op.cache) l
      putOp s1 cl q { op with started := true, cache := c }
    else s

/-- The bytes of pieces. -/
def pieceBytes (s : State) (cl : Nat) (op : MatOp) (c : LineCache) (ps : List Piece) : List MByte :=
  ps.flatMap fun p => match pieceHit s cl op.iid p with
    | none => []
    | some h => (List.range p.2.2).map fun i =>
      let off := h.off + i
      match c.find? fun e => e.1 = (h.cl, off / 64) with
      | none => { b := 0 }
      | some (_, k, x) =>
        { b := x.extractLsb' (8 * (off % 64)) 8, tok := if k = 0x0B then some (engTok op 0x0B) else none, err := k ≠ 0 && k ≠ 0x0B }

/-- The bytes of registers. -/
def regBytes (ws : List (Word × Bool)) : List MByte :=
  ws.flatMap fun w => (leBytes 4 w.1.toNat).map fun b => { b := b, tok := if w.2 then some w.1 else none }

/-- The bytes of row `r` of an operand in a step. -/
def opndRow (s : State) (cl : Nat) (op : MatOp) (c : LineCache) (o : MatOpnd) (t r n : Nat) : List MByte :=
  match o with
  | .frag rows => regBytes (rows.getD r [])
  | .vault w => let d := readDesc w; pieceBytes s cl op c ((d.row t r n).map fun p => (d.addr, p.1, p.2))
  | .none => []

/-- The elements of a row, packed by R72. -/
def elemsOf (w n : Nat) (row : List MByte) : List MElem :=
  let bits := leNat (row.map (·.b))
  (List.range n).map fun k =>
    let bs := (row.drop (w * k / 8)).take ((w * k + w - 1) / 8 - w * k / 8 + 1)
    { v := bits / 2 ^ (w * k) % 2 ^ w, tok := bs.findSome? (·.tok), err := bs.any (·.err) }

/-- MSTAT after one more substitution; the fields of the first are recorded (R298). -/
def substWord (m fields : Nat) : Nat :=
  let old := m / 2 ^ 22 % 2 ^ 16
  let z := min (old + 1) 0xFFFF
  if m.testBit 63 then m - old * 2 ^ 22 + z * 2 ^ 22 else 2 ^ 63 + m / 2 ^ 62 % 2 * 2 ^ 62 + fields + z * 2 ^ 22

/-- Notes a zero substitution; `opnd` 4 is C, for which R298 has no code. -/
def substitute (s : State) (op : MatOp) (opnd rc kx : Nat) : State :=
  let place := if opnd = 4 then (Config.cSubstituted s.tick &&& 0x30FFFFC000000000#64).toNat
               else opnd * 2 ^ 60 + rc * 2 ^ 51 + kx % 2 ^ 13 * 2 ^ 38
  let fields := place + op.cv * 2 ^ 56 + op.site.toNat % 2 ^ 20
  s.modGroup op.gid fun g => { g with mstat := BitVec.ofNat 64 (substWord g.mstat.toNat fields) }

/-- An element that an error hit: token 0x11, or zero under MXE (R294). -/
def settleElem (op : MatOp) (opnd rc kx : Nat) (s : State) (x : MElem) : State × MElem :=
  if !x.err then (s, x)
  else if (s.ctx op.ctx).mxe then (substitute s op opnd rc kx, { v := 0 })
  else (s, { v := (engTok op 0x11).toNat, tok := some (engTok op 0x11) })

/-- Settles the elements of a row from place `kx` on. -/
def settleRow (op : MatOp) (opnd rc : Nat) : Nat → State → List MElem → State × List MElem
  | _, s, [] => (s, [])
  | kx, s, x :: xs =>
    let (s1, y) := settleElem op opnd rc kx s x
    let (s2, ys) := settleRow op opnd rc (kx + 1) s1 xs
    (s2, y :: ys)

/-- Settles rows from number `rc` on. -/
def settleRows (op : MatOp) (opnd kx : Nat) : Nat → State → List (List MElem) → State × List (List MElem)
  | _, s, [] => (s, [])
  | rc, s, r :: rs =>
    let (s1, y) := settleRow op opnd rc kx s r
    let (s2, ys) := settleRows op opnd kx (rc + 1) s1 rs
    (s2, y :: ys)

/-- The first token of a row. -/
def rowTok (r : List MElem) : Option Word := r.findSome? (·.tok)

/-! ## The arithmetic of a tile (R77, R291) -/

/-- The format of a float matrix type. -/
def matFmt (ty : Nat) : Fmt := [fmtF64, fmtF32, fmtBf16, fmtF16, fmtE4m3, fmtE5m2, fmtE3m2, fmtE2m3, fmtE2m1].getD ty fmtF32

/-- The exponent of the product of two scales; none when one is NaN (R73). -/
def scaleExp (a b : Nat) : Option Int := if a = 255 || b = 255 then none else some ((a : Int) + b - 254)

/-- One block: its exact sum, scaled, rounded once to f32. -/
def tileBlock (fa fb : Fmt) (sc : Option Int) (as bs : List Nat) : Nat :=
  let sum := (blockSum (as.zipWith (fun a b => (mulVal (fa.decode a) (fb.decode b)).1) bs)).1
  (blockRound (match sc, sum with
    | none, _ => .nan false
    | some e, .num n m x => .num n m (x + e)
    | some _, v => v)).1

/-- Adds the products of a step into an accumulator element. `sa`, `sb`: the scales of its blocks, one for all under
granularity 11, none under 00. -/
def tileElem (aty bty scale : Nat) (as bs sa sb : List Nat) (acc : Int) : Int :=
  if 9 ≤ aty then (as.zip bs).foldl (fun t p => t + readInt (matBits aty) true p.1 * readInt (matBits bty) true p.2) acc
  else if aty ≤ 1 then
    let f := matFmt aty
    ((as.zip bs).foldl (fun c p => (fFma f .rn false (f.decode p.1) (f.decode p.2) (f.decode c)).1) acc.toNat : Nat)
  else
    let n := if aty ≤ 3 || scale = 2 then 16 else 32
    let per := if scale = 1 then 32 else 16
    let scaleOf (l : List Nat) (k : Nat) : Nat := if scale = 3 then l.headD 127 else l.getD (k / per) 127
    ((List.range (as.length / n)).foldl (fun c i =>
      let sc : Option Int := if scale = 0 then some 0 else scaleExp (scaleOf sa (n * i)) (scaleOf sb (n * i))
      let blk := tileBlock (matFmt aty) (matFmt bty) sc ((as.drop (n * i)).take n) ((bs.drop (n * i)).take n)
      (fAdd fmtF32 .rn false (fmtF32.decode c) (fmtF32.decode blk)).1) acc.toNat : Nat)

/-! ## Writing (R292 item 4, R296) -/

/-- A byte an operation writes: cluster, offset in the vault, byte, and whether it belongs to a poisoned element. -/
abbrev WByte := Nat × Nat × Byte × Bool

/-- Bytes along pieces. -/
def placeBytes (s : State) (cl : Nat) (op : MatOp) (ps : List Piece) (bs : List (Byte × Bool)) : List WByte :=
  let places := ps.flatMap fun p => match pieceHit s cl op.iid p with
    | some h => (List.range p.2.2).map fun i => (h.cl, h.off + i)
    | none => []
  places.zipWith (fun p b => (p.1, p.2, b.1, b.2)) bs

/-- Writes one line whole: bytes, parity, marker, presence. -/
def storeLine (op : MatOp) (bs : List WByte) (s : State) (l : Nat × Nat) : State :=
  let cs := (bs.filter fun b => b.1 = l.1 && b.2.1 / 64 = l.2).map fun b => (b.2.1 % 64, b.2.2)
  if vFailed (s.vault l.1) l.2 then
    failStatus (reportContained s 1 4 op.ctx 0x0C (op.site.setWidth 24) 0) op.gid op.cv (engTok op 0x0C)
  else
    let r := vWriteLine (s.vault l.1) l.2 (cs.map fun c => (c.1, c.2.1))
    let s1 := s.setVault l.1 r.1
    let s2 := if r.2 then reportVault s1 l.1 l.2 (op.site.setWidth 24) else s1
    let v := s2.vault l.1
    let whole := (List.range 64).all fun i => cs.any fun c => c.1 = i
    let marks := if cs.any (·.2.2) then setAdd v.marks l.2 else if whole && !r.2 then setDel v.marks l.2 else v.marks
    wakeBuoys (wakePresent (s2.setVault l.1 { v with marks := marks, absent := setDel v.absent l.2 }) l.1) l.1

/-- Writes what an operation writes. -/
def storeBytesOf (op : MatOp) (s : State) (bs : List WByte) : State :=
  ((bs.map fun b => (b.1, b.2.1 / 64)).eraseDups).foldl (storeLine op bs) s

/-- The bytes of an element. -/
def elemBytes (n v : Nat) (poisoned : Bool) : List (Byte × Bool) := (leBytes n v).map fun b => (b, poisoned)

/-- Ends an operation: it leaves its queue, and its register's count falls (R292 item 5). -/
def endOp (s : State) (cl q : Nat) (op : MatOp) : State :=
  let u := s.cluster cl
  let s1 := s.setCluster cl { u with mqs := listMod u.mqs q fun l => l.filter fun x => x.id ≠ op.id }
  modCv s1 op.gid op.cv fun c => { c with ops := c.ops.filter fun o => o.1 ≠ op.id }

/-! ## MMA -/

/-- The elements of C as an operation starts with them: zeros, or C's input (R291); a pair's low register says whether it is poisoned
(R9). -/
def cInput (s : State) (cl : Nat) (op : MatOp) (c : LineCache) (acc : Nat) : List (List MElem) :=
  let n := accBytes acc
  (List.range 32).map fun i =>
    let row := opndRow s cl op c op.c 0 i (32 * n)
    (elemsOf (8 * n) 32 row).zipIdx.map fun x => { x.1 with tok := (row.getD (n * x.2) { b := 0 }).tok }

/-- An input element as the accumulator holds it. -/
def accStart (acc : Nat) (x : MElem) : Int × Option Word := (if acc = 2 then readInt 32 true x.v else (x.v : Int), x.tok)

/-- The value bits of a finished element: i32 totals are saturated once. -/
def accBits (acc : Nat) (v : Int) : Nat := if acc = 2 then intFinish 32 true true v else v.toNat

/-- Writes C when the last step has run (R291, R293, R295). -/
def storeC (s : State) (cl : Nat) (op : MatOp) (acc : Nat) : State :=
  let n := accBytes acc
  let elem (i j : Nat) : Nat × Option Word :=
    let a := (op.accum.getD i []).getD j (0, none)
    let tok := if op.badRows.contains i then some (engTok op 0x0A)
               else [op.aTok.getD i none, op.bTok.getD j none, op.sTok, a.2].findSome? id
    (accBits acc a.1, tok)
  match op.c with
  | .vault w =>
    let d := readDesc w
    storeBytesOf op s ((List.range 32).flatMap fun i =>
      placeBytes s cl op ((d.row 0 i (32 * n)).map fun p => (d.addr, p.1, p.2)) ((List.range 32).flatMap fun j =>
        match elem i j with
        | (_, some t) => elemBytes n t.toNat true
        | (v, none) => elemBytes n v false))
  | _ =>
    (List.range op.cdst.length).foldl (fun s i =>
      let (tid, r) := op.cdst.getD i (0, 0)
      writeFrag s tid r ((List.range 32).flatMap fun j => match elem i j with
        | (_, some t) => poisonWords t (n / 4)
        | (v, none) => cleanWords (valWords (n / 4) v))) s

/-- An operand word that an error hits: operand, row, first element, elements, and whether ECC corrects it (R294). -/
abbrev OpHit := Nat × Nat × Nat × Nat × Bool

/-- The hits among injections that fall on operands a step reads. -/
def operandHits (reads : List Nat) (l : List Inject) : List OpHit :=
  l.filterMap fun i => match i with
    | .operand w rc k n fixed => if reads.contains w then some (w, rc, k, n, fixed) else none
    | _ => none

/-- Takes the hits that a step meets, each with its event: contained, or correctable (R294). -/
def takeHits (s : State) (cl : Nat) (op : MatOp) (reads : List Nat) : State × List OpHit :=
  let hits := operandHits reads s.injected
  let s1 := { s with injected := s.injected.filter fun i => match i with
    | .operand w .. => !reads.contains w
    | _ => true }
  (hits.foldl (fun s h =>
    if h.2.2.2.2 then countCorrectable s (cl / 64) 4 else reportContained s 1 4 op.ctx 0x11 (op.site.setWidth 24) 0) s1,
   hits.filter fun h => !h.2.2.2.2)

/-- Lets uncorrectable words of an operand hit their elements (R294). -/
def hitRows (hits : List OpHit) (which : Nat) (rows : List (List MElem)) : List (List MElem) :=
  (hits.filter fun h => h.1 = which).foldl (fun rows h =>
    listMod rows (h.2.1 % 32) fun r => r.zipIdx.map fun x => if h.2.2.1 ≤ x.2 && x.2 < h.2.2.1 + h.2.2.2.1 then { x.1 with err := true } else x.1) rows

/-- Residue mismatches of a step's rows: those that its replay repeats, and whether a replay agreed (R295). -/
def takeResidues (s : State) (cl : Nat) (op : MatOp) : State × List Nat :=
  let found := s.injected.filterMap fun i => match i with
    | .residue again rows => some (again, rows)
    | _ => none
  let s1 := { s with injected := s.injected.filter fun i => match i with
    | .residue .. => false
    | _ => true }
  found.foldl (fun r x =>
    if x.1 then (reportContained r.1 1 4 op.ctx 0x0A (op.site.setWidth 24) 0, r.2 ++ x.2.map (· % 32))
    else ((countCorrectable r.1 (cl / 64) 4).modGroup op.gid fun g => { g with mstat := g.mstat ||| 0x4000000000000000#64 }, r.2)) (s1, [])

/-- The scales of a step: of A's rows or B's columns. -/
def stepScales (s : State) (cl : Nat) (op : MatOp) (c : LineCache) (scale k t which : Nat) : List (List MElem) :=
  if scale = 3 then (List.range 32).map fun i => [(elemsOf 8 64 (regBytes op.scale)).getD (32 * which + i) default]
  else
    let ps := (scalePieces scale op.scale k op.steps t (t + 1)).drop (32 * which)
    (ps.take 32).map fun p => elemsOf 8 (scalesPer scale k) (pieceBytes s cl op c [p])

/-- One step of an MMA: its operands are read, its products added; the last step writes C. -/
def mmaStep (s : State) (cl q : Nat) (op : MatOp) (aty bty acc scale : Nat) (addC : Bool) : State :=
  let k := mmaK aty bty
  let t := op.next
  let (s1, c) := readLines s cl op t
  let (s2, hits) := takeHits s1 cl op ([0, 1] ++ (if scale = 0 then [] else [2, 3]) ++ (if t = 0 && addC then [4] else []))
  let rows (which : Nat) (o : MatOpnd) (ty : Nat) : List (List MElem) :=
    hitRows hits which ((List.range 32).map fun i => elemsOf (matBits ty) k (opndRow s1 cl op c o t i (rowBytes ty k)))
  let (s3, as) := settleRows op 0 (t * k) 0 s2 (rows 0 op.a aty)
  let (s4, bs) := settleRows op 1 (t * k) 0 s3 (rows 1 op.b bty)
  let nb := scalesPer scale k
  let (s5, sa) := if scale = 0 then (s4, []) else settleRows op 2 (t * nb) 0 s4 (hitRows hits 2 (stepScales s1 cl op c scale k t 0))
  let (s6, sb) := if scale = 0 then (s5, []) else settleRows op 3 (t * nb) 0 s5 (hitRows hits 3 (stepScales s1 cl op c scale k t 1))
  let (s7, acc0) :=
    if t ≠ 0 then (s6, op.accum)
    else if addC then
      let (s7, cs) := settleRows op 4 0 0 s6 (hitRows hits 4 (cInput s1 cl op c acc))
      (s7, cs.map fun r => r.map (accStart acc))
    else (s6, List.replicate 32 (List.replicate 32 (0, none)))
  let vals (l : List (List MElem)) (i : Nat) : List Nat := (l.getD i []).map (·.v)
  let acc1 := (List.range 32).map fun i =>
    let ai := vals as i
    let sai := vals sa i
    (List.range 32).map fun j =>
      let x := (acc0.getD i []).getD j (0, none)
      (tileElem aty bty scale ai (vals bs j) sai (vals sb j) x.1, x.2)
  let later (old : List (Option Word)) (l : List (List MElem)) : List (Option Word) :=
    (List.range 32).map fun i => (old.getD i none).or (rowTok (l.getD i []))
  let (s8, bad) := takeResidues s7 cl op
  let op1 := { op with started := true, next := t + 1, accum := acc1, aTok := later op.aTok as, bTok := later op.bTok bs
                       sTok := op.sTok.or ((sa ++ sb).findSome? rowTok), badRows := op.badRows ++ bad, cache := [] }
  if op.steps ≤ t + 1 then endOp (storeC s8 cl op1 acc) cl q op else putOp s8 cl q op1

/-! ## MTRN, MQNT, MCLR -/

/-- MTRN's step (R300). -/
def mtrnStep (s : State) (cl q : Nat) (op : MatOp) (w : Nat) : State :=
  let n := 2 ^ w
  let (s0, c) := readLines s cl op 0
  let (s1, hits) := takeHits s0 cl op [0]
  let (s2, rows) := settleRows op 0 0 0 s1 (hitRows hits 0 <| (List.range 32).map fun r => elemsOf (8 * n) 32 (opndRow s1 cl op c op.a 0 r (32 * n)))
  let bytes (j : Nat) : List (Byte × Bool) := (List.range 32).flatMap fun r =>
    let x := (rows.getD r []).getD j default
    elemBytes n x.v x.tok.isSome
  let d := match op.c with
    | .vault w => readDesc w
    | _ => default
  endOp (storeBytesOf op s2 ((List.range 32).flatMap fun j =>
    placeBytes s2 cl op ((d.row 0 j (32 * n)).map fun p => (d.addr, p.1, p.2)) (bytes j))) cl q op

/-- Whole power of two below a finite magnitude, its exponent. -/
def floorLog2 (m : Nat) (e : Int) : Int := (bitLen m : Int) - 1 + e

/-- emax of MQNT's targets (R301). -/
def emaxOf (ty : Nat) : Int := if ty = 4 then 8 else if ty = 5 then 15 else if ty = 6 then 4 else 2

/-- The type code of a low-precision matrix type. -/
def matCTy (ty : Nat) : CTy := if ty = 4 then .e4m3 else if ty = 5 then .e5m2 else if ty = 6 then .e3m2 else if ty = 7 then .e2m3 else .e2m1

/-- Quantises a block: its scale and its elements (R301). -/
def quantBlock (ty : Nat) (nosat : Bool) (xs : List Nat) : Nat × List Nat :=
  let f := matFmt ty
  let vs := xs.map fmtF32.decode
  let special := vs.any fun v => match v with
    | .num _ _ _ => false
    | _ => true
  if special then (0xFF, xs.map fun _ => f.nan)
  else
    let logs := vs.filterMap fun v => match v with
      | .num _ m e => if m = 0 then none else some (floorLog2 m e)
      | _ => none
    let e : Nat := match logs with
      | [] => 0
      | l :: ls => (max 0 (min 254 (ls.foldl max l - emaxOf ty + 127))).toNat
    (e, vs.map fun v => match v with
      | .num n m x => (deliver (matCTy ty) f nosat .rn false (f.round .rn { neg := n, m := m, e := x + 127 - (e : Int) })).1
      | _ => f.nan)

/-- Elements of width `w` packed into bytes, each byte with the poison of the elements it holds (R72). -/
def packElems (w : Nat) (xs : List (Nat × Bool)) : List (Byte × Bool) :=
  let bits := packLanes w (xs.map (·.1))
  (List.range (w * xs.length / 8)).map fun i =>
    (BitVec.ofNat 8 (bits / 2 ^ (8 * i)), ((xs.drop (8 * i / w)).take ((8 * i + 7) / w - 8 * i / w + 1)).any (·.2))

/-- MQNT's step (R301). -/
def mqntStep (s : State) (cl q : Nat) (op : MatOp) (ty : Nat) (b32 nosat : Bool) : State :=
  let k := matK ty
  let b := if b32 then 32 else 16
  let (s0, c) := readLines s cl op 0
  let (s1, hits) := takeHits s0 cl op [0]
  let (s2, rows) := settleRows op 0 0 0 s1 (hitRows hits 0 <| (List.range 32).map fun r => elemsOf 32 k (opndRow s1 cl op c op.a 0 r (4 * k)))
  let blocks (r : Nat) : List ((Nat × List Nat) × Bool) := (List.range (k / b)).map fun i =>
    let xs := ((rows.getD r []).drop (b * i)).take b
    (quantBlock ty nosat (xs.map (·.v)), xs.any fun x => x.tok.isSome)
  let d := match op.c with
    | .vault w => readDesc w
    | _ => default
  let tile := (List.range 32).flatMap fun r =>
    placeBytes s2 cl op ((d.row 0 r (rowBytes ty k)).map fun p => (d.addr, p.1, p.2))
      (packElems (matBits ty) ((blocks r).flatMap fun x => x.1.2.map fun v => (v, x.2)))
  let scales := placeBytes s2 cl op [((op.scale.headD (0, false)).1, 0, 32 * k / b)]
    ((List.range 32).flatMap fun r => (blocks r).map fun x => (BitVec.ofNat 8 x.1.1, x.2))
  endOp (storeBytesOf op s2 (tile ++ scales)) cl q op

/-- MCLR's step (R302). -/
def mclrStep (s : State) (cl q : Nat) (op : MatOp) : State :=
  let bs := (opWrites op).flatMap fun p => placeBytes s cl op [p] (List.replicate p.2.2 (0, false))
  endOp (storeBytesOf op s bs) cl q op

/-- MATRIX_STEP: the engine of a cluster runs one step of the operation it chooses (R277). -/
def execMatrixStep (cl : Nat) (s : State) : Out :=
  match pickQueue s cl with
  | none => .next s
  | some (q, op) =>
    let s1 := s.setCluster cl { s.cluster cl with mlast := q }
    .next (match op.kind with
      | .mma aty bty acc scale addC => mmaStep s1 cl q op aty bty acc scale addC
      | .mtrn w => mtrnStep s1 cl q op w
      | .mqnt ty b32 nosat => mqntStep s1 cl q op ty b32 nosat
      | .mclr _ => mclrStep s1 cl q op)

end Sys2Proof.Machine
end

