-- ==== Sys2Proof/Machine/Vaults.lean ====
section
/-! DEFINITION. Vaults.lean: the vault instructions (R232 to R246). -/

namespace Sys2Proof.Machine

open Sys2Proof

/-! ## Loads, stores and atomics (R233 to R235) -/

/-- The result of a vault load that could not be had: a token of unit 2, reported (R233, R389). -/
def vaultTok (s : State) (e : Env) (cl off code words : Nat) : State × List (Word × Bool) :=
  let s1 := if code = 0x0B || vFailed (s.vault cl) (off / 64) then reportToken s e code 2 0 else s
  (s1, poisonWords (mkToken code 2 e.t.pc.offset) words)

/-- LDV (R232, R233). -/
def execLdv (o : VaultO) (s : State) : Out :=
  let n := o.size.words
  withSrcs s o.h 8 [{ src := o.a }] [{ reg := o.reg, words := n }] fun s1 e vals gtok =>
    match resultTok vals gtok with
    | some tok => finishTok s1 e 8 o.reg n tok
    | none =>
      if captiveFull e.t then .next s
      else match vaultCheck s1 e.cl e.g.iid (vals.headD default).v32 o.disp.toInt o.size.bytes o.size.bytes .read with
        | .error c => vaultFail s s1 e o.h.sp 8 o.reg n c
        | .ok h =>
          if !vPresent (s1.vault h.cl) h.off o.size.bytes then parkOut s e (presencePark h o.size.bytes)
          else
            let (s2, ws) := match vaultRead s1 h.cl h.off o.size.bytes (siteOf e) with
              | (s2, .ok bs) => (s2, cleanWords (extendBytes o.size bs))
              | (s2, .error c) => vaultTok s2 e h.cl h.off c n
            .next (issueAcc s2 (e.refresh s2) 8 0x62 0 o.h.sp (xRegs o.reg n) (.done ws))

/-- The frame of STV and STX: sources, poison, check; `go` writes (R234, R241). -/
def vaultStoreOut (s : State) (o : VaultO) (m : VMode) (go : State → Env → VHit → List Byte → State) : Out :=
  let n := o.size.words
  withSrcs s o.h 8 [{ src := o.a }, { src := { reg := o.reg, wait := true }, words := n }] [] (fun s1 e vals _ =>
    let a := vals.headD default
    let v := vals.getD 1 default
    match a.tok, v.tok with
    | some tok, _ => .next (raisePoison s e tok 4)
    | none, some tok => .next (raisePoison s e tok 5)
    | none, none =>
      let fail (c : Nat) : Out :=
        if o.h.sp then tokenOverData s (if c = 0x0C then reportToken s1 e c 2 0 else s1) e 8 o.reg n (mkToken c 2 e.t.pc.offset)
        else .next (raiseFault s ((s.env? e.tid).getD e) c 2)
      if m = .write && captiveFull e.t then .next s
      else match vaultCheck s1 e.cl e.g.iid a.v32 o.disp.toInt o.size.bytes o.size.bytes m with
        | .error c => fail c
        | .ok h =>
          if m = .write && !vPresent (s1.vault h.cl) h.off o.size.bytes then parkOut s e (presencePark h o.size.bytes)
          else if vFailed (s1.vault h.cl) (h.off / 64) then fail 0x0C
          else
            let s2 := go s1 e h (storeBytes o.size v.words)
            .next (s2.modThread e.tid fun t => advance t 8)) [] true

/-- STV (R232, R234). -/
def execStv (o : VaultO) (s : State) : Out :=
  vaultStoreOut s o .write fun s e h bs => vaultStore s h.cl h.off bs (siteOf e)

/-- Whether one key of R241 is at least as high as another. -/
def keyGe (a b : ShadowByte) : Bool :=
  if a.ry ≠ b.ry then b.ry < a.ry
  else if a.rx ≠ b.rx then b.rx < a.rx
  else if a.cix ≠ b.cix then b.cix < a.cix
  else b.tix ≤ a.tix

/-- A record offered to a shadow byte. -/
def offerRec (recs : List ShadowByte) (r : ShadowByte) : List ShadowByte :=
  match recs.find? fun x => x.off = r.off with
  | some x => if keyGe r x then recs.map fun y => if y.off = r.off then r else y else recs
  | none => recs ++ [r]

/-- STX (R241). -/
def execStx (o : VaultO) (s : State) : Out :=
  vaultStoreOut s o .stx fun s e h bs =>
    let ry : Int := (meshY e.cl : Int) - meshY h.cl
    let rx : Int := (meshX e.cl : Int) - meshX h.cl
    let put (w : Window) : Window :=
      let offer (rs : List ShadowByte) (c : Host.Cell) : List ShadowByte :=
        offerRec rs { off := c.1, val := c.2, ry := ry, rx := rx, cix := e.g.cix, tix := e.t.tix }
      { w with recs := (cellsAt h.o bs).foldl offer w.recs }
    s.modCGroup h.cgid fun cg => { cg with window := cg.window.map put }

/-- ATOMV (R235). -/
def execAtomv (o : AtomVO) (s : State) : Out :=
  let n := wordsOf o.w64
  withSrcs s o.h 8 [{ src := o.a }, { src := o.v, words := o.op.words o.w64 }] [{ reg := o.dst, words := n }] fun s1 e vals gtok =>
    match resultTok vals gtok with
    | some tok => finishTok s1 e 8 o.dst n tok
    | none =>
      if captiveFull e.t then .next s
      else match vaultCheck s1 e.cl e.g.iid (vals.headD default).v32 0 (4 * n) (4 * n) .write with
        | .error c => vaultFail s s1 e o.h.sp 8 o.dst n c
        | .ok h =>
          if !vPresent (s1.vault h.cl) h.off (4 * n) then parkOut s e (presencePark h (4 * n))
          else
            let (s2, ws) := match vaultRead s1 h.cl h.off (4 * n) (siteOf e) with
              | (s2, .ok bs) =>
                let new := atomicNew o.op o.w64 (leNat bs) (operandOf (vals.getD 1 default).words)
                (vaultStore s2 h.cl h.off (leBytes (4 * n) new) (siteOf e), cleanWords (bytesToWords bs))
              | (s2, .error c) => vaultTok s2 e h.cl h.off c n
            .next (issueAcc s2 (e.refresh s2) 8 0x69 0 o.h.sp (xRegs o.dst n) (.done ws))

/-! ## Presence (R236) -/

/-- PRES.TEST (R236). -/
def execPresTest (h : Head) (pd : BitVec 3) (a len : Src) (s : State) : Out :=
  withSrcs s h 8 [{ src := a }, { src := len }] [] fun s1 e vals gtok =>
    match resultTok vals gtok with
    | some tok => finishPred s1 e 8 pd false (some tok)
    | none =>
      let n := (vals.getD 1 default).v32.toNat
      match vaultCheck s1 e.cl e.g.iid (vals.headD default).v32 0 n 1 .read with
      | .error c =>
        if h.sp then finishPred s1 e 8 pd false (some (mkToken c 2 e.t.pc.offset))
        else .next (raiseFault s ((s.env? e.tid).getD e) c 2)
      | .ok v => finishPred s1 e 8 pd (n = 0 || vPresent (s1.vault v.cl) v.off n) none

/-- The other forms: they trap whatever `sp` is, and skip lines of FAILED groups; `settles`: they wait for decrypt copies on
their lines (R273). -/
def presOut (s : State) (h : Head) (a len : Src) (settles : Bool) (go : Vault → Nat → Vault) : Out :=
  withSrcs s h 8 [{ src := a }, { src := len }] [] fun s1 e vals gtok =>
    let e0 := (s.env? e.tid).getD e
    if gtok.isSome then fallThrough s1 e 8
    else match resultTok vals none with
      | some tok => .next (raiseFaultTok s e0 tok)
      | none =>
        let n := (vals.getD 1 default).v32.toNat
        match vaultCheck s1 e.cl e.g.iid (vals.headD default).v32 0 n 1 .write with
        | .error c => .next (raiseFault s e0 c 2)
        | .ok v =>
          let lines := if n = 0 then [] else (vLines v.off n).filter fun l => !vFailed (s1.vault v.cl) l
          let held := if settles then decHolds s1 v.cl lines else []
          let s2 := s1.setVault v.cl (lines.foldl go (s1.vault v.cl))
          if held ≠ [] then parkOut s e0 (.settle held) else .next ((wakePresent s2 v.cl).modThread e.tid fun t => advance t 8)

/-- PRES.SET wakes the threads parked on its lines (R236). -/
def execPresSet (h : Head) (a len : Src) (s : State) : Out :=
  presOut s h a len true fun v l => { v with absent := setDel v.absent l }

/-- PRES.CLR (R236). -/
def execPresClr (h : Head) (a len : Src) (s : State) : Out :=
  presOut s h a len false fun v l => { v with absent := setAdd v.absent l }

/-- PRES.UNMK (R236). -/
def execPresUnmk (h : Head) (a len : Src) (s : State) : Out :=
  presOut s h a len true fun v l => { v with marks := setDel v.marks l }

/-! ## VSPLIT (R237 to R240) -/

/-- A failed check of an instruction with a predicate destination. -/
def predFail (s0 s : State) (e : Env) (h : Head) (pd : BitVec 3) (code : Nat) : Out :=
  if h.sp then finishPred s e 8 pd false (some (mkToken code 2 e.t.pc.offset))
  else .next (raiseFault s0 ((s0.env? e.tid).getD e) code 2)

/-- VSPLIT.SET (R238). -/
def execVsplitSet (h : Head) (pd : BitVec 3) (n : OpB) (s : State) : Out :=
  withSrcs s h 8 (n.srcs 1 |>.map fun p => { src := p.1, words := p.2 }) [] fun s1 e vals gtok =>
    match resultTok vals gtok with
    | some tok => finishPred s1 e 8 pd false (some tok)
    | none =>
      let v := match n with
        | .imm v => v.toNat
        | .reg _ => (vals.headD default).v32.toNat
      let vt := s1.vault e.cl
      if 32 < v || grantOf s1 e.cx < v || 4 * vt.cap < v then
        .next (raise s ((s.env? e.tid).getD e) { cause := 14, aux := BitVec.ofNat 32 v })
      else if v < vt.split && (vOccupied s1 e.cl).any (fun r => v * 2 ^ 18 < r.1 + r.2) then finishPred s1 e 8 pd false none
      else
        let v1 := if vt.split < v then vClear vt (vt.split * 2 ^ 18) (v * 2 ^ 18) else vt
        finishPred (s1.setVault e.cl { v1 with split := v }) e 8 pd true none

/-- The allocation of the issuing cluster group. -/
def ownAlloc (s : State) (e : Env) : Option ClusterGroup := (tget? s.cgroups e.g.cgid).filter fun cg => cg.len ≠ 0

/-- VSPLIT.XOPEN (R240). -/
def execVsplitXopen (h : Head) (pd : BitVec 3) (off len : Src) (s : State) : Out :=
  withSrcs s h 8 [{ src := off }, { src := len }] [] fun s1 e vals gtok =>
    match resultTok vals gtok with
    | some tok => finishPred s1 e 8 pd false (some tok)
    | none =>
      let o := (vals.headD default).v32.toNat
      let l := (vals.getD 1 default).v32.toNat
      match ownAlloc s1 e with
      | none => predFail s s1 e h pd 0x02
      | some cg =>
        if l < 64 || cg.len < o + l then predFail s s1 e h pd 0x03
        else if meetsRing cg o l then predFail s s1 e h pd 0x02
        else if o % 64 ≠ 0 || l % 64 ≠ 0 then predFail s s1 e h pd 0x05
        else if cg.window.isSome then finishPred s1 e 8 pd false none
        else match vPlace s1 e.cl l 64 (min (s1.vault e.cl).split (grantOf s1 e.cx) * 2 ^ 18) with
          | none => finishPred s1 e 8 pd false none
          | some a =>
            let s2 := s1.setCGroup e.g.cgid { cg with window := some { off := o, len := l, shadowAt := a } }
            finishPred s2 e 8 pd true none

/-- VSPLIT.XCLOSE (R240). -/
def execVsplitXclose (h : Head) (s : State) : Out :=
  withSrcs s h 8 [] [] fun s e _ gtok =>
    if gtok.isSome then fallThrough s e 8
    else fallThrough (s.modCGroup e.g.cgid fun cg => { cg with window := none }) e 8

/-- The lowest ring number that a group does not use. -/
def freeRing (cg : ClusterGroup) : Option Nat := (List.range 32).find? fun n => !cg.rings.any fun r => r.num = n

/-- VSPLIT.RING (R239). -/
def execVsplitRing (h : Head) (dst : Reg) (base cfg : Src) (s : State) : Out :=
  let srcs : List SrcReq := [{ src := base }, { src := cfg }]
  withSrcs s h 8 srcs [{ reg := dst }] fun s1 e vals gtok =>
    let out (s1 : State) (ws : List (Word × Bool)) : Out := finishLand s1 (e.refresh s1) 8 (if gtok.isSome then [] else srcs) vals dst ws s
    match resultTok vals gtok with
    | some tok => out s1 (poisonWords tok 1)
    | none =>
      let o := (vals.headD default).v32.toNat
      let c := (vals.getD 1 default).v32.toNat
      let fail (code : Nat) : Out :=
        if h.sp then out s1 (poisonWords (mkToken code 2 e.t.pc.offset) 1)
        else .next (raiseFault s ((s.env? e.tid).getD e) code 2)
      let r : Ring := { num := 0, base := o, lg := c % 32, ssz := c / 32 % 4 }
      match ownAlloc s1 e with
      | none => fail 0x02
      | some cg =>
        let inWindow : Bool := match cg.window with
          | some w => w.off < o + ringBytes r && o < w.off + w.len
          | none => false
        if 128 ≤ c || r.ssz = 3 || r.lg = 0 || 16 < r.lg || cg.len < o + ringBytes r then fail 0x03
        else if meetsRing cg o (ringBytes r) || inWindow then fail 0x02
        else if o % 64 ≠ 0 then fail 0x05
        else
          let all := (s1.cgroups.filter fun p => p.2.cluster = e.cl).foldl (fun n p => n + p.2.rings.length) 0
          match freeRing cg with
          | none => out s1 [(0xFFFFFFFF, false)]
          | some n =>
            if 32 ≤ all then out s1 [(0xFFFFFFFF, false)]
            else
              let r := { r with num := n }
              let s2 := vaultStore s1 e.cl (cg.base + o) (ringHeader r ++ List.replicate 44 0) (siteOf e)
              let s3 := s2.modCGroup e.g.cgid fun cg => { cg with rings := cg.rings ++ [r] }
              out s3 [(BitVec.ofNat 32 n, false)]

/-- Unbinds every port bound to a ring (R239). -/
def unbindRing (s : State) (cgid num : Nat) : State :=
  let cut (p : Port) : Port := if p.binding = .ring cgid num then { p with binding := .unbound, pops := [] } else p
  { s with groups := tmap (fun _ g => { g with ports := g.ports.map cut }) s.groups }

/-- VSPLIT.RFREE (R239). -/
def execVsplitRfree (h : Head) (num : Src) (s : State) : Out :=
  withSrcs s h 8 [{ src := num }] [] fun s1 e vals gtok =>
    let e0 := (s.env? e.tid).getD e
    if gtok.isSome then fallThrough s1 e 8
    else match (vals.headD default).tok with
      | some tok => .next (raiseFaultTok s e0 tok)
      | none =>
        let n := (vals.headD default).v32.toNat
        match findRing s1 e.g.cgid n with
        | none => .next (raiseFault s e0 0x02 2)
        | some (_, r) =>
          if r.reserved ≠ [] || r.opens ≠ [] then parkOut s e0 (.ring e.g.cgid n)
          else
            let s2 := unbindRing s1 e.g.cgid n
            let s3 := s2.modCGroup e.g.cgid fun cg => { cg with rings := cg.rings.filter fun r => r.num ≠ n }
            .next (s3.modThread e.tid fun t => advance t 8)

/-! ## Buoys (R245, R246) -/

/-- BUOYS arms a Buoy (R245). -/
def execBuoys (h : Head) (a : Src) (v : OpB) (s : State) : Out :=
  withSrcs s h 8 ({ src := a } :: (v.srcs 2).map fun p => { src := p.1, words := p.2 }) [] fun s1 e vals gtok =>
    let e0 := (s.env? e.tid).getD e
    if gtok.isSome then fallThrough s1 e 8
    else match resultTok vals none with
      | some tok => .next (raiseFaultTok s e0 tok)
      | none =>
        match vaultCheck s1 e.cl e.g.iid (vals.headD default).v32 0 8 8 .write with
        | .error c => .next (raiseFault s e0 c 2)
        | .ok hit =>
          if !vPresent (s1.vault hit.cl) hit.off 8 then parkOut s e0 (presencePark hit 8)
          else if vFailed (s1.vault hit.cl) (hit.off / 64) then .next (raiseFault s1 (e0.refresh s1) 0x0C 2)
          else if (s1.vault hit.cl).marks.contains (hit.off / 64) then .next (raiseFault s1 (e0.refresh s1) 0x0B 2)
          else
            let n := match v with
              | .imm x => x.toNat
              | .reg _ => (vals.getD 1 default).v64.toNat
            let s2 := vaultStore (clearEnrol s1 hit.cl hit.off) hit.cl hit.off (leBytes 8 (n % 2 ^ 62)) (siteOf e)
            .next (s2.modThread e.tid fun t => advance t 8)

/-- BUOYW waits for a zero count and reads the word in the same access (R246). -/
def execBuoyw (h : Head) (dst : Reg) (a : Src) (s : State) : Out :=
  withSrcs s h 8 [{ src := a }] [{ reg := dst, words := 2 }] fun s1 e vals gtok =>
    match resultTok vals gtok with
    | some tok => finish s1 e 8 dst (poisonWords tok 2) s
    | none =>
      match vaultCheck s1 e.cl e.g.iid (vals.headD default).v32 0 8 8 .read with
      | .error c =>
        if h.sp then finish s1 e 8 dst (poisonWords (mkToken c 2 e.t.pc.offset) 2) s
        else .next (raiseFault s ((s.env? e.tid).getD e) c 2)
      | .ok hit =>
        if !vPresent (s1.vault hit.cl) hit.off 8 then parkOut s ((s.env? e.tid).getD e) (presencePark hit 8)
        else match buoyRead s1 hit.cl hit.off (siteOf e) with
          | (s2, .error c) =>
            let (s3, ws) := vaultTok s2 e hit.cl hit.off c 2
            finish s3 (e.refresh s3) 8 dst ws s
          | (s2, .ok w) =>
            if buoyCount w = 0 then finish s2 (e.refresh s2) 8 dst (cleanWords (valWords 2 w)) s
            else parkOut s2 (e.refresh s2) (.buoyw hit.cl hit.off dst)

end Sys2Proof.Machine
end

