-- ==== Sys2Proof/Machine/Wake.lean ====
section
/-! DEFINITION. Wake.lean: how a parked thread comes to run again (R90, R91): ready, to try its instruction once more, or past
it with its result, once what it waits for has come. -/

namespace Sys2Proof.Machine

open Sys2Proof

/-- A parked thread tries its instruction again. -/
def wakeRetry (s : State) (e : Env) : State := s.setThread e.tid { e.t with status := .ready }

/-- Whether the wait of a park that only tries again is over (R90). `false` for the parks that end in another way. -/
def parkOver (s : State) (e : Env) (p : Park) : Bool :=
  let t := e.t
  match p with
  | .full r => (regAt t r).readable
  | .pending r => (regAt t r).pend = .no && !(regAt t r).lent
  | .pop q n => portBinding e q = .unbound || (popWords s t.gid e.tid q n).isSome
  | .push q n => (match portBinding e q with
    | .ring cgid num => (pushWords s cgid num e.tid q (List.replicate n 0)).isSome
    | _ => true)
  | .give tid r => (match tget? s.threads tid with
    | some x => x.status = .exited || ((regAt x r).pend = .no && !(regAt x r).lent)
    | none => true)
  | .vault cl first n => (List.range n).all fun i => vFailed (s.vault cl) (first + i) || !(s.vault cl).absent.contains (first + i)
  | .moving f => !s.moving.any fun m => m.2.1 = f
  | .collapse l => !s.collapsing.contains l
  | .barNext b phase => (e.g.bars.getD b {}).phase ≠ phase
  | .port q => !portHeld s e.g t.gid q
  | .ring cgid num => (match findRing s cgid num with
    | some (_, r) => r.reserved = [] && r.opens = []
    | none => true)
  | .count255 => !count255 t
  | .copyRoom cl => ((s.cluster cl).copies.filter fun c => !c.started).length < 64
  | .slotCopies n => !slotInFlight s n
  | .settle ids => !s.clusters.any fun u => u.2.copies.any fun c => ids.contains c.id
  | .signSet cv n => n < (cvOf e.g cv).serial
  | .matRoom cl q => ((s.cluster cl).mqs.getD q []).length < 4
  | .lnInflight world obj lvl uv rev =>
    !s.lantern.any fun x => !x.valid && x.world = world && x.obj = obj && x.level = lvl && x.uv = uv && x.rev = rev
  | .lnAge w => (match tget? s.worlds w with
    | some x => !x.ageing
    | none => true)
  | _ => false

/-- A check of a Buoy address for an arrival or a wait: the place, the code of a failed check, or none while its line is absent. -/
def buoyPlace (s : State) (e : Env) (a : Word) (m : VMode) : Option (Except Nat VHit) :=
  match vaultCheck s e.cl e.g.iid a 0 8 8 m with
  | .error c => some (.error c)
  | .ok h => if vPresent (s.vault h.cl) h.off 8 then some (.ok h) else none

/-- The arrival of BARA.BUOY and BARS.BUOY at its Buoy (R206); the wait half of BARS.BUOY ends a quantum of its own (log entry 88). -/
def arriveBuoy (s : State) (e : Env) (len : Nat) (a : Word) (thenWait : Bool) : State :=
  match buoyPlace s e a .write with
  | none => s
  | some (.error c) => raiseFault s e c 2
  | some (.ok h) =>
    match buoyRead s h.cl h.off (siteOf e) with
    | (s1, .error c) => raiseFault (wakeBuoys s1 h.cl) e c 2
    | (s1, .ok _) =>
      let s2 := if thenWait then s1.setThread e.tid (endQuantum e.t (.buoyWait len a)) else wakeNext s1 e.tid len
      buoyDown s2 h.cl h.off 1 false

/-- The arrival of BARX (R242): at zero the enrolled groups' windows take their shadows' records. -/
def arriveBarx (s : State) (e : Env) (len : Nat) (a : Word) : State :=
  match buoyPlace s e a .write with
  | none => s
  | some (.error c) => raiseFault s e c 2
  | some (.ok h) =>
    match buoyRead s h.cl h.off (siteOf e) with
    | (s1, .error c) => raiseFault (wakeBuoys s1 h.cl) e c 2
    | (s1, .ok w) =>
      if buoyCount w = 0 then buoyWrite (wakeNext s1 e.tid len) h.cl h.off (w ||| 2 ^ 62)
      else
        let u := s1.cluster h.cl
        let s2 := s1.setCluster h.cl { u with enrol := if u.enrol.contains (h.off, e.g.cgid) then u.enrol else u.enrol ++ [(h.off, e.g.cgid)] }
        let s3 := s2.setThread e.tid (parkThread e.t (.barxWait len h.cl h.off))
        if buoyCount w = 1 then
          let groups := ((s3.cluster h.cl).enrol.filter fun x => x.1 = h.off).map (·.2)
          buoyWrite (clearEnrol (swapWindows s3 groups) h.cl h.off) h.cl h.off (w - 1)
        else buoyWrite s3 h.cl h.off (w - 1)

/-- A wait on a Buoy ends if it stands at zero or cannot be read (R206, R242, R246). -/
def pollBuoy (s : State) (e : Env) : State :=
  match parkedBuoy s e with
  | none => (match e.t.status with
    | .parked (.buoyWait _ a) => (match buoyPlace s e a .read with
      | some (.error c) => raiseFault s e c 2
      | _ => s)
    | _ => s)
  | some (cl, off) =>
    if !vPresent (s.vault cl) off 8 then s
    else match buoyRead s cl off (siteOf e) with
      | (s1, .ok w) => if buoyCount w = 0 then endBuoyWait s1 e (.ok w) else s1
      | (s1, .error c) => endBuoyWait s1 e (.error c)

/-- A thread's bounded wait ends with the tag of its watched register (R105). -/
def endTryw (s : State) (e : Env) (len : Nat) (pd : BitVec 3) (v : Bool) : State :=
  s.setThread e.tid { advance (writePred e.t pd v none) len with status := .ready }

/-- A parked thread moves if what it waits for has come. -/
def wakeThread (s : State) (e : Env) (p : Park) : State :=
  match p with
  | .fence len lvl items => if waitsFor e.t lvl items then s else wakeNext s e.tid len
  | .tryw len pd r _ => if (regAt e.t r).readable then endTryw s e len pd true else s
  | .barPhase len b phase => if barrierPassed e b phase then wakeNext s e.tid len else s
  | .buoyArrive len lvl a thenWait items => if waitsFor e.t lvl items then s else arriveBuoy s e len a thenWait
  | .barxArrive len lvl a items => if waitsFor e.t lvl items then s else arriveBarx s e len a
  | .buoyWait .. | .barxWait .. | .buoyw .. => pollBuoy s e
  | .rendezvous .. => resolveMeets s e.t.gid
  | .regs _ => regsResolve s e.t.gid
  | .regsGrow _ => regsTry s e.t.gid
  | .maint ids len =>
    if e.t.items.any (fun i => ids.contains i.id) then s
    else (wakeNext s e.tid len).modThread e.tid fun t => { t with fetched := [] }
  | .mwait clr cv dst ops sets => if mwaitDone (cvOf e.g cv) ops sets then mwaitEnd s e clr cv dst else s
  | .lnfil len dst world obj uv key items =>
    if waitsFor e.t .domain items || (dstWait s e { reg := dst }).isSome then s
    else
      let r := fillTile s e.cx world obj uv key
      wakeNext (writeDst r.1 e dst [(r.2, false)]) e.tid len
  | .lnWalk which dst world heap obj rev target thr p0 cursor n => walkStep s e which dst world heap obj rev target thr p0 cursor n
  | .mtsr num v => wakeNext (sysWrite s e num v) e.tid 8
  | .post target pd fill ref card items => if waitsFor e.t .domain items then s else postOut s e target pd fill ref card
  | p => if parkOver s e p then wakeRetry s e else s

/-- THREAD_WAKE: a parked thread of a context that runs goes on once its park's condition holds (R90, R91). -/
def execThreadWake (tid : Nat) (s : State) : Out :=
  match s.env? tid with
  | none => .next s
  | some e =>
    match e.t.status with
    | .parked p => .next (if engineRuns s e.cx then wakeThread s e p else s)
    | _ => .next s

/-- TRYW_TIMEOUT: the bound has passed in cycles of the thread's core (R105). -/
def execTrywTimeout (tid : Nat) (s : State) : Out :=
  match s.env? tid with
  | none => .next s
  | some e =>
    match e.t.status with
    | .parked (.tryw len pd r deadline) =>
      if engineRuns s e.cx && deadline ≤ (s.coreUnit e.g.core).clk then .next (endTryw s e len pd (regAt e.t r).readable) else .next s
    | _ => .next s

end Sys2Proof.Machine
end

