-- ==== Sys2Proof/Machine/Dispatch.lean ====
section
/-! DEFINITION. Dispatch.lean: the meaning of every instruction of Syntax.lean, one arm each. -/

namespace Sys2Proof.Machine

open Sys2Proof

def exec (i : Instr) (s : State) : Host.Outcome State Fault Refusal :=
  match i with
  | .nop h => Sys2Proof.Machine.execNop h s
  | .br h imm prio => Sys2Proof.Machine.execBr h imm prio s
  | .brl h imm prio => Sys2Proof.Machine.execBrl h imm prio s
  | .call h link imm prio => Sys2Proof.Machine.execCall h link imm prio s
  | .calll h link imm prio => Sys2Proof.Machine.execCalll h link imm prio s
  | .jmpr h link tgt prio => Sys2Proof.Machine.execJmpr h link tgt prio s
  | .ret h tgt prio => Sys2Proof.Machine.execRet h tgt prio s
  | .yield h => Sys2Proof.Machine.execYield h s
  | .exit h => Sys2Proof.Machine.execExit h s
  | .prio h p => Sys2Proof.Machine.execPrio h p s
  | .tryw h pd watched bound => Sys2Proof.Machine.execTryw h pd watched bound s
  | .trap h code => Sys2Proof.Machine.execTrap h code s
  | .trapSp h w64 dst code => Sys2Proof.Machine.execTrapSp h w64 dst code s
  | .rett h => Sys2Proof.Machine.execRett h s
  | .chk h src => Sys2Proof.Machine.execChk h src s
  | .brk h num => Sys2Proof.Machine.execBrk h num s
  | .p64Pair h s0 s1 => Sys2Proof.Machine.execP64Pair h s0 s1 s
  | .w96Pair h sa sb => Sys2Proof.Machine.execW96Pair h sa sb s
  | .iadd o => Sys2Proof.Machine.execIadd o s
  | .isub o => Sys2Proof.Machine.execIsub o s
  | .imul o => Sys2Proof.Machine.execImul o s
  | .imulh o => Sys2Proof.Machine.execImulh o s
  | .imad o => Sys2Proof.Machine.execImad o s
  | .idiv o => Sys2Proof.Machine.execIdiv o s
  | .irem o => Sys2Proof.Machine.execIrem o s
  | .imin o => Sys2Proof.Machine.execImin o s
  | .imax o => Sys2Proof.Machine.execImax o s
  | .iabs o => Sys2Proof.Machine.execIabs o s
  | .iand o => Sys2Proof.Machine.execIand o s
  | .ior o => Sys2Proof.Machine.execIor o s
  | .ixor o => Sys2Proof.Machine.execIxor o s
  | .lut3 h table dst a b c => Sys2Proof.Machine.execLut3 h table dst a b c s
  | .shl o => Sys2Proof.Machine.execShl o s
  | .shr o => Sys2Proof.Machine.execShr o s
  | .sar o => Sys2Proof.Machine.execSar o s
  | .rot o => Sys2Proof.Machine.execRot o s
  | .bfx h w64 sgn dst a f => Sys2Proof.Machine.execBfx h w64 sgn dst a f s
  | .bfi o => Sys2Proof.Machine.execBfi o s
  | .popc o => Sys2Proof.Machine.execPopc o s
  | .clz o => Sys2Proof.Machine.execClz o s
  | .brev o => Sys2Proof.Machine.execBrev o s
  | .isetp h w64 sgn cond pd a b => Sys2Proof.Machine.execIsetp h w64 sgn cond pd a b s
  | .sel h w64 dst p neg a b => Sys2Proof.Machine.execSel h w64 dst p neg a b s
  | .lea h dst base disp => Sys2Proof.Machine.execLea h dst base disp s
  | .mov h w64 dst a => Sys2Proof.Machine.execMov h w64 dst a s
  | .plop h table pd pa pb pc => Sys2Proof.Machine.execPlop h table pd pa pb pc s
  | .idot4 o => Sys2Proof.Machine.execIdot4 o s
  | .idot2 o => Sys2Proof.Machine.execIdot2 o s
  | .movpRead h dst => Sys2Proof.Machine.execMovpRead h dst s
  | .movpWrite h mask a => Sys2Proof.Machine.execMovpWrite h mask a s
  | .movl h form dst imm => Sys2Proof.Machine.execMovl h form dst imm s
  | .iaddl h w64 sgn sat dst a imm => Sys2Proof.Machine.execIaddl h w64 sgn sat dst a imm s
  | .isetpl h w64 sgn cond pd a imm => Sys2Proof.Machine.execIsetpl h w64 sgn cond pd a imm s
  | .fadd o => Sys2Proof.Machine.execFadd o s
  | .fsub o => Sys2Proof.Machine.execFsub o s
  | .fmul o => Sys2Proof.Machine.execFmul o s
  | .ffma o => Sys2Proof.Machine.execFfma o s
  | .fmin o => Sys2Proof.Machine.execFmin o s
  | .fmax o => Sys2Proof.Machine.execFmax o s
  | .fneg o => Sys2Proof.Machine.execFneg o s
  | .fabs o => Sys2Proof.Machine.execFabs o s
  | .fsetp h ty fzo cond pd a b => Sys2Proof.Machine.execFsetp h ty fzo cond pd a b s
  | .fclass o => Sys2Proof.Machine.execFclass o s
  | .fdiv o => Sys2Proof.Machine.execFdiv o s
  | .fsqrt o => Sys2Proof.Machine.execFsqrt o s
  | .frcp o => Sys2Proof.Machine.execFrcp o s
  | .frsq o => Sys2Proof.Machine.execFrsq o s
  | .fexp2 o => Sys2Proof.Machine.execFexp2 o s
  | .flog2 o => Sys2Proof.Machine.execFlog2 o s
  | .fsin o => Sys2Proof.Machine.execFsin o s
  | .fcos o => Sys2Proof.Machine.execFcos o s
  | .ftanh o => Sys2Proof.Machine.execFtanh o s
  | .frnd o => Sys2Proof.Machine.execFrnd o s
  | .cvt o => Sys2Proof.Machine.execCvt o s
  | .cvts o => Sys2Proof.Machine.execCvts o s
  | .pack o => Sys2Proof.Machine.execPack o s
  | .unpk h ty dst a idx => Sys2Proof.Machine.execUnpk h ty dst a idx s
  | .fdot2 o => Sys2Proof.Machine.execFdot2 o s
  | .fscl o => Sys2Proof.Machine.execFscl o s
  | .fexpn o => Sys2Proof.Machine.execFexpn o s
  | .fusedSoftmax m e c st => Sys2Proof.Machine.execFusedSoftmax m e c st s
  | .vote h form p mask => Sys2Proof.Machine.execVote h form p mask s
  | .shfl o idx => Sys2Proof.Machine.execShfl o idx s
  | .shflGive h w64 dst a tgt => Sys2Proof.Machine.execShflGive h w64 dst a tgt s
  | .slup o dist => Sys2Proof.Machine.execSlup o dist s
  | .sldn o dist => Sys2Proof.Machine.execSldn o dist s
  | .cmpr o p => Sys2Proof.Machine.execCmpr o p s
  | .expd o p => Sys2Proof.Machine.execExpd o p s
  | .redc h op dst a mask => Sys2Proof.Machine.execRedc h op dst a mask s
  | .scan h op excl dst a mask => Sys2Proof.Machine.execScan h op excl dst a mask s
  | .xmatch o => Sys2Proof.Machine.execXmatch o s
  | .unif o => Sys2Proof.Machine.execUnif o s
  | .ld o => Sys2Proof.Machine.execLd o s
  | .ldl o => Sys2Proof.Machine.execLdl o s
  | .st o => Sys2Proof.Machine.execSt o s
  | .stl o => Sys2Proof.Machine.execStl o s
  | .cstr o => Sys2Proof.Machine.execCstr o s
  | .pref h xlat base disp policy hint => Sys2Proof.Machine.execPref h xlat base disp policy hint s
  | .bref h w64 dst idx off => Sys2Proof.Machine.execBref h w64 dst idx off s
  | .bqry h dst base => Sys2Proof.Machine.execBqry h dst base s
  | .cflush h inv base len => Sys2Proof.Machine.execCflush h inv base len s
  | .iinv h reach arg => Sys2Proof.Machine.execIinv h reach arg s
  | .fetchb h => Sys2Proof.Machine.execFetchb h s
  | .tlbiVa h base len => Sys2Proof.Machine.execTlbiVa h base len s
  | .tlbiCtx h => Sys2Proof.Machine.execTlbiCtx h s
  | .tlbiBuf h idx => Sys2Proof.Machine.execTlbiBuf h idx s
  | .tlbiBufall h => Sys2Proof.Machine.execTlbiBufall h s
  | .atom o => Sys2Proof.Machine.execAtom o s
  | .atomi o => Sys2Proof.Machine.execAtomi o s
  | .qend h => Sys2Proof.Machine.execQend h s
  | .fence h lvl => Sys2Proof.Machine.execFence h lvl s
  | .bara h b => Sys2Proof.Machine.execBara h b s
  | .barw h b => Sys2Proof.Machine.execBarw h b s
  | .bars h b => Sys2Proof.Machine.execBars h b s
  | .baraBuoy h lvl a => Sys2Proof.Machine.execBaraBuoy h lvl a s
  | .barwBuoy h a => Sys2Proof.Machine.execBarwBuoy h a s
  | .barsBuoy h lvl a => Sys2Proof.Machine.execBarsBuoy h lvl a s
  | .barx h lvl a => Sys2Proof.Machine.execBarx h lvl a s
  | .ldv o => Sys2Proof.Machine.execLdv o s
  | .stv o => Sys2Proof.Machine.execStv o s
  | .stx o => Sys2Proof.Machine.execStx o s
  | .atomv o => Sys2Proof.Machine.execAtomv o s
  | .presTest h pd a len => Sys2Proof.Machine.execPresTest h pd a len s
  | .presSet h a len => Sys2Proof.Machine.execPresSet h a len s
  | .presClr h a len => Sys2Proof.Machine.execPresClr h a len s
  | .presUnmk h a len => Sys2Proof.Machine.execPresUnmk h a len s
  | .vsplitSet h pd n => Sys2Proof.Machine.execVsplitSet h pd n s
  | .vsplitXopen h pd off len => Sys2Proof.Machine.execVsplitXopen h pd off len s
  | .vsplitXclose h => Sys2Proof.Machine.execVsplitXclose h s
  | .vsplitRing h dst base cfg => Sys2Proof.Machine.execVsplitRing h dst base cfg s
  | .vsplitRfree h num => Sys2Proof.Machine.execVsplitRfree h num s
  | .buoys h a v => Sys2Proof.Machine.execBuoys h a v s
  | .buoyw h dst a => Sys2Proof.Machine.execBuoyw h dst a s
  | .fsetSet h w64 dst => Sys2Proof.Machine.execFsetSet h w64 dst s
  | .fsetClr h w64 dst => Sys2Proof.Machine.execFsetClr h w64 dst s
  | .kset h w64 dst v => Sys2Proof.Machine.execKset h w64 dst v s
  | .regs h pd n => Sys2Proof.Machine.execRegs h pd n s
  | .qbind h q a => Sys2Proof.Machine.execQbind h q a s
  | .qstat h dst q => Sys2Proof.Machine.execQstat h dst q s
  | .qclose h q a => Sys2Proof.Machine.execQclose h q a s
  | .mfsr h dst num => Sys2Proof.Machine.execMfsr h dst num s
  | .mtsr h num a => Sys2Proof.Machine.execMtsr h num a s
  | .xcopy h a disp => Sys2Proof.Machine.execXcopy h a disp s
  | .keyld h dst base slot disp => Sys2Proof.Machine.execKeyld h dst base slot disp s
  | .keyldClr h dst slot => Sys2Proof.Machine.execKeyldClr h dst slot s
  | .post h target pd base fill disp => Sys2Proof.Machine.execPost h target pd base fill disp s
  | .mmaF64 o => Sys2Proof.Machine.execMmaF64 o s
  | .mmaF32 o => Sys2Proof.Machine.execMmaF32 o s
  | .mmaBf16 o => Sys2Proof.Machine.execMmaBf16 o s
  | .mmaF16 o => Sys2Proof.Machine.execMmaF16 o s
  | .mmaE4m3 o => Sys2Proof.Machine.execMmaE4m3 o s
  | .mmaE5m2 o => Sys2Proof.Machine.execMmaE5m2 o s
  | .mmaE3m2 o => Sys2Proof.Machine.execMmaE3m2 o s
  | .mmaE2m3 o => Sys2Proof.Machine.execMmaE2m3 o s
  | .mmaE2m1 o => Sys2Proof.Machine.execMmaE2m1 o s
  | .mmaI8 o => Sys2Proof.Machine.execMmaI8 o s
  | .mmaI4 o => Sys2Proof.Machine.execMmaI4 o s
  | .matrixStep cl => Sys2Proof.Machine.execMatrixStep cl s
  | .matrixSetDiscard gid cv => Sys2Proof.Machine.execMatrixSetDiscard gid cv s
  | .mwait h clr cv dst => Sys2Proof.Machine.execMwait h clr cv dst s
  | .mtrn h w cv dst a => Sys2Proof.Machine.execMtrn h w cv dst a s
  | .mqnt h ty b32 nosat cv dst a sc => Sys2Proof.Machine.execMqnt h ty b32 nosat cv dst a sc s
  | .mclr h acc cv a => Sys2Proof.Machine.execMclr h acc cv a s
  | .mstat h clr dst => Sys2Proof.Machine.execMstat h clr dst s
  | .travi h flags w root => Sys2Proof.Machine.execTravi h flags w root s
  | .trav h dst w base inst n => Sys2Proof.Machine.execTrav h dst w base inst n s
  | .thitAcc h w bary inst => Sys2Proof.Machine.execThitAcc h w bary inst s
  | .thitRej h w => Sys2Proof.Machine.execThitRej h w s
  | .tri h cull dst w base disp => Sys2Proof.Machine.execTri h cull dst w base disp s
  | .tbox h slot dst w base disp => Sys2Proof.Machine.execTbox h slot dst w base disp s
  | .tstk h w base disp => Sys2Proof.Machine.execTstk h w base disp s
  | .lnlk h dst obj uv key => Sys2Proof.Machine.execLnlk h dst obj uv key s
  | .lnlkW h dst obj uv key => Sys2Proof.Machine.execLnlkW h dst obj uv key s
  | .lnfil h dst obj uv key => Sys2Proof.Machine.execLnfil h dst obj uv key s
  | .lninvKey h dst obj uv key => Sys2Proof.Machine.execLninvKey h dst obj uv key s
  | .lninvObj h dst obj key => Sys2Proof.Machine.execLninvObj h dst obj key s
  | .lninvRev h dst obj key => Sys2Proof.Machine.execLninvRev h dst obj key s
  | .lnage h dst key target thr => Sys2Proof.Machine.execLnage h dst key target thr s
  | .smpg h dst imp seed pos => Sys2Proof.Machine.execSmpg h dst imp seed pos s
  | .smpgGrid h dst imp pos => Sys2Proof.Machine.execSmpgGrid h dst imp pos s
  | .longLatencyWriteback tid aid => Sys2Proof.Machine.execLongLatencyWriteback tid aid s
  | .threadWake tid => Sys2Proof.Machine.execThreadWake tid s
  | .trywTimeout tid => Sys2Proof.Machine.execTrywTimeout tid s
  | .foghornTrap core => Sys2Proof.Machine.execFoghornTrap core s
  | .boundaryClose iid key => Sys2Proof.Machine.execBoundaryClose iid key s
  | .acknowledge fid => Sys2Proof.Machine.execAcknowledge fid s
  | .faultRecordPost rid => Sys2Proof.Machine.execFaultRecordPost rid s
  | .readDupCollapse leaf => Sys2Proof.Machine.execReadDupCollapse leaf s
  | .demotionSweep tier => Sys2Proof.Machine.execDemotionSweep tier s
  | .tierPointerWrite tier v => Sys2Proof.Machine.execTierPointerWrite tier v s
  | .copyStart cl => Sys2Proof.Machine.execCopyStart cl s
  | .copyLine cl pick => Sys2Proof.Machine.execCopyLine cl pick s
  | .decryptTagCheck cl => Sys2Proof.Machine.execDecryptTagCheck cl s
  | .parityUpdate cl grp => Sys2Proof.Machine.execParityUpdate cl grp s
  | .vaultScrub cl line => Sys2Proof.Machine.execVaultScrub cl line s
  | .groupTransition cl grp => Sys2Proof.Machine.execGroupTransition cl grp s
  | .vaultRemap cl => Sys2Proof.Machine.execVaultRemap cl s
  | .scratchGrantLower cl => Sys2Proof.Machine.execScratchGrantLower cl s
  | .budgetPick point => Sys2Proof.Machine.execBudgetPick point s
  | .budgetPeriodStart point => Sys2Proof.Machine.execBudgetPeriodStart point s
  | .budgetTableWrite table entries => Sys2Proof.Machine.execBudgetTableWrite table entries s
  | .dramPatrolScrub line => Sys2Proof.Machine.execDramPatrolScrub line s
  | .remoteRead stack rid frame off => Sys2Proof.Machine.execRemoteRead stack rid frame off s
  | .remoteWrite stack rid frame off data => Sys2Proof.Machine.execRemoteWrite stack rid frame off data s
  | .submitDoorbell ctx ref => Sys2Proof.Machine.execSubmitDoorbell ctx ref s
  | .cardPlace qid cores => Sys2Proof.Machine.execCardPlace qid cores s
  | .headWaitExpiry qid => Sys2Proof.Machine.execHeadWaitExpiry qid s
  | .domainCardForward ctx ref card => Sys2Proof.Machine.execDomainCardForward ctx ref card s
  | .coreGroupComplete gid => Sys2Proof.Machine.execCoreGroupComplete gid s
  | .cardComplete iid => Sys2Proof.Machine.execCardComplete iid s
  | .noticeDeliver nid => Sys2Proof.Machine.execNoticeDeliver nid s
  | .partitionControlWrite part blk => Sys2Proof.Machine.execPartitionControlWrite part blk s
  | .sweepWindowEnd => Sys2Proof.Machine.execSweepWindowEnd s
  | .preempt ctx => Sys2Proof.Machine.execPreempt ctx s
  | .resume ctx => Sys2Proof.Machine.execResume ctx s
  | .reset ctx => Sys2Proof.Machine.execReset ctx s
  | .drainDeadline ctx => Sys2Proof.Machine.execDrainDeadline ctx s
  | .checkpoint ctx => Sys2Proof.Machine.execCheckpoint ctx s
  | .checkpointDeadline ctx => Sys2Proof.Machine.execCheckpointDeadline ctx s
  | .resumePlace ctx iid cores => Sys2Proof.Machine.execResumePlace ctx iid cores s
  | .create ctx desc => Sys2Proof.Machine.execCreate ctx desc s
  | .destroy ctx => Sys2Proof.Machine.execDestroy ctx s
  | .killContext ctx => Sys2Proof.Machine.execKillContext ctx s
  | .lossRecordPush ctx => Sys2Proof.Machine.execLossRecordPush ctx s
  | .share ctx a0 => Sys2Proof.Machine.execShare ctx a0 s
  | .s2inv ctx a0 a1 => Sys2Proof.Machine.execS2inv ctx a0 a1 s
  | .grant ctx a0 a1 => Sys2Proof.Machine.execGrant ctx a0 a1 s
  | .wcreate ctx a0 a1 => Sys2Proof.Machine.execWcreate ctx a0 a1 s
  | .wdestroy ctx a0 => Sys2Proof.Machine.execWdestroy ctx a0 s
  | .bindvf ctx a0 => Sys2Proof.Machine.execBindvf ctx a0 s
  | .djoin ctx a0 a1 => Sys2Proof.Machine.execDjoin ctx a0 a1 s
  | .qpcreate qpn a0 => Sys2Proof.Machine.execQpcreate qpn a0 s
  | .qpstate qpn a0 a1 => Sys2Proof.Machine.execQpstate qpn a0 a1 s
  | .qpdestroy qpn => Sys2Proof.Machine.execQpdestroy qpn s
  | .qpDoorbell ctx v => Sys2Proof.Machine.execQpDoorbell ctx v s
  | .rdmaIncoming qpn op raddr len data cmp swap imm => Sys2Proof.Machine.execRdmaIncoming qpn op raddr len data cmp swap imm s
  | .ethModeWrite port v => Sys2Proof.Machine.execEthModeWrite port v s
  | .fabricIdentityWrite v => Sys2Proof.Machine.execFabricIdentityWrite v s
  | .fabricPortDown port => Sys2Proof.Machine.execFabricPortDown port s
  | .fabricIngress die dev op pa data => Sys2Proof.Machine.execFabricIngress die dev op pa data s
  | .registerWrite off bytes v => Sys2Proof.Machine.execRegisterWrite off bytes v s
  | .vfFlr vf => Sys2Proof.Machine.execVfFlr vf s
  | .pfFlr => Sys2Proof.Machine.execPfFlr s
  | .conventionalReset => Sys2Proof.Machine.execConventionalReset s
  | .fatalError => Sys2Proof.Machine.execFatalError s
  | .powerUp => Sys2Proof.Machine.execPowerUp s
  | .powerLimit watts => Sys2Proof.Machine.execPowerLimit watts s
  | .firmwareUpdate image => Sys2Proof.Machine.execFirmwareUpdate image s
  | .tdiEnterRun tdi => Sys2Proof.Machine.execTdiEnterRun tdi s
  | .tdiLeaveRun tdi => Sys2Proof.Machine.execTdiLeaveRun tdi s
  | .ideIntegrityFail tdi => Sys2Proof.Machine.execIdeIntegrityFail tdi s
  | .cflushIinvCompletion tid item => Sys2Proof.Machine.execCflushIinvCompletion tid item s
  | .islandFrequencyStep island raise => Sys2Proof.Machine.execIslandFrequencyStep island raise s
  | .flitForward dev line => Sys2Proof.Machine.execFlitForward dev line s
  | .fabricPortUp port => Sys2Proof.Machine.execFabricPortUp port s
  | .mainRailsDown => Sys2Proof.Machine.execMainRailsDown s
  | .spdmRequest req => Sys2Proof.Machine.execSpdmRequest req s
  | .tdiLock tdi => Sys2Proof.Machine.execTdiLock tdi s
  | .qpCompletion qpn ok data => Sys2Proof.Machine.execQpCompletion qpn ok data s

end Sys2Proof.Machine
end

