-- ==== Sys2Proof/Machine/Sched.lean ====
section
/-! DEFINITION. Sched.lean: what a turn does: one thread's issue (R46, R53, R54, R88), a core's cycle with its frontier
(R87 to R92) and Foghorn (R94), a step of the opcode table, or a hidden action. -/

namespace Sys2Proof.Machine

open Sys2Proof

/-! ## One thread's issue -/

/-- The trap of an illegal encoding: TFAUX holds the step of R53 (R54, R367). -/
def illegal (s : State) (e : Env) (x : IllAt) : Out :=
  .next (raise s e { cause := x.cause.code, aux := BitVec.ofNat 32 x.step })

/-- Issues the instruction at a thread's program counter: fetched, decoded and executed, or the four of R153 fused. -/
def issue (s : State) (e : Env) : Out :=
  match fetchInstr s e e.t.pc with
  | (s1, .error m) => fetchMiss s1 (e.refresh s1) m
  | (s1, .ok w) =>
    match decodeWord e.t.handler w with
    | .error x => illegal s1 (e.refresh s1) x
    | .ok i =>
      match fusedAt s1 (e.refresh s1) i with
      | some (s2, f) => exec f s2
      | none => exec i s1

/-- One thread moves: it continues the re-injection of a RETT, or issues (R372). -/
def runThread (s : State) (tid : Nat) : Out :=
  let s := { s with cur := tid }
  match s.env? tid with
  | none => .next s
  | some e =>
    if e.t.status ≠ .ready || !engineRuns s e.cx || heldByCore s e then .next s
    else
      let v := sysView s e.cx
      sysBack s e.cx (if e.t.reinject then reinjectOut v e else issue v e)

/-! ## Hidden actions -/

/-- What a hidden action does. -/
def runHidden (h : Hidden) (s : State) : State :=
  match h with
  | .prefetch tid => match s.env? tid with
    | some e => prefetchParcel s e
    | none => s
  | .tlbEvict cl i => let u := s.cluster cl; s.setCluster cl { u with tlb := dropAt u.tlb i }
  | .bufEvict cl i => let u := s.cluster cl; s.setCluster cl { u with bufs := dropAt u.bufs i }
  | .l2Evict line => evictL2 s line
  | .victimEvict line => evictVictim s line
  | .icacheEvict core i => let u := s.coreUnit core; s.setCore core { u with icache := dropAt u.icache i }
  | .l1Clean fid => { s with flights := s.flights.map fun f => if f.id = fid then { f with inL2 := true } else f }
  | .vaultError cl line =>
    let u := s.cluster cl
    s.setCluster cl { u with vault := { u.vault with bad := setAdd u.vault.bad line } }
  | .dramError line => { s with badLines := setAdd s.badLines line }
  | .stateError tid => match s.env? tid with
    | some e => noticeKill s e.cx 1 (killWords 0 0 (refWord e.t.pc) 0 e.g.core)
    | none => s
  | .inject i => { s with injected := s.injected ++ [i] }
  | .corrected die unit => if die < 4 && unit < 16 then countCorrectable s die unit else s
  | .matRead cl vcl line => readAhead s cl (vcl, line)
  | .xbarCycle die => { s with xclk := listMod s.xclk die (· + 1) }
  | .bells cx => serveBells cx ((s.ctx cx).bells.length) s
  | .domainKill d => killDomain s 512 d
  | .cxlPoison port off => { s with marks := setAdd s.marks (cxlAddr port off / 64) }
  | .badCommand qp n => badCommand qp n s
  | .barRead off bytes => readBar s off bytes
  | .vfRead vf off bytes => vfReadBar s vf off bytes
  | .vfWrite vf off bytes v => vfWriteBar s vf off bytes v
  | .aerClear fn => clearAer s fn
  | .hostWrite a bs => if a + bs.length ≤ 2 ^ 51 then pokeBytes s noContext (hostBase + a) bs else s

/-! ## The frontier -/

/-- Whether one entry ranks before another (R87). -/
def before (a b : Cand) : Bool :=
  if a.eff ≠ b.eff then b.eff < a.eff
  else if a.t.pc.offset ≠ b.t.pc.offset then a.t.pc.offset.toNat < b.t.pc.offset.toNat
  else if a.t.pc.index ≠ b.t.pc.index then a.t.pc.index.toNat < b.t.pc.index.toNat
  else if a.g.order ≠ b.g.order then a.g.order < b.g.order
  else a.t.tix < b.t.tix

/-- The first of a list under `before`. -/
def firstCand : List Cand → Option Cand
  | [] => none
  | c :: cs => match firstCand cs with
    | none => some c
    | some d => if before d c then some d else some c

/-- Sorts by thread index. -/
def insertTix (c : Cand) : List Cand → List Cand
  | [] => [c]
  | d :: ds => if c.t.tix < d.t.tix then c :: d :: ds else d :: insertTix c ds

/-- The bundle of a core: the ready threads of the highest entry in ascending `tix`, at most 64 (R88). -/
def bundleOf (s : State) (core : Nat) : List Cand :=
  let cs := cands s core
  match firstCand cs with
  | none => []
  | some c => ((cs.filter fun d => keyOf d.t = keyOf c.t && d.eff = c.eff).foldr insertTix []).take 64

/-- Takes the entries that have issued, parked or emptied out of the sets Y of a core (R92). -/
def settleDemotions (s : State) (core : Nat) (issued : Option EntryKey) : State :=
  let live := liveKeys s core
  { s with threads := tmap (fun _ t => match t.demoted with
      | none => t
      | some y =>
        match tget? s.groups t.gid with
        | some g =>
          if g.core = core then
            let y1 := y.filter fun k => live.contains k && some k ≠ issued
            { t with demoted := if y1.isEmpty then none else some y1 }
          else t
        | none => t) s.threads }

/-! ## A core's cycle -/

/-- Executes a bundle on a copy of the state, to see what it would do (R94). -/
def trialRun (s : State) : List Nat → State
  | [] => s
  | t :: ts => match runThread s t with
    | .next s1 => trialRun s1 ts
    | _ => trialRun s ts

/-- Whether a bundle parks, yields or ends one of its threads. -/
def quietens (s1 : State) (b : List Cand) : Bool :=
  b.any fun c => match tget? s1.threads c.tid with
    | some t => t.status ≠ .ready
    | none => true

/-- Cycles and issues a bundle takes: two for a fused sequence, else one (R154). -/
def bundleCycles (s : State) (b : List Cand) : Nat :=
  match b with
  | [] => 1
  | c :: _ => match s.env? c.tid with
    | some e => match (peek s e 0).2 with
      | some i => if (fusedAt s e i).isSome then 2 else 1
      | none => 1
    | none => 1

/-- One core cycle: the clock, the choice of a bundle, Foghorn's counter and its test (R87, R88, R92, R94). -/
def coreCycle (s : State) (core : Nat) : State :=
  match bundleOf s core with
  | [] =>
    let u := s.coreUnit core
    settleDemotions (s.setCore core { u with clk := u.clk + 1, quiet := 0, last := none, fog := [] }) core none
  | c :: cs =>
    let b := c :: cs
    let u := s.coreUnit core
    let cls := (c.t.gid, c.eff)
    let n := bundleCycles s b
    let quiet := (if quietens (trialRun s (b.map (·.tid))) b || u.last ≠ some cls then 1 else u.quiet + 1) + (n - 1)
    let lim := match s.env? c.tid with
      | some e => (s.ctx e.cx).foglim.toNat
      | none => 0
    let fires := lim ≠ 0 && max lim 1024 < quiet && b.all fun d => !d.t.handler
    let fog := if fires then ((cands s core).filter fun d => d.t.gid = cls.1 && d.eff = cls.2).map (·.tid) else []
    let s1 := s.setCore core { u with clk := u.clk + n, quiet := quiet, last := some cls, fog := fog }
    let turns := if fires then [Turn.event (.foghornTrap core)] else b.map fun d => Turn.thread d.tid
    settleDemotions { s1 with agenda := s1.agenda ++ turns } core (some (keyOf c.t))

/-! ## Turns -/

/-- The rows that are steps of the device, of its host or of a link, and no thread's instruction. -/
def isEvent : Instr → Bool
  | .matrixStep .. | .matrixSetDiscard .. | .longLatencyWriteback .. | .threadWake .. | .trywTimeout .. | .foghornTrap ..
  | .boundaryClose .. | .acknowledge .. | .faultRecordPost .. | .readDupCollapse .. | .demotionSweep .. | .tierPointerWrite ..
  | .copyStart .. | .copyLine .. | .decryptTagCheck .. | .parityUpdate .. | .vaultScrub .. | .groupTransition ..
  | .vaultRemap .. | .scratchGrantLower .. | .budgetPick .. | .budgetPeriodStart .. | .budgetTableWrite .. | .dramPatrolScrub ..
  | .remoteRead .. | .remoteWrite .. | .submitDoorbell .. | .cardPlace .. | .headWaitExpiry .. | .domainCardForward ..
  | .coreGroupComplete .. | .cardComplete .. | .noticeDeliver .. | .partitionControlWrite .. | .sweepWindowEnd | .preempt ..
  | .resume .. | .reset .. | .drainDeadline .. | .checkpoint .. | .checkpointDeadline .. | .resumePlace .. | .create ..
  | .destroy .. | .killContext .. | .lossRecordPush .. | .share .. | .s2inv .. | .grant .. | .wcreate .. | .wdestroy ..
  | .bindvf .. | .djoin .. | .qpcreate .. | .qpstate .. | .qpdestroy .. | .qpDoorbell .. | .rdmaIncoming .. | .ethModeWrite ..
  | .fabricIdentityWrite .. | .fabricPortDown .. | .fabricIngress .. | .registerWrite .. | .vfFlr .. | .pfFlr
  | .conventionalReset | .fatalError | .powerUp | .powerLimit .. | .firmwareUpdate .. | .tdiEnterRun .. | .tdiLeaveRun ..
  | .ideIntegrityFail .. | .cflushIinvCompletion .. | .islandFrequencyStep .. | .flitForward .. | .fabricPortUp ..
  | .mainRailsDown | .spdmRequest .. | .tdiLock .. | .qpCompletion .. => true
  | _ => false

/-- What a turn does. -/
def runTurn (s : State) (t : Turn) : Out :=
  match t with
  | .coreCycle core => if core < 1024 && !s.stopped then .next (coreCycle s core) else .next s
  | .thread tid => runThread s tid
  | .event i => if isEvent i then exec i s else .next s
  | .hidden h => .next (runHidden h s)

/-- A turn from outside: a thread moves of itself only while its RETT re-injects; else its core takes a cycle (R88, R372). -/
def freeTurn (s : State) : Turn → Turn
  | .thread tid => match s.env? tid with
    | some e => if e.t.reinject then .thread tid else .coreCycle e.g.core
    | none => .thread tid
  | t => t

/-- The next turn: the first of the agenda, else whatever comes next from outside (log entry 1). -/
def nextTurn (s : State) : Turn × List Turn :=
  match s.agenda with
  | t :: ts => (t, ts)
  | [] => (freeTurn s (Config.turn s.tick), [])

end Sys2Proof.Machine
end

