-- ==== Sys2Proof/Machine/Step.lean ====
section
/-! DEFINITION. Step.lean: the one step of the machine, and the placement of an instruction where the next step fetches. -/

namespace Sys2Proof.Machine

open Sys2Proof

/-- One step: the next turn, on the state whose counter of free values has moved on. -/
def step (s : State) : Host.Outcome State Fault Refusal :=
  runTurn { s with agenda := (nextTurn s).2, tick := s.tick + 1 } (nextTurn s).1

/-- Places an instruction where the next step fetches (log entry 1): as a job placed from outside would, it makes context 0 run
one thread on core 0, with its program counter at the first byte of buffer 0, whose page is translated and whose code is the
instruction followed by zeros. Handler mode only for an instruction that no other mode may run. -/
def State.withFetchWord (s : State) (nbits w : Nat) : State :=
  let bs := natBytes 12 (w % 2 ^ nbits)
  let hm := match decode false bs with
    | .ok _ => false
    | .error _ => true
  let n := s.fresh
  let th : Thread := { gid := n + 1, tix := 0, pc := { index := 0, offset := 0 }, regs := List.replicate 192 {}, handler := hm }
  let g : CoreGroup := { iid := n + 3, cgid := n + 2, core := 0, nregs := 192 }
  let i : Inst := { q := { (default : QCard) with ctx := 0 }, tsz := 1, csz := 1, ksz := 1, bsz := 1, dsz := 1 }
  let tr : TlbE := { ctx := 0, vpage := 0, ipage := 0, ppage := 0, r1 := true, w1 := true, x1 := true, r2 := true, w2 := true, x2 := true
                     sh := false, dup := false, leaf := 0 }
  -- a valid entry: base 0, length 4096, owner 0, rights R, W and X
  let entry : BitVec 256 := BitVec.ofNat 256 (2 ^ 63 + 4096 * 2 ^ 64 + 7 * 2 ^ 108)
  let u := s.cluster 0
  let code := cellsAt 0 bs
  { s with
    cur := n, fresh := n + 4, agenda := [.thread n], power := .ready, stopped := false
    threads := tput s.threads n th
    groups := tput s.groups (n + 1) g
    cgroups := tput s.cgroups (n + 2) { iid := n + 3, cluster := 0 }
    insts := tput s.insts (n + 3) i
    ctxs := tput s.ctxs 0 { s.ctx 0 with state := .run, kill := none, bcount := max 1 (s.ctx 0).bcount }
    clusters := tput s.clusters 0 { u with tlb := tr :: u.tlb, bufs := ((0, 0), entry) :: u.bufs }
    cores := tput s.cores 0 { s.coreUnit 0 with icache := [] }
    lines := s.lines.filter fun l => l.line ≠ 0
    flights := dropCells s.flights code
    mem := memWrites s.mem code
    marks := setDel s.marks 0
    badLines := setDel s.badLines 0 }

end Sys2Proof.Machine
end

