-- ==== Sys2Proof/Safety.lean ====
section
/-! DEFINITION. Safety.lean: the terms in which the statements speak: a safe outcome, operands that are at hand, what a
turn starts from, and the invariant of memory. -/

namespace Sys2Proof.Machine

open Sys2Proof

/-- A safe outcome: a next state, not a fault and not a refusal. -/
def Answers (o : Out) : Prop := ∃ t, o = .next t

/-- The thread registers that sources name. -/
def srcRegs (srcs : List SrcReq) : List Nat := srcs.flatMap fun q => xRegs q.src.reg q.words

/-- The thread registers that destinations name. -/
def dstRegs (dsts : List DstReq) : List Nat := dsts.flatMap fun d => xRegs d.reg d.words

/-- The current thread stands in `e`, and its guard is true and unpoisoned (R46). -/
structure Enabled (s : State) (e : Env) (h : Head) : Prop where
  here : s.env? s.cur = some e
  guardClean : (predAt e.t h.pg).tok = none
  guardTrue : guardVal e.t h = true

/-- The current thread may proceed past R46's preparation: its guard is true and unpoisoned, every thread register named lies
below n (R43), every source register is full, the ports among the sources have the words asked for, and every destination can be
written. `s1` is the state after the ports are popped (`s` itself when no source is a port) and `vals` are the values read. -/
structure Ready (s : State) (e : Env) (h : Head) (srcs : List SrcReq) (dsts : List DstReq) (s1 : State) (vals : List SrcVal)
    (extra : List Nat := []) : Prop extends Enabled s e h where
  range : allocated e (srcRegs srcs ++ dstRegs dsts ++ extra) = true
  full : ∀ q ∈ srcs, ∀ n ∈ xRegs q.src.reg q.words, (regAt e.t n).readable = true
  reads : readAll e h s srcs = .ok (s1, vals)
  writable : ∀ d ∈ dsts, dstWait s e d = none

/-- No value read is poisoned. -/
def Unpoisoned (vals : List SrcVal) : Prop := ∀ v ∈ vals, v.tok = none

/-- The state a turn acts on: the turn is taken from the agenda and the counter of turns has moved on. -/
def turnState (s : State) (rest : List Turn) : State := { s with agenda := rest, tick := s.tick + 1 }

/-- The bytes of memory are in their one form: addresses rise strictly and none is listed as zero. -/
def MemCanonical (s : State) : Prop := Memory.wf s.mem = true

/-- What a trap leaves in its thread, by R367 to R370: the frame, the handler's place, and the instructions captured for replay with
their destinations held; everything else stands. -/
structure TrapFrame (t0 t : Thread) (base : Word64) (r : Raise) : Prop where
  handler : t.handler = true
  status : t.status = .ready
  pcIndex : t.pc.index = base.extractLsb' 40 24
  pcOffset : t.pc.offset = base.extractLsb' 0 40 &&& ~~~3#40
  cause : t.tfcause = 0#11 ++ t0.prio ++ BitVec.ofNat 8 r.code ++ BitVec.ofNat 8 r.cause
  token : t.tftoken = r.token
  aux : t.tfaux = r.aux
  pc : t.tfpc = t0.pc.index ++ (t0.pc.offset + BitVec.ofNat 40 r.pcOff)
  replay : t.replay = (t0.accs.filter Acc.unperformed).map Captive.acc ++ r.extra
  count : t.tfrqn = BitVec.ofNat 32 t.replay.length
  accs : t.accs = t0.accs.filter fun a => !a.unperformed
  held : ∀ a ∈ t0.accs, a.unperformed = true → ∀ n ∈ a.dst, n < t0.regs.length → (regAt t n).held = true ∧ (regAt t n).readable = false
  kept : ∀ n, (∀ a ∈ t0.accs, a.unperformed = true → n ∉ a.dst) → regAt t n = regAt t0 n
  rest : t.gid = t0.gid ∧ t.tix = t0.tix ∧ t.prio = t0.prio ∧ t.preds = t0.preds ∧ t.flags = t0.flags ∧ t.cvts = t0.cvts ∧ t.sb = t0.sb ∧
    t.items = t0.items ∧ t.tfs0 = t0.tfs0 ∧ t.tfs1 = t0.tfs1 ∧ t.ended = t0.ended ∧ t.arrivals = t0.arrivals ∧
    t.barPhases = t0.barPhases ∧ t.demoted = t0.demoted ∧ t.fetched = t0.fetched ∧ t.firstTok = t0.firstTok

/-- The instructions of a thread that begin with R46's guard, with their heads and their lengths in bytes (R22); the fused pattern
of R153 is four instructions and is none of them. -/
def guarded : Instr → Option (Head × Nat)
  | .nop h | .br h .. | .call h .. | .jmpr h .. | .ret h .. | .yield h | .exit h | .prio h .. | .tryw h .. | .trap h ..
    | .trapSp h .. | .rett h | .chk h .. | .brk h .. | .p64Pair h .. | .lut3 h .. | .bfx h .. | .isetp h .. | .sel h ..
    | .lea h .. | .mov h .. | .plop h .. | .movpRead h .. | .movpWrite h .. | .fsetp h .. | .unpk h .. | .vote h ..
    | .shflGive h .. | .redc h .. | .scan h .. | .pref h .. | .bref h .. | .bqry h .. | .cflush h .. | .iinv h .. | .fetchb h
    | .tlbiVa h .. | .tlbiCtx h | .tlbiBuf h .. | .tlbiBufall h | .qend h | .fence h .. | .bara h .. | .barw h .. | .bars h ..
    | .baraBuoy h .. | .barwBuoy h .. | .barsBuoy h .. | .barx h .. | .presTest h .. | .presSet h .. | .presClr h ..
    | .presUnmk h .. | .vsplitSet h .. | .vsplitXopen h .. | .vsplitXclose h | .vsplitRing h .. | .vsplitRfree h .. | .buoys h ..
    | .buoyw h .. | .fsetSet h .. | .fsetClr h .. | .kset h .. | .regs h .. | .qbind h .. | .qstat h .. | .qclose h ..
    | .mfsr h .. | .mtsr h .. => some (h, 8)
  | .brl h .. | .calll h .. | .w96Pair h .. | .movl h .. | .iaddl h .. | .isetpl h .. | .xcopy h .. | .keyld h .. | .keyldClr h ..
    | .post h .. | .mwait h .. | .mtrn h .. | .mqnt h .. | .mclr h .. | .mstat h .. | .travi h .. | .trav h .. | .thitAcc h ..
    | .thitRej h .. | .tri h .. | .tbox h .. | .tstk h .. | .lnlk h .. | .lnlkW h .. | .lnfil h .. | .lninvKey h ..
    | .lninvObj h .. | .lninvRev h .. | .lnage h .. | .smpg h .. | .smpgGrid h .. => some (h, 12)
  | .iadd o | .isub o | .imul o | .imulh o | .idiv o | .irem o | .imin o | .imax o | .iand o | .ior o | .ixor o | .shl o | .shr o
    | .sar o | .rot o => some (o.h, 8)
  | .imad o | .bfi o | .idot4 o | .idot2 o => some (o.h, 8)
  | .iabs o | .popc o | .clz o | .brev o => some (o.h, 8)
  | .fadd o | .fsub o | .fmul o | .fmin o | .fmax o | .fdiv o | .fscl o | .fexpn o => some (o.h, 8)
  | .ffma o | .fdot2 o => some (o.h, 8)
  | .fneg o | .fabs o | .fclass o | .fsqrt o | .frcp o | .frsq o | .fexp2 o | .flog2 o | .fsin o | .fcos o | .ftanh o | .frnd o => some (o.h, 8)
  | .cvt o | .cvts o => some (o.h, 8)
  | .pack o => some (o.h, 8)
  | .shfl o _ | .slup o _ | .sldn o _ | .cmpr o _ | .expd o _ | .xmatch o | .unif o => some (o.h, 8)
  | .ld o | .st o => some (o.h, 8)
  | .ldl o | .stl o => some (o.h, 12)
  | .cstr o => some (o.h, 8)
  | .atom o | .atomi o => some (o.h, 8)
  | .ldv o | .stv o | .stx o => some (o.h, 8)
  | .atomv o => some (o.h, 8)
  | .mmaF64 o | .mmaF32 o | .mmaBf16 o | .mmaF16 o | .mmaE4m3 o | .mmaE5m2 o | .mmaE3m2 o | .mmaE2m3 o | .mmaE2m1 o | .mmaI8 o
    | .mmaI4 o => some (o.h, 12)
  | _ => none

/-- The instructions that decode step 6 allows in handler mode only, all of them or for some register numbers (R53). -/
def handlerOnly : Instr → Bool
  | .rett .. | .tlbiVa .. | .tlbiCtx .. | .tlbiBuf .. | .tlbiBufall .. | .mfsr .. | .mtsr .. | .keyld .. | .keyldClr .. => true
  | _ => false

/-- The instructions whose false guard still reads a member mask (R46, R111). -/
def meets : Instr → Bool
  | .vote .. | .shfl .. | .slup .. | .sldn .. | .cmpr .. | .expd .. | .redc .. | .scan .. | .xmatch .. | .unif .. | .cstr .. => true
  | _ => false

/-- The arithmetic operation that an instruction is, with its head and its length (R137 to R156). -/
def arith : Instr → Option (Head × Nat × AluTask)
  | .idiv o => some (o.h, 8, taskIdiv o)
  | .irem o => some (o.h, 8, taskIrem o)
  | .fdiv o => some (o.h, 8, taskFdiv o)
  | .fsqrt o => some (o.h, 8, taskFsqrt o)
  | .movl h form dst imm => some (h, 12, taskMovl form dst imm)
  | .iaddl h w64 sgn sat dst a imm => some (h, 12, taskIaddl w64 sgn sat dst a imm)
  | .isetpl h w64 sgn cond pd a imm => some (h, 12, taskIsetpl w64 sgn cond pd a imm)
  | i => (guarded i).bind fun g => (aluTask i).map fun k => (g.1, g.2, k)

/-- The two operations of a pair, with its head and its length (R32 to R38). -/
def pairOf? : Instr → Option (Head × Nat × AluTask × AluTask)
  | .p64Pair h s0 s1 => (slotTask h s0).bind fun k0 => (slotTask h s1).map fun k1 => (h, 8, k0, k1)
  | .w96Pair h a b => (aluTask (a.instr h)).bind fun k0 => (aluTask (b.instr h)).map fun k1 => (h, 12, k0, k1)
  | _ => none

/-- The values an operation takes: those read, a P64 immediate in the place of the last (R34). -/
def taken (k : AluTask) (vals : List SrcVal) : List SrcVal :=
  match k.subst with
  | some (j, w) => vals.set j { words := [w], tok := none }
  | none => vals

/-- What an arithmetic operation computes from, once its sources are read (R46, R67, R75); `j` counts the CVTS before it in its
instruction. -/
def aluInput (s : State) (e : Env) (j : Nat) (k : AluTask) (vals : List SrcVal) : AluIn :=
  { vals := taken k vals, preds := k.preds.map fun p => (predAt e.t p).val, ftz := (s.ctx e.cx).ftz
    draw := if k.draws then cvtsDraw (s.ctx e.cx).seed (gixOf e.inst e.g e.t.tix) (e.t.cvts.toNat + j) 0 else 0 }

/-- No source of an arithmetic operation is poisoned, and no shadow unit is made to disagree (R152). -/
structure AluClean (s : State) (e : Env) (k : AluTask) (vals : List SrcVal) : Prop where
  vals : Unpoisoned (taken k vals)
  preds : ∀ p ∈ k.preds, (predAt e.t p).tok = none
  shadow : k.shadowed = true → takeShadow s.injected = none

/-- The words that a result is in a register destination: a value, or a token made at an offset of the program counter. -/
def resWords (off : BitVec 40) (m : Nat) : AluRes → List (Word × Bool)
  | .val v _ => cleanWords (valWords m v)
  | .token c => poisonWords (mkToken c 0 off) m
  | _ => []

/-- The result of an operation in its destination: registers, a port, `zr`, a predicate or the predicates of a mask. -/
def putResult (s : State) (tid : Nat) (d : ADst) (r : AluRes) : State :=
  match s.env? tid, d, r with
  | some e, .reg g m, r => writeDst s e g (resWords e.t.pc.offset m r)
  | some e, .pred p, .pred b _ => s.setThread tid (writePred e.t p b none)
  | some e, .mask m, .val v _ => s.setThread tid (writeMask e.t m v none)
  | _, _, _ => s

/-- Where the result of an operation goes: its destination at once, or pending until the write-back if it is a long-latency producer
or popped a port into a thread register (R123). -/
def putLanded (s : State) (tid : Nat) (sp : Bool) (k : AluTask) (vals : List SrcVal) (r : AluRes) : State :=
  match (k.landing vals).long, s.env? tid, k.dst with
  | some op, some e, .reg g m => issueAcc s e 0 op 0 sp (xRegs g m) (.done (resWords e.t.pc.offset m r))
  | _, _, _ => putResult s tid k.dst r

/-- The state after an instruction of some length has put its results: past it, with its flags and its count of CVTS. -/
def arithDone (s : State) (tid len : Nat) (fl : Flags) (draws : Nat) : State :=
  s.modThread tid fun t => { t with pc := pcAdd t.pc len, flags := t.flags ||| fl, cvts := t.cvts + BitVec.ofNat 64 draws }

/-- The arithmetic operations that have a value for every operand: all but the divisions by zero and LEA out of range. -/
def valued : Instr → Bool
  | .iadd _ | .isub _ | .imul _ | .imulh _ | .imad _ | .imin _ | .imax _ | .iabs _ | .iand _ | .ior _ | .ixor _ | .lut3 .. | .shl _
    | .shr _ | .sar _ | .rot _ | .bfx .. | .bfi _ | .popc _ | .clz _ | .brev _ | .isetp .. | .sel .. | .mov .. | .plop .. | .idot4 _
    | .idot2 _ | .movpRead .. | .movpWrite .. | .fadd _ | .fsub _ | .fmul _ | .ffma _ | .fmin _ | .fmax _ | .fneg _ | .fabs _
    | .fsetp .. | .fclass _ | .frcp _ | .frsq _ | .fexp2 _ | .flog2 _ | .fsin _ | .fcos _ | .ftanh _ | .frnd _ | .cvt _ | .cvts _
    | .pack _ | .unpk .. | .fdot2 _ | .fscl _ | .fexpn _ | .fdiv _ | .fsqrt _ | .movl .. | .iaddl .. | .isetpl .. => true
  | _ => false

/-- The flags of a result. -/
def flagsOf : AluRes → Flags
  | .val _ fl => fl
  | .pred _ fl => fl
  | _ => 0

/-- A result that is a value of the kind its destination takes: no fault and no token. -/
def resultFor (d : ADst) (r : AluRes) : Bool :=
  match d, r with
  | .reg .., .val .. => true
  | .pred _, .pred .. => true
  | .mask _, .val .. => true
  | _, _ => false

/-- A destination that is a thread register or `zr`: every destination but a port. -/
def Lands (r : Reg) : Prop := r = .s .zr ∨ ∃ n, r = .x n

/-- A thread after words are written to a destination from register `r` on; `zr` discards them (R39, R47). -/
def landed (t : Thread) (r : Reg) (ws : List (Word × Bool)) : Thread :=
  match r with
  | .x n => writeRegs t n ws
  | _ => t

/-- With which opcode a result lands as a long-latency producer's: its own, or that of a popped operand in a thread register (R123). -/
def landOp (r : Reg) (op : Option (BitVec 8)) (popped : Bool) : Option (BitVec 8) :=
  match op, r with
  | none, .x _ => if popped then some 0 else none
  | op, _ => op

/-- The state after an instruction of some length has produced words for a destination: written at once, or pending until the
write-back of a long-latency producer of opcode `op` (R123). -/
def produced (s : State) (e : Env) (sp : Bool) (r : Reg) (ws : List (Word × Bool)) (op : Option (BitVec 8)) (len : Nat := 8) : State :=
  match op with
  | none => s.setThread e.tid { landed e.t r ws with pc := pcAdd e.t.pc len }
  | some op =>
    let a : Acc := { id := s.fresh, kind := .done ws, dst := xRegs r ws.length, quantum := e.quantum, off := e.t.pc.offset
                     op := op, fmt := 0, sp := sp }
    { s with fresh := s.fresh + 1 }.setThread e.tid
      { (xRegs r ws.length).foldl (fun t r => setPending t r .other) e.t with pc := pcAdd e.t.pc len, accs := e.t.accs ++ [a] }

/-- A thread after a long-latency instruction of some length has issued: its destinations are pending (R123). -/
def issued (t : Thread) (len : Nat) (a : Acc) : Thread :=
  { a.dst.foldl (fun t n => setPending t n .other) t with pc := pcAdd t.pc len, accs := t.accs ++ [a] }

/-- The thread after one more entry stands in its store buffer; the 64th ends the quantum (R187). -/
def buffered (t : Thread) (len : Nat) (en : SbEntry) : Thread :=
  if t.sb.length + 1 < 64 then { t with pc := pcAdd t.pc len, sb := t.sb ++ [en] }
  else { t with pc := pcAdd t.pc len, sb := t.sb ++ [en], status := .parked (.boundary (.next 0)), fetched := [], ended := true }

/-- What an access finds when it may go ahead (R161, R165): `t` is the state after translation. -/
def Reaches (s : State) (e : Env) (ref : Ref) (disp : Int) (size : Nat) (k : AKind) (t : State) (hit : Hit) : Prop :=
  access s e.cl e.cx ref disp size size k = (t, .ok hit)

/-- A thread that has passed its meet: it is ready at the next instruction, and its arrival is counted (R111). -/
def passed (t t1 : Thread) : Thread :=
  let here := (t.pc.index, t.pc.offset)
  { t1 with pc := pcAdd t.pc 8, status := .ready, fetched := []
            arrivals := (here, ((t.arrivals.find? fun a => a.1 = here).map (·.2)).getD 0 + 1) :: t.arrivals.filter fun a => a.1 ≠ here }

/-- `t` is `s` with one thread replaced; of the rest, only the meets of its own core group may differ. -/
structure OnlyMoves (s t : State) (e : Env) (th : Thread) : Prop where
  threads : ∀ j, tget? t.threads j = if j = e.tid then some th else tget? s.threads j
  groups : ∀ g, g ≠ e.t.gid → tget? t.groups g = tget? s.groups g
  own : ∃ g, tget? t.groups e.t.gid = some g ∧ g = { e.g with rdv := g.rdv }
  rest : t = { s with threads := t.threads, groups := t.groups }

/-- The thread is the one member that its mask names, and no meet of its core group is open (R110, R111). -/
structure Alone (e : Env) (m : SrcVal) : Prop where
  clean : m.tok = none
  mask : m.v64 = BitVec.ofNat 64 (2 ^ (e.t.tix % 64))
  open_ : e.g.rdv = []
  fresh : e.t.reinject = false

/-- A vault without errors: no group has lost a bank, no line is marked or uncorrectable, nothing waits (R225 to R230). -/
structure VaultSound (v : Vault) : Prop where
  healthy : ∀ g, (vGrp v g).st = .healthy ∧ (vGrp v g).pendingRetire = none
  home : v.remapped = none
  good : v.bad = []
  unmarked : v.marks = []
  canonical : Memory.wf v.bytes = true

/-- An access of a vault that may go ahead: its checks pass, its vault has no errors, its line is present (R216, R220). -/
structure VaultReach (s : State) (e : Env) (a : Word) (disp : Int) (size : Nat) (m : VMode) (h : VHit) : Prop where
  check : vaultCheck s e.cl e.g.iid a disp size size m = .ok h
  sound : VaultSound (s.vault h.cl)
  present : ∀ l, l = h.off / 64 → l ∉ (s.vault h.cl).absent
  line : h.off % 64 + size ≤ 64

/-- No thread waits on a Buoy. -/
def NoBuoyWaiter (s : State) : Prop := ∀ i e, s.env? i = some e → parkedBuoy s e = none

/-- The bytes of a vault at an offset. -/
def vaultBytes (s : State) (cl off n : Nat) : List Byte := (List.range n).map fun i => vPeek (s.vault cl) (off + i)

/-- `t` has the vault bytes of `s` but for `bs` at one place; presence, split and marks of every vault stand. -/
def VaultWritten (s t : State) (cl off : Nat) (bs : List Byte) : Prop :=
  (∀ c o, vPeek (t.vault c) o = if c = cl ∧ off ≤ o ∧ o < off + bs.length then bs.getD (o - off) 0 else vPeek (s.vault c) o) ∧
  ∀ c, (t.vault c).absent = (s.vault c).absent ∧ (t.vault c).marks = (s.vault c).marks ∧ (t.vault c).split = (s.vault c).split

/-- A line of the device's own memory that a load of an observer reads as it stands: in L2, unmarked, in a frame of one hash. -/
structure Readable (s : State) (o : Obs) (pa : Nat) : Prop where
  hbm : isHbm pa = true
  held : ∃ l, findLine s.lines (pa / 64) = some l ∧ l.victim = false
  clean : s.viewMarked o (pa / 64) = false
  plain : clashing s pa = false

/-- The MMA that an instruction is, with the code of its A type (R284). -/
def mmaOf : Instr → Option (Nat × MmaO)
  | .mmaF64 o => some (0, o)
  | .mmaF32 o => some (1, o)
  | .mmaBf16 o => some (2, o)
  | .mmaF16 o => some (3, o)
  | .mmaE4m3 o => some (4, o)
  | .mmaE5m2 o => some (5, o)
  | .mmaE3m2 o => some (6, o)
  | .mmaE2m3 o => some (7, o)
  | .mmaE2m1 o => some (8, o)
  | .mmaI8 o => some (9, o)
  | .mmaI4 o => some (10, o)
  | _ => none

/-- B's type code, and the elements of a row, of an MMA. -/
def mmaB (aty : Nat) (o : MmaO) : Nat := (matB? aty o.bty).getD aty

/-- Registers that the A, B and C operands of an MMA name. -/
def mmaA (aty : Nat) (o : MmaO) : Nat := if o.aVault then 2 else fragWords aty (mmaK aty (mmaB aty o))
def mmaBn (aty : Nat) (o : MmaO) : Nat := if o.bVault then 2 else fragWords (mmaB aty o) (mmaK aty (mmaB aty o))
def mmaC (aty : Nat) (o : MmaO) : Nat := if o.cVault then 2 else cWords aty

/-- The sources of an MMA: A, B, its scales, and C where it is read (R279). -/
def mmaSrcs (aty : Nat) (o : MmaO) : List SrcReq :=
  [{ src := o.a, words := mmaA aty o }, { src := o.b, words := mmaBn aty o }] ++
    (o.sc.map fun x => { src := x, words := if o.scale = 3 then 16 else 2 : SrcReq }).toList ++
    (if o.cVault || o.acc then [{ src := { reg := o.c, wait := true }, words := mmaC aty o }] else [])

/-- The destination of an MMA: its C fragment. -/
def mmaDsts (aty : Nat) (o : MmaO) : List DstReq := if o.cVault then [] else [{ reg := o.c, words := mmaC aty o }]

/-- The fragment registers that an MMA lends to the engine until its set resolves (R281). -/
def mmaLent (aty : Nat) (o : MmaO) : List Nat :=
  (if o.aVault then [] else xRegs o.a.reg (mmaA aty o)) ++ (if o.bVault then [] else xRegs o.b.reg (mmaBn aty o))

/-- The vault operands of an MMA pass their checks (R279, R288). -/
def MmaPasses (s : State) (e : Env) (aty : Nat) (o : MmaO) (vals : List SrcVal) : Prop :=
  mmaChecks s e o aty (mmaB aty o) (vals.headD default).v64 (vals.getD 1 default).v64 (vals.getD (if o.sc.isSome then 3 else 2) default).v64
    (match o.sc with
      | some x => uniformCells e x.reg (vals.getD 2 default) (if o.scale = 3 then 16 else 2)
      | none => []) = none

/-- A fragment as it stands in a thread's registers. -/
def fragOf (t : Thread) (r : Reg) (n : Nat) : List (Word × Bool) := (xRegs r n).map fun i => ((regAt t i).val, (regAt t i).poison)

/-- A write at domain level, as every observer sees it: these bytes at one place, and every other byte as before. -/
structure Wrote (s t : State) (pa : Nat) (bs : List Byte) : Prop where
  bytes : ∀ o a, t.viewByte o a = if pa ≤ a ∧ a < pa + bs.length then bs.getD (a - pa) 0 else s.viewByte o a
  same : t.threads = s.threads ∧ t.groups = s.groups ∧ t.insts = s.insts ∧ t.cgroups = s.cgroups ∧ t.clusters = s.clusters ∧ t.cards = s.cards

end Sys2Proof.Machine
end

