-- ==== Sys2Proof/Certificates/Slice0/Obligations.lean ====
section
/-! DEFINITION. Obligations.lean: the statements about this hardware that are to be proved. Each says first which rules of
the spec it rests on. -/

open Sys2Proof Sys2Proof.Machine

/-- R46, R53, R367, R383. From every state, a step answers a next state: never a fault, never a refusal. -/
def Obligations.EveryStepAnswersANextState : Prop :=
  ∀ s : State, Answers (step s)

/-- R161, R182, R192, R256, R396. Every step keeps memory in its one canonical form. The form itself is the model's (log
entry 2: an unlisted byte of memory reads as zero). -/
def Obligations.MemoryKeepsItsForm : Prop :=
  ∀ s t : State, MemCanonical s → step s = .next t → MemCanonical t

/-- R181, R254, R258, R363, R406, R407. At reset memory has its form and the tables, modes and contexts have their power-up
values. -/
def Obligations.ResetLeavesTheStatedValues : Prop :=
  MemCanonical State.reset ∧ State.reset.power = .booting ∧ State.reset.stopped = false ∧ State.reset.plimit = 3200 ∧
    State.reset.tierPtr = [0, 0] ∧ State.reset.ethMode = [0, 0, 0, 0, 0] ∧ State.reset.threads = [] ∧ State.reset.cards = [] ∧
    (∀ cx, (State.reset.ctx cx).state = .free) ∧ (∀ n, tgetD 0 State.reset.acl n = 0) ∧
    (∀ t c, c < 16 → (State.reset.btable t).refused = false ∧ (c ≠ 8 → (State.reset.btable t).entries.getD c 0 = 0xFFFFFFFF00000000)) ∧
    (∀ i, i < 128 → tget? State.reset.freq i = none)

/-- R23, R26, R27, R31, R32, R36, R39, R53. For every well-formed instruction, decoding its encoded bytes gives it back, with
the rest of the code. -/
def Obligations.EncodedInstructionsDecodeToThemselves : Prop :=
  ∀ (i : Instr) (rest : List Byte), i.wf = true →
    decode true (parcelBytes (encode i) ++ rest) = .ok (i, rest) ∧
    (decode false (parcelBytes (encode i) ++ rest) = .ok (i, rest) ∨
      handlerOnly i = true ∧ decode false (parcelBytes (encode i) ++ rest) = .error (.illegal ⟨.op, 6⟩))

/-- R27, R32, R39, R96, R137, R143, R312, R330, R372, R375. The words that the spec works through decode to the instructions
it writes beside them. -/
def Obligations.WrittenWordsDecodeToTheirInstructions : Prop :=
  let h (n : BitVec 3) (neg : Bool) : Head := { pg := n, pn := neg, sp := false }
  let kept (n : Nat) : Src := { reg := .x n, wait := false }
  let waits (n : Nat) : Src := { reg := .x n, wait := true }
  decodeWord false 0x287FFF4000080088 = .ok (.br (h 2 false) (-6) 5) ∧
  decodeWord false 0x0000250090C2182C =
    .ok (.fadd { h := h 3 true, ty := .f32, rnd := .rz, fzo := false, clamp := false, dst := .x 12, a := kept 9, b := .reg (waits 40) }) ∧
  decodeWord false 0x50D090760304009D =
    .ok (.p64Pair (h 7 false) { op := .iadd, mdp := 0, d := .x 4, wd := true, s := .imm 3 } { op := .fmul, mdp := 0, d := .x 9, wd := true, s := .reg (waits 13) }) ∧
  decodeWord false 0x0041A0B04146161C =
    .ok (.idot4 { h := h 7 false, w := .w32, sgn := true, sat := true, dst := .x 20, a := waits 4, b := waits 5, c := waits 6 }) ∧
  decodeWord true 0x000002400068781C = .ok (.mfsr (h 7 false) (.x 6) 0x012) ∧
  decodeWord false 0x000000400021304A0140709F = .ok (.trav (h 7 false) (.x 40) (.x 64) (waits 4) (waits 9) 64) ∧
  decodeWord false 0x000000000021D0D86280741F = .ok (.lnlk (h 7 false) (.x 80) (waits 12) (waits 13) (waits 14)) ∧
  (∀ head : BitVec 7, head.extractLsb' 0 2 = 0 → head.extractLsb' 2 4 ≠ 15 →
    decodeWord false (0x0A#89 ++ head) = .error ⟨.op, 6⟩)

/-- R23, R24, R53, R154. A thread's step runs the instruction that its bytes decode to. The agenda of turns is the model's
(log entry 1). -/
def Obligations.StepRunsDecodedInstruction : Prop :=
  ∀ (s : State) (tid : Nat) (rest : List Turn) (e : Env) (s1 : State) (w : BitVec 96) (i : Instr) (s0 : State),
    nextTurn s = (.thread tid, rest) → s0 = { turnState s rest with cur := tid } → s0.env? tid = some e →
    e.t.status = .ready → engineRuns s0 e.cx = true → heldByCore s0 e = false → e.t.reinject = false →
    fetchInstr (sysView s0 e.cx) e e.t.pc = (s1, .ok w) →
    decodeWord e.t.handler w = .ok i →
    (fusedAt s1 (e.refresh s1) i = none → step s = sysBack s0 e.cx (exec i s1)) ∧
    (∀ s2 f, fusedAt s1 (e.refresh s1) i = some (s2, f) → step s = sysBack s0 e.cx (exec f s2))

/-- R53, R54, R367. Bits that do not decode raise their ILL trap, and a turn of the device runs its row. The agenda of turns
is the model's (log entry 1). -/
def Obligations.StepTrapsIllegalBitsAndRunsDeviceRows : Prop :=
  (∀ (s : State) (tid : Nat) (rest : List Turn) (e : Env) (s1 : State) (w : BitVec 96) (x : IllAt) (s0 : State),
    nextTurn s = (.thread tid, rest) → s0 = { turnState s rest with cur := tid } → s0.env? tid = some e →
    e.t.status = .ready → engineRuns s0 e.cx = true → heldByCore s0 e = false → e.t.reinject = false →
    fetchInstr (sysView s0 e.cx) e e.t.pc = (s1, .ok w) →
    decodeWord e.t.handler w = .error x →
    step s = sysBack s0 e.cx (.next (raise s1 (e.refresh s1) { cause := x.cause.code, aux := BitVec.ofNat 32 x.step }))) ∧
  (∀ (s : State) (i : Instr) (rest : List Turn), nextTurn s = (.event i, rest) → isEvent i = true →
    step s = exec i (turnState s rest))

/-- R101. NOP has no effect apart from the guard rules. -/
def Obligations.NopHasNoEffect : Prop :=
  ∀ (s : State) (e : Env) (h : Head), s.env? s.cur = some e →
    (∀ tok, (predAt e.t h.pg).tok = some tok → h.sp = false → exec (.nop h) s = .next (raisePoison s e tok 3)) ∧
    ((predAt e.t h.pg).tok = none ∨ h.sp = true → exec (.nop h) s = .next (s.setThread e.tid { e.t with pc := pcAdd e.t.pc 8 }))

/-- R104. PRIO sets its own thread's block priority, which the prio register reads. -/
def Obligations.PriorityIsSetAndRead : Prop :=
  ∀ (s : State) (e : Env) (h : Head) (p : BitVec 5), Enabled s e h →
    (∃ t, exec (.prio h p) s = .next t ∧ t = s.setThread e.tid { e.t with prio := p, pc := pcAdd e.t.pc 8 } ∧
      ∀ j x, j ≠ e.tid → tget? s.threads j = some x → (tget? t.threads j).map (·.prio) = some x.prio) ∧
    ∀ w : Bool, readSrc s e { src := ⟨.s .prio, w⟩ } = { words := [e.t.prio.setWidth 32], tok := none }

/-- R98. BR and BRL move the program counter and the priority, or fall through. -/
def Obligations.DirectBranchesMovePcAndPriority : Prop :=
  ∀ (s : State) (e : Env) (h : Head) (p : BitVec 5), s.env? s.cur = some e → (predAt e.t h.pg).tok = none →
    (guardVal e.t h = false →
      (∀ imm, exec (.br h imm p) s = .next (s.setThread e.tid { e.t with pc := pcAdd e.t.pc 8 })) ∧
      ∀ imm, exec (.brl h imm p) s = .next (s.setThread e.tid { e.t with pc := pcAdd e.t.pc 12 })) ∧
    (guardVal e.t h = true →
    (∀ imm : BitVec 18,
      (0 ≤ (e.t.pc.offset.toNat : Int) + 4 * imm.toInt → (e.t.pc.offset.toNat : Int) + 4 * imm.toInt < 2 ^ 40 →
        exec (.br h imm p) s = .next (s.setThread e.tid
          { e.t with pc := { e.t.pc with offset := BitVec.ofInt 40 ((e.t.pc.offset.toNat : Int) + 4 * imm.toInt) }, prio := p })) ∧
      ((e.t.pc.offset.toNat : Int) + 4 * imm.toInt < 0 ∨ 2 ^ 40 ≤ (e.t.pc.offset.toNat : Int) + 4 * imm.toInt →
        exec (.br h imm p) s = .next (raiseFault s e 0x03 0))) ∧
    (∀ imm : BitVec 32,
      (0 ≤ (e.t.pc.offset.toNat : Int) + 4 * imm.toInt → (e.t.pc.offset.toNat : Int) + 4 * imm.toInt < 2 ^ 40 →
        exec (.brl h imm p) s = .next (s.setThread e.tid
          { e.t with pc := { e.t.pc with offset := BitVec.ofInt 40 ((e.t.pc.offset.toNat : Int) + 4 * imm.toInt) }, prio := p })) ∧
      ((e.t.pc.offset.toNat : Int) + 4 * imm.toInt < 0 ∨ 2 ^ 40 ≤ (e.t.pc.offset.toNat : Int) + 4 * imm.toInt →
        exec (.brl h imm p) s = .next (raiseFault s e 0x03 0))))

/-- R25, R42, R97, R99, R100. CALL, CALLL and JMPR write the link and transfer; RET transfers to the reference read. -/
def Obligations.CallsAndRegisterTransfersMoveThePc : Prop :=
  (∀ (s : State) (e : Env) (h : Head) (p : BitVec 5),
    (∀ (n : Nat) (imm : BitVec 18), Ready s e h [] [{ reg := .x n, words := 2 }] s [] →
      0 ≤ (e.t.pc.offset.toNat : Int) + 4 * imm.toInt → (e.t.pc.offset.toNat : Int) + 4 * imm.toInt < 2 ^ 40 →
      exec (.call h (.x n) imm p) s = .next (s.setThread e.tid
        { writeRegs e.t n [((refWord (pcAdd e.t.pc 8)).setWidth 32, false), ((refWord (pcAdd e.t.pc 8)).extractLsb' 32 32, false)] with
          pc := { e.t.pc with offset := BitVec.ofInt 40 ((e.t.pc.offset.toNat : Int) + 4 * imm.toInt) }, prio := p })) ∧
    (∀ imm : BitVec 18, Enabled s e h →
      0 ≤ (e.t.pc.offset.toNat : Int) + 4 * imm.toInt → (e.t.pc.offset.toNat : Int) + 4 * imm.toInt < 2 ^ 40 →
      exec (.call h (.s .zr) imm p) s = .next (s.setThread e.tid
        { e.t with pc := { e.t.pc with offset := BitVec.ofInt 40 ((e.t.pc.offset.toNat : Int) + 4 * imm.toInt) }, prio := p })) ∧
    (∀ (n : Nat) (imm : BitVec 32), Ready s e h [] [{ reg := .x n, words := 2 }] s [] →
      0 ≤ (e.t.pc.offset.toNat : Int) + 4 * imm.toInt → (e.t.pc.offset.toNat : Int) + 4 * imm.toInt < 2 ^ 40 →
      exec (.calll h (.x n) imm p) s = .next (s.setThread e.tid
        { writeRegs e.t n [((refWord (pcAdd e.t.pc 12)).setWidth 32, false), ((refWord (pcAdd e.t.pc 12)).extractLsb' 32 32, false)] with
          pc := { e.t.pc with offset := BitVec.ofInt 40 ((e.t.pc.offset.toNat : Int) + 4 * imm.toInt) }, prio := p })) ∧
    (∀ imm : BitVec 32, Enabled s e h →
      0 ≤ (e.t.pc.offset.toNat : Int) + 4 * imm.toInt → (e.t.pc.offset.toNat : Int) + 4 * imm.toInt < 2 ^ 40 →
      exec (.calll h (.s .zr) imm p) s = .next (s.setThread e.tid
        { e.t with pc := { e.t.pc with offset := BitVec.ofInt 40 ((e.t.pc.offset.toNat : Int) + 4 * imm.toInt) }, prio := p }))) ∧
  (∀ (s : State) (e : Env) (h : Head) (tgt : Src) (p : BitVec 5) (s1 : State) (v : SrcVal),
    Ready s e h [{ src := tgt, words := 2 }] [] s1 [v] →
    (∀ tok, v.tok = some tok →
      exec (.ret h tgt p) s = .next (raise s (e.refresh s1) { cause := 9, code := tokCode tok, token := tok })) ∧
    (v.tok = none → (wordRef v.v64).offset.extractLsb' 0 2 ≠ 0 →
      exec (.ret h tgt p) s = .next (raise s (e.refresh s1) { cause := 5, aux := 12 })) ∧
    (v.tok = none → (wordRef v.v64).offset.extractLsb' 0 2 = 0 →
      exec (.ret h tgt p) s = .next (s1.modThread e.tid fun t => { t with pc := wordRef v.v64, prio := p }) ∧
      exec (.jmpr h (.s .zr) tgt p) s = exec (.ret h tgt p) s ∧
      ∀ n, Ready s e h [{ src := tgt, words := 2 }] [{ reg := .x n, words := 2 }] s1 [v] →
        exec (.jmpr h (.x n) tgt p) s = .next (s1.setThread e.tid
          { writeRegs (e.refresh s1).t n [((refWord (pcAdd (e.refresh s1).t.pc 8)).setWidth 32, false),
              ((refWord (pcAdd (e.refresh s1).t.pc 8)).extractLsb' 32 32, false)] with pc := wordRef v.v64, prio := p })))

/-- R102, R103, R105, R187, R198, R199. YIELD, QEND, FENCE, TRYW and EXIT end the quantum of their thread. -/
def Obligations.YieldQendFenceTrywAndExitEndTheQuantum : Prop :=
  ∀ (s : State) (e : Env) (h : Head), Enabled s e h →
    exec (.yield h) s = .next (s.setThread e.tid
      { e.t with status := .parked (.boundary (.yield 8)), fetched := [], ended := true }) ∧
    exec (.qend h) s = .next (s.setThread e.tid
      { e.t with status := .parked (.boundary (.next 8)), fetched := [], ended := true }) ∧
    (∀ lvl, exec (.fence h lvl) s = .next (s.setThread e.tid
      { e.t with status := .parked (.boundary (.fence 8 lvl [])), fetched := [], ended := true })) ∧
    (∀ (pd : BitVec 3) (n : Nat) (v : BitVec 18), n < e.g.nregs →
      exec (.tryw h pd (.x n) (.imm v)) s = .next (s.setThread e.tid
        { e.t with status := .parked (.boundary (.tryw 8 pd n v.toInt.toNat)), fetched := [], ended := true })) ∧
    (∃ t, exec (.exit h) s = .next t ∧
      t.threads = tput s.threads e.tid
        { e.t with status := .exited, ended := true, replay := [], demoted := none, fetched := [], reinject := false
                   items := e.t.items.filter fun i => !(capturedItems e.t.replay).contains i.id } ∧
      t.insts = tput s.insts e.g.iid { e.inst with nthr := e.inst.nthr + 1, flags := e.inst.flags ||| e.t.flags } ∧
      t.mem = s.mem ∧ t.ctxs = s.ctxs)

/-- R43, R46, R82, R84, R111. Guards, unallocated registers and empty sources decide before an instruction takes effect. -/
def Obligations.GuardsAndSourcesDecideFirst : Prop :=
  (∀ (s : State) (e : Env) (i : Instr) (h : Head) (len : Nat), guarded i = some (h, len) → meets i = false →
    s.env? s.cur = some e → (predAt e.t h.pg).tok = none → guardVal e.t h = false →
    exec i s = .next (s.setThread e.tid { e.t with pc := pcAdd e.t.pc len })) ∧
  (∀ (s : State) (e : Env) (i : Instr) (h : Head) (len : Nat) (tok : Word), guarded i = some (h, len) →
    s.env? s.cur = some e → (predAt e.t h.pg).tok = some tok → h.sp = false → captiveFull e.t = false →
    exec i s = .next (raisePoison s e tok 3)) ∧
  (∀ (s : State) (e : Env) (i : Instr) (h : Head) (len n w : Nat) (k : AluTask) (q : SrcReq) (rest : List SrcReq),
    arith i = some (h, len, k) → Enabled s e h → k.srcs = q :: rest → q.src.reg = .x n → q.words = w + 1 →
    allocated e (srcRegs k.srcs ++ dstRegs (dstReqs k.dst)) = true →
    (regAt e.t n).full = false → (regAt e.t n).held = false → (regAt e.t n).pend = .no →
    (q.src.wait = true →
      exec i s = .next (s.setThread e.tid { e.t with status := .parked (.full n), fetched := [] })) ∧
    (q.src.wait = false → h.sp = false →
      exec i s = .next (raise s e { cause := 7, aux := BitVec.ofNat 32 n })) ∧
    (q.src.wait = false → h.sp = true → rest = [] → k.preds = [] → ∀ d m, Lands d → k.dst = .reg d m → k.long = none → dstWait s e { reg := d, words := m } = none →
      exec i s = .next (s.setThread e.tid
        { landed e.t d (poisonWords (mkToken 0x07 0 e.t.pc.offset) m) with
          pc := pcAdd e.t.pc len, cvts := e.t.cvts + if k.draws then 1 else 0 }))) ∧
  (∀ (s : State) (e : Env) (i : Instr) (h : Head) (len : Nat) (k : AluTask), arith i = some (h, len, k) → Enabled s e h →
    allocated e (srcRegs k.srcs ++ dstRegs (dstReqs k.dst)) = false →
    exec i s = .next (raise s e { cause := 4, aux := 11 }))

/-- R367, R368, R369, R370, R374, R383. A trap writes the frame and enters the handler; in the handler, or without one, it
kills the context. -/
def Obligations.TrapsEnterTheHandlerOrKillTheContext : Prop :=
  (∀ (s : State) (e : Env) (r : Raise), e.t.handler = false → (s.ctx e.cx).trapbase.getLsbD 0 = true →
    ∃ t, raise s e r = s.setThread e.tid t ∧ TrapFrame e.t t (s.ctx e.cx).trapbase r) ∧
  (∀ (s : State) (e : Env) (r : Raise), (s.ctx e.cx).kill = none → (s.ctx e.cx).state ≠ .free → (s.ctx e.cx).state ≠ .lost →
    (e.t.handler = true →
      raise s e r = s.setCtx e.cx { s.ctx e.cx with kill := some (3, killWords 0 0 (refWord e.t.pc) (causeWord e.t r) e.g.core) }) ∧
    (e.t.handler = false → (s.ctx e.cx).trapbase.getLsbD 0 = false →
      raise s e r = s.setCtx e.cx { s.ctx e.cx with kill := some (4, killWords 0 0 (refWord e.t.pc) (causeWord e.t r) e.g.core) }))

/-- R84, R106, R108, R348, R367. TRAP raises SWT, CHK raises the poison it finds, a raise is counted, TRAP.sp writes a token.
-/
def Obligations.TrapsChecksAndTokensAreRaised : Prop :=
  (∀ (s : State) (e : Env) (h : Head), Enabled s e h → e.t.handler = false → (s.ctx e.cx).trapbase.getLsbD 0 = true →
    ∀ code : BitVec 8, ∃ t, exec (.trap h code) s = .next (s.setThread e.tid t) ∧
      TrapFrame e.t t (s.ctx e.cx).trapbase { cause := 13, token := code ++ 0#4 ++ e.t.pc.offset.extractLsb' 2 20, aux := code.setWidth 32, pcOff := 8 }) ∧
  (∀ (s : State) (e : Env) (h : Head), Enabled s e h →
    (∀ p : BitVec 3,
      ((predAt e.t p).tok = none → exec (.chk h (.pred p)) s = .next (s.setThread e.tid { e.t with pc := pcAdd e.t.pc 8 })) ∧
      (∀ tok, (predAt e.t p).tok = some tok → exec (.chk h (.pred p)) s = .next (raisePoison s e tok 0))) ∧
    (∀ (a : Src) (v : SrcVal), Ready s e h [{ src := a }] [] s [v] →
      (v.tok = none → exec (.chk h (.reg a)) s = .next (s.setThread e.tid { e.t with pc := pcAdd e.t.pc 8 })) ∧
      (∀ tok, v.tok = some tok → exec (.chk h (.reg a)) s = .next (raisePoison s e tok 0))) ∧
    ∀ n : Nat, n < e.g.nregs → (regAt e.t n).full = false → (regAt e.t n).held = false →
      exec (.chk h (.reg ⟨.x n, false⟩)) s = .next (raise s e { cause := 7, aux := BitVec.ofNat 32 n })) ∧
  (∀ (s : State) (e : Env) (tok : Word) (aux : Nat), s.env? e.tid = some e → e.t.handler = false →
    (s.ctx e.cx).trapbase.getLsbD 0 = true →
    ∃ t v, raisePoison s e tok aux = (s.setInst e.g.iid v).setThread e.tid t ∧
      TrapFrame { e.t with firstTok := some (e.t.firstTok.getD tok) } t (s.ctx e.cx).trapbase { cause := 8, token := tok, aux := BitVec.ofNat 32 aux } ∧
      v.ntok = min (e.inst.ntok + 1) 0xFFFFFFFF ∧ (e.inst.ftok = none → v.ftok = some (gixOf e.inst e.g e.t.tix, tok)) ∧
      v = { e.inst with ntok := v.ntok, ftok := v.ftok }) ∧
  (∀ (s : State) (e : Env) (h : Head) (w64 : Bool) (code : BitVec 8),
    (∀ n, Ready s e h [] [{ reg := .x n, words := if w64 then 2 else 1 }] s [] →
      exec (.trapSp h w64 (.x n) code) s = .next (s.setThread e.tid
        { writeRegs e.t n ((code ++ 0#4 ++ e.t.pc.offset.extractLsb' 2 20, true) :: if w64 then [(0, true)] else []) with
          pc := pcAdd e.t.pc 8 })) ∧
    (Enabled s e h → exec (.trapSp h w64 (.s .zr) code) s = .next (s.setThread e.tid { e.t with pc := pcAdd e.t.pc 8 })))

/-- R109. BRK raises BRK with its number as token and its own offset as TFPC. -/
def Obligations.BreakRaisesWithItsNumber : Prop :=
  ∀ (s : State) (e : Env) (h : Head) (num : BitVec 16), s.env? s.cur = some e → (predAt e.t h.pg).tok = none →
    (guardVal e.t h = false → exec (.brk h num) s = .next (s.setThread e.tid { e.t with pc := pcAdd e.t.pc 8 })) ∧
    (guardVal e.t h = true →
      exec (.brk h num) s = .next (raise s e { cause := 12, token := num.setWidth 32 }) ∧
      (e.t.handler = false → (s.ctx e.cx).trapbase.getLsbD 0 = true → ∃ t, exec (.brk h num) s = .next (s.setThread e.tid t) ∧
        t.tftoken = num.setWidth 32 ∧ t.tfpc = e.t.pc.index ++ e.t.pc.offset ∧ TrapFrame e.t t (s.ctx e.cx).trapbase { cause := 12, token := num.setWidth 32 }))

/-- R107, R372. RETT restores the priority, leaves handler mode and resumes at TFPC after re-injection. That the pc is set at
once, before the queue is re-injected one entry a turn, is the model's order (NOTES.md, Assumptions). -/
def Obligations.ReturnFromTrapRestores : Prop :=
  ∀ (s : State) (e : Env) (h : Head), Enabled s e h →
    exec (.rett h) s = .next (s.setThread e.tid
      { e.t with prio := e.t.tfcause.extractLsb' 16 5, handler := false, reinject := e.t.replay ≠ []
                 pc := { index := e.t.tfpc.extractLsb' 40 24, offset := e.t.tfpc.extractLsb' 0 40 } })

/-- R46, R67, R69, R75, R81, R123, R130, R136, R140. Every arithmetic form completes: it writes its result and flags and
nothing else, or pends, or traps after writing. -/
def Obligations.ArithmeticWritesItsDestinations : Prop :=
  (∀ (s : State) (e : Env) (i : Instr) (h : Head) (len : Nat) (k : AluTask) (s1 : State) (vals : List SrcVal) (r : AluRes),
    arith i = some (h, len, k) → Ready s e h k.srcs (dstReqs k.dst) s1 vals → AluClean s1 (e.refresh s1) k vals →
    (h.sp = true ∨ (s1.ctx e.cx).fpxe = 0) → r = k.f (aluInput s1 (e.refresh s1) 0 k vals) →
    (valued i = true → resultFor k.dst r = true ∧
      exec i s = .next (arithDone (putLanded s1 e.tid h.sp k vals r) e.tid len (flagsOf r) (if k.draws then 1 else 0))) ∧
    (∀ dst base disp, i = .lea h dst base disp →
      let ref := aluInput s1 (e.refresh s1) 0 k vals |>.nat 0 2
      let o : Int := (ref % 2 ^ 40 : Nat) + (match disp with
        | .imm v => v.toInt
        | .reg _ w64 sgn sh => readInt (if w64 then 64 else 32) sgn ((vals.getD 1 default).nat (if w64 then 2 else 1)) * 2 ^ sh.toNat)
      (0 ≤ o → o < 2 ^ 40 → r = .val (ref / 2 ^ 40 * 2 ^ 40 + o.toNat) 0 ∧
        exec i s = .next (arithDone (putLanded s1 e.tid h.sp k vals r) e.tid len 0 0)) ∧
      (o < 0 ∨ 2 ^ 40 ≤ o → r = .token 0x03 ∧
        (Lands dst → exec i s = .next (arithDone (putLanded s1 e.tid h.sp k vals r) e.tid len 0 0)) ∧
        (∀ q, dst = .q q → exec i s = .next (raisePoison s (e.refresh s1) (mkToken 0x03 0 e.t.pc.offset) 5))))) ∧
  (∀ (s : State) (e : Env) (i : Instr) (h : Head) (len m v : Nat) (k : AluTask) (s1 : State) (vals : List SrcVal) (fl : Flags) (d : Reg),
    arith i = some (h, len, k) → k.long = none → k.dst = .reg d m → Ready s e h k.srcs [{ reg := d, words := m }] s1 vals →
    AluClean s1 (e.refresh s1) k vals → k.f (aluInput s1 (e.refresh s1) 0 k vals) = .val v fl →
    (h.sp = true ∨ fl &&& (s1.ctx e.cx).fpxe = 0) →
    (∀ n, d = .x n → poppedAny k.srcs vals = false → exec i s = .next (s1.setThread e.tid
      { writeRegs e.t n (cleanWords (valWords m v)) with
        pc := pcAdd e.t.pc len, flags := e.t.flags ||| fl, cvts := e.t.cvts + if k.draws then 1 else 0 })) ∧
    (∀ n, d = .x n → poppedAny k.srcs vals = true → exec i s = .next (({ s1 with fresh := s1.fresh + 1 } : State).setThread e.tid
      { (xRegs d m).foldl (fun t r => setPending t r .other) e.t with
        pc := pcAdd e.t.pc len, flags := e.t.flags ||| fl, cvts := e.t.cvts + if k.draws then 1 else 0
        accs := e.t.accs ++ [({ id := s1.fresh, kind := .done (cleanWords (valWords m v)), dst := xRegs d m,
                                quantum := (e.refresh s1).quantum, off := e.t.pc.offset, op := 0, fmt := 0, sp := h.sp } : Acc)] })) ∧
    (d = .s .zr → exec i s = .next (s1.setThread e.tid
      { e.t with pc := pcAdd e.t.pc len, flags := e.t.flags ||| fl, cvts := e.t.cvts + if k.draws then 1 else 0 })) ∧
    (∀ q cgid num s2, d = .q q → portBinding (e.refresh s1) q = .ring cgid num → pushWords s1 cgid num e.tid q (valWords m v) = some s2 →
      exec i s = .next (s2.setThread e.tid
        { e.t with pc := pcAdd e.t.pc len, flags := e.t.flags ||| fl, cvts := e.t.cvts + if k.draws then 1 else 0 }))) ∧
  (∀ (s : State) (e : Env) (i : Instr) (h : Head) (len : Nat) (k : AluTask) (s1 : State) (vals : List SrcVal),
    arith i = some (h, len, k) → Ready s e h k.srcs [] s1 vals → AluClean s1 (e.refresh s1) k vals →
    (∀ (p : BitVec 3) (b : Bool) (fl : Flags), k.dst = .pred p → k.f (aluInput s1 (e.refresh s1) 0 k vals) = .pred b fl →
      (h.sp = true ∨ fl &&& (s1.ctx e.cx).fpxe = 0) →
      exec i s = .next (s1.setThread e.tid
        { e.t with preds := e.t.preds.set p.toNat { val := b, tok := none }, pc := pcAdd e.t.pc len, flags := e.t.flags ||| fl })) ∧
    (∀ (m : BitVec 7) (v : Nat), k.dst = .mask m → k.f (aluInput s1 (e.refresh s1) 0 k vals) = .val v 0 →
      ∃ t, exec i s = .next (s1.setThread e.tid t) ∧ t = { e.t with preds := t.preds, pc := pcAdd e.t.pc len } ∧
        ∀ j, j < 7 → j < e.t.preds.length → predAt t (BitVec.ofNat 3 j) =
          if m.getLsbD j then { val := v.testBit j, tok := none } else predAt e.t (BitVec.ofNat 3 j))) ∧
  (∀ (s : State) (e : Env) (i : Instr) (h : Head) (len m v : Nat) (k : AluTask) (s1 : State) (vals : List SrcVal) (op : BitVec 8) (d : Reg),
    arith i = some (h, len, k) → k.long = some op → k.dst = .reg d m → Ready s e h k.srcs [{ reg := d, words := m }] s1 vals →
    AluClean s1 (e.refresh s1) k vals → k.f (aluInput s1 (e.refresh s1) 0 k vals) = .val v 0 →
    exec i s = .next (({ s1 with fresh := s1.fresh + 1 } : State).setThread e.tid
      { (xRegs d m).foldl (fun t r => setPending t r .other) e.t with
        pc := pcAdd e.t.pc len
        accs := e.t.accs ++ [({ id := s1.fresh, kind := .done (cleanWords (valWords m v)), dst := xRegs d m,
                                quantum := (e.refresh s1).quantum, off := e.t.pc.offset, op := op, fmt := 0, sp := h.sp } : Acc)] })) ∧
  (∀ (s : State) (e : Env) (i : Instr) (h : Head) (len : Nat) (k : AluTask) (s1 s2 : State) (vals : List SrcVal) (r : AluRes),
    arith i = some (h, len, k) → k.long = none → Ready s e h k.srcs (dstReqs k.dst) s1 vals → AluClean s1 (e.refresh s1) k vals →
    k.f (aluInput s1 (e.refresh s1) 0 k vals) = r → resultFor k.dst r = true → h.sp = false → flagsOf r &&& (s1.ctx e.cx).fpxe ≠ 0 →
    s2 = arithDone (putLanded s1 e.tid h.sp k vals r) e.tid len (flagsOf r) (if k.draws then 1 else 0) →
    exec i s = .next (raise s2 (e.refresh s2) { cause := 11, aux := (flagsOf r &&& (s1.ctx e.cx).fpxe).setWidth 32 }))

/-- R34, R38, R153, R154. A P64 or W96 pair reads both slots before writing either; the fused sequence runs its four
instructions. -/
def Obligations.PairsAndFusedSequencesRunTheirSlots : Prop :=
  (∀ (s : State) (e : Env) (i : Instr) (h : Head) (len : Nat) (k0 k1 : AluTask) (s1 : State) (vals : List SrcVal) (r0 r1 : AluRes),
    pairOf? i = some (h, len, k0, k1) → Ready s e h (k0.srcs ++ k1.srcs) (dstReqs k0.dst ++ dstReqs k1.dst) s1 vals →
    AluClean s1 (e.refresh s1) k0 (vals.take k0.srcs.length) → AluClean s1 (e.refresh s1) k1 (vals.drop k0.srcs.length) →
    r0 = k0.f (aluInput s1 (e.refresh s1) 0 k0 (vals.take k0.srcs.length)) →
    r1 = k1.f (aluInput s1 (e.refresh s1) (if k0.draws then 1 else 0) k1 (vals.drop k0.srcs.length)) →
    (h.sp = true ∨ (flagsOf r0 ||| flagsOf r1) &&& (s1.ctx e.cx).fpxe = 0) →
    ((∃ a b, i = .p64Pair h a b) ∨ (∃ a b, i = .w96Pair h a b) ∧ ∀ q m, k0.dst ≠ .reg (.q q) m ∧ k1.dst ≠ .reg (.q q) m) →
    exec i s = .next (arithDone
      (putLanded (putLanded s1 e.tid h.sp k0 (vals.take k0.srcs.length) r0) e.tid h.sp k1 (vals.drop k0.srcs.length) r1) e.tid len
      (flagsOf r0 ||| flagsOf r1) ((if k0.draws then 1 else 0) + if k1.draws then 1 else 0))) ∧
  (∀ (s : State) (e : Env) (h : Head) (m x c : FltB) (f : FltT) (rm rv rn re rc rs : Nat) (w : Nat → Bool) (vm vv vs : Word) (vn ve vc vt : Nat)
    (fn fe fc ft : Flags),
    Enabled s e h → (∀ n ∈ [rm, rv, rn, re, rc, rs], n < e.g.nregs ∧ n < e.t.regs.length) → [rm, rv, rn, re, rc, rs].Nodup →
    m = { h := h, ty := .f32, rnd := m.rnd, fzo := m.fzo, clamp := false, dst := .x rn, a := ⟨.x rm, w 0⟩, b := .reg ⟨.x rv, w 1⟩ } →
    x = { h := h, ty := .f32, rnd := x.rnd, fzo := x.fzo, clamp := x.clamp, dst := .x re, a := ⟨.x rv, w 2⟩, b := .reg ⟨.x rn, w 3⟩ } →
    c = { h := h, ty := .f32, rnd := c.rnd, fzo := c.fzo, clamp := c.clamp, dst := .x rc, a := ⟨.x rm, w 4⟩, b := .reg ⟨.x rn, w 5⟩ } →
    f = { h := h, ty := .f32, rnd := f.rnd, fzo := f.fzo, clamp := false, dst := .x rs, a := ⟨.x rs, w 6⟩, b := ⟨.x rc, w 7⟩, c := ⟨.x re, w 8⟩ } →
    e.t.status = .ready → (s.ctx e.cx).fpxe = 0 → takeShadow s.injected = none →
    regAt e.t rm = { val := vm, full := true } → regAt e.t rv = { val := vv, full := true } → regAt e.t rs = { val := vs, full := true } →
    (∀ n ∈ [rn, re, rc], (regAt e.t n).pend = .no ∧ (regAt e.t n).lent = false ∧ (regAt e.t n).held = false) →
    let go (k : AluTask) (l : List Nat) := k.f { vals := l.map fun v => { words := [BitVec.ofNat 32 v], tok := none }, preds := [], ftz := (s.ctx e.cx).ftz, draw := 0 }
    go (taskFmax m) [vm.toNat, vv.toNat] = .val vn fn → go (taskFexpn x) [vv.toNat, vn] = .val ve fe →
    go (taskFexpn c) [vm.toNat, vn] = .val vc fc → go (taskFfma f) [vs.toNat, vc, ve] = .val vt ft →
    exec (.fusedSoftmax m x c f) s = .next (s.setThread e.tid
      { writeReg (writeReg (writeReg (writeReg e.t rn (BitVec.ofNat 32 vn) false) re (BitVec.ofNat 32 ve) false) rc (BitVec.ofNat 32 vc) false) rs
          (BitVec.ofNat 32 vt) false with
        pc := pcAdd e.t.pc 32, flags := e.t.flags ||| fn ||| fe ||| fc ||| ft }))

/-- R139. IDIV and IREM divide towards zero, with the corner and the zero divisor as ruled. -/
def Obligations.DivisionFollowsItsRule : Prop :=
  ∀ (s : State) (e : Env) (o : IntB) (w a b : Nat) (x y : Int) (s1 : State) (vals : List SrcVal),
    Lands o.dst → (o.w = .w32 ∧ w = 32 ∨ o.w = .w64 ∧ w = 64) →
    Ready s e o.h (taskIdiv o).srcs [{ reg := o.dst, words := w / 32 }] s1 vals → Unpoisoned vals →
    a = (vals.headD default).nat (w / 32) →
    b = (match o.b with
      | .reg _ => (vals.getD 1 default).nat (w / 32)
      | .imm v => if w = 64 then (v.signExtend 64).toNat else (v.signExtend 32).toNat) →
    x = (if o.sgn then (BitVec.ofNat w a).toInt else a) → y = (if o.sgn then (BitVec.ofNat w b).toInt else b) →
    (b = 0 → o.h.sp = false →
      exec (.idiv o) s = .next (raise s (e.refresh s1) { cause := 9, code := 6, token := mkToken 6 0 e.t.pc.offset }) ∧
      exec (.irem o) s = .next (raise s (e.refresh s1) { cause := 9, code := 6, token := mkToken 6 0 e.t.pc.offset })) ∧
    (b = 0 → o.h.sp = true →
      exec (.idiv o) s = .next (produced s1 (e.refresh s1) o.h.sp o.dst (poisonWords (mkToken 6 0 e.t.pc.offset) (w / 32))
        (landOp o.dst (if w = 64 then some 0x15 else none) (poppedAny (taskIdiv o).srcs vals))) ∧
      exec (.irem o) s = .next (produced s1 (e.refresh s1) o.h.sp o.dst (poisonWords (mkToken 6 0 e.t.pc.offset) (w / 32))
        (landOp o.dst (if w = 64 then some 0x16 else none) (poppedAny (taskIdiv o).srcs vals)))) ∧
    (b ≠ 0 →
      exec (.idiv o) s = .next (produced s1 (e.refresh s1) o.h.sp o.dst (cleanWords (valWords (w / 32) (BitVec.ofInt w
          (if o.sgn ∧ x = -2 ^ (w - 1) ∧ y = -1 then (if o.sat then 2 ^ (w - 1) - 1 else -2 ^ (w - 1)) else x.tdiv y)).toNat))
        (landOp o.dst (if w = 64 then some 0x15 else none) (poppedAny (taskIdiv o).srcs vals))) ∧
      exec (.irem o) s = .next (produced s1 (e.refresh s1) o.h.sp o.dst (cleanWords (valWords (w / 32) (BitVec.ofInt w
          (if o.sgn ∧ x = -2 ^ (w - 1) ∧ y = -1 then 0 else x - x.tdiv y * y)).toNat))
        (landOp o.dst (if w = 64 then some 0x16 else none) (poppedAny (taskIdiv o).srcs vals))))

/-- R64, R138. The 32-bit integer operations of two registers write the results of their rule and change nothing else. -/
def Obligations.IntegerResultsOfTwoRegisters : Prop :=
  ∀ (s : State) (e : Env) (o : IntB) (n i j : Nat) (wa wb : Bool) (a b : Word),
    o.w = .w32 → o.sat = false → o.dst = .x n → o.a = ⟨.x i, wa⟩ → o.b = .reg ⟨.x j, wb⟩ → Enabled s e o.h →
    n < e.g.nregs → i < e.g.nregs → j < e.g.nregs →
    regAt e.t i = { val := a, full := true } → regAt e.t j = { val := b, full := true } →
    (regAt e.t n).pend = .no → (regAt e.t n).lent = false →
    let res (v : Word) := Host.Outcome.next (s.setThread e.tid { writeReg e.t n v false with pc := pcAdd e.t.pc 8 })
    exec (.iadd o) s = res (a + b) ∧ exec (.isub o) s = res (a - b) ∧ exec (.imul o) s = res (a * b) ∧
    exec (.iand o) s = res (a &&& b) ∧ exec (.ior o) s = res (a ||| b) ∧ exec (.ixor o) s = res (a ^^^ b) ∧
    exec (.shl o) s = res (a <<< b.toNat) ∧ exec (.shr o) s = res (a >>> b.toNat) ∧ exec (.sar o) s = res (a.sshiftRight b.toNat) ∧
    exec (.rot o) s = res (a.rotateLeft b.toNat) ∧
    exec (.imin o) s = res (if o.sgn then (if b.slt a then b else a) else (if b.ult a then b else a)) ∧
    exec (.imax o) s = res (if o.sgn then (if a.slt b then b else a) else (if a.ult b then b else a))

/-- R161, R165, R175, R182. The checks and translation of an access change no thread, group, task or vault. -/
def Obligations.AccessChecksTouchNoThread : Prop :=
  ∀ (s : State) (cl cx : Nat) (ref : Ref) (disp : Int) (size align : Nat) (k : AKind),
    let t := (access s cl cx ref disp size align k).1
    t.threads = s.threads ∧ t.groups = s.groups ∧ t.cgroups = s.cgroups ∧ t.insts = s.insts ∧ t.recs = s.recs ∧ t.cur = s.cur ∧
    (∀ c, t.vault c = s.vault c) ∧
    ((∀ tier, tierBlock? s tier = none) → t.mem = s.mem ∧ t.flights = s.flights ∧
      ∀ pa, t.homeByte pa = s.homeByte pa ∧ ∀ o, t.viewByte o pa = s.viewByte o pa)

/-- R123, R164, R166, R185, R187, R200, R202, R203. LD, LDL and ATOMI issue with their destinations pending; ATOM defers into
the store buffer. -/
def Obligations.LoadsAndAtomicsIssue : Prop :=
  (∀ (s s1 s2 : State) (e : Env) (v : SrcVal) (hit : Hit), v.tok = none → captiveFull e.t = false →
    (∀ o : MemO, Ready s e o.h [{ src := o.base, words := 2 }] [{ reg := o.reg, words := o.size.words }] s1 [v] →
      Reaches s1 e (wordRef v.v64) o.disp.toInt o.size.bytes kindRead s2 hit →
      let at_ := (wordRef v.v64).plus o.disp.toInt
      let own := (List.range o.size.bytes).map fun i => ownByte e.t at_.index (at_.offset.toNat + i)
      let a : Acc :=
        { id := s2.fresh, kind := .load o.size at_ hit.va (hit.pas.headD 0) own o.policy hit.masks, dst := xRegs o.reg o.size.words
          quantum := e.quantum, off := e.t.pc.offset, op := 0x60, fmt := 0, sp := o.h.sp }
      ∃ t, exec (.ld o) s = .next t ∧
        t = { s2 with points := t.points, fresh := s2.fresh + 1, threads := tput s.threads e.tid (issued e.t 8 a) }) ∧
    (∀ o : MemL, Ready s e o.h [{ src := o.base, words := 2 }] [{ reg := o.reg, words := o.size.words }] s1 [v] →
      Reaches s1 e (wordRef v.v64) o.disp.toInt o.size.bytes kindRead s2 hit →
      let at_ := (wordRef v.v64).plus o.disp.toInt
      let own := (List.range o.size.bytes).map fun i => ownByte e.t at_.index (at_.offset.toNat + i)
      let a : Acc :=
        { id := s2.fresh, kind := .load o.size at_ hit.va (hit.pas.headD 0) own o.policy hit.masks, dst := xRegs o.reg o.size.words
          quantum := e.quantum, off := e.t.pc.offset, op := 0x60, fmt := 3, sp := o.h.sp }
      ∃ t, exec (.ldl o) s = .next t ∧
        t = { s2 with points := t.points, fresh := s2.fresh + 1, threads := tput s.threads e.tid (issued e.t 12 a) })) ∧
  (∀ (s s1 s2 : State) (e : Env) (v d : SrcVal) (hit : Hit) (o : AtomO), v.tok = none → d.tok = none → captiveFull e.t = false → e.t.sb.length < 64 →
    Ready s e o.h [{ src := o.base, words := 2 }, { src := o.v, words := o.op.words o.w64 }] [{ reg := o.dst, words := wordsOf o.w64 }] s1 [v, d] →
    Reaches s1 e (wordRef v.v64) 0 (4 * wordsOf o.w64) kindAtomic s2 hit →
    let rs := xRegs o.dst (wordsOf o.w64)
    let en := SbEntry.atomic (wordRef v.v64) o.op o.w64 (operandOf d.words) rs.head? e.t.pc.offset (o.policy = 3)
    let a : Acc :=
      { id := s2.fresh + 1, dst := rs, quantum := e.quantum, off := e.t.pc.offset, op := 0x68, fmt := 0, sp := o.h.sp
        kind := .atomi o.op o.w64 (operandOf d.words) (wordRef v.v64) (hit.pas.headD 0) o.scope s2.fresh o.policy hit.masks }
    exec (.atom o) s = .next { s2 with threads := tput s.threads e.tid (buffered (rs.foldl (fun t r => setPending t r .atomic) e.t) 8 en) } ∧
    (count255 e.t = false →
      ∃ t, exec (.atomi o) s = .next t ∧
        t = { s2 with points := t.points, fresh := s2.fresh + 2
                      threads := tput s.threads e.tid (issued { e.t with items := e.t.items ++ [{ id := s2.fresh }] } 8 a) }))

/-- R84, R165, R166, R167, R183, R187. ST and STL wait in the store buffer; poisoned stores raise; failed loads trap, park or
make tokens. -/
def Obligations.StoresWaitAndFailedAccessesTrapParkOrPoison : Prop :=
  (∀ (s s1 s2 : State) (e : Env) (v d : SrcVal) (hit : Hit), v.tok = none → d.tok = none → captiveFull e.t = false → e.t.sb.length < 64 →
    (∀ o : MemO, Ready s e o.h [{ src := o.base, words := 2 }, { src := { reg := o.reg, wait := true }, words := o.size.words }] [] s1 [v, d] →
      Reaches s1 e (wordRef v.v64) o.disp.toInt o.size.bytes kindWrite s2 hit →
      let bs := (d.words.flatMap fun w => leBytes 4 w.toNat).take o.size.bytes
      let t := buffered e.t 8 (.plain ((wordRef v.v64).plus o.disp.toInt) bs (o.policy = 3))
      exec (.st o) s = .next { s2 with threads := tput s.threads e.tid t }) ∧
    (∀ o : MemL, Ready s e o.h [{ src := o.base, words := 2 }, { src := { reg := o.reg, wait := true }, words := o.size.words }] [] s1 [v, d] →
      Reaches s1 e (wordRef v.v64) o.disp.toInt o.size.bytes kindWrite s2 hit →
      let bs := (d.words.flatMap fun w => leBytes 4 w.toNat).take o.size.bytes
      let t := buffered e.t 12 (.plain ((wordRef v.v64).plus o.disp.toInt) bs (o.policy = 3))
      exec (.stl o) s = .next { s2 with threads := tput s.threads e.tid t })) ∧
  (∀ (s s1 : State) (e : Env) (v d : SrcVal) (o : MemO),
    Ready s e o.h [{ src := o.base, words := 2 }, { src := { reg := o.reg, wait := true }, words := o.size.words }] [] s1 [v, d] →
    (∀ tok, v.tok = some tok → exec (.st o) s = .next (raisePoison s (e.refresh s1) tok 4)) ∧
    (∀ tok, v.tok = none → d.tok = some tok → exec (.st o) s = .next (raisePoison s (e.refresh s1) tok 5))) ∧
  (∀ (s s2 : State) (e : Env) (v : SrcVal) (o : MemO) (m : Miss), v.tok = none → captiveFull e.t = false →
    Ready s e o.h [{ src := o.base, words := 2 }] [{ reg := o.reg, words := o.size.words }] s [v] →
    access s e.cl e.cx (wordRef v.v64) o.disp.toInt o.size.bytes o.size.bytes kindRead = (s2, .error m) →
    (o.h.sp = false → ∀ c, m = .fault c →
      exec (.ld o) s = .next (raise s2 e { cause := 9, code := c, token := mkToken c 1 e.t.pc.offset })) ∧
    (o.h.sp = false → ∀ level kind addr va, m = .page level kind addr va →
      exec (.ld o) s = .next ((addRecord s2 e.cx (refWord ((wordRef v.v64).plus o.disp.toInt)) 0 level kind addr va).setThread e.tid
        { e.t with status := .parked (.page { stage := stageOf kind, addr := addr, va := va }), fetched := [] })) ∧
    (o.h.sp = true → Lands o.reg →
      exec (.ld o) s = .next (s2.setThread e.tid { landed e.t o.reg (poisonWords (mkToken (missCode m) 1 e.t.pc.offset) o.size.words) with pc := pcAdd e.t.pc 8 })))

/-- R81, R85, R123, R166, R185, R195. A load's write-back delivers the bytes that its observer sees, or a token for a marked
line. -/
def Obligations.LoadsDeliverTheirBytes : Prop :=
  ∀ (s : State) (e : Env) (a : Acc) (rest : List Acc) (size : Size) (ref : Ref) (va pa : Nat) (own : List (Option Byte)) (policy : BitVec 2)
    (masks : List Nat),
    s.env? e.tid = some e → e.t.accs = a :: rest → (∀ x ∈ rest, x.id ≠ a.id) → a.kind = .load size ref va pa own policy masks →
    s.stopped = false → waitsAnywhere s a.id = false → e.t.status ≠ .exited → own.length = size.bytes →
    ((∀ b ∈ own, b.isSome) →
      exec (.longLatencyWriteback e.tid a.id) s = .next (s.setThread e.tid
        (writeEach { e.t with accs := rest } (a.dst.zip (cleanWords (extendBytes size (own.map fun b => b.getD 0))))))) ∧
    ((∀ b ∈ own, b = none) → Readable s (.group e.t.gid e.g.core) pa → pa % size.bytes = 0 →
      ∃ t, exec (.longLatencyWriteback e.tid a.id) s = .next t ∧ t.mem = s.mem ∧ (∀ o b, t.viewByte o b = s.viewByte o b) ∧ t.ctxs = s.ctxs ∧
        t.threads = tput s.threads e.tid (writeEach { e.t with accs := rest } (a.dst.zip (cleanWords (extendBytes size
          ((List.range size.bytes).map fun i => s.viewByte (.group e.t.gid e.g.core) (pa + i))))))) ∧
    ((∀ b ∈ own, b = none) → isHbm pa = true → (∃ l, findLine s.lines (pa / 64) = some l ∧ l.victim = false) →
      s.viewMarked (.group e.t.gid e.g.core) (pa / 64) = true →
      ∃ t, exec (.longLatencyWriteback e.tid a.id) s = .next t ∧ t.mem = s.mem ∧ (∀ o b, t.viewByte o b = s.viewByte o b) ∧
        t.threads = tput s.threads e.tid (writeEach { e.t with accs := rest } (a.dst.zip (poisonWords (mkToken 0x0B 1 a.off) (max 1 a.dst.length)))))

/-- R157, R159, R170, R171. BREF builds a reference, BQRY reads a buffer's entry, PREF only moves on. -/
def Obligations.ReferencesQueriesAndPrefetchesComplete : Prop :=
  (∀ (s s1 : State) (e : Env) (h : Head) (w64 : Bool) (d : Reg) (idx : Src) (off : OpB) (i : SrcVal) (rest : List SrcVal) (o : Int)
    (srcs : List SrcReq), srcs = { src := idx } :: ((off.srcs (if w64 then 2 else 1)).map fun p => { src := p.1, words := p.2 }) →
    Ready s e h srcs [{ reg := d, words := 2 }] s1 (i :: rest) →
    Lands d → Unpoisoned (i :: rest) →
    o = (match off with
      | .imm v => v.toInt
      | .reg _ => ((rest.headD default).nat (if w64 then 2 else 1) : Int)) →
    let res (ws : List (Word × Bool)) := Host.Outcome.next (produced s1 (e.refresh s1) false d ws (landOp d none (poppedAny srcs (i :: rest))))
    (2 ^ 24 ≤ i.v32.toNat → exec (.bref h w64 d idx off) s = res [(mkToken 0x04 0 e.t.pc.offset, true), (0, true)]) ∧
    (i.v32.toNat < 2 ^ 24 → (o < 0 ∨ 2 ^ 40 ≤ o) →
      exec (.bref h w64 d idx off) s = res [(mkToken 0x03 0 e.t.pc.offset, true), (0, true)]) ∧
    (i.v32.toNat < 2 ^ 24 → 0 ≤ o → o < 2 ^ 40 →
      exec (.bref h w64 d idx off) s = res
        [(BitVec.ofInt 32 o, false), (BitVec.ofNat 24 i.v32.toNat ++ (BitVec.ofInt 40 o).extractLsb' 32 8, false)])) ∧
  (∀ (s s1 s2 : State) (e : Env) (h : Head) (d : Reg) (base : Src) (v : SrcVal) (raw : BitVec 256), Lands d → v.tok = none → captiveFull e.t = false →
    Ready s e h [{ src := base, words := 2 }] [{ reg := d, words := 2 }] s1 [v] →
    (bufferOf s1 e.cl e.cx (wordRef v.v64).index.toNat = (s2, .ok none) →
      exec (.bqry h d base) s = .next { s2 with threads := tput s.threads e.tid { landed { e.t with fetched := [] } d [(0, false), (0, false)] with pc := pcAdd e.t.pc 8 } }) ∧
    (bufferOf s1 e.cl e.cx (wordRef v.v64).index.toNat = (s2, .ok (some raw)) →
      ∃ lo hi, exec (.bqry h d base) s = .next { s2 with threads := tput s.threads e.tid { landed { e.t with fetched := [] } d [(lo, false), (hi, false)] with pc := pcAdd e.t.pc 8 } } ∧
        (hi ++ lo).getLsbD 63 = (bufEntry raw).ok ∧
        (hi ++ lo).getLsbD 62 = ((bufEntry raw).ok && (if (bufEntry raw).shared then (s2.ctx e.cx).stags.contains (bufEntry raw).owner else (bufEntry raw).owner = e.cx)) ∧
        (hi ++ lo).extractLsb' 60 2 = raw.extractLsb' 61 2 ∧ (hi ++ lo).extractLsb' 52 8 = raw.extractLsb' 108 8 ∧
        (hi ++ lo).extractLsb' 40 12 = raw.extractLsb' 116 12 ∧ (hi ++ lo).extractLsb' 0 40 = raw.extractLsb' 64 40)) ∧
  (∀ (s : State) (e : Env) (h : Head) (xlat : Bool) (base : Src) (disp : BitVec 18) (policy : BitVec 2) (hint : BitVec 5),
    Enabled s e h → allocated e (xRegs base.reg 2) = true →
    ∃ t, exec (.pref h xlat base disp policy hint) s = .next t ∧ t.threads = tput s.threads e.tid { e.t with pc := pcAdd e.t.pc 8 } ∧
      t.insts = s.insts ∧ t.recs = s.recs ∧ ((∀ tier, tierBlock? s tier = none) → t.mem = s.mem ∧ t.flights = s.flights))

/-- R172, R173, R180, R193. CFLUSH and IINV count as items and take effect at completion; FETCHB waits for them; TLBI drops
entries. -/
def Obligations.MaintenanceIsCountedAndCompletes : Prop :=
  (∀ (s s1 s2 : State) (e : Env) (h : Head) (base len : Src) (v n : SrcVal) (raw : BitVec 256) (b : BufE),
    v.tok = none → n.tok = none → n.v32 ≠ 0 → count255 e.t = false →
    bufferOf s1 e.cl e.cx (wordRef v.v64).index.toNat = (s2, .ok (some raw)) → b = bufEntry raw → b.ok = true →
    (wordRef v.v64).offset.toNat + n.v32.toNat ≤ b.length →
    (if b.shared then (s2.ctx e.cx).stags.contains b.owner else b.owner = e.cx) = true →
    Ready s e h [{ src := base, words := 2 }, { src := len }] [] s1 [v, n] →
    let lo := (b.base + (wordRef v.v64).offset.toNat) / 64
    let hi := (b.base + (wordRef v.v64).offset.toNat + n.v32.toNat + 63) / 64
    let res (m : Maint) := Host.Outcome.next (({ s2 with fresh := s2.fresh + 1 } : State).setThread e.tid
      { e.t with pc := pcAdd e.t.pc 8, items := e.t.items ++ [{ id := s2.fresh, maint := some m }] })
    (∀ inv, b.rights &&& 3 ≠ 0 → exec (.cflush h inv base len) s = res (.flush lo hi)) ∧
    (∀ reach, b.rights &&& 4 = 4 → exec (.iinv h reach (.range base len)) s = res (.icache reach false lo hi))) ∧
  (∀ (s : State) (e : Env) (item : Item), s.env? e.tid = some e →
    (∀ h, Enabled s e h → (∀ i ∈ e.t.items, i.maint = none) →
      exec (.fetchb h) s = .next (s.setThread e.tid { e.t with pc := pcAdd e.t.pc 8, fetched := [] })) ∧
    (∀ h ids, Enabled s e h → ids = (e.t.items.filter (·.maint.isSome)).map (·.id) → ids ≠ [] →
      exec (.fetchb h) s = .next (s.setThread e.tid { e.t with status := .parked (.maint ids 8), fetched := [] })) ∧
    (e.t.items.find? (fun i => i.id = item.id) = some item → ∀ m, item.maint = some m →
      ∃ t, exec (.cflushIinvCompletion e.tid item.id) s = .next t ∧ t.mem = s.mem ∧ t.ctxs = s.ctxs ∧
        t.threads = tput s.threads e.tid { e.t with items := e.t.items.filter fun i => i.id ≠ item.id } ∧
        (∀ lo hi, m = .flush lo hi → t.cores = s.cores ∧ t.flights.map (·.cells) = s.flights.map (·.cells) ∧
          ∀ f ∈ s.flights, f.cells ≠ [] → f.core = e.g.core → (∃ l, f.vline = some (e.cx, l) ∧ lo ≤ l ∧ l < hi) → { f with inL2 := true } ∈ t.flights) ∧
        (∀ lo hi, m = .icache .core false lo hi → t.flights = s.flights ∧
          (t.coreUnit e.g.core).icache = (s.coreUnit e.g.core).icache.filter (fun l => !(l.1.1 = e.cx && (lo ≤ l.1.2.1 && l.1.2.1 < hi))) ∧
          ∀ c, c ≠ e.g.core → t.coreUnit c = s.coreUnit c))) ∧
  (∀ (s : State) (e : Env) (h : Head), Enabled s e h → e.t.status = .ready →
    (∃ t, exec (.tlbiCtx h) s = .next t ∧ tget? t.threads e.tid = some { e.t with pc := pcAdd e.t.pc 8, fetched := [] } ∧ t.mem = s.mem ∧
      (∀ c, (t.cluster c).tlb = (s.cluster c).tlb.filter (fun x => !(x.ctx = e.cx)) ∧ (t.cluster c).bufs = (s.cluster c).bufs) ∧
      t.recs = s.recs.filter fun r => !(r.ctx = e.cx && !stillStops s r)) ∧
    (∃ t, exec (.tlbiBufall h) s = .next t ∧ t.threads = tput s.threads e.tid { e.t with pc := pcAdd e.t.pc 8, fetched := [] } ∧ t.mem = s.mem ∧ t.recs = s.recs ∧
      ∀ c, (t.cluster c).bufs = (s.cluster c).bufs.filter (fun x => !(x.1.1 = e.cx)) ∧ (t.cluster c).tlb = (s.cluster c).tlb) ∧
    (∀ (idx : Src) (v : SrcVal), Ready s e h [{ src := idx }] [] s [v] → v.tok = none → v.v32.toNat < 2 ^ 24 →
      ∃ t, exec (.tlbiBuf h idx) s = .next t ∧ t.threads = tput s.threads e.tid { e.t with pc := pcAdd e.t.pc 8, fetched := [] } ∧ t.mem = s.mem ∧ t.recs = s.recs ∧
        ∀ c, (t.cluster c).bufs = (s.cluster c).bufs.filter (fun x => !(x.1 = (e.cx, v.v32.toNat))) ∧ (t.cluster c).tlb = (s.cluster c).tlb) ∧
    (∀ (base len : Src) (v n : SrcVal) (s2 : State) (raw : BitVec 256) (lo hi : Nat), Ready s e h [{ src := base, words := 2 }, { src := len }] [] s [v, n] →
      v.tok = none → n.tok = none → n.v32 ≠ 0 → bufferOf s e.cl e.cx (wordRef v.v64).index.toNat = (s2, .ok (some raw)) → (bufEntry raw).ok = true →
      lo = (bufEntry raw).base + (wordRef v.v64).offset.toNat → hi = lo + n.v32.toNat →
      ∃ t, exec (.tlbiVa h base len) s = .next t ∧ tget? t.threads e.tid = some { e.t with pc := pcAdd e.t.pc 8, fetched := [] } ∧ t.mem = s.mem ∧
        (∀ c, (t.cluster c).tlb = (s.cluster c).tlb.filter (fun x => !(x.ctx = e.cx && (lo / 4096 ≤ x.vpage && x.vpage * 4096 < hi)))) ∧
        t.recs = s.recs.filter fun r => !(r.ctx = e.cx && r.va.any (fun a => lo ≤ a && a < hi) && !stillStops s2 r)))

/-- R187, R204, R205, R206, R207, R242. BARA and BARS count arrivals and end the quantum; BARW, the Buoy barriers and BARX
park at the boundary. -/
def Obligations.BarriersCountArrivalsAndWait : Prop :=
  (∀ (s : State) (e : Env) (h : Head) (arg : BarArg) (vals : List SrcVal) (n c : Nat) (bar : Barrier),
    Ready s e h (BarArg.reqs arg) [] s vals → Unpoisoned vals → BarArg.vals arg vals = (n, c) →
    e.g.bars[n]? = some bar → c ≤ 2048 → e.tid ∉ bar.arrived → (bar.cnt = none ∨ bar.cnt = some c) →
    let joined : Barrier := { bar with cnt := some c, arrived := bar.arrived ++ [e.tid], lastAt := e.quantum }
    let over_ : Bool := if c = 0 then (s.liveOf e.t.gid).all (fun t => joined.arrived.contains t.1) else c ≤ bar.arrived.length + 1
    let t (a : After) := { e.t with status := .parked (.boundary a), fetched := [], ended := true, barPhases := (n, bar.phase) :: e.t.barPhases.filter (fun p => p.1 ≠ n) }
    ∃ b, (over_ = false → b = joined) ∧ (over_ = true → b.phase = bar.phase + 1 ∧ b.cnt = none ∧ b.arrived = [] ∧ (bar.phase, e.quantum + 1) ∈ b.doneAt) ∧
      exec (.bara h arg) s = .next ((s.setThread e.tid (t (.next 8))).setGroup e.t.gid { e.g with bars := e.g.bars.set n b }) ∧
      exec (.bars h arg) s = .next ((s.setThread e.tid (t (.bars 8 n bar.phase))).setGroup e.t.gid { e.g with bars := e.g.bars.set n b })) ∧
  (∀ (s : State) (e : Env) (h : Head) (arg : BarArg) (vals : List SrcVal) (n c : Nat),
    Ready s e h (BarArg.reqs arg) [] s vals → Unpoisoned vals → BarArg.vals arg vals = (n, c) →
    ((e.g.bars.length ≤ n ∨ 2048 < c) →
      exec (.bara h arg) s = .next (raise s e { cause := 4, aux := 12 }) ∧ exec (.bars h arg) s = .next (raise s e { cause := 4, aux := 12 })) ∧
    (∀ bar k, e.g.bars[n]? = some bar → c ≤ 2048 → e.tid ∉ bar.arrived → bar.cnt = some k → k ≠ c →
      exec (.bara h arg) s = .next (raise s e { cause := 9, code := 0x08, token := mkToken 0x08 0 e.t.pc.offset }) ∧
      exec (.bars h arg) s = .next (raise s e { cause := 9, code := 0x08, token := mkToken 0x08 0 e.t.pc.offset })) ∧
    (∀ bar, e.g.bars[n]? = some bar → c ≤ 2048 → e.tid ∈ bar.arrived →
      exec (.bara h arg) s = .next (s.setThread e.tid { e.t with status := .parked (.barNext n bar.phase), fetched := [] }) ∧
      exec (.bars h arg) s = .next (s.setThread e.tid { e.t with status := .parked (.barNext n bar.phase), fetched := [] }))) ∧
  (∀ (s : State) (e : Env) (h : Head),
    (∀ (arg : BarNum) (vals : List SrcVal) (n : Nat), Ready s e h (BarNum.reqs arg) [] s vals → Unpoisoned vals → BarNum.val arg vals = n →
      (e.g.bars.length ≤ n → exec (.barw h arg) s = .next (raise s e { cause := 4, aux := 12 })) ∧
      (n < e.g.bars.length → ∀ a, a = (match (e.t.barPhases.find? fun p => p.1 = n) with | some p => After.barw 8 n p.2 | none => .next 8) →
        exec (.barw h arg) s = .next (s.setThread e.tid { e.t with status := .parked (.boundary a), fetched := [], ended := true }))) ∧
    (∀ (a : Src) (v : SrcVal) (lvl : Level) (s1 : State), Ready s e h [{ src := a }] [] s1 [v] →
      (∀ tok, v.tok = some tok →
        exec (.baraBuoy h lvl a) s = .next (raise s e { cause := 9, code := tokCode tok, token := tok }) ∧
        exec (.barwBuoy h a) s = .next (raise s e { cause := 9, code := tokCode tok, token := tok }) ∧
        exec (.barsBuoy h lvl a) s = .next (raise s e { cause := 9, code := tokCode tok, token := tok }) ∧
        exec (.barx h lvl a) s = .next (raise s e { cause := 9, code := tokCode tok, token := tok })) ∧
      (v.tok = none →
        let park (b : After) := Host.Outcome.next (s1.setThread e.tid { e.t with status := .parked (.boundary b), fetched := [], ended := true })
        exec (.baraBuoy h lvl a) s = park (.buoyArrive 8 lvl v.v32 false []) ∧ exec (.barwBuoy h a) s = park (.buoyWait 8 v.v32) ∧
        exec (.barsBuoy h lvl a) s = park (.buoyArrive 8 lvl v.v32 true []) ∧ exec (.barx h lvl a) s = park (.barx 8 lvl v.v32 []))))

/-- R186, R187, R188, R189, R193. A boundary waits for every live thread, then commits the stores and wakes the threads. -/
def Obligations.BoundariesCloseOverEndedQuanta : Prop :=
  (∀ (s : State) (iid key : Nat) (e : Env), e ∈ scopeThreads s iid key → e.t.status = .ready → e.t.ended = false →
    exec (.boundaryClose iid key) s = .next s) ∧
  (∀ (s : State) (e : Env) (key len pa : Nat) (b : Byte) (vict : Bool) (ref : Ref) (hit : Hit) (s1 : State),
    s.env? e.tid = some e → s.stopped = false → scopeThreads s e.g.iid key = [e] → e.t.status = .parked (.boundary (.next len)) → e.t.ended = true →
    e.t.accs = [] → (s.ctx e.cx).kill = none → scopeLevel e.inst < 4 →
    (e.t.sb = [] → ∃ t, exec (.boundaryClose e.g.iid key) s = .next t ∧
      t.mem = s.mem ∧ t.flights = s.flights ∧ t.ctxs = s.ctxs ∧ t.clusters = s.clusters ∧
      t.threads = tput s.threads e.tid { e.t with ended := false, status := .ready, pc := pcAdd e.t.pc len } ∧
      tget? t.insts e.g.iid = some { e.inst with bounds := tput e.inst.bounds key (tgetD 0 e.inst.bounds key + 1) }) ∧
    (e.t.sb = [.plain ref [b] vict] → e.t.items = [] → access s e.cl e.cx ref 0 1 1 kindWrite = (s1, .ok hit) → hit.pas = [pa] →
      paused s1 (classAt s1 e.cx (pa / 64)) pa = false →
      ∃ t, exec (.boundaryClose e.g.iid key) s = .next t ∧ t.mem = s1.mem ∧
        t.viewByte (.group e.t.gid e.g.core) pa = b ∧ (∀ a, a ≠ pa → ∀ o, t.viewByte o a = s1.viewByte o a) ∧
        ∃ th, tget? t.threads e.tid = some th ∧ th.sb = [] ∧ th.ended = false ∧ th.status = .ready ∧ th.pc = pcAdd e.t.pc len ∧
          th.regs = e.t.regs ∧ th.preds = e.t.preds ∧ th.items.map (·.id) = [s.fresh]))

/-- R110, R111, R112, R115, R116, R118, R119, R120, R121, R169. With a mask of one member, votes, shuffles, folds and CSTR
complete at once with their own value. -/
def Obligations.CrossThreadInstructionsOfOneMember : Prop :=
  (∀ (s : State) (e : Env) (h : Head) (p : BitVec 3) (mask : Src) (m : SrcVal),
    Alone e m → (predAt e.t p).tok = none →
    let b := (predAt e.t p).val
    (∀ pd, Ready s e h [{ src := mask, words := 2 }] [] s [m] →
      (∃ t, exec (.vote h (.all pd) p mask) s = .next t ∧ OnlyMoves s t e (passed e.t (writePred e.t pd b none))) ∧
      (∃ t, exec (.vote h (.any pd) p mask) s = .next t ∧ OnlyMoves s t e (passed e.t (writePred e.t pd b none))) ∧
      (∃ t, exec (.vote h (.eq pd) p mask) s = .next t ∧ OnlyMoves s t e (passed e.t (writePred e.t pd true none)))) ∧
    (∀ d, Lands d → Ready s e h [{ src := mask, words := 2 }] [{ reg := d, words := 2 }] s [m] →
      ∃ t, exec (.vote h (.bal d) p mask) s = .next t ∧
        OnlyMoves s t e (passed e.t (landed e.t d (cleanWords (valWords 2 (if b then 2 ^ (e.t.tix % 64) else 0))))))) ∧
  (∀ (s : State) (e : Env) (o : XtO) (m v : SrcVal), Alone e m → Lands o.dst → v.tok = none →
    let w := if o.w64 then 2 else 1
    let reqs : List SrcReq := [{ src := o.a, words := w }, { src := o.mask, words := 2 }]
    let gives (i : Instr) (x : Word64) := ∃ t, exec i s = .next t ∧ OnlyMoves s t e (passed e.t (landed e.t o.dst (cleanWords (valWords w x.toNat))))
    (∀ (c : Src) (d : SrcVal), Ready s e o.h (reqs ++ [{ src := c }]) [{ reg := o.dst, words := w }] s [v, m, d] → d.tok = none →
      gives (.shfl o c) v.v64 ∧ gives (.slup o c) v.v64 ∧ gives (.sldn o c) v.v64) ∧
    (∀ p : BitVec 3, Ready s e o.h reqs [{ reg := o.dst, words := w }] s [v, m] → (predAt e.t p).tok = none →
      gives (.cmpr o p) (if (predAt e.t p).val then v.v64 else 0) ∧ gives (.expd o p) (if (predAt e.t p).val then v.v64 else 0)) ∧
    (Ready s e o.h reqs [{ reg := o.dst, words := w }] s [v, m] → gives (.unif o) v.v64) ∧
    (Ready s e o.h reqs [{ reg := o.dst, words := 2 }] s [v, m] →
      ∃ t, exec (.xmatch o) s = .next t ∧ OnlyMoves s t e (passed e.t (landed e.t o.dst (cleanWords (valWords 2 (2 ^ (e.t.tix % 64)))))))) ∧
  (∀ (s : State) (e : Env) (h : Head) (op : ROp) (d : Reg) (a mask : Src) (m v : SrcVal) (r : Nat) (fl : Flags), Alone e m → Lands d → v.tok = none →
    let w := if op = .add64 then 2 else 1
    Ready s e h [{ src := a, words := w }, { src := mask, words := 2 }] [{ reg := d, words := w }] s [v, m] →
    foldOp op (s.ctx e.cx).ftz (foldId op) v.v64.toNat = (r, fl) → (h.sp = true ∨ fl &&& (s.ctx e.cx).fpxe = 0) →
    let gives (i : Instr) (x : Nat) := ∃ t, exec i s = .next t ∧
      OnlyMoves s t e { passed e.t (landed e.t d (cleanWords (valWords w x))) with flags := e.t.flags ||| fl }
    gives (.redc h op d a mask) r ∧ gives (.scan h op false d a mask) r ∧ gives (.scan h op true d a mask) (foldId op) ∧
    (op ≠ .fadd → op ≠ .fmin → op ≠ .fmax → v.words.length = w → r = v.v64.toNat ∧ fl = 0)) ∧
  (∀ (s : State) (e : Env) (o : CstrO) (m v d : SrcVal), Alone e m → Lands o.cnt → v.tok = none → d.tok = none → captiveFull e.t = false →
    (predAt e.t o.keep).tok = none →
    Ready s e o.h [{ src := o.base, words := 2 }, { src := o.mask, words := 2 }, { src := { o.data with wait := true }, words := wordsOf o.w64 }]
      [{ reg := o.cnt }] s [v, m, d] →
    ((predAt e.t o.keep).val = o.neg → e.t.sb.length < 64 →
      ∃ t, exec (.cstr o) s = .next t ∧ OnlyMoves s t e (passed e.t (landed e.t o.cnt [(0, false)]))) ∧
    (∀ s2 hit, (predAt e.t o.keep).val ≠ o.neg → Reaches s e (wordRef v.v64) 0 (4 * wordsOf o.w64) kindWrite s2 hit → e.t.sb.length + 1 < 64 →
      ∃ t, exec (.cstr o) s = .next t ∧ OnlyMoves s2 t e (passed e.t
        { landed e.t o.cnt [(1, false)] with sb := e.t.sb ++ [.plain (wordRef v.v64) (leBytes (4 * wordsOf o.w64) d.v64.toNat) false] })))

/-- R110, R111, R117, R121, R125. A meet waits until every member has arrived; SHFL.GIVE writes its target's register at
once. -/
def Obligations.MeetsAwaitTheirMembersAndGivesWrite : Prop :=
  (∀ (s : State) (e : Env) (o : XtO) (j : Nat) (m v : SrcVal), Lands o.dst → v.tok = none → m.tok = none →
    Ready s e o.h [{ src := o.a, words := if o.w64 then 2 else 1 }, { src := o.mask, words := 2 }] [{ reg := o.dst, words := if o.w64 then 2 else 1 }] s [v, m] →
    e.g.rdv = [] → e.t.reinject = false → m.v64.getLsbD (e.t.tix % 64) = true →
    j < 64 → j ≠ e.t.tix % 64 → m.v64.getLsbD j = true →
    (∀ k, k < 64 → m.v64.getLsbD k = true → k = e.t.tix % 64 ∨ ∃ i t2, (i, t2) ∈ s.threads ∧ i ≠ e.tid ∧ t2.gid = e.t.gid ∧ t2.tix / 64 = e.t.tix / 64 ∧ t2.tix % 64 = k ∧ t2.status ≠ .exited) →
    (∀ p ∈ s.threads, ∀ q ∈ s.threads, p.2.gid = q.2.gid → p.2.tix = q.2.tix → p = q) → tsorted s.threads = true →
    ∃ t th, exec (.unif o) s = .next t ∧ OnlyMoves s t e th ∧
      (∃ num, th.status = .parked (.rendezvous e.t.pc.offset num)) ∧ th.pc = e.t.pc ∧ th.regs = e.t.regs ∧ th.preds = e.t.preds ∧ th.ended = e.t.ended) ∧
  (∀ (s : State) (e : Env) (h : Head) (w64 : Bool) (n i : Nat) (a tgt : Src) (v t : SrcVal) (x : Thread),
    Ready s e h [{ src := a, words := if w64 then 2 else 1 }, { src := tgt }] [] s [v, t] (xRegs (.x n) (if w64 then 2 else 1)) → t.tok = none →
    v.words.length = (if w64 then 2 else 1) →
    (s.threads.find? fun p => p.2.gid = e.t.gid && p.2.tix / 64 = e.t.tix / 64 && p.2.tix % 64 = t.v32.toNat % 64) = some (i, x) → tget? s.threads i = some x →
    (x.status = .exited → exec (.shflGive h w64 (.x n) a tgt) s = .next (s.setThread e.tid { e.t with pc := pcAdd e.t.pc 8 })) ∧
    (x.status ≠ .exited → i ≠ e.tid → (∀ r ∈ xRegs (.x n) (if w64 then 2 else 1), (regAt x r).lent = false ∧ (regAt x r).pend = .no) →
      (v.tok = none → exec (.shflGive h w64 (.x n) a tgt) s = .next ((s.setThread i (writeRegs x n (cleanWords v.words))).setThread e.tid { e.t with pc := pcAdd e.t.pc 8 })) ∧
      (∀ tok, v.tok = some tok →
        exec (.shflGive h w64 (.x n) a tgt) s = .next ((s.setThread i (writeRegs x n (poisonWords tok (if w64 then 2 else 1)))).setThread e.tid { e.t with pc := pcAdd e.t.pc 8 }))))

/-- R215, R216, R221, R232, R233, R234, R235, R241. LDV, STV and ATOMV read and write vault bytes, STX its window's shadow;
the checks decide in order. -/
def Obligations.VaultAccessesReadAndWriteTheirBytes : Prop :=
  (∀ (s : State) (e : Env) (o : VaultO) (v : SrcVal) (h : VHit), v.tok = none → captiveFull e.t = false →
    Ready s e o.h [{ src := o.a }] [{ reg := o.reg, words := o.size.words }] s [v] →
    VaultReach s e v.v32 o.disp.toInt o.size.bytes .read h →
    let a : Acc :=
      { id := s.fresh, kind := .done (cleanWords (extendBytes o.size (vaultBytes s h.cl h.off o.size.bytes))), dst := xRegs o.reg o.size.words
        quantum := e.quantum, off := e.t.pc.offset, op := 0x62, fmt := 0, sp := o.h.sp }
    ∃ t, exec (.ldv o) s = .next t ∧ t.threads = tput s.threads e.tid (issued e.t 8 a) ∧
      t = { s with threads := t.threads, fresh := s.fresh + 1, clusters := t.clusters } ∧ ∀ c, t.cluster c = s.cluster c) ∧
  (∀ (s : State) (e : Env) (o : VaultO) (a v : SrcVal) (h : VHit), a.tok = none → v.tok = none → captiveFull e.t = false → NoBuoyWaiter s →
    Ready s e o.h [{ src := o.a }, { src := { reg := o.reg, wait := true }, words := o.size.words }] [] s [a, v] →
    v.words.length = o.size.words → VaultReach s e a.v32 o.disp.toInt o.size.bytes .write h →
    ∃ t, exec (.stv o) s = .next t ∧ t.threads = tput s.threads e.tid { e.t with pc := pcAdd e.t.pc 8 } ∧
      t = { s with threads := t.threads, clusters := t.clusters } ∧
      VaultWritten s t h.cl h.off ((v.words.flatMap fun w => leBytes 4 w.toNat).take o.size.bytes)) ∧
  (∀ (s : State) (e : Env) (o : VaultO) (a v : SrcVal) (h : VHit) (cg : ClusterGroup) (w : Window), a.tok = none → v.tok = none →
    Ready s e o.h [{ src := o.a }, { src := { reg := o.reg, wait := true }, words := o.size.words }] [] s [a, v] →
    vaultCheck s e.cl e.g.iid a.v32 o.disp.toInt o.size.bytes o.size.bytes .stx = .ok h → VaultSound (s.vault h.cl) →
    tget? s.cgroups h.cgid = some cg → cg.window = some w → w.recs = [] → v.words.length = o.size.words →
    let bs := (v.words.flatMap fun x => leBytes 4 x.toNat).take o.size.bytes
    let put (c : Host.Cell) : ShadowByte :=
      { off := c.1, val := c.2, ry := (meshY e.cl : Int) - meshY h.cl, rx := (meshX e.cl : Int) - meshX h.cl, cix := e.g.cix, tix := e.t.tix }
    exec (.stx o) s = .next { s with
      threads := tput s.threads e.tid { e.t with pc := pcAdd e.t.pc 8 }
      cgroups := tput s.cgroups h.cgid { cg with window := some { w with recs := (cellsAt h.o bs).map put } } }) ∧
  (∀ (s : State) (e : Env) (o : AtomVO) (a v : SrcVal) (h : VHit), a.tok = none → v.tok = none → captiveFull e.t = false → NoBuoyWaiter s →
    Ready s e o.h [{ src := o.a }, { src := o.v, words := o.op.words o.w64 }] [{ reg := o.dst, words := wordsOf o.w64 }] s [a, v] →
    VaultReach s e a.v32 0 (4 * wordsOf o.w64) .write h →
    let old := vaultBytes s h.cl h.off (4 * wordsOf o.w64)
    let acc : Acc :=
      { id := s.fresh, kind := .done (cleanWords (valWords (wordsOf o.w64) (leNat old))), dst := xRegs o.dst (wordsOf o.w64)
        quantum := e.quantum, off := e.t.pc.offset, op := 0x69, fmt := 0, sp := o.h.sp }
    ∃ t, exec (.atomv o) s = .next t ∧ t.threads = tput s.threads e.tid (issued e.t 8 acc) ∧
      t = { s with threads := t.threads, fresh := s.fresh + 1, clusters := t.clusters } ∧
      VaultWritten s t h.cl h.off (leBytes (4 * wordsOf o.w64) (atomicNew o.op o.w64 (leNat old) (operandOf v.words)))) ∧
  (∀ (s : State) (e : Env) (o : VaultO) (v : SrcVal) (cgid : Nat) (cg : ClusterGroup), v.tok = none → captiveFull e.t = false →
    Ready s e o.h [{ src := o.a }] [{ reg := o.reg, words := o.size.words }] s [v] → o.h.sp = false →
    let x : Int := (meshX e.cl : Int) + (v.v32.extractLsb' 28 4).toInt
    let y : Int := (meshY e.cl : Int) + (v.v32.extractLsb' 24 4).toInt
    let on : Prop := v.v32.getLsbD 23 = false ∧ 0 ≤ x ∧ x < 8 ∧ 0 ≤ y ∧ y < 8
    let tc := e.cl / 64 * 64 + 8 * y.toNat + x.toNat
    let at_ : Int := ((v.v32.extractLsb' 0 23).toNat : Int) + o.disp.toInt
    let traps (c : Nat) := exec (.ldv o) s = .next (raise s e { cause := 9, code := c, token := mkToken c 2 e.t.pc.offset })
    (¬ on → traps 0x04) ∧
    (on → (∀ p ∈ s.cgroups, ¬ (p.2.iid = e.g.iid ∧ p.2.cluster = tc ∧ p.2.len ≠ 0)) → traps 0x02) ∧
    (on → (s.cgroups.find? fun p => p.2.iid = e.g.iid && p.2.cluster = tc && p.2.len ≠ 0) = some (cgid, cg) →
      ((at_ < 0 ∨ (cg.len : Int) < at_ + o.size.bytes) → traps 0x03) ∧
      (0 ≤ at_ → at_ + o.size.bytes ≤ cg.len → at_ % (o.size.bytes : Int) ≠ 0 → traps 0x05)))

/-- R216, R220, R236. PRES.TEST, PRES.SET, PRES.CLR and PRES.UNMK act on exactly the lines of their range. -/
def Obligations.PresenceBitsAreTestedSetAndCleared : Prop :=
  ∀ (s : State) (e : Env) (h : Head) (a len : Src) (va vn : SrcVal) (k : VHit) (n : Nat), va.tok = none → vn.tok = none → e.t.status = .ready →
    Ready s e h [{ src := a }, { src := len }] [] s [va, vn] → n = vn.v32.toNat → n ≠ 0 → (∀ l ∈ vLines k.off n, vFailed (s.vault k.cl) l = false) → decHolds s k.cl (vLines k.off n) = [] →
    (vaultCheck s e.cl e.g.iid va.v32 0 n 1 .read = .ok k →
      ∀ pd, exec (.presTest h pd a len) s = .next (s.setThread e.tid
        { writePred e.t pd ((vLines k.off n).all fun l => !(s.vault k.cl).absent.contains l) none with pc := pcAdd e.t.pc 8 })) ∧
    (vaultCheck s e.cl e.g.iid va.v32 0 n 1 .write = .ok k →
      (∃ t, exec (.presSet h a len) s = .next t ∧ t.mem = s.mem ∧ tget? t.threads e.tid = some { e.t with pc := pcAdd e.t.pc 8 } ∧
        (∀ l, l ∈ (t.vault k.cl).absent ↔ l ∈ (s.vault k.cl).absent ∧ l ∉ vLines k.off n) ∧ (t.vault k.cl).bytes = (s.vault k.cl).bytes ∧
        ∀ c, c ≠ k.cl → t.vault c = s.vault c) ∧
      (∃ t, exec (.presClr h a len) s = .next t ∧ t.mem = s.mem ∧ tget? t.threads e.tid = some { e.t with pc := pcAdd e.t.pc 8 } ∧
        (∀ l, l ∈ (t.vault k.cl).absent ↔ l ∈ (s.vault k.cl).absent ∨ l ∈ vLines k.off n) ∧ (t.vault k.cl).bytes = (s.vault k.cl).bytes ∧
        ∀ c, c ≠ k.cl → t.vault c = s.vault c) ∧
      (∃ t, exec (.presUnmk h a len) s = .next t ∧ t.mem = s.mem ∧ tget? t.threads e.tid = some { e.t with pc := pcAdd e.t.pc 8 } ∧
        (∀ l, l ∈ (t.vault k.cl).marks ↔ l ∈ (s.vault k.cl).marks ∧ l ∉ vLines k.off n) ∧ (t.vault k.cl).bytes = (s.vault k.cl).bytes ∧
        (t.vault k.cl).absent = (s.vault k.cl).absent ∧ ∀ c, c ≠ k.cl → t.vault c = s.vault c))

/-- R218, R237, R238, R240. VSPLIT.SET moves the split within the grant; VSPLIT.XOPEN and VSPLIT.XCLOSE open and close a
window. -/
def Obligations.SplitAndExchangeWindowsFollowTheGrant : Prop :=
  (∀ (s : State) (e : Env) (h : Head) (pd : BitVec 3) (n : OpB) (vals : List SrcVal) (v : Nat),
    Ready s e h (srcReqs (n.srcs 1)) [] s vals → Unpoisoned vals →
    v = (match n with
      | .imm x => x.toNat
      | .reg _ => (vals.headD default).v32.toNat) →
    let vt := s.vault e.cl
    (32 < v ∨ grantOf s e.cx < v ∨ 4 * vt.cap < v →
      exec (.vsplitSet h pd n) s = .next (raise s e { cause := 14, aux := BitVec.ofNat 32 v })) ∧
    (v ≤ 32 → v ≤ grantOf s e.cx → v ≤ 4 * vt.cap →
      (v < vt.split → (∃ r ∈ vOccupied s e.cl, v * 2 ^ 18 < r.1 + r.2) →
        exec (.vsplitSet h pd n) s = .next (s.setThread e.tid { writePred e.t pd false none with pc := pcAdd e.t.pc 8 })) ∧
      (v ≤ vt.split → (∀ r ∈ vOccupied s e.cl, r.1 + r.2 ≤ v * 2 ^ 18) →
        exec (.vsplitSet h pd n) s = .next ((s.setVault e.cl { vt with split := v }).setThread e.tid { writePred e.t pd true none with pc := pcAdd e.t.pc 8 })) ∧
      (vt.split < v → ∃ t, exec (.vsplitSet h pd n) s = .next t ∧ (t.vault e.cl).split = v ∧
        t.threads = tput s.threads e.tid { writePred e.t pd true none with pc := pcAdd e.t.pc 8 } ∧ (∀ c, c ≠ e.cl → t.vault c = s.vault c) ∧
        t = { s with threads := t.threads, clusters := t.clusters }))) ∧
  (∀ (s : State) (e : Env) (h : Head) (cg : ClusterGroup), tget? s.cgroups e.g.cgid = some cg →
    (∀ (pd : BitVec 3) (off len : Src) (vo vl : SrcVal) (o l : Nat), Ready s e h [{ src := off }, { src := len }] [] s [vo, vl] →
      vo.tok = none → vl.tok = none → o = vo.v32.toNat → l = vl.v32.toNat → cg.len ≠ 0 → 64 ≤ l → o + l ≤ cg.len → meetsRing cg o l = false →
      o % 64 = 0 → l % 64 = 0 →
      (cg.window.isSome → exec (.vsplitXopen h pd off len) s = .next (s.setThread e.tid { writePred e.t pd false none with pc := pcAdd e.t.pc 8 })) ∧
      (cg.window = none → ∀ a, vPlace s e.cl l 64 (min (s.vault e.cl).split (grantOf s e.cx) * 2 ^ 18) = some a →
        exec (.vsplitXopen h pd off len) s = .next { s with
          threads := tput s.threads e.tid { writePred e.t pd true none with pc := pcAdd e.t.pc 8 }
          cgroups := tput s.cgroups e.g.cgid { cg with window := some { off := o, len := l, shadowAt := a, recs := [] } } })) ∧
    (Enabled s e h → exec (.vsplitXclose h) s = .next { s with
      threads := tput s.threads e.tid { e.t with pc := pcAdd e.t.pc 8 }
      cgroups := tput s.cgroups e.g.cgid { cg with window := none } }))

/-- R237, R239, R244, R245, R246. VSPLIT.RING and VSPLIT.RFREE define and free rings; BUOYS arms a Buoy and BUOYW waits for
it. -/
def Obligations.RingsAndBuoysAreMadeAndWaitedFor : Prop :=
  (∀ (s : State) (e : Env) (h : Head) (cg : ClusterGroup), tget? s.cgroups e.g.cgid = some cg → e.t.status = .ready →
    (∀ (d : Reg) (num : Nat) (base cfg : Src) (vb vc : SrcVal) (o c : Nat) (r : Ring), Ready s e h [{ src := base }, { src := cfg }] [{ reg := d }] s [vb, vc] →
      poppedAny [{ src := base }, { src := cfg }] [vb, vc] = false → Lands d → vb.tok = none → vc.tok = none → o = vb.v32.toNat → c = vc.v32.toNat → c < 128 → r = { num := num, base := o, lg := c % 32, ssz := c / 32 } →
      1 ≤ r.lg → r.lg ≤ 16 → r.ssz < 3 → cg.len ≠ 0 → o + ringBytes r ≤ cg.len → meetsRing cg o (ringBytes r) = false → cg.window = none → o % 64 = 0 →
      NoBuoyWaiter s → VaultSound (s.vault e.cl) → cg.base % 64 = 0 → (s.cgroups.filter fun p => p.2.cluster = e.cl).foldl (fun k p => k + p.2.rings.length) 0 < 32 →
      num < 32 → (∀ q ∈ cg.rings, q.num ≠ num) → (∀ k, k < num → ∃ q ∈ cg.rings, q.num = k) →
      ∃ t, exec (.vsplitRing h d base cfg) s = .next t ∧
        t.threads = tput s.threads e.tid { landed e.t d [(BitVec.ofNat 32 num, false)] with pc := pcAdd e.t.pc 8 } ∧
        t.cgroups = tput s.cgroups e.g.cgid { cg with rings := cg.rings ++ [r] } ∧
        VaultWritten s t e.cl (cg.base + o) (leBytes 4 0 ++ leBytes 4 0 ++ leBytes 4 0 ++ leBytes 4 c ++ List.replicate 48 0)) ∧
    (∀ (num : Src) (v : SrcVal) (r : Ring), Ready s e h [{ src := num }] [] s [v] → v.tok = none →
      (cg.rings.find? fun q => q.num = v.v32.toNat) = some r → r.reserved = [] → r.opens = [] →
      ∃ t, exec (.vsplitRfree h num) s = .next t ∧ t.threads = tput s.threads e.tid { e.t with pc := pcAdd e.t.pc 8 } ∧
        t.cgroups = tput s.cgroups e.g.cgid { cg with rings := cg.rings.filter fun q => q.num ≠ v.v32.toNat } ∧ t.clusters = s.clusters ∧
        (∀ gid g, tget? t.groups gid = some g → ∀ p ∈ g.ports, p.binding ≠ .ring e.g.cgid v.v32.toNat)) ∧
    (∀ (num : Src) (v : SrcVal), Ready s e h [{ src := num }] [] s [v] → v.tok = none → (∀ q ∈ cg.rings, q.num ≠ v.v32.toNat) →
      exec (.vsplitRfree h num) s = .next (raise s e { cause := 9, code := 0x02, token := mkToken 0x02 2 e.t.pc.offset }))) ∧
  (∀ (s : State) (e : Env) (h : Head) (a : Src) (k : VHit), NoBuoyWaiter s →
    (∀ (v : OpB) (va : SrcVal) (rest : List SrcVal) (n : Nat), Ready s e h ({ src := a } :: srcReqs (v.srcs 2)) [] s (va :: rest) → Unpoisoned (va :: rest) →
      VaultReach s e va.v32 0 8 .write k →
      n = (match v with
        | .imm x => x.toNat
        | .reg _ => (rest.headD default).v64.toNat) →
      ∃ t, exec (.buoys h a v) s = .next t ∧ t.threads = tput s.threads e.tid { e.t with pc := pcAdd e.t.pc 8 } ∧
        VaultWritten s t k.cl k.off (leBytes 8 (n % 2 ^ 62)) ∧ (∀ x ∈ (t.cluster k.cl).enrol, x.1 ≠ k.off)) ∧
    (∀ (d : Reg) (va : SrcVal) (w : Nat), Ready s e h [{ src := a }] [{ reg := d, words := 2 }] s [va] → Lands d → va.tok = none →
      VaultReach s e va.v32 0 8 .read k → w = leNat (vaultBytes s k.cl k.off 8) →
      (w % 2 ^ 62 = 0 → ∃ t, exec (.buoyw h d a) s = .next t ∧ (∀ c, t.vault c = s.vault c) ∧ t.mem = s.mem ∧
        t.threads = tput s.threads e.tid { landed e.t d (cleanWords (valWords 2 w)) with pc := pcAdd e.t.pc 8 }) ∧
      (w % 2 ^ 62 ≠ 0 → ∃ t, exec (.buoyw h d a) s = .next t ∧ (∀ c, t.vault c = s.vault c) ∧ t.mem = s.mem ∧
        t.threads = tput s.threads e.tid { e.t with status := .parked (.buoyw k.cl k.off d), fetched := [] })))

/-- R126, R128, R135. FSET sets and clears full tags, KSET writes group constants, REGS resizes the register set. -/
def Obligations.TagsConstantsAndRegisterCountsChange : Prop :=
  (∀ (s : State) (e : Env) (h : Head) (w64 : Bool) (n : Nat), Ready s e h [] [{ reg := .x n, words := if w64 then 2 else 1 }] s [] → n + 1 < e.t.regs.length →
    (∃ t, exec (.fsetSet h w64 (.x n)) s = .next (s.setThread e.tid t) ∧ t = { e.t with pc := pcAdd e.t.pc 8, regs := t.regs } ∧
      ∀ m, regAt t m = if m = n ∨ (w64 = true ∧ m = n + 1) then { regAt e.t m with full := true } else regAt e.t m) ∧
    (∃ t, exec (.fsetClr h w64 (.x n)) s = .next (s.setThread e.tid t) ∧ t = { e.t with pc := pcAdd e.t.pc 8, regs := t.regs } ∧
      ∀ m, regAt t m = if m = n ∨ (w64 = true ∧ m = n + 1) then { regAt e.t m with full := false } else regAt e.t m)) ∧
  (∀ (s : State) (e : Env) (h : Head) (w64 : Bool) (r : Nat), r + 1 < e.g.k.length →
    (∀ i : BitVec 18, Enabled s e h →
      exec (.kset h w64 (.k r) (.imm i)) s = .next { s with
        threads := tput s.threads e.tid { e.t with pc := pcAdd e.t.pc 8 }
        groups := tput s.groups e.t.gid
          { e.g with k := if w64 then (e.g.k.set r ((i.signExtend 64).setWidth 32)).set (r + 1) ((i.signExtend 64).extractLsb' 32 32) else e.g.k.set r (i.signExtend 32) } }) ∧
    (∀ (a : Src) (v : SrcVal), Ready s e h [{ src := a, words := if w64 then 2 else 1 }] [] s [v] →
      (∀ tok, v.tok = some tok → exec (.kset h w64 (.k r) (.reg a)) s = .next (raise s e { cause := 9, code := tokCode tok, token := tok })) ∧
      (v.tok = none → v.words.length = (if w64 then 2 else 1) →
        exec (.kset h w64 (.k r) (.reg a)) s = .next { s with
          threads := tput s.threads e.tid { e.t with pc := pcAdd e.t.pc 8 }
          groups := tput s.groups e.t.gid
            { e.g with k := if w64 then (e.g.k.set r (v.words.getD 0 0)).set (r + 1) (v.words.getD 1 0) else e.g.k.set r (v.words.getD 0 0) } }))) ∧
  (∀ (s : State) (e : Env) (h : Head) (pd : BitVec 3) (n : BitVec 18), Enabled s e h → e.g.regsRdv = [] → e.g.growing = none →
    ((∃ p ∈ s.liveOf e.t.gid, p.1 ≠ e.tid) →
      exec (.regs h pd n) s = .next { s with
        threads := tput s.threads e.tid { e.t with status := .parked (.regs pd), fetched := [] }
        groups := tput s.groups e.t.gid { e.g with regsRdv := [(e.tid, n.toNat)] } }) ∧
    ((∀ p ∈ s.threads, p.2.gid = e.t.gid → p.1 = e.tid) → tsorted s.threads = true → e.t.status = .ready → n.toNat ≤ e.g.nregs → e.g.nregs ≤ 192 → e.inst.tsz ≤ 1024 →
      (∀ c ∈ e.t.regs.drop n.toNat, c.pend = .no ∧ c.lent = false) →
      ∃ t, exec (.regs h pd n) s = .next t ∧ tget? t.groups e.t.gid = some { e.g with nregs := n.toNat } ∧
        tget? t.threads e.tid = some { writePred e.t pd true none with
          pc := pcAdd e.t.pc 8, fetched := [], regs := e.t.regs.take n.toNat ++ List.replicate (n.toNat - e.t.regs.length) {} } ∧
        t.mem = s.mem ∧ ∀ j, j ≠ e.tid → tget? t.threads j = tget? s.threads j))

/-- R129, R131, R132, R133, R134. QBIND binds a port, QSTAT reads its ring's state, QCLOSE closes its ring. -/
def Obligations.PortsBindQueryAndClose : Prop :=
  ∀ (s : State) (e : Env) (h : Head) (q : Nat), q < e.g.ports.length →
    (∀ (a : Src) (v : SrcVal) (b : Binding), Ready s e h [{ src := a }] [] s [v] → v.tok = none → portHeld s e.g e.t.gid q = false →
      (v.v32.extractLsb' 24 6 = 0 ∧
        ((v.v32.extractLsb' 30 2 = 0 ∧ v.v32.extractLsb' 0 24 = 0 ∧ b = .unbound) ∨ (v.v32.extractLsb' 30 2 = 3 ∧ v.v32.extractLsb' 0 24 = 0 ∧ b = .jobs) ∨
         (v.v32.extractLsb' 30 2 = 1 ∧ (v.v32.extractLsb' 0 24).toNat < 32 ∧ (findRing s e.g.cgid (v.v32.extractLsb' 0 24).toNat).isSome ∧
           b = .ring e.g.cgid (v.v32.extractLsb' 0 24).toNat)) →
        exec (.qbind h (.q q) a) s = .next { s with
          threads := tput s.threads e.tid { e.t with pc := pcAdd e.t.pc 8 }
          groups := tput s.groups e.t.gid { e.g with ports := e.g.ports.set q { binding := b, pops := [] } } }) ∧
      ((v.v32.extractLsb' 24 6 ≠ 0 ∨ (v.v32.extractLsb' 30 2 = 0 ∧ v.v32.extractLsb' 0 24 ≠ 0) ∨
         (v.v32.extractLsb' 30 2 = 1 ∧ findRing s e.g.cgid (v.v32.extractLsb' 0 24).toNat = none)) → h.sp = false →
        exec (.qbind h (.q q) a) s = .next (raise s e { cause := 9, code := 0x0E, token := mkToken 0x0E 0 e.t.pc.offset }))) ∧
    (∀ d, Lands d → Ready s e h [] [{ reg := d, words := 2 }] s [] →
      ((e.g.ports.getD q {}).binding = .unbound →
        exec (.qstat h d (.q q)) s = .next (s.setThread e.tid { landed e.t d [(0, false), (0, false)] with pc := pcAdd e.t.pc 8 })) ∧
      (∀ cgid num cg r, (e.g.ports.getD q {}).binding = .ring cgid num → findRing s cgid num = some (cg, r) → r.ssz < 4 → r.discarded < 2 ^ 26 →
        freeSlots r < 2 ^ 16 → (readySlots r).length < 2 ^ 16 →
        exec (.qstat h d (.q q)) s = .next (s.setThread e.tid { landed e.t d
          [(BitVec.ofNat 16 (freeSlots r) ++ BitVec.ofNat 16 (readySlots r).length, false),
           (1#1 ++ (if r.closed then 1#1 else 0#1) ++ 1#2 ++ BitVec.ofNat 2 r.ssz ++ BitVec.ofNat 26 r.discarded, false)] with pc := pcAdd e.t.pc 8 }))) ∧
    (∀ (a : Src) (v : SrcVal), Ready s e h [{ src := a }] [] s [v] →
      ((e.g.ports.getD q {}).binding = .unbound →
        exec (.qclose h (.q q) a) s = .next (raise s e { cause := 9, code := 0x0E, token := mkToken 0x0E 0 e.t.pc.offset })) ∧
      ((e.g.ports.getD q {}).binding = .jobs →
        exec (.qclose h (.q q) a) s = .next (raise s e { cause := 9, code := 0x02, token := mkToken 0x02 0 e.t.pc.offset })) ∧
      (∀ cgid num cg r, (e.g.ports.getD q {}).binding = .ring cgid num → findRing s cgid num = some (cg, r) → v.tok = none → r.closed = false → r.opens = [] →
        ∃ t, exec (.qclose h (.q q) a) s = .next t ∧ t.threads = tput s.threads e.tid { e.t with pc := pcAdd e.t.pc 8 } ∧ t.groups = s.groups ∧ t.mem = s.mem ∧
          t.cgroups = tput s.cgroups cgid { cg with rings := cg.rings.map fun x => if x.num = r.num then { r with closed := true, cval := v.v32, discarded := min r.discarded 0xFFFFFFFF } else x }))

/-- R231, R262, R263, R373, R376, R377. MFSR reads and MTSR writes each system register, with the reserved bits checked. -/
def Obligations.SystemRegistersAreReadAndWritten : Prop :=
  (∀ (s : State) (e : Env) (h : Head) (d : Reg), Lands d →
    let gets (num : BitVec 12) (w : Nat) (v : Nat) := Ready s e h [] [{ reg := d, words := w }] s [] →
      exec (.mfsr h d num) s = .next (s.setThread e.tid { landed e.t d (cleanWords (valWords w v)) with pc := pcAdd e.t.pc 8 })
    gets 0x000 1 (s.ctx e.cx).tmode.toNat ∧ gets 0x001 1 e.t.flags.toNat ∧ gets 0x002 2 (s.ctx e.cx).trapbase.toNat ∧
    gets 0x010 1 e.t.tfcause.toNat ∧ gets 0x011 1 e.t.tftoken.toNat ∧ gets 0x012 2 e.t.tfpc.toNat ∧ gets 0x013 1 e.t.tfrqn.toNat ∧
    gets 0x014 1 e.t.tfaux.toNat ∧ gets 0x015 2 e.t.tfs0.toNat ∧ gets 0x016 2 e.t.tfs1.toNat ∧ gets 0x020 1 (s.ctx e.cx).foglim.toNat ∧
    (∀ i, i < 8 → (e.t.tfrqn.toNat ≤ i → gets (BitVec.ofNat 12 (0x018 + i)) 2 0) ∧
      (∀ a, i < e.t.tfrqn.toNat → e.t.replay[i]? = some (.acc a) →
        gets (BitVec.ofNat 12 (0x018 + i)) 2 (a.off.toNat * 2 ^ 24 + a.op.toNat * 2 ^ 16 + a.fmt.toNat * 2 ^ 14 + a.dst.headD 0 * 2 ^ 6))) ∧
    gets 0x030 1 (vgrpWord (s.vault e.cl)) ∧
    ((s.ctx e.cx).armed = none → gets 0x100 1 (s.ctx e.cx).pcsel.toNat ∧ gets 0x101 1 0) ∧
    (∀ st ev, (s.ctx e.cx).armed = some (st, ev) →
      gets 0x100 1 ((s.ctx e.cx).pcsel.toNat + 2 ^ 31) ∧ gets 0x101 1 (tgetD 0 (s.ctx e.cx).counts ((s.ctx e.cx).pcsel.toNat % 256)))) ∧
  (∀ (s : State) (e : Env) (h : Head) (a : Src) (v : SrcVal) (num : BitVec 12) (w : Nat), w = sysWords num → Ready s e h [{ src := a, words := w }] [] s [v] →
    (∀ tok, v.tok = some tok → exec (.mtsr h num a) s = .next (raise s e { cause := 9, code := tokCode tok, token := tok })) ∧
    (v.tok = none → v.words.length = w →
      let x := v.nat w
      let bad := exec (.mtsr h num a) s = .next (raise s e { cause := 4, aux := 12 })
      let thr (t : Thread) := exec (.mtsr h num a) s = .next (s.setThread e.tid { t with pc := pcAdd e.t.pc 8 })
      let ctx (c : Ctx → Ctx) :=
        exec (.mtsr h num a) s = .next (s.setThread e.tid { e.t with status := .parked (.mtsr num.toNat x), fetched := [] }) ∧
        ∀ (s2 : State) (e2 : Env), s2.env? e2.tid = some e2 → e2.t.status = .parked (.mtsr num.toNat x) → engineRuns s2 e2.cx = true →
          exec (.threadWake e2.tid) s2 =
            .next ((s2.setCtx e2.cx (c (s2.ctx e2.cx))).setThread e2.tid { e2.t with status := .ready, pc := pcAdd e2.t.pc 8 })
      (num = 0x000 → (2 ^ 7 ≤ x → bad) ∧ (x < 2 ^ 7 → ctx fun c => { c with tmode := BitVec.ofNat 32 x })) ∧
      (num = 0x001 → (2 ^ 5 ≤ x → bad) ∧ (x < 2 ^ 5 → thr { e.t with flags := BitVec.ofNat 5 x })) ∧
      (num = 0x002 → (x.testBit 1 = true → bad) ∧ (x.testBit 1 = false → ctx fun c => { c with trapbase := BitVec.ofNat 64 x })) ∧
      (num = 0x012 → (x % 4 ≠ 0 → bad) ∧ (x % 4 = 0 → thr { e.t with tfpc := BitVec.ofNat 64 x })) ∧
      (num = 0x015 → thr { e.t with tfs0 := BitVec.ofNat 64 x }) ∧ (num = 0x016 → thr { e.t with tfs1 := BitVec.ofNat 64 x }) ∧
      (num = 0x020 → ctx fun c => { c with foglim := BitVec.ofNat 32 x }) ∧
      (num = 0x100 → x < 2 ^ 14 → x.testBit 11 = false → ctx fun c => { c with pcsel := BitVec.ofNat 32 (c.pcsel.toNat / 2 ^ 8 * 2 ^ 8 + x % 2 ^ 8) })))

/-- R264, R265, R266, R271, R272. XCOPY queues a legal copy and refuses a malformed one; KEYLD and KEYLD.CLR answer their
codes. -/
def Obligations.CopiesAndKeySlotsAreAccepted : Prop :=
  (∀ (s : State) (e : Env) (h : Head) (a : Src) (disp : BitVec 32) (v : SrcVal) (k hb hs : VHit) (b : ReqBlock),
    Ready s e h [{ src := a }] [] s [v] → v.tok = none → NoBuoyWaiter s → VaultReach s e v.v32 disp.toInt 64 .read k →
    b = readBlock (vaultBytes s k.cl k.off 64) → vaultCheck s e.cl e.g.iid b.buoy 0 8 8 .write = .ok hb →
    vaultCheck s e.cl e.g.iid (movedAddr v.v32 k.o) 60 4 4 .write = .ok hs → VaultSound (s.vault hs.cl) → hs.off % 64 + 4 ≤ 64 →
    ((s.cluster e.cl).copies.filter fun c => !c.started).length < 64 →
    (badShape b = false → b.dec = false →
      ∃ t, exec (.xcopy h a disp) s = .next t ∧ t.threads = tput s.threads e.tid { e.t with pc := pcAdd e.t.pc 12 } ∧ t.mem = s.mem ∧ t.ctxs = s.ctxs ∧
        (t.cluster e.cl).copies = (s.cluster e.cl).copies ++
          [({ id := s.fresh, ctx := e.cx, iid := e.g.iid, cgid := e.g.cgid, gid := e.t.gid, blockAt := movedAddr v.v32 k.o, blk := b } : Copy)] ∧
        ((b.dv = true ∧ b.pc = true) → ∀ l ∈ dstLines s e.cl e.g.iid b, l.2 ∈ (t.vault l.1).absent) ∧
        ((b.dv = false ∨ b.pc = false) → VaultWritten s t hs.cl hs.off [0, 0, 0, 0])) ∧
    (badShape b = true →
      ∃ t, exec (.xcopy h a disp) s = .next t ∧ t.threads = tput s.threads e.tid { e.t with pc := pcAdd e.t.pc 12 } ∧ t.mem = s.mem ∧
        ∀ c, (t.cluster c).copies = (s.cluster c).copies)) ∧
  (∀ (s s1 : State) (e : Env) (h : Head) (a : Src) (disp : BitVec 32) (v : SrcVal), Ready s e h [{ src := a }] [] s1 [v] →
    (∀ tok, v.tok = some tok → exec (.xcopy h a disp) s = .next (raise s e { cause := 9, code := tokCode tok, token := tok })) ∧
    (∀ c, v.tok = none → vaultCheck s1 (e.refresh s1).cl (e.refresh s1).g.iid v.v32 disp.toInt 64 64 .read = .error c →
      exec (.xcopy h a disp) s = .next (raise s e { cause := 9, code := c, token := mkToken c 2 e.t.pc.offset }))) ∧
  (∀ (s : State) (e : Env) (h : Head) (d : Reg), Lands d →
    let gives (s : State) (v : Word) : Out := .next (s.setThread e.tid { landed e.t d [(v, false)] with pc := pcAdd e.t.pc 12 })
    (∀ (slot : Src) (v : SrcVal), Ready s e h [{ src := slot }] [{ reg := d }] s [v] → v.tok = none →
      (63 < v.v32.toNat → exec (.keyldClr h d slot) s = gives s 5) ∧
      (v.v32.toNat ≤ 63 → tget? s.slots v.v32.toNat = none → exec (.keyldClr h d slot) s = gives s 0) ∧
      (∀ k, v.v32.toNat ≤ 63 → tget? s.slots v.v32.toNat = some k →
        (k.ctx ≠ e.cx → exec (.keyldClr h d slot) s = gives s 1) ∧
        (k.ctx = e.cx → slotInFlight s v.v32.toNat = false →
          exec (.keyldClr h d slot) s = gives { s with slots := terase s.slots v.v32.toNat } 0))) ∧
    (∀ (base slot : Src) (disp : BitVec 32) (r v : SrcVal), Ready s e h [{ src := base, words := 2 }, { src := slot }] [{ reg := d }] s [r, v] →
      r.tok = none → v.tok = none →
      (63 < v.v32.toNat → exec (.keyld h d base slot disp) s = gives s 5) ∧
      (v.v32.toNat ≤ 63 → (tget? s.slots v.v32.toNat).isSome → exec (.keyld h d base slot disp) s = gives s 1) ∧
      (∀ s2 hit, v.v32.toNat ≤ 63 → tget? s.slots v.v32.toNat = none → access s e.cl e.cx (wordRef r.v64) disp.toInt 128 16 kindRead = (s2, .ok hit) →
        (streamReaches s2 e.cx hit.pas = false → exec (.keyld h d base slot disp) s = gives s2 2) ∧
        (∀ x, keyRecord s2 e.cx hit (hit.pas.map (s2.loadByte (.group e.t.gid e.g.core))) = x →
          exec (.keyld h d base slot disp) s = (match x with
            | (_, some k) => gives { s2 with slots := tput s2.slots v.v32.toNat k } 0
            | (st, none) => gives s2 (BitVec.ofNat 32 st))))))

/-- R346, R350, R351, R353. POST queues a legal card with its fill register pending and its predicate true. -/
def Obligations.PostedCardsAreQueued : Prop :=
  ∀ (s s2 : State) (e : Env) (h : Head) (target : PostTarget) (pd : BitVec 3) (base : Src) (disp : BitVec 32) (v : SrcVal) (hit : Hit) (pa : Nat)
    (c : Card) (key : QKey) (dev : Bool) (fill : Reg),
    Ready s e h [{ src := base, words := 2 }] [{ reg := fill }] s [v] → v.tok = none → e.t.status = .ready → e.t.items = [] → e.t.sb = [] →
    access s e.cl e.cx (wordRef v.v64) disp.toInt 64 64 kindRead = (s2, .ok hit) → hit.pas.head? = some pa → pa % 64 = 0 →
    hopFault s2 e target = none → Readable s2 (.group e.t.gid e.g.core) pa →
    c = readCard (BitVec.ofNat 512 (s2.viewNat (.group e.t.gid e.g.core) pa 64)) → targetQueue e.g.core target = (key, dev) → checkCard c key dev = none →
    queueLen s2 key < queueCap key → (s2.ctx e.cx).state ≠ .saved → (∀ p ∈ s2.cards, p.2.spilled = false) →
    ∃ t q, exec (.post h target pd base fill disp) s = .next t ∧ t.mem = s2.mem ∧ tget? t.cards s2.fresh = some q ∧
      q.ctx = e.cx ∧ q.card = c ∧ q.key = key ∧ q.dev = dev ∧ q.spilled = false ∧ q.ref = refWord ((wordRef v.v64).plus disp.toInt) ∧
      q.fill = ((xRegs fill 1).head?.map fun r => (e.tid, r)) ∧ q.notice = (if c.nv then some e.t.gid else none) ∧
      t.threads = tput s.threads e.tid
        { writePred ((xRegs fill 1).foldl (fun t r => setPending t r .other) e.t) pd true none with pc := pcAdd e.t.pc 12 }

/-- R276, R279, R280, R281, R284, R287, R288. Each MMA lends its fragments and joins the open set; the last signer queues the
operation. -/
def Obligations.MmaSignersJoinAndQueueTheirSet : Prop :=
  (∀ (s : State) (e : Env) (i : Instr) (aty : Nat) (o : MmaO) (vals : List SrcVal) (cv : Cv) (target : Nat),
    mmaOf i = some (aty, o) → Ready s e o.h (mmaSrcs aty o) (mmaDsts aty o) s vals → Unpoisoned vals → MmaPasses s e aty o vals →
    e.t.regs.length = e.g.nregs → e.g.cvs[o.cv.toNat]? = some cv → (∀ x ∈ cv.sigs, x.tid ≠ e.tid) →
    target = (if cv.target = 0 then o.size.toNat + 1 else cv.target) → cv.sigs.length + 1 < target →
    ∃ t sig th, exec i s = .next t ∧ t = { s with threads := tput s.threads e.tid th, groups := t.groups } ∧
      t.groups = tput s.groups e.t.gid { e.g with cvs := e.g.cvs.set o.cv.toNat { cv with target := target, sigs := cv.sigs ++ [sig] } } ∧
      sig.tid = e.tid ∧ sig.tix = e.t.tix ∧ sig.u = none ∧ sig.lent = mmaLent aty o ∧
      sig.afrag = (if o.aVault then [] else fragOf e.t o.a.reg (mmaA aty o)) ∧ sig.bfrag = (if o.bVault then [] else fragOf e.t o.b.reg (mmaBn aty o)) ∧
      sig.cfrag = (if o.cVault || !o.acc then [] else fragOf e.t o.c (mmaC aty o)) ∧ sig.cdst = (if o.cVault then none else (xRegs o.c (mmaC aty o)).head?) ∧
      th = { e.t with pc := pcAdd e.t.pc 12, regs := th.regs } ∧
      (∀ n, n ∉ dstRegs (mmaDsts aty o) → regAt th n = { regAt e.t n with lent := (regAt e.t n).lent || (mmaLent aty o).contains n }) ∧
      (∀ n ∈ dstRegs (mmaDsts aty o), (regAt th n).pend = .other ∧ (regAt th n).full = false)) ∧
  (∀ (s : State) (e : Env) (i : Instr) (aty : Nat) (o : MmaO) (vals : List SrcVal) (cv : Cv) (q : List MatOp),
    mmaOf i = some (aty, o) → Ready s e o.h (mmaSrcs aty o) (mmaDsts aty o) s vals → Unpoisoned vals → MmaPasses s e aty o vals →
    e.t.regs.length = e.g.nregs → e.g.cvs[o.cv.toNat]? = some cv → (∀ c ∈ e.g.cvs, c.sigs = []) → cv.target = 0 → o.size = 0 →
    (s.cluster e.cl).mqs[e.g.mqueue]? = some q → q.length < 4 →
    ∃ t op th, exec i s = .next t ∧ t = { s with threads := tput s.threads e.tid th, groups := t.groups, clusters := t.clusters, fresh := s.fresh + 1 } ∧
      t.groups = tput s.groups e.t.gid { e.g with
        cvs := e.g.cvs.set o.cv.toNat { cv with target := 0, sigs := [], serial := cv.serial + 1, ops := cv.ops ++ [(s.fresh, some cv.serial)] } } ∧
      t.clusters = tput s.clusters e.cl { s.cluster e.cl with mqs := (s.cluster e.cl).mqs.set e.g.mqueue (q ++ [op]) } ∧
      op.id = s.fresh ∧ op.ctx = e.cx ∧ op.gid = e.t.gid ∧ op.cv = o.cv.toNat ∧ op.serial = some cv.serial ∧ op.steps = o.steps.toNat + 1 ∧
      op.kind = .mma aty (mmaB aty o) (matAcc aty).toNat o.scale.toNat o.acc ∧ op.next = 0 ∧
      (o.aVault = false → op.a = .frag [fragOf e.t o.a.reg (mmaA aty o)]) ∧ (o.bVault = false → op.b = .frag [fragOf e.t o.b.reg (mmaBn aty o)]) ∧
      op.cdst = (if o.cVault then [] else ((xRegs o.c (mmaC aty o)).head?.map fun r => (e.tid, r)).toList) ∧
      th = { e.t with pc := pcAdd e.t.pc 12, regs := th.regs } ∧
      (∀ n, n ∉ dstRegs (mmaDsts aty o) → regAt th n = { regAt e.t n with lent := (regAt e.t n).lent && !(mmaLent aty o).contains n }) ∧
      (∀ n ∈ dstRegs (mmaDsts aty o), (regAt th n).pend = .other ∧ (regAt th n).full = false))

/-- R297, R298, R299, R300, R301, R302. MWAIT and MSTAT read their status; MTRN, MQNT and MCLR queue their operation. -/
def Obligations.MatrixWaitsAndTileOperationsComplete : Prop :=
  (∀ (s : State) (e : Env) (h : Head) (d : Reg), Lands d →
    (∀ (clr : Bool) (cv : BitVec 4) (c : Cv), Ready s e h [] [{ reg := d }] s [] → e.t.status = .ready → e.g.cvs[cv.toNat]? = some c →
      (c.ops = [] → (∀ x ∈ c.sigs, x.tid ≠ e.tid) →
        ∃ t, exec (.mwait h clr cv d) s = .next t ∧ t = { s with threads := t.threads, groups := t.groups } ∧
          t.threads = tput s.threads e.tid
            { landed e.t d [(c.status.getD 0, c.status.isSome)] with pc := pcAdd e.t.pc 12 } ∧
          (clr = false → t.groups = s.groups) ∧ (clr = true → t.groups = tput s.groups e.t.gid { e.g with cvs := e.g.cvs.set cv.toNat { c with status := none } })) ∧
      (c.ops ≠ [] → ∃ sets, exec (.mwait h clr cv d) s = .next (s.setThread e.tid
        { e.t with status := .parked (.mwait clr cv.toNat d (c.ops.map (·.1)) sets), fetched := [] }))) ∧
    (∀ clr : Bool, Ready s e h [] [{ reg := d, words := 2 }] s [] →
      ∃ t, exec (.mstat h clr d) s = .next t ∧ t = { s with threads := t.threads, groups := t.groups } ∧
        t.threads = tput s.threads e.tid { landed e.t d [(e.g.mstat.setWidth 32, false), (e.g.mstat.extractLsb' 32 32, false)] with pc := pcAdd e.t.pc 12 } ∧
        (clr = false → t.groups = s.groups) ∧ (clr = true → t.groups = tput s.groups e.t.gid { e.g with mstat := 0 }))) ∧
  (∀ (s : State) (e : Env) (h : Head) (cv : BitVec 4) (c : Cv) (q : List MatOp), e.g.cvs[cv.toNat]? = some c → (s.cluster e.cl).mqs[e.g.mqueue]? = some q → q.length < 4 →
    let queued (i : Instr) (kind : MatKind) (a b : MatOpnd) := ∃ t op, exec i s = .next t ∧
      t = { s with threads := t.threads, groups := t.groups, clusters := t.clusters, fresh := s.fresh + 1 } ∧
      t.threads = tput s.threads e.tid { e.t with pc := pcAdd e.t.pc 12 } ∧
      t.groups = tput s.groups e.t.gid { e.g with cvs := e.g.cvs.set cv.toNat { c with ops := c.ops ++ [(s.fresh, none)] } } ∧
      t.clusters = tput s.clusters e.cl { s.cluster e.cl with mqs := (s.cluster e.cl).mqs.set e.g.mqueue (q ++ [op]) } ∧
      op.id = s.fresh ∧ op.kind = kind ∧ op.a = a ∧ op.c = b ∧ op.ctx = e.cx ∧ op.steps = 1
    (∀ (w : BitVec 2) (dst : Reg) (a : Src) (va vd : SrcVal),
      Ready s e h [{ src := a, words := 2 }, { src := { reg := dst, wait := true }, words := 2 }] [] s [va, vd] → va.tok = none → vd.tok = none →
      descCheck s e.cl e.g.iid (readDesc va.v64) 1 (32 * 2 ^ w.toNat) false .read = none →
      descCheck s e.cl e.g.iid (readDesc vd.v64) 1 (32 * 2 ^ w.toNat) false .write = none →
      queued (.mtrn h w cv dst a) (.mtrn w.toNat) (.vault va.v64) (.vault vd.v64)) ∧
    (∀ (ty : BitVec 3) (b32 nosat : Bool) (dst : Reg) (a sc : Src) (va vs vd : SrcVal),
      Ready s e h [{ src := a, words := 2 }, { src := sc }, { src := { reg := dst, wait := true }, words := 2 }] [] s [va, vs, vd] →
      va.tok = none → vs.tok = none → vd.tok = none →
      descCheck s e.cl e.g.iid (readDesc va.v64) 1 (4 * matK (4 + ty.toNat)) false .read = none →
      rangeCheck s e.cl e.g.iid vs.v32 (32 * matK (4 + ty.toNat) / (if b32 then 32 else 16)) .write = none →
      descCheck s e.cl e.g.iid (readDesc vd.v64) 1 (rowBytes (4 + ty.toNat) (matK (4 + ty.toNat))) false .write = none →
      queued (.mqnt h ty b32 nosat cv dst a sc) (.mqnt (4 + ty.toNat) b32 nosat) (.vault va.v64) (.vault vd.v64)) ∧
    (∀ (acc : BitVec 2) (a : Src) (va : SrcVal), Ready s e h [{ src := a, words := 2 }] [] s [va] → va.tok = none →
      descCheck s e.cl e.g.iid (readDesc va.v64) 1 (32 * (if acc = 1 then 8 else 4)) true .write = none →
      queued (.mclr h acc cv a) (.mclr acc.toNat) .none (.vault va.v64)) ∧
    (∀ (acc : BitVec 2) (a : Src) (va : SrcVal) (k : Nat), Ready s e h [{ src := a, words := 2 }] [] s [va] → va.tok = none → h.sp = false →
      descCheck s e.cl e.g.iid (readDesc va.v64) 1 (32 * (if acc = 1 then 8 else 4)) true .write = some k →
      exec (.mclr h acc cv a) s = .next (raise s e { cause := 9, code := k, token := mkToken k 4 e.t.pc.offset })))

/-- R308, R309, R310, R313, R319. TRAVI initialises a ray window; TSTK spills and fills its stack. -/
def Obligations.RayWindowsAreInitialisedSpilledAndFilled : Prop :=
  (∀ (s s1 : State) (e : Env) (h : Head) (flags : BitVec 4) (n : Nat) (root : Src) (wv v : SrcVal),
    Ready s e h [winSrc n 0 8, { src := root }] [{ reg := .x (n + 8), words := 24 }] s1 [wv, v] → v.tok = none →
    (∀ j, j < 8 → (regAt e.t (n + j)).poison = false) →
    let win := readWin e.t n
    let status := if (validRay win.val).isSome then 2 else 0
    exec (.travi h flags (.x n) root) s = .next (s1.setThread e.tid
      { writeRegs e.t (n + 8) (cleanWords ([(regAt e.t (n + 7)).val, 0, 0, 0, BitVec.ofNat 32 (status * 2 ^ 24 + flags.toNat * 2 ^ 16), v.v32] ++
          List.replicate 18 0)) with pc := pcAdd e.t.pc 12 })) ∧
  (∀ (s s1 : State) (e : Env) (h : Head) (n : Nat) (base : Src) (disp : BitVec 32) (wv v : SrcVal) (win : Win),
    Ready s e h [winSrc n 12 1, { src := base, words := 2 }] [{ reg := .x (n + 12) }, { reg := .x (n + 16), words := 16 }] s1 [wv, v] ((List.range 32).map (n + ·)) →
    v.tok = none → captiveFull e.t = false → (∀ j, j < 32 → (regAt e.t (n + j)).poison = false ∧ (regAt e.t (n + j)).readable = true) →
    win = readWin e.t n →
    let i := Instr.tstk h (.x n) base disp
    (win.status ≠ 3 → exec i s = .next (s1.setThread e.tid { e.t with pc := pcAdd e.t.pc 12 })) ∧
    (∀ s2 hit, win.status = 3 → win.invalid = false → 8 ≤ win.depth → win.spilled < 0xFFFF → e.t.sb.length < 62 →
      access s1 e.cl e.cx (wordRef v.v64) (disp.toInt + 32 * (win.spilled : Int)) 32 16 kindWrite = (s2, .ok hit) →
      let at_ := (wordRef v.v64).plus (disp.toInt + 32 * (win.spilled : Int))
      let ws := (win.val.drop 16).take 8
      let st : Word := BitVec.ofNat 32 ((win.depth - 8) * 2 ^ 27 + 2 * 2 ^ 24 + win.cur * 2 ^ 21 + (if win.h then 2 ^ 20 else 0) + win.flags * 2 ^ 16 + (win.spilled + 1))
      let th : Thread :=
        { writeRegs (writeReg e.t (n + 12) st false) (n + 16) (cleanWords ((win.val.drop 24).take 8 ++ List.replicate 8 0)) with
          pc := pcAdd e.t.pc 12
          sb := e.t.sb ++ [.plain at_ ((ws.take 4).flatMap fun w => leBytes 4 w.toNat) false,
            .plain (at_.plus 16) ((ws.drop 4).flatMap fun w => leBytes 4 w.toNat) false] }
      exec i s = .next { s2 with threads := tput s.threads e.tid th }) ∧
    (∀ s2 hit, win.status = 3 → win.invalid = false → win.depth = 0 →
      access s1 e.cl e.cx (wordRef v.v64) (disp.toInt + 32 * ((win.spilled : Int) - 1)) 32 16 kindRead = (s2, .ok hit) →
      (∀ pa ∈ hit.pas, Readable s2 (.group e.t.gid e.g.core) pa) → awaitsLoad e.t hit.pas = false →
      let at_ := (wordRef v.v64).plus (disp.toInt + 32 * ((win.spilled : Int) - 1))
      (∀ k, k < 32 → ownByte e.t at_.index (at_.offset.toNat + k) = none) →
      let st : Word := BitVec.ofNat 32 (8 * 2 ^ 27 + 2 * 2 ^ 24 + win.cur * 2 ^ 21 + (if win.h then 2 ^ 20 else 0) + win.flags * 2 ^ 16 + (win.spilled - 1))
      ∃ t, exec i s = .next t ∧ t = { s2 with threads := t.threads, fresh := s2.fresh + 1, lines := t.lines, points := t.points } ∧
        t.threads = tput s.threads e.tid (issued (writeRegs (writeReg e.t (n + 12) st false) (n + 24) (List.replicate 8 (0, false))) 12
          { id := s2.fresh, kind := .done (cleanWords (bytesToWords (hit.pas.map (s2.viewByte (.group e.t.gid e.g.core)))))
            dst := (List.range 8).map (n + 16 + ·), quantum := e.quantum, off := e.t.pc.offset, op := 0xE5, fmt := 3, sp := h.sp })))

/-- R306, R309, R310, R314, R315. TRAV writes its window for an invalid, idle, empty, exhausted and one-node traversal. -/
def Obligations.TraversalsWriteTheirWindow : Prop :=
  ∀ (s s1 : State) (e : Env) (h : Head) (d : Reg) (n : Nat) (base inst : Src) (nmax : BitVec 16) (wv v i : SrcVal),
    Ready s e h [winSrc n 0 16, { src := base, words := 2 }, { src := inst }] [{ reg := d, words := 2 }, { reg := .x (n + 8), words := 24 }] s1 [wv, v, i] →
    Lands d → v.tok = none → i.tok = none → captiveFull e.t = false → (∀ j, j < 16 → (regAt e.t (n + j)).poison = false) →
    let win := readWin e.t n
    let kind := entryKind (win.word 13)
    let ends (s' t : State) (w : Win) := exec (.trav h d (.x n) base inst nmax) s = .next t ∧
      ∃ a : Acc, t.threads = tput s.threads e.tid (issued e.t 12 a) ∧ t = { s' with threads := t.threads, fresh := s'.fresh + 1, lines := t.lines, points := t.points } ∧
        a.id = s'.fresh ∧ a.kind = .trav [] (travCells d (cleanWords [BitVec.ofNat 32 w.status, 0]) w) ∧
        a.dst = xRegs d 2 ++ (List.range 24).map (n + 8 + ·) ∧ a.op = 0xE1 ∧ a.fmt = 3 ∧ a.sp = h.sp ∧ a.off = e.t.pc.offset ∧ a.quantum = e.quantum
    (win.invalid = true → ∃ t, ends s1 t { win with status := 4 }) ∧
    (win.invalid = false → win.status ≠ 2 → ∃ t, ends s1 t win) ∧
    (win.invalid = false → win.status = 2 → validRay win.val = none → ∃ t, ends s1 t { win with status := 0 }) ∧
    (∀ r, win.invalid = false → win.status = 2 → validRay win.val = some r →
      (kind = 0 → win.depth = 0 → ∃ t, ends s1 t { win with status := if win.spilled = 0 then 0 else 3 }) ∧
      (kind ≠ 0 → nmax = 0 → ∃ t, ends s1 t win) ∧
      (∀ s2 hit bs hits, kind = 1 → nmax = 1 → win.depth = 0 → win.spilled = 0 →
        access s1 e.cl e.cx (wordRef v.v64) (16 * (win.word 13).toNat % 2 ^ 31 : Nat) 128 1 kindRead = (s2, .ok hit) →
        (∀ pa ∈ hit.pas, Readable s2 (.group e.t.gid e.g.core) pa) → awaitsLoad e.t hit.pas = false → bs = hit.pas.map (s2.viewByte (.group e.t.gid e.g.core)) →
        hits = nodeHits r (if win.h then (fixed (win.word 8)).getD r.tmax else r.tmax) bs →
        ∃ t, ends s2 t { pushHits win hits with status := if hits = [] then 0 else 2 }))

/-- R310, R311, R317, R318. THIT accepts or rejects a candidate; TRI and TBOX issue the result of one test. -/
def Obligations.CandidatesAndSingleRayTestsComplete : Prop :=
  (∀ (s s1 : State) (e : Env) (h : Head) (n : Nat) (bary inst : Src) (wv b i : SrcVal) (win : Win),
    win = readWin e.t n → (∀ j, 6 ≤ j → j < 16 → (regAt e.t (n + j)).poison = false) → b.tok = none → i.tok = none →
    let writes (cells : List Word) := Host.Outcome.next (s1.setThread e.tid { writeRegs e.t (n + 8) (cleanWords cells) with pc := pcAdd e.t.pc 12 })
    let moves := Host.Outcome.next (s1.setThread e.tid { e.t with pc := pcAdd e.t.pc 12 })
    (Ready s e h [winSrc n 6 10] [{ reg := .x (n + 8), words := 8 }] s1 [wv] ((List.range 32).map (n + ·)) →
      (win.status ≠ 1 → exec (.thitRej h (.x n)) s = moves) ∧
      (win.status = 1 → win.invalid = false → exec (.thitRej h (.x n)) s =
        writes [win.word 8, win.word 9, win.word 10, win.word 11, { win with status := 2 }.state, win.word 13, 0, 0])) ∧
    (Ready s e h [winSrc n 6 10, { src := bary }, { src := inst }] [{ reg := .x (n + 8), words := 8 }] s1 [wv, b, i] ((List.range 32).map (n + ·)) →
      (win.status ≠ 1 → exec (.thitAcc h (.x n) bary inst) s = moves) ∧
      (win.status = 1 → win.invalid = false →
        (win.better (win.word 14) (win.word 15).toNat i.v32.toNat = false → exec (.thitAcc h (.x n) bary inst) s =
          writes [win.word 8, win.word 9, win.word 10, win.word 11, { win with status := 2 }.state, win.word 13, 0, 0]) ∧
        (win.better (win.word 14) (win.word 15).toNat i.v32.toNat = true → exec (.thitAcc h (.x n) bary inst) s =
          writes [win.word 14, win.word 15, b.v32, i.v32, { win with status := if win.flags.testBit 3 then 0 else 2, h := true }.state, win.word 13, 0, 0])))) ∧
  (∀ (s s1 s2 : State) (e : Env) (h : Head) (d : Reg) (n : Nat) (base : Src) (disp : BitVec 32) (wv v : SrcVal) (hit : Hit) (bs : List Byte) (ray : Option Ray),
    Ready s e h [winSrc n 0 8, { src := base, words := 2 }] [{ reg := d, words := 2 }] s1 [wv, v] ((List.range 32).map (n + ·)) →
    Lands d → v.tok = none → captiveFull e.t = false → (∀ j, j < 8 → (regAt e.t (n + j)).poison = false) →
    (∀ pa ∈ hit.pas, Readable s2 (.group e.t.gid e.g.core) pa) → awaitsLoad e.t hit.pas = false →
    bs = hit.pas.map (s2.viewByte (.group e.t.gid e.g.core)) →
    ray = validRay (readWin e.t n).val →
    let ends (i : Instr) (op : BitVec 8) (a b : Word) := ∃ t, exec i s = .next t ∧
      t.threads = tput s.threads e.tid (issued e.t 12
        { id := s2.fresh, kind := .done (cleanWords [a, b]), dst := xRegs d 2, quantum := e.quantum, off := e.t.pc.offset, op := op, fmt := 3, sp := h.sp }) ∧
      t = { s2 with threads := t.threads, fresh := s2.fresh + 1, lines := t.lines, points := t.points }
    (∀ cull : BitVec 2, access s1 e.cl e.cx (wordRef v.v64) disp.toInt 48 1 kindRead = (s2, .ok hit) →
      let tri (r : Ray) := triTest r (bytesToWords (bs.take 36))
      let kept (r : Ray) (x : TriHit) : Prop := (if x.front then cull.getLsbD 1 else cull.getLsbD 0) = false ∧ inInterval (some r.tmin) (some r.tmax) x.t = true
      (∀ r x, ray = some r → tri r = some x → kept r x → ends (.tri h cull d (.x n) base disp) 0xE3 x.t x.bary) ∧
      ((∀ r x, ray = some r → tri r = some x → ¬ kept r x) → ends (.tri h cull d (.x n) base disp) 0xE3 0x7F800000 0xFFFFFFFF)) ∧
    (∀ slot : BitVec 3, access s1 e.cl e.cx (wordRef v.v64) disp.toInt 128 1 kindRead = (s2, .ok hit) →
      let box (r : Ray) := (childBox bs slot.toNat).bind fun b => boxTest r r.tmax b.1 b.2
      (∀ r x, ray = some r → box r = some x →
        ends (.tbox h slot d (.x n) base disp) 0xE4 (BitVec.ofNat 32 (fracF32 .rd x.1)) (BitVec.ofNat 32 (fracF32 .ru x.2))) ∧
      ((∀ r x, ray = some r → box r ≠ some x) → ends (.tbox h slot d (.x n) base disp) 0xE4 0x7F800000 0xFF800000)))

/-- R322, R323, R325, R326, R329, R331, R332, R333, R335, R336. LNLK answers from the tag store; LNFIL, LNINV and LNAGE fill,
drop and age tiles. -/
def Obligations.LanternTilesAreLookedUpFilledAndAged : Prop :=
  (∀ (s s1 : State) (e : Env) (h : Head) (d : Reg) (obj uv key : Src) (vo vu vk : SrcVal),
    Ready s e h [{ src := obj }, { src := uv }, { src := key }] [{ reg := d, words := 4 }] s1 [vo, vu, vk] →
    Lands d → Unpoisoned [vo, vu, vk] → captiveFull e.t = false →
    let lnlk := Instr.lnlk h d obj uv key
    let lnlkW := Instr.lnlkW h d obj uv key
    let ends (i : Instr) (s' : State) (ws : List (Word × Bool)) := exec i s = .next { s' with
      fresh := s'.fresh + 1
      threads := tput s.threads e.tid (issued e.t 12
        { id := s'.fresh, kind := .done ws, dst := xRegs d 4, quantum := e.quantum, off := e.t.pc.offset, op := 0xE8, fmt := 3, sp := h.sp }) }
    (resolveKey s1 e.cx vk.v32 (·.look) = none →
      let ws := if h.sp then List.replicate 4 (mkToken 0x10 6 e.t.pc.offset, true) else cleanWords [4, 0, 0, 0]
      ends lnlk s1 ws ∧ ends lnlkW s1 ws) ∧
    (∀ g s2 raw w b, resolveKey s1 e.cx vk.v32 (·.look) = some g → bufferOf s1 e.cl e.cx g.heap = (s2, .ok raw) → tget? s2.worlds g.world = some w →
      checkEntry (s2.ctx e.cx) e.cx raw kindLook 0 (512 * w.nslot) = .ok b →
      let rev := keyRev vk.v32
      let level := keyLevel vk.v32
      let words (st : Word) (r : Nat) (slot : Nat) := cleanWords ([st, BitVec.ofNat 32 r] ++ valWords 2 (g.heap * 2 ^ 40 + 512 * slot))
      (∀ x, findKey s2 g.world vo.v32 vu.v32 level = some x → x.rev = rev →
        (x.valid = true → ends lnlk (putEntry s2 { x with age := 0 }) (words 0 rev x.slot) ∧ ends lnlkW (putEntry s2 { x with age := 0 }) (words 0 rev x.slot)) ∧
        (x.valid = false → ends lnlk s2 (words 1 rev x.slot) ∧
          exec lnlkW s = .next (s.setThread e.tid { e.t with status := .parked (.lnInflight g.world vo.v32 level vu.v32 rev), fetched := [] }))) ∧
      (findKey s2 g.world vo.v32 vu.v32 level = none →
        let home := lanternHome g.world vo.v32 vu.v32 level
        (lowestFree s2 g.world = none → ends lnlk s2 (cleanWords [3, 0, 0, 0]) ∧ ends lnlkW s2 (cleanWords [3, 0, 0, 0])) ∧
        (∀ slot, lowestFree s2 g.world = some slot → missHeld s2 g.world < 4096 → (∀ x ∈ s2.lantern, ¬ (x.die = home.1 ∧ x.set = home.2)) →
          let x : LEntry :=
            { die := home.1, set := home.2, way := 0, world := g.world, obj := vo.v32, level := level, uv := vu.v32, valid := false, rev := rev, age := 0
              tag := w.tag, slot := slot, claim := none }
          let r : List Word := [vo.v32, vu.v32, BitVec.ofNat 32 (rev * 2 ^ 16 + level * 2 ^ 8), BitVec.ofNat 32 slot]
          let s3 := { s2 with lantern := s2.lantern ++ [x], worlds := tput s2.worlds g.world { w with missq := w.missq ++ [r] } }
          ends lnlk s3 (words 2 0 slot) ∧ ends lnlkW s3 (words 2 0 slot))))) ∧
  (∀ (s s1 : State) (e : Env) (h : Head) (d : Reg) (obj uv key tgt : Src) (thr : BitVec 8) (vo vu vk vt : SrcVal),
    Lands d → Unpoisoned [vo, vu, vk, vt] →
    let park (s' : State) (p : Park) (ended : Bool) := Host.Outcome.next (s'.setThread e.tid { e.t with status := .parked p, fetched := [], ended := ended || e.t.ended })
    let denied := Host.Outcome.next (raise s1 (e.refresh s1) { cause := 9, code := 0x10, token := mkToken 0x10 6 e.t.pc.offset })
    let dn : List DstReq := [{ reg := d }]
    (Ready s e h [{ src := obj }, { src := uv }, { src := key }] dn s1 [vo, vu, vk] →
      (resolveKey s1 e.cx vk.v32 (·.fill) = none → h.sp = false → exec (.lnfil h d obj uv key) s = denied) ∧
      (∀ g, resolveKey s1 e.cx vk.v32 (·.fill) = some g →
        exec (.lnfil h d obj uv key) s = park s1 (.boundary (.lnfil 12 d g.world vo.v32 vu.v32 vk.v32 [])) true) ∧
      (∀ g, resolveKey s1 e.cx vk.v32 (·.inv) = some g →
        let popped := poppedAny [{ src := obj }, { src := uv }, { src := key }] [vo, vu, vk]
        let gives (s' : State) (c : Word) := exec (.lninvKey h d obj uv key) s = .next (produced s' (e.refresh s') false d [(c, false)] (landOp d none popped) 12)
        (findKey s1 g.world vo.v32 vu.v32 (keyLevel vk.v32) = none → gives s1 0) ∧
        (∀ x, findKey s1 g.world vo.v32 vu.v32 (keyLevel vk.v32) = some x → gives (dropEntry s1 x) 1))) ∧
    (Ready s e h [{ src := obj }, { src := key }] dn s1 [vo, vk] →
      (resolveKey s1 e.cx vk.v32 (·.inv) = none → h.sp = false →
        exec (.lninvObj h d obj key) s = denied ∧ exec (.lninvRev h d obj key) s = denied) ∧
      (∀ g, resolveKey s1 e.cx vk.v32 (·.inv) = some g →
        exec (.lninvObj h d obj key) s = park s1 (.lnWalk 1 d g.world g.heap vo.v32 0 0 0 [] 0 0) false ∧
        exec (.lninvRev h d obj key) s = park s1 (.lnWalk 2 d g.world g.heap vo.v32 (keyRev vk.v32) 0 0 [] 0 0) false)) ∧
    (∀ g w, Ready s e h [{ src := key }, { src := tgt }] [{ reg := d, words := 2 }] s1 [vk, vt] → keyRev vk.v32 = 0 → keyLevel vk.v32 = 0 →
      resolveKey s1 e.cx vk.v32 (·.age) = some g → tget? s1.worlds g.world = some w →
      (w.ageing = true → exec (.lnage h d key tgt thr) s = park s1 (.lnAge g.world) false) ∧
      (w.ageing = false → exec (.lnage h d key tgt thr) s =
        park { s1 with worlds := tput s1.worlds g.world { w with ageing := true } }
          (.lnWalk 3 d g.world g.heap 0 0 vt.v32.toNat thr.toNat w.pending 0 0) false)) ∧
    (∀ cx world (key : Word) (x : LEntry), findKey s world vo.v32 vu.v32 (keyLevel key) = some x →
      (x.valid = false → x.rev = keyRev key → (x.claim = none ∨ x.claim = some cx) →
        fillTile s cx world vo.v32 vu.v32 key = (putEntry s { x with valid := true, age := 0, claim := none }, 0)) ∧
      ((x.valid = true ∨ x.rev ≠ keyRev key ∨ ∃ c, x.claim = some c ∧ c ≠ cx) → fillTile s cx world vo.v32 vu.v32 key = (s, 1))))

/-- R339. SMPG and SMPG.GRID choose as many samples as the importance asks, at the positions of the rule. -/
def Obligations.SamplesAreChosenByImportance : Prop :=
  ∀ (s s1 : State) (e : Env) (h : Head) (d : Reg) (imp seed pos : Src) (vi vs vp : SrcVal) (p : Nat), Lands d → Unpoisoned [vi, vs, vp] →
    p = vi.v64.toNat / 2 ^ (4 * (vp.v32.toNat % 16)) % 16 →
    let gives (i : Instr) (v : Nat) (popped : Bool) :=
      exec i s = .next (produced s1 (e.refresh s1) false d (cleanWords (valWords 2 v)) (landOp d none popped) 12)
    (Ready s e h [{ src := imp, words := 2 }, { src := seed }, { src := pos }] [{ reg := d, words := 2 }] s1 [vi, vs, vp] →
      let mix (k : Nat) := mixRound (mixRound (mixRound (vs.v32.setWidth 64 ^^^ BitVec.ofNat 64 ((vp.v32.toNat * 8 + k) * 0x9E3779B97F4A7C15))))
      let at_ (k : Nat) := (mix k).toNat / 2 ^ 58 + 64 * ((mix k).toNat / 2 ^ 52 % 64)
      let c := p / 4 + (if (mix 7).toNat / 2 ^ 62 < p % 4 then 1 else 0)
      c ≤ 4 ∧ gives (.smpg h d imp seed pos) (c * 2 ^ 48 + (if 0 < c then at_ 0 else 0) + (if 1 < c then at_ 1 * 2 ^ 12 else 0) +
        (if 2 < c then at_ 2 * 2 ^ 24 else 0) + (if 3 < c then at_ 3 * 2 ^ 36 else 0))
        (poppedAny [{ src := imp, words := 2 }, { src := seed }, { src := pos }] [vi, vs, vp])) ∧
    (Ready s e h [{ src := imp, words := 2 }, { src := pos }] [{ reg := d, words := 2 }] s1 [vi, vp] →
      gives (.smpgGrid h d imp pos)
        (if p = 0 then 0 else if p ≤ 4 then 0x0001000000000820 else if p ≤ 8 then 0x0002000000C30410 else if p ≤ 12 then 0x0003000C20430410
          else 0x0004C30C10430410)
        (poppedAny [{ src := imp, words := 2 }, { src := pos }] [vi, vp]))

/-- R46, R90, R91, R94, R105, R199, R205, R282, R333. A wake lets a parked thread go on exactly when its wait has ended. -/
def Obligations.ParkedThreadsGoOnWhenTheirWaitEnds : Prop :=
  ∀ (s : State) (e : Env), s.env? e.tid = some e → engineRuns s e.cx = true →
    let wake := exec (.threadWake e.tid) s
    let goes (t : Thread) := Host.Outcome.next (s.setThread e.tid t)
    (∀ r, e.t.status = .parked (.full r) →
      ((regAt e.t r).readable = true → wake = goes { e.t with status := .ready }) ∧ ((regAt e.t r).readable = false → wake = .next s)) ∧
    (∀ len lvl ids, e.t.status = .parked (.fence len lvl ids) →
      ((∀ i ∈ e.t.items, i.id ∈ ids → i.counts lvl = false) → wake = goes { e.t with pc := pcAdd e.t.pc len, status := .ready }) ∧
      ((∃ i ∈ e.t.items, i.id ∈ ids ∧ i.counts lvl = true) → wake = .next s)) ∧
    (∀ len b phase bar, e.t.status = .parked (.barPhase len b phase) → e.g.bars[b]? = some bar →
      (phase < bar.phase → (∀ d ∈ bar.doneAt, d.1 = phase → d.2 ≤ e.quantum) → wake = goes { e.t with pc := pcAdd e.t.pc len, status := .ready }) ∧
      (bar.phase ≤ phase → wake = .next s)) ∧
    (∀ len pd r d, e.t.status = .parked (.tryw len pd r d) →
      let ends (v : Bool) := goes { writePred e.t pd v none with pc := pcAdd e.t.pc len, status := .ready }
      ((regAt e.t r).readable = true → wake = ends true) ∧ ((regAt e.t r).readable = false → wake = .next s) ∧
      (d ≤ (s.coreUnit e.g.core).clk → exec (.trywTimeout e.tid) s = ends (regAt e.t r).readable) ∧
      ((s.coreUnit e.g.core).clk < d → exec (.trywTimeout e.tid) s = .next s)) ∧
    (∀ len d world obj uv key, e.t.status = .parked (.lnfil len d world obj uv key []) → Lands d → (∀ n ∈ xRegs d 1, (regAt e.t n).lent = false ∧ (regAt e.t n).pend = .no) →
      let r := fillTile s e.cx world obj uv key
      wake = .next (r.1.setThread e.tid { landed e.t d [(r.2, false)] with pc := pcAdd e.t.pc len, status := .ready })) ∧
    ((s.coreUnit e.g.core).fog = [] → exec (.foghornTrap e.g.core) s = .next s) ∧
    ((s.coreUnit e.g.core).fog = [e.tid] →
      let rested := s.setCore e.g.core { s.coreUnit e.g.core with fog := [], quiet := 0 }
      (e.t.handler = true → exec (.foghornTrap e.g.core) s = .next rested) ∧
      (e.t.handler = false → exec (.foghornTrap e.g.core) s = .next (raise rested e { cause := 10, extra := if e.t.reinject then e.t.replay else [] }))) ∧
    (∀ cv v, e.g.cvs[cv]? = some v → v.target ≠ 0 → tsorted s.threads = true →
      (∀ p ∈ s.threads, p.2.gid = e.t.gid → p.2.status = .exited ∨ ∃ w, p.2.status = .parked w ∧ (w.onOthers = false ∨ ∃ x ∈ v.sigs, x.tid = p.1)) →
      ∃ t, exec (.matrixSetDiscard e.t.gid cv) s = .next t ∧ t = { s with threads := t.threads, groups := t.groups } ∧
        t.groups = tput s.groups e.t.gid { e.g with cvs := e.g.cvs.set cv { v with target := 0, sigs := [], serial := v.serial + 1 } } ∧
        (∀ n x, x ∈ v.sigs → x.tid = e.tid → n ∈ x.lent → (∀ c ∈ e.g.cvs.eraseIdx cv, ∀ y ∈ c.sigs, y.tid ≠ e.tid) →
          ∃ th, tget? t.threads e.tid = some th ∧ ((regAt e.t n).lent = true → n < e.t.regs.length → (regAt th n).lent = false)))

/-- R176, R179, R191, R192, R252, R254, R255, R256. A write is acknowledged level by level; remote ports read and write
lines; records and scrubs are made. -/
def Obligations.WritesAndRemoteRequestsReachMemory : Prop :=
  (∀ (s : State),
    (∀ f pre post, s.flights = pre ++ f :: post → (∀ x ∈ pre, x.id ≠ f.id) → (∀ x ∈ post, x.id ≠ f.id) → f.bound = none → f.items = [] → f.lvl < 3 → s.stopped = false →
      exec (.acknowledge f.id) s = .next { s with flights := pre ++ { f with lvl := f.lvl + 1, inL2 := f.inL2 || decide (1 ≤ f.lvl) } :: post }) ∧
    (∀ f pa bs, s.flights = [f] → f.bound = none → f.items = [] → f.lvl = 3 → s.stopped = false → f.cells = cellsAt pa bs → bs ≠ [] → f.whole = [] → f.marked = [] →
      (∀ i, i < bs.length → isHbm (pa + i) = true) → ∃ t, exec (.acknowledge f.id) s = .next t ∧ t.flights = [] ∧ Wrote s t pa bs) ∧
    (∀ f x pre mid post, s.flights = pre ++ x :: mid ++ f :: post → (∀ y ∈ pre ++ x :: mid, y.id ≠ f.id) → (∃ i k q r, f.bound = some (i, k, q) ∧ x.bound = some (i, k, r)) → x.lvl ≤ f.lvl →
      exec (.acknowledge f.id) s = .next s) ∧
    (∀ r : FRec, s.recs.find? (fun x => x.id = r.id) = some r → r.posted = false →
      let bytes := leBytes 8 r.addr ++ leBytes 2 r.ctx ++ leBytes 1 r.kind ++ leBytes 1 r.access ++ leBytes 4 r.level ++ leBytes 8 r.ref.toNat ++ List.replicate 8 0
      let pushed := if stageOf r.kind = 1 then pushRing s (ipaToPhys s r.ctx) (s.ctx r.ctx).gring bytes else pushRing s some (s.ctx r.ctx).hring bytes
      (pushed = none → exec (.faultRecordPost r.id) s = .next s) ∧
      (∀ s1, pushed = some s1 → exec (.faultRecordPost r.id) s = .next { s1 with recs := s1.recs.map fun x => if x.id = r.id then { x with posted := true } else x })) ∧
    (∀ leaf, leaf ∈ s.collapsing → isHbm leaf = true →
      ∃ t, exec (.readDupCollapse leaf) s = .next t ∧ leaf ∉ t.collapsing ∧ (∀ o a, t.viewByte o a = if a = leaf then s.viewByte .domain leaf &&& 0x7F else s.viewByte o a) ∧
        t.threads = s.threads ∧ ∀ c, (t.cluster c).tlb = (s.cluster c).tlb.filter (fun x => !(x.leaf = leaf)) ∧ (t.cluster c).vault = (s.cluster c).vault)) ∧
  (∀ (s : State) (stack : Nat) (rid : BitVec 16) (frame off : Nat) (data : BitVec 512), stack < 8 → s.stopped = false →
    let pa := (8 * frame + stack) * 2 ^ 21 + off
    (∀ st, aclCheck s stack rid frame off 61 = some st →
      exec (.remoteRead stack rid frame off) s = .next { s with refusals := listMod s.refusals stack (· + 1), replies := (1, st, []) :: s.replies }) ∧
    (∀ st, aclCheck s stack rid frame off 62 = some st →
      exec (.remoteWrite stack rid frame off data) s = .next { s with refusals := listMod s.refusals stack (· + 1), replies := (2, st, []) :: s.replies }) ∧
    (aclCheck s stack rid frame off 61 = none → s.viewMarked .domain (pa / 64) = true →
      exec (.remoteRead stack rid frame off) s = .next { s with refusals := listMod s.refusals stack (· + 1), replies := (1, 4, []) :: s.replies }) ∧
    (aclCheck s stack rid frame off 61 = none → s.viewMarked .domain (pa / 64) = false → meetsError s (pa / 64) = false →
      clashing (noteHash s defaultMasks pa) pa = false →
      ∃ t, exec (.remoteRead stack rid frame off) s = .next t ∧ t = { s with hashes := t.hashes, replies := t.replies, points := t.points } ∧
        t.replies = (1, 0, (List.range 64).map fun i => s.viewByte .domain (pa + i)) :: s.replies) ∧
    (aclCheck s stack rid frame off 62 = none → MemCanonical s →
      ∃ t, exec (.remoteWrite stack rid frame off data) s = .next t ∧ t.replies = (2, 0, []) :: s.replies ∧ Wrote s t pa (leBytes 64 data.toNat) ∧
        (∀ o, t.viewMarked o (pa / 64) = false) ∧ (∀ x ∈ t.lines, x.line ≠ pa / 64) ∧ t.ctxs = s.ctxs) ∧
    (∀ line, isHbm (64 * line) = true → line ∈ s.badLines →
      exec (.dramPatrolScrub line) s = .next { s with
        marks := setAdd s.marks line, badLines := setDel s.badLines line, scrubs := listMod s.scrubs (stackOf (64 * line)) (· + 1)
        points := (askPort s 9 line).points }))

/-- R181, R182, R394, R401, R402, R404. Tier pointers, demotion sweeps, fabric requests, identity, ports and forwarding
follow their rules. -/
def Obligations.TiersAndFabricRequestsAreServed : Prop :=
  ∀ (s : State),
    (∀ tier v, tier < 2 → hostAnswers s = true → exec (.tierPointerWrite tier v) s = .next { s with tierPtr := listMod s.tierPtr tier fun _ => v }) ∧
    (∀ tier, tier < 2 → s.stopped = false → (∀ m ∈ s.moving, m.1 ≠ tier) →
      let s0 := { s with tierCur := listMod s.tierCur tier fun _ => s.tierPtr.getD tier 0 }
      (tierBlock? s0 tier = none → exec (.demotionSweep tier) s = .next s0) ∧
      (∀ b, tierBlock? s0 tier = some b → (readTier s0 b).nframe = 1 → (readTier s0 b).lowm ≤ (readTier s0 b).free →
        (frameByte s0 (readTier s0 b) 0).testBit 7 = false →
        let x := frameByte s0 (readTier s0 b) 0
        let s1 := demotionWrite s0 ((readTier s0 b).ftab + 8) [BitVec.ofNat 8 (x / 16 * 16 + min (x % 16 + 1) 15)]
        exec (.demotionSweep tier) s = .next (demotionWrite s1 b (leBytes 8 (s1.viewNat .domain b 8 + 1))))) ∧
    (∀ die (dev : BitVec 8) pa data, die < 4 → s.stopped = false → s.ident.getLsbD 63 = true →
      let answered (op : IngressOp) (st : Nat) (bs : List Byte) := ∃ t, exec (.fabricIngress die dev op pa data) s = .next t ∧ t.replies = (3, st, bs) :: s.replies
      (∀ st, exportCheck s die dev pa 64 64 61 = some st → answered .read st []) ∧
      (exportCheck s die dev pa 64 64 61 = none → s.viewMarked .domain (pa / 64) = false → meetsError s (pa / 64) = false →
        clashing (noteHash s defaultMasks pa) pa = false →
        answered .read 0 ((List.range 64).map fun i => s.viewByte .domain (pa + i))) ∧
      (data ≠ [] → exportCheck s die dev pa data.length 1 62 = none →
        ∃ t, exec (.fabricIngress die dev .write pa data) s = .next t ∧ t.replies = (3, 0, []) :: s.replies ∧ ((∀ i, i < data.length → isHbm (pa + i) = true) → Wrote s t pa data)) ∧
      (∀ op w64 v, exportCheck s die dev pa (4 * wordsOf w64) (4 * wordsOf w64) 60 = none → s.lastMarked (pa / 64) = false →
        meetsError s (pa / 64) = false → clashing (noteHash s defaultMasks pa) pa = false →
        let old := leNat ((List.range (4 * wordsOf w64)).map fun i => s.lastByte (pa + i))
        ∃ t, exec (.fabricIngress die dev (.atomic op w64 v) pa data) s = .next t ∧ t.replies = (3, 0, leBytes (4 * wordsOf w64) old) :: s.replies ∧
          Wrote s t pa (leBytes (4 * wordsOf w64) (atomicNew op w64 old v)))) ∧
    (∀ v, hostAnswers s = true →
      (v.extractLsb' 8 8 = 0 → v.extractLsb' 32 31 = 0 → exec (.fabricIdentityWrite v) s = .next { s with ident := v }) ∧
      ((v.extractLsb' 8 8 ≠ 0 ∨ v.extractLsb' 32 31 ≠ 0) → exec (.fabricIdentityWrite v) s = .next s)) ∧
    (∀ port, port < 36 →
      (∃ t, exec (.fabricPortDown port) s = .next t ∧ t = { s with portsUp := t.portsUp } ∧ ∀ p, p < 36 → t.portsUp.getLsbD p = (s.portsUp.getLsbD p && !decide (p = port))) ∧
      (∃ t, exec (.fabricPortUp port) s = .next t ∧ t = { s with portsUp := t.portsUp } ∧ ∀ p, p < 36 → t.portsUp.getLsbD p = (s.portsUp.getLsbD p || decide (p = port)))) ∧
    (∀ (dev : BitVec 8) (line port : Nat), s.stopped = false → dev.toNat ≠ s.device → s.ident.getLsbD 63 = true → (tgetD 0 s.routes dev.toNat).getLsbD 36 = true →
      (∀ p, p < 36 → (((tgetD 0 s.routes dev.toNat).getLsbD p && s.portsUp.getLsbD p) = true ↔ p = port)) → port < 36 →
      exec (.flitForward dev line) s = .next { s with forwarded := s.forwarded ++ [(dev.toNat, port)] })

/-- R267, R268, R269, R273, R277, R302. A copy starts or is refused, moves its lines, and a decryption is released by its
tag; MCLR clears its tile. -/
def Obligations.CopyEnginesMoveTheirLines : Prop :=
  ∀ (s : State) (cl : Nat) (c : Copy),
    let gone (t : State) := (t.cluster cl).copies = (s.cluster cl).copies.filter (fun x => x.id ≠ c.id)
    (nextCopy s cl = none → exec (.copyStart cl) s = .next s) ∧
    (nextCopy s cl = some c → (c.blk.dec = false → c.blk.len ≠ 0) →
      let refusal := if c.blk.dec then (slotRefusal s c.ctx c.blk).or (counterRefusal s c.blk) else none
      (refusal = none → exec (.copyStart cl) s = .next (s.setCluster cl { s.cluster cl with
        copies := (s.cluster cl).copies.map fun x => if x.id = c.id then { c with started := true } else x })) ∧
      (∀ st, refusal = some st → ∃ t, exec (.copyStart cl) s = .next t ∧ gone t ∧ t.mem = s.mem ∧ t.slots = s.slots)) ∧
    (∀ (pick n : Nat) (h hb : VHit) (w : Nat),
      (s.cluster cl).copies = [c] → copyRuns s c.ctx = true → NoBuoyWaiter s →
      c.started = true → c.row = 0 → c.pos = 0 → c.idx = 0 → c.out = [] → c.waiting = [] → c.failed = none →
      c.blk.zf = true → c.blk.dec = false → c.blk.dv = true → c.blk.rows = 1 → c.blk.len = n → 0 < n → c.blk.dst.toNat % 64 + n ≤ 64 →
      copyDstVault s cl c.iid c.blk 0 n = .ok h → vaultCheck s cl c.iid c.blk.buoy 0 8 8 .write = .ok hb →
      VaultSound (s.vault h.cl) → VaultSound (s.vault hb.cl) → h.off % 64 + n ≤ 64 → hb.off % 64 + 8 ≤ 64 →
      (h.cl ≠ hb.cl ∨ h.off + n ≤ hb.off ∨ hb.off + 8 ≤ h.off) → w = leNat (vaultBytes s hb.cl hb.off 8) →
      let left := (if w.testBit 63 then 2 ^ 63 else 0) + (if w % 2 ^ 62 < n ∨ w.testBit 62 = true then 2 ^ 62 else 0) + (w % 2 ^ 62 - n)
      ∃ t, exec (.copyLine cl pick) s = .next t ∧ gone t ∧ t.mem = s.mem ∧ t.ctxs = s.ctxs ∧ t.insts = s.insts ∧
        vaultBytes t h.cl h.off n = List.replicate n 0 ∧ vaultBytes t hb.cl hb.off 8 = leBytes 8 left ∧ h.off / 64 ∉ (t.vault h.cl).absent) ∧
    ((s.cluster cl).copies.find? (fun x => x.started && x.blk.dec && (issuedAll x && x.out.isEmpty) && (s.ctx x.ctx).kill.isNone) = some c →
      let lines := dstLines s cl c.iid c.blk
      let k := tget? s.slots c.blk.slot
      let good : Prop := c.failed = none ∧ ∃ key, k = some key ∧
        gcmTag (copyKey s c.blk).1 (copyKey s c.blk).2 ((c.cipher.filter fun p => p.1 < c.blk.len / 64).flatMap (·.2)) = tgetD [] c.cipher (c.blk.len / 64)
      (∀ key, k = some key → good → ∃ t, exec (.decryptTagCheck cl) s = .next t ∧ gone t ∧ t.mem = s.mem ∧
        t.slots = tput s.slots c.blk.slot { key with ctrs := key.ctrs.set c.blk.strm (some c.blk.ctr) } ∧ ∀ l ∈ lines, l.2 ∉ (t.vault l.1).absent) ∧
      (¬ good → ∃ t, exec (.decryptTagCheck cl) s = .next t ∧ gone t ∧ t.mem = s.mem ∧ t.slots = s.slots ∧ ∀ l ∈ lines, l.2 ∈ (t.vault l.1).marks)) ∧
    (∀ q (op : MatOp) acc, pickQueue s cl = some (q, op) → op.kind = .mclr acc → NoBuoyWaiter s →
      (∀ p ∈ opWrites op, ∀ h, pieceHit s cl op.iid p = some h → VaultSound (s.vault h.cl)) →
      ∃ t, exec (.matrixStep cl) s = .next t ∧ t.mem = s.mem ∧ t.insts = s.insts ∧ (t.cluster cl).mlast = q ∧
        (t.cluster cl).mqs = listMod (s.cluster cl).mqs q (fun l => l.filter fun x => x.id ≠ op.id) ∧
        (∀ g, tget? s.groups op.gid = some g → ∃ g', tget? t.groups op.gid = some g' ∧ g'.cvs = listMod g.cvs op.cv fun v => { v with ops := v.ops.filter fun o => o.1 ≠ op.id }) ∧
        ∀ p ∈ opWrites op, ∀ h, pieceHit s cl op.iid p = some h → vaultBytes t h.cl h.off p.2.2 = List.replicate p.2.2 0)

/-- R218, R224, R225, R227, R228, R229, R230. Parity updates, scrubs, retirements, remapping and a lowered grant act on one
vault. -/
def Obligations.VaultsMendAndRetireTheirBanks : Prop :=
  ∀ (s : State) (cl grp : Nat) (p : PGroup), cl < 256 →
    let v := s.vault cl
    (∀ r d rest, v.groups[grp]? = some p → grp < 8 → p.queue = (r, d) :: rest → parityLine grp r ∉ v.bad →
      exec (.parityUpdate cl grp) s = .next (s.setVault cl { v with
        groups := v.groups.set grp { p with parity := tput p.parity r (tgetD 0 p.parity r ^^^ d), queue := rest } })) ∧
    (∀ line, line < 131072 → line ∈ v.bad → v.remapped = none → Memory.wf v.bytes = true → v.groups[vGroup line]? = some p → p.st = .healthy →
      (∀ u ∈ p.queue, u.1 ≠ vRow line) → (∀ l ∈ otherLines line, l ∉ v.bad) → parityLine (vGroup line) (vRow line) ∉ v.bad →
      ∃ t, exec (.vaultScrub cl line) s = .next t ∧ line ∉ (t.vault cl).bad ∧ (t.vault cl).marks = v.marks ∧
        rawLine (t.vault cl) line = xorRaw v (otherLines line) ^^^ tgetD 0 p.parity (vRow line) ∧ t.threads = s.threads ∧ t.mem = s.mem ∧
        tgetD 0 t.correctable (16 * (cl / 64) + 2) = min (tgetD 0 s.correctable (16 * (cl / 64) + 2) + 1) 0xFFFFFFFF) ∧
    (∀ b, v.groups[grp]? = some p → grp < 8 → v.groups.length = 8 → p.queue = [] → p.pendingRetire = some b → NoBuoyWaiter s →
      let st := match p.st with
        | .healthy => if b = 4 then PState.noparity else .degraded
        | .degraded => if p.rbank = some b then .degraded else .failed
        | .noparity => if b = 4 then .noparity else .failed
        | .failed => .failed
      ∃ t q, exec (.groupTransition cl grp) s = .next t ∧ t.mem = s.mem ∧ (t.vault cl).groups = v.groups.set grp q ∧ q.st = st ∧
        ((∀ k, k < 5 → k ≠ b → p.counts.getD k 0 < 256) → q.pendingRetire = none) ∧
        (t.vault cl).cap = (match ((v.groups.set grp q).filter fun x => x.st = .failed).length with
          | 0 => 8
          | 1 => 7
          | _ => 0)) ∧
    (∀ g, failedGroups v = [g] → v.remapped = none → (vOccupied s cl) = [] →
      exec (.vaultRemap cl) s = .next (s.setVault cl { v with remapped := some g, cap := 7, split := min v.split 28 })) ∧
    (∀ n, ownerOf s cl = some n → (s.part n).grant < v.split →
      ((∀ r ∈ vOccupied s cl, r.1 + r.2 ≤ (s.part n).grant * 2 ^ 18) →
        exec (.scratchGrantLower cl) s = .next (s.setVault cl { v with split := (s.part n).grant })) ∧
      ((∃ r ∈ vOccupied s cl, (s.part n).grant * 2 ^ 18 < r.1 + r.2) → exec (.scratchGrantLower cl) s = .next s))

/-- R257, R258, R259, R260, R359, R360, R361. Budget points serve by floor and ceiling; partitions take their control block
and close their window. -/
def Obligations.SharesOfClustersAndPointsFollowTheirTables : Prop :=
  (∀ (s : State) (point table : Nat) (es : List (BitVec 64)),
    let b := s.point point
    (point < 136 → b.spent.length = 16 → b.queues.length = 16 →
      (∀ c id, c < 16 → (∀ k, b.queues.getD k [] = if k = c then [id] else []) →
        (b.spent.getD c 0 < ceilOf point b c → exec (.budgetPick point) s = .next { s with
          points := tput s.points point { b with spent := b.spent.set c (b.spent.getD c 0 + 1), queues := b.queues.set c [], last := c } }) ∧
        (ceilOf point b c ≤ b.spent.getD c 0 → exec (.budgetPick point) s = .next { s with points := tput s.points point b })) ∧
      (∀ c d i j, c < 16 → d < 16 → c ≠ d → b.queues.getD c [] = i → b.queues.getD d [] = j → i ≠ [] → j ≠ [] →
        b.spent.getD c 0 < floorOf point b c → (∀ k, k ≠ c → floorOf point b k ≤ b.spent.getD k 0) → pickClass point b = some c)) ∧
    (point < 136 →
      let t := s.btable (if 128 ≤ point then 2 * ((point - 128) / 2) + 1 else 2 * (point / 32))
      let b1 := { b with floors := t.entries.map (fun e => e.toNat % 2 ^ 32), ceils := t.entries.map (fun e => e.toNat / 2 ^ 32), spent := List.replicate 16 0 }
      exec (.budgetPeriodStart point) s = .next { s with points := tput s.points point b1 }) ∧
    (table < 8 → hostAnswers s = true →
      let t := s.btable table
      let kept := (List.range 16).map fun c => if c = 8 then t.entries.getD 8 0 else es.getD c 0
      let half := if table % 2 = 1 then 32768 else 2048
      let sum := ((List.range 16).map fun c => if c = 8 then (if table % 2 = 1 then Config.refreshFloor else 0) else (es.getD c 0).toNat % 2 ^ 32).sum
      (sum ≤ half → exec (.budgetTableWrite table es) s = .next { s with btables := tput s.btables table { entries := kept, refused := false } }) ∧
      (half < sum → exec (.budgetTableWrite table es) s = .next { s with btables := tput s.btables table { t with refused := true } }))) ∧
  (∀ (s : State), tsorted s.parts = true →
    (∀ n (blk : BitVec 1024), n < 64 → hostAnswers s = true →
      let p := s.part n
      let want := blk.extractLsb' 768 256
      let ok : Bool := (wholeBay want).isSome && s.parts.all fun x => decide (x.1 = n) || !x.2.v || decide (x.2.want &&& want = 0)
      ∃ t, exec (.partitionControlWrite n blk) s = .next t ∧ t.mem = s.mem ∧ t.threads = s.threads ∧ t.groups = s.groups ∧
        (t.part n).target = (blk.extractLsb' 480 32).toNat ∧ (t.part n).bclass = (blk.extractLsb' 405 3).toNat ∧ (t.part n).auto = blk.getLsbD 404 ∧
        (t.part n).v = blk.getLsbD 403 ∧ (t.part n).want = (if ok then want else p.want) ∧ (t.part n).refused = !ok ∧ (t.part n).done = p.done ∧
        ((blk.extractLsb' 408 8).toNat ≤ 32 → (t.part n).grant = (blk.extractLsb' 408 8).toNat) ∧
        (p.v = true → blk.getLsbD 403 = false → ∀ cx c, (cx, c) ∈ s.ctxs → tget? s.ctxs cx = some c → c.part = n → c.kill = none → c.state ≠ .free → c.state ≠ .lost →
          (t.ctx cx).kill = some (9, []))) ∧
    (s.stopped = false →
      (s.xclk.headD 0 < s.window + 2 ^ 20 → exec .sweepWindowEnd s = .next s) ∧
      (s.window + 2 ^ 20 ≤ s.xclk.headD 0 → ∃ t, exec .sweepWindowEnd s = .next t ∧ t.window = s.window + 2 ^ 20 ∧ t.mem = s.mem ∧ t.threads = s.threads ∧
        ∀ n p, tget? s.parts n = some p → (t.part n).done = p.count ∧ (t.part n).count = 0 ∧ (t.part n).target = p.target ∧ (t.part n).grant = p.grant)))

/-- R343, R344, R346, R347, R349, R355, R356, R357, R358, R403. Cards are queued by doorbell or domain, expire at the head,
are placed and complete in their order. -/
def Obligations.CardsArePostedPlacedAndCompleted : Prop :=
  (∀ (s : State) (cx : Nat), cx < 512 →
    (∀ ref, (s.ctx cx).bells = [] →
      let c := s.ctx cx
      (((c.kill.isSome ∨ c.state = .lost ∨ c.state = .free) →
        exec (.submitDoorbell cx ref) s = .next (s.setCtx cx { c with refused := min (c.refused + 1) 0xFFFFFFFF })) ∧
      (∀ s1 bs, c.kill = none → c.state = .run → waitsRecord s cx ref = false →
        dispatcherRead (s.setCtx cx { c with bells := [ref] }) 0 cx (wordRef ref) 64 64 = (s1, .ok bs) →
        checkCard (readCard (BitVec.ofNat 512 (leNat bs))) (.die 0) true = none → queueLen s1 (.die 0) < 512 → (∀ p ∈ s1.cards, p.2.spilled = false) →
        ∃ t q, exec (.submitDoorbell cx ref) s = .next t ∧ tget? t.cards s1.fresh = some q ∧ q.card = readCard (BitVec.ofNat 512 (leNat bs)) ∧
          q.ctx = cx ∧ q.ref = ref ∧ q.key = .die 0 ∧ q.dev = true ∧ q.spilled = false ∧ q.notice = none ∧ t.threads = s.threads ∧ t.insts = s.insts ∧
          (t.ctx cx).bells = [] ∧ (t.ctx cx).posted = min ((s1.ctx cx).posted + 1) 0xFFFFFFFF ∧ (t.ctx cx).refused = (s1.ctx cx).refused))) ∧
    (∀ ref card, (s.ctx cx).member.isSome → (s.ctx cx).kill = none → (s.ctx cx).state = .run → (readCard card).lvl = 5 →
      checkCard (readCard card) (.die 0) true = none → queueLen s (.die 0) < 512 → (∀ p ∈ s.cards, p.2.spilled = false) →
      ∃ t q, exec (.domainCardForward cx ref card) s = .next t ∧ tget? t.cards s.fresh = some q ∧ q.card = readCard card ∧ q.ctx = cx ∧ q.ref = ref ∧
        q.forwarded = true ∧ q.spilled = false ∧ t.threads = s.threads ∧ t.insts = s.insts ∧ t.mem = s.mem) ∧
    (∀ qid q t0, tget? s.cards qid = some q → q.since = some t0 →
      (t0 + 2 ^ 16 ≤ s.xclk.getD (keyDie q.key) 0 → exec (.headWaitExpiry qid) s = .next { s with cards := tput s.cards qid { q with expired := true } }) ∧
      (s.xclk.getD (keyDie q.key) 0 < t0 + 2 ^ 16 → exec (.headWaitExpiry qid) s = .next s)) ∧
    (∀ qid q core d s1 bs, tget? s.cards qid = some q → q.card.lvl = 1 → offered s qid q = true → placesOn s q [core] = some d → keptBack s qid q [core] = false →
      argCheck s q = (s1, .ok bs) → tsorted s1.groups = true → (∀ p ∈ s1.groups, p.1 < s1.fresh ∧ p.2.iid < s1.fresh) →
      ∃ t g i, exec (.cardPlace qid [core]) s = .next t ∧ tget? t.cards qid = none ∧
        tget? t.insts s1.fresh = some i ∧ i.q = q ∧ i.tsz = q.card.thr + 1 ∧ i.reserving = false ∧
        tget? t.groups (s1.fresh + 2) = some g ∧ g.iid = s1.fresh ∧ g.core = core ∧ g.nregs = 8 * q.card.regs ∧ g.k = bytesToWords (bs.take 128) ∧
        g.bars = List.replicate q.card.nbar {} ∧
        ∀ n, n ≤ q.card.thr → tget? t.threads (s1.fresh + 3 + n) =
          some { gid := s1.fresh + 2, tix := n, pc := wordRef q.card.entry, regs := List.replicate (8 * q.card.regs) {} })) ∧
  (∀ (s : State) (iid : Nat) (i : Inst), tget? s.insts iid = some i → s.stopped = false → (s.ctx i.q.ctx).kill = none → i.q.forwarded = false →
    let status := BitVec.ofNat 32 (i.q.st * 2 ^ 24 + i.q.code * 2 ^ 16 + (if i.af then 2 else 0) + (if i.rf then 1 else 0))
    let stage (s1 : State) (j : Inst) := exec (.cardComplete iid) s = .next { s1 with insts := tput s1.insts iid j }
    (i.stage = 0 → exec (.cardComplete iid) s = .next s) ∧
    (i.stage = 1 → i.q.card.lvl < 5 → i.ntok < 2 ^ 32 →
      (i.q.card.cr = false → stage s { i with stage := 2 }) ∧
      (∀ s1 hit pa, i.q.card.cr = true → access s (64 * keyDie i.q.key) i.q.ctx (wordRef i.q.card.crec) 0 32 32 kindWrite = (s1, .ok hit) → hit.pas.head? = some pa →
        (∀ k, k < 32 → isHbm (pa + k) = true) →
        let sums (n : Nat) : Nat := if i.q.st = 0 then n else 0
        ∃ t s2, exec (.cardComplete iid) s = .next t ∧ t = { s2 with insts := tput s.insts iid { i with stage := 2 } } ∧
          Wrote s1 s2 pa (leBytes 4 status.toNat ++ leBytes 4 (sums i.flags.toNat) ++ leBytes 4 0 ++ leBytes 4 (sums i.nthr) ++ leBytes 4 (sums i.ntok) ++
            leBytes 4 (sums ((i.ftok.map fun (x : Nat × Word) => x.2).getD 0).toNat) ++ leBytes 4 0 ++ leBytes 4 i.q.card.parent.toNat)) ∧
      (∀ s1 c, i.q.card.cr = true → access s (64 * keyDie i.q.key) i.q.ctx (wordRef i.q.card.crec) 0 32 32 kindWrite = (s1, .error (.fault c)) →
        stage s1 { i with stage := 2, rf := true })) ∧
    (i.stage = 2 →
      (i.q.card.ca = false → stage s { i with stage := 3, af := false }) ∧
      (∀ s1 c, i.q.card.ca = true → access s (64 * keyDie i.q.key) i.q.ctx (wordRef i.q.card.cadd) 0 4 4 kindAtomic = (s1, .error (.fault c)) →
        stage s1 { i with stage := 3, af := true })) ∧
    (i.stage = 3 →
      (i.q.fill = none → stage s { i with stage := 4 }) ∧
      (∀ tid r t, i.q.fill = some (tid, r) → tget? s.threads tid = some t → t.status ≠ .exited →
        stage (s.setThread tid (writeReg t r status false)) { i with stage := 4 })) ∧
    (i.stage = 4 →
      let p := (s.ctx i.q.ctx).part
      let s1 := { s with insts := terase s.insts iid
                         parts := if i.q.st = 0 then tput s.parts p { s.part p with count := (s.part p).count + 1 } else s.parts }
      (i.q.notice = none → exec (.cardComplete iid) s = .next s1) ∧
      (∀ gid g, i.q.notice = some gid → tget? s.groups gid = some g → viewHeld g < 64 → (∀ n ∈ s.waitingNotices, n.2.1 ≠ gid) →
        exec (.cardComplete iid) s = .next { s1 with
          groups := tput s.groups gid { g with notices := g.notices ++ [[status, i.q.card.parent, i.q.ref.extractLsb' 0 32, i.q.ref.extractLsb' 32 32]] } })) ∧
    (∀ nid gid ws g, tget? s.waitingNotices nid = some (gid, ws) → tget? s.groups gid = some g → viewHeld g < 64 → (∀ n ∈ s.waitingNotices, n.2.1 = gid → nid ≤ n.1) →
      exec (.noticeDeliver nid) s = .next { s with
        waitingNotices := terase s.waitingNotices nid, groups := tput s.groups gid { g with notices := g.notices ++ [ws] } }) ∧
    (∀ gid g, tget? s.groups gid = some g → g.iid = iid → i.reserving = false → groupEnded s gid g = true → s.cards = [] → tsorted s.groups = true →
      ∃ t, exec (.coreGroupComplete gid) s = .next t ∧ t.mem = s.mem ∧ tget? t.groups gid = none ∧ (∀ x ∈ t.threads, x.2.gid ≠ gid) ∧
        ((∃ x ∈ s.groups, x.1 ≠ gid ∧ x.2.iid = iid) → tget? t.insts iid = some i) ∧
        ((∀ x ∈ s.groups, x.1 ≠ gid → x.2.iid ≠ iid) → tget? t.insts iid = some { i with stage := 1 })))

/-- R363, R364, R365, R366. PREEMPT, RESET, the deadlines, the checkpoint, RESUME and RESUME_PLACE follow the context's
state. -/
def Obligations.ContextsAreSavedAndResumed : Prop :=
  ∀ (s : State) (cx : Nat) (c : Ctx), cx < 512 → c = s.ctx cx → c.member = none → c.kill = none → hostAnswers s = true →
    (c.state = .run →
      exec (.preempt cx) s = .next (s.setCtx cx { c with state := if c.dl1 = 0 then .saving else .draining, since := s.xclk })) ∧
    (c.state ≠ .free → c.state ≠ .lost → exec (.reset cx) s = .next (s.setCtx cx { c with kill := some (7, []) })) ∧
    (c.state = .draining → (∃ d, d < 4 ∧ c.since.getD d 0 + c.dl1 ≤ s.xclk.getD d 0) → (∃ g ∈ s.groups, ∃ k, tget? s.insts g.2.iid = some k ∧ k.q.ctx = cx) →
      exec (.drainDeadline cx) s = .next (s.setCtx cx { c with state := .saving })) ∧
    (c.state = .saving → c.dl2 ≠ 0 → (∃ d, d < 4 ∧ c.since.getD d 0 + c.dl2 ≤ s.xclk.getD d 0) →
      exec (.checkpointDeadline cx) s = .next (s.setCtx cx { c with kill := some (5, []) })) ∧
    (c.state = .saving → quiesced s cx = true → tsorted s.groups = true →
      let s1 := rewindDecrypt (dropReservations s cx) cx
      let i := imageOf s1 cx false
      let used := 64 + (hamperSections s1 cx i).length
      (c.hlen * 4096 < used → exec (.checkpoint cx) s = .next (s.setCtx cx { c with kill := some (6, []) })) ∧
      (used ≤ c.hlen * 4096 → ∃ t j, exec (.checkpoint cx) s = .next t ∧ (t.ctx cx).state = .saved ∧ (t.ctx cx).res = 0 ∧ (t.ctx cx).used = used ∧
        (t.ctx cx).image = some j ∧ j = { i with bytes := j.bytes } ∧ j.bytes.length = used ∧ leNat (j.bytes.take 4) = 0x4841A960 ∧
        ∀ g x, (g, x) ∈ s.groups → (∃ k, (x.iid, k) ∈ s.insts ∧ k.q.ctx = cx ∧ k.reserving = false) → tget? t.groups g = none)) ∧
    (c.state = .saved →
      (∀ r, hamperRead s cx = .error r → exec (.resume cx) s = .next (s.setCtx cx { c with res := r })) ∧
      (∀ i, hamperRead s cx = .ok i →
        let waits := (i.insts.filter fun x => i.groups.any fun g => g.2.iid = x.1).map (·.1)
        ∃ t, exec (.resume cx) s = .next t ∧ t.mem = s.mem ∧ t.threads = s.threads ∧ t.groups = s.groups ∧ (t.ctx cx).res = 0 ∧ (t.ctx cx).unplaced = waits ∧
          (t.ctx cx).state = (if waits = [] then .run else .resuming))) ∧
    (∀ i iid inst cores ms, c.state = .resuming → c.image = some i → c.unplaced = [iid] → tget? i.insts iid = some inst → tsorted i.groups = true → tsorted i.threads = true →
      let gs := i.groups.filter fun g => g.2.iid = iid
      movesOf i (gs.zip cores) = some ms → cores.length = gs.length → (ms.map (·.cl)).eraseDups.length = ms.length →
      (∀ m ∈ ms, takesMove s c.part m = true) → shapeKept s cx ms = true → coresHold inst.tsz (gs.zip cores) = true → (∀ k ∈ cores, k < 1024) →
      ∃ t, exec (.resumePlace cx iid cores) s = .next t ∧ (t.ctx cx).state = .run ∧ (t.ctx cx).unplaced = [] ∧ tget? t.insts iid = some inst ∧
        ∀ (k gid : Nat) (g : CoreGroup) (core : Nat), gs[k]? = some (gid, g) → cores[k]? = some core →
          ∃ g', tget? t.groups gid = some g' ∧ g' = { g with core := core, order := g'.order, mqueue := g'.mqueue } ∧
            ∀ (tid : Nat) (th : Thread), (tid, th) ∈ i.threads → th.gid = gid → ∃ th', tget? t.threads tid = some th' ∧ th' = { th with status := th'.status })

/-- R379, R380, R381, R382, R383, R384, R385. CREATE and DESTROY answer their window; a killed context is purged and its loss
recorded. -/
def Obligations.ContextsAreCreatedAndDestroyed : Prop :=
  ∀ (s : State) (cx : Nat) (c : Ctx), cx < 512 → c = s.ctx cx → hostAnswers s = true → (∀ x ∈ s.ctxs, x.2.destroying = false) →
    (∀ desc, let win (res : Nat) := { s.ctxWin with desc := desc, ctx := cx, res := res, seq := (s.ctxWin.seq + 1) % 2 ^ 32 }
      (c.state ≠ .free → exec (.create cx desc) s = .next { s with ctxWin := win 1 }) ∧
      (c.state = .free → (2 ^ 52 ≤ desc.toNat ∨ desc.toNat % 128 ≠ 0 ∨ populated desc.toNat = false) → exec (.create cx desc) s = .next { s with ctxWin := win 2 }) ∧
      (∀ d, c.state = .free → desc.toNat < 2 ^ 52 → desc.toNat % 128 = 0 → populated desc.toNat = true → d = BitVec.ofNat 1024 (leNat (physBytes s desc.toNat 128)) →
        ((s.part (d.extractLsb' 864 6).toNat).v = false → exec (.create cx desc) s = .next { s with ctxWin := win 3 }) ∧
        ((s.part (d.extractLsb' 864 6).toNat).v = true → descOk d = false → exec (.create cx desc) s = .next { s with ctxWin := win 2 }) ∧
        ((s.part (d.extractLsb' 864 6).toNat).v = true → descOk d = true → ∃ t n, exec (.create cx desc) s = .next t ∧ n = t.ctx cx ∧ t.ctxWin = win 0 ∧ t.mem = s.mem ∧
          n.state = .run ∧ n.part = (d.extractLsb' 864 6).toNat ∧ n.tdi = (d.extractLsb' 880 16).toNat ∧ n.stride = (d.extractLsb' 832 32).toNat * 2 ^ 30 ∧
          n.btab = (d.extractLsb' 0 52).toNat ∧ n.bcount = (d.extractLsb' 64 25).toNat ∧ n.s1root = (d.extractLsb' 128 52).toNat ∧ n.s2root = (d.extractLsb' 192 52).toNat ∧
          n.gring = (d.extractLsb' 256 52).toNat ∧ n.hring = (d.extractLsb' 320 52).toNat ∧ n.lring = (d.extractLsb' 384 52).toNat ∧ n.seed = d.extractLsb' 576 64 ∧
          n.trapbase = d.extractLsb' 640 64 ∧ n.foglim = d.extractLsb' 800 32 ∧ n.tmode = (d.extractLsb' 768 7).setWidth 32 ∧ n.kill = none ∧
          n.hamper = c.hamper ∧ n.dl1 = c.dl1 ∧ n.dl2 = c.dl2))) ∧
    (∀ win : Nat → CmdWin, (∀ r, win r = { s.ctxWin with ctx := cx, res := r, seq := (s.ctxWin.seq + 1) % 2 ^ 32 }) →
      (c.state = .free → exec (.destroy cx) s = .next { s with ctxWin := win 4 }) ∧
      (c.state = .lost → ∃ t, exec (.destroy cx) s = .next t ∧ (t.ctx cx).state = .free ∧ t.ctxWin = win 0 ∧ t.mem = s.mem) ∧
      (c.state ≠ .free → c.state ≠ .lost → c.kill = none →
        exec (.destroy cx) s = .next ({ s with ctxWin := { s.ctxWin with ctx := cx } }.setCtx cx { c with kill := some (8, []), destroying := true }))) ∧
    (∀ reason ws, c.kill = some (reason, ws) → reason ≠ 1 → c.purged = false → c.member = none → (∀ p ∈ s.qps, p.2.ctx ≠ cx) → tsorted s.groups = true →
      ∃ t, exec (.killContext cx) s = .next t ∧ (t.ctx cx).purged = true ∧ (t.ctx cx).kill = c.kill ∧ (∀ p ∈ t.cards, p.2.ctx ≠ cx) ∧
        (∀ k ∈ t.slots, k.2.ctx ≠ cx) ∧ (∀ r ∈ t.recs, r.ctx ≠ cx) ∧
        ∀ g x, (g, x) ∈ s.groups → (∃ k, (x.iid, k) ∈ s.insts ∧ k.q.ctx = cx) → tget? t.groups g = none) ∧
    (∀ reason ws, c.kill = some (reason, ws) → c.purged = true →
      (pushRing s some c.lring (lossRecord s cx reason ws) = none → exec (.lossRecordPush cx) s = .next s) ∧
      (∀ s1, pushRing s some c.lring (lossRecord s cx reason ws) = some s1 → ∃ t, exec (.lossRecordPush cx) s = .next t ∧
        (t.ctx cx).state = .lost ∧ (t.ctx cx).kill = none ∧ t.kills = s1.kills + 1 ∧ t.mem = s1.mem ∧ t.threads = s1.threads ∧
        (t.ctx cx).res = (if reason = 5 then 1 else if reason = 6 then 2 else c.res)))

/-- R161, R176, R321, R322, R338, R395, R398, R403. The host command window runs SHARE, S2INV, GRANT, WCREATE, WDESTROY,
BINDVF and DJOIN and answers. -/
def Obligations.HostCommandsAnswerTheirWindow : Prop :=
  ∀ (s : State) (cx : Nat) (c : Ctx) (a0 a1 : BitVec 64), c = s.ctx cx → hostAnswers s = true →
    ((∃ x ∈ s.ctxs, x.2.destroying = true) →
      ∀ i ∈ [Instr.share cx a0, .s2inv cx a0 a1, .grant cx a0 a1, .wcreate cx a0 a1, .wdestroy cx a0, .bindvf cx a0, .djoin cx a0 a1, .create cx a0, .destroy cx,
          .qpcreate cx a0, .qpstate cx a0 a1, .qpdestroy cx],
        exec i s = .next { s with hostQueue := s.hostQueue ++ [.event i] }) ∧
    ((∀ x ∈ s.ctxs, x.2.destroying = false) →
      let ended (s1 : State) (b1 : BitVec 64) (r : Nat) : State :=
        { s1 with hostWin := { s.hostWin with ctx := cx, a0 := a0, a1 := b1, res := r, seq := (s.hostWin.seq + 1) % 2 ^ 32 } }
      (ctxExists s cx = false →
        (∀ i ∈ [Instr.s2inv cx a0 a1, .grant cx a0 a1, .wcreate cx a0 a1, .djoin cx a0 a1], exec i s = .next (ended s a1 2)) ∧
        ∀ i ∈ [Instr.share cx a0, .wdestroy cx a0, .bindvf cx a0], exec i s = .next (ended s s.hostWin.a1 2)) ∧
      (ctxExists s cx = true →
        let tag := (a0.extractLsb' 0 12).toNat
        (a0.toNat < 2 ^ 13 → exec (.share cx a0) s = .next (ended (s.setCtx cx { c with stags := if a0.getLsbD 12 then setAdd c.stags tag else setDel c.stags tag }) s.hostWin.a1 0)) ∧
        (2 ^ 13 ≤ a0.toNat → exec (.share cx a0) s = .next (ended s s.hostWin.a1 1)) ∧
        (a0.toNat < 64 → a1.extractLsb' 53 6 = 0 → a1.extractLsb' 36 5 = 0 →
          exec (.grant cx a0 a1) s = .next (ended (s.setCtx cx { c with grants := c.grants.set a0.toNat a1 }) a1 0)) ∧
        (∀ nslot, nslot = (a1.extractLsb' 12 25).toNat → a0.toNat < 2 ^ 12 → a1.toNat < 2 ^ 37 → 0 < nslot → nslot ≤ 2 ^ 24 →
          ((∀ w, tget? s.worlds a0.toNat = some w → w.live = false) → exec (.wcreate cx a0 a1) s = .next (ended { s with
            worlds := tput s.worlds a0.toNat ({ live := true, owner := cx, tag := (a1.extractLsb' 0 12).toNat, nslot := nslot } : World) } a1 0)) ∧
          (∀ w, tget? s.worlds a0.toNat = some w → w.live = true → exec (.wcreate cx a0 a1) s = .next (ended s a1 3))) ∧
        (∀ w, a0.toNat < 2 ^ 12 → tget? s.worlds a0.toNat = some w →
          (w.live = true → w.owner = cx → ∃ t, exec (.wdestroy cx a0) s = .next t ∧ t = ended { s with worlds := t.worlds, lantern := t.lantern, groups := t.groups, ctxs := t.ctxs } s.hostWin.a1 0 ∧
            t.lantern = s.lantern.filter (fun x => x.world ≠ a0.toNat) ∧
            t.worlds = tput s.worlds a0.toNat { w with live := false, pending := [], missq := [], ageing := false }) ∧
          ((w.live = false ∨ w.owner ≠ cx) → exec (.wdestroy cx a0) s = .next (ended s s.hostWin.a1 1))) ∧
        (∀ fn slot, a0.toNat = fn + 256 * slot → fn ≤ 64 → slot < 8 →
          (fn = 0 → ∃ t, exec (.bindvf cx a0) s = .next t ∧ t = ended { s with vfSlots := t.vfSlots, ctxs := t.ctxs } s.hostWin.a1 0 ∧
            t.ctx cx = { c with vfs := c.vfs.filter fun v => !(v.2 = slot) }) ∧
          (fn ≠ 0 → tget? s.vfSlots (8 * fn + slot) = none →
            exec (.bindvf cx a0) s = .next (ended ({ s with vfSlots := tput s.vfSlots (8 * fn + slot) cx }.setCtx cx { c with vfs := c.vfs ++ [(fn, slot)] }) s.hostWin.a1 0)) ∧
          (fn ≠ 0 → (tget? s.vfSlots (8 * fn + slot)).isSome → exec (.bindvf cx a0) s = .next (ended s s.hostWin.a1 3))) ∧
        (c.member.isSome → exec (.djoin cx a0 a1) s = .next (ended s a1 3)) ∧
        (∀ dom rank count, c.member = none → a0.toNat = dom + 2 ^ 16 * rank + 2 ^ 24 * (count - 1) → dom < 2 ^ 16 → rank < count → count ≤ 256 → a1.toNat < 2 ^ 52 →
          populated a1.toNat = true → (∀ p ∈ s.cards, p.2.ctx ≠ cx) → (∀ p ∈ s.insts, p.2.q.ctx ≠ cx) → (s.loadByte .domain (a1.toNat + rank)).toNat = s.device →
          let m : Member := { domain := dom, rank := rank, count := count, devices := (List.range count).map fun k => (s.loadByte .domain (a1.toNat + k)).toNat }
          exec (.djoin cx a0 a1) s = .next (ended (s.setCtx cx { c with member := some m }) a1 0)) ∧
        (a0.toNat % 4096 = 0 → a0.toNat < 2 ^ 52 →
          let meets (x : TlbE) : Bool := decide (x.ctx = cx) && (decide (x.ipage * 4096 < a0.toNat + a1.toNat) && decide (a0.toNat < x.ipage * 4096 + 4096))
          ∃ t, exec (.s2inv cx a0 a1) s = .next t ∧ t.mem = s.mem ∧ t.hostWin = (ended s a1 0).hostWin ∧
            (∀ k, (t.cluster k).tlb = (s.cluster k).tlb.filter fun x => !meets x) ∧
            t.recs = s.recs.filter fun r =>
              !(r.ctx = cx && (stageOf r.kind = 2 && a0.toNat ≤ r.addr && r.addr < a0.toNat + a1.toNat) && !stillStops s r))))

/-- R254, R356, R363, R380, R394, R402, R404, R406. A write to a device register reaches the register at its offset;
misaligned and odd-sized ones are refused. -/
def Obligations.HostRegistersTakeTheirWrites : Prop :=
  ∀ (s : State) (v : BitVec 64), hostAnswers s = true →
    let put (off bytes : Nat) := exec (.registerWrite off bytes v) s
    let moded (n : Nat) (o : Out) : Prop :=
      let new := v.extractLsb' 0 2
      (s.ethMode.getD n 0 = 0 → o = .next { s with ethMode := listMod s.ethMode n fun _ => new }) ∧
      (s.ethMode.getD n 0 = new → o = .next s) ∧
      (s.ethMode.getD n 0 ≠ 0 → s.ethMode.getD n 0 ≠ new → ∃ t, o = .next t ∧ t.ethMode = listMod s.ethMode n (fun _ => new) ∧
        ∀ k q, tget? s.qps k = some q → q.lport / 4 = n → ∃ r, tget? t.qps k = some r ∧ r.inflight = [])
    (∀ off bytes, off < 0x400000 → (off % bytes ≠ 0 ∨ bytes ≠ 4 ∧ bytes ≠ 8) → put off bytes = .next { s with replies := (7, 1, []) :: s.replies }) ∧
    (∀ off bytes, 0x400000 ≤ off → put off bytes = .next s) ∧
    (∀ n, n < 2 → put (0x100 + 8 * n) 8 = .next { s with tierPtr := listMod s.tierPtr n fun _ => v }) ∧
    (∀ n, n < 2048 → put (0x2000 + 8 * n) 8 = .next { s with acl := tput s.acl n v } ∧ put (0x20000 + 8 * n) 8 = .next { s with exports := tput s.exports n v }) ∧
    (∀ n, n < 2048 → put (0x2000 + 8 * n) 4 = .next { s with acl := tput s.acl n ((tgetD 0 s.acl n).extractLsb' 32 32 ++ v.extractLsb' 0 32) }) ∧
    (∀ n, n < 256 → put (0x25000 + 8 * n) 8 = .next { s with routes := tput s.routes n v }) ∧
    (∀ n, n < 5 → moded n (put (0x30000 + 8 * n) 8) ∧ moded n (exec (.ethModeWrite n v) s)) ∧
    (∀ cx, cx < 512 →
      let block (k : Nat) := 0x10000 + 32 * cx + k
      put (block 16) 4 = .next (s.setCtx cx { s.ctx cx with dl2 := (v.extractLsb' 0 32).toNat }) ∧
      put (block 12) 4 = .next (s.setCtx cx { s.ctx cx with dl1 := (v.extractLsb' 0 32).toNat }) ∧
      put (block 24) 8 = .next (s.setCtx cx { s.ctx cx with hamper := v }) ∧
      put (0x100000 + 0x1000 * cx) 8 = .next { s with agenda := s.agenda ++ [.event (.submitDoorbell cx v)] } ∧
      put (0x100000 + 0x1000 * cx + 0x40) 8 = .next { s with agenda := s.agenda ++ [.event (.qpDoorbell cx v)] }) ∧
    (v.extractLsb' 48 8 = 1 → put 0 8 = .next { s with agenda := s.agenda ++ [.event (.create (v.extractLsb' 32 9).toNat s.ctxWin.desc)] }) ∧
    (v.extractLsb' 48 8 = 2 → put 0 8 = .next { s with agenda := s.agenda ++ [.event (.destroy (v.extractLsb' 32 9).toNat)] })

/-- R398, R405, R406. Queue pairs are created, moved, destroyed, rung, completed and asked by remote requests. -/
def Obligations.QueuePairsAreManaged : Prop :=
  ∀ (s : State) (n : Nat) (a0 a1 : BitVec 64), hostAnswers s = true → (∀ x ∈ s.ctxs, x.2.destroying = false) →
    let ended (s1 : State) (b0 b1 : BitVec 64) (r : Nat) : State :=
      { s1 with qpWin := { s.qpWin with ctx := n, a0 := b0, a1 := b1, res := r, seq := (s.qpWin.seq + 1) % 2 ^ 32 } }
    ((tget? s.qps n).isSome → exec (.qpcreate n a0) s = .next (ended s a0 s.qpWin.a1 3)) ∧
    (tget? s.qps n = none →
      ((2 ^ 52 ≤ a0.toNat ∨ a0.toNat % 64 ≠ 0 ∨ populated a0.toNat = false) → exec (.qpcreate n a0) s = .next (ended s a0 s.qpWin.a1 1)) ∧
      (∀ d : BitVec 512, a0.toNat < 2 ^ 52 → a0.toNat % 64 = 0 → populated a0.toNat = true → d = BitVec.ofNat 512 (leNat (physBytes s a0.toNat 64)) →
        d.extractLsb' 265 7 = 0 → d.extractLsb' 241 7 = 0 → d.extractLsb' 0 232 = 0 → (d.extractLsb' 259 5).toNat < 20 →
        8 ≤ (d.extractLsb' 248 8).toNat → (d.extractLsb' 248 8).toNat ≤ 12 →
        (ctxExists s (d.extractLsb' 232 9).toNat = false → exec (.qpcreate n a0) s = .next (ended s a0 s.qpWin.a1 2)) ∧
        let qp : Qp :=
          { st := .init, ctx := (d.extractLsb' 232 9).toNat, ud := d.getLsbD 264, lport := (d.extractLsb' 259 5).toNat, mtu := (d.extractLsb' 248 8).toNat
            rr := d.getLsbD 256, rw := d.getLsbD 257, ra := d.getLsbD 258, rfirst := (d.extractLsb' 272 24).toNat, rlast := (d.extractLsb' 296 24).toNat
            sq := (d.extractLsb' 448 64).toNat, rq := (d.extractLsb' 384 64).toNat, cq := (d.extractLsb' 320 64).toNat, path := 0 }
        (ctxExists s (d.extractLsb' 232 9).toNat = true → exec (.qpcreate n a0) s = .next (ended { s with qps := tput s.qps n qp } a0 s.qpWin.a1 0))) ∧
      exec (.qpstate n a0 a1) s = .next (ended s a0 a1 2) ∧ exec (.qpdestroy n) s = .next (ended s s.qpWin.a0 s.qpWin.a1 2)) ∧
    (∀ q, tget? s.qps n = some q →
      (a0.toNat = 1 → (q.ud = true ∨ a1 = 0) → exec (.qpstate n a0 a1) s = .next (ended { s with qps := tput s.qps n { q with st := .rtr } } a0 a1 0)) ∧
      (a0.toNat = 3 → (q.ud = true ∨ a1 = 0) → exec (.qpstate n a0 a1) s = .next (ended { s with qps := tput s.qps n { q with st := .err } } a0 a1 0)) ∧
      ((a0.toNat = 0 ∨ 3 < a0.toNat) → exec (.qpstate n a0 a1) s = .next (ended s a0 a1 1)) ∧
      (q.inflight = [] → ringTail s q.ctx q.sq = none → q.sqTail = 0 → ringTail s q.ctx q.rq = none → q.rqTail = 0 →
        ∃ t, exec (.qpdestroy n) s = .next t ∧ t.mem = s.mem ∧ tget? t.qps n = none ∧ t.qpWin = (ended s s.qpWin.a0 s.qpWin.a1 0).qpWin ∧ ∀ k, k ≠ n → tget? t.qps k = tget? s.qps k) ∧
      (∀ cx (v : BitVec 64), q.ctx = cx → (v.extractLsb' 0 16).toNat = n →
        (v.getLsbD 16 = true → exec (.qpDoorbell cx v) s = .next { s with qps := tput s.qps n { q with rqTail := (ringTail s cx q.rq).getD q.rqTail } }) ∧
        (v.getLsbD 16 = false → q.st ≠ .rts → exec (.qpDoorbell cx v) s = .next { s with qps := tput s.qps n { q with sqTail := (ringTail s cx q.sq).getD q.sqTail } })) ∧
      (∀ w rest data, q.inflight = w :: rest → q.st = .rts → w.sig = false →
        (w.op ≤ 1 → exec (.qpCompletion n true data) s = .next { s with qps := tput s.qps n { q with inflight := rest } }) ∧
        exec (.qpCompletion n false data) s = .next { s with qps := tput s.qps n { q with inflight := rest } }) ∧
      (∀ raddr len data cmp swap imm, (q.st = .rtr ∨ q.st = .rts) → lportUp s q.lport = true → q.ud = false →
        let answers (op : RdmaOp) (st : Nat) (bs : List Byte) := ∃ t, exec (.rdmaIncoming n op raddr len data cmp swap imm) s = .next t ∧ t.replies = (4, st, bs) :: s.replies
        let idx := (wordRef raddr).index.toNat
        ((idx < q.rfirst ∨ q.rlast < idx ∨ q.rr = false) → answers .read 2 []) ∧ ((idx < q.rfirst ∨ q.rlast < idx ∨ q.rw = false) → answers .write 2 []) ∧
        ((idx < q.rfirst ∨ q.rlast < idx ∨ q.ra = false) → answers .fadd 2 [] ∧ answers .cas 2 []) ∧
        (pendingOf s q.ctx q.rq q.rqTail = [] → answers .send 3 []) ∧
        (∀ s1 hit, q.rfirst ≤ idx → idx ≤ q.rlast → q.rr = true → access s (portCluster q.lport) q.ctx (wordRef raddr) 0 len 1 kindRead = (s1, .ok hit) →
          (∀ pa ∈ hit.pas, s1.viewMarked .domain (pa / 64) = false ∧ clashing s1 pa = false ∧ meetsError s1 (pa / 64) = false) → answers .read 0 (hit.pas.map (s1.viewByte .domain))) ∧
        (∀ s1 hit pa, q.rfirst ≤ idx → idx ≤ q.rlast → q.rw = true → imm = none → access s (portCluster q.lport) q.ctx (wordRef raddr) 0 data.length 1 kindWrite = (s1, .ok hit) →
          hit.pas = (List.range data.length).map (pa + ·) → (∀ k, k < data.length → isHbm (pa + k) = true) →
          ∃ t, exec (.rdmaIncoming n .write raddr len data cmp swap imm) s = .next t ∧ t.replies = (4, 0, []) :: s1.replies ∧ Wrote s1 t pa data)))

/-- R22, R391, R396, R399, R407, R408. Sessions, interfaces, resets, power and firmware change exactly the state that their
rules name. -/
def Obligations.SecureInterfacesAndResetsKeepWhatTheyMust : Prop :=
  (∀ (s : State) (n : Nat) (t0 : Tdi), t0 = tgetD {} s.tdis n → hostAnswers s = true →
    let put (t : Tdi) := Host.Outcome.next { s with tdis := tput s.tdis n t }
    (exec (.spdmRequest .getMeasurements) s = .next { s with replies := (5, if s.measured then 1 else 0, s.blocks.flatMap fun b => leBytes 48 b.toNat) :: s.replies }) ∧
    (exec (.spdmRequest .keyExchange) s = .next { s with spdmPending := true }) ∧
    (∀ x, (s.spdmPending = true → exec (.spdmRequest (.finish x)) s = .next { s with spdm := some x, spdmPending := false }) ∧
      (s.spdmPending = false → exec (.spdmRequest (.finish x)) s = .next s)) ∧
    (1 ≤ n → n ≤ 64 → t0.st = .unlocked →
      (∃ t, exec (.tdiLock n) s = put t ∧ t.st = .locked ∧ t.kwk = none ∧ (t.stream = true → (s.tdis.filter fun x => x.2.stream && x.1 ≠ n).length < 16))) ∧
    (t0.st = .locked → (t0.stream = true → ∃ t, exec (.tdiEnterRun n) s = put t ∧ t = { t0 with st := .run, kwk := t.kwk } ∧ (s.spdm = none → t.kwk = none) ∧
        (s.spdm.isSome → t.kwk.isSome)) ∧ (t0.stream = false → exec (.tdiEnterRun n) s = .next s)) ∧
    (t0.st ≠ .locked → exec (.tdiEnterRun n) s = .next s) ∧ (t0.st ≠ .run → exec (.tdiLeaveRun n) s = .next s) ∧
    (t0.st = .run → (∀ u ∈ s.clusters, ∀ c ∈ u.2.copies, c.started = false ∨ c.blk.dec = false) →
      exec (.tdiLeaveRun n) s = .next { s with tdis := tput s.tdis n { st := .unlocked }, slots := s.slots.filter fun k => k.2.tdi ≠ n } ∧
      (t0.stream = true → exec (.ideIntegrityFail n) s = .next { s with tdis := tput s.tdis n { st := .error }, slots := s.slots.filter fun k => k.2.tdi ≠ n })) ∧
    (t0.st ≠ .run → t0.stream = true → exec (.ideIntegrityFail n) s = put { st := .error }) ∧
    (t0.stream = false → exec (.ideIntegrityFail n) s = .next s)) ∧
  (∀ (s : State),
    (exec .fatalError s = .next { s with stopped := true, agenda := [], aer := { s.aer with fatal := true } }) ∧
    (∃ t, exec .mainRailsDown s = .next t ∧ t = { State.reset with cur := s.cur, tick := s.tick, fresh := s.fresh, power := .off, mem := t.mem, staged := s.staged, firmware := s.firmware, minVersion := s.minVersion } ∧
      ∀ c, c ∈ t.mem ↔ c ∈ s.mem ∧ isHost c.1 = true) ∧
    (s.power = .ready → ∃ t, exec .pfFlr s = .next t ∧ t.power = .ready ∧ t.mem = s.mem ∧ t.marks = s.marks ∧ t.lines = [] ∧ t.flights = [] ∧ t.threads = [] ∧ t.groups = [] ∧
      t.insts = [] ∧ t.cards = [] ∧ t.ctxs = State.reset.ctxs ∧ t.parts = State.reset.parts ∧ t.slots = [] ∧ t.worlds = [] ∧ t.xclk = s.xclk ∧ t.firmware = s.firmware ∧
      ∀ c, (t.cluster c).tlb = [] ∧ (t.cluster c).copies = [] ∧ (t.vault c).bytes = [] ∧ (t.vault c).groups.map (·.st) = (s.vault c).groups.map (·.st)) ∧
    (s.power ≠ .off → ∃ t, exec .conventionalReset s = .next t ∧ t.power = .booting ∧ t.firmware = s.staged.getD s.firmware ∧ t.staged = none ∧ t.lines = [] ∧ t.flights = [] ∧
      t.marks = [] ∧ t.threads = [] ∧ t.groups = [] ∧ t.insts = [] ∧ t.ctxs = State.reset.ctxs ∧ t.slots = []) ∧
    (∀ vf, 1 ≤ vf → vf ≤ 64 → hostAnswers s = true → (tgetD {} s.tdis vf).st ≠ .run → tsorted s.ctxs = true →
      ∃ t, exec (.vfFlr vf) s = .next t ∧ t.mem = s.mem ∧ t.threads = s.threads ∧ (tgetD {} t.tdis vf).st = .unlocked ∧
        ∀ cx c, tget? s.ctxs cx = some c →
          ((∃ k, (vf, k) ∈ c.vfs) → (t.ctx cx).vfs = c.vfs.filter (fun v => !(v.1 = vf)) ∧ (c.kill = none → c.state ≠ .free → c.state ≠ .lost → (t.ctx cx).kill = some (7, []))) ∧
          ((∀ v ∈ c.vfs, v.1 ≠ vf) → t.ctx cx = c)) ∧
    ((s.power = .ready ∨ s.power = .recovery) → exec .powerUp s = .next s) ∧
    (s.power ≠ .ready → s.power ≠ .recovery →
      (s.boot = 0 → ∃ t, exec .powerUp s = .next t ∧ t = { s with mem := t.mem, power := .booting, boot := 1 } ∧ (s.power ≠ .off → t.mem = s.mem)) ∧
      (s.boot = 1 → let ok := Config.controllerOk s.firmware && Config.rsaOk s.firmware && Config.mldsaOk s.firmware && s.minVersion ≤ Config.securityVersion s.firmware
        (ok = false → exec .powerUp s = .next { s with power := .recovery, measured := false, blocks := [] }) ∧
        (ok = true → exec .powerUp s = .next { s with measured := true, blocks := (List.range 4).map (Config.measurement s.firmware), boot := 2 })) ∧
      (s.boot = 2 → exec .powerUp s = .next { s with boot := 3 }) ∧
      (s.boot = 3 → ∃ t, exec .powerUp s = .next t ∧ t = { s with clusters := t.clusters, boot := 4 }) ∧
      (4 ≤ s.boot → exec .powerUp s = .next { s with power := .ready, boot := 5 })) ∧
    (∀ w, exec (.powerLimit w) s = .next (if s.power = .ready ∧ 1200 ≤ w ∧ w ≤ 3200 then { s with plimit := w } else s)) ∧
    (∀ image, s.power ≠ .off → exec (.firmwareUpdate image) s = .next { s with staged := some image }) ∧
    (∀ island, island < 128 → s.power = .ready →
      let i := island % 32
      let range : Option (Nat × Nat) := if i < 16 then some (1000, 3000) else if i ≤ 24 then some (1000, 2000) else if i = 25 then some (750, 1500) else none
      let f := (tget? s.freq island).getD ((range.map (·.2)).getD 0)
      (range = none → ∀ up, exec (.islandFrequencyStep island up) s = .next s) ∧
      (∀ lo hi, range = some (lo, hi) →
        (s.plimit < Config.packagePower s.tick → exec (.islandFrequencyStep island true) s = .next s) ∧
        (Config.packagePower s.tick ≤ s.plimit → f + 100 < hi → exec (.islandFrequencyStep island true) s = .next { s with freq := tput s.freq island (f + 100) }) ∧
        (Config.packagePower s.tick ≤ s.plimit → hi ≤ f + 100 → exec (.islandFrequencyStep island true) s = .next { s with freq := terase s.freq island }) ∧
        (i < 16 → lo + 100 ≤ f → f ≤ hi → exec (.islandFrequencyStep island false) s = .next { s with freq := tput s.freq island (f - 100) }) ∧
        (16 ≤ i → i ≤ 24 → (∃ j, j < 128 ∧ j % 32 < 16 ∧ (tget? s.freq j).getD 3000 ≠ 1000) → exec (.islandFrequencyStep island false) s = .next s))))
end

