-- ==== Sys2Proof/Laws/State.lean ====
section
/-! SUPPORT. Laws/State.lean: what each update of the state and of a thread does to each field. -/

namespace Sys2Proof.Machine

open Sys2Proof

/-! ## `setThread` -/

@[simp] theorem setThread_cur (s : State) (i : Nat) (t : Thread) : (s.setThread i t).cur = s.cur := rfl
@[simp] theorem setThread_agenda (s : State) (i : Nat) (t : Thread) : (s.setThread i t).agenda = s.agenda := rfl
@[simp] theorem setThread_tick (s : State) (i : Nat) (t : Thread) : (s.setThread i t).tick = s.tick := rfl
@[simp] theorem setThread_fresh (s : State) (i : Nat) (t : Thread) : (s.setThread i t).fresh = s.fresh := rfl
@[simp] theorem setThread_threads (s : State) (i : Nat) (t : Thread) : (s.setThread i t).threads = tput s.threads i t := rfl
@[simp] theorem setThread_groups (s : State) (i : Nat) (t : Thread) : (s.setThread i t).groups = s.groups := rfl
@[simp] theorem setThread_cgroups (s : State) (i : Nat) (t : Thread) : (s.setThread i t).cgroups = s.cgroups := rfl
@[simp] theorem setThread_insts (s : State) (i : Nat) (t : Thread) : (s.setThread i t).insts = s.insts := rfl
@[simp] theorem setThread_clusters (s : State) (i : Nat) (t : Thread) : (s.setThread i t).clusters = s.clusters := rfl
@[simp] theorem setThread_cores (s : State) (i : Nat) (t : Thread) : (s.setThread i t).cores = s.cores := rfl
@[simp] theorem setThread_ctxs (s : State) (i : Nat) (t : Thread) : (s.setThread i t).ctxs = s.ctxs := rfl
@[simp] theorem setThread_parts (s : State) (i : Nat) (t : Thread) : (s.setThread i t).parts = s.parts := rfl
@[simp] theorem setThread_mem (s : State) (i : Nat) (t : Thread) : (s.setThread i t).mem = s.mem := rfl
@[simp] theorem setThread_marks (s : State) (i : Nat) (t : Thread) : (s.setThread i t).marks = s.marks := rfl
@[simp] theorem setThread_lines (s : State) (i : Nat) (t : Thread) : (s.setThread i t).lines = s.lines := rfl
@[simp] theorem setThread_flights (s : State) (i : Nat) (t : Thread) : (s.setThread i t).flights = s.flights := rfl
@[simp] theorem setThread_recs (s : State) (i : Nat) (t : Thread) : (s.setThread i t).recs = s.recs := rfl
@[simp] theorem setThread_collapsing (s : State) (i : Nat) (t : Thread) : (s.setThread i t).collapsing = s.collapsing := rfl
@[simp] theorem setThread_moving (s : State) (i : Nat) (t : Thread) : (s.setThread i t).moving = s.moving := rfl
@[simp] theorem setThread_hashes (s : State) (i : Nat) (t : Thread) : (s.setThread i t).hashes = s.hashes := rfl
@[simp] theorem setThread_tierPtr (s : State) (i : Nat) (t : Thread) : (s.setThread i t).tierPtr = s.tierPtr := rfl
@[simp] theorem setThread_tierCur (s : State) (i : Nat) (t : Thread) : (s.setThread i t).tierCur = s.tierCur := rfl
@[simp] theorem setThread_cards (s : State) (i : Nat) (t : Thread) : (s.setThread i t).cards = s.cards := rfl
@[simp] theorem setThread_waitingNotices (s : State) (i : Nat) (t : Thread) : (s.setThread i t).waitingNotices = s.waitingNotices := rfl
@[simp] theorem setThread_xclk (s : State) (i : Nat) (t : Thread) : (s.setThread i t).xclk = s.xclk := rfl
@[simp] theorem setThread_window (s : State) (i : Nat) (t : Thread) : (s.setThread i t).window = s.window := rfl
@[simp] theorem setThread_points (s : State) (i : Nat) (t : Thread) : (s.setThread i t).points = s.points := rfl
@[simp] theorem setThread_btables (s : State) (i : Nat) (t : Thread) : (s.setThread i t).btables = s.btables := rfl
@[simp] theorem setThread_acl (s : State) (i : Nat) (t : Thread) : (s.setThread i t).acl = s.acl := rfl
@[simp] theorem setThread_refusals (s : State) (i : Nat) (t : Thread) : (s.setThread i t).refusals = s.refusals := rfl
@[simp] theorem setThread_worlds (s : State) (i : Nat) (t : Thread) : (s.setThread i t).worlds = s.worlds := rfl
@[simp] theorem setThread_lantern (s : State) (i : Nat) (t : Thread) : (s.setThread i t).lantern = s.lantern := rfl
@[simp] theorem setThread_slots (s : State) (i : Nat) (t : Thread) : (s.setThread i t).slots = s.slots := rfl
@[simp] theorem setThread_tdis (s : State) (i : Nat) (t : Thread) : (s.setThread i t).tdis = s.tdis := rfl
@[simp] theorem setThread_spdm (s : State) (i : Nat) (t : Thread) : (s.setThread i t).spdm = s.spdm := rfl
@[simp] theorem setThread_spdmPending (s : State) (i : Nat) (t : Thread) : (s.setThread i t).spdmPending = s.spdmPending := rfl
@[simp] theorem setThread_ctxWin (s : State) (i : Nat) (t : Thread) : (s.setThread i t).ctxWin = s.ctxWin := rfl
@[simp] theorem setThread_hostWin (s : State) (i : Nat) (t : Thread) : (s.setThread i t).hostWin = s.hostWin := rfl
@[simp] theorem setThread_qpWin (s : State) (i : Nat) (t : Thread) : (s.setThread i t).qpWin = s.qpWin := rfl
@[simp] theorem setThread_hostQueue (s : State) (i : Nat) (t : Thread) : (s.setThread i t).hostQueue = s.hostQueue := rfl
@[simp] theorem setThread_vfSlots (s : State) (i : Nat) (t : Thread) : (s.setThread i t).vfSlots = s.vfSlots := rfl
@[simp] theorem setThread_qps (s : State) (i : Nat) (t : Thread) : (s.setThread i t).qps = s.qps := rfl
@[simp] theorem setThread_ethMode (s : State) (i : Nat) (t : Thread) : (s.setThread i t).ethMode = s.ethMode := rfl
@[simp] theorem setThread_ident (s : State) (i : Nat) (t : Thread) : (s.setThread i t).ident = s.ident := rfl
@[simp] theorem setThread_routes (s : State) (i : Nat) (t : Thread) : (s.setThread i t).routes = s.routes := rfl
@[simp] theorem setThread_portsUp (s : State) (i : Nat) (t : Thread) : (s.setThread i t).portsUp = s.portsUp := rfl
@[simp] theorem setThread_exports (s : State) (i : Nat) (t : Thread) : (s.setThread i t).exports = s.exports := rfl
@[simp] theorem setThread_exportRefusals (s : State) (i : Nat) (t : Thread) : (s.setThread i t).exportRefusals = s.exportRefusals := rfl
@[simp] theorem setThread_forwarded (s : State) (i : Nat) (t : Thread) : (s.setThread i t).forwarded = s.forwarded := rfl
@[simp] theorem setThread_replies (s : State) (i : Nat) (t : Thread) : (s.setThread i t).replies = s.replies := rfl
@[simp] theorem setThread_power (s : State) (i : Nat) (t : Thread) : (s.setThread i t).power = s.power := rfl
@[simp] theorem setThread_boot (s : State) (i : Nat) (t : Thread) : (s.setThread i t).boot = s.boot := rfl
@[simp] theorem setThread_plimit (s : State) (i : Nat) (t : Thread) : (s.setThread i t).plimit = s.plimit := rfl
@[simp] theorem setThread_freq (s : State) (i : Nat) (t : Thread) : (s.setThread i t).freq = s.freq := rfl
@[simp] theorem setThread_staged (s : State) (i : Nat) (t : Thread) : (s.setThread i t).staged = s.staged := rfl
@[simp] theorem setThread_firmware (s : State) (i : Nat) (t : Thread) : (s.setThread i t).firmware = s.firmware := rfl
@[simp] theorem setThread_measured (s : State) (i : Nat) (t : Thread) : (s.setThread i t).measured = s.measured := rfl
@[simp] theorem setThread_blocks (s : State) (i : Nat) (t : Thread) : (s.setThread i t).blocks = s.blocks := rfl
@[simp] theorem setThread_minVersion (s : State) (i : Nat) (t : Thread) : (s.setThread i t).minVersion = s.minVersion := rfl
@[simp] theorem setThread_aer (s : State) (i : Nat) (t : Thread) : (s.setThread i t).aer = s.aer := rfl
@[simp] theorem setThread_correctable (s : State) (i : Nat) (t : Thread) : (s.setThread i t).correctable = s.correctable := rfl
@[simp] theorem setThread_scrubs (s : State) (i : Nat) (t : Thread) : (s.setThread i t).scrubs = s.scrubs := rfl
@[simp] theorem setThread_badLines (s : State) (i : Nat) (t : Thread) : (s.setThread i t).badLines = s.badLines := rfl
@[simp] theorem setThread_injected (s : State) (i : Nat) (t : Thread) : (s.setThread i t).injected = s.injected := rfl
@[simp] theorem setThread_stopped (s : State) (i : Nat) (t : Thread) : (s.setThread i t).stopped = s.stopped := rfl
@[simp] theorem setThread_kills (s : State) (i : Nat) (t : Thread) : (s.setThread i t).kills = s.kills := rfl

/-! ## `setGroup` -/

@[simp] theorem setGroup_cur (s : State) (i : Nat) (g : CoreGroup) : (s.setGroup i g).cur = s.cur := rfl
@[simp] theorem setGroup_agenda (s : State) (i : Nat) (g : CoreGroup) : (s.setGroup i g).agenda = s.agenda := rfl
@[simp] theorem setGroup_tick (s : State) (i : Nat) (g : CoreGroup) : (s.setGroup i g).tick = s.tick := rfl
@[simp] theorem setGroup_fresh (s : State) (i : Nat) (g : CoreGroup) : (s.setGroup i g).fresh = s.fresh := rfl
@[simp] theorem setGroup_threads (s : State) (i : Nat) (g : CoreGroup) : (s.setGroup i g).threads = s.threads := rfl
@[simp] theorem setGroup_groups (s : State) (i : Nat) (g : CoreGroup) : (s.setGroup i g).groups = tput s.groups i g := rfl
@[simp] theorem setGroup_cgroups (s : State) (i : Nat) (g : CoreGroup) : (s.setGroup i g).cgroups = s.cgroups := rfl
@[simp] theorem setGroup_insts (s : State) (i : Nat) (g : CoreGroup) : (s.setGroup i g).insts = s.insts := rfl
@[simp] theorem setGroup_clusters (s : State) (i : Nat) (g : CoreGroup) : (s.setGroup i g).clusters = s.clusters := rfl
@[simp] theorem setGroup_cores (s : State) (i : Nat) (g : CoreGroup) : (s.setGroup i g).cores = s.cores := rfl
@[simp] theorem setGroup_ctxs (s : State) (i : Nat) (g : CoreGroup) : (s.setGroup i g).ctxs = s.ctxs := rfl
@[simp] theorem setGroup_parts (s : State) (i : Nat) (g : CoreGroup) : (s.setGroup i g).parts = s.parts := rfl
@[simp] theorem setGroup_mem (s : State) (i : Nat) (g : CoreGroup) : (s.setGroup i g).mem = s.mem := rfl
@[simp] theorem setGroup_marks (s : State) (i : Nat) (g : CoreGroup) : (s.setGroup i g).marks = s.marks := rfl
@[simp] theorem setGroup_lines (s : State) (i : Nat) (g : CoreGroup) : (s.setGroup i g).lines = s.lines := rfl
@[simp] theorem setGroup_flights (s : State) (i : Nat) (g : CoreGroup) : (s.setGroup i g).flights = s.flights := rfl
@[simp] theorem setGroup_recs (s : State) (i : Nat) (g : CoreGroup) : (s.setGroup i g).recs = s.recs := rfl
@[simp] theorem setGroup_collapsing (s : State) (i : Nat) (g : CoreGroup) : (s.setGroup i g).collapsing = s.collapsing := rfl
@[simp] theorem setGroup_moving (s : State) (i : Nat) (g : CoreGroup) : (s.setGroup i g).moving = s.moving := rfl
@[simp] theorem setGroup_hashes (s : State) (i : Nat) (g : CoreGroup) : (s.setGroup i g).hashes = s.hashes := rfl
@[simp] theorem setGroup_tierPtr (s : State) (i : Nat) (g : CoreGroup) : (s.setGroup i g).tierPtr = s.tierPtr := rfl
@[simp] theorem setGroup_tierCur (s : State) (i : Nat) (g : CoreGroup) : (s.setGroup i g).tierCur = s.tierCur := rfl
@[simp] theorem setGroup_cards (s : State) (i : Nat) (g : CoreGroup) : (s.setGroup i g).cards = s.cards := rfl
@[simp] theorem setGroup_waitingNotices (s : State) (i : Nat) (g : CoreGroup) : (s.setGroup i g).waitingNotices = s.waitingNotices := rfl
@[simp] theorem setGroup_xclk (s : State) (i : Nat) (g : CoreGroup) : (s.setGroup i g).xclk = s.xclk := rfl
@[simp] theorem setGroup_window (s : State) (i : Nat) (g : CoreGroup) : (s.setGroup i g).window = s.window := rfl
@[simp] theorem setGroup_points (s : State) (i : Nat) (g : CoreGroup) : (s.setGroup i g).points = s.points := rfl
@[simp] theorem setGroup_btables (s : State) (i : Nat) (g : CoreGroup) : (s.setGroup i g).btables = s.btables := rfl
@[simp] theorem setGroup_acl (s : State) (i : Nat) (g : CoreGroup) : (s.setGroup i g).acl = s.acl := rfl
@[simp] theorem setGroup_refusals (s : State) (i : Nat) (g : CoreGroup) : (s.setGroup i g).refusals = s.refusals := rfl
@[simp] theorem setGroup_worlds (s : State) (i : Nat) (g : CoreGroup) : (s.setGroup i g).worlds = s.worlds := rfl
@[simp] theorem setGroup_lantern (s : State) (i : Nat) (g : CoreGroup) : (s.setGroup i g).lantern = s.lantern := rfl
@[simp] theorem setGroup_slots (s : State) (i : Nat) (g : CoreGroup) : (s.setGroup i g).slots = s.slots := rfl
@[simp] theorem setGroup_tdis (s : State) (i : Nat) (g : CoreGroup) : (s.setGroup i g).tdis = s.tdis := rfl
@[simp] theorem setGroup_spdm (s : State) (i : Nat) (g : CoreGroup) : (s.setGroup i g).spdm = s.spdm := rfl
@[simp] theorem setGroup_spdmPending (s : State) (i : Nat) (g : CoreGroup) : (s.setGroup i g).spdmPending = s.spdmPending := rfl
@[simp] theorem setGroup_ctxWin (s : State) (i : Nat) (g : CoreGroup) : (s.setGroup i g).ctxWin = s.ctxWin := rfl
@[simp] theorem setGroup_hostWin (s : State) (i : Nat) (g : CoreGroup) : (s.setGroup i g).hostWin = s.hostWin := rfl
@[simp] theorem setGroup_qpWin (s : State) (i : Nat) (g : CoreGroup) : (s.setGroup i g).qpWin = s.qpWin := rfl
@[simp] theorem setGroup_hostQueue (s : State) (i : Nat) (g : CoreGroup) : (s.setGroup i g).hostQueue = s.hostQueue := rfl
@[simp] theorem setGroup_vfSlots (s : State) (i : Nat) (g : CoreGroup) : (s.setGroup i g).vfSlots = s.vfSlots := rfl
@[simp] theorem setGroup_qps (s : State) (i : Nat) (g : CoreGroup) : (s.setGroup i g).qps = s.qps := rfl
@[simp] theorem setGroup_ethMode (s : State) (i : Nat) (g : CoreGroup) : (s.setGroup i g).ethMode = s.ethMode := rfl
@[simp] theorem setGroup_ident (s : State) (i : Nat) (g : CoreGroup) : (s.setGroup i g).ident = s.ident := rfl
@[simp] theorem setGroup_routes (s : State) (i : Nat) (g : CoreGroup) : (s.setGroup i g).routes = s.routes := rfl
@[simp] theorem setGroup_portsUp (s : State) (i : Nat) (g : CoreGroup) : (s.setGroup i g).portsUp = s.portsUp := rfl
@[simp] theorem setGroup_exports (s : State) (i : Nat) (g : CoreGroup) : (s.setGroup i g).exports = s.exports := rfl
@[simp] theorem setGroup_exportRefusals (s : State) (i : Nat) (g : CoreGroup) : (s.setGroup i g).exportRefusals = s.exportRefusals := rfl
@[simp] theorem setGroup_forwarded (s : State) (i : Nat) (g : CoreGroup) : (s.setGroup i g).forwarded = s.forwarded := rfl
@[simp] theorem setGroup_replies (s : State) (i : Nat) (g : CoreGroup) : (s.setGroup i g).replies = s.replies := rfl
@[simp] theorem setGroup_power (s : State) (i : Nat) (g : CoreGroup) : (s.setGroup i g).power = s.power := rfl
@[simp] theorem setGroup_boot (s : State) (i : Nat) (g : CoreGroup) : (s.setGroup i g).boot = s.boot := rfl
@[simp] theorem setGroup_plimit (s : State) (i : Nat) (g : CoreGroup) : (s.setGroup i g).plimit = s.plimit := rfl
@[simp] theorem setGroup_freq (s : State) (i : Nat) (g : CoreGroup) : (s.setGroup i g).freq = s.freq := rfl
@[simp] theorem setGroup_staged (s : State) (i : Nat) (g : CoreGroup) : (s.setGroup i g).staged = s.staged := rfl
@[simp] theorem setGroup_firmware (s : State) (i : Nat) (g : CoreGroup) : (s.setGroup i g).firmware = s.firmware := rfl
@[simp] theorem setGroup_measured (s : State) (i : Nat) (g : CoreGroup) : (s.setGroup i g).measured = s.measured := rfl
@[simp] theorem setGroup_blocks (s : State) (i : Nat) (g : CoreGroup) : (s.setGroup i g).blocks = s.blocks := rfl
@[simp] theorem setGroup_minVersion (s : State) (i : Nat) (g : CoreGroup) : (s.setGroup i g).minVersion = s.minVersion := rfl
@[simp] theorem setGroup_aer (s : State) (i : Nat) (g : CoreGroup) : (s.setGroup i g).aer = s.aer := rfl
@[simp] theorem setGroup_correctable (s : State) (i : Nat) (g : CoreGroup) : (s.setGroup i g).correctable = s.correctable := rfl
@[simp] theorem setGroup_scrubs (s : State) (i : Nat) (g : CoreGroup) : (s.setGroup i g).scrubs = s.scrubs := rfl
@[simp] theorem setGroup_badLines (s : State) (i : Nat) (g : CoreGroup) : (s.setGroup i g).badLines = s.badLines := rfl
@[simp] theorem setGroup_injected (s : State) (i : Nat) (g : CoreGroup) : (s.setGroup i g).injected = s.injected := rfl
@[simp] theorem setGroup_stopped (s : State) (i : Nat) (g : CoreGroup) : (s.setGroup i g).stopped = s.stopped := rfl
@[simp] theorem setGroup_kills (s : State) (i : Nat) (g : CoreGroup) : (s.setGroup i g).kills = s.kills := rfl

/-! ## `setCGroup` -/

@[simp] theorem setCGroup_cur (s : State) (i : Nat) (g : ClusterGroup) : (s.setCGroup i g).cur = s.cur := rfl
@[simp] theorem setCGroup_agenda (s : State) (i : Nat) (g : ClusterGroup) : (s.setCGroup i g).agenda = s.agenda := rfl
@[simp] theorem setCGroup_tick (s : State) (i : Nat) (g : ClusterGroup) : (s.setCGroup i g).tick = s.tick := rfl
@[simp] theorem setCGroup_fresh (s : State) (i : Nat) (g : ClusterGroup) : (s.setCGroup i g).fresh = s.fresh := rfl
@[simp] theorem setCGroup_threads (s : State) (i : Nat) (g : ClusterGroup) : (s.setCGroup i g).threads = s.threads := rfl
@[simp] theorem setCGroup_groups (s : State) (i : Nat) (g : ClusterGroup) : (s.setCGroup i g).groups = s.groups := rfl
@[simp] theorem setCGroup_cgroups (s : State) (i : Nat) (g : ClusterGroup) : (s.setCGroup i g).cgroups = tput s.cgroups i g := rfl
@[simp] theorem setCGroup_insts (s : State) (i : Nat) (g : ClusterGroup) : (s.setCGroup i g).insts = s.insts := rfl
@[simp] theorem setCGroup_clusters (s : State) (i : Nat) (g : ClusterGroup) : (s.setCGroup i g).clusters = s.clusters := rfl
@[simp] theorem setCGroup_cores (s : State) (i : Nat) (g : ClusterGroup) : (s.setCGroup i g).cores = s.cores := rfl
@[simp] theorem setCGroup_ctxs (s : State) (i : Nat) (g : ClusterGroup) : (s.setCGroup i g).ctxs = s.ctxs := rfl
@[simp] theorem setCGroup_parts (s : State) (i : Nat) (g : ClusterGroup) : (s.setCGroup i g).parts = s.parts := rfl
@[simp] theorem setCGroup_mem (s : State) (i : Nat) (g : ClusterGroup) : (s.setCGroup i g).mem = s.mem := rfl
@[simp] theorem setCGroup_marks (s : State) (i : Nat) (g : ClusterGroup) : (s.setCGroup i g).marks = s.marks := rfl
@[simp] theorem setCGroup_lines (s : State) (i : Nat) (g : ClusterGroup) : (s.setCGroup i g).lines = s.lines := rfl
@[simp] theorem setCGroup_flights (s : State) (i : Nat) (g : ClusterGroup) : (s.setCGroup i g).flights = s.flights := rfl
@[simp] theorem setCGroup_recs (s : State) (i : Nat) (g : ClusterGroup) : (s.setCGroup i g).recs = s.recs := rfl
@[simp] theorem setCGroup_collapsing (s : State) (i : Nat) (g : ClusterGroup) : (s.setCGroup i g).collapsing = s.collapsing := rfl
@[simp] theorem setCGroup_moving (s : State) (i : Nat) (g : ClusterGroup) : (s.setCGroup i g).moving = s.moving := rfl
@[simp] theorem setCGroup_hashes (s : State) (i : Nat) (g : ClusterGroup) : (s.setCGroup i g).hashes = s.hashes := rfl
@[simp] theorem setCGroup_tierPtr (s : State) (i : Nat) (g : ClusterGroup) : (s.setCGroup i g).tierPtr = s.tierPtr := rfl
@[simp] theorem setCGroup_tierCur (s : State) (i : Nat) (g : ClusterGroup) : (s.setCGroup i g).tierCur = s.tierCur := rfl
@[simp] theorem setCGroup_cards (s : State) (i : Nat) (g : ClusterGroup) : (s.setCGroup i g).cards = s.cards := rfl
@[simp] theorem setCGroup_waitingNotices (s : State) (i : Nat) (g : ClusterGroup) : (s.setCGroup i g).waitingNotices = s.waitingNotices := rfl
@[simp] theorem setCGroup_xclk (s : State) (i : Nat) (g : ClusterGroup) : (s.setCGroup i g).xclk = s.xclk := rfl
@[simp] theorem setCGroup_window (s : State) (i : Nat) (g : ClusterGroup) : (s.setCGroup i g).window = s.window := rfl
@[simp] theorem setCGroup_points (s : State) (i : Nat) (g : ClusterGroup) : (s.setCGroup i g).points = s.points := rfl
@[simp] theorem setCGroup_btables (s : State) (i : Nat) (g : ClusterGroup) : (s.setCGroup i g).btables = s.btables := rfl
@[simp] theorem setCGroup_acl (s : State) (i : Nat) (g : ClusterGroup) : (s.setCGroup i g).acl = s.acl := rfl
@[simp] theorem setCGroup_refusals (s : State) (i : Nat) (g : ClusterGroup) : (s.setCGroup i g).refusals = s.refusals := rfl
@[simp] theorem setCGroup_worlds (s : State) (i : Nat) (g : ClusterGroup) : (s.setCGroup i g).worlds = s.worlds := rfl
@[simp] theorem setCGroup_lantern (s : State) (i : Nat) (g : ClusterGroup) : (s.setCGroup i g).lantern = s.lantern := rfl
@[simp] theorem setCGroup_slots (s : State) (i : Nat) (g : ClusterGroup) : (s.setCGroup i g).slots = s.slots := rfl
@[simp] theorem setCGroup_tdis (s : State) (i : Nat) (g : ClusterGroup) : (s.setCGroup i g).tdis = s.tdis := rfl
@[simp] theorem setCGroup_spdm (s : State) (i : Nat) (g : ClusterGroup) : (s.setCGroup i g).spdm = s.spdm := rfl
@[simp] theorem setCGroup_spdmPending (s : State) (i : Nat) (g : ClusterGroup) : (s.setCGroup i g).spdmPending = s.spdmPending := rfl
@[simp] theorem setCGroup_ctxWin (s : State) (i : Nat) (g : ClusterGroup) : (s.setCGroup i g).ctxWin = s.ctxWin := rfl
@[simp] theorem setCGroup_hostWin (s : State) (i : Nat) (g : ClusterGroup) : (s.setCGroup i g).hostWin = s.hostWin := rfl
@[simp] theorem setCGroup_qpWin (s : State) (i : Nat) (g : ClusterGroup) : (s.setCGroup i g).qpWin = s.qpWin := rfl
@[simp] theorem setCGroup_hostQueue (s : State) (i : Nat) (g : ClusterGroup) : (s.setCGroup i g).hostQueue = s.hostQueue := rfl
@[simp] theorem setCGroup_vfSlots (s : State) (i : Nat) (g : ClusterGroup) : (s.setCGroup i g).vfSlots = s.vfSlots := rfl
@[simp] theorem setCGroup_qps (s : State) (i : Nat) (g : ClusterGroup) : (s.setCGroup i g).qps = s.qps := rfl
@[simp] theorem setCGroup_ethMode (s : State) (i : Nat) (g : ClusterGroup) : (s.setCGroup i g).ethMode = s.ethMode := rfl
@[simp] theorem setCGroup_ident (s : State) (i : Nat) (g : ClusterGroup) : (s.setCGroup i g).ident = s.ident := rfl
@[simp] theorem setCGroup_routes (s : State) (i : Nat) (g : ClusterGroup) : (s.setCGroup i g).routes = s.routes := rfl
@[simp] theorem setCGroup_portsUp (s : State) (i : Nat) (g : ClusterGroup) : (s.setCGroup i g).portsUp = s.portsUp := rfl
@[simp] theorem setCGroup_exports (s : State) (i : Nat) (g : ClusterGroup) : (s.setCGroup i g).exports = s.exports := rfl
@[simp] theorem setCGroup_exportRefusals (s : State) (i : Nat) (g : ClusterGroup) : (s.setCGroup i g).exportRefusals = s.exportRefusals := rfl
@[simp] theorem setCGroup_forwarded (s : State) (i : Nat) (g : ClusterGroup) : (s.setCGroup i g).forwarded = s.forwarded := rfl
@[simp] theorem setCGroup_replies (s : State) (i : Nat) (g : ClusterGroup) : (s.setCGroup i g).replies = s.replies := rfl
@[simp] theorem setCGroup_power (s : State) (i : Nat) (g : ClusterGroup) : (s.setCGroup i g).power = s.power := rfl
@[simp] theorem setCGroup_boot (s : State) (i : Nat) (g : ClusterGroup) : (s.setCGroup i g).boot = s.boot := rfl
@[simp] theorem setCGroup_plimit (s : State) (i : Nat) (g : ClusterGroup) : (s.setCGroup i g).plimit = s.plimit := rfl
@[simp] theorem setCGroup_freq (s : State) (i : Nat) (g : ClusterGroup) : (s.setCGroup i g).freq = s.freq := rfl
@[simp] theorem setCGroup_staged (s : State) (i : Nat) (g : ClusterGroup) : (s.setCGroup i g).staged = s.staged := rfl
@[simp] theorem setCGroup_firmware (s : State) (i : Nat) (g : ClusterGroup) : (s.setCGroup i g).firmware = s.firmware := rfl
@[simp] theorem setCGroup_measured (s : State) (i : Nat) (g : ClusterGroup) : (s.setCGroup i g).measured = s.measured := rfl
@[simp] theorem setCGroup_blocks (s : State) (i : Nat) (g : ClusterGroup) : (s.setCGroup i g).blocks = s.blocks := rfl
@[simp] theorem setCGroup_minVersion (s : State) (i : Nat) (g : ClusterGroup) : (s.setCGroup i g).minVersion = s.minVersion := rfl
@[simp] theorem setCGroup_aer (s : State) (i : Nat) (g : ClusterGroup) : (s.setCGroup i g).aer = s.aer := rfl
@[simp] theorem setCGroup_correctable (s : State) (i : Nat) (g : ClusterGroup) : (s.setCGroup i g).correctable = s.correctable := rfl
@[simp] theorem setCGroup_scrubs (s : State) (i : Nat) (g : ClusterGroup) : (s.setCGroup i g).scrubs = s.scrubs := rfl
@[simp] theorem setCGroup_badLines (s : State) (i : Nat) (g : ClusterGroup) : (s.setCGroup i g).badLines = s.badLines := rfl
@[simp] theorem setCGroup_injected (s : State) (i : Nat) (g : ClusterGroup) : (s.setCGroup i g).injected = s.injected := rfl
@[simp] theorem setCGroup_stopped (s : State) (i : Nat) (g : ClusterGroup) : (s.setCGroup i g).stopped = s.stopped := rfl
@[simp] theorem setCGroup_kills (s : State) (i : Nat) (g : ClusterGroup) : (s.setCGroup i g).kills = s.kills := rfl

/-! ## `setInst` -/

@[simp] theorem setInst_cur (s : State) (i : Nat) (v : Inst) : (s.setInst i v).cur = s.cur := rfl
@[simp] theorem setInst_agenda (s : State) (i : Nat) (v : Inst) : (s.setInst i v).agenda = s.agenda := rfl
@[simp] theorem setInst_tick (s : State) (i : Nat) (v : Inst) : (s.setInst i v).tick = s.tick := rfl
@[simp] theorem setInst_fresh (s : State) (i : Nat) (v : Inst) : (s.setInst i v).fresh = s.fresh := rfl
@[simp] theorem setInst_threads (s : State) (i : Nat) (v : Inst) : (s.setInst i v).threads = s.threads := rfl
@[simp] theorem setInst_groups (s : State) (i : Nat) (v : Inst) : (s.setInst i v).groups = s.groups := rfl
@[simp] theorem setInst_cgroups (s : State) (i : Nat) (v : Inst) : (s.setInst i v).cgroups = s.cgroups := rfl
@[simp] theorem setInst_insts (s : State) (i : Nat) (v : Inst) : (s.setInst i v).insts = tput s.insts i v := rfl
@[simp] theorem setInst_clusters (s : State) (i : Nat) (v : Inst) : (s.setInst i v).clusters = s.clusters := rfl
@[simp] theorem setInst_cores (s : State) (i : Nat) (v : Inst) : (s.setInst i v).cores = s.cores := rfl
@[simp] theorem setInst_ctxs (s : State) (i : Nat) (v : Inst) : (s.setInst i v).ctxs = s.ctxs := rfl
@[simp] theorem setInst_parts (s : State) (i : Nat) (v : Inst) : (s.setInst i v).parts = s.parts := rfl
@[simp] theorem setInst_mem (s : State) (i : Nat) (v : Inst) : (s.setInst i v).mem = s.mem := rfl
@[simp] theorem setInst_marks (s : State) (i : Nat) (v : Inst) : (s.setInst i v).marks = s.marks := rfl
@[simp] theorem setInst_lines (s : State) (i : Nat) (v : Inst) : (s.setInst i v).lines = s.lines := rfl
@[simp] theorem setInst_flights (s : State) (i : Nat) (v : Inst) : (s.setInst i v).flights = s.flights := rfl
@[simp] theorem setInst_recs (s : State) (i : Nat) (v : Inst) : (s.setInst i v).recs = s.recs := rfl
@[simp] theorem setInst_collapsing (s : State) (i : Nat) (v : Inst) : (s.setInst i v).collapsing = s.collapsing := rfl
@[simp] theorem setInst_moving (s : State) (i : Nat) (v : Inst) : (s.setInst i v).moving = s.moving := rfl
@[simp] theorem setInst_hashes (s : State) (i : Nat) (v : Inst) : (s.setInst i v).hashes = s.hashes := rfl
@[simp] theorem setInst_tierPtr (s : State) (i : Nat) (v : Inst) : (s.setInst i v).tierPtr = s.tierPtr := rfl
@[simp] theorem setInst_tierCur (s : State) (i : Nat) (v : Inst) : (s.setInst i v).tierCur = s.tierCur := rfl
@[simp] theorem setInst_cards (s : State) (i : Nat) (v : Inst) : (s.setInst i v).cards = s.cards := rfl
@[simp] theorem setInst_waitingNotices (s : State) (i : Nat) (v : Inst) : (s.setInst i v).waitingNotices = s.waitingNotices := rfl
@[simp] theorem setInst_xclk (s : State) (i : Nat) (v : Inst) : (s.setInst i v).xclk = s.xclk := rfl
@[simp] theorem setInst_window (s : State) (i : Nat) (v : Inst) : (s.setInst i v).window = s.window := rfl
@[simp] theorem setInst_points (s : State) (i : Nat) (v : Inst) : (s.setInst i v).points = s.points := rfl
@[simp] theorem setInst_btables (s : State) (i : Nat) (v : Inst) : (s.setInst i v).btables = s.btables := rfl
@[simp] theorem setInst_acl (s : State) (i : Nat) (v : Inst) : (s.setInst i v).acl = s.acl := rfl
@[simp] theorem setInst_refusals (s : State) (i : Nat) (v : Inst) : (s.setInst i v).refusals = s.refusals := rfl
@[simp] theorem setInst_worlds (s : State) (i : Nat) (v : Inst) : (s.setInst i v).worlds = s.worlds := rfl
@[simp] theorem setInst_lantern (s : State) (i : Nat) (v : Inst) : (s.setInst i v).lantern = s.lantern := rfl
@[simp] theorem setInst_slots (s : State) (i : Nat) (v : Inst) : (s.setInst i v).slots = s.slots := rfl
@[simp] theorem setInst_tdis (s : State) (i : Nat) (v : Inst) : (s.setInst i v).tdis = s.tdis := rfl
@[simp] theorem setInst_spdm (s : State) (i : Nat) (v : Inst) : (s.setInst i v).spdm = s.spdm := rfl
@[simp] theorem setInst_spdmPending (s : State) (i : Nat) (v : Inst) : (s.setInst i v).spdmPending = s.spdmPending := rfl
@[simp] theorem setInst_ctxWin (s : State) (i : Nat) (v : Inst) : (s.setInst i v).ctxWin = s.ctxWin := rfl
@[simp] theorem setInst_hostWin (s : State) (i : Nat) (v : Inst) : (s.setInst i v).hostWin = s.hostWin := rfl
@[simp] theorem setInst_qpWin (s : State) (i : Nat) (v : Inst) : (s.setInst i v).qpWin = s.qpWin := rfl
@[simp] theorem setInst_hostQueue (s : State) (i : Nat) (v : Inst) : (s.setInst i v).hostQueue = s.hostQueue := rfl
@[simp] theorem setInst_vfSlots (s : State) (i : Nat) (v : Inst) : (s.setInst i v).vfSlots = s.vfSlots := rfl
@[simp] theorem setInst_qps (s : State) (i : Nat) (v : Inst) : (s.setInst i v).qps = s.qps := rfl
@[simp] theorem setInst_ethMode (s : State) (i : Nat) (v : Inst) : (s.setInst i v).ethMode = s.ethMode := rfl
@[simp] theorem setInst_ident (s : State) (i : Nat) (v : Inst) : (s.setInst i v).ident = s.ident := rfl
@[simp] theorem setInst_routes (s : State) (i : Nat) (v : Inst) : (s.setInst i v).routes = s.routes := rfl
@[simp] theorem setInst_portsUp (s : State) (i : Nat) (v : Inst) : (s.setInst i v).portsUp = s.portsUp := rfl
@[simp] theorem setInst_exports (s : State) (i : Nat) (v : Inst) : (s.setInst i v).exports = s.exports := rfl
@[simp] theorem setInst_exportRefusals (s : State) (i : Nat) (v : Inst) : (s.setInst i v).exportRefusals = s.exportRefusals := rfl
@[simp] theorem setInst_forwarded (s : State) (i : Nat) (v : Inst) : (s.setInst i v).forwarded = s.forwarded := rfl
@[simp] theorem setInst_replies (s : State) (i : Nat) (v : Inst) : (s.setInst i v).replies = s.replies := rfl
@[simp] theorem setInst_power (s : State) (i : Nat) (v : Inst) : (s.setInst i v).power = s.power := rfl
@[simp] theorem setInst_boot (s : State) (i : Nat) (v : Inst) : (s.setInst i v).boot = s.boot := rfl
@[simp] theorem setInst_plimit (s : State) (i : Nat) (v : Inst) : (s.setInst i v).plimit = s.plimit := rfl
@[simp] theorem setInst_freq (s : State) (i : Nat) (v : Inst) : (s.setInst i v).freq = s.freq := rfl
@[simp] theorem setInst_staged (s : State) (i : Nat) (v : Inst) : (s.setInst i v).staged = s.staged := rfl
@[simp] theorem setInst_firmware (s : State) (i : Nat) (v : Inst) : (s.setInst i v).firmware = s.firmware := rfl
@[simp] theorem setInst_measured (s : State) (i : Nat) (v : Inst) : (s.setInst i v).measured = s.measured := rfl
@[simp] theorem setInst_blocks (s : State) (i : Nat) (v : Inst) : (s.setInst i v).blocks = s.blocks := rfl
@[simp] theorem setInst_minVersion (s : State) (i : Nat) (v : Inst) : (s.setInst i v).minVersion = s.minVersion := rfl
@[simp] theorem setInst_aer (s : State) (i : Nat) (v : Inst) : (s.setInst i v).aer = s.aer := rfl
@[simp] theorem setInst_correctable (s : State) (i : Nat) (v : Inst) : (s.setInst i v).correctable = s.correctable := rfl
@[simp] theorem setInst_scrubs (s : State) (i : Nat) (v : Inst) : (s.setInst i v).scrubs = s.scrubs := rfl
@[simp] theorem setInst_badLines (s : State) (i : Nat) (v : Inst) : (s.setInst i v).badLines = s.badLines := rfl
@[simp] theorem setInst_injected (s : State) (i : Nat) (v : Inst) : (s.setInst i v).injected = s.injected := rfl
@[simp] theorem setInst_stopped (s : State) (i : Nat) (v : Inst) : (s.setInst i v).stopped = s.stopped := rfl
@[simp] theorem setInst_kills (s : State) (i : Nat) (v : Inst) : (s.setInst i v).kills = s.kills := rfl

/-! ## `setCluster` -/

@[simp] theorem setCluster_cur (s : State) (c : Nat) (v : Cluster) : (s.setCluster c v).cur = s.cur := rfl
@[simp] theorem setCluster_agenda (s : State) (c : Nat) (v : Cluster) : (s.setCluster c v).agenda = s.agenda := rfl
@[simp] theorem setCluster_tick (s : State) (c : Nat) (v : Cluster) : (s.setCluster c v).tick = s.tick := rfl
@[simp] theorem setCluster_fresh (s : State) (c : Nat) (v : Cluster) : (s.setCluster c v).fresh = s.fresh := rfl
@[simp] theorem setCluster_threads (s : State) (c : Nat) (v : Cluster) : (s.setCluster c v).threads = s.threads := rfl
@[simp] theorem setCluster_groups (s : State) (c : Nat) (v : Cluster) : (s.setCluster c v).groups = s.groups := rfl
@[simp] theorem setCluster_cgroups (s : State) (c : Nat) (v : Cluster) : (s.setCluster c v).cgroups = s.cgroups := rfl
@[simp] theorem setCluster_insts (s : State) (c : Nat) (v : Cluster) : (s.setCluster c v).insts = s.insts := rfl
@[simp] theorem setCluster_clusters (s : State) (c : Nat) (v : Cluster) : (s.setCluster c v).clusters = tput s.clusters c v := rfl
@[simp] theorem setCluster_cores (s : State) (c : Nat) (v : Cluster) : (s.setCluster c v).cores = s.cores := rfl
@[simp] theorem setCluster_ctxs (s : State) (c : Nat) (v : Cluster) : (s.setCluster c v).ctxs = s.ctxs := rfl
@[simp] theorem setCluster_parts (s : State) (c : Nat) (v : Cluster) : (s.setCluster c v).parts = s.parts := rfl
@[simp] theorem setCluster_mem (s : State) (c : Nat) (v : Cluster) : (s.setCluster c v).mem = s.mem := rfl
@[simp] theorem setCluster_marks (s : State) (c : Nat) (v : Cluster) : (s.setCluster c v).marks = s.marks := rfl
@[simp] theorem setCluster_lines (s : State) (c : Nat) (v : Cluster) : (s.setCluster c v).lines = s.lines := rfl
@[simp] theorem setCluster_flights (s : State) (c : Nat) (v : Cluster) : (s.setCluster c v).flights = s.flights := rfl
@[simp] theorem setCluster_recs (s : State) (c : Nat) (v : Cluster) : (s.setCluster c v).recs = s.recs := rfl
@[simp] theorem setCluster_collapsing (s : State) (c : Nat) (v : Cluster) : (s.setCluster c v).collapsing = s.collapsing := rfl
@[simp] theorem setCluster_moving (s : State) (c : Nat) (v : Cluster) : (s.setCluster c v).moving = s.moving := rfl
@[simp] theorem setCluster_hashes (s : State) (c : Nat) (v : Cluster) : (s.setCluster c v).hashes = s.hashes := rfl
@[simp] theorem setCluster_tierPtr (s : State) (c : Nat) (v : Cluster) : (s.setCluster c v).tierPtr = s.tierPtr := rfl
@[simp] theorem setCluster_tierCur (s : State) (c : Nat) (v : Cluster) : (s.setCluster c v).tierCur = s.tierCur := rfl
@[simp] theorem setCluster_cards (s : State) (c : Nat) (v : Cluster) : (s.setCluster c v).cards = s.cards := rfl
@[simp] theorem setCluster_waitingNotices (s : State) (c : Nat) (v : Cluster) : (s.setCluster c v).waitingNotices = s.waitingNotices := rfl
@[simp] theorem setCluster_xclk (s : State) (c : Nat) (v : Cluster) : (s.setCluster c v).xclk = s.xclk := rfl
@[simp] theorem setCluster_window (s : State) (c : Nat) (v : Cluster) : (s.setCluster c v).window = s.window := rfl
@[simp] theorem setCluster_points (s : State) (c : Nat) (v : Cluster) : (s.setCluster c v).points = s.points := rfl
@[simp] theorem setCluster_btables (s : State) (c : Nat) (v : Cluster) : (s.setCluster c v).btables = s.btables := rfl
@[simp] theorem setCluster_acl (s : State) (c : Nat) (v : Cluster) : (s.setCluster c v).acl = s.acl := rfl
@[simp] theorem setCluster_refusals (s : State) (c : Nat) (v : Cluster) : (s.setCluster c v).refusals = s.refusals := rfl
@[simp] theorem setCluster_worlds (s : State) (c : Nat) (v : Cluster) : (s.setCluster c v).worlds = s.worlds := rfl
@[simp] theorem setCluster_lantern (s : State) (c : Nat) (v : Cluster) : (s.setCluster c v).lantern = s.lantern := rfl
@[simp] theorem setCluster_slots (s : State) (c : Nat) (v : Cluster) : (s.setCluster c v).slots = s.slots := rfl
@[simp] theorem setCluster_tdis (s : State) (c : Nat) (v : Cluster) : (s.setCluster c v).tdis = s.tdis := rfl
@[simp] theorem setCluster_spdm (s : State) (c : Nat) (v : Cluster) : (s.setCluster c v).spdm = s.spdm := rfl
@[simp] theorem setCluster_spdmPending (s : State) (c : Nat) (v : Cluster) : (s.setCluster c v).spdmPending = s.spdmPending := rfl
@[simp] theorem setCluster_ctxWin (s : State) (c : Nat) (v : Cluster) : (s.setCluster c v).ctxWin = s.ctxWin := rfl
@[simp] theorem setCluster_hostWin (s : State) (c : Nat) (v : Cluster) : (s.setCluster c v).hostWin = s.hostWin := rfl
@[simp] theorem setCluster_qpWin (s : State) (c : Nat) (v : Cluster) : (s.setCluster c v).qpWin = s.qpWin := rfl
@[simp] theorem setCluster_hostQueue (s : State) (c : Nat) (v : Cluster) : (s.setCluster c v).hostQueue = s.hostQueue := rfl
@[simp] theorem setCluster_vfSlots (s : State) (c : Nat) (v : Cluster) : (s.setCluster c v).vfSlots = s.vfSlots := rfl
@[simp] theorem setCluster_qps (s : State) (c : Nat) (v : Cluster) : (s.setCluster c v).qps = s.qps := rfl
@[simp] theorem setCluster_ethMode (s : State) (c : Nat) (v : Cluster) : (s.setCluster c v).ethMode = s.ethMode := rfl
@[simp] theorem setCluster_ident (s : State) (c : Nat) (v : Cluster) : (s.setCluster c v).ident = s.ident := rfl
@[simp] theorem setCluster_routes (s : State) (c : Nat) (v : Cluster) : (s.setCluster c v).routes = s.routes := rfl
@[simp] theorem setCluster_portsUp (s : State) (c : Nat) (v : Cluster) : (s.setCluster c v).portsUp = s.portsUp := rfl
@[simp] theorem setCluster_exports (s : State) (c : Nat) (v : Cluster) : (s.setCluster c v).exports = s.exports := rfl
@[simp] theorem setCluster_exportRefusals (s : State) (c : Nat) (v : Cluster) : (s.setCluster c v).exportRefusals = s.exportRefusals := rfl
@[simp] theorem setCluster_forwarded (s : State) (c : Nat) (v : Cluster) : (s.setCluster c v).forwarded = s.forwarded := rfl
@[simp] theorem setCluster_replies (s : State) (c : Nat) (v : Cluster) : (s.setCluster c v).replies = s.replies := rfl
@[simp] theorem setCluster_power (s : State) (c : Nat) (v : Cluster) : (s.setCluster c v).power = s.power := rfl
@[simp] theorem setCluster_boot (s : State) (c : Nat) (v : Cluster) : (s.setCluster c v).boot = s.boot := rfl
@[simp] theorem setCluster_plimit (s : State) (c : Nat) (v : Cluster) : (s.setCluster c v).plimit = s.plimit := rfl
@[simp] theorem setCluster_freq (s : State) (c : Nat) (v : Cluster) : (s.setCluster c v).freq = s.freq := rfl
@[simp] theorem setCluster_staged (s : State) (c : Nat) (v : Cluster) : (s.setCluster c v).staged = s.staged := rfl
@[simp] theorem setCluster_firmware (s : State) (c : Nat) (v : Cluster) : (s.setCluster c v).firmware = s.firmware := rfl
@[simp] theorem setCluster_measured (s : State) (c : Nat) (v : Cluster) : (s.setCluster c v).measured = s.measured := rfl
@[simp] theorem setCluster_blocks (s : State) (c : Nat) (v : Cluster) : (s.setCluster c v).blocks = s.blocks := rfl
@[simp] theorem setCluster_minVersion (s : State) (c : Nat) (v : Cluster) : (s.setCluster c v).minVersion = s.minVersion := rfl
@[simp] theorem setCluster_aer (s : State) (c : Nat) (v : Cluster) : (s.setCluster c v).aer = s.aer := rfl
@[simp] theorem setCluster_correctable (s : State) (c : Nat) (v : Cluster) : (s.setCluster c v).correctable = s.correctable := rfl
@[simp] theorem setCluster_scrubs (s : State) (c : Nat) (v : Cluster) : (s.setCluster c v).scrubs = s.scrubs := rfl
@[simp] theorem setCluster_badLines (s : State) (c : Nat) (v : Cluster) : (s.setCluster c v).badLines = s.badLines := rfl
@[simp] theorem setCluster_injected (s : State) (c : Nat) (v : Cluster) : (s.setCluster c v).injected = s.injected := rfl
@[simp] theorem setCluster_stopped (s : State) (c : Nat) (v : Cluster) : (s.setCluster c v).stopped = s.stopped := rfl
@[simp] theorem setCluster_kills (s : State) (c : Nat) (v : Cluster) : (s.setCluster c v).kills = s.kills := rfl

/-! ## `setCore` -/

@[simp] theorem setCore_cur (s : State) (c : Nat) (v : CoreUnit) : (s.setCore c v).cur = s.cur := rfl
@[simp] theorem setCore_agenda (s : State) (c : Nat) (v : CoreUnit) : (s.setCore c v).agenda = s.agenda := rfl
@[simp] theorem setCore_tick (s : State) (c : Nat) (v : CoreUnit) : (s.setCore c v).tick = s.tick := rfl
@[simp] theorem setCore_fresh (s : State) (c : Nat) (v : CoreUnit) : (s.setCore c v).fresh = s.fresh := rfl
@[simp] theorem setCore_threads (s : State) (c : Nat) (v : CoreUnit) : (s.setCore c v).threads = s.threads := rfl
@[simp] theorem setCore_groups (s : State) (c : Nat) (v : CoreUnit) : (s.setCore c v).groups = s.groups := rfl
@[simp] theorem setCore_cgroups (s : State) (c : Nat) (v : CoreUnit) : (s.setCore c v).cgroups = s.cgroups := rfl
@[simp] theorem setCore_insts (s : State) (c : Nat) (v : CoreUnit) : (s.setCore c v).insts = s.insts := rfl
@[simp] theorem setCore_clusters (s : State) (c : Nat) (v : CoreUnit) : (s.setCore c v).clusters = s.clusters := rfl
@[simp] theorem setCore_cores (s : State) (c : Nat) (v : CoreUnit) : (s.setCore c v).cores = tput s.cores c v := rfl
@[simp] theorem setCore_ctxs (s : State) (c : Nat) (v : CoreUnit) : (s.setCore c v).ctxs = s.ctxs := rfl
@[simp] theorem setCore_parts (s : State) (c : Nat) (v : CoreUnit) : (s.setCore c v).parts = s.parts := rfl
@[simp] theorem setCore_mem (s : State) (c : Nat) (v : CoreUnit) : (s.setCore c v).mem = s.mem := rfl
@[simp] theorem setCore_marks (s : State) (c : Nat) (v : CoreUnit) : (s.setCore c v).marks = s.marks := rfl
@[simp] theorem setCore_lines (s : State) (c : Nat) (v : CoreUnit) : (s.setCore c v).lines = s.lines := rfl
@[simp] theorem setCore_flights (s : State) (c : Nat) (v : CoreUnit) : (s.setCore c v).flights = s.flights := rfl
@[simp] theorem setCore_recs (s : State) (c : Nat) (v : CoreUnit) : (s.setCore c v).recs = s.recs := rfl
@[simp] theorem setCore_collapsing (s : State) (c : Nat) (v : CoreUnit) : (s.setCore c v).collapsing = s.collapsing := rfl
@[simp] theorem setCore_moving (s : State) (c : Nat) (v : CoreUnit) : (s.setCore c v).moving = s.moving := rfl
@[simp] theorem setCore_hashes (s : State) (c : Nat) (v : CoreUnit) : (s.setCore c v).hashes = s.hashes := rfl
@[simp] theorem setCore_tierPtr (s : State) (c : Nat) (v : CoreUnit) : (s.setCore c v).tierPtr = s.tierPtr := rfl
@[simp] theorem setCore_tierCur (s : State) (c : Nat) (v : CoreUnit) : (s.setCore c v).tierCur = s.tierCur := rfl
@[simp] theorem setCore_cards (s : State) (c : Nat) (v : CoreUnit) : (s.setCore c v).cards = s.cards := rfl
@[simp] theorem setCore_waitingNotices (s : State) (c : Nat) (v : CoreUnit) : (s.setCore c v).waitingNotices = s.waitingNotices := rfl
@[simp] theorem setCore_xclk (s : State) (c : Nat) (v : CoreUnit) : (s.setCore c v).xclk = s.xclk := rfl
@[simp] theorem setCore_window (s : State) (c : Nat) (v : CoreUnit) : (s.setCore c v).window = s.window := rfl
@[simp] theorem setCore_points (s : State) (c : Nat) (v : CoreUnit) : (s.setCore c v).points = s.points := rfl
@[simp] theorem setCore_btables (s : State) (c : Nat) (v : CoreUnit) : (s.setCore c v).btables = s.btables := rfl
@[simp] theorem setCore_acl (s : State) (c : Nat) (v : CoreUnit) : (s.setCore c v).acl = s.acl := rfl
@[simp] theorem setCore_refusals (s : State) (c : Nat) (v : CoreUnit) : (s.setCore c v).refusals = s.refusals := rfl
@[simp] theorem setCore_worlds (s : State) (c : Nat) (v : CoreUnit) : (s.setCore c v).worlds = s.worlds := rfl
@[simp] theorem setCore_lantern (s : State) (c : Nat) (v : CoreUnit) : (s.setCore c v).lantern = s.lantern := rfl
@[simp] theorem setCore_slots (s : State) (c : Nat) (v : CoreUnit) : (s.setCore c v).slots = s.slots := rfl
@[simp] theorem setCore_tdis (s : State) (c : Nat) (v : CoreUnit) : (s.setCore c v).tdis = s.tdis := rfl
@[simp] theorem setCore_spdm (s : State) (c : Nat) (v : CoreUnit) : (s.setCore c v).spdm = s.spdm := rfl
@[simp] theorem setCore_spdmPending (s : State) (c : Nat) (v : CoreUnit) : (s.setCore c v).spdmPending = s.spdmPending := rfl
@[simp] theorem setCore_ctxWin (s : State) (c : Nat) (v : CoreUnit) : (s.setCore c v).ctxWin = s.ctxWin := rfl
@[simp] theorem setCore_hostWin (s : State) (c : Nat) (v : CoreUnit) : (s.setCore c v).hostWin = s.hostWin := rfl
@[simp] theorem setCore_qpWin (s : State) (c : Nat) (v : CoreUnit) : (s.setCore c v).qpWin = s.qpWin := rfl
@[simp] theorem setCore_hostQueue (s : State) (c : Nat) (v : CoreUnit) : (s.setCore c v).hostQueue = s.hostQueue := rfl
@[simp] theorem setCore_vfSlots (s : State) (c : Nat) (v : CoreUnit) : (s.setCore c v).vfSlots = s.vfSlots := rfl
@[simp] theorem setCore_qps (s : State) (c : Nat) (v : CoreUnit) : (s.setCore c v).qps = s.qps := rfl
@[simp] theorem setCore_ethMode (s : State) (c : Nat) (v : CoreUnit) : (s.setCore c v).ethMode = s.ethMode := rfl
@[simp] theorem setCore_ident (s : State) (c : Nat) (v : CoreUnit) : (s.setCore c v).ident = s.ident := rfl
@[simp] theorem setCore_routes (s : State) (c : Nat) (v : CoreUnit) : (s.setCore c v).routes = s.routes := rfl
@[simp] theorem setCore_portsUp (s : State) (c : Nat) (v : CoreUnit) : (s.setCore c v).portsUp = s.portsUp := rfl
@[simp] theorem setCore_exports (s : State) (c : Nat) (v : CoreUnit) : (s.setCore c v).exports = s.exports := rfl
@[simp] theorem setCore_exportRefusals (s : State) (c : Nat) (v : CoreUnit) : (s.setCore c v).exportRefusals = s.exportRefusals := rfl
@[simp] theorem setCore_forwarded (s : State) (c : Nat) (v : CoreUnit) : (s.setCore c v).forwarded = s.forwarded := rfl
@[simp] theorem setCore_replies (s : State) (c : Nat) (v : CoreUnit) : (s.setCore c v).replies = s.replies := rfl
@[simp] theorem setCore_power (s : State) (c : Nat) (v : CoreUnit) : (s.setCore c v).power = s.power := rfl
@[simp] theorem setCore_boot (s : State) (c : Nat) (v : CoreUnit) : (s.setCore c v).boot = s.boot := rfl
@[simp] theorem setCore_plimit (s : State) (c : Nat) (v : CoreUnit) : (s.setCore c v).plimit = s.plimit := rfl
@[simp] theorem setCore_freq (s : State) (c : Nat) (v : CoreUnit) : (s.setCore c v).freq = s.freq := rfl
@[simp] theorem setCore_staged (s : State) (c : Nat) (v : CoreUnit) : (s.setCore c v).staged = s.staged := rfl
@[simp] theorem setCore_firmware (s : State) (c : Nat) (v : CoreUnit) : (s.setCore c v).firmware = s.firmware := rfl
@[simp] theorem setCore_measured (s : State) (c : Nat) (v : CoreUnit) : (s.setCore c v).measured = s.measured := rfl
@[simp] theorem setCore_blocks (s : State) (c : Nat) (v : CoreUnit) : (s.setCore c v).blocks = s.blocks := rfl
@[simp] theorem setCore_minVersion (s : State) (c : Nat) (v : CoreUnit) : (s.setCore c v).minVersion = s.minVersion := rfl
@[simp] theorem setCore_aer (s : State) (c : Nat) (v : CoreUnit) : (s.setCore c v).aer = s.aer := rfl
@[simp] theorem setCore_correctable (s : State) (c : Nat) (v : CoreUnit) : (s.setCore c v).correctable = s.correctable := rfl
@[simp] theorem setCore_scrubs (s : State) (c : Nat) (v : CoreUnit) : (s.setCore c v).scrubs = s.scrubs := rfl
@[simp] theorem setCore_badLines (s : State) (c : Nat) (v : CoreUnit) : (s.setCore c v).badLines = s.badLines := rfl
@[simp] theorem setCore_injected (s : State) (c : Nat) (v : CoreUnit) : (s.setCore c v).injected = s.injected := rfl
@[simp] theorem setCore_stopped (s : State) (c : Nat) (v : CoreUnit) : (s.setCore c v).stopped = s.stopped := rfl
@[simp] theorem setCore_kills (s : State) (c : Nat) (v : CoreUnit) : (s.setCore c v).kills = s.kills := rfl

/-! ## `setCtx` -/

@[simp] theorem setCtx_cur (s : State) (c : Nat) (v : Ctx) : (s.setCtx c v).cur = s.cur := rfl
@[simp] theorem setCtx_agenda (s : State) (c : Nat) (v : Ctx) : (s.setCtx c v).agenda = s.agenda := rfl
@[simp] theorem setCtx_tick (s : State) (c : Nat) (v : Ctx) : (s.setCtx c v).tick = s.tick := rfl
@[simp] theorem setCtx_fresh (s : State) (c : Nat) (v : Ctx) : (s.setCtx c v).fresh = s.fresh := rfl
@[simp] theorem setCtx_threads (s : State) (c : Nat) (v : Ctx) : (s.setCtx c v).threads = s.threads := rfl
@[simp] theorem setCtx_groups (s : State) (c : Nat) (v : Ctx) : (s.setCtx c v).groups = s.groups := rfl
@[simp] theorem setCtx_cgroups (s : State) (c : Nat) (v : Ctx) : (s.setCtx c v).cgroups = s.cgroups := rfl
@[simp] theorem setCtx_insts (s : State) (c : Nat) (v : Ctx) : (s.setCtx c v).insts = s.insts := rfl
@[simp] theorem setCtx_clusters (s : State) (c : Nat) (v : Ctx) : (s.setCtx c v).clusters = s.clusters := rfl
@[simp] theorem setCtx_cores (s : State) (c : Nat) (v : Ctx) : (s.setCtx c v).cores = s.cores := rfl
@[simp] theorem setCtx_ctxs (s : State) (c : Nat) (v : Ctx) : (s.setCtx c v).ctxs = tput s.ctxs c v := rfl
@[simp] theorem setCtx_parts (s : State) (c : Nat) (v : Ctx) : (s.setCtx c v).parts = s.parts := rfl
@[simp] theorem setCtx_mem (s : State) (c : Nat) (v : Ctx) : (s.setCtx c v).mem = s.mem := rfl
@[simp] theorem setCtx_marks (s : State) (c : Nat) (v : Ctx) : (s.setCtx c v).marks = s.marks := rfl
@[simp] theorem setCtx_lines (s : State) (c : Nat) (v : Ctx) : (s.setCtx c v).lines = s.lines := rfl
@[simp] theorem setCtx_flights (s : State) (c : Nat) (v : Ctx) : (s.setCtx c v).flights = s.flights := rfl
@[simp] theorem setCtx_recs (s : State) (c : Nat) (v : Ctx) : (s.setCtx c v).recs = s.recs := rfl
@[simp] theorem setCtx_collapsing (s : State) (c : Nat) (v : Ctx) : (s.setCtx c v).collapsing = s.collapsing := rfl
@[simp] theorem setCtx_moving (s : State) (c : Nat) (v : Ctx) : (s.setCtx c v).moving = s.moving := rfl
@[simp] theorem setCtx_hashes (s : State) (c : Nat) (v : Ctx) : (s.setCtx c v).hashes = s.hashes := rfl
@[simp] theorem setCtx_tierPtr (s : State) (c : Nat) (v : Ctx) : (s.setCtx c v).tierPtr = s.tierPtr := rfl
@[simp] theorem setCtx_tierCur (s : State) (c : Nat) (v : Ctx) : (s.setCtx c v).tierCur = s.tierCur := rfl
@[simp] theorem setCtx_cards (s : State) (c : Nat) (v : Ctx) : (s.setCtx c v).cards = s.cards := rfl
@[simp] theorem setCtx_waitingNotices (s : State) (c : Nat) (v : Ctx) : (s.setCtx c v).waitingNotices = s.waitingNotices := rfl
@[simp] theorem setCtx_xclk (s : State) (c : Nat) (v : Ctx) : (s.setCtx c v).xclk = s.xclk := rfl
@[simp] theorem setCtx_window (s : State) (c : Nat) (v : Ctx) : (s.setCtx c v).window = s.window := rfl
@[simp] theorem setCtx_points (s : State) (c : Nat) (v : Ctx) : (s.setCtx c v).points = s.points := rfl
@[simp] theorem setCtx_btables (s : State) (c : Nat) (v : Ctx) : (s.setCtx c v).btables = s.btables := rfl
@[simp] theorem setCtx_acl (s : State) (c : Nat) (v : Ctx) : (s.setCtx c v).acl = s.acl := rfl
@[simp] theorem setCtx_refusals (s : State) (c : Nat) (v : Ctx) : (s.setCtx c v).refusals = s.refusals := rfl
@[simp] theorem setCtx_worlds (s : State) (c : Nat) (v : Ctx) : (s.setCtx c v).worlds = s.worlds := rfl
@[simp] theorem setCtx_lantern (s : State) (c : Nat) (v : Ctx) : (s.setCtx c v).lantern = s.lantern := rfl
@[simp] theorem setCtx_slots (s : State) (c : Nat) (v : Ctx) : (s.setCtx c v).slots = s.slots := rfl
@[simp] theorem setCtx_tdis (s : State) (c : Nat) (v : Ctx) : (s.setCtx c v).tdis = s.tdis := rfl
@[simp] theorem setCtx_spdm (s : State) (c : Nat) (v : Ctx) : (s.setCtx c v).spdm = s.spdm := rfl
@[simp] theorem setCtx_spdmPending (s : State) (c : Nat) (v : Ctx) : (s.setCtx c v).spdmPending = s.spdmPending := rfl
@[simp] theorem setCtx_ctxWin (s : State) (c : Nat) (v : Ctx) : (s.setCtx c v).ctxWin = s.ctxWin := rfl
@[simp] theorem setCtx_hostWin (s : State) (c : Nat) (v : Ctx) : (s.setCtx c v).hostWin = s.hostWin := rfl
@[simp] theorem setCtx_qpWin (s : State) (c : Nat) (v : Ctx) : (s.setCtx c v).qpWin = s.qpWin := rfl
@[simp] theorem setCtx_hostQueue (s : State) (c : Nat) (v : Ctx) : (s.setCtx c v).hostQueue = s.hostQueue := rfl
@[simp] theorem setCtx_vfSlots (s : State) (c : Nat) (v : Ctx) : (s.setCtx c v).vfSlots = s.vfSlots := rfl
@[simp] theorem setCtx_qps (s : State) (c : Nat) (v : Ctx) : (s.setCtx c v).qps = s.qps := rfl
@[simp] theorem setCtx_ethMode (s : State) (c : Nat) (v : Ctx) : (s.setCtx c v).ethMode = s.ethMode := rfl
@[simp] theorem setCtx_ident (s : State) (c : Nat) (v : Ctx) : (s.setCtx c v).ident = s.ident := rfl
@[simp] theorem setCtx_routes (s : State) (c : Nat) (v : Ctx) : (s.setCtx c v).routes = s.routes := rfl
@[simp] theorem setCtx_portsUp (s : State) (c : Nat) (v : Ctx) : (s.setCtx c v).portsUp = s.portsUp := rfl
@[simp] theorem setCtx_exports (s : State) (c : Nat) (v : Ctx) : (s.setCtx c v).exports = s.exports := rfl
@[simp] theorem setCtx_exportRefusals (s : State) (c : Nat) (v : Ctx) : (s.setCtx c v).exportRefusals = s.exportRefusals := rfl
@[simp] theorem setCtx_forwarded (s : State) (c : Nat) (v : Ctx) : (s.setCtx c v).forwarded = s.forwarded := rfl
@[simp] theorem setCtx_replies (s : State) (c : Nat) (v : Ctx) : (s.setCtx c v).replies = s.replies := rfl
@[simp] theorem setCtx_power (s : State) (c : Nat) (v : Ctx) : (s.setCtx c v).power = s.power := rfl
@[simp] theorem setCtx_boot (s : State) (c : Nat) (v : Ctx) : (s.setCtx c v).boot = s.boot := rfl
@[simp] theorem setCtx_plimit (s : State) (c : Nat) (v : Ctx) : (s.setCtx c v).plimit = s.plimit := rfl
@[simp] theorem setCtx_freq (s : State) (c : Nat) (v : Ctx) : (s.setCtx c v).freq = s.freq := rfl
@[simp] theorem setCtx_staged (s : State) (c : Nat) (v : Ctx) : (s.setCtx c v).staged = s.staged := rfl
@[simp] theorem setCtx_firmware (s : State) (c : Nat) (v : Ctx) : (s.setCtx c v).firmware = s.firmware := rfl
@[simp] theorem setCtx_measured (s : State) (c : Nat) (v : Ctx) : (s.setCtx c v).measured = s.measured := rfl
@[simp] theorem setCtx_blocks (s : State) (c : Nat) (v : Ctx) : (s.setCtx c v).blocks = s.blocks := rfl
@[simp] theorem setCtx_minVersion (s : State) (c : Nat) (v : Ctx) : (s.setCtx c v).minVersion = s.minVersion := rfl
@[simp] theorem setCtx_aer (s : State) (c : Nat) (v : Ctx) : (s.setCtx c v).aer = s.aer := rfl
@[simp] theorem setCtx_correctable (s : State) (c : Nat) (v : Ctx) : (s.setCtx c v).correctable = s.correctable := rfl
@[simp] theorem setCtx_scrubs (s : State) (c : Nat) (v : Ctx) : (s.setCtx c v).scrubs = s.scrubs := rfl
@[simp] theorem setCtx_badLines (s : State) (c : Nat) (v : Ctx) : (s.setCtx c v).badLines = s.badLines := rfl
@[simp] theorem setCtx_injected (s : State) (c : Nat) (v : Ctx) : (s.setCtx c v).injected = s.injected := rfl
@[simp] theorem setCtx_stopped (s : State) (c : Nat) (v : Ctx) : (s.setCtx c v).stopped = s.stopped := rfl
@[simp] theorem setCtx_kills (s : State) (c : Nat) (v : Ctx) : (s.setCtx c v).kills = s.kills := rfl

/-! ## `setReg` -/

@[simp] theorem setReg_gid (t : Thread) (n : Nat) (c : RegCell) : (setReg t n c).gid = t.gid := rfl
@[simp] theorem setReg_tix (t : Thread) (n : Nat) (c : RegCell) : (setReg t n c).tix = t.tix := rfl
@[simp] theorem setReg_pc (t : Thread) (n : Nat) (c : RegCell) : (setReg t n c).pc = t.pc := rfl
@[simp] theorem setReg_prio (t : Thread) (n : Nat) (c : RegCell) : (setReg t n c).prio = t.prio := rfl
@[simp] theorem setReg_status (t : Thread) (n : Nat) (c : RegCell) : (setReg t n c).status = t.status := rfl
@[simp] theorem setReg_demoted (t : Thread) (n : Nat) (c : RegCell) : (setReg t n c).demoted = t.demoted := rfl
@[simp] theorem setReg_regs (t : Thread) (n : Nat) (c : RegCell) : (setReg t n c).regs = t.regs.set n c := rfl
@[simp] theorem setReg_preds (t : Thread) (n : Nat) (c : RegCell) : (setReg t n c).preds = t.preds := rfl
@[simp] theorem setReg_flags (t : Thread) (n : Nat) (c : RegCell) : (setReg t n c).flags = t.flags := rfl
@[simp] theorem setReg_cvts (t : Thread) (n : Nat) (c : RegCell) : (setReg t n c).cvts = t.cvts := rfl
@[simp] theorem setReg_handler (t : Thread) (n : Nat) (c : RegCell) : (setReg t n c).handler = t.handler := rfl
@[simp] theorem setReg_tfcause (t : Thread) (n : Nat) (c : RegCell) : (setReg t n c).tfcause = t.tfcause := rfl
@[simp] theorem setReg_tftoken (t : Thread) (n : Nat) (c : RegCell) : (setReg t n c).tftoken = t.tftoken := rfl
@[simp] theorem setReg_tfpc (t : Thread) (n : Nat) (c : RegCell) : (setReg t n c).tfpc = t.tfpc := rfl
@[simp] theorem setReg_tfrqn (t : Thread) (n : Nat) (c : RegCell) : (setReg t n c).tfrqn = t.tfrqn := rfl
@[simp] theorem setReg_tfaux (t : Thread) (n : Nat) (c : RegCell) : (setReg t n c).tfaux = t.tfaux := rfl
@[simp] theorem setReg_tfs0 (t : Thread) (n : Nat) (c : RegCell) : (setReg t n c).tfs0 = t.tfs0 := rfl
@[simp] theorem setReg_tfs1 (t : Thread) (n : Nat) (c : RegCell) : (setReg t n c).tfs1 = t.tfs1 := rfl
@[simp] theorem setReg_replay (t : Thread) (n : Nat) (c : RegCell) : (setReg t n c).replay = t.replay := rfl
@[simp] theorem setReg_sb (t : Thread) (n : Nat) (c : RegCell) : (setReg t n c).sb = t.sb := rfl
@[simp] theorem setReg_items (t : Thread) (n : Nat) (c : RegCell) : (setReg t n c).items = t.items := rfl
@[simp] theorem setReg_accs (t : Thread) (n : Nat) (c : RegCell) : (setReg t n c).accs = t.accs := rfl
@[simp] theorem setReg_ended (t : Thread) (n : Nat) (c : RegCell) : (setReg t n c).ended = t.ended := rfl
@[simp] theorem setReg_arrivals (t : Thread) (n : Nat) (c : RegCell) : (setReg t n c).arrivals = t.arrivals := rfl
@[simp] theorem setReg_barPhases (t : Thread) (n : Nat) (c : RegCell) : (setReg t n c).barPhases = t.barPhases := rfl
@[simp] theorem setReg_fetched (t : Thread) (n : Nat) (c : RegCell) : (setReg t n c).fetched = t.fetched := rfl
@[simp] theorem setReg_reinject (t : Thread) (n : Nat) (c : RegCell) : (setReg t n c).reinject = t.reinject := rfl
@[simp] theorem setReg_firstTok (t : Thread) (n : Nat) (c : RegCell) : (setReg t n c).firstTok = t.firstTok := rfl

/-! ## `writePred` -/

@[simp] theorem writePred_gid (t : Thread) (p : BitVec 3) (v : Bool) (tok : Option Word) : (writePred t p v tok).gid = t.gid := rfl
@[simp] theorem writePred_tix (t : Thread) (p : BitVec 3) (v : Bool) (tok : Option Word) : (writePred t p v tok).tix = t.tix := rfl
@[simp] theorem writePred_pc (t : Thread) (p : BitVec 3) (v : Bool) (tok : Option Word) : (writePred t p v tok).pc = t.pc := rfl
@[simp] theorem writePred_prio (t : Thread) (p : BitVec 3) (v : Bool) (tok : Option Word) : (writePred t p v tok).prio = t.prio := rfl
@[simp] theorem writePred_status (t : Thread) (p : BitVec 3) (v : Bool) (tok : Option Word) : (writePred t p v tok).status = t.status := rfl
@[simp] theorem writePred_demoted (t : Thread) (p : BitVec 3) (v : Bool) (tok : Option Word) : (writePred t p v tok).demoted = t.demoted := rfl
@[simp] theorem writePred_regs (t : Thread) (p : BitVec 3) (v : Bool) (tok : Option Word) : (writePred t p v tok).regs = t.regs := rfl
@[simp] theorem writePred_preds (t : Thread) (p : BitVec 3) (v : Bool) (tok : Option Word) : (writePred t p v tok).preds = t.preds.set p.toNat { val := v, tok := tok } := rfl
@[simp] theorem writePred_flags (t : Thread) (p : BitVec 3) (v : Bool) (tok : Option Word) : (writePred t p v tok).flags = t.flags := rfl
@[simp] theorem writePred_cvts (t : Thread) (p : BitVec 3) (v : Bool) (tok : Option Word) : (writePred t p v tok).cvts = t.cvts := rfl
@[simp] theorem writePred_handler (t : Thread) (p : BitVec 3) (v : Bool) (tok : Option Word) : (writePred t p v tok).handler = t.handler := rfl
@[simp] theorem writePred_tfcause (t : Thread) (p : BitVec 3) (v : Bool) (tok : Option Word) : (writePred t p v tok).tfcause = t.tfcause := rfl
@[simp] theorem writePred_tftoken (t : Thread) (p : BitVec 3) (v : Bool) (tok : Option Word) : (writePred t p v tok).tftoken = t.tftoken := rfl
@[simp] theorem writePred_tfpc (t : Thread) (p : BitVec 3) (v : Bool) (tok : Option Word) : (writePred t p v tok).tfpc = t.tfpc := rfl
@[simp] theorem writePred_tfrqn (t : Thread) (p : BitVec 3) (v : Bool) (tok : Option Word) : (writePred t p v tok).tfrqn = t.tfrqn := rfl
@[simp] theorem writePred_tfaux (t : Thread) (p : BitVec 3) (v : Bool) (tok : Option Word) : (writePred t p v tok).tfaux = t.tfaux := rfl
@[simp] theorem writePred_tfs0 (t : Thread) (p : BitVec 3) (v : Bool) (tok : Option Word) : (writePred t p v tok).tfs0 = t.tfs0 := rfl
@[simp] theorem writePred_tfs1 (t : Thread) (p : BitVec 3) (v : Bool) (tok : Option Word) : (writePred t p v tok).tfs1 = t.tfs1 := rfl
@[simp] theorem writePred_replay (t : Thread) (p : BitVec 3) (v : Bool) (tok : Option Word) : (writePred t p v tok).replay = t.replay := rfl
@[simp] theorem writePred_sb (t : Thread) (p : BitVec 3) (v : Bool) (tok : Option Word) : (writePred t p v tok).sb = t.sb := rfl
@[simp] theorem writePred_items (t : Thread) (p : BitVec 3) (v : Bool) (tok : Option Word) : (writePred t p v tok).items = t.items := rfl
@[simp] theorem writePred_accs (t : Thread) (p : BitVec 3) (v : Bool) (tok : Option Word) : (writePred t p v tok).accs = t.accs := rfl
@[simp] theorem writePred_ended (t : Thread) (p : BitVec 3) (v : Bool) (tok : Option Word) : (writePred t p v tok).ended = t.ended := rfl
@[simp] theorem writePred_arrivals (t : Thread) (p : BitVec 3) (v : Bool) (tok : Option Word) : (writePred t p v tok).arrivals = t.arrivals := rfl
@[simp] theorem writePred_barPhases (t : Thread) (p : BitVec 3) (v : Bool) (tok : Option Word) : (writePred t p v tok).barPhases = t.barPhases := rfl
@[simp] theorem writePred_fetched (t : Thread) (p : BitVec 3) (v : Bool) (tok : Option Word) : (writePred t p v tok).fetched = t.fetched := rfl
@[simp] theorem writePred_reinject (t : Thread) (p : BitVec 3) (v : Bool) (tok : Option Word) : (writePred t p v tok).reinject = t.reinject := rfl
@[simp] theorem writePred_firstTok (t : Thread) (p : BitVec 3) (v : Bool) (tok : Option Word) : (writePred t p v tok).firstTok = t.firstTok := rfl

/-! ## `advance` -/

@[simp] theorem advance_gid (t : Thread) (n : Nat) : (advance t n).gid = t.gid := rfl
@[simp] theorem advance_tix (t : Thread) (n : Nat) : (advance t n).tix = t.tix := rfl
@[simp] theorem advance_pc (t : Thread) (n : Nat) : (advance t n).pc = pcAdd t.pc n := rfl
@[simp] theorem advance_prio (t : Thread) (n : Nat) : (advance t n).prio = t.prio := rfl
@[simp] theorem advance_status (t : Thread) (n : Nat) : (advance t n).status = t.status := rfl
@[simp] theorem advance_demoted (t : Thread) (n : Nat) : (advance t n).demoted = t.demoted := rfl
@[simp] theorem advance_regs (t : Thread) (n : Nat) : (advance t n).regs = t.regs := rfl
@[simp] theorem advance_preds (t : Thread) (n : Nat) : (advance t n).preds = t.preds := rfl
@[simp] theorem advance_flags (t : Thread) (n : Nat) : (advance t n).flags = t.flags := rfl
@[simp] theorem advance_cvts (t : Thread) (n : Nat) : (advance t n).cvts = t.cvts := rfl
@[simp] theorem advance_handler (t : Thread) (n : Nat) : (advance t n).handler = t.handler := rfl
@[simp] theorem advance_tfcause (t : Thread) (n : Nat) : (advance t n).tfcause = t.tfcause := rfl
@[simp] theorem advance_tftoken (t : Thread) (n : Nat) : (advance t n).tftoken = t.tftoken := rfl
@[simp] theorem advance_tfpc (t : Thread) (n : Nat) : (advance t n).tfpc = t.tfpc := rfl
@[simp] theorem advance_tfrqn (t : Thread) (n : Nat) : (advance t n).tfrqn = t.tfrqn := rfl
@[simp] theorem advance_tfaux (t : Thread) (n : Nat) : (advance t n).tfaux = t.tfaux := rfl
@[simp] theorem advance_tfs0 (t : Thread) (n : Nat) : (advance t n).tfs0 = t.tfs0 := rfl
@[simp] theorem advance_tfs1 (t : Thread) (n : Nat) : (advance t n).tfs1 = t.tfs1 := rfl
@[simp] theorem advance_replay (t : Thread) (n : Nat) : (advance t n).replay = t.replay := rfl
@[simp] theorem advance_sb (t : Thread) (n : Nat) : (advance t n).sb = t.sb := rfl
@[simp] theorem advance_items (t : Thread) (n : Nat) : (advance t n).items = t.items := rfl
@[simp] theorem advance_accs (t : Thread) (n : Nat) : (advance t n).accs = t.accs := rfl
@[simp] theorem advance_ended (t : Thread) (n : Nat) : (advance t n).ended = t.ended := rfl
@[simp] theorem advance_arrivals (t : Thread) (n : Nat) : (advance t n).arrivals = t.arrivals := rfl
@[simp] theorem advance_barPhases (t : Thread) (n : Nat) : (advance t n).barPhases = t.barPhases := rfl
@[simp] theorem advance_fetched (t : Thread) (n : Nat) : (advance t n).fetched = t.fetched := rfl
@[simp] theorem advance_reinject (t : Thread) (n : Nat) : (advance t n).reinject = t.reinject := rfl
@[simp] theorem advance_firstTok (t : Thread) (n : Nat) : (advance t n).firstTok = t.firstTok := rfl

/-! ## `parkThread` -/

@[simp] theorem parkThread_gid (t : Thread) (p : Park) : (parkThread t p).gid = t.gid := rfl
@[simp] theorem parkThread_tix (t : Thread) (p : Park) : (parkThread t p).tix = t.tix := rfl
@[simp] theorem parkThread_pc (t : Thread) (p : Park) : (parkThread t p).pc = t.pc := rfl
@[simp] theorem parkThread_prio (t : Thread) (p : Park) : (parkThread t p).prio = t.prio := rfl
@[simp] theorem parkThread_status (t : Thread) (p : Park) : (parkThread t p).status = .parked p := rfl
@[simp] theorem parkThread_demoted (t : Thread) (p : Park) : (parkThread t p).demoted = t.demoted := rfl
@[simp] theorem parkThread_regs (t : Thread) (p : Park) : (parkThread t p).regs = t.regs := rfl
@[simp] theorem parkThread_preds (t : Thread) (p : Park) : (parkThread t p).preds = t.preds := rfl
@[simp] theorem parkThread_flags (t : Thread) (p : Park) : (parkThread t p).flags = t.flags := rfl
@[simp] theorem parkThread_cvts (t : Thread) (p : Park) : (parkThread t p).cvts = t.cvts := rfl
@[simp] theorem parkThread_handler (t : Thread) (p : Park) : (parkThread t p).handler = t.handler := rfl
@[simp] theorem parkThread_tfcause (t : Thread) (p : Park) : (parkThread t p).tfcause = t.tfcause := rfl
@[simp] theorem parkThread_tftoken (t : Thread) (p : Park) : (parkThread t p).tftoken = t.tftoken := rfl
@[simp] theorem parkThread_tfpc (t : Thread) (p : Park) : (parkThread t p).tfpc = t.tfpc := rfl
@[simp] theorem parkThread_tfrqn (t : Thread) (p : Park) : (parkThread t p).tfrqn = t.tfrqn := rfl
@[simp] theorem parkThread_tfaux (t : Thread) (p : Park) : (parkThread t p).tfaux = t.tfaux := rfl
@[simp] theorem parkThread_tfs0 (t : Thread) (p : Park) : (parkThread t p).tfs0 = t.tfs0 := rfl
@[simp] theorem parkThread_tfs1 (t : Thread) (p : Park) : (parkThread t p).tfs1 = t.tfs1 := rfl
@[simp] theorem parkThread_replay (t : Thread) (p : Park) : (parkThread t p).replay = t.replay := rfl
@[simp] theorem parkThread_sb (t : Thread) (p : Park) : (parkThread t p).sb = t.sb := rfl
@[simp] theorem parkThread_items (t : Thread) (p : Park) : (parkThread t p).items = t.items := rfl
@[simp] theorem parkThread_accs (t : Thread) (p : Park) : (parkThread t p).accs = t.accs := rfl
@[simp] theorem parkThread_ended (t : Thread) (p : Park) : (parkThread t p).ended = t.ended := rfl
@[simp] theorem parkThread_arrivals (t : Thread) (p : Park) : (parkThread t p).arrivals = t.arrivals := rfl
@[simp] theorem parkThread_barPhases (t : Thread) (p : Park) : (parkThread t p).barPhases = t.barPhases := rfl
@[simp] theorem parkThread_fetched (t : Thread) (p : Park) : (parkThread t p).fetched = [] := rfl
@[simp] theorem parkThread_reinject (t : Thread) (p : Park) : (parkThread t p).reinject = t.reinject := rfl
@[simp] theorem parkThread_firstTok (t : Thread) (p : Park) : (parkThread t p).firstTok = t.firstTok := rfl

/-! ## `endQuantum` -/

@[simp] theorem endQuantum_gid (t : Thread) (a : After) : (endQuantum t a).gid = t.gid := rfl
@[simp] theorem endQuantum_tix (t : Thread) (a : After) : (endQuantum t a).tix = t.tix := rfl
@[simp] theorem endQuantum_pc (t : Thread) (a : After) : (endQuantum t a).pc = t.pc := rfl
@[simp] theorem endQuantum_prio (t : Thread) (a : After) : (endQuantum t a).prio = t.prio := rfl
@[simp] theorem endQuantum_status (t : Thread) (a : After) : (endQuantum t a).status = .parked (.boundary a) := rfl
@[simp] theorem endQuantum_demoted (t : Thread) (a : After) : (endQuantum t a).demoted = t.demoted := rfl
@[simp] theorem endQuantum_regs (t : Thread) (a : After) : (endQuantum t a).regs = t.regs := rfl
@[simp] theorem endQuantum_preds (t : Thread) (a : After) : (endQuantum t a).preds = t.preds := rfl
@[simp] theorem endQuantum_flags (t : Thread) (a : After) : (endQuantum t a).flags = t.flags := rfl
@[simp] theorem endQuantum_cvts (t : Thread) (a : After) : (endQuantum t a).cvts = t.cvts := rfl
@[simp] theorem endQuantum_handler (t : Thread) (a : After) : (endQuantum t a).handler = t.handler := rfl
@[simp] theorem endQuantum_tfcause (t : Thread) (a : After) : (endQuantum t a).tfcause = t.tfcause := rfl
@[simp] theorem endQuantum_tftoken (t : Thread) (a : After) : (endQuantum t a).tftoken = t.tftoken := rfl
@[simp] theorem endQuantum_tfpc (t : Thread) (a : After) : (endQuantum t a).tfpc = t.tfpc := rfl
@[simp] theorem endQuantum_tfrqn (t : Thread) (a : After) : (endQuantum t a).tfrqn = t.tfrqn := rfl
@[simp] theorem endQuantum_tfaux (t : Thread) (a : After) : (endQuantum t a).tfaux = t.tfaux := rfl
@[simp] theorem endQuantum_tfs0 (t : Thread) (a : After) : (endQuantum t a).tfs0 = t.tfs0 := rfl
@[simp] theorem endQuantum_tfs1 (t : Thread) (a : After) : (endQuantum t a).tfs1 = t.tfs1 := rfl
@[simp] theorem endQuantum_replay (t : Thread) (a : After) : (endQuantum t a).replay = t.replay := rfl
@[simp] theorem endQuantum_sb (t : Thread) (a : After) : (endQuantum t a).sb = t.sb := rfl
@[simp] theorem endQuantum_items (t : Thread) (a : After) : (endQuantum t a).items = t.items := rfl
@[simp] theorem endQuantum_accs (t : Thread) (a : After) : (endQuantum t a).accs = t.accs := rfl
@[simp] theorem endQuantum_ended (t : Thread) (a : After) : (endQuantum t a).ended = true := rfl
@[simp] theorem endQuantum_arrivals (t : Thread) (a : After) : (endQuantum t a).arrivals = t.arrivals := rfl
@[simp] theorem endQuantum_barPhases (t : Thread) (a : After) : (endQuantum t a).barPhases = t.barPhases := rfl
@[simp] theorem endQuantum_fetched (t : Thread) (a : After) : (endQuantum t a).fetched = [] := rfl
@[simp] theorem endQuantum_reinject (t : Thread) (a : After) : (endQuantum t a).reinject = t.reinject := rfl
@[simp] theorem endQuantum_firstTok (t : Thread) (a : After) : (endQuantum t a).firstTok = t.firstTok := rfl

/-! ## `appendSb` -/

@[simp] theorem appendSb_gid (t : Thread) (es : List SbEntry) : (appendSb t es).gid = t.gid := rfl
@[simp] theorem appendSb_tix (t : Thread) (es : List SbEntry) : (appendSb t es).tix = t.tix := rfl
@[simp] theorem appendSb_pc (t : Thread) (es : List SbEntry) : (appendSb t es).pc = t.pc := rfl
@[simp] theorem appendSb_prio (t : Thread) (es : List SbEntry) : (appendSb t es).prio = t.prio := rfl
@[simp] theorem appendSb_status (t : Thread) (es : List SbEntry) : (appendSb t es).status = t.status := rfl
@[simp] theorem appendSb_demoted (t : Thread) (es : List SbEntry) : (appendSb t es).demoted = t.demoted := rfl
@[simp] theorem appendSb_regs (t : Thread) (es : List SbEntry) : (appendSb t es).regs = t.regs := rfl
@[simp] theorem appendSb_preds (t : Thread) (es : List SbEntry) : (appendSb t es).preds = t.preds := rfl
@[simp] theorem appendSb_flags (t : Thread) (es : List SbEntry) : (appendSb t es).flags = t.flags := rfl
@[simp] theorem appendSb_cvts (t : Thread) (es : List SbEntry) : (appendSb t es).cvts = t.cvts := rfl
@[simp] theorem appendSb_handler (t : Thread) (es : List SbEntry) : (appendSb t es).handler = t.handler := rfl
@[simp] theorem appendSb_tfcause (t : Thread) (es : List SbEntry) : (appendSb t es).tfcause = t.tfcause := rfl
@[simp] theorem appendSb_tftoken (t : Thread) (es : List SbEntry) : (appendSb t es).tftoken = t.tftoken := rfl
@[simp] theorem appendSb_tfpc (t : Thread) (es : List SbEntry) : (appendSb t es).tfpc = t.tfpc := rfl
@[simp] theorem appendSb_tfrqn (t : Thread) (es : List SbEntry) : (appendSb t es).tfrqn = t.tfrqn := rfl
@[simp] theorem appendSb_tfaux (t : Thread) (es : List SbEntry) : (appendSb t es).tfaux = t.tfaux := rfl
@[simp] theorem appendSb_tfs0 (t : Thread) (es : List SbEntry) : (appendSb t es).tfs0 = t.tfs0 := rfl
@[simp] theorem appendSb_tfs1 (t : Thread) (es : List SbEntry) : (appendSb t es).tfs1 = t.tfs1 := rfl
@[simp] theorem appendSb_replay (t : Thread) (es : List SbEntry) : (appendSb t es).replay = t.replay := rfl
@[simp] theorem appendSb_sb (t : Thread) (es : List SbEntry) : (appendSb t es).sb = t.sb ++ es := rfl
@[simp] theorem appendSb_items (t : Thread) (es : List SbEntry) : (appendSb t es).items = t.items := rfl
@[simp] theorem appendSb_accs (t : Thread) (es : List SbEntry) : (appendSb t es).accs = t.accs := rfl
@[simp] theorem appendSb_ended (t : Thread) (es : List SbEntry) : (appendSb t es).ended = t.ended := rfl
@[simp] theorem appendSb_arrivals (t : Thread) (es : List SbEntry) : (appendSb t es).arrivals = t.arrivals := rfl
@[simp] theorem appendSb_barPhases (t : Thread) (es : List SbEntry) : (appendSb t es).barPhases = t.barPhases := rfl
@[simp] theorem appendSb_fetched (t : Thread) (es : List SbEntry) : (appendSb t es).fetched = t.fetched := rfl
@[simp] theorem appendSb_reinject (t : Thread) (es : List SbEntry) : (appendSb t es).reinject = t.reinject := rfl
@[simp] theorem appendSb_firstTok (t : Thread) (es : List SbEntry) : (appendSb t es).firstTok = t.firstTok := rfl

end Sys2Proof.Machine
end

