-- ==== Sys2Proof/Laws/Tables.lean ====
section
/-! SUPPORT. Laws/Tables.lean: reading after writing a table and a memory, and the canonical form of memory, which every write
keeps. -/

namespace Sys2Proof.Machine

open Sys2Proof

/-! ## Tables -/

@[simp] theorem tget?_nil {α : Type} (i : Nat) : tget? ([] : Tab α) i = none := rfl

theorem tget?_tput_same {α : Type} (t : Tab α) (i : Nat) (v : α) : tget? (tput t i v) i = some v := by
  induction t with
  | nil => simp [tput, tget?]
  | cons p t ih =>
    obtain ⟨k, w⟩ := p
    simp only [tput]
    split
    · simp [tget?]
    · split
      · simp [tget?]
      · rename_i h1 h2
        simp [tget?, Ne.symm h2, ih]

theorem tget?_tput_other {α : Type} (t : Tab α) {i j : Nat} (v : α) (h : j ≠ i) : tget? (tput t i v) j = tget? t j := by
  induction t with
  | nil => simp [tput, tget?, Ne.symm h]
  | cons p t ih =>
    obtain ⟨k, w⟩ := p
    simp only [tput]
    split
    · simp [tget?, Ne.symm h]
    · split
      · subst_vars; simp [tget?, Ne.symm h]
      · simp only [tget?]
        split
        · rfl
        · exact ih

@[simp] theorem tget?_tput {α : Type} (t : Tab α) (i j : Nat) (v : α) :
    tget? (tput t i v) j = if j = i then some v else tget? t j := by
  split
  · subst_vars; exact tget?_tput_same ..
  · exact tget?_tput_other _ _ ‹_›

@[simp] theorem tgetD_tput {α : Type} (d : α) (t : Tab α) (i j : Nat) (v : α) :
    tgetD d (tput t i v) j = if j = i then v else tgetD d t j := by
  unfold tgetD; rw [tget?_tput]; split <;> rfl

/-- A second write of one key replaces the first. -/
@[simp] theorem tput_tput {α : Type} (t : Tab α) (i : Nat) (v w : α) : tput (tput t i v) i w = tput t i w := by
  induction t with
  | nil => simp [tput]
  | cons p t ih =>
    obtain ⟨k, x⟩ := p
    simp only [tput]
    split
    · simp [tput]
    · split
      · simp [tput]
      · rename_i h1 h2
        simp [tput, h1, h2, ih]

/-! ## Memory -/

theorem memRead_below {lo : Nat} {m : List Host.Cell} (h : Memory.wfFrom lo m = true) {a : Nat} (ha : a < lo) : memRead m a = 0 := by
  induction m generalizing lo with
  | nil => rfl
  | cons c m ih =>
    obtain ⟨k, b⟩ := c
    simp only [Memory.wfFrom, Bool.and_eq_true, decide_eq_true_eq] at h
    simp only [memRead]
    rw [if_neg (by omega)]
    exact ih h.2 (by omega)

/-- Reading an address that has been written gives the byte written. -/
theorem memRead_memWrite_same {lo : Nat} (m : List Host.Cell) (a : Nat) (v : Byte) (h : Memory.wfFrom lo m = true) :
    memRead (memWrite m a v) a = v := by
  induction m generalizing lo with
  | nil => simp only [memWrite]; split <;> simp_all [memRead]
  | cons c m ih =>
    obtain ⟨k, b⟩ := c
    simp only [Memory.wfFrom, Bool.and_eq_true, decide_eq_true_eq] at h
    simp only [memWrite]
    split
    · split
      · subst_vars
        simp only [memRead]
        rw [if_neg (by omega)]
        exact memRead_below h.2 (by omega)
      · simp [memRead]
    · split
      · split
        · subst_vars; exact memRead_below h.2 (by omega)
        · simp [memRead]
      · simp only [memRead]
        rw [if_neg (by omega)]
        exact ih h.2

/-- A write leaves every other address alone. -/
theorem memRead_memWrite_other (m : List Host.Cell) {a x : Nat} (v : Byte) (hx : x ≠ a) : memRead (memWrite m a v) x = memRead m x := by
  induction m with
  | nil => simp only [memWrite]; split <;> simp [memRead, Ne.symm hx]
  | cons c m ih =>
    obtain ⟨k, b⟩ := c
    simp only [memWrite]
    split
    · split
      · rfl
      · simp [memRead, Ne.symm hx]
    · split
      · split <;> subst_vars <;> simp [memRead, Ne.symm hx]
      · simp only [memRead, ih]

theorem wfFrom_mono {lo lo' : Nat} {m : List Host.Cell} (h : Memory.wfFrom lo m = true) (hl : lo' ≤ lo) : Memory.wfFrom lo' m = true := by
  cases m with
  | nil => rfl
  | cons c m =>
    obtain ⟨k, b⟩ := c
    simp only [Memory.wfFrom, Bool.and_eq_true, decide_eq_true_eq] at h ⊢
    exact ⟨⟨by omega, h.1.2⟩, h.2⟩

theorem memWrite_wfFrom {lo : Nat} (m : List Host.Cell) {a : Nat} (v : Byte) (h : Memory.wfFrom lo m = true) (ha : lo ≤ a) :
    Memory.wfFrom lo (memWrite m a v) = true := by
  induction m generalizing lo with
  | nil => simp only [memWrite]; split <;> simp_all [Memory.wfFrom]
  | cons c m ih =>
    obtain ⟨k, b⟩ := c
    simp only [Memory.wfFrom, Bool.and_eq_true, decide_eq_true_eq] at h
    obtain ⟨⟨h1, h2⟩, h3⟩ := h
    simp only [memWrite]
    split
    · split
      · simp [Memory.wfFrom, h1, h3]; simpa using h2
      · simp_all [Memory.wfFrom] <;> omega
    · split
      · subst_vars
        split
        · exact wfFrom_mono h3 (by omega)
        · simp_all [Memory.wfFrom]
      · have := ih h3 (by omega)
        simp_all [Memory.wfFrom]

/-- A write keeps the canonical form. -/
theorem memWrite_wf (m : List Host.Cell) (a : Nat) (v : Byte) (h : Memory.wf m = true) : Memory.wf (memWrite m a v) = true :=
  memWrite_wfFrom m v h (Nat.zero_le a)

theorem memWrites_wf (m cs : List Host.Cell) (h : Memory.wf m = true) : Memory.wf (memWrites m cs) = true := by
  unfold memWrites
  induction cs generalizing m with
  | nil => exact h
  | cons c cs ih => exact ih _ (memWrite_wf m c.1 c.2 h)

theorem reset_mem_wf : Memory.wf State.reset.mem = true := rfl

/-! ## Bytes -/

@[simp] theorem leBytes_length (n v : Nat) : (leBytes n v).length = n := by
  induction n generalizing v with
  | zero => rfl
  | succ n ih => simp [leBytes, ih]

/-- Bytes and numbers agree (R1). -/
theorem leNat_leBytes (n v : Nat) : leNat (leBytes n v) = v % 256 ^ n := by
  induction n generalizing v with
  | zero => simp [leBytes, leNat, Nat.mod_one]
  | succ n ih =>
    have h8 : (2 : Nat) ^ 8 = 256 := rfl
    rw [leBytes, leNat, ih, BitVec.toNat_ofNat, h8, Nat.pow_succ', Nat.mod_mul]

end Sys2Proof.Machine
end

