-- ==== Sys2Proof/Laws/Ops.lean ====
section
/-! SUPPORT. Laws/Ops.lean: what the shared operations do: the environment of a thread, R46's preparation, taking a trap, writing a
destination. -/

namespace Sys2Proof.Machine

open Sys2Proof

/-! ## The environment -/

theorem env?_eq {s : State} {i : Nat} {e : Env} (h : s.env? i = some e) :
    e.tid = i ∧ tget? s.threads i = some e.t ∧ tget? s.groups e.t.gid = some e.g ∧ tget? s.insts e.g.iid = some e.inst := by
  unfold State.env? at h
  split at h
  · simp at h
  · split at h
    · simp at h
    · split at h
      · simp at h
      · cases h; exact ⟨rfl, ‹_›, ‹_›, ‹_›⟩

theorem env?_mk {s : State} {i : Nat} {t : Thread} {g : CoreGroup} {v : Inst} (ht : tget? s.threads i = some t)
    (hg : tget? s.groups t.gid = some g) (hv : tget? s.insts g.iid = some v) :
    s.env? i = some { tid := i, t := t, g := g, inst := v } := by
  simp [State.env?, ht, hg, hv]

theorem Env.ext_of {a b : Env} (h1 : a.tid = b.tid) (h2 : a.t = b.t) (h3 : a.g = b.g) (h4 : a.inst = b.inst) : a = b := by
  cases a; cases b; simp_all

@[simp] theorem refresh_self {s : State} {i : Nat} {e : Env} (h : s.env? i = some e) : e.refresh s = e := by
  have := (env?_eq h).1
  subst this
  simp [Env.refresh, h]

/-- Replacing a thread by one of the same core group. -/
theorem env?_setThread {s : State} {i : Nat} {e : Env} (h : s.env? i = some e) {t : Thread} (ht : t.gid = e.t.gid) :
    (s.setThread i t).env? i = some { e with t := t } := by
  obtain ⟨h0, h1, h2, h3⟩ := env?_eq h
  subst h0
  simp [State.env?, ht, h2, h3]

theorem modThread_here {s : State} {i : Nat} {e : Env} (h : s.env? i = some e) (f : Thread → Thread) :
    s.modThread i f = s.setThread i (f e.t) := by
  simp [State.modThread, (env?_eq h).2.1]

@[simp] theorem modThread_setThread (s : State) (i : Nat) (t : Thread) (f : Thread → Thread) :
    (s.setThread i t).modThread i f = s.setThread i (f t) := by
  simp [State.modThread, State.setThread]

@[simp] theorem setThread_setThread (s : State) (i : Nat) (t u : Thread) : (s.setThread i t).setThread i u = s.setThread i u := by
  simp [State.setThread]

theorem ctx_setThread (s : State) (i c : Nat) (t : Thread) : (s.setThread i t).ctx c = s.ctx c := rfl

/-! ## R46's preparation -/

theorem prepare_ready {s : State} {e : Env} {h : Head} {srcs : List SrcReq} {dsts : List DstReq} {s1 : State} {vals : List SrcVal}
    {extra : List Nat} (r : Ready s e h srcs dsts s1 vals extra) (strict : Bool) :
    prepare s e h srcs dsts extra strict = .go s1 vals none := by
  have hempty : srcs.findSome? (emptyCheck e h) = none := by
    rw [List.findSome?_eq_none_iff]
    intro q hq
    have : firstEmpty e.t (xRegs q.src.reg q.words) = none := by
      rw [firstEmpty, List.find?_eq_none]
      intro n hn
      simp [r.full q hq n hn]
    simp [emptyCheck, this]
  have hr := r.range
  have hrd := r.reads
  simp only [srcRegs, dstRegs] at hr
  simp only [prepare, r.guardClean, r.guardTrue, hr, hempty, Option.isSome_none, Option.isNone_none, Bool.false_and,
    Bool.not_true, Bool.and_false, Bool.false_eq_true, if_false, hrd]

/-- An instruction whose operands are at hand goes on with the values read. -/
theorem withSrcs_ready {s : State} {e : Env} {h : Head} {srcs : List SrcReq} {dsts : List DstReq} {s1 : State} {vals : List SrcVal}
    {extra : List Nat} (r : Ready s e h srcs dsts s1 vals extra) (len : Nat) (strict : Bool)
    (k : State → Env → List SrcVal → Option Word → Out) :
    withSrcs s h len srcs dsts k extra strict = k s1 (e.refresh s1) vals none := by
  have hdst : dstWaits s e dsts = none := by
    rw [dstWaits, List.findSome?_eq_none_iff]
    exact r.writable
  simp only [withSrcs, r.here, prepare_ready r strict, hdst]

/-- An instruction without operands of registers goes on at once. -/
theorem Enabled.ready {s : State} {e : Env} {h : Head} (r : Enabled s e h) {extra : List Nat} (hx : allocated e extra = true) :
    Ready s e h [] [] s [] extra :=
  { r with range := by simpa [srcRegs, dstRegs] using hx, full := by simp, reads := rfl, writable := by simp }

theorem withSrcs_extra {s : State} {e : Env} {h : Head} (r : Enabled s e h) {extra : List Nat} (hx : allocated e extra = true)
    (len : Nat) (strict : Bool) (k : State → Env → List SrcVal → Option Word → Out) :
    withSrcs s h len [] [] k extra strict = k s e [] none := by
  rw [withSrcs_ready (r.ready hx), refresh_self r.here]

theorem withSrcs_enabled {s : State} {e : Env} {h : Head} (r : Enabled s e h) (len : Nat) (strict : Bool)
    (k : State → Env → List SrcVal → Option Word → Out) :
    withSrcs s h len [] [] k [] strict = k s e [] none := withSrcs_extra r rfl len strict k

theorem Enabled.tid {s : State} {e : Env} {h : Head} (r : Enabled s e h) : s.env? e.tid = some e := by
  have := (env?_eq r.here).1
  rw [this]
  exact r.here

/-- Operands that are no port leave the state as it is. -/
theorem withSrcs_here {s : State} {e : Env} {h : Head} {srcs : List SrcReq} {dsts : List DstReq} {vals : List SrcVal}
    {extra : List Nat} (r : Ready s e h srcs dsts s vals extra) (len : Nat) (strict : Bool)
    (k : State → Env → List SrcVal → Option Word → Out) :
    withSrcs s h len srcs dsts k extra strict = k s e vals none := by
  rw [withSrcs_ready r, refresh_self r.here]

/-- A false guard falls through (R46). -/
theorem withSrcs_skip {s : State} {e : Env} {h : Head} (he : s.env? s.cur = some e) (hc : (predAt e.t h.pg).tok = none)
    (hf : guardVal e.t h = false) (len : Nat) (srcs : List SrcReq) (dsts : List DstReq) (extra : List Nat) (strict : Bool)
    (k : State → Env → List SrcVal → Option Word → Out) :
    withSrcs s h len srcs dsts k extra strict = .next (s.setThread s.cur (advance e.t len)) := by
  have ht := (env?_eq he).1
  simp [withSrcs, he, prepare, hc, hf, prepOut, fallThrough, ht]

/-- A poisoned guard raises under `sp` = 0 (R82). -/
theorem withSrcs_guardPoison {s : State} {e : Env} {h : Head} {tok : Word} (he : s.env? s.cur = some e)
    (hp : (predAt e.t h.pg).tok = some tok) (hs : h.sp = false) (len : Nat) (srcs : List SrcReq) (dsts : List DstReq)
    (extra : List Nat) (strict : Bool) (k : State → Env → List SrcVal → Option Word → Out) :
    withSrcs s h len srcs dsts k extra strict = .next (raisePoison s e tok 3) := by
  simp [withSrcs, he, prepare, hp, hs, prepOut]

theorem prepOut_answers (s : State) (e : Env) (len : Nat) (p : Prep) : Answers (prepOut s e len p) := by
  cases p <;> exact ⟨_, rfl⟩

/-- The frame of an instruction answers a next state wherever its continuation does. -/
theorem withSrcs_answers {s : State} {h : Head} {len : Nat} {srcs : List SrcReq} {dsts : List DstReq} {extra : List Nat}
    {strict : Bool} {k : State → Env → List SrcVal → Option Word → Out} (he : (s.env? s.cur).isSome)
    (hk : ∀ s1 e v g, Answers (k s1 e v g)) : Answers (withSrcs s h len srcs dsts k extra strict) := by
  obtain ⟨e, he⟩ := Option.isSome_iff_exists.mp he
  simp only [withSrcs, he]
  split
  · split
    · exact hk ..
    · split
      · exact hk ..
      · exact prepOut_answers ..
  · exact prepOut_answers ..

/-- Sources that are no port are read from the state as it is. -/
theorem readAll_noPort (e : Env) (h : Head) (s : State) (srcs : List SrcReq)
    (hq : ∀ q ∈ srcs, Reg.isQ q.src.reg = false) : readAll e h s srcs = .ok (s, srcs.map (readSrc s e)) := by
  induction srcs with
  | nil => rfl
  | cons q qs ih =>
    have h1 := hq q (by simp)
    have h2 := ih fun x hx => hq x (by simp [hx])
    simp only [readAll, List.map_cons]
    cases hr : q.src.reg <;> simp_all [Reg.isQ]

/-- A step of the environment keeps the thread's number. -/
@[simp] theorem refresh_tid (s : State) (e : Env) : (e.refresh s).tid = e.tid := by
  unfold Env.refresh
  cases h : s.env? e.tid with
  | none => rfl
  | some a => exact (env?_eq h).1

/-- The link register `zr` asks for nothing (R41). -/
theorem Enabled.zr {s : State} {e : Env} {h : Head} {w : Nat} (r : Enabled s e h) :
    Ready s e h [] [{ reg := .s .zr, words := w }] s [] :=
  { r with range := by simp [Machine.srcRegs, Machine.dstRegs, allocated, xRegs], full := by simp, reads := rfl, writable := by simp [dstWait] }

/-! ## Destinations -/

/-- Writing a thread register and moving on. -/
theorem finish_x (s : State) (e : Env) (len n : Nat) (ws : List (Word × Bool)) (s0 : State) :
    finish s e len (.x n) ws s0 = .next (s.setThread e.tid (advance (writeRegs e.t n ws) len)) := by
  simp [finish, Reg.isQ, writeDst]

/-- Writing `zr` writes nothing (R41). -/
theorem finish_zr {s : State} {i : Nat} {e : Env} (h : s.env? i = some e) (len : Nat) (ws : List (Word × Bool)) (s0 : State) :
    finish s e len (.s .zr) ws s0 = .next (s.setThread e.tid (advance e.t len)) := by
  have ht := (env?_eq h).1
  subst ht
  simp [finish, Reg.isQ, writeDst, modThread_here h]

theorem finish_answers (s : State) (e : Env) (len : Nat) (r : Reg) (ws : List (Word × Bool)) (s0 : State) :
    Answers (finish s e len r ws s0) := by
  unfold finish; split <;> exact ⟨_, rfl⟩

/-! ## Registers -/

theorem regAt_setReg_same {t : Thread} {n : Nat} (c : RegCell) (h : n < t.regs.length) : regAt (setReg t n c) n = c := by
  simp [regAt, setReg, List.getD_eq_getElem?_getD, h]

theorem regAt_setReg_other (t : Thread) {n m : Nat} (c : RegCell) (h : m ≠ n) : regAt (setReg t n c) m = regAt t m := by
  simp [regAt, setReg, List.getD_eq_getElem?_getD, List.getElem?_set_ne (Ne.symm h)]

theorem regAt_writeReg_same {t : Thread} {n : Nat} (v : Word) (p : Bool) (h : n < t.regs.length) :
    regAt (writeReg t n v p) n = { regAt t n with val := v, full := true, poison := p, pend := .no } :=
  regAt_setReg_same _ h

theorem regAt_writeReg_other (t : Thread) {n m : Nat} (v : Word) (p : Bool) (h : m ≠ n) : regAt (writeReg t n v p) m = regAt t m :=
  regAt_setReg_other _ _ h

/-- Registers outside a run that is written stay as they are. -/
theorem regAt_writeRegs_other (t : Thread) {n m : Nat} (ws : List (Word × Bool)) (h : m < n ∨ n + ws.length ≤ m) :
    regAt (writeRegs t n ws) m = regAt t m := by
  induction ws generalizing t n with
  | nil => rfl
  | cons w ws ih =>
    obtain ⟨v, p⟩ := w
    simp only [List.length_cons] at h
    rw [writeRegs, ih _ (by omega), regAt_writeReg_other _ _ _ (by omega)]

/-- Writing registers changes nothing of a thread but its registers. -/
theorem writeRegs_regs (t : Thread) (n : Nat) (ws : List (Word × Bool)) : writeRegs t n ws = { t with regs := (writeRegs t n ws).regs } := by
  induction ws generalizing t n with
  | nil => rfl
  | cons w ws ih => obtain ⟨v, p⟩ := w; rw [writeRegs, ih]; rfl

/-! ## Branches (R97) -/

theorem ofNat_toNat_ofInt {o : Int} (h0 : 0 ≤ o) : BitVec.ofNat 40 o.toNat = BitVec.ofInt 40 o := by
  obtain ⟨n, rfl⟩ := Int.eq_ofNat_of_zero_le h0
  simp

/-- The two words of a 64-bit value. -/
theorem cleanWords_two (w : Word64) : cleanWords (valWords 2 w.toNat) = [(w.setWidth 32, false), (w.extractLsb' 32 32, false)] := by
  simp [cleanWords, valWords]
  apply BitVec.eq_of_toNat_eq; simp [Nat.shiftRight_eq_div_pow]

/-- A branch whose target lies in its buffer. -/
theorem jumpBy_in {s : State} {e : Env} (he : s.env? e.tid = some e) {k : Int} {p : BitVec 5}
    (h0 : 0 ≤ (e.t.pc.offset.toNat : Int) + 4 * k) (h1 : (e.t.pc.offset.toNat : Int) + 4 * k < 2 ^ 40) :
    jumpBy s e k p none = .next (s.setThread e.tid
      { e.t with pc := { e.t.pc with offset := BitVec.ofInt 40 ((e.t.pc.offset.toNat : Int) + 4 * k) }, prio := p }) := by
  have a : ¬ ((e.t.pc.offset.toNat : Int) + 4 * k < 0 ∨ 2 ^ 40 ≤ (e.t.pc.offset.toNat : Int) + 4 * k) := by omega
  simp only [jumpBy, Bool.or_eq_true, decide_eq_true_eq, a, if_false, modThread_here he, ofNat_toNat_ofInt h0]

/-- A branch whose target does not lie in 40 bits. -/
theorem jumpBy_out {s : State} {e : Env} {k : Int} {p : BitVec 5} {l : Option (Reg × Nat)}
    (h0 : (e.t.pc.offset.toNat : Int) + 4 * k < 0 ∨ 2 ^ 40 ≤ (e.t.pc.offset.toNat : Int) + 4 * k) :
    jumpBy s e k p l = .next (raiseFault s e 0x03 0) := by
  simp only [jumpBy, Bool.or_eq_true, decide_eq_true_eq, h0, if_true]

/-- A call with a link in registers. -/
theorem jumpBy_link {s : State} {e : Env} {k : Int} {p : BitVec 5} {n len : Nat}
    (h0 : 0 ≤ (e.t.pc.offset.toNat : Int) + 4 * k) (h1 : (e.t.pc.offset.toNat : Int) + 4 * k < 2 ^ 40) :
    jumpBy s e k p (some (.x n, len)) = .next (s.setThread e.tid
      { writeRegs e.t n [((refWord (pcAdd e.t.pc len)).setWidth 32, false), ((refWord (pcAdd e.t.pc len)).extractLsb' 32 32, false)] with
        pc := { e.t.pc with offset := BitVec.ofInt 40 ((e.t.pc.offset.toNat : Int) + 4 * k) }, prio := p }) := by
  have a : ¬ ((e.t.pc.offset.toNat : Int) + 4 * k < 0 ∨ 2 ^ 40 ≤ (e.t.pc.offset.toNat : Int) + 4 * k) := by omega
  simp only [jumpBy, Bool.or_eq_true, decide_eq_true_eq, a, if_false, ofNat_toNat_ofInt h0, writeDst, cleanWords_two, modThread_setThread]
  rw [writeRegs_regs]

/-- A call that discards its link. -/
theorem jumpBy_zr {s : State} {e : Env} (he : s.env? e.tid = some e) {k : Int} {p : BitVec 5} {len : Nat}
    (h0 : 0 ≤ (e.t.pc.offset.toNat : Int) + 4 * k) (h1 : (e.t.pc.offset.toNat : Int) + 4 * k < 2 ^ 40) :
    jumpBy s e k p (some (.s .zr, len)) = .next (s.setThread e.tid
      { e.t with pc := { e.t.pc with offset := BitVec.ofInt 40 ((e.t.pc.offset.toNat : Int) + 4 * k) }, prio := p }) := by
  have a : ¬ ((e.t.pc.offset.toNat : Int) + 4 * k < 0 ∨ 2 ^ 40 ≤ (e.t.pc.offset.toNat : Int) + 4 * k) := by omega
  simp only [jumpBy, Bool.or_eq_true, decide_eq_true_eq, a, if_false, modThread_here he, ofNat_toNat_ofInt h0, writeDst]

/-! ## Float flags (R69) -/

/-- Flags of which none is enabled only stick. -/
theorem raiseFlags_quiet {s : State} {e : Env} {tid : Nat} {sp : Bool} {fl : Flags} (he : s.env? tid = some e)
    (h : sp = true ∨ fl &&& (s.ctx e.cx).fpxe = 0) : raiseFlags s tid sp fl = s.setThread tid { e.t with flags := e.t.flags ||| fl } := by
  have h1 : (s.setThread tid { e.t with flags := e.t.flags ||| fl }).env? tid = some { e with t := { e.t with flags := e.t.flags ||| fl } } :=
    env?_setThread he rfl
  have e0 : raiseFlags s tid sp fl = (match (s.setThread tid { e.t with flags := e.t.flags ||| fl }).env? tid with
      | none => s.setThread tid { e.t with flags := e.t.flags ||| fl }
      | some e1 =>
        let on := fl &&& ((s.setThread tid { e.t with flags := e.t.flags ||| fl }).ctx e1.cx).fpxe
        if sp || on = 0 then s.setThread tid { e.t with flags := e.t.flags ||| fl }
        else raise (s.setThread tid { e.t with flags := e.t.flags ||| fl }) e1 { cause := 11, aux := on.setWidth 32 }) := by
    rw [← modThread_here he fun t => { t with flags := t.flags ||| fl }]
    rfl
  rw [e0, h1]
  have : ((s.setThread tid { e.t with flags := e.t.flags ||| fl }).ctx ({ e with t := { e.t with flags := e.t.flags ||| fl } } : Env).cx).fpxe
      = (s.ctx e.cx).fpxe := rfl
  simp only [this]
  rcases h with h | h
  · simp [h]
  · simp [h]

/-! ## Traps (R369) -/

/-- Outside handler mode and with a valid handler, a raise enters the handler. -/
theorem raise_enters {s : State} {e : Env} (r : Raise) (hh : e.t.handler = false) (hb : (s.ctx e.cx).trapbase.getLsbD 0 = true) :
    raise s e r = s.setThread e.tid (enterHandler e.t (s.ctx e.cx).trapbase r) := by
  simp only [raise, hh, hb, Bool.false_eq_true, Bool.true_eq_false, if_false]

/-- In handler mode a raise kills the context with reason 3. -/
theorem raise_nested {s : State} {e : Env} (r : Raise) (hh : e.t.handler = true) : raise s e r = trapKill s e 3 r := by
  simp [raise, hh]

/-- With no handler a raise kills the context with reason 4. -/
theorem raise_noHandler {s : State} {e : Env} (r : Raise) (hh : e.t.handler = false) (hb : (s.ctx e.cx).trapbase.getLsbD 0 = false) :
    raise s e r = trapKill s e 4 r := by
  simp only [raise, hh, hb, Bool.false_eq_true, if_false, if_true]

end Sys2Proof.Machine
end

