-- ==== Sys2Proof/Laws/Alu.lean ====
section
/-! SUPPORT. Laws/Alu.lean: what an arithmetic instruction does with operands that are at hand. -/

namespace Sys2Proof.Machine

open Sys2Proof

/-- Every arithmetic instruction runs its one operation. -/
theorem arith_exec {i : Instr} {h : Head} {len : Nat} {k : AluTask} (hi : arith i = some (h, len, k)) (s : State) :
    exec i s = runAlu s h len [k] := by
  cases i
  all_goals first
    | (have h0 : none = some (h, len, k) := hi; exact absurd h0 nofun)
    | (change some (_, _, _) = _ at hi; injection hi with hi; injection hi with h1 hi; injection hi with h2 h3; subst h1 h2 h3; rfl)

/-- A core group without what its ports hold. -/
def portless (g : CoreGroup) : CoreGroup := { g with ports := [], notices := [] }

/-- What popping a port leaves alone: threads, card instances, contexts, and where a core group belongs. -/
structure PopKeeps (s t : State) : Prop where
  threads : t.threads = s.threads
  insts : t.insts = s.insts
  ctxs : t.ctxs = s.ctxs
  mem : t.mem = s.mem
  injected : t.injected = s.injected
  groups : ∀ g, (tget? t.groups g).map portless = (tget? s.groups g).map portless

theorem PopKeeps.refl (s : State) : PopKeeps s s := ⟨rfl, rfl, rfl, rfl, rfl, fun _ => rfl⟩

theorem PopKeeps.trans {a b c : State} (h : PopKeeps a b) (k : PopKeeps b c) : PopKeeps a c :=
  ⟨k.threads.trans h.threads, k.insts.trans h.insts, k.ctxs.trans h.ctxs, k.mem.trans h.mem, k.injected.trans h.injected,
   fun g => (k.groups g).trans (h.groups g)⟩

theorem popKeeps_modGroup (s : State) (i : Nat) (f : CoreGroup → CoreGroup) (hf : ∀ g, portless (f g) = portless g) : PopKeeps s (s.modGroup i f) := by
  unfold State.modGroup
  split
  · exact .refl s
  · rename_i g hg
    refine ⟨rfl, rfl, rfl, rfl, rfl, fun j => ?_⟩
    by_cases h : j = i
    · subst h; simp [State.setGroup, hg, hf]
    · simp [State.setGroup, h]

theorem popKeeps_putRing (s : State) (c : Nat) (cg : ClusterGroup) (r : Ring) : PopKeeps s (putRing s c cg r) :=
  ⟨rfl, rfl, rfl, rfl, rfl, fun _ => rfl⟩

theorem popWord_keeps {s s1 : State} {gid tid q : Nat} {w : Word} (h : popWord s gid tid q = some (s1, w)) : PopKeeps s s1 := by
  unfold popWord at h
  have hp : ∀ (s : State) (ps : List PopRes), PopKeeps s (s.modGroup gid fun g => { g with ports := listMod g.ports q fun p => { p with pops := ps } }) :=
    fun s ps => popKeeps_modGroup _ _ _ fun _ => rfl
  split at h
  · simp at h
  · dsimp only at h
    split at h
    · simp at h
    · split at h
      · simp at h
      · split at h
        · split at h <;> (simp only [Option.some.injEq, Prod.mk.injEq] at h; obtain ⟨rfl, _⟩ := h; exact (popKeeps_putRing ..).trans (hp ..))
        · split at h
          · split at h
            · split at h <;> (simp only [Option.some.injEq, Prod.mk.injEq] at h; obtain ⟨rfl, _⟩ := h; exact (popKeeps_putRing ..).trans (hp ..))
            · simp at h
          · split at h
            · simp only [Option.some.injEq, Prod.mk.injEq] at h; obtain ⟨rfl, _⟩ := h; exact .refl s
            · simp at h
    · split at h
      · simp only [Option.some.injEq, Prod.mk.injEq] at h; obtain ⟨rfl, _⟩ := h; exact hp ..
      · split at h
        · simp at h
        · split at h
          · simp only [Option.some.injEq, Prod.mk.injEq] at h; obtain ⟨rfl, _⟩ := h
            refine PopKeeps.trans ?_ (hp _ _); exact ⟨rfl, rfl, rfl, rfl, rfl, fun _ => rfl⟩
          · simp at h
    · split at h
      · simp only [Option.some.injEq, Prod.mk.injEq] at h; obtain ⟨rfl, _⟩ := h; exact hp ..
      · split at h
        · simp only [Option.some.injEq, Prod.mk.injEq] at h; obtain ⟨rfl, _⟩ := h
          refine PopKeeps.trans ?_ (hp _ _); exact popKeeps_modGroup _ _ _ fun _ => rfl
        · simp at h

theorem popWords_keeps {s s1 : State} {gid tid q n : Nat} {ws : List Word} (h : popWords s gid tid q n = some (s1, ws)) : PopKeeps s s1 := by
  induction n generalizing s s1 ws with
  | zero => simp only [popWords, Option.some.injEq, Prod.mk.injEq] at h; obtain ⟨rfl, _⟩ := h; exact .refl s
  | succ n ih =>
    unfold popWords at h
    split at h
    · simp at h
    · rename_i s2 w hw
      simp only [Option.map_eq_some_iff, Prod.exists, Prod.mk.injEq] at h
      obtain ⟨a, b, h1, rfl, _⟩ := h
      exact (popWord_keeps hw).trans (ih h1)

theorem readAll_keeps {e : Env} {h : Head} {s s1 : State} {srcs : List SrcReq} {vals : List SrcVal}
    (hr : readAll e h s srcs = .ok (s1, vals)) : PopKeeps s s1 := by
  induction srcs generalizing s s1 vals with
  | nil => simp only [readAll, Except.ok.injEq, Prod.mk.injEq] at hr; obtain ⟨rfl, _⟩ := hr; exact .refl s
  | cons q qs ih =>
    unfold readAll at hr
    dsimp only at hr
    split at hr
    · simp at hr
    · rename_i s2 v h1
      have hk : PopKeeps s s2 := by
        split at h1
        · split at h1
          · split at h1
            · simp only [Except.ok.injEq, Prod.mk.injEq] at h1; obtain ⟨rfl, _⟩ := h1; exact .refl s
            · simp at h1
          · split at h1
            · rename_i hp
              simp only [Except.ok.injEq, Prod.mk.injEq] at h1; obtain ⟨rfl, _⟩ := h1; exact popWords_keeps hp
            · split at h1
              · simp at h1
              · split at h1
                · simp only [Except.ok.injEq, Prod.mk.injEq] at h1; obtain ⟨rfl, _⟩ := h1; exact .refl s
                · simp at h1
        · simp only [Except.ok.injEq, Prod.mk.injEq] at h1; obtain ⟨rfl, _⟩ := h1; exact .refl s
      split at hr
      · simp at hr
      · rename_i s3 vs h2
        simp only [Except.ok.injEq, Prod.mk.injEq] at hr; obtain ⟨rfl, _⟩ := hr
        exact hk.trans (ih h2)

theorem readAll_length {e : Env} {h : Head} {s s1 : State} {srcs : List SrcReq} {vals : List SrcVal}
    (hr : readAll e h s srcs = .ok (s1, vals)) : vals.length = srcs.length := by
  induction srcs generalizing s s1 vals with
  | nil => simp only [readAll, Except.ok.injEq, Prod.mk.injEq] at hr; obtain ⟨_, rfl⟩ := hr; rfl
  | cons q qs ih =>
    unfold readAll at hr
    dsimp only at hr
    split at hr
    · simp at hr
    · split at hr
      · simp at hr
      · rename_i h2
        simp only [Except.ok.injEq, Prod.mk.injEq] at hr; obtain ⟨_, rfl⟩ := hr
        simp [ih h2]

/-- A thread stays where it is while its ports are popped. -/
theorem env?_popped {s s1 : State} {i : Nat} {e : Env} (h : s.env? i = some e) (k : PopKeeps s s1) :
    ∃ e1, s1.env? i = some e1 ∧ e1.tid = e.tid ∧ e1.t = e.t ∧ e1.inst = e.inst ∧ portless e1.g = portless e.g := by
  obtain ⟨h0, h1, h2, h3⟩ := env?_eq h
  have h4 := k.groups e.t.gid
  rw [h2] at h4
  simp only [Option.map_some, Option.map_eq_some_iff] at h4
  obtain ⟨g, hg, hi⟩ := h4
  have hi' : g.iid = e.g.iid := congrArg CoreGroup.iid (a₁ := portless g) (a₂ := portless e.g) hi
  exact ⟨_, env?_mk (by rw [k.threads]; exact h1) hg (by rw [k.insts, hi']; exact h3), h0.symm, rfl, rfl, hi⟩

/-- The environment after the ports are popped. -/
theorem refresh_popped {s s1 : State} {e : Env} (h : s.env? e.tid = some e) (k : PopKeeps s s1) :
    s1.env? e.tid = some (e.refresh s1) ∧ (e.refresh s1).t = e.t ∧ (e.refresh s1).inst = e.inst ∧ (e.refresh s1).cx = e.cx := by
  obtain ⟨e1, h1, _, h3, h4, _⟩ := env?_popped h k
  have : e.refresh s1 = e1 := by simp [Env.refresh, h1]
  rw [this]
  exact ⟨h1, h3, h4, by simp [Env.cx, h4]⟩

/-- Where a thread's group stands does not change while its ports are popped. -/
theorem refresh_group {s s1 : State} {e : Env} (h : s.env? e.tid = some e) (k : PopKeeps s s1) :
    portless (e.refresh s1).g = portless e.g ∧ (e.refresh s1).cl = e.cl ∧ (e.refresh s1).quantum = e.quantum := by
  obtain ⟨e1, h1, _, h3, h4, h5⟩ := env?_popped h k
  have : e.refresh s1 = e1 := by simp [Env.refresh, h1]
  rw [this]
  have hs : ∀ i, scopeKey i e1.g = scopeKey i e.g := fun i => congrArg (scopeKey i) (a₁ := portless e1.g) (a₂ := portless e.g) h5
  have hc : e1.g.core = e.g.core := congrArg (CoreGroup.core) (a₁ := portless e1.g) (a₂ := portless e.g) h5
  exact ⟨h5, by simp [Env.cl, hc], by simp [Env.quantum, h4, hs]⟩
theorem pushWord_keeps {s s1 : State} {cgid num tid q : Nat} {w : Word} (h : pushWord s cgid num tid q w = some s1) : PopKeeps s s1 := by
  unfold pushWord at h
  split at h
  · simp at h
  · dsimp only at h
    split at h
    · simp only [Option.some.injEq] at h; subst h; exact popKeeps_putRing ..
    · split at h
      · simp at h
      · split at h
        · simp only [Option.some.injEq] at h; subst h; exact popKeeps_putRing ..
        · simp only [Option.some.injEq] at h; subst h
          refine PopKeeps.trans ?_ (popKeeps_putRing ..)
          exact ⟨rfl, rfl, rfl, rfl, rfl, fun _ => rfl⟩

theorem pushWords_keeps {s s1 : State} {cgid num tid q : Nat} {ws : List Word} (h : pushWords s cgid num tid q ws = some s1) : PopKeeps s s1 := by
  induction ws generalizing s s1 with
  | nil => simp only [pushWords, Option.some.injEq] at h; subst h; exact .refl s
  | cons w ws ih =>
    unfold pushWords at h
    split at h
    · simp at h
    · rename_i s2 hw
      exact (pushWord_keeps hw).trans (ih h)

/-- Where a result goes changes no thread but the one that computed it, and neither memory nor contexts. -/
theorem putResult_env {s : State} {tid : Nat} {e : Env} {d : ADst} {r : AluRes} (he : s.env? tid = some e) :
    ∃ e1, (putResult s tid d r).env? tid = some e1 ∧ e1.cx = e.cx ∧ (putResult s tid d r).ctxs = s.ctxs := by
  have ht := (env?_eq he).1
  subst ht
  have hset : ∀ t : Thread, t.gid = e.t.gid → ∃ e1, (s.setThread e.tid t).env? e.tid = some e1 ∧ e1.cx = e.cx ∧ (s.setThread e.tid t).ctxs = s.ctxs :=
    fun t hg => ⟨_, env?_setThread he hg, rfl, rfl⟩
  have hself : ∃ e1, s.env? e.tid = some e1 ∧ e1.cx = e.cx ∧ s.ctxs = s.ctxs := ⟨e, he, rfl, rfl⟩
  unfold putResult
  rw [he]
  cases d with
  | reg g m =>
    dsimp only
    unfold writeDst
    cases g with
    | x n => exact hset _ (by rw [writeRegs_regs])
    | k n => exact hself
    | s z => exact hself
    | q n =>
      dsimp only
      split
      · rename_i cgid num _
        cases hp : pushWords s cgid num e.tid n ((resWords e.t.pc.offset m r).map (·.1)) with
        | none => exact hself
        | some s2 =>
          have k := pushWords_keeps hp
          obtain ⟨e1, h1, _, _, h4⟩ := env?_popped he k
          exact ⟨e1, h1, by simp [Env.cx, h4], k.ctxs⟩
      · exact hself
  | pred p =>
    cases r with
    | pred b fl => exact hset _ rfl
    | val v fl => exact hself
    | fault c => exact hself
    | token c => exact hself
  | mask m =>
    cases r with
    | val v fl =>
      refine hset _ ?_
      unfold writeMask
      generalize List.range 7 = l
      generalize e.t = t
      induction l generalizing t with
      | nil => rfl
      | cons a l ih => simp only [List.foldl_cons]; rw [ih]; split <;> rfl
    | pred b fl => exact hself
    | fault c => exact hself
    | token c => exact hself

/-! ## One operation -/

/-- No arithmetic instruction of its own has a constant in the place of a source (R34 gives that to pairs). -/
theorem arith_subst {i : Instr} {h : Head} {len : Nat} {k : AluTask} (hi : arith i = some (h, len, k)) : k.subst = none := by
  cases i
  all_goals first
    | (have h0 : none = some (h, len, k) := hi; exact absurd h0 nofun)
    | (change some (_, _, _) = _ at hi; injection hi with hi; injection hi with h1 hi; injection hi with h2 h3; subst h1 h2 h3; rfl)

/-- How an operation comes out whose sources are clean. -/
def aluOut (e : Env) (sp : Bool) (r : AluRes) : AluDone :=
  match r with
  | .val v fl => .write none v false fl
  | .pred b fl => .write none 0 b fl
  | .token c => .write (some (mkToken c 0 e.t.pc.offset)) 0 false 0
  | .fault c =>
    if sp then .write (some (mkToken c 0 e.t.pc.offset)) 0 false 0
    else .trap { cause := 9, code := c, token := mkToken c 0 e.t.pc.offset }

theorem aluOne_clean {s : State} {e : Env} {k : AluTask} {vals : List SrcVal} (c : AluClean s e k vals) (sp : Bool) (j : Nat) :
    aluOne s e sp none j k vals = (s, aluOut e sp (k.f (aluInput s e j k vals))) := by
  have h1 : (taken k vals).findSome? (·.tok) = none := by
    rw [List.findSome?_eq_none_iff]; exact c.vals
  have h2 : (k.preds.map (predAt e.t)).findSome? (·.tok) = none := by
    rw [List.findSome?_eq_none_iff]; intro x hx
    obtain ⟨p, hp, rfl⟩ := List.mem_map.mp hx
    exact c.preds p hp
  have h3 : (if k.selects then ((k.preds.map (predAt e.t)).getLast?.bind (·.tok)) else none) = none := by
    split
    · cases hl : (k.preds.map (predAt e.t)).getLast? with
      | none => rfl
      | some a =>
        rw [List.findSome?_eq_none_iff] at h2
        exact h2 a (List.mem_of_getLast? hl)
    · rfl
  have h4 : shadowCheck s e k.shadowed = (s, none) := by
    unfold shadowCheck
    cases hk : k.shadowed with
    | false => rfl
    | true => simp [c.shadow hk]
  have h5 : (k.preds.map (predAt e.t)).map (·.val) = k.preds.map fun p => (predAt e.t p).val := by simp
  have h7 : aluInput s e j k vals =
      { vals := taken k vals, preds := k.preds.map fun p => (predAt e.t p).val, ftz := (s.ctx e.cx).ftz
        draw := if k.draws then cvtsDraw (s.ctx e.cx).seed (gixOf e.inst e.g e.t.tix) (e.t.cvts.toNat + j) 0 else 0 } := rfl
  have h8 : aluOne s e sp none j k vals = match k.f (aluInput s e j k vals) with
      | .fault c =>
        if sp then (s, .write (some (mkToken c 0 e.t.pc.offset)) 0 false 0)
        else (s, .trap { cause := 9, code := c, token := mkToken c 0 e.t.pc.offset })
      | .token c => (s, .write (some (mkToken c 0 e.t.pc.offset)) 0 false 0)
      | .val v fl =>
        let (s1, tok) := shadowCheck s e k.shadowed
        (s1, if tok.isSome then .write tok 0 false 0 else .write none v false fl)
      | .pred b fl => (s, .write none 0 b fl) := by
    rw [h7]
    unfold aluOne
    cases hk : k.subst with
    | none =>
      have ht : taken k vals = vals := by simp [taken, hk]
      rw [ht] at h1 ⊢
      simp only [h1, h2, h3, h5, Option.or_self]
      first | done | rfl
    | some p =>
      have ht : taken k vals = vals.set p.1 { words := [p.2], tok := none } := by simp [taken, hk]
      rw [ht] at h1 ⊢
      simp only [h1, h2, h3, h5, Option.or_self]
      first | done | rfl
  rw [h8]
  cases k.f (aluInput s e j k vals) with
  | val v fl => simp [h4, aluOut]
  | pred b fl => rfl
  | fault c => cases sp <;> rfl
  | token c => rfl

/-- How a result lands changes neither where it goes nor what it is computed from. -/
@[simp] theorem landing_dst (k : AluTask) (vals : List SrcVal) : (k.landing vals).dst = k.dst := by
  unfold AluTask.landing
  split
  · rfl
  · split <;> rfl

/-- An operation that pops no port into a thread register lands as it is. -/
theorem landing_self {k : AluTask} {vals : List SrcVal} (h : (k.landing vals).long = none) : k.landing vals = k := by
  unfold AluTask.landing at h ⊢
  split
  · rfl
  · split
    · simp_all
    · rfl

/-- The whole of one arithmetic operation whose sources are at hand. -/
theorem runAlu_one {s s1 : State} {e : Env} {h : Head} {len : Nat} {k : AluTask} {vals : List SrcVal}
    (r : Ready s e h k.srcs (dstReqs k.dst) s1 vals) (c : AluClean s1 (e.refresh s1) k vals) :
    runAlu s h len [k] =
      (match aluOut (e.refresh s1) h.sp (k.f (aluInput s1 (e.refresh s1) 0 k vals)) with
       | .trap t => .next (raise s (e.refresh s1) t)
       | .poison tok aux => .next (raisePoison s (e.refresh s1) tok aux)
       | .write tok v b fl =>
         match poisonedPush [(k, .write tok v b fl)] with
         | some tk => .next (raisePoison s (e.refresh s1) tk 5)
         | none => .next (raiseFlags ((aluWrite s1 e.tid h.sp (k.landing vals, .write tok v b fl)).modThread e.tid fun t =>
             { advance t len with cvts := t.cvts + BitVec.ofNat 64 (if k.draws then 1 else 0) }) e.tid h.sp
             (aluFlags [(k, .write tok v b fl)]))) := by
  have hl := readAll_length r.reads
  have r' : Ready s e h ([k].flatMap (·.srcs)) ([k].flatMap fun t => dstReqs t.dst) s1 vals := by simpa using r
  unfold runAlu
  rw [withSrcs_ready r']
  simp only [Option.map_none, aluAll, ← hl, List.take_length, aluOne_clean c]
  cases hd : aluOut (e.refresh s1) h.sp (k.f (aluInput s1 (e.refresh s1) 0 k vals)) with
  | trap t => simp [aluTrap]
  | poison tok aux => simp [aluTrap]
  | write tok v b fl =>
    simp only [aluTrap, List.findSome?_cons, List.findSome?_nil, refresh_tid, List.foldl_cons, List.foldl_nil]
    have hn : ([k].filter (·.draws)).length = if k.draws then 1 else 0 := by
      cases hk : k.draws <;> simp [List.filter, hk]
    rw [hn]
    have hp : poisonedPush [(k.landing vals, AluDone.write tok v b fl)] = poisonedPush [(k, AluDone.write tok v b fl)] := by
      simp only [poisonedPush, List.findSome?_cons, List.findSome?_nil, landing_dst]
    simp only [Option.isSome_none, Bool.false_eq_true, if_false, hp]
    first | done | (cases poisonedPush [(k, AluDone.write tok v b fl)] <;> rfl)

/-- How a clean result is written: nothing is poisoned and no trap is taken. -/
theorem aluOut_result {e : Env} {sp : Bool} {k : AluTask} {r : AluRes} (h : resultFor k.dst r = true) :
    ∃ v b, aluOut e sp r = .write none v b (flagsOf r) := by
  cases r <;> simp_all [resultFor, aluOut, flagsOf]
  all_goals (cases hd : k.dst <;> simp_all)

/-- A clean result lands in its destination. -/
theorem aluWrite_landed {s : State} {tid : Nat} {sp : Bool} {k : AluTask} {vals : List SrcVal} {e : Env} {r : AluRes}
    (h : resultFor k.dst r = true) (he : s.env? tid = some e) :
    aluWrite s tid sp (k.landing vals, aluOut e sp r) = putLanded s tid sp k vals r := by
  cases r <;> cases hd : k.dst <;> simp_all [resultFor, aluOut, aluWrite, putLanded, putResult] <;>
    (cases (k.landing vals).long <;> simp [resultWords, resWords])

/-- The thread stands after its result has landed, and no context has changed. -/
theorem landed_env {s : State} {tid : Nat} {sp : Bool} {k : AluTask} {vals : List SrcVal} {e : Env} {r : AluRes} (he : s.env? tid = some e) :
    ∃ e1, (putLanded s tid sp k vals r).env? tid = some e1 ∧ e1.cx = e.cx ∧ (putLanded s tid sp k vals r).ctxs = s.ctxs := by
  unfold putLanded
  split
  · rename_i op e0 g m hl he0 hd
    rw [he] at he0; injection he0 with he0; subst he0
    have ht := (env?_eq he).1
    subst ht
    have h0 : ({ s with fresh := s.fresh + 1 } : State).env? e.tid = some e := he
    unfold issueAcc
    dsimp only
    refine ⟨_, env?_setThread h0 ?_, rfl, rfl⟩
    have : ∀ (l : List Nat) (t : Thread), (l.foldl (fun t n => setPending t n .other) t).gid = t.gid := by
      intro l; induction l with
      | nil => intro t; rfl
      | cons a l ih => intro t; simp only [List.foldl_cons]; rw [ih]; rfl
    simp [advance, this]
  · exact putResult_env he

/-- A value is of the kind its destination takes. -/
theorem valued_result {i : Instr} {h : Head} {len : Nat} {k : AluTask} (hv : valued i = true) (hi : arith i = some (h, len, k)) (x : AluIn) :
    resultFor k.dst (k.f x) = true := by
  cases i
  all_goals first
    | (have h0 : none = some (h, len, k) := hi; exact absurd h0 nofun)
    | (have h0 : false = true := hv; exact absurd h0 nofun)
    | (change some (_, _, _) = _ at hi; injection hi with hi; injection hi with h1 hi; injection hi with h2 h3; subst h1 h2 h3; rfl)

end Sys2Proof.Machine
end

