-- ==== Sys2Proof/Laws/Encode.lean ====
section
/-! SUPPORT. Encode.lean: the fields of a packed word, the checks of R53 on the fields the encoder writes, and from these
the round trip for each shape of instruction. -/

set_option linter.unusedSimpArgs false

namespace Sys2Proof

@[simp] theorem Raw.d_eq (r : Raw) : r.d = Reg.ofBits r.dst := rfl
@[simp] theorem Raw.a_eq (r : Raw) : r.a = ⟨Reg.ofBits r.sa, r.wa⟩ := rfl
@[simp] theorem Raw.b_eq (r : Raw) : r.b = ⟨Reg.ofBits r.sb, r.wb⟩ := rfl
@[simp] theorem Raw.c_eq (r : Raw) : r.c = ⟨Reg.ofBits r.sc, r.wc⟩ := rfl
@[simp] theorem Raw.noA_eq (r : Raw) : r.noA = (decide (r.sa = 0) && (r.wide || !r.wa)) := rfl
@[simp] theorem Raw.noB_eq (r : Raw) : r.noB = (decide (r.sb = 0) && (r.wide || !r.wb)) := rfl
@[simp] theorem Raw.noC_eq (r : Raw) : r.noC = (decide (r.sc = 0) && (r.wide || !r.wc)) := rfl
@[simp] theorem Raw.noD_eq (r : Raw) : r.noD = decide (r.dst = 0) := rfl
@[simp] theorem Raw.noCi_eq (r : Raw) : r.noCi = (r.ib || r.noC) := rfl
@[simp] theorem Raw.noBC_eq (r : Raw) : r.noBC = (r.noB && r.noC) := rfl
@[simp] theorem Raw.noSrc_eq (r : Raw) : r.noSrc = (r.noA && r.noBC) := rfl
@[simp] theorem Raw.noMod_eq (r : Raw) : r.noMod = (decide (r.md = 0) && r.m2z && r.xz) := rfl
@[simp] theorem Raw.m2z_eq (r : Raw) : r.m2z = decide (r.md2 = 0) := rfl
@[simp] theorem Raw.xz_eq (r : Raw) : r.xz = decide (r.xm = 0) := rfl
@[simp] theorem Raw.iz_eq (r : Raw) : r.iz = decide (r.imm = 0) := rfl
@[simp] theorem Raw.opB_eq (r : Raw) : r.opB = if r.ib then .imm r.imm18 else .reg r.b := rfl
@[simp] theorem Raw.putOpB_reg (r : Raw) (s : Src) : r.putOpB (.reg s) = r.putB s := rfl
@[simp] theorem Raw.putOpB_imm (r : Raw) (v : BitVec 18) : r.putOpB (.imm v) = r.putImm v := rfl
@[simp] theorem OpB.alignedB_reg (s : Src) (n : Nat) : (OpB.reg s).alignedB n = s.reg.aligned n := rfl
@[simp] theorem OpB.alignedB_imm (v : BitVec 18) (n : Nat) : (OpB.imm v).alignedB n = true := rfl
@[simp] theorem predDstOk_eq (f : BitVec 8) : predDstOk f = (predField f && decide (predOf f ≠ 7)) := rfl
@[simp] theorem mdW64_eq (r : Raw) : mdW64 r = r.md.getLsbD 0 := rfl
@[simp] theorem mdScalar_eq (r : Raw) : mdScalar r = !r.md.getLsbD 1 := rfl
@[simp] theorem mdT_eq (r : Raw) : mdT r = FTy.ofBits (r.md.extractLsb' 0 2) := rfl
@[simp] theorem mdRnd_eq (r : Raw) : mdRnd r = Rnd.ofBits (r.md.extractLsb' 2 2) := rfl
@[simp] theorem wordsOf_eq (b : Bool) : wordsOf b = if b then 2 else 1 := rfl
@[simp] theorem free_eq (r : Reg) : free r = ⟨r, true⟩ := rfl
@[simp] theorem hintOk_eq (p : BitVec 2) (h : BitVec 5) : hintOk p h = hintWf p h := rfl
@[simp] theorem Raw.anyQ_eq (r : Raw) (c : Bool) : r.anyQ c = (r.d.isQPort || r.a.reg.isQPort || r.b.reg.isQPort || (c && r.c.reg.isQPort)) := rfl

theorem headBits_sp (h : Head) (f : BitVec 2) : (headBits h f).getLsbD 6 = h.sp :=
  (BitVec.getLsbD_append.trans (if_neg (by decide))).trans ((by simp))

theorem headBits_pn (h : Head) (f : BitVec 2) : (headBits h f).getLsbD 5 = h.pn :=
  (BitVec.getLsbD_append.trans (if_pos (by decide))).trans ((BitVec.getLsbD_append.trans (if_neg (by decide))).trans ((by simp)))

theorem headBits_pg (h : Head) (f : BitVec 2) : (headBits h f).extractLsb' 2 3 = h.pg :=
  (BitVec.extractLsb'_append_eq_of_add_le (by decide)).trans ((BitVec.extractLsb'_append_eq_of_add_le (by decide)).trans ((BitVec.extractLsb'_append_eq_of_le (by decide)).trans (BitVec.extractLsb'_eq_self)))

theorem headBits_fmt (h : Head) (f : BitVec 2) : (headBits h f).extractLsb' 0 2 = f :=
  (BitVec.extractLsb'_append_eq_of_add_le (by decide)).trans ((BitVec.extractLsb'_append_eq_of_add_le (by decide)).trans ((BitVec.extractLsb'_append_eq_of_add_le (by decide)).trans (BitVec.extractLsb'_eq_self)))

theorem packS64_xm (r : Raw) : (packS64 r).extractLsb' 59 5 = r.xm :=
  (BitVec.extractLsb'_append_eq_of_le (by decide)).trans (BitVec.extractLsb'_eq_self)

theorem packS64_md2 (r : Raw) : (packS64 r).extractLsb' 55 4 = r.md2.extractLsb' 0 4 :=
  (BitVec.extractLsb'_append_eq_of_add_le (by decide)).trans ((BitVec.extractLsb'_append_eq_of_le (by decide)).trans (BitVec.extractLsb'_eq_self))

theorem packS64_wc (r : Raw) : (packS64 r).getLsbD 54 = r.wc :=
  (BitVec.getLsbD_append.trans (if_pos (by decide))).trans ((BitVec.getLsbD_append.trans (if_pos (by decide))).trans ((BitVec.getLsbD_append.trans (if_neg (by decide))).trans ((by simp))))

theorem packS64_sc (r : Raw) : (packS64 r).extractLsb' 46 8 = r.sc :=
  (BitVec.extractLsb'_append_eq_of_add_le (by decide)).trans ((BitVec.extractLsb'_append_eq_of_add_le (by decide)).trans ((BitVec.extractLsb'_append_eq_of_add_le (by decide)).trans ((BitVec.extractLsb'_append_eq_of_le (by decide)).trans (BitVec.extractLsb'_eq_self))))

theorem packS64_wb (r : Raw) : (packS64 r).getLsbD 45 = r.wb :=
  (BitVec.getLsbD_append.trans (if_pos (by decide))).trans ((BitVec.getLsbD_append.trans (if_pos (by decide))).trans ((BitVec.getLsbD_append.trans (if_pos (by decide))).trans ((BitVec.getLsbD_append.trans (if_pos (by decide))).trans ((BitVec.getLsbD_append.trans (if_neg (by decide))).trans ((by simp))))))

theorem packS64_sb (r : Raw) : (packS64 r).extractLsb' 37 8 = r.sb :=
  (BitVec.extractLsb'_append_eq_of_add_le (by decide)).trans ((BitVec.extractLsb'_append_eq_of_add_le (by decide)).trans ((BitVec.extractLsb'_append_eq_of_add_le (by decide)).trans ((BitVec.extractLsb'_append_eq_of_add_le (by decide)).trans ((BitVec.extractLsb'_append_eq_of_add_le (by decide)).trans ((BitVec.extractLsb'_append_eq_of_le (by decide)).trans (BitVec.extractLsb'_eq_self))))))

theorem packS64_wa (r : Raw) : (packS64 r).getLsbD 36 = r.wa :=
  (BitVec.getLsbD_append.trans (if_pos (by decide))).trans ((BitVec.getLsbD_append.trans (if_pos (by decide))).trans ((BitVec.getLsbD_append.trans (if_pos (by decide))).trans ((BitVec.getLsbD_append.trans (if_pos (by decide))).trans ((BitVec.getLsbD_append.trans (if_pos (by decide))).trans ((BitVec.getLsbD_append.trans (if_pos (by decide))).trans ((BitVec.getLsbD_append.trans (if_neg (by decide))).trans ((by simp))))))))

theorem packS64_sa (r : Raw) : (packS64 r).extractLsb' 28 8 = r.sa :=
  (BitVec.extractLsb'_append_eq_of_add_le (by decide)).trans ((BitVec.extractLsb'_append_eq_of_add_le (by decide)).trans ((BitVec.extractLsb'_append_eq_of_add_le (by decide)).trans ((BitVec.extractLsb'_append_eq_of_add_le (by decide)).trans ((BitVec.extractLsb'_append_eq_of_add_le (by decide)).trans ((BitVec.extractLsb'_append_eq_of_add_le (by decide)).trans ((BitVec.extractLsb'_append_eq_of_add_le (by decide)).trans ((BitVec.extractLsb'_append_eq_of_le (by decide)).trans (BitVec.extractLsb'_eq_self))))))))

theorem packS64_dst (r : Raw) : (packS64 r).extractLsb' 20 8 = r.dst :=
  (BitVec.extractLsb'_append_eq_of_add_le (by decide)).trans ((BitVec.extractLsb'_append_eq_of_add_le (by decide)).trans ((BitVec.extractLsb'_append_eq_of_add_le (by decide)).trans ((BitVec.extractLsb'_append_eq_of_add_le (by decide)).trans ((BitVec.extractLsb'_append_eq_of_add_le (by decide)).trans ((BitVec.extractLsb'_append_eq_of_add_le (by decide)).trans ((BitVec.extractLsb'_append_eq_of_add_le (by decide)).trans ((BitVec.extractLsb'_append_eq_of_add_le (by decide)).trans ((BitVec.extractLsb'_append_eq_of_le (by decide)).trans (BitVec.extractLsb'_eq_self)))))))))

theorem packS64_ib (r : Raw) : (packS64 r).getLsbD 19 = r.ib :=
  (BitVec.getLsbD_append.trans (if_pos (by decide))).trans ((BitVec.getLsbD_append.trans (if_pos (by decide))).trans ((BitVec.getLsbD_append.trans (if_pos (by decide))).trans ((BitVec.getLsbD_append.trans (if_pos (by decide))).trans ((BitVec.getLsbD_append.trans (if_pos (by decide))).trans ((BitVec.getLsbD_append.trans (if_pos (by decide))).trans ((BitVec.getLsbD_append.trans (if_pos (by decide))).trans ((BitVec.getLsbD_append.trans (if_pos (by decide))).trans ((BitVec.getLsbD_append.trans (if_pos (by decide))).trans ((BitVec.getLsbD_append.trans (if_neg (by decide))).trans ((by simp)))))))))))

theorem packS64_md (r : Raw) : (packS64 r).extractLsb' 15 4 = r.md :=
  (BitVec.extractLsb'_append_eq_of_add_le (by decide)).trans ((BitVec.extractLsb'_append_eq_of_add_le (by decide)).trans ((BitVec.extractLsb'_append_eq_of_add_le (by decide)).trans ((BitVec.extractLsb'_append_eq_of_add_le (by decide)).trans ((BitVec.extractLsb'_append_eq_of_add_le (by decide)).trans ((BitVec.extractLsb'_append_eq_of_add_le (by decide)).trans ((BitVec.extractLsb'_append_eq_of_add_le (by decide)).trans ((BitVec.extractLsb'_append_eq_of_add_le (by decide)).trans ((BitVec.extractLsb'_append_eq_of_add_le (by decide)).trans ((BitVec.extractLsb'_append_eq_of_add_le (by decide)).trans ((BitVec.extractLsb'_append_eq_of_le (by decide)).trans (BitVec.extractLsb'_eq_self)))))))))))

theorem packS64_op (r : Raw) : (packS64 r).extractLsb' 7 8 = r.op :=
  (BitVec.extractLsb'_append_eq_of_add_le (by decide)).trans ((BitVec.extractLsb'_append_eq_of_add_le (by decide)).trans ((BitVec.extractLsb'_append_eq_of_add_le (by decide)).trans ((BitVec.extractLsb'_append_eq_of_add_le (by decide)).trans ((BitVec.extractLsb'_append_eq_of_add_le (by decide)).trans ((BitVec.extractLsb'_append_eq_of_add_le (by decide)).trans ((BitVec.extractLsb'_append_eq_of_add_le (by decide)).trans ((BitVec.extractLsb'_append_eq_of_add_le (by decide)).trans ((BitVec.extractLsb'_append_eq_of_add_le (by decide)).trans ((BitVec.extractLsb'_append_eq_of_add_le (by decide)).trans ((BitVec.extractLsb'_append_eq_of_add_le (by decide)).trans ((BitVec.extractLsb'_append_eq_of_le (by decide)).trans (BitVec.extractLsb'_eq_self))))))))))))

theorem packS64_head (r : Raw) : (packS64 r).extractLsb' 0 7 = headBits r.h 0 :=
  (BitVec.extractLsb'_append_eq_of_add_le (by decide)).trans ((BitVec.extractLsb'_append_eq_of_add_le (by decide)).trans ((BitVec.extractLsb'_append_eq_of_add_le (by decide)).trans ((BitVec.extractLsb'_append_eq_of_add_le (by decide)).trans ((BitVec.extractLsb'_append_eq_of_add_le (by decide)).trans ((BitVec.extractLsb'_append_eq_of_add_le (by decide)).trans ((BitVec.extractLsb'_append_eq_of_add_le (by decide)).trans ((BitVec.extractLsb'_append_eq_of_add_le (by decide)).trans ((BitVec.extractLsb'_append_eq_of_add_le (by decide)).trans ((BitVec.extractLsb'_append_eq_of_add_le (by decide)).trans ((BitVec.extractLsb'_append_eq_of_add_le (by decide)).trans ((BitVec.extractLsb'_append_eq_of_add_le (by decide)).trans (BitVec.extractLsb'_eq_self))))))))))))

theorem packX96_imm (r : Raw) : (packX96 r).extractLsb' 64 32 = r.imm :=
  (BitVec.extractLsb'_append_eq_of_le (by decide)).trans (BitVec.extractLsb'_eq_self)

theorem packX96_md2 (r : Raw) : (packX96 r).extractLsb' 54 10 = r.md2 :=
  (BitVec.extractLsb'_append_eq_of_add_le (by decide)).trans ((BitVec.extractLsb'_append_eq_of_le (by decide)).trans (BitVec.extractLsb'_eq_self))

theorem packX96_wc (r : Raw) : (packX96 r).getLsbD 53 = r.wc :=
  (BitVec.getLsbD_append.trans (if_pos (by decide))).trans ((BitVec.getLsbD_append.trans (if_pos (by decide))).trans ((BitVec.getLsbD_append.trans (if_neg (by decide))).trans ((by simp))))

theorem packX96_sc (r : Raw) : (packX96 r).extractLsb' 45 8 = r.sc :=
  (BitVec.extractLsb'_append_eq_of_add_le (by decide)).trans ((BitVec.extractLsb'_append_eq_of_add_le (by decide)).trans ((BitVec.extractLsb'_append_eq_of_add_le (by decide)).trans ((BitVec.extractLsb'_append_eq_of_le (by decide)).trans (BitVec.extractLsb'_eq_self))))

theorem packX96_wb (r : Raw) : (packX96 r).getLsbD 44 = r.wb :=
  (BitVec.getLsbD_append.trans (if_pos (by decide))).trans ((BitVec.getLsbD_append.trans (if_pos (by decide))).trans ((BitVec.getLsbD_append.trans (if_pos (by decide))).trans ((BitVec.getLsbD_append.trans (if_pos (by decide))).trans ((BitVec.getLsbD_append.trans (if_neg (by decide))).trans ((by simp))))))

theorem packX96_sb (r : Raw) : (packX96 r).extractLsb' 36 8 = r.sb :=
  (BitVec.extractLsb'_append_eq_of_add_le (by decide)).trans ((BitVec.extractLsb'_append_eq_of_add_le (by decide)).trans ((BitVec.extractLsb'_append_eq_of_add_le (by decide)).trans ((BitVec.extractLsb'_append_eq_of_add_le (by decide)).trans ((BitVec.extractLsb'_append_eq_of_add_le (by decide)).trans ((BitVec.extractLsb'_append_eq_of_le (by decide)).trans (BitVec.extractLsb'_eq_self))))))

theorem packX96_wa (r : Raw) : (packX96 r).getLsbD 35 = r.wa :=
  (BitVec.getLsbD_append.trans (if_pos (by decide))).trans ((BitVec.getLsbD_append.trans (if_pos (by decide))).trans ((BitVec.getLsbD_append.trans (if_pos (by decide))).trans ((BitVec.getLsbD_append.trans (if_pos (by decide))).trans ((BitVec.getLsbD_append.trans (if_pos (by decide))).trans ((BitVec.getLsbD_append.trans (if_pos (by decide))).trans ((BitVec.getLsbD_append.trans (if_neg (by decide))).trans ((by simp))))))))

theorem packX96_sa (r : Raw) : (packX96 r).extractLsb' 27 8 = r.sa :=
  (BitVec.extractLsb'_append_eq_of_add_le (by decide)).trans ((BitVec.extractLsb'_append_eq_of_add_le (by decide)).trans ((BitVec.extractLsb'_append_eq_of_add_le (by decide)).trans ((BitVec.extractLsb'_append_eq_of_add_le (by decide)).trans ((BitVec.extractLsb'_append_eq_of_add_le (by decide)).trans ((BitVec.extractLsb'_append_eq_of_add_le (by decide)).trans ((BitVec.extractLsb'_append_eq_of_add_le (by decide)).trans ((BitVec.extractLsb'_append_eq_of_le (by decide)).trans (BitVec.extractLsb'_eq_self))))))))

theorem packX96_dst (r : Raw) : (packX96 r).extractLsb' 19 8 = r.dst :=
  (BitVec.extractLsb'_append_eq_of_add_le (by decide)).trans ((BitVec.extractLsb'_append_eq_of_add_le (by decide)).trans ((BitVec.extractLsb'_append_eq_of_add_le (by decide)).trans ((BitVec.extractLsb'_append_eq_of_add_le (by decide)).trans ((BitVec.extractLsb'_append_eq_of_add_le (by decide)).trans ((BitVec.extractLsb'_append_eq_of_add_le (by decide)).trans ((BitVec.extractLsb'_append_eq_of_add_le (by decide)).trans ((BitVec.extractLsb'_append_eq_of_add_le (by decide)).trans ((BitVec.extractLsb'_append_eq_of_le (by decide)).trans (BitVec.extractLsb'_eq_self)))))))))

theorem packX96_md (r : Raw) : (packX96 r).extractLsb' 15 4 = r.md :=
  (BitVec.extractLsb'_append_eq_of_add_le (by decide)).trans ((BitVec.extractLsb'_append_eq_of_add_le (by decide)).trans ((BitVec.extractLsb'_append_eq_of_add_le (by decide)).trans ((BitVec.extractLsb'_append_eq_of_add_le (by decide)).trans ((BitVec.extractLsb'_append_eq_of_add_le (by decide)).trans ((BitVec.extractLsb'_append_eq_of_add_le (by decide)).trans ((BitVec.extractLsb'_append_eq_of_add_le (by decide)).trans ((BitVec.extractLsb'_append_eq_of_add_le (by decide)).trans ((BitVec.extractLsb'_append_eq_of_add_le (by decide)).trans ((BitVec.extractLsb'_append_eq_of_le (by decide)).trans (BitVec.extractLsb'_eq_self))))))))))

theorem packX96_op (r : Raw) : (packX96 r).extractLsb' 7 8 = r.op :=
  (BitVec.extractLsb'_append_eq_of_add_le (by decide)).trans ((BitVec.extractLsb'_append_eq_of_add_le (by decide)).trans ((BitVec.extractLsb'_append_eq_of_add_le (by decide)).trans ((BitVec.extractLsb'_append_eq_of_add_le (by decide)).trans ((BitVec.extractLsb'_append_eq_of_add_le (by decide)).trans ((BitVec.extractLsb'_append_eq_of_add_le (by decide)).trans ((BitVec.extractLsb'_append_eq_of_add_le (by decide)).trans ((BitVec.extractLsb'_append_eq_of_add_le (by decide)).trans ((BitVec.extractLsb'_append_eq_of_add_le (by decide)).trans ((BitVec.extractLsb'_append_eq_of_add_le (by decide)).trans ((BitVec.extractLsb'_append_eq_of_le (by decide)).trans (BitVec.extractLsb'_eq_self)))))))))))

theorem packX96_head (r : Raw) : (packX96 r).extractLsb' 0 7 = headBits r.h 3 :=
  (BitVec.extractLsb'_append_eq_of_add_le (by decide)).trans ((BitVec.extractLsb'_append_eq_of_add_le (by decide)).trans ((BitVec.extractLsb'_append_eq_of_add_le (by decide)).trans ((BitVec.extractLsb'_append_eq_of_add_le (by decide)).trans ((BitVec.extractLsb'_append_eq_of_add_le (by decide)).trans ((BitVec.extractLsb'_append_eq_of_add_le (by decide)).trans ((BitVec.extractLsb'_append_eq_of_add_le (by decide)).trans ((BitVec.extractLsb'_append_eq_of_add_le (by decide)).trans ((BitVec.extractLsb'_append_eq_of_add_le (by decide)).trans ((BitVec.extractLsb'_append_eq_of_add_le (by decide)).trans ((BitVec.extractLsb'_append_eq_of_add_le (by decide)).trans (BitVec.extractLsb'_eq_self)))))))))))

theorem headOf_headBits (h : Head) (f : BitVec 2) : headOf (headBits h f) = h := by
  simp only [headOf, headBits_sp, headBits_pn, headBits_pg]

theorem md2_low (v : BitVec 10) (h : v.extractLsb' 4 6 = 0) : (v.extractLsb' 0 4).setWidth 10 = v := by
  have h' : v.toNat / 16 % 64 = 0 := by
    have := congrArg BitVec.toNat h
    rw [BitVec.extractLsb'_toNat, Nat.shiftRight_eq_div_pow] at this
    simpa using this
  apply BitVec.eq_of_toNat_eq
  have := v.isLt
  simp
  omega

theorem rawS64_packS64 (r : Raw) (h1 : r.md2.extractLsb' 4 6 = 0) (h2 : r.imm = 0) (h3 : r.wide = false) : rawS64 (packS64 r) = r := by
  obtain ⟨wide, h, op, md, ib, dst, sa, wa, sb, wb, sc, wc, md2, xm, imm⟩ := r
  simp only at h1 h2 h3
  subst h2 h3
  simp only [rawS64, packS64_head, packS64_op, packS64_md, packS64_ib, packS64_dst, packS64_sa, packS64_wa, packS64_sb, packS64_wb,
    packS64_sc, packS64_wc, packS64_md2, packS64_xm, headOf_headBits, md2_low _ h1]

theorem rawX96_packX96 (r : Raw) (h1 : r.xm = 0) (h2 : r.ib = false) (h3 : r.wide = false) : rawX96 (packX96 r) = r := by
  obtain ⟨wide, h, op, md, ib, dst, sa, wa, sb, wb, sc, wc, md2, xm, imm⟩ := r
  simp only at h1 h2 h3
  subst h1 h2 h3
  simp only [rawX96, packX96_head, packX96_op, packX96_md, packX96_dst, packX96_sa, packX96_wa, packX96_sb, packX96_wb,
    packX96_sc, packX96_wc, packX96_md2, packX96_imm, headOf_headBits]

theorem Reg.ofBits_bits {r : Reg} (h : r.wf = true) : Reg.ofBits r.bits = r := by
  cases r with
  | x n =>
    have : n < 192 := by simpa [Reg.wf] using h
    simp [Reg.bits, Reg.ofBits, BitVec.toNat_ofNat, show n % 256 = n by omega, this]
  | k n =>
    have : n < 32 := by simpa [Reg.wf] using h
    have h1 : ¬ 192 + n < 192 := by omega
    have h2 : 192 + n < 224 := by omega
    simp [Reg.bits, Reg.ofBits, BitVec.toNat_ofNat, show (192 + n) % 256 = 192 + n by omega, h2]
  | q n =>
    have : n < 16 := by simpa [Reg.wf] using h
    have h1 : ¬ 224 + n < 192 := by omega
    have h2 : 224 + n < 240 := by omega
    simp [Reg.bits, Reg.ofBits, BitVec.toNat_ofNat, show (224 + n) % 256 = 224 + n by omega, h1, h2]
  | s z =>
    have h0 : z.num < 16 := by cases z <;> decide
    have h3 : Special.ofNum z.num = z := by cases z <;> rfl
    have h1 : ¬ 240 + z.num < 192 := by omega
    have h2 : ¬ 240 + z.num < 224 := by omega
    simp [Reg.bits, Reg.ofBits, BitVec.toNat_ofNat, show (240 + z.num) % 256 = 240 + z.num by omega, h1, h2, h3]

theorem imm18_put (v : BitVec 18) : BitVec.ofBool (v.getLsbD 17) ++ (v.extractLsb' 9 8 ++ (BitVec.ofBool (v.getLsbD 8) ++ v.extractLsb' 0 8)) = v := by
  apply BitVec.eq_of_getLsbD_eq
  intro i hi
  rw [BitVec.getLsbD_append, BitVec.getLsbD_append, BitVec.getLsbD_append]
  by_cases h1 : i < 8
  · simp [h1, show i < 1 + 8 by omega, show i < 8 + (1 + 8) by omega]
  · by_cases h2 : i = 8
    · subst h2; simp
    · by_cases h3 : i < 17
      · simp [h1, h2, show ¬ i < 1 + 8 by omega, show i < 8 + (1 + 8) by omega, show i - 9 < 8 by omega, show 9 + (i - 9) = i by omega]
      · have : i = 17 := by omega
        subst this; simp

@[simp] theorem Raw.putA_wide (r : Raw) (s : Src) : (r.putA s).wide = r.wide := rfl
@[simp] theorem Raw.putA_h (r : Raw) (s : Src) : (r.putA s).h = r.h := rfl
@[simp] theorem Raw.putA_op (r : Raw) (s : Src) : (r.putA s).op = r.op := rfl
@[simp] theorem Raw.putA_md (r : Raw) (s : Src) : (r.putA s).md = r.md := rfl
@[simp] theorem Raw.putA_ib (r : Raw) (s : Src) : (r.putA s).ib = r.ib := rfl
@[simp] theorem Raw.putA_dst (r : Raw) (s : Src) : (r.putA s).dst = r.dst := rfl
@[simp] theorem Raw.putA_sa (r : Raw) (s : Src) : (r.putA s).sa = s.reg.bits := rfl
@[simp] theorem Raw.putA_wa (r : Raw) (s : Src) : (r.putA s).wa = s.wait := rfl
@[simp] theorem Raw.putA_sb (r : Raw) (s : Src) : (r.putA s).sb = r.sb := rfl
@[simp] theorem Raw.putA_wb (r : Raw) (s : Src) : (r.putA s).wb = r.wb := rfl
@[simp] theorem Raw.putA_sc (r : Raw) (s : Src) : (r.putA s).sc = r.sc := rfl
@[simp] theorem Raw.putA_wc (r : Raw) (s : Src) : (r.putA s).wc = r.wc := rfl
@[simp] theorem Raw.putA_md2 (r : Raw) (s : Src) : (r.putA s).md2 = r.md2 := rfl
@[simp] theorem Raw.putA_xm (r : Raw) (s : Src) : (r.putA s).xm = r.xm := rfl
@[simp] theorem Raw.putA_imm (r : Raw) (s : Src) : (r.putA s).imm = r.imm := rfl
@[simp] theorem Raw.putB_wide (r : Raw) (s : Src) : (r.putB s).wide = r.wide := rfl
@[simp] theorem Raw.putB_h (r : Raw) (s : Src) : (r.putB s).h = r.h := rfl
@[simp] theorem Raw.putB_op (r : Raw) (s : Src) : (r.putB s).op = r.op := rfl
@[simp] theorem Raw.putB_md (r : Raw) (s : Src) : (r.putB s).md = r.md := rfl
@[simp] theorem Raw.putB_ib (r : Raw) (s : Src) : (r.putB s).ib = r.ib := rfl
@[simp] theorem Raw.putB_dst (r : Raw) (s : Src) : (r.putB s).dst = r.dst := rfl
@[simp] theorem Raw.putB_sa (r : Raw) (s : Src) : (r.putB s).sa = r.sa := rfl
@[simp] theorem Raw.putB_wa (r : Raw) (s : Src) : (r.putB s).wa = r.wa := rfl
@[simp] theorem Raw.putB_sb (r : Raw) (s : Src) : (r.putB s).sb = s.reg.bits := rfl
@[simp] theorem Raw.putB_wb (r : Raw) (s : Src) : (r.putB s).wb = s.wait := rfl
@[simp] theorem Raw.putB_sc (r : Raw) (s : Src) : (r.putB s).sc = r.sc := rfl
@[simp] theorem Raw.putB_wc (r : Raw) (s : Src) : (r.putB s).wc = r.wc := rfl
@[simp] theorem Raw.putB_md2 (r : Raw) (s : Src) : (r.putB s).md2 = r.md2 := rfl
@[simp] theorem Raw.putB_xm (r : Raw) (s : Src) : (r.putB s).xm = r.xm := rfl
@[simp] theorem Raw.putB_imm (r : Raw) (s : Src) : (r.putB s).imm = r.imm := rfl
@[simp] theorem Raw.putC_wide (r : Raw) (s : Src) : (r.putC s).wide = r.wide := rfl
@[simp] theorem Raw.putC_h (r : Raw) (s : Src) : (r.putC s).h = r.h := rfl
@[simp] theorem Raw.putC_op (r : Raw) (s : Src) : (r.putC s).op = r.op := rfl
@[simp] theorem Raw.putC_md (r : Raw) (s : Src) : (r.putC s).md = r.md := rfl
@[simp] theorem Raw.putC_ib (r : Raw) (s : Src) : (r.putC s).ib = r.ib := rfl
@[simp] theorem Raw.putC_dst (r : Raw) (s : Src) : (r.putC s).dst = r.dst := rfl
@[simp] theorem Raw.putC_sa (r : Raw) (s : Src) : (r.putC s).sa = r.sa := rfl
@[simp] theorem Raw.putC_wa (r : Raw) (s : Src) : (r.putC s).wa = r.wa := rfl
@[simp] theorem Raw.putC_sb (r : Raw) (s : Src) : (r.putC s).sb = r.sb := rfl
@[simp] theorem Raw.putC_wb (r : Raw) (s : Src) : (r.putC s).wb = r.wb := rfl
@[simp] theorem Raw.putC_sc (r : Raw) (s : Src) : (r.putC s).sc = s.reg.bits := rfl
@[simp] theorem Raw.putC_wc (r : Raw) (s : Src) : (r.putC s).wc = s.wait := rfl
@[simp] theorem Raw.putC_md2 (r : Raw) (s : Src) : (r.putC s).md2 = r.md2 := rfl
@[simp] theorem Raw.putC_xm (r : Raw) (s : Src) : (r.putC s).xm = r.xm := rfl
@[simp] theorem Raw.putC_imm (r : Raw) (s : Src) : (r.putC s).imm = r.imm := rfl
@[simp] theorem Raw.putImm_wide (r : Raw) (s : BitVec 18) : (r.putImm s).wide = r.wide := rfl
@[simp] theorem Raw.putImm_h (r : Raw) (s : BitVec 18) : (r.putImm s).h = r.h := rfl
@[simp] theorem Raw.putImm_op (r : Raw) (s : BitVec 18) : (r.putImm s).op = r.op := rfl
@[simp] theorem Raw.putImm_md (r : Raw) (s : BitVec 18) : (r.putImm s).md = r.md := rfl
@[simp] theorem Raw.putImm_ib (r : Raw) (s : BitVec 18) : (r.putImm s).ib = true := rfl
@[simp] theorem Raw.putImm_dst (r : Raw) (s : BitVec 18) : (r.putImm s).dst = r.dst := rfl
@[simp] theorem Raw.putImm_sa (r : Raw) (s : BitVec 18) : (r.putImm s).sa = r.sa := rfl
@[simp] theorem Raw.putImm_wa (r : Raw) (s : BitVec 18) : (r.putImm s).wa = r.wa := rfl
@[simp] theorem Raw.putImm_sb (r : Raw) (s : BitVec 18) : (r.putImm s).sb = s.extractLsb' 0 8 := rfl
@[simp] theorem Raw.putImm_wb (r : Raw) (s : BitVec 18) : (r.putImm s).wb = s.getLsbD 8 := rfl
@[simp] theorem Raw.putImm_sc (r : Raw) (s : BitVec 18) : (r.putImm s).sc = s.extractLsb' 9 8 := rfl
@[simp] theorem Raw.putImm_wc (r : Raw) (s : BitVec 18) : (r.putImm s).wc = s.getLsbD 17 := rfl
@[simp] theorem Raw.putImm_md2 (r : Raw) (s : BitVec 18) : (r.putImm s).md2 = r.md2 := rfl
@[simp] theorem Raw.putImm_xm (r : Raw) (s : BitVec 18) : (r.putImm s).xm = r.xm := rfl
@[simp] theorem Raw.putImm_imm (r : Raw) (s : BitVec 18) : (r.putImm s).imm = r.imm := rfl
@[simp] theorem imm18_putImm (r : Raw) (v : BitVec 18) : (r.putImm v).imm18 = v := imm18_put v
@[simp] theorem mdInt_w (w : IWidth) (a b : Bool) : IWidth.ofBits ((mdInt w a b).extractLsb' 0 2) = w := by
  cases w <;> cases a <;> cases b <;> decide

@[simp] theorem mdInt_sgn (w : IWidth) (a b : Bool) : (mdInt w a b)[2] = a := by
  cases w <;> cases a <;> cases b <;> decide

@[simp] theorem mdInt_sat (w : IWidth) (a b : Bool) : (mdInt w a b)[3] = b := by
  cases w <;> cases a <;> cases b <;> decide

@[simp] theorem mdFlt_ty (t : FTy) (r : Rnd) : FTy.ofBits ((mdFlt t r).extractLsb' 0 2) = t := by
  cases t <;> cases r <;> decide

@[simp] theorem mdFlt_rnd (t : FTy) (r : Rnd) : Rnd.ofBits ((mdFlt t r).extractLsb' 2 2) = r := by
  cases t <;> cases r <;> decide

@[simp] theorem md2Flt_fzo (a b : Bool) : (md2Flt a b)[0] = a := by cases a <;> cases b <;> decide
@[simp] theorem md2Flt_clamp (a b : Bool) : (md2Flt a b)[1] = b := by cases a <;> cases b <;> decide
@[simp] theorem md2Flt_high (a b : Bool) : (md2Flt a b).extractLsb' 2 8 = 0#8 := by cases a <;> cases b <;> decide
@[simp] theorem md2Flt_s64 (a b : Bool) : (md2Flt a b).extractLsb' 4 6 = 0#6 := by cases a <;> cases b <;> decide
@[simp] theorem predField_predBits (p : BitVec 3) : predField (predBits p) = true := by
  have : ∀ p : Fin 8, predField (predBits (BitVec.ofFin p)) = true := by decide
  exact this p.toFin

@[simp] theorem predOf_predBits (p : BitVec 3) : predOf (predBits p) = p := by
  have : ∀ p : Fin 8, predOf (predBits (BitVec.ofFin p)) = BitVec.ofFin p := by decide
  exact this p.toFin

theorem chkIntB_enc (op : BitVec 8) (o : IntB) (mk : IntB → Instr) (packed sgn sat noQ : Bool)
    (h : o.wf packed sgn sat (noQ && o.w = .w64) = true) : (chkIntB (encIntB op o) mk packed sgn sat noQ).result = .ok (mk o) := by
  obtain ⟨hd, w, sg, st, dst, ⟨ar, aw⟩, b⟩ := o
  simp only [IntB.wf, Reg.dstWf, Src.wf, Bool.and_eq_true, Bool.not_eq_true', Bool.and_eq_false_iff] at h
  obtain ⟨⟨⟨⟨⟨⟨⟨h1, h2⟩, h3⟩, h4⟩, ⟨h5, h6⟩, h7⟩, h8⟩, h9, h10⟩, h11⟩ := h
  have h8' : ¬ ((noQ = true ∧ w = .w64) ∧ dst.isQPort = true) := by
    intro ⟨⟨a, b⟩, c⟩; simp [a, b, c] at h8
  cases b with
  | reg s =>
    simp only [OpB.wf, Src.wf, Bool.and_eq_true] at h11
    simp [chkIntB, encIntB, Raw.putOpB, Chk.result, mdW, Raw.d, Raw.a, Raw.b, Raw.opB, mkSrc, Reg.ofBits_bits, Raw.noCi, Raw.noC,
      Raw.m2z, Raw.xz, OpB.alignedB, illIf, h2, h3, h4, h5, h6, h7, h8', h9, h10, h11]
  | imm v =>
    simp [chkIntB, encIntB, Raw.putOpB, Chk.result, mdW, Raw.d, Raw.a, Raw.b, Raw.opB, mkSrc, Reg.ofBits_bits, Raw.noCi, Raw.noC,
      Raw.m2z, Raw.xz, OpB.alignedB, illIf, h2, h3, h4, h5, h6, h7, h8', h9, h10, h11]

theorem chkIntU_enc (op : BitVec 8) (o : IntU) (mk : IntU → Instr) (packed sgn sat pd : Bool)
    (h : o.wf packed sgn sat (if pd then o.w.words else 1) = true) : (chkIntU (encIntU op o) mk packed sgn sat pd).result = .ok (mk o) := by
  obtain ⟨hd, w, sg, st, dst, ⟨ar, aw⟩⟩ := o
  simp only [IntU.wf, Reg.dstWf, Src.wf, Bool.and_eq_true] at h
  obtain ⟨⟨⟨⟨⟨h1, h2⟩, h3⟩, h4⟩, ⟨h5, h6⟩, h7⟩, h9, h10⟩ := h
  simp [chkIntU, encIntU, Chk.result, mdW, Raw.d, Raw.a, mkSrc, Reg.ofBits_bits, Raw.noBC, Raw.noB, Raw.noC, Raw.m2z, Raw.xz, illIf,
    h2, h3, h4, h5, h6, h7, h9, h10]

theorem chkIntT_enc (op : BitVec 8) (o : IntT) (mk : IntT → Instr) (width : IWidth → Bool) (sgn sat : Bool)
    (h : o.wf width sgn sat = true) : (chkIntT (encIntT op o) mk width sgn sat).result = .ok (mk o) := by
  obtain ⟨hd, w, sg, st, dst, ⟨ar, aw⟩, ⟨br, bw⟩, ⟨cr, cw⟩⟩ := o
  simp only [IntT.wf, Reg.dstWf, Src.wf, Bool.and_eq_true] at h
  obtain ⟨⟨⟨⟨⟨⟨⟨h1, h2⟩, h3⟩, h4⟩, ⟨h5, h6⟩, h7⟩, h9, h10⟩, h11, h12⟩, h13, h14⟩ := h
  simp [chkIntT, encIntT, Chk.result, mdW, Raw.d, Raw.a, Raw.b, Raw.c, mkSrc, Reg.ofBits_bits, Raw.m2z, Raw.xz, illIf, h2, h3, h4, h5,
    h6, h7, h9, h10, h11, h12, h13, h14]

theorem chkFltU_enc (op : BitVec 8) (o : FltU) (mk : FltU → Instr) (types : FTy → Bool) (rnd fzo clamp pd : Bool)
    (h : o.wf types rnd fzo clamp (if pd then o.ty.words else 1) = true) :
    (chkFltU (encFltU op o) mk types rnd fzo clamp pd).result = .ok (mk o) := by
  obtain ⟨hd, ty, md, fz, cl, dst, ⟨ar, aw⟩⟩ := o
  simp only [FltU.wf, Reg.dstWf, Src.wf, Bool.and_eq_true] at h
  obtain ⟨⟨⟨⟨⟨⟨h1, h2⟩, h3⟩, h4⟩, h4'⟩, ⟨h5, h6⟩, h7⟩, h9, h10⟩ := h
  simp [chkFltU, encFltU, Chk.result, mdT, mdRnd, Raw.d, Raw.a, mkSrc, Reg.ofBits_bits, Raw.noBC, Raw.noB, Raw.noC, Raw.xz, illIf, h2,
    h4, h4', h5, h6, h7, h9, h10]
  intro hr; simpa [hr] using h3

theorem chkFltB_enc (op : BitVec 8) (o : FltB) (mk : FltB → Instr) (types : FTy → Bool) (rnd clamp : Bool)
    (h : o.wf types rnd clamp = true) : (chkFltB (encFltB op o) mk types rnd clamp true).result = .ok (mk o) := by
  obtain ⟨hd, ty, md, fz, cl, dst, ⟨ar, aw⟩, b⟩ := o
  simp only [FltB.wf, Reg.dstWf, Src.wf, Bool.and_eq_true] at h
  obtain ⟨⟨⟨⟨⟨⟨⟨h1, h2⟩, h3⟩, h4⟩, ⟨h5, h6⟩, h7⟩, h9, h10⟩, h11⟩, h12⟩ := h
  cases b with
  | reg s =>
    simp only [OpB.wf, Src.wf, Bool.and_eq_true] at h11
    simp [chkFltB, encFltB, Raw.putOpB, Chk.result, mdT, mdRnd, Raw.d, Raw.a, Raw.b, Raw.opB, mkSrc, Reg.ofBits_bits, Raw.noCi, Raw.noC,
      Raw.xz, OpB.alignedB, illIf, h2, h4, h5, h6, h7, h9, h10, h11, h12]
    intro hr; simpa [hr] using h3
  | imm v =>
    simp [chkFltB, encFltB, Raw.putOpB, Chk.result, mdT, mdRnd, Raw.d, Raw.a, Raw.b, Raw.opB, mkSrc, Reg.ofBits_bits, Raw.noCi, Raw.noC,
      Raw.xz, OpB.alignedB, illIf, h2, h4, h5, h6, h7, h9, h10, h11, h12]
    intro hr; simpa [hr] using h3

theorem chkFltT_enc (op : BitVec 8) (o : FltT) (mk : FltT → Instr) (types : FTy → Bool) (rnd fzo clamp : Bool) (n : FTy → Nat)
    (h : o.wf types rnd fzo clamp (n o.ty) = true) : (chkFltT (encFltT op o) mk types rnd fzo clamp n).result = .ok (mk o) := by
  obtain ⟨hd, ty, md, fz, cl, dst, ⟨ar, aw⟩, ⟨br, bw⟩, ⟨cr, cw⟩⟩ := o
  simp only [FltT.wf, Reg.dstWf, Src.wf, Bool.and_eq_true] at h
  obtain ⟨⟨⟨⟨⟨⟨⟨⟨h1, h2⟩, h3⟩, h4⟩, h4'⟩, ⟨h5, h6⟩, h7⟩, h9, h10⟩, h11, h12⟩, h13, h14⟩ := h
  simp [chkFltT, encFltT, Chk.result, mdT, mdRnd, Raw.d, Raw.a, Raw.b, Raw.c, mkSrc, Reg.ofBits_bits, Raw.xz, illIf, h2,
    h4, h4', h5, h6, h7, h9, h10, h11, h12, h13, h14]
  intro hr; simpa [hr] using h3

theorem setWidth_low (x : BitVec 64) : (x.setWidth 96).extractLsb' 0 64 = x := by
  apply BitVec.eq_of_toNat_eq; simp; exact x.isLt

theorem setWidth_fmt (x : BitVec 64) : (x.setWidth 96).extractLsb' 0 2 = x.extractLsb' 0 2 := by
  apply BitVec.eq_of_toNat_eq; simp

theorem fmt_of_head {n : Nat} (x : BitVec n) : x.extractLsb' 0 2 = (x.extractLsb' 0 7).extractLsb' 0 2 := by
  apply BitVec.eq_of_toNat_eq; simp

theorem packS64_fmt (r : Raw) : (packS64 r).extractLsb' 0 2 = 0 := by rw [fmt_of_head, packS64_head, headBits_fmt]

theorem packX96_fmt (r : Raw) : (packX96 r).extractLsb' 0 2 = 3 := by rw [fmt_of_head, packX96_head, headBits_fmt]

theorem encodes_s64 {i : Instr} {r : Raw} (he : encodeBits? i = some ((packS64 r).setWidth 96, 2)) (hw : r.h.wf = true)
    (h1 : r.md2.extractLsb' 4 6 = 0) (h2 : r.imm = 0) (h3 : r.wide = false)
    (hc : (match classA r with | some c => c.result | none => runChk (s64Other r true)) = .ok i) :
    ∃ w n, encodeBits? i = some (w, n) ∧ decodeWord true w = .ok i := by
  refine ⟨_, _, he, ?_⟩
  simp only [decodeWord, setWidth_fmt, packS64_fmt, setWidth_low]
  simp only [decodeS64, rawS64_packS64 r h1 h2 h3, hw]
  exact hc

theorem encodes_x96 {i : Instr} {r : Raw} (he : encodeBits? i = some (packX96 r, 3)) (hw : r.h.wf = true)
    (h1 : r.xm = 0) (h2 : r.ib = false) (h3 : r.wide = false) (hc : runChk (x96Chk r true) = .ok i) :
    ∃ w n, encodeBits? i = some (w, n) ∧ decodeWord true w = .ok i := by
  refine ⟨_, _, he, ?_⟩
  simp only [decodeWord, packX96_fmt]
  simp only [decodeX96, rawX96_packX96 r h1 h2 h3, hw]
  exact hc

theorem encodes_classA {i : Instr} {r : Raw} {c : Chk} (he : encodeBits? i = some ((packS64 r).setWidth 96, 2)) (hA : classA r = some c)
    (hr : c.result = .ok i) (hw : r.h.wf = true) (h1 : r.md2.extractLsb' 4 6 = 0) (h2 : r.imm = 0) (h3 : r.wide = false) :
    ∃ w n, encodeBits? i = some (w, n) ∧ decodeWord true w = .ok i :=
  encodes_s64 he hw h1 h2 h3 (by rw [hA]; exact hr)

theorem IntB.wf_head {o : IntB} {a b c d : Bool} (h : o.wf a b c d = true) : o.h.wf = true := by
  simp only [IntB.wf, Bool.and_eq_true] at h; exact h.1.1.1.1.1.1.1

theorem IntU.wf_head {o : IntU} {a b c : Bool} {n : Nat} (h : o.wf a b c n = true) : o.h.wf = true := by
  simp only [IntU.wf, Bool.and_eq_true] at h; exact h.1.1.1.1.1

theorem IntT.wf_head {o : IntT} {w : IWidth → Bool} {b c : Bool} (h : o.wf w b c = true) : o.h.wf = true := by
  simp only [IntT.wf, Bool.and_eq_true] at h; exact h.1.1.1.1.1.1.1

theorem FltB.wf_head {o : FltB} {w : FTy → Bool} {b c : Bool} (h : o.wf w b c = true) : o.h.wf = true := by
  simp only [FltB.wf, Bool.and_eq_true] at h; exact h.1.1.1.1.1.1.1

theorem FltU.wf_head {o : FltU} {w : FTy → Bool} {b c d : Bool} {n : Nat} (h : o.wf w b c d n = true) : o.h.wf = true := by
  simp only [FltU.wf, Bool.and_eq_true] at h; exact h.1.1.1.1.1.1

theorem FltT.wf_head {o : FltT} {w : FTy → Bool} {b c d : Bool} {n : Nat} (h : o.wf w b c d n = true) : o.h.wf = true := by
  simp only [FltT.wf, Bool.and_eq_true] at h; exact h.1.1.1.1.1.1.1.1

theorem encIntB_h (op : BitVec 8) (o : IntB) : (encIntB op o).h = o.h := by unfold encIntB Raw.putOpB; split <;> rfl

theorem encIntB_md2 (op : BitVec 8) (o : IntB) : (encIntB op o).md2 = 0#10 := by unfold encIntB Raw.putOpB; split <;> rfl

theorem encIntB_imm (op : BitVec 8) (o : IntB) : (encIntB op o).imm = 0 := by unfold encIntB Raw.putOpB; split <;> rfl

theorem encIntB_wide (op : BitVec 8) (o : IntB) : (encIntB op o).wide = false := by unfold encIntB Raw.putOpB; split <;> rfl

theorem encIntB_op (op : BitVec 8) (o : IntB) : (encIntB op o).op = op := by unfold encIntB Raw.putOpB; split <;> rfl

theorem encFltB_h (op : BitVec 8) (o : FltB) : (encFltB op o).h = o.h := by unfold encFltB Raw.putOpB; split <;> rfl

theorem encFltB_md2 (op : BitVec 8) (o : FltB) : (encFltB op o).md2 = md2Flt o.fzo o.clamp := by unfold encFltB Raw.putOpB; split <;> rfl

theorem encFltB_imm (op : BitVec 8) (o : FltB) : (encFltB op o).imm = 0 := by unfold encFltB Raw.putOpB; split <;> rfl

theorem encFltB_wide (op : BitVec 8) (o : FltB) : (encFltB op o).wide = false := by unfold encFltB Raw.putOpB; split <;> rfl

theorem encFltB_op (op : BitVec 8) (o : FltB) : (encFltB op o).op = op := by unfold encFltB Raw.putOpB; split <;> rfl

@[simp] theorem setWidth_low_ext {k m : Nat} (x : BitVec k) (h : k ≤ m) : (x.setWidth m).extractLsb' 0 k = x := by
  apply BitVec.eq_of_toNat_eq
  have := x.isLt
  have h2 : 2 ^ k ≤ 2 ^ m := Nat.pow_le_pow_right (by omega) h
  simp [Nat.mod_eq_of_lt (Nat.lt_of_lt_of_le this h2), Nat.mod_eq_of_lt this]

@[simp] theorem setWidth_high_ext {k m s l : Nat} (x : BitVec k) (h : k ≤ s) : (x.setWidth m).extractLsb' s l = 0 := by
  apply BitVec.eq_of_getLsbD_eq
  intro i hi
  simp [show ¬ (s + i < k) by omega]
  intro _ _
  exact BitVec.getLsbD_of_ge _ _ (by omega)

@[simp] theorem append_low_ext {i j m : Nat} (a : BitVec i) (b : BitVec j) (h : j ≤ m) : ((a ++ b).setWidth m).extractLsb' 0 j = b := by
  apply BitVec.eq_of_getLsbD_eq
  intro k hk
  simp [hk, BitVec.getLsbD_append, show k < m by omega]

@[simp] theorem append_high_ext {i j m : Nat} (a : BitVec i) (b : BitVec j) (h : i + j ≤ m) : ((a ++ b).setWidth m).extractLsb' j i = a := by
  apply BitVec.eq_of_getLsbD_eq
  intro k hk
  simp [hk, BitVec.getLsbD_append, show j + k < m by omega]

theorem halves8 (t : BitVec 8) : t.extractLsb' 4 4 ++ t.extractLsb' 0 4 = t := by
  apply BitVec.eq_of_getLsbD_eq
  intro k hk
  rw [BitVec.getLsbD_append]
  by_cases h : k < 4
  · simp [h]
  · simp [h, show k - 4 < 4 by omega, show 4 + (k - 4) = k by omega]

theorem predDst_ne {p : BitVec 3} (h : predDst p = true) : p ≠ 7#3 := by simpa [predDst] using h

theorem thrOnly_notQ {r : Reg} (h : thrOnly r = true) : r.isQPort = false := by cases r <;> simp_all [thrOnly, Reg.isX, Reg.isQPort]

@[simp] theorem Size.ofBitsQ_bits (x : Size) : Size.ofBits? x.bits = some x := by cases x <;> decide
@[simp] theorem AOp.ofBitsQ_bits (x : AOp) : AOp.ofBits? x.bits = some x := by cases x <;> decide
@[simp] theorem ROp.ofBitsQ_bits (x : ROp) : ROp.ofBits? x.bits = some x := by cases x <;> decide
@[simp] theorem PairOp.ofBitsQ_bits (x : PairOp) : PairOp.ofBits? x.bits = some x := by cases x <;> decide
@[simp] theorem ICond.ofBitsQ_bits (x : ICond) : ICond.ofBits? x.bits = some x := by cases x <;> decide
@[simp] theorem CTy.ofBitsQ_bits (x : CTy) : CTy.ofBits? x.bits = some x := by cases x <;> decide
@[simp] theorem PTy.ofBitsQ_bits (x : PTy) : PTy.ofBits? x.bits = some x := by cases x <;> decide
@[simp] theorem Level.ofBits_bits (x : Level) : Level.ofBits x.bits = x := by cases x <;> decide
@[simp] theorem Reach.ofBits_bits (x : Reach) : Reach.ofBits x.bits = x := by cases x <;> decide
@[simp] theorem FCond.ofBits_bits (x : FCond) : FCond.ofBits x.bits = x := by cases x <;> decide
@[simp] theorem FTy.ofBits_bits (x : FTy) : FTy.ofBits x.bits = x := by cases x <;> decide
@[simp] theorem Rnd.ofBits_bits (x : Rnd) : Rnd.ofBits x.bits = x := by cases x <;> decide
@[simp] theorem IWidth.ofBits_bits (x : IWidth) : IWidth.ofBits x.bits = x := by cases x <;> decide
@[simp] theorem Size.bits_ne7 (x : Size) : x.bits ≠ 7#3 := by cases x <;> decide
@[simp] theorem mdInt_high (w : Bool) (a b : Bool) : (mdInt (if w = true then .w64 else .w32) a b)[1] = false := by cases w <;> cases a <;> cases b <;> decide
@[simp] theorem mdInt_low (w : Bool) (a b : Bool) : (mdInt (if w = true then .w64 else .w32) a b)[0] = w := by cases w <;> cases a <;> cases b <;> decide
@[simp] theorem w64Bit_low (w : Bool) : (w64Bit w)[0] = w := by cases w <;> decide
@[simp] theorem w64Bit_one (w : Bool) : (w64Bit w)[1] = false := by cases w <;> decide
@[simp] theorem w64Bit_two (w : Bool) : (w64Bit w)[2] = false := by cases w <;> decide
@[simp] theorem w64Bit_three (w : Bool) : (w64Bit w)[3] = false := by cases w <;> decide
@[simp] theorem w64Bit_high (w : Bool) : (w64Bit w).extractLsb' 1 3 = 0#3 := by cases w <;> decide
@[simp] theorem w64Bit_top (w : Bool) : (w64Bit w).extractLsb' 2 2 = 0#2 := by cases w <;> decide
@[simp] theorem w64Bit_and (w : Bool) : w64Bit w &&& 14#4 = 0#4 := by cases w <;> decide
@[simp] theorem w64Bit_and12 (w : Bool) : w64Bit w &&& 12#4 = 0#4 := by cases w <;> decide
@[simp] theorem mdMem_size (x : Size) : Size.ofBits? ((mdMem x).extractLsb' 0 3) = some x := by cases x <;> decide
@[simp] theorem mdMem_top (x : Size) : (mdMem x)[3] = false := by cases x <;> decide
@[simp] theorem mdAtom_size (x : Bool) : (mdAtom x).extractLsb' 0 3 ≠ 7#3 := by cases x <;> decide
@[simp] theorem mdAtom_high (x : Bool) : (mdAtom x).extractLsb' 1 2 = 2#2 := by cases x <;> decide
@[simp] theorem mdAtom_low (x : Bool) : (mdAtom x)[0] = x := by cases x <;> decide
@[simp] theorem mdAtom_top (x : Bool) : (mdAtom x)[3] = false := by cases x <;> decide

theorem Chk.result_ok {c : Chk} {i : Instr} (h2 : c.s2 = true) (h5 : c.s5 = true) (h6 : c.s6 = none) (h9 : c.s9 = true)
    (h10 : c.s10 = true) (hi : c.i = i) : c.result = .ok i := by
  unfold Chk.result; rw [h2, h5, h6, h9, h10, hi]; rfl

theorem illIf_none (b : Bool) (x : Ill) : illIf b x = none ↔ b = false := by cases b <;> simp [illIf]

theorem ite_none (b : Prop) [Decidable b] (x : Ill) (y : Option Ill) : (if b then some x else y) = none ↔ ¬ b ∧ y = none := by
  by_cases h : b <;> simp [h]

theorem append_low {i j : Nat} (a : BitVec i) (b : BitVec j) : (a ++ b).extractLsb' 0 j = b := by
  have := append_low_ext a b (Nat.le_add_left j i)
  rwa [BitVec.setWidth_eq] at this

theorem append_high {i j : Nat} (a : BitVec i) (b : BitVec j) : (a ++ b).extractLsb' j i = a :=
  (BitVec.extractLsb'_append_eq_of_le (Nat.le_refl j)).trans ((by simp))

theorem extract_setWidth {k m s l : Nat} (x : BitVec k) (h : s + l ≤ m) : (x.setWidth m).extractLsb' s l = x.extractLsb' s l := by
  apply BitVec.eq_of_getLsbD_eq
  intro i hi
  simp [hi, show s + i < m by omega]

theorem ofBool_true : BitVec.ofBool true = 1#1 := rfl

theorem ofBool_false : BitVec.ofBool false = 0#1 := rfl

@[simp] theorem cvtTy (r : Rnd) : (mdFlt .f32 r).extractLsb' 0 2 = 0#2 := by cases r <;> decide
@[simp] theorem cvtMd2 (f : Bool) : (md2Flt f false).extractLsb' 1 9 = 0#9 := by cases f <;> decide

def sysModes (o : Option (Bool × Nat × Nat)) : Bool :=
  match o with
  | none => true
  | some (_, r, m) => (r = 1 || r = 2) && (m = 0 || m = 1 || m = 2)

theorem sysModes_ite (c : Prop) [Decidable c] (a b : Option (Bool × Nat × Nat)) (ha : sysModes a = true) (hb : sysModes b = true) :
    sysModes (if c then a else b) = true := by
  by_cases h : c <;> simp [h, ha, hb]

theorem sysModes_sysReg (n : Nat) : sysModes (sysReg? n) = true := by
  unfold sysReg?
  repeat' first | rfl | apply sysModes_ite

theorem sysRd {n : BitVec 12} (h : (sysReg? n.toNat).isSome = true) : sysAllowed n false true = true := by
  have hm := sysModes_sysReg n.toNat
  unfold sysAllowed
  generalize sysReg? n.toNat = o at h hm ⊢
  match o, h, hm with
  | some (w, r, m), _, hm =>
    simp only [sysModes, Bool.and_eq_true, Bool.or_eq_true, decide_eq_true_eq] at hm
    obtain ⟨h1 | h1, _⟩ := hm <;> simp [h1]

theorem sysWr {n : BitVec 12} (h : (match sysReg? n.toNat with | some (_, _, wr) => !decide (wr = 0) | none => false) = true) :
    sysAllowed n true true = true := by
  have hm := sysModes_sysReg n.toNat
  unfold sysAllowed
  generalize sysReg? n.toNat = o at h hm ⊢
  match o, h, hm with
  | some (w, r, m), h, hm =>
    simp only [sysModes, Bool.and_eq_true, Bool.or_eq_true, decide_eq_true_eq] at hm
    obtain ⟨_, (h1 | h1) | h1⟩ := hm <;> simp [h1] at h ⊢

theorem windowWf_wf {w : Reg} (h : windowWf w = true) : w.wf = true := by cases w <;> simp_all [windowWf, Reg.wf]

theorem windowWf_isX {w : Reg} (h : windowWf w = true) : w.isX = true := by cases w <;> simp_all [windowWf, Reg.isX]

theorem isX_notQ {w : Reg} (h : w.isX = true) : w.isQPort = false := by cases w <;> simp_all [Reg.isQPort, Reg.isX]

theorem isQ_writable {w : Reg} (h : w.isQPort = true) : w.writable = true := by cases w <;> simp_all [Reg.isQPort, Reg.writable]

@[simp] theorem fNegP_0 (n : Bool) (p : BitVec 3) : ((BitVec.ofBool n ++ p).setWidth 10).extractLsb' 0 3 = p := append_low_ext _ _ (by decide)
@[simp] theorem fNegP_1 (n : Bool) (p : BitVec 3) : ((BitVec.ofBool n ++ p).setWidth 10)[3] = n := by rw [← BitVec.getLsbD_eq_getElem, BitVec.getLsbD_setWidth, BitVec.getLsbD_append]; simp
@[simp] theorem fNegP_2 (n : Bool) (p : BitVec 3) : ((BitVec.ofBool n ++ p).setWidth 10).extractLsb' 4 6 = 0#6 := setWidth_high_ext _ (by decide)
@[simp] theorem fCond_0 (c : FCond) (f : Bool) : ((c.bits ++ BitVec.ofBool f).setWidth 10)[0] = f := by cases c <;> cases f <;> decide
@[simp] theorem fCond_1 (c : FCond) (f : Bool) : ((c.bits ++ BitVec.ofBool f).setWidth 10).extractLsb' 1 3 = c.bits := by cases c <;> cases f <;> decide
@[simp] theorem fCond_2 (c : FCond) (f : Bool) : ((c.bits ++ BitVec.ofBool f).setWidth 10).extractLsb' 4 6 = 0#6 := by cases c <;> cases f <;> decide
@[simp] theorem fBfx_0 (l : BitVec 7) (p : BitVec 6) : ((l ++ p).setWidth 18).extractLsb' 0 6 = p := append_low_ext _ _ (by decide)
@[simp] theorem fBfx_1 (l : BitVec 7) (p : BitVec 6) : ((l ++ p).setWidth 18).extractLsb' 6 7 = l := append_high_ext _ _ (by decide)
@[simp] theorem fBfx_2 (l : BitVec 7) (p : BitVec 6) : ((l ++ p).setWidth 18).extractLsb' 13 5 = 0#5 := setWidth_high_ext _ (by decide)
@[simp] theorem fBar_0 (c : BitVec 12) (n : BitVec 6) : (c ++ n).extractLsb' 0 6 = n := append_low _ _
@[simp] theorem fBar_1 (c : BitVec 12) (n : BitVec 6) : (c ++ n).extractLsb' 6 12 = c := append_high _ _
@[simp] theorem fBuoy_0 (l : Level) (b : Bool) : ((l.bits ++ BitVec.ofBool b).setWidth 4)[0] = b := by cases l <;> cases b <;> decide
@[simp] theorem fBuoy_1 (l : Level) (b : Bool) : ((l.bits ++ BitVec.ofBool b).setWidth 4)[3] = false := by cases l <;> cases b <;> decide
@[simp] theorem fBuoy_2 (l : Level) (b : Bool) : ((l.bits ++ BitVec.ofBool b).setWidth 4).extractLsb' 1 2 = l.bits := by cases l <;> cases b <;> decide
@[simp] theorem ofBool10 (b : Bool) : ((BitVec.ofBool b).setWidth 10)[0] = b := by cases b <;> decide
@[simp] theorem fMemL_0 (h : BitVec 5) (p : BitVec 2) : ((h ++ (0#3 ++ p)).setWidth 10).extractLsb' 0 2 = p := (extract_setWidth _ (by decide)).trans ((BitVec.extractLsb'_append_eq_of_add_le (by decide)).trans (append_low _ _))
@[simp] theorem fMemL_1 (h : BitVec 5) (p : BitVec 2) : ((h ++ (0#3 ++ p)).setWidth 10).extractLsb' 2 3 = 0#3 := (extract_setWidth _ (by decide)).trans ((BitVec.extractLsb'_append_eq_of_add_le (by decide)).trans (append_high _ _))
@[simp] theorem fMemL_2 (h : BitVec 5) (p : BitVec 2) : ((h ++ (0#3 ++ p)).setWidth 10).extractLsb' 5 5 = h := (extract_setWidth _ (by decide)).trans (append_high _ _)
@[simp] theorem fAtom_0 (l : Level) (p : BitVec 2) : ((l.bits ++ p).setWidth 10).extractLsb' 0 2 = p := append_low_ext _ _ (by decide)
@[simp] theorem fAtom_1 (l : Level) (p : BitVec 2) : ((l.bits ++ p).setWidth 10).extractLsb' 2 2 = l.bits := append_high_ext _ _ (by decide)
@[simp] theorem fAtom_2 (l : Level) (p : BitVec 2) : ((l.bits ++ p).setWidth 10).extractLsb' 4 6 = 0#6 := setWidth_high_ext _ (by decide)
@[simp] theorem fPackM_0 (r : Rnd) (p : BitVec 2) : (r.bits ++ p).extractLsb' 0 2 = p := append_low _ _
@[simp] theorem fPackM_1 (r : Rnd) (p : BitVec 2) : (r.bits ++ p).extractLsb' 2 2 = r.bits := append_high _ _
@[simp] theorem fPackN_0 (n : Bool) (t : PTy) : ((BitVec.ofBool n ++ t.bits).setWidth 10).extractLsb' 0 3 = t.bits := by cases n <;> cases t <;> decide
@[simp] theorem fPackN_1 (n : Bool) (t : PTy) : ((BitVec.ofBool n ++ t.bits).setWidth 10)[3] = n := by cases n <;> cases t <;> decide
@[simp] theorem fPackN_2 (n : Bool) (t : PTy) : ((BitVec.ofBool n ++ t.bits).setWidth 10).extractLsb' 4 6 = 0#6 := by cases n <;> cases t <;> decide
@[simp] theorem fCvt_0 (n : Bool) (t : CTy) : ((BitVec.ofBool n ++ t.bits).setWidth 8).extractLsb' 0 5 = t.bits := by cases n <;> cases t <;> decide
@[simp] theorem fCvt_1 (n : Bool) (t : CTy) : ((BitVec.ofBool n ++ t.bits).setWidth 8)[5] = n := by cases n <;> cases t <;> decide
@[simp] theorem fCvt_2 (n : Bool) (t : CTy) : ((BitVec.ofBool n ++ t.bits).setWidth 8).extractLsb' 6 2 = 0#2 := by cases n <;> cases t <;> decide
@[simp] theorem fIinv_0 (r : Reach) : ((1#1 ++ r.bits).setWidth 4).extractLsb' 0 2 = r.bits := by cases r <;> decide
@[simp] theorem fIinv_1 (r : Reach) : ((1#1 ++ r.bits).setWidth 4)[2] = true := by cases r <;> decide
@[simp] theorem fIinv_2 (r : Reach) : ((1#1 ++ r.bits).setWidth 4)[3] = false := by cases r <;> decide
@[simp] theorem fReach_0 (r : Reach) : (r.bits.setWidth 4)[2] = false := by cases r <;> decide
@[simp] theorem fReach_1 (r : Reach) : (r.bits.setWidth 4)[3] = false := by cases r <;> decide
@[simp] theorem fNbr_0 (x y : BitVec 4) : ((x ++ y).setWidth 10).extractLsb' 0 4 = y := append_low_ext _ _ (by decide)
@[simp] theorem fNbr_1 (x y : BitVec 4) : ((x ++ y).setWidth 10).extractLsb' 4 4 = x := append_high_ext _ _ (by decide)
@[simp] theorem fNbr_2 (x y : BitVec 4) : ((x ++ y).setWidth 10).extractLsb' 8 2 = 0#2 := setWidth_high_ext _ (by decide)
@[simp] theorem fMqnt_0 (a b : Bool) (t : BitVec 3) : ((BitVec.ofBool a ++ (BitVec.ofBool b ++ t)).setWidth 10).extractLsb' 0 3 = t := (extract_setWidth _ (by decide)).trans ((BitVec.extractLsb'_append_eq_of_add_le (by decide)).trans (append_low _ _))
@[simp] theorem fMqnt_1 (a b : Bool) (t : BitVec 3) : ((BitVec.ofBool a ++ (BitVec.ofBool b ++ t)).setWidth 10)[3] = b := by rw [← BitVec.getLsbD_eq_getElem, BitVec.getLsbD_setWidth, BitVec.getLsbD_append, BitVec.getLsbD_append]; simp
@[simp] theorem fMqnt_2 (a b : Bool) (t : BitVec 3) : ((BitVec.ofBool a ++ (BitVec.ofBool b ++ t)).setWidth 10)[4] = a := by rw [← BitVec.getLsbD_eq_getElem, BitVec.getLsbD_setWidth, BitVec.getLsbD_append]; simp
@[simp] theorem fMqnt_3 (a b : Bool) (t : BitVec 3) : ((BitVec.ofBool a ++ (BitVec.ofBool b ++ t)).setWidth 10).extractLsb' 5 5 = 0#5 := setWidth_high_ext _ (by decide)
@[simp] theorem fMclr_0 (a : BitVec 2) : ((a ++ 0#3).setWidth 10).extractLsb' 0 3 = 0#3 := append_low_ext _ _ (by decide)
@[simp] theorem fMclr_1 (a : BitVec 2) : ((a ++ 0#3).setWidth 10).extractLsb' 3 2 = a := append_high_ext _ _ (by decide)
@[simp] theorem fMclr_2 (a : BitVec 2) : ((a ++ 0#3).setWidth 10).extractLsb' 5 5 = 0#5 := setWidth_high_ext _ (by decide)
@[simp] theorem fPrio_0 (p : BitVec 5) : (p ++ 0#5).extractLsb' 0 5 = 0#5 := append_low _ _
@[simp] theorem fPrio_1 (p : BitVec 5) : (p ++ 0#5).extractLsb' 5 5 = p := append_high _ _
@[simp] theorem fFence_0 (l : Level) : ((l.bits ++ 0#2).setWidth 10).extractLsb' 0 2 = 0#2 := append_low_ext _ _ (by decide)
@[simp] theorem fFence_1 (l : Level) : ((l.bits ++ 0#2).setWidth 10).extractLsb' 2 2 = l.bits := append_high_ext _ _ (by decide)
@[simp] theorem fFence_2 (l : Level) : ((l.bits ++ 0#2).setWidth 10).extractLsb' 4 6 = 0#6 := setWidth_high_ext _ (by decide)
@[simp] theorem fFset1_0 (w : Bool) : ((BitVec.ofBool w ++ 1#1).setWidth 4)[0] = true := by cases w <;> decide
@[simp] theorem fFset1_1 (w : Bool) : ((BitVec.ofBool w ++ 1#1).setWidth 4)[1] = w := by cases w <;> decide
@[simp] theorem fFset1_2 (w : Bool) : ((BitVec.ofBool w ++ 1#1).setWidth 4).extractLsb' 2 2 = 0#2 := by cases w <;> decide
@[simp] theorem fFset0_0 (w : Bool) : ((BitVec.ofBool w ++ 0#1).setWidth 4)[0] = false := by cases w <;> decide
@[simp] theorem fFset0_1 (w : Bool) : ((BitVec.ofBool w ++ 0#1).setWidth 4)[1] = w := by cases w <;> decide
@[simp] theorem fFset0_2 (w : Bool) : ((BitVec.ofBool w ++ 0#1).setWidth 4).extractLsb' 2 2 = 0#2 := by cases w <;> decide
@[simp] theorem fGive_0 (w : Bool) : ((1#1 ++ BitVec.ofBool w).setWidth 4)[0] = w := by cases w <;> decide
@[simp] theorem fGive_1 (w : Bool) : ((1#1 ++ BitVec.ofBool w).setWidth 4)[1] = true := by cases w <;> decide
@[simp] theorem fGive_2 (w : Bool) : ((1#1 ++ BitVec.ofBool w).setWidth 4).extractLsb' 2 2 = 0#2 := by cases w <;> decide

/-! ## P64 -/

theorem ofBool_slot (b : Bool) {n : Nat} (x : BitVec n) : (BitVec.ofBool b ++ x).getLsbD n = b := by
  rw [BitVec.getLsbD_append]; simp

theorem packP64_top (h : Head) (p q : PairSlot) : (packP64 h p q).getLsbD 63 = false :=
  (BitVec.getLsbD_append.trans (if_neg (by decide))).trans (by simp)

theorem packP64_q (h : Head) (p q : PairSlot) : (packP64 h p q).extractLsb' 35 28 = packSlot q :=
  (BitVec.extractLsb'_append_eq_of_add_le (by decide)).trans ((BitVec.extractLsb'_append_eq_of_le (by decide)).trans BitVec.extractLsb'_eq_self)

theorem packP64_p (h : Head) (p q : PairSlot) : (packP64 h p q).extractLsb' 7 28 = packSlot p :=
  (BitVec.extractLsb'_append_eq_of_add_le (by decide)).trans ((BitVec.extractLsb'_append_eq_of_add_le (by decide)).trans
    ((BitVec.extractLsb'_append_eq_of_le (by decide)).trans BitVec.extractLsb'_eq_self))

theorem packP64_head (h : Head) (p q : PairSlot) : (packP64 h p q).extractLsb' 0 7 = headBits h 1 :=
  (BitVec.extractLsb'_append_eq_of_add_le (by decide)).trans ((BitVec.extractLsb'_append_eq_of_add_le (by decide)).trans
    ((BitVec.extractLsb'_append_eq_of_add_le (by decide)).trans BitVec.extractLsb'_eq_self))

theorem packP64_fmt (h : Head) (p q : PairSlot) : (packP64 h p q).extractLsb' 0 2 = 1 := by
  rw [fmt_of_head, packP64_head, headBits_fmt]

/-- The fields of a slot word. -/
def slotWord (wd is ws : Bool) (s d : BitVec 8) (m : BitVec 3) (o : BitVec 6) : BitVec 28 :=
  BitVec.ofBool wd ++ (BitVec.ofBool is ++ (BitVec.ofBool ws ++ (s ++ (d ++ (m ++ o)))))

theorem slotWord_o (wd is ws : Bool) (s d : BitVec 8) (m : BitVec 3) (o : BitVec 6) : (slotWord wd is ws s d m o).extractLsb' 0 6 = o :=
  (BitVec.extractLsb'_append_eq_of_add_le (by decide)).trans ((BitVec.extractLsb'_append_eq_of_add_le (by decide)).trans
    ((BitVec.extractLsb'_append_eq_of_add_le (by decide)).trans ((BitVec.extractLsb'_append_eq_of_add_le (by decide)).trans
      ((BitVec.extractLsb'_append_eq_of_add_le (by decide)).trans (append_low _ _)))))

theorem slotWord_m (wd is ws : Bool) (s d : BitVec 8) (m : BitVec 3) (o : BitVec 6) : (slotWord wd is ws s d m o).extractLsb' 6 3 = m :=
  (BitVec.extractLsb'_append_eq_of_add_le (by decide)).trans ((BitVec.extractLsb'_append_eq_of_add_le (by decide)).trans
    ((BitVec.extractLsb'_append_eq_of_add_le (by decide)).trans ((BitVec.extractLsb'_append_eq_of_add_le (by decide)).trans
      ((BitVec.extractLsb'_append_eq_of_add_le (by decide)).trans (append_high _ _)))))

theorem slotWord_d (wd is ws : Bool) (s d : BitVec 8) (m : BitVec 3) (o : BitVec 6) : (slotWord wd is ws s d m o).extractLsb' 9 8 = d :=
  (BitVec.extractLsb'_append_eq_of_add_le (by decide)).trans ((BitVec.extractLsb'_append_eq_of_add_le (by decide)).trans
    ((BitVec.extractLsb'_append_eq_of_add_le (by decide)).trans ((BitVec.extractLsb'_append_eq_of_add_le (by decide)).trans
      ((BitVec.extractLsb'_append_eq_of_le (by decide)).trans BitVec.extractLsb'_eq_self))))

theorem slotWord_s (wd is ws : Bool) (s d : BitVec 8) (m : BitVec 3) (o : BitVec 6) : (slotWord wd is ws s d m o).extractLsb' 17 8 = s :=
  (BitVec.extractLsb'_append_eq_of_add_le (by decide)).trans ((BitVec.extractLsb'_append_eq_of_add_le (by decide)).trans
    ((BitVec.extractLsb'_append_eq_of_add_le (by decide)).trans ((BitVec.extractLsb'_append_eq_of_le (by decide)).trans BitVec.extractLsb'_eq_self)))

theorem slotWord_ws (wd is ws : Bool) (s d : BitVec 8) (m : BitVec 3) (o : BitVec 6) : (slotWord wd is ws s d m o).getLsbD 25 = ws :=
  (BitVec.getLsbD_append.trans (if_pos (by decide))).trans ((BitVec.getLsbD_append.trans (if_pos (by decide))).trans (ofBool_slot _ _))

theorem slotWord_is (wd is ws : Bool) (s d : BitVec 8) (m : BitVec 3) (o : BitVec 6) : (slotWord wd is ws s d m o).getLsbD 26 = is :=
  (BitVec.getLsbD_append.trans (if_pos (by decide))).trans (ofBool_slot _ _)

theorem slotWord_wd (wd is ws : Bool) (s d : BitVec 8) (m : BitVec 3) (o : BitVec 6) : (slotWord wd is ws s d m o).getLsbD 27 = wd :=
  ofBool_slot _ _

theorem packSlot_reg (op : PairOp) (m : BitVec 3) (d : Reg) (wd : Bool) (s : Src) :
    packSlot ⟨op, m, d, wd, .reg s⟩ = slotWord wd false s.wait s.reg.bits d.bits m op.bits := rfl

theorem packSlot_imm (op : PairOp) (m : BitVec 3) (d : Reg) (wd : Bool) (v : BitVec 8) :
    packSlot ⟨op, m, d, wd, .imm v⟩ = slotWord wd true false v d.bits m op.bits := rfl

/-- What decoding a slot answers for a well-formed slot's own word. -/
theorem slot_enc (p : PairSlot) (h : p.wf = true) :
    rawSlot (packSlot p) = some p ∧ slotRsvOk p (packSlot p) = true ∧ slotRegsOk p = true := by
  obtain ⟨op, m, d, wd, s⟩ := p
  simp only [PairSlot.wf, Bool.and_eq_true] at h
  obtain ⟨⟨⟨h1, h2⟩, h3⟩, h4⟩ := h
  have hd : d.wf = true ∧ d.isX = true := by
    cases d with
    | x n => exact ⟨h3, rfl⟩
    | k n => simp at h3
    | q n => simp at h3
    | s n => simp at h3
  cases s with
  | reg s =>
    simp only [Bool.and_eq_true, Bool.not_eq_true'] at h4
    refine ⟨?_, ?_, ?_⟩
    · simp only [rawSlot, packSlot_reg, slotWord_o, slotWord_m, slotWord_d, slotWord_s, slotWord_ws, slotWord_is, slotWord_wd,
        PairOp.ofBitsQ_bits, Option.map_some, Reg.ofBits_bits hd.1, mkSrc, Reg.ofBits_bits h4.1, Bool.false_eq_true, if_false]
    · simp only [slotRsvOk, packSlot_reg, slotWord_is, slotWord_ws, h1, h2, Bool.false_and, Bool.not_false, Bool.and_self]
    · simp only [slotRegsOk, hd.2, h4.2, Bool.not_false, Bool.and_self]
  | imm v =>
    refine ⟨?_, ?_, ?_⟩
    · simp only [rawSlot, packSlot_imm, slotWord_o, slotWord_m, slotWord_d, slotWord_s, slotWord_ws, slotWord_is, slotWord_wd,
        PairOp.ofBitsQ_bits, Option.map_some, Reg.ofBits_bits hd.1, if_true]
    · simp only [slotRsvOk, packSlot_imm, slotWord_is, slotWord_ws, h1, h2, Bool.and_false, Bool.not_false, Bool.and_self]
    · simp only [slotRegsOk, hd.2, Bool.and_self]

/-! ## W96 -/

theorem packW96_top (h : Head) (a b : WideSlot) : (packW96 h a b).getLsbD 95 = false :=
  (BitVec.getLsbD_append.trans (if_neg (by decide))).trans (by simp)

theorem packW96_b (h : Head) (a b : WideSlot) : (packW96 h a b).extractLsb' 51 44 = packWide b :=
  (BitVec.extractLsb'_append_eq_of_add_le (by decide)).trans ((BitVec.extractLsb'_append_eq_of_le (by decide)).trans BitVec.extractLsb'_eq_self)

theorem packW96_a (h : Head) (a b : WideSlot) : (packW96 h a b).extractLsb' 7 44 = packWide a :=
  (BitVec.extractLsb'_append_eq_of_add_le (by decide)).trans ((BitVec.extractLsb'_append_eq_of_add_le (by decide)).trans
    ((BitVec.extractLsb'_append_eq_of_le (by decide)).trans BitVec.extractLsb'_eq_self))

theorem packW96_head (h : Head) (a b : WideSlot) : (packW96 h a b).extractLsb' 0 7 = headBits h 2 :=
  (BitVec.extractLsb'_append_eq_of_add_le (by decide)).trans ((BitVec.extractLsb'_append_eq_of_add_le (by decide)).trans
    ((BitVec.extractLsb'_append_eq_of_add_le (by decide)).trans BitVec.extractLsb'_eq_self))

theorem packW96_fmt (h : Head) (a b : WideSlot) : (packW96 h a b).extractLsb' 0 2 = 2 := by
  rw [fmt_of_head, packW96_head, headBits_fmt]

theorem wideSlot_packWide (s : WideSlot) : wideSlot (packWide s) = s := by
  obtain ⟨op, md, dst, sa, sb, sc⟩ := s
  have e1 : (packWide ⟨op, md, dst, sa, sb, sc⟩).extractLsb' 0 8 = op :=
    (BitVec.extractLsb'_append_eq_of_add_le (by decide)).trans ((BitVec.extractLsb'_append_eq_of_add_le (by decide)).trans
      ((BitVec.extractLsb'_append_eq_of_add_le (by decide)).trans ((BitVec.extractLsb'_append_eq_of_add_le (by decide)).trans (append_low _ _))))
  have e2 : (packWide ⟨op, md, dst, sa, sb, sc⟩).extractLsb' 8 4 = md :=
    (BitVec.extractLsb'_append_eq_of_add_le (by decide)).trans ((BitVec.extractLsb'_append_eq_of_add_le (by decide)).trans
      ((BitVec.extractLsb'_append_eq_of_add_le (by decide)).trans ((BitVec.extractLsb'_append_eq_of_add_le (by decide)).trans (append_high _ _))))
  have e3 : (packWide ⟨op, md, dst, sa, sb, sc⟩).extractLsb' 12 8 = dst :=
    (BitVec.extractLsb'_append_eq_of_add_le (by decide)).trans ((BitVec.extractLsb'_append_eq_of_add_le (by decide)).trans
      ((BitVec.extractLsb'_append_eq_of_add_le (by decide)).trans ((BitVec.extractLsb'_append_eq_of_le (by decide)).trans BitVec.extractLsb'_eq_self)))
  have e4 : (packWide ⟨op, md, dst, sa, sb, sc⟩).extractLsb' 20 8 = sa :=
    (BitVec.extractLsb'_append_eq_of_add_le (by decide)).trans ((BitVec.extractLsb'_append_eq_of_add_le (by decide)).trans
      ((BitVec.extractLsb'_append_eq_of_le (by decide)).trans BitVec.extractLsb'_eq_self))
  have e5 : (packWide ⟨op, md, dst, sa, sb, sc⟩).extractLsb' 28 8 = sb :=
    (BitVec.extractLsb'_append_eq_of_add_le (by decide)).trans ((BitVec.extractLsb'_append_eq_of_le (by decide)).trans BitVec.extractLsb'_eq_self)
  have e6 : (packWide ⟨op, md, dst, sa, sb, sc⟩).extractLsb' 36 8 = sc :=
    (BitVec.extractLsb'_append_eq_of_le (by decide)).trans BitVec.extractLsb'_eq_self
  simp only [wideSlot, e1, e2, e3, e4, e5, e6]

/-- A slot that passes its own checks passes each of them. -/
theorem WideSlot.ok_chk {h : Head} {s : WideSlot} (k : s.ok h = true) :
    ∃ c, s.chk h = some c ∧ s.instr h = c.i ∧ c.s2 = true ∧ c.s5 = true ∧ c.s6 = none ∧ c.s9 = true ∧ c.s10 = true := by
  unfold WideSlot.ok at k
  unfold WideSlot.instr
  cases hc : s.chk h with
  | none => rw [hc] at k; cases k
  | some c =>
    rw [hc] at k
    refine ⟨c, rfl, rfl, ?_⟩
    obtain ⟨s2, s5, s6, s9, s10, i⟩ := c
    cases s2 <;> cases s5 <;> cases s6 <;> cases s9 <;> cases s10 <;>
      first | exact ⟨rfl, rfl, rfl, rfl, rfl⟩ | cases k

/-! ## MMA -/

/-- The modifier field of a matrix operation. -/
def mmaMd2 (cV bV aV : Bool) (sc acc : BitVec 2) (bty : BitVec 3) : BitVec 10 :=
  BitVec.ofBool cV ++ (BitVec.ofBool bV ++ (BitVec.ofBool aV ++ (sc ++ (acc ++ bty))))

theorem mmaMd2_bty (cV bV aV : Bool) (sc acc : BitVec 2) (bty : BitVec 3) : (mmaMd2 cV bV aV sc acc bty).extractLsb' 0 3 = bty :=
  (BitVec.extractLsb'_append_eq_of_add_le (by decide)).trans ((BitVec.extractLsb'_append_eq_of_add_le (by decide)).trans
    ((BitVec.extractLsb'_append_eq_of_add_le (by decide)).trans ((BitVec.extractLsb'_append_eq_of_add_le (by decide)).trans (append_low _ _))))

theorem mmaMd2_acc (cV bV aV : Bool) (sc acc : BitVec 2) (bty : BitVec 3) : (mmaMd2 cV bV aV sc acc bty).extractLsb' 3 2 = acc :=
  (BitVec.extractLsb'_append_eq_of_add_le (by decide)).trans ((BitVec.extractLsb'_append_eq_of_add_le (by decide)).trans
    ((BitVec.extractLsb'_append_eq_of_add_le (by decide)).trans ((BitVec.extractLsb'_append_eq_of_add_le (by decide)).trans (append_high _ _))))

theorem mmaMd2_sc (cV bV aV : Bool) (sc acc : BitVec 2) (bty : BitVec 3) : (mmaMd2 cV bV aV sc acc bty).extractLsb' 5 2 = sc :=
  (BitVec.extractLsb'_append_eq_of_add_le (by decide)).trans ((BitVec.extractLsb'_append_eq_of_add_le (by decide)).trans
    ((BitVec.extractLsb'_append_eq_of_add_le (by decide)).trans ((BitVec.extractLsb'_append_eq_of_le (by decide)).trans BitVec.extractLsb'_eq_self)))

theorem mmaMd2_aV (cV bV aV : Bool) (sc acc : BitVec 2) (bty : BitVec 3) : (mmaMd2 cV bV aV sc acc bty).getLsbD 7 = aV :=
  (BitVec.getLsbD_append.trans (if_pos (by decide))).trans ((BitVec.getLsbD_append.trans (if_pos (by decide))).trans (ofBool_slot _ _))

theorem mmaMd2_bV (cV bV aV : Bool) (sc acc : BitVec 2) (bty : BitVec 3) : (mmaMd2 cV bV aV sc acc bty).getLsbD 8 = bV :=
  (BitVec.getLsbD_append.trans (if_pos (by decide))).trans (ofBool_slot _ _)

theorem mmaMd2_cV (cV bV aV : Bool) (sc acc : BitVec 2) (bty : BitVec 3) : (mmaMd2 cV bV aV sc acc bty).getLsbD 9 = cV :=
  ofBool_slot _ _

/-- The immediate of a matrix operation. -/
def mmaImm (steps : BitVec 5) (acc : Bool) (size : BitVec 5) : BitVec 32 := (steps ++ (BitVec.ofBool acc ++ size)).setWidth 32

theorem mmaImm_size (t : BitVec 5) (a : Bool) (z : BitVec 5) : (mmaImm t a z).extractLsb' 0 5 = z :=
  (extract_setWidth _ (by decide)).trans ((BitVec.extractLsb'_append_eq_of_add_le (by decide)).trans (append_low _ _))

theorem mmaImm_steps (t : BitVec 5) (a : Bool) (z : BitVec 5) : (mmaImm t a z).extractLsb' 6 5 = t :=
  (extract_setWidth _ (by decide)).trans (append_high _ _)

theorem mmaImm_acc (t : BitVec 5) (a : Bool) (z : BitVec 5) : (mmaImm t a z).getLsbD 5 = a := by
  rw [mmaImm, BitVec.getLsbD_setWidth, BitVec.getLsbD_append, BitVec.getLsbD_append]; simp

theorem mmaImm_high (t : BitVec 5) (a : Bool) (z : BitVec 5) : (mmaImm t a z).extractLsb' 11 21 = 0#21 :=
  setWidth_high_ext _ (by decide)

theorem scale_ne {r : BitVec 2} (h : ¬ r = 0#2) : (r = 0#2) = False := eq_false h

theorem isX_or {r : Reg} (h : r.isX = true) : (r.isX || r.isK) = true := by rw [h]; rfl

theorem isX_isK {r : Reg} (h : r.isX = true) : r.isK = false := by cases r <;> simp_all [Reg.isX, Reg.isK]

theorem chkMma_enc (aty : Nat) (mk : MmaO → Instr) (o : MmaO) (h : o.wf aty = true) :
    (chkMma (encMma aty o) aty mk).result = .ok (mk o) := by
  obtain ⟨hd, cv, bty, scale, aV, bV, cV, c, a, b, sc, acc, steps, size⟩ := o
  unfold MmaO.wf at h
  cases hbt : matB? aty bty with
  | none => simp only [hbt] at h; cases h
  | some bt =>
    simp only [hbt, Bool.and_eq_true, Bool.or_eq_true, decide_eq_true_eq, Bool.not_eq_true'] at h
    obtain ⟨⟨⟨⟨⟨⟨⟨⟨⟨⟨h1, h2⟩, h3⟩, h4⟩, h5⟩, h6⟩, h7⟩, h8⟩, h9⟩, h10⟩, h11⟩ := h
    have opnd : ∀ (v : Bool) (r : Reg), ((r.wf = true ∧ r.isQPort = false) ∧
        (if v = true then r.aligned 2 && (r.isX || r.isK) else r.isX && r.aligned 4) = true) →
        r.wf = true ∧ (r.isX || r.isK) = true ∧ r.aligned (if v = true then 2 else 4) = true ∧ (!v && r.isK) = false := by
      intro v r hr
      cases v
      · simp only [Bool.false_eq_true, if_false, Bool.and_eq_true] at hr
        exact ⟨hr.1.1, isX_or hr.2.1, hr.2.2, by rw [isX_isK hr.2.1]; rfl⟩
      · simp only [if_true, Bool.and_eq_true] at hr
        exact ⟨hr.1.1, hr.2.2, hr.2.1, rfl⟩
    obtain ⟨a1, a2, a3, a4⟩ := opnd aV a.reg h3
    obtain ⟨b1, b2, b3, b4⟩ := opnd bV b.reg h4
    obtain ⟨c1, c2, c3, c4⟩ := opnd cV c h5
    have hz : ¬ size = 31#5 → (aV = true ∧ bV = true) ∧ cV = true := fun z => h7.resolve_left z
    have hs : ¬ steps = 0#5 → aV = true ∧ bV = true := fun z => h8.resolve_left z
    have hsc : ¬ scale = 0#2 → 2 ≤ aty ∧ aty ≤ 8 := fun z => h2.resolve_left z
    rcases h6 with ⟨s0, sn⟩ | ⟨s1, ss⟩
    · cases sc with
      | some s => cases sn
      | none =>
        subst s0
        have e : encMma aty ⟨hd, cv, bty, 0, aV, bV, cV, c, a, b, none, acc, steps, size⟩ =
            ({ h := hd, op := BitVec.ofNat 8 (0xC0 + aty), md := cv, dst := c.bits, md2 := mmaMd2 cV bV aV 0 (matAcc aty) bty
               imm := mmaImm steps acc size : Raw }.putA a).putB b := rfl
        rw [e]
        refine Chk.result_ok ?_ ?_ ?_ ?_ ?_ ?_
        · rfl
        · simp only [chkMma, Raw.putA_md2, Raw.putB_md2, Raw.putC_md2, Raw.putA_imm, Raw.putB_imm, Raw.putC_imm, Raw.putA_md, Raw.putB_md, Raw.putC_md, Raw.putA_h, Raw.putB_h, Raw.putC_h, Raw.putA_dst, Raw.putB_dst, Raw.putC_dst, Raw.putA_sa, Raw.putB_sa, Raw.putC_sa, Raw.putA_wa, Raw.putB_wa, Raw.putC_wa, Raw.putB_sb, Raw.putC_sb, Raw.putB_wb, Raw.putC_wb, Raw.d, Raw.a, Raw.b, Raw.c, mkSrc, Reg.ofBits_bits a1, Reg.ofBits_bits b1, Reg.ofBits_bits c1, mmaMd2_bty, mmaMd2_acc, mmaMd2_sc, mmaMd2_aV, mmaMd2_bV, mmaMd2_cV, mmaImm_size, mmaImm_steps, mmaImm_acc, mmaImm_high]
          rfl
        · simp only [chkMma, Raw.putA_md2, Raw.putB_md2, Raw.putC_md2, Raw.putA_imm, Raw.putB_imm, Raw.putC_imm, Raw.putA_md, Raw.putB_md, Raw.putC_md, Raw.putA_h, Raw.putB_h, Raw.putC_h, Raw.putA_dst, Raw.putB_dst, Raw.putC_dst, Raw.putA_sa, Raw.putB_sa, Raw.putC_sa, Raw.putA_wa, Raw.putB_wa, Raw.putC_wa, Raw.putB_sb, Raw.putC_sb, Raw.putB_wb, Raw.putC_wb, Raw.d, Raw.a, Raw.b, Raw.c, mkSrc, Reg.ofBits_bits a1, Reg.ofBits_bits b1, Reg.ofBits_bits c1, mmaMd2_bty, mmaMd2_acc, mmaMd2_sc, mmaMd2_aV, mmaMd2_bV, mmaMd2_cV, mmaImm_size, mmaImm_steps, mmaImm_acc, mmaImm_high, hbt, Option.getD_some, Option.isNone_some]
          simp [a2, b2, c2, a4, b4, c4, h9, h10, h11, illIf]
          exact ⟨hz, hs⟩
        · rfl
        · simp only [chkMma, Raw.putA_md2, Raw.putB_md2, Raw.putC_md2, Raw.putA_imm, Raw.putB_imm, Raw.putC_imm, Raw.putA_md, Raw.putB_md, Raw.putC_md, Raw.putA_h, Raw.putB_h, Raw.putC_h, Raw.putA_dst, Raw.putB_dst, Raw.putC_dst, Raw.putA_sa, Raw.putB_sa, Raw.putC_sa, Raw.putA_wa, Raw.putB_wa, Raw.putC_wa, Raw.putB_sb, Raw.putC_sb, Raw.putB_wb, Raw.putC_wb, Raw.d, Raw.a, Raw.b, Raw.c, mkSrc, Reg.ofBits_bits a1, Reg.ofBits_bits b1, Reg.ofBits_bits c1, mmaMd2_bty, mmaMd2_acc, mmaMd2_sc, mmaMd2_aV, mmaMd2_bV, mmaMd2_cV, mmaImm_size, mmaImm_steps, mmaImm_acc, mmaImm_high, a3, b3, c3]
          rfl
        · simp only [chkMma, Raw.putA_md2, Raw.putB_md2, Raw.putC_md2, Raw.putA_imm, Raw.putB_imm, Raw.putC_imm, Raw.putA_md, Raw.putB_md, Raw.putC_md, Raw.putA_h, Raw.putB_h, Raw.putC_h, Raw.putA_dst, Raw.putB_dst, Raw.putC_dst, Raw.putA_sa, Raw.putB_sa, Raw.putC_sa, Raw.putA_wa, Raw.putB_wa, Raw.putC_wa, Raw.putB_sb, Raw.putC_sb, Raw.putB_wb, Raw.putC_wb, Raw.d, Raw.a, Raw.b, Raw.c, mkSrc, Reg.ofBits_bits a1, Reg.ofBits_bits b1, Reg.ofBits_bits c1, mmaMd2_bty, mmaMd2_acc, mmaMd2_sc, mmaMd2_aV, mmaMd2_bV, mmaMd2_cV, mmaImm_size, mmaImm_steps, mmaImm_acc, mmaImm_high]
          rfl
    · cases sc with
      | none => simp at ss
      | some s =>
        simp only [Option.map_some, Option.getD_some, Bool.and_eq_true, Src.wf] at ss
        obtain ⟨⟨⟨ss1, ss2⟩, ss3⟩, ss4⟩ := ss
        have e : encMma aty ⟨hd, cv, bty, scale, aV, bV, cV, c, a, b, some s, acc, steps, size⟩ =
            ((({ h := hd, op := BitVec.ofNat 8 (0xC0 + aty), md := cv, dst := c.bits, md2 := mmaMd2 cV bV aV scale (matAcc aty) bty
                 imm := mmaImm steps acc size : Raw }.putA a).putB b).putC s) := rfl
        rw [e]
        refine Chk.result_ok ?_ ?_ ?_ ?_ ?_ ?_
        · rfl
        · simp only [chkMma, Raw.putA_md2, Raw.putB_md2, Raw.putC_md2, Raw.putA_imm, Raw.putB_imm, Raw.putC_imm, Raw.putA_md, Raw.putB_md, Raw.putC_md, Raw.putA_h, Raw.putB_h, Raw.putC_h, Raw.putA_dst, Raw.putB_dst, Raw.putC_dst, Raw.putA_sa, Raw.putB_sa, Raw.putC_sa, Raw.putA_wa, Raw.putB_wa, Raw.putC_wa, Raw.putB_sb, Raw.putC_sb, Raw.putB_wb, Raw.putC_wb, Raw.putC_sc, Raw.putC_wc, Raw.d, Raw.a, Raw.b, Raw.c, mkSrc, Reg.ofBits_bits a1, Reg.ofBits_bits b1, Reg.ofBits_bits c1, Reg.ofBits_bits ss1, mmaMd2_bty, mmaMd2_acc, mmaMd2_sc, mmaMd2_aV, mmaMd2_bV, mmaMd2_cV, mmaImm_size, mmaImm_steps, mmaImm_acc, mmaImm_high, s1]
          simp
          exact .inl s1
        · simp only [chkMma, Raw.putA_md2, Raw.putB_md2, Raw.putC_md2, Raw.putA_imm, Raw.putB_imm, Raw.putC_imm, Raw.putA_md, Raw.putB_md, Raw.putC_md, Raw.putA_h, Raw.putB_h, Raw.putC_h, Raw.putA_dst, Raw.putB_dst, Raw.putC_dst, Raw.putA_sa, Raw.putB_sa, Raw.putC_sa, Raw.putA_wa, Raw.putB_wa, Raw.putC_wa, Raw.putB_sb, Raw.putC_sb, Raw.putB_wb, Raw.putC_wb, Raw.putC_sc, Raw.putC_wc, Raw.d, Raw.a, Raw.b, Raw.c, mkSrc, Reg.ofBits_bits a1, Reg.ofBits_bits b1, Reg.ofBits_bits c1, Reg.ofBits_bits ss1, mmaMd2_bty, mmaMd2_acc, mmaMd2_sc, mmaMd2_aV, mmaMd2_bV, mmaMd2_cV, mmaImm_size, mmaImm_steps, mmaImm_acc, mmaImm_high, hbt, Option.getD_some, Option.isNone_some]
          simp [a2, b2, c2, a4, b4, c4, h9, h10, h11, illIf, s1, ss3]
          exact ⟨⟨hsc, hz⟩, hs⟩
        · rfl
        · simp only [chkMma, Raw.putA_md2, Raw.putB_md2, Raw.putC_md2, Raw.putA_imm, Raw.putB_imm, Raw.putC_imm, Raw.putA_md, Raw.putB_md, Raw.putC_md, Raw.putA_h, Raw.putB_h, Raw.putC_h, Raw.putA_dst, Raw.putB_dst, Raw.putC_dst, Raw.putA_sa, Raw.putB_sa, Raw.putC_sa, Raw.putA_wa, Raw.putB_wa, Raw.putC_wa, Raw.putB_sb, Raw.putC_sb, Raw.putB_wb, Raw.putC_wb, Raw.putC_sc, Raw.putC_wc, Raw.d, Raw.a, Raw.b, Raw.c, mkSrc, Reg.ofBits_bits a1, Reg.ofBits_bits b1, Reg.ofBits_bits c1, Reg.ofBits_bits ss1, mmaMd2_bty, mmaMd2_acc, mmaMd2_sc, mmaMd2_aV, mmaMd2_bV, mmaMd2_cV, mmaImm_size, mmaImm_steps, mmaImm_acc, mmaImm_high, a3, b3, c3, s1, ss4]
          rfl
        · simp only [chkMma, Raw.putA_md2, Raw.putB_md2, Raw.putC_md2, Raw.putA_imm, Raw.putB_imm, Raw.putC_imm, Raw.putA_md, Raw.putB_md, Raw.putC_md, Raw.putA_h, Raw.putB_h, Raw.putC_h, Raw.putA_dst, Raw.putB_dst, Raw.putC_dst, Raw.putA_sa, Raw.putB_sa, Raw.putC_sa, Raw.putA_wa, Raw.putB_wa, Raw.putC_wa, Raw.putB_sb, Raw.putC_sb, Raw.putB_wb, Raw.putC_wb, Raw.putC_sc, Raw.putC_wc, Raw.d, Raw.a, Raw.b, Raw.c, mkSrc, Reg.ofBits_bits a1, Reg.ofBits_bits b1, Reg.ofBits_bits c1, Reg.ofBits_bits ss1, mmaMd2_bty, mmaMd2_acc, mmaMd2_sc, mmaMd2_aV, mmaMd2_bV, mmaMd2_cV, mmaImm_size, mmaImm_steps, mmaImm_acc, mmaImm_high, s1]
          rfl

theorem encMma_plain (aty : Nat) (o : MmaO) : (encMma aty o).h = o.h ∧ (encMma aty o).xm = 0 ∧ (encMma aty o).ib = false ∧
    (encMma aty o).wide = false := by
  unfold encMma; split <;> exact ⟨rfl, rfl, rfl, rfl⟩

theorem MmaO.wf_head {o : MmaO} {n : Nat} (h : o.wf n = true) : o.h.wf = true := by
  unfold MmaO.wf at h
  cases hbt : matB? n o.bty with
  | none => rw [hbt] at h; cases h
  | some bt =>
    simp only [hbt, Bool.and_eq_true] at h
    exact h.1.1.1.1.1.1.1.1.1.1

theorem encMma_op (aty : Nat) (o : MmaO) : (encMma aty o).op = BitVec.ofNat 8 (0xC0 + aty) := by
  unfold encMma; split <;> rfl

theorem encodes_mma {i : Instr} {aty : Nat} {o : MmaO} {mk : MmaO → Instr} (hi : i = mk o)
    (he : encodeBits? i = some (packX96 (encMma aty o), 3)) (hx : x96Chk (encMma aty o) true = some (chkMma (encMma aty o) aty mk))
    (hw : o.wf aty = true) : ∃ w n, encodeBits? i = some (w, n) ∧ decodeWord true w = .ok i := by
  obtain ⟨h1, h2, h3, h4⟩ := encMma_plain aty o
  refine encodes_x96 he (by rw [h1]; exact MmaO.wf_head hw) h2 h3 h4 ?_
  rw [hx, hi]
  exact chkMma_enc aty mk o hw

end Sys2Proof
end

