-- ==== Sys2Proof/Laws/Mem.lean ====
section
/-! SUPPORT. Laws/Mem.lean: what bringing lines in, landing bytes and the checks of an access leave alone. -/

namespace Sys2Proof.Machine

open Sys2Proof

/-- Everything but memory, its lines and markers, the budget points, the contexts' counters, the hashes of frames and the error
log. -/
structure MemOnly (s t : State) : Prop where
  threads : t.threads = s.threads
  groups : t.groups = s.groups
  cgroups : t.cgroups = s.cgroups
  insts : t.insts = s.insts
  recs : t.recs = s.recs
  cur : t.cur = s.cur
  clusters : t.clusters = s.clusters
  tiers : t.tierCur = s.tierCur
  tick : t.tick = s.tick
  fresh : t.fresh = s.fresh
  ctx : ∀ c, t.ctx c = { s.ctx c with counts := (t.ctx c).counts }

theorem MemOnly.refl (s : State) : MemOnly s s := ⟨rfl, rfl, rfl, rfl, rfl, rfl, rfl, rfl, rfl, rfl, fun _ => rfl⟩
theorem MemOnly.trans {a b c : State} (h : MemOnly a b) (k : MemOnly b c) : MemOnly a c :=
  ⟨k.1.trans h.1, k.2.trans h.2, k.3.trans h.3, k.4.trans h.4, k.5.trans h.5, k.6.trans h.6, k.7.trans h.7, k.8.trans h.8, k.9.trans h.9,
   k.10.trans h.10, fun x => by rw [k.11 x, h.11 x]⟩

/-- `MemOnly`, with every byte as it was, at home and in flight. -/
structure LineOnly (s t : State) : Prop extends MemOnly s t where
  mem : t.mem = s.mem
  flights : t.flights = s.flights
  home : ∀ pa, t.homeByte pa = s.homeByte pa

theorem LineOnly.refl (s : State) : LineOnly s s := ⟨.refl s, rfl, rfl, fun _ => rfl⟩
theorem LineOnly.trans {a b c : State} (h : LineOnly a b) (k : LineOnly b c) : LineOnly a c :=
  ⟨h.toMemOnly.trans k.toMemOnly, k.mem.trans h.mem, k.flights.trans h.flights, fun pa => (k.home pa).trans (h.home pa)⟩

/-- Every observer reads every byte as before. -/
theorem LineOnly.view {s t : State} (h : LineOnly s t) (o pa) : t.viewByte o pa = s.viewByte o pa := by
  simp [State.viewByte, h.flights, h.home]

/-- Updates that the reads of bytes do not look at. -/
theorem lineOnly_of {s t : State} (h : MemOnly s t) (hm : t.mem = s.mem) (hf : t.flights = s.flights) (hl : t.lines = s.lines) : LineOnly s t :=
  ⟨h, hm, hf, fun pa => by simp [State.homeByte, h.tick, hm, hl]⟩

theorem foldl_lineOnly {α} (f : State → α → State) (hf : ∀ s a, LineOnly s (f s a)) (l : List α) (s) : LineOnly s (l.foldl f s) := by
  induction l generalizing s with
  | nil => exact .refl _
  | cons a l ih => exact (hf s a).trans (ih _)
theorem foldl_memOnly {α} (f : State → α → State) (hf : ∀ s a, MemOnly s (f s a)) (l : List α) (s) : MemOnly s (l.foldl f s) := by
  induction l generalizing s with
  | nil => exact .refl _
  | cons a l ih => exact (hf s a).trans (ih _)

theorem reportContained_lineOnly (s : State) (k u cx c si pa) : LineOnly s (reportContained s k u cx c si pa) :=
  ⟨⟨rfl, rfl, rfl, rfl, rfl, rfl, rfl, rfl, rfl, rfl, fun _ => rfl⟩, rfl, rfl, fun _ => rfl⟩
theorem ask_lineOnly (s : State) (p c i) : LineOnly s (ask s p c i) :=
  ⟨⟨rfl, rfl, rfl, rfl, rfl, rfl, rfl, rfl, rfl, rfl, fun _ => rfl⟩, rfl, rfl, fun _ => rfl⟩
theorem askPort_lineOnly (s : State) (c l) : LineOnly s (askPort s c l) := by
  unfold askPort; split
  · exact ask_lineOnly ..
  · exact .refl _
theorem meetError_lineOnly (s : State) (l) : LineOnly s (meetError s l) := by
  unfold meetError; split
  · exact ⟨⟨rfl, rfl, rfl, rfl, rfl, rfl, rfl, rfl, rfl, rfl, fun _ => rfl⟩, rfl, rfl, fun _ => rfl⟩
  · exact .refl _
theorem noteHash_lineOnly (s : State) (m pa) : LineOnly s (noteHash s m pa) := by
  unfold noteHash
  repeat' split
  all_goals exact ⟨⟨rfl, rfl, rfl, rfl, rfl, rfl, rfl, rfl, rfl, rfl, fun _ => rfl⟩, rfl, rfl, fun _ => rfl⟩
theorem ctx_setCtx_counts (s : State) (cx : Nat) (n) (c) :
    (s.setCtx cx { s.ctx cx with counts := n }).ctx c = { s.ctx c with counts := ((s.setCtx cx { s.ctx cx with counts := n }).ctx c).counts } := by
  by_cases h : c = cx
  · subst h; simp [State.ctx, State.setCtx, tgetD]
  · simp [State.ctx, State.setCtx, tgetD, h]
theorem countPc_lineOnly (s : State) (cx m l ev) : LineOnly s (countPc s cx m l ev) := by
  unfold countPc
  split
  · exact .refl _
  · dsimp only
    repeat' split
    all_goals first
      | exact .refl _
      | exact ⟨⟨rfl, rfl, rfl, rfl, rfl, rfl, rfl, rfl, rfl, rfl, fun c => ctx_setCtx_counts s cx _ c⟩, rfl, rfl, fun _ => rfl⟩

/-- A line that moves between L2 and victim cache keeps its bytes. -/
theorem home_moveLine (s : State) (line : Nat) (v : Bool) (pa : Nat) :
    ({ s with lines := s.lines.map fun x => if x.line = line then { x with victim := v } else x } : State).homeByte pa = s.homeByte pa := by
  have (ls : List CLine) : (findLine (ls.map fun x => if x.line = line then { x with victim := v } else x) (pa / 64)).bind
      (fun l => (l.dirty.find? fun d => d.1 = pa % 64).map (·.2)) = (findLine ls (pa / 64)).bind fun l => (l.dirty.find? fun d => d.1 = pa % 64).map (·.2) := by
    induction ls with
    | nil => rfl
    | cons x ls ih =>
      simp only [findLine, List.map_cons, List.find?_cons] at ih ⊢
      by_cases hx : x.line = pa / 64
      · by_cases hl : x.line = line
        · rw [if_pos hl]; simp [hx]
        · rw [if_neg hl]; simp [hx]
      · have : ¬ (if x.line = line then { x with victim := v } else x).line = pa / 64 := by split <;> exact hx
        simp only [this, hx, decide_false]; exact ih
  simp [State.homeByte, this]

/-- A line brought in clean reads as memory does. -/
theorem home_addLine (s : State) (line : Nat) (v : Bool) (h : findLine s.lines line = none) (pa : Nat) :
    ({ s with lines := s.lines ++ [{ line := line, victim := v, dirty := [] }] } : State).homeByte pa = s.homeByte pa := by
  simp only [State.homeByte, findLine, List.find?_append] at h ⊢
  by_cases hp : pa / 64 = line
  · subst hp; simp [h, List.find?]
  · cases hs : List.find? (fun l : CLine => decide (l.line = pa / 64)) s.lines with
    | some l => simp
    | none => simp [List.find?, Ne.symm hp]

/-- A state under other lines that read alike. -/
theorem withLines_lineOnly (s : State) (ls : List CLine) (h : ∀ pa, ({ s with lines := ls } : State).homeByte pa = s.homeByte pa) :
    LineOnly s { s with lines := ls } :=
  ⟨⟨rfl, rfl, rfl, rfl, rfl, rfl, rfl, rfl, rfl, rfl, fun _ => rfl⟩, rfl, rfl, h⟩

theorem countPc_lines (s : State) (cx m l ev) : (countPc s cx m l ev).lines = s.lines := by
  unfold countPc
  repeat' (first | rfl | split | dsimp only)
theorem askPort_lines (s : State) (c l) : (askPort s c l).lines = s.lines := by unfold askPort; split <;> rfl
theorem meetError_lines (s : State) (l) : (meetError s l).lines = s.lines := by unfold meetError; split <;> rfl

theorem bringLine_lineOnly (s : State) (cls cx m v w l) : LineOnly s (bringLine s cls cx m v w l) := by
  unfold bringLine
  split
  · exact .refl _
  · dsimp only
    split
    · rename_i x hx
      have hc : LineOnly s (if x.victim = true then countPc s cx m l 3 else s) := by
        split
        · exact countPc_lineOnly ..
        · exact .refl _
      split
      · exact hc
      · exact hc.trans (withLines_lineOnly _ _ (home_moveLine _ _ _))
    · rename_i hn
      have key (s1 : State) (h : LineOnly s s1 ∧ s1.lines = s.lines) :
          LineOnly s (if cacheRoom s (v && isHbm (l * 64)) l = true then
            { s1 with lines := s1.lines ++ [{ line := l, victim := v && isHbm (l * 64), dirty := [] }] } else s1) := by
        split
        · exact h.1.trans (withLines_lineOnly _ _ (home_addLine _ _ _ (h.2 ▸ hn)))
        · exact h.1
      apply key
      split
      · exact ⟨⟨⟨rfl, rfl, rfl, rfl, rfl, rfl, rfl, rfl, rfl, rfl, fun _ => rfl⟩, rfl, rfl, fun _ => rfl⟩, rfl⟩
      · exact ⟨((meetError_lineOnly s l).trans (askPort_lineOnly _ cls l)).trans (countPc_lineOnly _ cx m l 0),
          by simp [countPc_lines, askPort_lines, meetError_lines]⟩
theorem touchAs_lineOnly (s : State) (cls cx m v w l) : LineOnly s (touchAs s cls cx m v w l) := by
  unfold touchAs
  dsimp only
  have h1 : LineOnly s (if (!w && meetsError s l) = true then reportContained s 1 1 cx 0x0B 0 (64 * l) else s) := by
    split
    · exact reportContained_lineOnly ..
    · exact .refl _
  exact (h1.trans (ask_lineOnly _ _ _ _)).trans (bringLine_lineOnly ..)
theorem touchLine_lineOnly (s : State) (cx m v w l) : LineOnly s (touchLine s cx m v w l) := touchAs_lineOnly ..
theorem touchQuiet_lineOnly (s : State) (cx m v w l) : LineOnly s (touchQuiet s cx m v w l) :=
  (ask_lineOnly _ _ _ _).trans (bringLine_lineOnly ..)
theorem tableReads_lineOnly (s : State) (cx pas) : LineOnly s (tableReads s cx pas) :=
  foldl_lineOnly _ (fun _ _ => (noteHash_lineOnly ..).trans (touchLine_lineOnly ..)) pas s

theorem putHome_memOnly (cx) (s : State) (c) : MemOnly s (putHome cx s c) := by
  unfold putHome; repeat' split
  all_goals exact ⟨rfl, rfl, rfl, rfl, rfl, rfl, rfl, rfl, rfl, rfl, fun _ => rfl⟩
theorem landCells_memOnly (s : State) (v cs cv w k) : MemOnly s (landCells s v cs cv w k) := by
  unfold landCells
  have := (foldl_lineOnly (fun s l => touchAs s (v.classAt l) v.cx v.masks v.vict (cv.contains l || coversLine cs l) l)
    (fun s a => touchAs_lineOnly ..) (linesOf (cs.map (·.1))) s).toMemOnly.trans
    (foldl_memOnly (putHome v.cx) (putHome_memOnly v.cx) cs _)
  exact this.trans ⟨rfl, rfl, rfl, rfl, rfl, rfl, rfl, rfl, rfl, rfl, fun _ => rfl⟩
theorem arriveBytes_memOnly (s : State) (v cs) : MemOnly s (arriveBytes s v cs) := by
  have h1 : MemOnly s { s with flights := dropCells s.flights cs } := ⟨rfl, rfl, rfl, rfl, rfl, rfl, rfl, rfl, rfl, rfl, fun _ => rfl⟩
  unfold arriveBytes
  exact (h1.trans (foldl_lineOnly (fun s l => noteHash s v.masks (64 * l)) (fun s l => noteHash_lineOnly ..) _ _).toMemOnly).trans
    (landCells_memOnly ..)
theorem pokeBytes_memOnly (s : State) (cx pa bs) : MemOnly s (pokeBytes s cx pa bs) := arriveBytes_memOnly ..

/-- What the checks of an access leave alone. -/
structure AccKeeps (s t : State) : Prop where
  threads : t.threads = s.threads
  groups : t.groups = s.groups
  cgroups : t.cgroups = s.cgroups
  insts : t.insts = s.insts
  recs : t.recs = s.recs
  cur : t.cur = s.cur
  vault : ∀ c, t.vault c = s.vault c
  tiers : t.tierCur = s.tierCur
  quiet : (∀ tier, tierBlock? s tier = none) → t.mem = s.mem ∧ t.flights = s.flights ∧ ∀ pa, t.homeByte pa = s.homeByte pa

theorem AccKeeps.refl (s : State) : AccKeeps s s := ⟨rfl, rfl, rfl, rfl, rfl, rfl, fun _ => rfl, rfl, fun _ => ⟨rfl, rfl, fun _ => rfl⟩⟩
theorem AccKeeps.trans {a b c : State} (h : AccKeeps a b) (k : AccKeeps b c) : AccKeeps a c :=
  ⟨k.threads.trans h.threads, k.groups.trans h.groups, k.cgroups.trans h.cgroups, k.insts.trans h.insts, k.recs.trans h.recs, k.cur.trans h.cur,
   fun x => (k.vault x).trans (h.vault x), k.tiers.trans h.tiers, fun q => by
     obtain ⟨a1, a2, a3⟩ := h.quiet q
     obtain ⟨b1, b2, b3⟩ := k.quiet fun t => by simpa [tierBlock?, h.tiers] using q t
     exact ⟨b1.trans a1, b2.trans a2, fun pa => (b3 pa).trans (a3 pa)⟩⟩

/-- Where no tier is swept, every observer reads every byte as before. -/
theorem AccKeeps.view {s t : State} (h : AccKeeps s t) (q : ∀ tier, tierBlock? s tier = none) (o pa) : t.viewByte o pa = s.viewByte o pa := by
  obtain ⟨-, hf, hh⟩ := h.quiet q
  simp [State.viewByte, hf, hh]

theorem vault_eq {s t : State} (h : t.clusters = s.clusters) (c) : t.vault c = s.vault c := by simp [State.vault, State.cluster, h]
theorem LineOnly.acc {s t : State} (h : LineOnly s t) : AccKeeps s t :=
  ⟨h.threads, h.groups, h.cgroups, h.insts, h.recs, h.cur, vault_eq h.clusters, h.tiers, fun _ => ⟨h.mem, h.flights, h.home⟩⟩
theorem setAccessBit_keeps (s : State) (pa) : AccKeeps s (setAccessBit s pa) := by
  unfold setAccessBit
  split
  · exact .refl _
  · rename_i e he
    dsimp only
    split
    · have h := pokeBytes_memOnly s noContext (e + 8) [s.viewByte .domain (e + 8) ||| 0x80]
      refine ⟨h.threads, h.groups, h.cgroups, h.insts, h.recs, h.cur, vault_eq h.clusters, h.tiers, fun q => ?_⟩
      exfalso
      unfold frameEntry? at he
      dsimp only at he
      split at he
      · simp at he
      · rw [q] at he; simp at he
    · exact .refl _
theorem setCluster_keeps (s : State) (cl : Nat) (u : Cluster) (h : u.vault = (s.cluster cl).vault) : AccKeeps s (s.setCluster cl u) := by
  refine ⟨rfl, rfl, rfl, rfl, rfl, rfl, fun c => ?_, rfl, fun _ => ⟨rfl, rfl, fun _ => rfl⟩⟩
  by_cases hc : c = cl
  · subst hc; simp [State.vault, State.cluster, State.setCluster, tgetD] at h ⊢; exact h
  · simp [State.vault, State.cluster, State.setCluster, tgetD, hc]
theorem cluster_tableReads (s : State) (cx pas cl) : (tableReads s cx pas).cluster cl = s.cluster cl := by
  simp [State.cluster, (tableReads_lineOnly s cx pas).clusters]
theorem translate_keeps (s : State) (cl cx va) : AccKeeps s (translate s cl cx va).1 := by
  unfold translate
  dsimp only
  split
  · exact .refl _
  · split
    · exact (tableReads_lineOnly ..).acc
    · rename_i ps e _
      refine AccKeeps.trans ((tableReads_lineOnly s cx ps).acc.trans (setCluster_keeps _ cl _ ?_)) (setAccessBit_keeps _ _)
      rw [cluster_tableReads]
theorem bufferOf_keeps (s : State) (cl cx va) : AccKeeps s (bufferOf s cl cx va).1 := by
  unfold bufferOf
  dsimp only
  split
  · exact .refl _
  · split
    · exact .refl _
    · split
      · exact (tableReads_lineOnly ..).acc
      · refine (tableReads_lineOnly s cx _).acc.trans (setCluster_keeps _ cl _ ?_)
        rw [cluster_tableReads]
theorem checkPage_keeps (s : State) (cl cx va k) : AccKeeps s (checkPage s cl cx va k).1 := by
  unfold checkPage
  have h := translate_keeps s cl cx va
  split
  · rename_i s1 m heq; rw [heq] at h; exact h
  · rename_i s1 e heq; rw [heq] at h
    dsimp only
    repeat' split
    all_goals first | exact h | exact ⟨h.threads, h.groups, h.cgroups, h.insts, h.recs, h.cur, h.vault, h.tiers, h.quiet⟩
theorem checkPages_keeps (k cl cx fuel) (s : State) (va n) : AccKeeps s (checkPages k cl cx fuel s va n).1 := by
  induction fuel generalizing s va n with
  | zero => exact .refl _
  | succ f ih =>
    unfold checkPages
    split
    · exact .refl _
    · dsimp only
      have h := checkPage_keeps s cl cx va k
      split
      · rename_i heq; rw [heq] at h; exact h
      · rename_i s1 pa heq; rw [heq] at h
        have h2 := ih s1 (va + min n (4096 - va % 4096)) (n - min n (4096 - va % 4096))
        split
        · rename_i heq2; rw [heq2] at h2; exact h.trans h2
        · rename_i heq2; rw [heq2] at h2; exact h.trans h2
theorem checkRef_keeps (s : State) (cl cx idx off size align k) : AccKeeps s (checkRef s cl cx idx off size align k).1 := by
  unfold checkRef
  have h := bufferOf_keeps s cl cx idx
  split
  · rename_i heq; rw [heq] at h; exact h
  · rename_i s1 e heq; rw [heq] at h
    split
    · exact h
    · split
      · exact h
      · rename_i b _ _
        have h2 := checkPages_keeps k cl cx (size / 4096 + 2) s1 (b.base + off) size
        split
        · rename_i heq2; rw [heq2] at h2; exact h.trans h2
        · rename_i heq2; rw [heq2] at h2; exact (h.trans h2).trans (noteHash_lineOnly ..).acc
theorem access_keeps (s : State) (cl cx ref disp size align k) : AccKeeps s (access s cl cx ref disp size align k).1 := by
  unfold access
  dsimp only
  split
  · exact .refl _
  · exact checkRef_keeps ..

/-- The environment after an access. -/
theorem env_acc {s s2 : State} {e : Env} (h : s.env? e.tid = some e) (k : AccKeeps s s2) : s2.env? e.tid = some e := by
  simpa [State.env?, k.threads, k.groups, k.insts] using h
theorem fresh_acc {s s2 : State} {e : Env} (h : s.env? e.tid = some e) (k : AccKeeps s s2) : e.refresh s2 = e := by
  simp [Env.refresh, env_acc h k]

/-! ## Walks -/

/-- A walk of both stages depends on memory as its observers read it, and on its context. -/
theorem walk2_congr {s t : State} (hv : ∀ o a n, t.viewNat o a n = s.viewNat o a n) (hc : ∀ c, t.ctx c = s.ctx c) (cx die va : Nat) :
    walk2 t cx die va = walk2 s cx die va := by
  have h2 (d r i) : stage2Reads t d r i = stage2Reads s d r i := by simp [stage2Reads, hv]
  have h1 (c : Ctx) (n tb) : stage1 t c die va n tb = stage1 s c die va n tb := by
    induction n generalizing tb with
    | zero => rfl
    | succ n ih => simp only [stage1, readStage1, h2, hv, ih]
  simp only [walk2, hc, h1, h2]

/-- So does whether a record's entry still stops a walk. -/
theorem stillStops_congr {s t : State} (hv : ∀ o a n, t.viewNat o a n = s.viewNat o a n) (hc : ∀ c, t.ctx c = s.ctx c)
    (hm : t.moving = s.moving) (r : FRec) : stillStops t r = stillStops s r := by
  have h2 (d ro i) : stage2 t d ro i = stage2 s d ro i := by simp [stage2, stage2Reads, hv]
  simp only [stillStops, walk2_congr hv hc, h2, hc, hm]

end Sys2Proof.Machine
end

