-- ==== Sys2Proof/Laws/PerInstr.lean ====
section
/-! SUPPORT. PerInstr.lean: for each constructor of Instr, the decoder reads back what the encoder writes (R26, R27, R32,
R36, R39, R53). A step of the device and the fused sequence have no encoding, and no term of theirs is well-formed. -/

set_option linter.unusedSimpArgs false
set_option linter.unusedVariables false

namespace Sys2Proof

/-- A well-formed instruction has an encoding, and the decoder reads it back from there, in handler mode. -/
def Laws.Encodes.Statement (i : Instr) : Prop := i.wf = true → ∃ w n, encodeBits? i = some (w, n) ∧ decodeWord true w = .ok i

namespace Laws.Encodes

theorem nop (h : Head) : Statement (.nop h) := by
  change (h.wf) = true → _
  intro hw
  try simp only [Src.wf, OpB.wf, Bool.and_eq_true, Bool.or_eq_true, Bool.not_eq_true', decide_eq_true_eq, ne_eq, BitVec.ofNat_eq_ofNat] at hw
  refine encodes_s64 (r := _) rfl ?_ ?_ rfl rfl ?_
  · simp [Reg.ofBits_bits, runChk, illIf_none, ite_none, chkBare, -Nat.reduceAdd, -BitVec.setWidth_eq, -BitVec.getElem_setWidth, hw]
  · first | rfl | simp [Reg.ofBits_bits, runChk, illIf_none, ite_none, chkBare, -Nat.reduceAdd, -BitVec.setWidth_eq, -BitVec.getElem_setWidth]
  · change Chk.result _ = _
    refine Chk.result_ok ?_ ?_ ?_ ?_ ?_ ?_ <;> simp [Reg.ofBits_bits, runChk, illIf_none, ite_none, chkBare, -Nat.reduceAdd, -BitVec.setWidth_eq, -BitVec.getElem_setWidth, hw]

theorem br (h : Head) (imm : BitVec 18) (prio : BitVec 5) : Statement (.br h imm prio) := by
  change (h.wf) = true → _
  intro hw
  try simp only [Src.wf, OpB.wf, Bool.and_eq_true, Bool.or_eq_true, Bool.not_eq_true', decide_eq_true_eq, ne_eq, BitVec.ofNat_eq_ofNat] at hw
  refine encodes_s64 (r := _) rfl ?_ ?_ rfl rfl ?_
  · simp [Reg.ofBits_bits, runChk, illIf_none, ite_none, -Nat.reduceAdd, -BitVec.setWidth_eq, -BitVec.getElem_setWidth, hw]
  · first | rfl | simp [Reg.ofBits_bits, runChk, illIf_none, ite_none, -Nat.reduceAdd, -BitVec.setWidth_eq, -BitVec.getElem_setWidth]
  · change Chk.result _ = _
    refine Chk.result_ok ?_ ?_ ?_ ?_ ?_ ?_ <;> simp [Reg.ofBits_bits, runChk, illIf_none, ite_none, -Nat.reduceAdd, -BitVec.setWidth_eq, -BitVec.getElem_setWidth, hw]

theorem brl (h : Head) (imm : BitVec 32) (prio : BitVec 5) : Statement (.brl h imm prio) := by
  change (h.wf) = true → _
  intro hw
  try simp only [Src.wf, OpB.wf, Bool.and_eq_true, Bool.or_eq_true, Bool.not_eq_true', decide_eq_true_eq, ne_eq, BitVec.ofNat_eq_ofNat] at hw
  refine encodes_x96 (r := _) rfl ?_ rfl rfl rfl ?_
  · simp [Reg.ofBits_bits, runChk, illIf_none, ite_none, -Nat.reduceAdd, -BitVec.setWidth_eq, -BitVec.getElem_setWidth, hw]
  · change Chk.result _ = _
    refine Chk.result_ok ?_ ?_ ?_ ?_ ?_ ?_ <;> simp [Reg.ofBits_bits, runChk, illIf_none, ite_none, -Nat.reduceAdd, -BitVec.setWidth_eq, -BitVec.getElem_setWidth, hw]

theorem call (h : Head) (link : Reg) (imm : BitVec 18) (prio : BitVec 5) : Statement (.call h link imm prio) := by
  change (h.wf && link.dstWf 2 && thrOnly link) = true → _
  intro hw
  try simp only [Reg.dstWf, Src.wf, OpB.wf, Bool.and_eq_true, Bool.or_eq_true, Bool.not_eq_true', decide_eq_true_eq, ne_eq, BitVec.ofNat_eq_ofNat] at hw
  refine encodes_s64 (r := _) rfl ?_ ?_ rfl rfl ?_
  · simp [Reg.ofBits_bits, runChk, illIf_none, ite_none, -Nat.reduceAdd, -BitVec.setWidth_eq, -BitVec.getElem_setWidth, hw]
  · first | rfl | simp [Reg.ofBits_bits, runChk, illIf_none, ite_none, -Nat.reduceAdd, -BitVec.setWidth_eq, -BitVec.getElem_setWidth]
  · change Chk.result _ = _
    refine Chk.result_ok ?_ ?_ ?_ ?_ ?_ ?_ <;> simp [Reg.ofBits_bits, runChk, illIf_none, ite_none, -Nat.reduceAdd, -BitVec.setWidth_eq, -BitVec.getElem_setWidth, hw, thrOnly_notQ (r := link) (by simp_all)]

theorem calll (h : Head) (link : Reg) (imm : BitVec 32) (prio : BitVec 5) : Statement (.calll h link imm prio) := by
  change (h.wf && link.dstWf 2 && thrOnly link) = true → _
  intro hw
  try simp only [Reg.dstWf, Src.wf, OpB.wf, Bool.and_eq_true, Bool.or_eq_true, Bool.not_eq_true', decide_eq_true_eq, ne_eq, BitVec.ofNat_eq_ofNat] at hw
  refine encodes_x96 (r := _) rfl ?_ rfl rfl rfl ?_
  · simp [Reg.ofBits_bits, runChk, illIf_none, ite_none, -Nat.reduceAdd, -BitVec.setWidth_eq, -BitVec.getElem_setWidth, hw]
  · change Chk.result _ = _
    refine Chk.result_ok ?_ ?_ ?_ ?_ ?_ ?_ <;> simp [Reg.ofBits_bits, runChk, illIf_none, ite_none, -Nat.reduceAdd, -BitVec.setWidth_eq, -BitVec.getElem_setWidth, hw, thrOnly_notQ (r := link) (by simp_all)]

theorem jmpr (h : Head) (link : Reg) (tgt : Src) (prio : BitVec 5) : Statement (.jmpr h link tgt prio) := by
  change (h.wf && link.dstWf 2 && thrOnly link && tgt.wf 2) = true → _
  intro hw
  try simp only [Reg.dstWf, Src.wf, OpB.wf, Bool.and_eq_true, Bool.or_eq_true, Bool.not_eq_true', decide_eq_true_eq, ne_eq, BitVec.ofNat_eq_ofNat] at hw
  refine encodes_s64 (r := _) rfl ?_ ?_ rfl rfl ?_
  · simp [Reg.ofBits_bits, runChk, illIf_none, ite_none, -Nat.reduceAdd, -BitVec.setWidth_eq, -BitVec.getElem_setWidth, hw]
  · first | rfl | simp [Reg.ofBits_bits, runChk, illIf_none, ite_none, -Nat.reduceAdd, -BitVec.setWidth_eq, -BitVec.getElem_setWidth]
  · change Chk.result _ = _
    refine Chk.result_ok ?_ ?_ ?_ ?_ ?_ ?_ <;> simp [Reg.ofBits_bits, runChk, illIf_none, ite_none, -Nat.reduceAdd, -BitVec.setWidth_eq, -BitVec.getElem_setWidth, hw, thrOnly_notQ (r := link) (by simp_all)]

theorem ret (h : Head) (tgt : Src) (prio : BitVec 5) : Statement (.ret h tgt prio) := by
  change (h.wf && tgt.wf 2) = true → _
  intro hw
  try simp only [Src.wf, OpB.wf, Bool.and_eq_true, Bool.or_eq_true, Bool.not_eq_true', decide_eq_true_eq, ne_eq, BitVec.ofNat_eq_ofNat] at hw
  refine encodes_s64 (r := _) rfl ?_ ?_ rfl rfl ?_
  · simp [Reg.ofBits_bits, runChk, illIf_none, ite_none, -Nat.reduceAdd, -BitVec.setWidth_eq, -BitVec.getElem_setWidth, hw]
  · first | rfl | simp [Reg.ofBits_bits, runChk, illIf_none, ite_none, -Nat.reduceAdd, -BitVec.setWidth_eq, -BitVec.getElem_setWidth]
  · change Chk.result _ = _
    refine Chk.result_ok ?_ ?_ ?_ ?_ ?_ ?_ <;> simp [Reg.ofBits_bits, runChk, illIf_none, ite_none, -Nat.reduceAdd, -BitVec.setWidth_eq, -BitVec.getElem_setWidth, hw]

theorem yield (h : Head) : Statement (.yield h) := by
  change (h.wf) = true → _
  intro hw
  try simp only [Src.wf, OpB.wf, Bool.and_eq_true, Bool.or_eq_true, Bool.not_eq_true', decide_eq_true_eq, ne_eq, BitVec.ofNat_eq_ofNat] at hw
  refine encodes_s64 (r := _) rfl ?_ ?_ rfl rfl ?_
  · simp [Reg.ofBits_bits, runChk, illIf_none, ite_none, chkBare, -Nat.reduceAdd, -BitVec.setWidth_eq, -BitVec.getElem_setWidth, hw]
  · first | rfl | simp [Reg.ofBits_bits, runChk, illIf_none, ite_none, chkBare, -Nat.reduceAdd, -BitVec.setWidth_eq, -BitVec.getElem_setWidth]
  · change Chk.result _ = _
    refine Chk.result_ok ?_ ?_ ?_ ?_ ?_ ?_ <;> simp [Reg.ofBits_bits, runChk, illIf_none, ite_none, chkBare, -Nat.reduceAdd, -BitVec.setWidth_eq, -BitVec.getElem_setWidth, hw]

theorem exit (h : Head) : Statement (.exit h) := by
  change (h.wf) = true → _
  intro hw
  try simp only [Src.wf, OpB.wf, Bool.and_eq_true, Bool.or_eq_true, Bool.not_eq_true', decide_eq_true_eq, ne_eq, BitVec.ofNat_eq_ofNat] at hw
  refine encodes_s64 (r := _) rfl ?_ ?_ rfl rfl ?_
  · simp [Reg.ofBits_bits, runChk, illIf_none, ite_none, chkBare, -Nat.reduceAdd, -BitVec.setWidth_eq, -BitVec.getElem_setWidth, hw]
  · first | rfl | simp [Reg.ofBits_bits, runChk, illIf_none, ite_none, chkBare, -Nat.reduceAdd, -BitVec.setWidth_eq, -BitVec.getElem_setWidth]
  · change Chk.result _ = _
    refine Chk.result_ok ?_ ?_ ?_ ?_ ?_ ?_ <;> simp [Reg.ofBits_bits, runChk, illIf_none, ite_none, chkBare, -Nat.reduceAdd, -BitVec.setWidth_eq, -BitVec.getElem_setWidth, hw]

theorem prio (h : Head) (p : BitVec 5) : Statement (.prio h p) := by
  change (h.wf) = true → _
  intro hw
  try simp only [Src.wf, OpB.wf, Bool.and_eq_true, Bool.or_eq_true, Bool.not_eq_true', decide_eq_true_eq, ne_eq, BitVec.ofNat_eq_ofNat] at hw
  refine encodes_s64 (r := _) rfl ?_ ?_ rfl rfl ?_
  · simp [Reg.ofBits_bits, runChk, illIf_none, ite_none, -Nat.reduceAdd, -BitVec.setWidth_eq, -BitVec.getElem_setWidth, hw]
  · first | rfl | simp [Reg.ofBits_bits, runChk, illIf_none, ite_none, -Nat.reduceAdd, -BitVec.setWidth_eq, -BitVec.getElem_setWidth]
  · change Chk.result _ = _
    refine Chk.result_ok ?_ ?_ ?_ ?_ ?_ ?_ <;> simp [Reg.ofBits_bits, runChk, illIf_none, ite_none, -Nat.reduceAdd, -BitVec.setWidth_eq, -BitVec.getElem_setWidth, hw]

theorem tryw (h : Head) (pd : BitVec 3) (watched : Reg) (bound : OpB) : Statement (.tryw h pd watched bound) := by
  change (h.wf && predDst pd && watched.wf && watched.isX && bound.wf) = true → _
  intro hw
  cases bound
  all_goals
    try simp only [predDst, Src.wf, OpB.wf, Bool.and_eq_true, Bool.or_eq_true, Bool.not_eq_true', decide_eq_true_eq, ne_eq, BitVec.ofNat_eq_ofNat] at hw
    refine encodes_s64 (r := _) rfl ?_ ?_ rfl rfl ?_
    · simp [Reg.ofBits_bits, runChk, illIf_none, ite_none, -Nat.reduceAdd, -BitVec.setWidth_eq, -BitVec.getElem_setWidth, hw]
    · first | rfl | simp [Reg.ofBits_bits, runChk, illIf_none, ite_none, -Nat.reduceAdd, -BitVec.setWidth_eq, -BitVec.getElem_setWidth]
    · change Chk.result _ = _
      refine Chk.result_ok ?_ ?_ ?_ ?_ ?_ ?_ <;> simp [Reg.ofBits_bits, runChk, illIf_none, ite_none, -Nat.reduceAdd, -BitVec.setWidth_eq, -BitVec.getElem_setWidth, hw]

theorem trap (h : Head) (code : BitVec 8) : Statement (.trap h code) := by
  change (h.wf && !h.sp) = true → _
  intro hw
  obtain ⟨sp, pn, pg⟩ := h <;> cases sp <;> simp only [Bool.and_eq_true, Bool.false_eq_true, and_false, false_and, Bool.not_true] at hw
  all_goals
    try simp only [Src.wf, OpB.wf, Bool.and_eq_true, Bool.or_eq_true, Bool.not_eq_true', decide_eq_true_eq, ne_eq, BitVec.ofNat_eq_ofNat] at hw
    refine encodes_s64 (r := _) rfl ?_ ?_ rfl rfl ?_
    · simp [Reg.ofBits_bits, runChk, illIf_none, ite_none, -Nat.reduceAdd, -BitVec.setWidth_eq, -BitVec.getElem_setWidth, hw]
    · first | rfl | simp [Reg.ofBits_bits, runChk, illIf_none, ite_none, -Nat.reduceAdd, -BitVec.setWidth_eq, -BitVec.getElem_setWidth]
    · change Chk.result _ = _
      refine Chk.result_ok ?_ ?_ ?_ ?_ ?_ ?_ <;> simp [Reg.ofBits_bits, runChk, illIf_none, ite_none, -Nat.reduceAdd, -BitVec.setWidth_eq, -BitVec.getElem_setWidth, hw]

theorem trapSp (h : Head) (w64 : Bool) (dst : Reg) (code : BitVec 8) : Statement (.trapSp h w64 dst code) := by
  change (h.wf && h.sp && dst.dstWf (wordsOf w64) && 0x40 ≤ code.toNat && code.toNat ≤ 0x7F) = true → _
  intro hw
  obtain ⟨sp, pn, pg⟩ := h <;> cases sp <;> simp only [Bool.and_eq_true, Bool.false_eq_true, and_false, false_and, Bool.not_true] at hw
  all_goals
    try simp only [Reg.dstWf, wordsOf, Src.wf, OpB.wf, Bool.and_eq_true, Bool.or_eq_true, Bool.not_eq_true', decide_eq_true_eq, ne_eq, BitVec.ofNat_eq_ofNat] at hw
    refine encodes_s64 (r := _) rfl ?_ ?_ rfl rfl ?_
    · simp [Reg.ofBits_bits, runChk, illIf_none, ite_none, -Nat.reduceAdd, -BitVec.setWidth_eq, -BitVec.getElem_setWidth, hw]
    · first | rfl | simp [Reg.ofBits_bits, runChk, illIf_none, ite_none, -Nat.reduceAdd, -BitVec.setWidth_eq, -BitVec.getElem_setWidth]
    · change Chk.result _ = _
      refine Chk.result_ok ?_ ?_ ?_ ?_ ?_ ?_ <;> simp [Reg.ofBits_bits, runChk, illIf_none, ite_none, -Nat.reduceAdd, -BitVec.setWidth_eq, -BitVec.getElem_setWidth, hw]

theorem rett (h : Head) : Statement (.rett h) := by
  change (h.wf) = true → _
  intro hw
  try simp only [Src.wf, OpB.wf, Bool.and_eq_true, Bool.or_eq_true, Bool.not_eq_true', decide_eq_true_eq, ne_eq, BitVec.ofNat_eq_ofNat] at hw
  refine encodes_s64 (r := _) rfl ?_ ?_ rfl rfl ?_
  · simp [Reg.ofBits_bits, runChk, illIf_none, ite_none, chkBare, -Nat.reduceAdd, -BitVec.setWidth_eq, -BitVec.getElem_setWidth, hw]
  · first | rfl | simp [Reg.ofBits_bits, runChk, illIf_none, ite_none, chkBare, -Nat.reduceAdd, -BitVec.setWidth_eq, -BitVec.getElem_setWidth]
  · change Chk.result _ = _
    refine Chk.result_ok ?_ ?_ ?_ ?_ ?_ ?_ <;> simp [Reg.ofBits_bits, runChk, illIf_none, ite_none, chkBare, -Nat.reduceAdd, -BitVec.setWidth_eq, -BitVec.getElem_setWidth, hw]

theorem chk (h : Head) (src : ChkSrc) : Statement (.chk h src) := by
  change (h.wf && (match src with
      | .reg s => s.wf
      | .pred _ => true)) = true → _
  intro hw
  cases src
  all_goals
    try simp only [Src.wf, OpB.wf, Bool.and_eq_true, Bool.or_eq_true, Bool.not_eq_true', decide_eq_true_eq, ne_eq, BitVec.ofNat_eq_ofNat] at hw
    refine encodes_s64 (r := _) rfl ?_ ?_ rfl rfl ?_
    · simp [Reg.ofBits_bits, runChk, illIf_none, ite_none, -Nat.reduceAdd, -BitVec.setWidth_eq, -BitVec.getElem_setWidth, hw]
    · first | rfl | simp [Reg.ofBits_bits, runChk, illIf_none, ite_none, -Nat.reduceAdd, -BitVec.setWidth_eq, -BitVec.getElem_setWidth]
    · change Chk.result _ = _
      refine Chk.result_ok ?_ ?_ ?_ ?_ ?_ ?_ <;> simp [Reg.ofBits_bits, runChk, illIf_none, ite_none, -Nat.reduceAdd, -BitVec.setWidth_eq, -BitVec.getElem_setWidth, hw]

theorem brk (h : Head) (num : BitVec 16) : Statement (.brk h num) := by
  change (h.wf) = true → _
  intro hw
  try simp only [Src.wf, OpB.wf, Bool.and_eq_true, Bool.or_eq_true, Bool.not_eq_true', decide_eq_true_eq, ne_eq, BitVec.ofNat_eq_ofNat] at hw
  refine encodes_s64 (r := _) rfl ?_ ?_ rfl rfl ?_
  · simp [Reg.ofBits_bits, runChk, illIf_none, ite_none, -Nat.reduceAdd, -BitVec.setWidth_eq, -BitVec.getElem_setWidth, hw]
  · first | rfl | simp [Reg.ofBits_bits, runChk, illIf_none, ite_none, -Nat.reduceAdd, -BitVec.setWidth_eq, -BitVec.getElem_setWidth]
  · change Chk.result _ = _
    refine Chk.result_ok ?_ ?_ ?_ ?_ ?_ ?_ <;> simp [Reg.ofBits_bits, runChk, illIf_none, ite_none, -Nat.reduceAdd, -BitVec.setWidth_eq, -BitVec.getElem_setWidth, hw]

theorem p64Pair (h : Head) (s0 s1 : PairSlot) : Statement (.p64Pair h s0 s1) := by
  intro hw
  have hw' : (h.wf && s0.wf && s1.wf && pairRules s0 s1) = true := hw
  simp only [Bool.and_eq_true] at hw'
  obtain ⟨⟨⟨h1, h2⟩, h3⟩, h4⟩ := hw'
  obtain ⟨a1, a2, a3⟩ := slot_enc s0 h2
  obtain ⟨b1, b2, b3⟩ := slot_enc s1 h3
  refine ⟨_, _, rfl, ?_⟩
  simp only [decodeWord, setWidth_fmt, packP64_fmt, setWidth_low]
  show decodeP64 _ = _
  simp only [decodeP64, packP64_top, packP64_head, headOf_headBits, packP64_p, packP64_q, h1, h4, a1, a2, a3, b1, b2, b3,
    Bool.not_true, Bool.or_self, Bool.and_self, Bool.false_eq_true, if_false]

theorem w96Pair (h : Head) (sa sb : WideSlot) : Statement (.w96Pair h sa sb) := by
  intro hw
  have hw' : (h.wf && wideWf h sa sb) = true := hw
  simp only [Bool.and_eq_true, wideWf] at hw'
  obtain ⟨h1, ⟨h2, h3⟩, h4⟩ := hw'
  obtain ⟨ca, a0, ai, a2, a5, a6, a9, a10⟩ := WideSlot.ok_chk h2
  obtain ⟨cb, b0, bi, b2, b5, b6, b9, b10⟩ := WideSlot.ok_chk h3
  rw [ai, bi] at h4
  refine ⟨_, _, rfl, ?_⟩
  simp only [decodeWord, packW96_fmt]
  show decodeW96 _ = _
  simp only [decodeW96, packW96_top, packW96_head, headOf_headBits, packW96_a, packW96_b, wideSlot_packWide, h1, a0, b0]
  cases hx : ca.i.shape with
  | none => rw [hx] at h4; cases h4
  | some x =>
    cases hy : cb.i.shape with
    | none => rw [hx, hy] at h4; cases h4
    | some y =>
      rw [hx, hy] at h4
      simp only [Bool.and_eq_true, Bool.not_eq_true'] at h4
      simp only [slotIbOk, a2, b2, a5, b5, a6, b6, a9, b9, a10, b10, h4.1, h4.2, Bool.not_true, Bool.or_self, Bool.and_self,
        Bool.false_eq_true, if_false]

theorem iadd (o : IntB) : Statement (.iadd o) := fun h =>
  encodes_classA (r := encIntB 0x10 o) rfl (c := chkIntB (encIntB 0x10 o) .iadd true true true false) (by unfold classA; rw [encIntB_op]; rfl) (chkIntB_enc 0x10 o .iadd true true true false h)
    (by rw [encIntB_h]; exact IntB.wf_head h) (by rw [encIntB_md2]; rfl) (encIntB_imm ..) (encIntB_wide ..)

theorem isub (o : IntB) : Statement (.isub o) := fun h =>
  encodes_classA (r := encIntB 0x11 o) rfl (c := chkIntB (encIntB 0x11 o) .isub true true true false) (by unfold classA; rw [encIntB_op]; rfl) (chkIntB_enc 0x11 o .isub true true true false h)
    (by rw [encIntB_h]; exact IntB.wf_head h) (by rw [encIntB_md2]; rfl) (encIntB_imm ..) (encIntB_wide ..)

theorem imul (o : IntB) : Statement (.imul o) := fun h =>
  encodes_classA (r := encIntB 0x12 o) rfl (c := chkIntB (encIntB 0x12 o) .imul true true true false) (by unfold classA; rw [encIntB_op]; rfl) (chkIntB_enc 0x12 o .imul true true true false h)
    (by rw [encIntB_h]; exact IntB.wf_head h) (by rw [encIntB_md2]; rfl) (encIntB_imm ..) (encIntB_wide ..)

theorem imulh (o : IntB) : Statement (.imulh o) := fun h =>
  encodes_classA (r := encIntB 0x13 o) rfl (c := chkIntB (encIntB 0x13 o) .imulh true true false false) (by unfold classA; rw [encIntB_op]; rfl) (chkIntB_enc 0x13 o .imulh true true false false h)
    (by rw [encIntB_h]; exact IntB.wf_head h) (by rw [encIntB_md2]; rfl) (encIntB_imm ..) (encIntB_wide ..)

theorem imad (o : IntT) : Statement (.imad o) := fun h =>
  encodes_classA (r := encIntT 0x14 o) rfl (c := chkIntT (encIntT 0x14 o) .imad (fun _ => true) true true) rfl (chkIntT_enc 0x14 o .imad (fun _ => true) true true h)
    (IntT.wf_head (o := o) (w := fun _ => true) (b := true) (c := true) h) (by show (0#10).extractLsb' 4 6 = 0; decide) rfl rfl

theorem idiv (o : IntB) : Statement (.idiv o) := fun h =>
  encodes_classA (r := encIntB 0x15 o) rfl (c := chkIntB (encIntB 0x15 o) .idiv false true true true) (by unfold classA; rw [encIntB_op]; rfl) (chkIntB_enc 0x15 o .idiv false true true true h)
    (by rw [encIntB_h]; exact IntB.wf_head h) (by rw [encIntB_md2]; rfl) (encIntB_imm ..) (encIntB_wide ..)

theorem irem (o : IntB) : Statement (.irem o) := fun h =>
  encodes_classA (r := encIntB 0x16 o) rfl (c := chkIntB (encIntB 0x16 o) .irem false true false true) (by unfold classA; rw [encIntB_op]; rfl) (chkIntB_enc 0x16 o .irem false true false true h)
    (by rw [encIntB_h]; exact IntB.wf_head h) (by rw [encIntB_md2]; rfl) (encIntB_imm ..) (encIntB_wide ..)

theorem imin (o : IntB) : Statement (.imin o) := fun h =>
  encodes_classA (r := encIntB 0x17 o) rfl (c := chkIntB (encIntB 0x17 o) .imin true true false false) (by unfold classA; rw [encIntB_op]; rfl) (chkIntB_enc 0x17 o .imin true true false false h)
    (by rw [encIntB_h]; exact IntB.wf_head h) (by rw [encIntB_md2]; rfl) (encIntB_imm ..) (encIntB_wide ..)

theorem imax (o : IntB) : Statement (.imax o) := fun h =>
  encodes_classA (r := encIntB 0x18 o) rfl (c := chkIntB (encIntB 0x18 o) .imax true true false false) (by unfold classA; rw [encIntB_op]; rfl) (chkIntB_enc 0x18 o .imax true true false false h)
    (by rw [encIntB_h]; exact IntB.wf_head h) (by rw [encIntB_md2]; rfl) (encIntB_imm ..) (encIntB_wide ..)

theorem iabs (o : IntU) : Statement (.iabs o) := fun h =>
  encodes_classA (r := encIntU 0x19 o) rfl (c := chkIntU (encIntU 0x19 o) .iabs true true true true) rfl (chkIntU_enc 0x19 o .iabs true true true true h)
    (IntU.wf_head (o := o) h) (by show (0#10).extractLsb' 4 6 = 0; decide) rfl rfl

theorem iand (o : IntB) : Statement (.iand o) := fun h =>
  encodes_classA (r := encIntB 0x1A o) rfl (c := chkIntB (encIntB 0x1A o) .iand false false false false) (by unfold classA; rw [encIntB_op]; rfl) (chkIntB_enc 0x1A o .iand false false false false h)
    (by rw [encIntB_h]; exact IntB.wf_head h) (by rw [encIntB_md2]; rfl) (encIntB_imm ..) (encIntB_wide ..)

theorem ior (o : IntB) : Statement (.ior o) := fun h =>
  encodes_classA (r := encIntB 0x1B o) rfl (c := chkIntB (encIntB 0x1B o) .ior false false false false) (by unfold classA; rw [encIntB_op]; rfl) (chkIntB_enc 0x1B o .ior false false false false h)
    (by rw [encIntB_h]; exact IntB.wf_head h) (by rw [encIntB_md2]; rfl) (encIntB_imm ..) (encIntB_wide ..)

theorem ixor (o : IntB) : Statement (.ixor o) := fun h =>
  encodes_classA (r := encIntB 0x1C o) rfl (c := chkIntB (encIntB 0x1C o) .ixor false false false false) (by unfold classA; rw [encIntB_op]; rfl) (chkIntB_enc 0x1C o .ixor false false false false h)
    (by rw [encIntB_h]; exact IntB.wf_head h) (by rw [encIntB_md2]; rfl) (encIntB_imm ..) (encIntB_wide ..)

theorem lut3 (h : Head) (table : BitVec 8) (dst : Reg) (a : Src) (b : Src) (c : Src) : Statement (.lut3 h table dst a b c) := by
  change (h.wf && dst.dstWf && a.wf && b.wf && c.wf) = true → _
  intro hw
  try simp only [Reg.dstWf, Src.wf, OpB.wf, Bool.and_eq_true, Bool.or_eq_true, Bool.not_eq_true', decide_eq_true_eq, ne_eq, BitVec.ofNat_eq_ofNat] at hw
  refine encodes_s64 (r := _) rfl ?_ ?_ rfl rfl ?_
  · simp [Reg.ofBits_bits, runChk, illIf_none, ite_none, halves8, -Nat.reduceAdd, -BitVec.setWidth_eq, -BitVec.getElem_setWidth, hw]
  · first | rfl | simp [Reg.ofBits_bits, runChk, illIf_none, ite_none, halves8, -Nat.reduceAdd, -BitVec.setWidth_eq, -BitVec.getElem_setWidth]
  · change Chk.result _ = _
    refine Chk.result_ok ?_ ?_ ?_ ?_ ?_ ?_ <;> simp [Reg.ofBits_bits, runChk, illIf_none, ite_none, halves8, -Nat.reduceAdd, -BitVec.setWidth_eq, -BitVec.getElem_setWidth, hw]

theorem shl (o : IntB) : Statement (.shl o) := fun h =>
  encodes_classA (r := encIntB 0x1E o) rfl (c := chkIntB (encIntB 0x1E o) .shl true false false false) (by unfold classA; rw [encIntB_op]; rfl) (chkIntB_enc 0x1E o .shl true false false false h)
    (by rw [encIntB_h]; exact IntB.wf_head h) (by rw [encIntB_md2]; rfl) (encIntB_imm ..) (encIntB_wide ..)

theorem shr (o : IntB) : Statement (.shr o) := fun h =>
  encodes_classA (r := encIntB 0x1F o) rfl (c := chkIntB (encIntB 0x1F o) .shr true false false false) (by unfold classA; rw [encIntB_op]; rfl) (chkIntB_enc 0x1F o .shr true false false false h)
    (by rw [encIntB_h]; exact IntB.wf_head h) (by rw [encIntB_md2]; rfl) (encIntB_imm ..) (encIntB_wide ..)

theorem sar (o : IntB) : Statement (.sar o) := fun h =>
  encodes_classA (r := encIntB 0x20 o) rfl (c := chkIntB (encIntB 0x20 o) .sar true false false false) (by unfold classA; rw [encIntB_op]; rfl) (chkIntB_enc 0x20 o .sar true false false false h)
    (by rw [encIntB_h]; exact IntB.wf_head h) (by rw [encIntB_md2]; rfl) (encIntB_imm ..) (encIntB_wide ..)

theorem rot (o : IntB) : Statement (.rot o) := fun h =>
  encodes_classA (r := encIntB 0x21 o) rfl (c := chkIntB (encIntB 0x21 o) .rot true false false false) (by unfold classA; rw [encIntB_op]; rfl) (chkIntB_enc 0x21 o .rot true false false false h)
    (by rw [encIntB_h]; exact IntB.wf_head h) (by rw [encIntB_md2]; rfl) (encIntB_imm ..) (encIntB_wide ..)

theorem bfx (h : Head) (w64 : Bool) (sgn : Bool) (dst : Reg) (a : Src) (f : BfxField) : Statement (.bfx h w64 sgn dst a f) := by
  change (h.wf && dst.dstWf (wordsOf w64) && a.wf (wordsOf w64) && (match f with
      | .regs p l => p.wf (wordsOf w64) && l.wf (wordsOf w64)
      | .imm _ _ => true)) = true → _
  intro hw
  cases f
  all_goals
    try simp only [Reg.dstWf, wordsOf, Src.wf, OpB.wf, Bool.and_eq_true, Bool.or_eq_true, Bool.not_eq_true', decide_eq_true_eq, ne_eq, BitVec.ofNat_eq_ofNat] at hw
    refine encodes_s64 (r := _) rfl ?_ ?_ rfl rfl ?_
    · simp [Reg.ofBits_bits, runChk, illIf_none, ite_none, -Nat.reduceAdd, -BitVec.setWidth_eq, -BitVec.getElem_setWidth, hw]
    · first | rfl | simp [Reg.ofBits_bits, runChk, illIf_none, ite_none, -Nat.reduceAdd, -BitVec.setWidth_eq, -BitVec.getElem_setWidth]
    · change Chk.result _ = _
      refine Chk.result_ok ?_ ?_ ?_ ?_ ?_ ?_ <;> simp [Reg.ofBits_bits, runChk, illIf_none, ite_none, -Nat.reduceAdd, -BitVec.setWidth_eq, -BitVec.getElem_setWidth, hw]

theorem bfi (o : IntT) : Statement (.bfi o) := fun h =>
  encodes_classA (r := encIntT 0x23 o) rfl (c := chkIntT (encIntT 0x23 o) .bfi IWidth.scalar false false) rfl (chkIntT_enc 0x23 o .bfi IWidth.scalar false false h)
    (IntT.wf_head (o := o) (w := IWidth.scalar) (b := false) (c := false) h) (by show (0#10).extractLsb' 4 6 = 0; decide) rfl rfl

theorem popc (o : IntU) : Statement (.popc o) := fun h =>
  encodes_classA (r := encIntU 0x24 o) rfl (c := chkIntU (encIntU 0x24 o) .popc false false false false) rfl (chkIntU_enc 0x24 o .popc false false false false h)
    (IntU.wf_head (o := o) h) (by show (0#10).extractLsb' 4 6 = 0; decide) rfl rfl

theorem clz (o : IntU) : Statement (.clz o) := fun h =>
  encodes_classA (r := encIntU 0x25 o) rfl (c := chkIntU (encIntU 0x25 o) .clz false false false false) rfl (chkIntU_enc 0x25 o .clz false false false false h)
    (IntU.wf_head (o := o) h) (by show (0#10).extractLsb' 4 6 = 0; decide) rfl rfl

theorem brev (o : IntU) : Statement (.brev o) := fun h =>
  encodes_classA (r := encIntU 0x26 o) rfl (c := chkIntU (encIntU 0x26 o) .brev false false false true) rfl (chkIntU_enc 0x26 o .brev false false false true h)
    (IntU.wf_head (o := o) h) (by show (0#10).extractLsb' 4 6 = 0; decide) rfl rfl

theorem isetp (h : Head) (w64 : Bool) (sgn : Bool) (cond : ICond) (pd : BitVec 3) (a : Src) (b : OpB) : Statement (.isetp h w64 sgn cond pd a b) := by
  change (h.wf && predDst pd && a.wf (wordsOf w64) && b.wf (wordsOf w64)) = true → _
  intro hw
  cases b
  all_goals
    try simp only [predDst, wordsOf, Src.wf, OpB.wf, Bool.and_eq_true, Bool.or_eq_true, Bool.not_eq_true', decide_eq_true_eq, ne_eq, BitVec.ofNat_eq_ofNat] at hw
    refine encodes_s64 (r := _) rfl ?_ ?_ rfl rfl ?_
    · simp [Reg.ofBits_bits, runChk, illIf_none, ite_none, -Nat.reduceAdd, -BitVec.setWidth_eq, -BitVec.getElem_setWidth, hw]
    · first | rfl | simp [Reg.ofBits_bits, runChk, illIf_none, ite_none, -Nat.reduceAdd, -BitVec.setWidth_eq, -BitVec.getElem_setWidth]
    · change Chk.result _ = _
      refine Chk.result_ok ?_ ?_ ?_ ?_ ?_ ?_ <;> simp [Reg.ofBits_bits, runChk, illIf_none, ite_none, -Nat.reduceAdd, -BitVec.setWidth_eq, -BitVec.getElem_setWidth, hw]

theorem sel (h : Head) (w64 : Bool) (dst : Reg) (p : BitVec 3) (neg : Bool) (a : Src) (b : OpB) : Statement (.sel h w64 dst p neg a b) := by
  change (h.wf && dst.dstWf (wordsOf w64) && a.wf (wordsOf w64) && b.wf (wordsOf w64)) = true → _
  intro hw
  cases b
  all_goals
    try simp only [Reg.dstWf, wordsOf, Src.wf, OpB.wf, Bool.and_eq_true, Bool.or_eq_true, Bool.not_eq_true', decide_eq_true_eq, ne_eq, BitVec.ofNat_eq_ofNat] at hw
    refine encodes_s64 (r := _) rfl ?_ ?_ rfl rfl ?_
    · simp [Reg.ofBits_bits, runChk, illIf_none, ite_none, -Nat.reduceAdd, -BitVec.setWidth_eq, -BitVec.getElem_setWidth, hw]
    · first | rfl | simp [Reg.ofBits_bits, runChk, illIf_none, ite_none, -Nat.reduceAdd, -BitVec.setWidth_eq, -BitVec.getElem_setWidth]
    · change Chk.result _ = _
      refine Chk.result_ok ?_ ?_ ?_ ?_ ?_ ?_ <;> simp [Reg.ofBits_bits, runChk, illIf_none, ite_none, -Nat.reduceAdd, -BitVec.setWidth_eq, -BitVec.getElem_setWidth, hw]

theorem lea (h : Head) (dst : Reg) (base : Src) (disp : LeaDisp) : Statement (.lea h dst base disp) := by
  change (h.wf && dst.dstNoQ 2 && base.wf 2 && (match disp with
      | .imm _ => true
      | .reg s w64 _ _ => s.wf (wordsOf w64))) = true → _
  intro hw
  cases disp
  all_goals
    try simp only [Reg.dstNoQ, Reg.dstWf, wordsOf, Src.wf, OpB.wf, Bool.and_eq_true, Bool.or_eq_true, Bool.not_eq_true', decide_eq_true_eq, ne_eq, BitVec.ofNat_eq_ofNat] at hw
    refine encodes_s64 (r := _) rfl ?_ ?_ rfl rfl ?_
    · simp [Reg.ofBits_bits, runChk, illIf_none, ite_none, -Nat.reduceAdd, -BitVec.setWidth_eq, -BitVec.getElem_setWidth, hw]
    · first | rfl | simp [Reg.ofBits_bits, runChk, illIf_none, ite_none, -Nat.reduceAdd, -BitVec.setWidth_eq, -BitVec.getElem_setWidth]
    · change Chk.result _ = _
      refine Chk.result_ok ?_ ?_ ?_ ?_ ?_ ?_ <;> simp [Reg.ofBits_bits, runChk, illIf_none, ite_none, -Nat.reduceAdd, -BitVec.setWidth_eq, -BitVec.getElem_setWidth, hw]

theorem mov (h : Head) (w64 : Bool) (dst : Reg) (a : OpB) : Statement (.mov h w64 dst a) := by
  change (h.wf && dst.dstWf (wordsOf w64) && a.wf (wordsOf w64)) = true → _
  intro hw
  cases a
  all_goals
    try simp only [Reg.dstWf, wordsOf, Src.wf, OpB.wf, Bool.and_eq_true, Bool.or_eq_true, Bool.not_eq_true', decide_eq_true_eq, ne_eq, BitVec.ofNat_eq_ofNat] at hw
    refine encodes_s64 (r := _) rfl ?_ ?_ rfl rfl ?_
    · simp [Reg.ofBits_bits, runChk, illIf_none, ite_none, -Nat.reduceAdd, -BitVec.setWidth_eq, -BitVec.getElem_setWidth, hw]
    · first | rfl | simp [Reg.ofBits_bits, runChk, illIf_none, ite_none, -Nat.reduceAdd, -BitVec.setWidth_eq, -BitVec.getElem_setWidth]
    · change Chk.result _ = _
      refine Chk.result_ok ?_ ?_ ?_ ?_ ?_ ?_ <;> simp [Reg.ofBits_bits, runChk, illIf_none, ite_none, -Nat.reduceAdd, -BitVec.setWidth_eq, -BitVec.getElem_setWidth, hw]

theorem plop (h : Head) (table : BitVec 8) (pd : BitVec 3) (pa : BitVec 3) (pb : BitVec 3) (pc : BitVec 3) : Statement (.plop h table pd pa pb pc) := by
  change (h.wf && predDst pd) = true → _
  intro hw
  try simp only [predDst, Src.wf, OpB.wf, Bool.and_eq_true, Bool.or_eq_true, Bool.not_eq_true', decide_eq_true_eq, ne_eq, BitVec.ofNat_eq_ofNat] at hw
  refine encodes_s64 (r := _) rfl ?_ ?_ rfl rfl ?_
  · simp [Reg.ofBits_bits, runChk, illIf_none, ite_none, halves8, -Nat.reduceAdd, -BitVec.setWidth_eq, -BitVec.getElem_setWidth, hw]
  · first | rfl | simp [Reg.ofBits_bits, runChk, illIf_none, ite_none, halves8, -Nat.reduceAdd, -BitVec.setWidth_eq, -BitVec.getElem_setWidth]
  · change Chk.result _ = _
    refine Chk.result_ok ?_ ?_ ?_ ?_ ?_ ?_ <;> simp [Reg.ofBits_bits, runChk, illIf_none, ite_none, halves8, -Nat.reduceAdd, -BitVec.setWidth_eq, -BitVec.getElem_setWidth, hw]

theorem idot4 (o : IntT) : Statement (.idot4 o) := fun h =>
  encodes_classA (r := encIntT 0x2C o) rfl (c := chkIntT (encIntT 0x2C o) .idot4 (· = .w32) true true) rfl (chkIntT_enc 0x2C o .idot4 (· = .w32) true true h)
    (IntT.wf_head (o := o) (w := fun w => w = .w32) (b := true) (c := true) h) (by show (0#10).extractLsb' 4 6 = 0; decide) rfl rfl

theorem idot2 (o : IntT) : Statement (.idot2 o) := fun h =>
  encodes_classA (r := encIntT 0x2D o) rfl (c := chkIntT (encIntT 0x2D o) .idot2 (· = .w32) true true) rfl (chkIntT_enc 0x2D o .idot2 (· = .w32) true true h)
    (IntT.wf_head (o := o) (w := fun w => w = .w32) (b := true) (c := true) h) (by show (0#10).extractLsb' 4 6 = 0; decide) rfl rfl

theorem movpRead (h : Head) (dst : Reg) : Statement (.movpRead h dst) := by
  change (h.wf && dst.dstWf) = true → _
  intro hw
  try simp only [Reg.dstWf, Src.wf, OpB.wf, Bool.and_eq_true, Bool.or_eq_true, Bool.not_eq_true', decide_eq_true_eq, ne_eq, BitVec.ofNat_eq_ofNat] at hw
  refine encodes_s64 (r := _) rfl ?_ ?_ rfl rfl ?_
  · simp [Reg.ofBits_bits, runChk, illIf_none, ite_none, -Nat.reduceAdd, -BitVec.setWidth_eq, -BitVec.getElem_setWidth, hw]
  · first | rfl | simp [Reg.ofBits_bits, runChk, illIf_none, ite_none, -Nat.reduceAdd, -BitVec.setWidth_eq, -BitVec.getElem_setWidth]
  · change (match (if mdW64 _ = true then some _ else some _) with | some c => Chk.result c | none => _) = _
    rw [if_neg (by simp [mdW64])]
    change Chk.result _ = _
    refine Chk.result_ok ?_ ?_ ?_ ?_ ?_ ?_ <;> simp [Reg.ofBits_bits, runChk, illIf_none, ite_none, -Nat.reduceAdd, -BitVec.setWidth_eq, -BitVec.getElem_setWidth, hw]

theorem movpWrite (h : Head) (mask : BitVec 7) (a : Src) : Statement (.movpWrite h mask a) := by
  change (h.wf && a.wf) = true → _
  intro hw
  try simp only [Src.wf, OpB.wf, Bool.and_eq_true, Bool.or_eq_true, Bool.not_eq_true', decide_eq_true_eq, ne_eq, BitVec.ofNat_eq_ofNat] at hw
  refine encodes_s64 (r := _) rfl ?_ ?_ rfl rfl ?_
  · simp [Reg.ofBits_bits, runChk, illIf_none, ite_none, -Nat.reduceAdd, -BitVec.setWidth_eq, -BitVec.getElem_setWidth, hw]
  · first | rfl | simp [Reg.ofBits_bits, runChk, illIf_none, ite_none, -Nat.reduceAdd, -BitVec.setWidth_eq, -BitVec.getElem_setWidth]
  · change (match (if mdW64 _ = true then some _ else some _) with | some c => Chk.result c | none => _) = _
    rw [if_pos (by simp [mdW64])]
    change Chk.result _ = _
    refine Chk.result_ok ?_ ?_ ?_ ?_ ?_ ?_ <;> simp [Reg.ofBits_bits, runChk, illIf_none, ite_none, -Nat.reduceAdd, -BitVec.setWidth_eq, -BitVec.getElem_setWidth, hw]

theorem movl (h : Head) (form : BitVec 2) (dst : Reg) (imm : BitVec 32) : Statement (.movl h form dst imm) := by
  change (h.wf && form ≠ 3 && dst.dstWf (if form = 0 then 1 else 2)) = true → _
  intro hw
  try simp only [Reg.dstWf, Src.wf, OpB.wf, Bool.and_eq_true, Bool.or_eq_true, Bool.not_eq_true', decide_eq_true_eq, ne_eq, BitVec.ofNat_eq_ofNat] at hw
  refine encodes_x96 (r := _) rfl ?_ rfl rfl rfl ?_
  · simp [Reg.ofBits_bits, runChk, illIf_none, ite_none, -Nat.reduceAdd, -BitVec.setWidth_eq, -BitVec.getElem_setWidth, hw]
  · change Chk.result _ = _
    refine Chk.result_ok ?_ ?_ ?_ ?_ ?_ ?_ <;> simp [Reg.ofBits_bits, runChk, illIf_none, ite_none, -Nat.reduceAdd, -BitVec.setWidth_eq, -BitVec.getElem_setWidth, hw]

theorem iaddl (h : Head) (w64 : Bool) (sgn : Bool) (sat : Bool) (dst : Reg) (a : Src) (imm : BitVec 32) : Statement (.iaddl h w64 sgn sat dst a imm) := by
  change (h.wf && dst.dstWf (wordsOf w64) && a.wf (wordsOf w64)) = true → _
  intro hw
  try simp only [Reg.dstWf, wordsOf, Src.wf, OpB.wf, Bool.and_eq_true, Bool.or_eq_true, Bool.not_eq_true', decide_eq_true_eq, ne_eq, BitVec.ofNat_eq_ofNat] at hw
  refine encodes_x96 (r := _) rfl ?_ rfl rfl rfl ?_
  · simp [Reg.ofBits_bits, runChk, illIf_none, ite_none, -Nat.reduceAdd, -BitVec.setWidth_eq, -BitVec.getElem_setWidth, hw]
  · change Chk.result _ = _
    refine Chk.result_ok ?_ ?_ ?_ ?_ ?_ ?_ <;> simp [Reg.ofBits_bits, runChk, illIf_none, ite_none, -Nat.reduceAdd, -BitVec.setWidth_eq, -BitVec.getElem_setWidth, hw]

theorem isetpl (h : Head) (w64 : Bool) (sgn : Bool) (cond : ICond) (pd : BitVec 3) (a : Src) (imm : BitVec 32) : Statement (.isetpl h w64 sgn cond pd a imm) := by
  change (h.wf && predDst pd && a.wf (wordsOf w64)) = true → _
  intro hw
  try simp only [predDst, wordsOf, Src.wf, OpB.wf, Bool.and_eq_true, Bool.or_eq_true, Bool.not_eq_true', decide_eq_true_eq, ne_eq, BitVec.ofNat_eq_ofNat] at hw
  refine encodes_x96 (r := _) rfl ?_ rfl rfl rfl ?_
  · simp [Reg.ofBits_bits, runChk, illIf_none, ite_none, -Nat.reduceAdd, -BitVec.setWidth_eq, -BitVec.getElem_setWidth, hw]
  · change Chk.result _ = _
    refine Chk.result_ok ?_ ?_ ?_ ?_ ?_ ?_ <;> simp [Reg.ofBits_bits, runChk, illIf_none, ite_none, -Nat.reduceAdd, -BitVec.setWidth_eq, -BitVec.getElem_setWidth, hw]

theorem fadd (o : FltB) : Statement (.fadd o) := fun h =>
  encodes_classA (r := encFltB 0x30 o) rfl (c := chkFltB (encFltB 0x30 o) .fadd FTy.any true true true) (by unfold classA; rw [encFltB_op]; rfl) (chkFltB_enc 0x30 o .fadd FTy.any true true h)
    (by rw [encFltB_h]; exact FltB.wf_head h) (by rw [encFltB_md2]; simp) (encFltB_imm ..) (encFltB_wide ..)

theorem fsub (o : FltB) : Statement (.fsub o) := fun h =>
  encodes_classA (r := encFltB 0x31 o) rfl (c := chkFltB (encFltB 0x31 o) .fsub FTy.any true true true) (by unfold classA; rw [encFltB_op]; rfl) (chkFltB_enc 0x31 o .fsub FTy.any true true h)
    (by rw [encFltB_h]; exact FltB.wf_head h) (by rw [encFltB_md2]; simp) (encFltB_imm ..) (encFltB_wide ..)

theorem fmul (o : FltB) : Statement (.fmul o) := fun h =>
  encodes_classA (r := encFltB 0x32 o) rfl (c := chkFltB (encFltB 0x32 o) .fmul FTy.any true true true) (by unfold classA; rw [encFltB_op]; rfl) (chkFltB_enc 0x32 o .fmul FTy.any true true h)
    (by rw [encFltB_h]; exact FltB.wf_head h) (by rw [encFltB_md2]; simp) (encFltB_imm ..) (encFltB_wide ..)

theorem ffma (o : FltT) : Statement (.ffma o) := fun h =>
  encodes_classA (r := encFltT 0x33 o) rfl (c := chkFltT (encFltT 0x33 o) .ffma FTy.any true true true FTy.words) rfl (chkFltT_enc 0x33 o .ffma FTy.any true true true FTy.words h)
    (FltT.wf_head (o := o) h) (md2Flt_s64 ..) rfl rfl

theorem fmin (o : FltB) : Statement (.fmin o) := fun h =>
  encodes_classA (r := encFltB 0x34 o) rfl (c := chkFltB (encFltB 0x34 o) .fmin FTy.any false false true) (by unfold classA; rw [encFltB_op]; rfl) (chkFltB_enc 0x34 o .fmin FTy.any false false h)
    (by rw [encFltB_h]; exact FltB.wf_head h) (by rw [encFltB_md2]; simp) (encFltB_imm ..) (encFltB_wide ..)

theorem fmax (o : FltB) : Statement (.fmax o) := fun h =>
  encodes_classA (r := encFltB 0x35 o) rfl (c := chkFltB (encFltB 0x35 o) .fmax FTy.any false false true) (by unfold classA; rw [encFltB_op]; rfl) (chkFltB_enc 0x35 o .fmax FTy.any false false h)
    (by rw [encFltB_h]; exact FltB.wf_head h) (by rw [encFltB_md2]; simp) (encFltB_imm ..) (encFltB_wide ..)

theorem fneg (o : FltU) : Statement (.fneg o) := fun h =>
  encodes_classA (r := encFltU 0x36 o) rfl (c := chkFltU (encFltU 0x36 o) .fneg FTy.any false true false true) rfl (chkFltU_enc 0x36 o .fneg FTy.any false true false true h)
    (FltU.wf_head (o := o) h) (md2Flt_s64 ..) rfl rfl

theorem fabs (o : FltU) : Statement (.fabs o) := fun h =>
  encodes_classA (r := encFltU 0x37 o) rfl (c := chkFltU (encFltU 0x37 o) .fabs FTy.any false true false true) rfl (chkFltU_enc 0x37 o .fabs FTy.any false true false true h)
    (FltU.wf_head (o := o) h) (md2Flt_s64 ..) rfl rfl

theorem fsetp (h : Head) (ty : FTy) (fzo : Bool) (cond : FCond) (pd : BitVec 3) (a : Src) (b : OpB) : Statement (.fsetp h ty fzo cond pd a b) := by
  change (h.wf && ty.scalar && predDst pd && a.wf ty.words && b.wf ty.words) = true → _
  intro hw
  cases b
  all_goals
    try simp only [predDst, Src.wf, OpB.wf, Bool.and_eq_true, Bool.or_eq_true, Bool.not_eq_true', decide_eq_true_eq, ne_eq, BitVec.ofNat_eq_ofNat] at hw
    refine encodes_s64 (r := _) rfl ?_ ?_ rfl rfl ?_
    · simp [Reg.ofBits_bits, runChk, illIf_none, ite_none, -Nat.reduceAdd, -BitVec.setWidth_eq, -BitVec.getElem_setWidth, hw]
    · first | rfl | simp [Reg.ofBits_bits, runChk, illIf_none, ite_none, -Nat.reduceAdd, -BitVec.setWidth_eq, -BitVec.getElem_setWidth]
    · change Chk.result _ = _
      refine Chk.result_ok ?_ ?_ ?_ ?_ ?_ ?_ <;> simp [Reg.ofBits_bits, runChk, illIf_none, ite_none, -Nat.reduceAdd, -BitVec.setWidth_eq, -BitVec.getElem_setWidth, hw, fltImmWf]

theorem fclass (o : FltU) : Statement (.fclass o) := fun h =>
  encodes_classA (r := encFltU 0x39 o) rfl (c := chkFltU (encFltU 0x39 o) .fclass FTy.any false false false false) rfl (chkFltU_enc 0x39 o .fclass FTy.any false false false false h)
    (FltU.wf_head (o := o) h) (md2Flt_s64 ..) rfl rfl

theorem fdiv (o : FltB) : Statement (.fdiv o) := fun h =>
  encodes_classA (r := encFltB 0x3A o) rfl (c := chkFltB (encFltB 0x3A o) .fdiv FTy.scalar true true true) (by unfold classA; rw [encFltB_op]; rfl) (chkFltB_enc 0x3A o .fdiv FTy.scalar true true h)
    (by rw [encFltB_h]; exact FltB.wf_head h) (by rw [encFltB_md2]; simp) (encFltB_imm ..) (encFltB_wide ..)

theorem fsqrt (o : FltU) : Statement (.fsqrt o) := fun h =>
  encodes_classA (r := encFltU 0x3B o) rfl (c := chkFltU (encFltU 0x3B o) .fsqrt FTy.scalar true true true true) rfl (chkFltU_enc 0x3B o .fsqrt FTy.scalar true true true true h)
    (FltU.wf_head (o := o) h) (md2Flt_s64 ..) rfl rfl

theorem frcp (o : FltU) : Statement (.frcp o) := fun h =>
  encodes_classA (r := encFltU 0x3c o) rfl (c := chkFltU (encFltU 0x3c o) .frcp FTy.special true true true true) rfl (chkFltU_enc 0x3c o .frcp FTy.special true true true true h)
    (FltU.wf_head (o := o) h) (md2Flt_s64 ..) rfl rfl

theorem frsq (o : FltU) : Statement (.frsq o) := fun h =>
  encodes_classA (r := encFltU 0x3d o) rfl (c := chkFltU (encFltU 0x3d o) .frsq FTy.special true true true true) rfl (chkFltU_enc 0x3d o .frsq FTy.special true true true true h)
    (FltU.wf_head (o := o) h) (md2Flt_s64 ..) rfl rfl

theorem fexp2 (o : FltU) : Statement (.fexp2 o) := fun h =>
  encodes_classA (r := encFltU 0x3e o) rfl (c := chkFltU (encFltU 0x3e o) .fexp2 FTy.special true true true true) rfl (chkFltU_enc 0x3e o .fexp2 FTy.special true true true true h)
    (FltU.wf_head (o := o) h) (md2Flt_s64 ..) rfl rfl

theorem flog2 (o : FltU) : Statement (.flog2 o) := fun h =>
  encodes_classA (r := encFltU 0x3f o) rfl (c := chkFltU (encFltU 0x3f o) .flog2 FTy.special true true true true) rfl (chkFltU_enc 0x3f o .flog2 FTy.special true true true true h)
    (FltU.wf_head (o := o) h) (md2Flt_s64 ..) rfl rfl

theorem fsin (o : FltU) : Statement (.fsin o) := fun h =>
  encodes_classA (r := encFltU 0x40 o) rfl (c := chkFltU (encFltU 0x40 o) .fsin FTy.special true true true true) rfl (chkFltU_enc 0x40 o .fsin FTy.special true true true true h)
    (FltU.wf_head (o := o) h) (md2Flt_s64 ..) rfl rfl

theorem fcos (o : FltU) : Statement (.fcos o) := fun h =>
  encodes_classA (r := encFltU 0x41 o) rfl (c := chkFltU (encFltU 0x41 o) .fcos FTy.special true true true true) rfl (chkFltU_enc 0x41 o .fcos FTy.special true true true true h)
    (FltU.wf_head (o := o) h) (md2Flt_s64 ..) rfl rfl

theorem ftanh (o : FltU) : Statement (.ftanh o) := fun h =>
  encodes_classA (r := encFltU 0x42 o) rfl (c := chkFltU (encFltU 0x42 o) .ftanh FTy.special true true true true) rfl (chkFltU_enc 0x42 o .ftanh FTy.special true true true true h)
    (FltU.wf_head (o := o) h) (md2Flt_s64 ..) rfl rfl

theorem frnd (o : FltU) : Statement (.frnd o) := fun h =>
  encodes_classA (r := encFltU 0x43 o) rfl (c := chkFltU (encFltU 0x43 o) .frnd FTy.any true true false true) rfl (chkFltU_enc 0x43 o .frnd FTy.any true true false true h)
    (FltU.wf_head (o := o) h) (md2Flt_s64 ..) rfl rfl

theorem cvt (o : CvtO) : Statement (.cvt o) := by
  change (o.wf false) = true → _
  intro hw
  obtain ⟨h, r, f, st, dt, ns, d, a⟩ := o
  all_goals
    try simp only [Src.wf, OpB.wf, Reg.dstWf, Reg.dstNoQ, Src.wfNoQ, wordsOf, XtO.wf, AtomO.wf, CvtO.wf, PackO.wf, Bool.and_eq_true, Bool.or_eq_true, Bool.not_eq_true', decide_eq_true_eq, ne_eq, Bool.and_true, Bool.and_false, Bool.true_eq_false, Bool.false_eq_true, false_or, true_or, true_and, and_true, BitVec.ofNat_eq_ofNat] at hw
    refine encodes_s64 (r := _) rfl ?_ ?_ rfl rfl ?_
    · simp [Reg.ofBits_bits, runChk, illIf_none, ite_none, encCvt, chkCvt, -Nat.reduceAdd, -BitVec.setWidth_eq, -BitVec.getElem_setWidth, hw]
    · first | rfl | simp [Reg.ofBits_bits, runChk, illIf_none, ite_none, encCvt, chkCvt, -Nat.reduceAdd, -BitVec.setWidth_eq, -BitVec.getElem_setWidth]
    · change Chk.result _ = _
      refine Chk.result_ok ?_ ?_ ?_ ?_ ?_ ?_ <;> simp [Reg.ofBits_bits, runChk, illIf_none, ite_none, encCvt, chkCvt, -Nat.reduceAdd, -BitVec.setWidth_eq, -BitVec.getElem_setWidth, hw]

theorem cvts (o : CvtO) : Statement (.cvts o) := by
  change (o.wf true) = true → _
  intro hw
  obtain ⟨h, r, f, st, dt, ns, d, a⟩ := o <;> cases r <;> (try (simp [PackO.wf, CvtO.wf] at hw; done))
  all_goals
    try simp only [Src.wf, OpB.wf, Reg.dstWf, Reg.dstNoQ, Src.wfNoQ, wordsOf, XtO.wf, AtomO.wf, CvtO.wf, PackO.wf, Bool.and_eq_true, Bool.or_eq_true, Bool.not_eq_true', decide_eq_true_eq, ne_eq, Option.map_some, Option.getD_some, Bool.true_eq_false, Bool.false_eq_true, Bool.and_true, Bool.and_false, false_or, true_or, true_and, and_true, BitVec.ofNat_eq_ofNat] at hw
    refine encodes_s64 (r := _) rfl ?_ ?_ rfl rfl ?_
    · simp [Reg.ofBits_bits, runChk, illIf_none, ite_none, encCvt, chkCvt, -Nat.reduceAdd, -BitVec.setWidth_eq, -BitVec.getElem_setWidth, hw]
    · first | rfl | simp [Reg.ofBits_bits, runChk, illIf_none, ite_none, encCvt, chkCvt, -Nat.reduceAdd, -BitVec.setWidth_eq, -BitVec.getElem_setWidth]
    · change Chk.result _ = _
      refine Chk.result_ok ?_ ?_ ?_ ?_ ?_ ?_ <;> simp [Reg.ofBits_bits, runChk, illIf_none, ite_none, encCvt, chkCvt, -Nat.reduceAdd, -BitVec.setWidth_eq, -BitVec.getElem_setWidth, hw]

theorem pack (o : PackO) : Statement (.pack o) := by
  change (o.wf) = true → _
  intro hw
  obtain ⟨h, r, t, ns, pos, d, a, b, c⟩ := o <;> cases c <;> cases t <;> (try (simp [PackO.wf, CvtO.wf] at hw; done)) <;> cases ns <;> (try (simp [PackO.wf, CvtO.wf] at hw; done))
  all_goals
    try simp only [Src.wf, OpB.wf, Reg.dstWf, Reg.dstNoQ, Src.wfNoQ, wordsOf, XtO.wf, AtomO.wf, CvtO.wf, PackO.wf, Bool.and_eq_true, Bool.or_eq_true, Bool.not_eq_true', decide_eq_true_eq, ne_eq, Option.map_some, Option.getD_some, Bool.true_eq_false, Bool.false_eq_true, Bool.and_true, Bool.and_false, false_or, true_or, true_and, and_true, BitVec.ofNat_eq_ofNat] at hw
    refine encodes_s64 (r := _) rfl ?_ ?_ rfl rfl ?_
    · simp [Reg.ofBits_bits, runChk, illIf_none, ite_none, chkPack, -Nat.reduceAdd, -BitVec.setWidth_eq, -BitVec.getElem_setWidth, hw]
    · first | rfl | simp [Reg.ofBits_bits, runChk, illIf_none, ite_none, chkPack, -Nat.reduceAdd, -BitVec.setWidth_eq, -BitVec.getElem_setWidth]
    · change Chk.result _ = _
      refine Chk.result_ok ?_ ?_ ?_ ?_ ?_ ?_ <;> simp [Reg.ofBits_bits, runChk, illIf_none, ite_none, chkPack, -Nat.reduceAdd, -BitVec.setWidth_eq, -BitVec.getElem_setWidth, hw, PTy.bits, PTy.ofBits?]

theorem unpk (h : Head) (ty : PTy) (dst : Reg) (a : Src) (idx : OpB) : Statement (.unpk h ty dst a idx) := by
  change (h.wf && dst.dstWf && a.wf && idx.wf) = true → _
  intro hw
  cases idx
  all_goals
    try simp only [Reg.dstWf, Src.wf, OpB.wf, Bool.and_eq_true, Bool.or_eq_true, Bool.not_eq_true', decide_eq_true_eq, ne_eq, BitVec.ofNat_eq_ofNat] at hw
    refine encodes_s64 (r := _) rfl ?_ ?_ rfl rfl ?_
    · simp [Reg.ofBits_bits, runChk, illIf_none, ite_none, -Nat.reduceAdd, -BitVec.setWidth_eq, -BitVec.getElem_setWidth, hw]
    · first | rfl | simp [Reg.ofBits_bits, runChk, illIf_none, ite_none, -Nat.reduceAdd, -BitVec.setWidth_eq, -BitVec.getElem_setWidth]
    · change Chk.result _ = _
      refine Chk.result_ok ?_ ?_ ?_ ?_ ?_ ?_ <;> simp [Reg.ofBits_bits, runChk, illIf_none, ite_none, -Nat.reduceAdd, -BitVec.setWidth_eq, -BitVec.getElem_setWidth, hw]

theorem fdot2 (o : FltT) : Statement (.fdot2 o) := fun h =>
  encodes_classA (r := encFltT 0x48 o) rfl (c := chkFltT (encFltT 0x48 o) .fdot2 FTy.halves false false false (fun _ => 1)) rfl (chkFltT_enc 0x48 o .fdot2 FTy.halves false false false (fun _ => 1) h)
    (FltT.wf_head (o := o) h) (md2Flt_s64 ..) rfl rfl

theorem fscl (o : FltB) : Statement (.fscl o) := by
  change (o.h.wf && o.dst.dstWf o.ty.words && o.a.wf o.ty.words && o.b.wf && !o.b.isImm) = true → _
  intro hw
  obtain ⟨h, ty, rnd, fzo, clamp, dst, a, b⟩ := o <;> cases b <;> (try (simp [OpB.isImm] at hw; done))
  all_goals
    try simp only [Reg.dstWf, Src.wf, OpB.wf, OpB.isImm, Bool.and_eq_true, Bool.or_eq_true, Bool.not_eq_true', decide_eq_true_eq, ne_eq, Option.map_some, Option.getD_some, Bool.true_eq_false, Bool.false_eq_true, Bool.and_true, Bool.and_false, false_or, true_or, true_and, and_true, BitVec.ofNat_eq_ofNat] at hw
    refine encodes_s64 (r := _) rfl ?_ ?_ rfl rfl ?_
    · simp [Reg.ofBits_bits, runChk, illIf_none, ite_none, encFltB, chkFltB, -Nat.reduceAdd, -BitVec.setWidth_eq, -BitVec.getElem_setWidth, hw]
    · first | rfl | simp [Reg.ofBits_bits, runChk, illIf_none, ite_none, encFltB, chkFltB, -Nat.reduceAdd, -BitVec.setWidth_eq, -BitVec.getElem_setWidth]
    · change Chk.result _ = _
      refine Chk.result_ok ?_ ?_ ?_ ?_ ?_ ?_ <;> simp [Reg.ofBits_bits, runChk, illIf_none, ite_none, encFltB, chkFltB, -Nat.reduceAdd, -BitVec.setWidth_eq, -BitVec.getElem_setWidth, hw, fltImmWf, FTy.any]

theorem fexpn (o : FltB) : Statement (.fexpn o) := by
  change (o.h.wf && o.ty = .f32 && o.dst.dstWf && o.a.wf && o.b.wf && !o.b.isImm) = true → _
  intro hw
  obtain ⟨h, ty, rnd, fzo, clamp, dst, a, b⟩ := o <;> cases b <;> (try (simp [OpB.isImm] at hw; done)) <;> cases ty <;> (try (simp [OpB.isImm] at hw; done))
  all_goals
    try simp only [Reg.dstWf, Src.wf, OpB.wf, OpB.isImm, Bool.and_eq_true, Bool.or_eq_true, Bool.not_eq_true', decide_eq_true_eq, ne_eq, Option.map_some, Option.getD_some, Bool.true_eq_false, Bool.false_eq_true, Bool.and_true, Bool.and_false, false_or, true_or, true_and, and_true, BitVec.ofNat_eq_ofNat] at hw
    refine encodes_s64 (r := _) rfl ?_ ?_ rfl rfl ?_
    · simp [Reg.ofBits_bits, runChk, illIf_none, ite_none, encFltB, chkFltB, -Nat.reduceAdd, -BitVec.setWidth_eq, -BitVec.getElem_setWidth, hw]
    · first | rfl | simp [Reg.ofBits_bits, runChk, illIf_none, ite_none, encFltB, chkFltB, -Nat.reduceAdd, -BitVec.setWidth_eq, -BitVec.getElem_setWidth]
    · change Chk.result _ = _
      refine Chk.result_ok ?_ ?_ ?_ ?_ ?_ ?_ <;> simp [Reg.ofBits_bits, runChk, illIf_none, ite_none, encFltB, chkFltB, -Nat.reduceAdd, -BitVec.setWidth_eq, -BitVec.getElem_setWidth, hw, fltImmWf, FTy.ofBits, FTy.words]

theorem fusedSoftmax (m : FltB) (e : FltB) (c : FltB) (s : FltT) : Statement (.fusedSoftmax m e c s) := fun h => absurd h Bool.false_ne_true

theorem vote (h : Head) (form : VoteForm) (p : BitVec 3) (mask : Src) : Statement (.vote h form p mask) := by
  change (h.wf && mask.wfNoQ 2 && (match form with
      | .all pd | .any pd | .eq pd => predDst pd
      | .bal d => d.dstNoQ 2)) = true → _
  intro hw
  cases form
  all_goals
    try simp only [Reg.dstNoQ, Reg.dstWf, Src.wfNoQ, Src.wf, predDst, OpB.wf, Bool.and_eq_true, Bool.or_eq_true, Bool.not_eq_true', decide_eq_true_eq, ne_eq, BitVec.ofNat_eq_ofNat] at hw
    refine encodes_s64 (r := _) rfl ?_ ?_ rfl rfl ?_
    · simp [Reg.ofBits_bits, runChk, illIf_none, ite_none, -Nat.reduceAdd, -BitVec.setWidth_eq, -BitVec.getElem_setWidth, hw]
    · first | rfl | simp [Reg.ofBits_bits, runChk, illIf_none, ite_none, -Nat.reduceAdd, -BitVec.setWidth_eq, -BitVec.getElem_setWidth]
    · change Chk.result _ = _
      refine Chk.result_ok ?_ ?_ ?_ ?_ ?_ ?_ <;> simp [Reg.ofBits_bits, runChk, illIf_none, ite_none, -Nat.reduceAdd, -BitVec.setWidth_eq, -BitVec.getElem_setWidth, hw]

theorem shfl (o : XtO) (idx : Src) : Statement (.shfl o idx) := by
  change (o.wf && idx.wfNoQ) = true → _
  intro hw
  try simp only [Src.wfNoQ, Src.wf, OpB.wf, Reg.dstWf, Reg.dstNoQ, wordsOf, XtO.wf, AtomO.wf, CvtO.wf, PackO.wf, Bool.and_eq_true, Bool.or_eq_true, Bool.not_eq_true', decide_eq_true_eq, ne_eq, BitVec.ofNat_eq_ofNat] at hw
  refine encodes_s64 (r := _) rfl ?_ ?_ rfl rfl ?_
  · simp [Reg.ofBits_bits, runChk, illIf_none, ite_none, chkXt, encXt, -Nat.reduceAdd, -BitVec.setWidth_eq, -BitVec.getElem_setWidth, hw]
  · first | rfl | simp [Reg.ofBits_bits, runChk, illIf_none, ite_none, chkXt, encXt, -Nat.reduceAdd, -BitVec.setWidth_eq, -BitVec.getElem_setWidth]
  · change runChk (if _ = true then some _ else some _) = _
    refine (congrArg runChk (if_neg ?_)).trans ?_
    · simp [encXt]
    change Chk.result _ = _
    refine Chk.result_ok ?_ ?_ ?_ ?_ ?_ ?_ <;> simp [Reg.ofBits_bits, runChk, illIf_none, ite_none, chkXt, encXt, -Nat.reduceAdd, -BitVec.setWidth_eq, -BitVec.getElem_setWidth, hw]

theorem shflGive (h : Head) (w64 : Bool) (dst : Reg) (a : Src) (tgt : Src) : Statement (.shflGive h w64 dst a tgt) := by
  change (h.wf && dst.dstNoQ (wordsOf w64) && a.wfNoQ (wordsOf w64) && tgt.wfNoQ) = true → _
  intro hw
  try simp only [Reg.dstNoQ, Reg.dstWf, Src.wfNoQ, Src.wf, wordsOf, OpB.wf, Bool.and_eq_true, Bool.or_eq_true, Bool.not_eq_true', decide_eq_true_eq, ne_eq, BitVec.ofNat_eq_ofNat] at hw
  refine encodes_s64 (r := _) rfl ?_ ?_ rfl rfl ?_
  · simp [Reg.ofBits_bits, runChk, illIf_none, ite_none, -Nat.reduceAdd, -BitVec.setWidth_eq, -BitVec.getElem_setWidth, hw]
  · first | rfl | simp [Reg.ofBits_bits, runChk, illIf_none, ite_none, -Nat.reduceAdd, -BitVec.setWidth_eq, -BitVec.getElem_setWidth]
  · change runChk (if (BitVec.getLsbD (BitVec.setWidth 4 (1#1 ++ BitVec.ofBool w64)) 1) = true then some _ else some _) = _
    refine (congrArg runChk (if_pos ?_)).trans ?_
    · cases w64 <;> decide
    change Chk.result _ = _
    refine Chk.result_ok ?_ ?_ ?_ ?_ ?_ ?_ <;> simp [Reg.ofBits_bits, runChk, illIf_none, ite_none, -Nat.reduceAdd, -BitVec.setWidth_eq, -BitVec.getElem_setWidth, hw]

theorem slup (o : XtO) (dist : Src) : Statement (.slup o dist) := by
  change (o.wf && dist.wfNoQ) = true → _
  intro hw
  try simp only [Src.wfNoQ, Src.wf, OpB.wf, Reg.dstWf, Reg.dstNoQ, wordsOf, XtO.wf, AtomO.wf, CvtO.wf, PackO.wf, Bool.and_eq_true, Bool.or_eq_true, Bool.not_eq_true', decide_eq_true_eq, ne_eq, BitVec.ofNat_eq_ofNat] at hw
  refine encodes_s64 (r := _) rfl ?_ ?_ rfl rfl ?_
  · simp [Reg.ofBits_bits, runChk, illIf_none, ite_none, chkXt, encXt, -Nat.reduceAdd, -BitVec.setWidth_eq, -BitVec.getElem_setWidth, hw]
  · first | rfl | simp [Reg.ofBits_bits, runChk, illIf_none, ite_none, chkXt, encXt, -Nat.reduceAdd, -BitVec.setWidth_eq, -BitVec.getElem_setWidth]
  · change Chk.result _ = _
    refine Chk.result_ok ?_ ?_ ?_ ?_ ?_ ?_ <;> simp [Reg.ofBits_bits, runChk, illIf_none, ite_none, chkXt, encXt, -Nat.reduceAdd, -BitVec.setWidth_eq, -BitVec.getElem_setWidth, hw]

theorem sldn (o : XtO) (dist : Src) : Statement (.sldn o dist) := by
  change (o.wf && dist.wfNoQ) = true → _
  intro hw
  try simp only [Src.wfNoQ, Src.wf, OpB.wf, Reg.dstWf, Reg.dstNoQ, wordsOf, XtO.wf, AtomO.wf, CvtO.wf, PackO.wf, Bool.and_eq_true, Bool.or_eq_true, Bool.not_eq_true', decide_eq_true_eq, ne_eq, BitVec.ofNat_eq_ofNat] at hw
  refine encodes_s64 (r := _) rfl ?_ ?_ rfl rfl ?_
  · simp [Reg.ofBits_bits, runChk, illIf_none, ite_none, chkXt, encXt, -Nat.reduceAdd, -BitVec.setWidth_eq, -BitVec.getElem_setWidth, hw]
  · first | rfl | simp [Reg.ofBits_bits, runChk, illIf_none, ite_none, chkXt, encXt, -Nat.reduceAdd, -BitVec.setWidth_eq, -BitVec.getElem_setWidth]
  · change Chk.result _ = _
    refine Chk.result_ok ?_ ?_ ?_ ?_ ?_ ?_ <;> simp [Reg.ofBits_bits, runChk, illIf_none, ite_none, chkXt, encXt, -Nat.reduceAdd, -BitVec.setWidth_eq, -BitVec.getElem_setWidth, hw]

theorem cmpr (o : XtO) (p : BitVec 3) : Statement (.cmpr o p) := by
  change (o.wf) = true → _
  intro hw
  try simp only [Src.wf, OpB.wf, Reg.dstWf, Reg.dstNoQ, Src.wfNoQ, wordsOf, XtO.wf, AtomO.wf, CvtO.wf, PackO.wf, Bool.and_eq_true, Bool.or_eq_true, Bool.not_eq_true', decide_eq_true_eq, ne_eq, BitVec.ofNat_eq_ofNat] at hw
  refine encodes_s64 (r := _) rfl ?_ ?_ rfl rfl ?_
  · simp [Reg.ofBits_bits, runChk, illIf_none, ite_none, chkXt, encXt, -Nat.reduceAdd, -BitVec.setWidth_eq, -BitVec.getElem_setWidth, hw]
  · first | rfl | simp [Reg.ofBits_bits, runChk, illIf_none, ite_none, chkXt, encXt, -Nat.reduceAdd, -BitVec.setWidth_eq, -BitVec.getElem_setWidth]
  · change Chk.result _ = _
    refine Chk.result_ok ?_ ?_ ?_ ?_ ?_ ?_ <;> simp [Reg.ofBits_bits, runChk, illIf_none, ite_none, chkXt, encXt, -Nat.reduceAdd, -BitVec.setWidth_eq, -BitVec.getElem_setWidth, hw]

theorem expd (o : XtO) (p : BitVec 3) : Statement (.expd o p) := by
  change (o.wf) = true → _
  intro hw
  try simp only [Src.wf, OpB.wf, Reg.dstWf, Reg.dstNoQ, Src.wfNoQ, wordsOf, XtO.wf, AtomO.wf, CvtO.wf, PackO.wf, Bool.and_eq_true, Bool.or_eq_true, Bool.not_eq_true', decide_eq_true_eq, ne_eq, BitVec.ofNat_eq_ofNat] at hw
  refine encodes_s64 (r := _) rfl ?_ ?_ rfl rfl ?_
  · simp [Reg.ofBits_bits, runChk, illIf_none, ite_none, chkXt, encXt, -Nat.reduceAdd, -BitVec.setWidth_eq, -BitVec.getElem_setWidth, hw]
  · first | rfl | simp [Reg.ofBits_bits, runChk, illIf_none, ite_none, chkXt, encXt, -Nat.reduceAdd, -BitVec.setWidth_eq, -BitVec.getElem_setWidth]
  · change Chk.result _ = _
    refine Chk.result_ok ?_ ?_ ?_ ?_ ?_ ?_ <;> simp [Reg.ofBits_bits, runChk, illIf_none, ite_none, chkXt, encXt, -Nat.reduceAdd, -BitVec.setWidth_eq, -BitVec.getElem_setWidth, hw]

theorem redc (h : Head) (op : ROp) (dst : Reg) (a : Src) (mask : Src) : Statement (.redc h op dst a mask) := by
  change (h.wf && dst.dstNoQ (wordsOf op.w64) && a.wfNoQ (wordsOf op.w64) && mask.wfNoQ 2) = true → _
  intro hw
  try simp only [Reg.dstNoQ, Reg.dstWf, Src.wfNoQ, Src.wf, wordsOf, OpB.wf, Bool.and_eq_true, Bool.or_eq_true, Bool.not_eq_true', decide_eq_true_eq, ne_eq, BitVec.ofNat_eq_ofNat] at hw
  refine encodes_s64 (r := _) rfl ?_ ?_ rfl rfl ?_
  · simp [Reg.ofBits_bits, runChk, illIf_none, ite_none, chkFold, -Nat.reduceAdd, -BitVec.setWidth_eq, -BitVec.getElem_setWidth, hw]
  · first | rfl | simp [Reg.ofBits_bits, runChk, illIf_none, ite_none, chkFold, -Nat.reduceAdd, -BitVec.setWidth_eq, -BitVec.getElem_setWidth]
  · change Chk.result _ = _
    refine Chk.result_ok ?_ ?_ ?_ ?_ ?_ ?_ <;> simp [Reg.ofBits_bits, runChk, illIf_none, ite_none, chkFold, -Nat.reduceAdd, -BitVec.setWidth_eq, -BitVec.getElem_setWidth, hw]

theorem scan (h : Head) (op : ROp) (excl : Bool) (dst : Reg) (a : Src) (mask : Src) : Statement (.scan h op excl dst a mask) := by
  change (h.wf && dst.dstNoQ (wordsOf op.w64) && a.wfNoQ (wordsOf op.w64) && mask.wfNoQ 2) = true → _
  intro hw
  try simp only [Reg.dstNoQ, Reg.dstWf, Src.wfNoQ, Src.wf, wordsOf, OpB.wf, Bool.and_eq_true, Bool.or_eq_true, Bool.not_eq_true', decide_eq_true_eq, ne_eq, BitVec.ofNat_eq_ofNat] at hw
  refine encodes_s64 (r := _) rfl ?_ ?_ rfl rfl ?_
  · simp [Reg.ofBits_bits, runChk, illIf_none, ite_none, chkFold, -Nat.reduceAdd, -BitVec.setWidth_eq, -BitVec.getElem_setWidth, hw]
  · first | rfl | simp [Reg.ofBits_bits, runChk, illIf_none, ite_none, chkFold, -Nat.reduceAdd, -BitVec.setWidth_eq, -BitVec.getElem_setWidth]
  · change Chk.result _ = _
    refine Chk.result_ok ?_ ?_ ?_ ?_ ?_ ?_ <;> simp [Reg.ofBits_bits, runChk, illIf_none, ite_none, chkFold, -Nat.reduceAdd, -BitVec.setWidth_eq, -BitVec.getElem_setWidth, hw]

theorem xmatch (o : XtO) : Statement (.xmatch o) := by
  change (o.h.wf && o.dst.dstNoQ 2 && o.a.wfNoQ (wordsOf o.w64) && o.mask.wfNoQ 2) = true → _
  intro hw
  try simp only [Reg.dstNoQ, Reg.dstWf, Src.wfNoQ, Src.wf, wordsOf, OpB.wf, Bool.and_eq_true, Bool.or_eq_true, Bool.not_eq_true', decide_eq_true_eq, ne_eq, BitVec.ofNat_eq_ofNat] at hw
  refine encodes_s64 (r := _) rfl ?_ ?_ rfl rfl ?_
  · simp [Reg.ofBits_bits, runChk, illIf_none, ite_none, chkXt, encXt, -Nat.reduceAdd, -BitVec.setWidth_eq, -BitVec.getElem_setWidth, hw]
  · first | rfl | simp [Reg.ofBits_bits, runChk, illIf_none, ite_none, chkXt, encXt, -Nat.reduceAdd, -BitVec.setWidth_eq, -BitVec.getElem_setWidth]
  · change Chk.result _ = _
    refine Chk.result_ok ?_ ?_ ?_ ?_ ?_ ?_ <;> simp [Reg.ofBits_bits, runChk, illIf_none, ite_none, chkXt, encXt, -Nat.reduceAdd, -BitVec.setWidth_eq, -BitVec.getElem_setWidth, hw]

theorem unif (o : XtO) : Statement (.unif o) := by
  change (o.wf) = true → _
  intro hw
  try simp only [Src.wf, OpB.wf, Reg.dstWf, Reg.dstNoQ, Src.wfNoQ, wordsOf, XtO.wf, AtomO.wf, CvtO.wf, PackO.wf, Bool.and_eq_true, Bool.or_eq_true, Bool.not_eq_true', decide_eq_true_eq, ne_eq, BitVec.ofNat_eq_ofNat] at hw
  refine encodes_s64 (r := _) rfl ?_ ?_ rfl rfl ?_
  · simp [Reg.ofBits_bits, runChk, illIf_none, ite_none, chkXt, encXt, -Nat.reduceAdd, -BitVec.setWidth_eq, -BitVec.getElem_setWidth, hw]
  · first | rfl | simp [Reg.ofBits_bits, runChk, illIf_none, ite_none, chkXt, encXt, -Nat.reduceAdd, -BitVec.setWidth_eq, -BitVec.getElem_setWidth]
  · change Chk.result _ = _
    refine Chk.result_ok ?_ ?_ ?_ ?_ ?_ ?_ <;> simp [Reg.ofBits_bits, runChk, illIf_none, ite_none, chkXt, encXt, -Nat.reduceAdd, -BitVec.setWidth_eq, -BitVec.getElem_setWidth, hw]

theorem ld (o : MemO) : Statement (.ld o) := by
  change (o.h.wf && o.reg.dstNoQ o.size.words && o.base.wf 2 && hintWf o.policy o.hint) = true → _
  intro hw
  try simp only [Reg.dstNoQ, Reg.dstWf, Src.wf, OpB.wf, Bool.and_eq_true, Bool.or_eq_true, Bool.not_eq_true', decide_eq_true_eq, ne_eq, BitVec.ofNat_eq_ofNat] at hw
  refine encodes_s64 (r := _) rfl ?_ ?_ rfl rfl ?_
  · simp [Reg.ofBits_bits, runChk, illIf_none, ite_none, chkMem, encMem, -Nat.reduceAdd, -BitVec.setWidth_eq, -BitVec.getElem_setWidth, hw]
  · first | rfl | simp [Reg.ofBits_bits, runChk, illIf_none, ite_none, chkMem, encMem, -Nat.reduceAdd, -BitVec.setWidth_eq, -BitVec.getElem_setWidth]
  · change Chk.result _ = _
    refine Chk.result_ok ?_ ?_ ?_ ?_ ?_ ?_ <;> simp [Reg.ofBits_bits, runChk, illIf_none, ite_none, chkMem, encMem, -Nat.reduceAdd, -BitVec.setWidth_eq, -BitVec.getElem_setWidth, hw]

theorem ldl (o : MemL) : Statement (.ldl o) := by
  change (o.h.wf && o.reg.dstNoQ o.size.words && o.base.wf 2 && hintWf o.policy o.hint) = true → _
  intro hw
  try simp only [Reg.dstNoQ, Reg.dstWf, Src.wf, OpB.wf, Bool.and_eq_true, Bool.or_eq_true, Bool.not_eq_true', decide_eq_true_eq, ne_eq, BitVec.ofNat_eq_ofNat] at hw
  refine encodes_x96 (r := _) rfl ?_ rfl rfl rfl ?_
  · simp [Reg.ofBits_bits, runChk, illIf_none, ite_none, chkMemL, encMemL, -Nat.reduceAdd, -BitVec.setWidth_eq, -BitVec.getElem_setWidth, hw]
  · change Chk.result _ = _
    refine Chk.result_ok ?_ ?_ ?_ ?_ ?_ ?_ <;> simp [Reg.ofBits_bits, runChk, illIf_none, ite_none, chkMemL, encMemL, -Nat.reduceAdd, -BitVec.setWidth_eq, -BitVec.getElem_setWidth, hw]

theorem st (o : MemO) : Statement (.st o) := by
  change (o.h.wf && o.reg.wf && o.reg.aligned o.size.words && o.base.wf 2 && hintWf o.policy o.hint) = true → _
  intro hw
  try simp only [Src.wf, OpB.wf, Bool.and_eq_true, Bool.or_eq_true, Bool.not_eq_true', decide_eq_true_eq, ne_eq, BitVec.ofNat_eq_ofNat] at hw
  refine encodes_s64 (r := _) rfl ?_ ?_ rfl rfl ?_
  · simp [Reg.ofBits_bits, runChk, illIf_none, ite_none, chkMem, encMem, -Nat.reduceAdd, -BitVec.setWidth_eq, -BitVec.getElem_setWidth, hw]
  · first | rfl | simp [Reg.ofBits_bits, runChk, illIf_none, ite_none, chkMem, encMem, -Nat.reduceAdd, -BitVec.setWidth_eq, -BitVec.getElem_setWidth]
  · change Chk.result _ = _
    refine Chk.result_ok ?_ ?_ ?_ ?_ ?_ ?_ <;> simp [Reg.ofBits_bits, runChk, illIf_none, ite_none, chkMem, encMem, -Nat.reduceAdd, -BitVec.setWidth_eq, -BitVec.getElem_setWidth, hw]

theorem stl (o : MemL) : Statement (.stl o) := by
  change (o.h.wf && o.reg.wf && o.reg.aligned o.size.words && o.base.wf 2 && hintWf o.policy o.hint) = true → _
  intro hw
  try simp only [Src.wf, OpB.wf, Bool.and_eq_true, Bool.or_eq_true, Bool.not_eq_true', decide_eq_true_eq, ne_eq, BitVec.ofNat_eq_ofNat] at hw
  refine encodes_x96 (r := _) rfl ?_ rfl rfl rfl ?_
  · simp [Reg.ofBits_bits, runChk, illIf_none, ite_none, chkMemL, encMemL, -Nat.reduceAdd, -BitVec.setWidth_eq, -BitVec.getElem_setWidth, hw]
  · change Chk.result _ = _
    refine Chk.result_ok ?_ ?_ ?_ ?_ ?_ ?_ <;> simp [Reg.ofBits_bits, runChk, illIf_none, ite_none, chkMemL, encMemL, -Nat.reduceAdd, -BitVec.setWidth_eq, -BitVec.getElem_setWidth, hw]

theorem cstr (o : CstrO) : Statement (.cstr o) := by
  change (o.h.wf && o.data.wf (wordsOf o.w64) && o.data.wait && o.base.wf 2 && o.mask.wf 2 && o.cnt.dstWf && hintWf 0 o.hint) = true → _
  intro hw
  obtain ⟨h, w, ⟨dr, dw⟩, b, m, c, k, n, i⟩ := o
  all_goals
    try simp only [Reg.dstWf, wordsOf, Src.wf, OpB.wf, Bool.and_eq_true, Bool.or_eq_true, Bool.not_eq_true', decide_eq_true_eq, ne_eq, BitVec.ofNat_eq_ofNat] at hw
    refine encodes_s64 (r := _) rfl ?_ ?_ rfl rfl ?_
    · simp [Reg.ofBits_bits, runChk, illIf_none, ite_none, -Nat.reduceAdd, -BitVec.setWidth_eq, -BitVec.getElem_setWidth, hw]
    · first | rfl | simp [Reg.ofBits_bits, runChk, illIf_none, ite_none, -Nat.reduceAdd, -BitVec.setWidth_eq, -BitVec.getElem_setWidth]
    · change Chk.result _ = _
      refine Chk.result_ok ?_ ?_ ?_ ?_ ?_ ?_ <;> simp [Reg.ofBits_bits, runChk, illIf_none, ite_none, -Nat.reduceAdd, -BitVec.setWidth_eq, -BitVec.getElem_setWidth, hw]

theorem pref (h : Head) (xlat : Bool) (base : Src) (disp : BitVec 18) (policy : BitVec 2) (hint : BitVec 5) : Statement (.pref h xlat base disp policy hint) := by
  change (h.wf && base.wf 2 && hintWf policy hint) = true → _
  intro hw
  try simp only [Src.wf, OpB.wf, Bool.and_eq_true, Bool.or_eq_true, Bool.not_eq_true', decide_eq_true_eq, ne_eq, BitVec.ofNat_eq_ofNat] at hw
  refine encodes_s64 (r := _) rfl ?_ ?_ rfl rfl ?_
  · simp [Reg.ofBits_bits, runChk, illIf_none, ite_none, -Nat.reduceAdd, -BitVec.setWidth_eq, -BitVec.getElem_setWidth, hw]
  · first | rfl | simp [Reg.ofBits_bits, runChk, illIf_none, ite_none, -Nat.reduceAdd, -BitVec.setWidth_eq, -BitVec.getElem_setWidth]
  · change Chk.result _ = _
    refine Chk.result_ok ?_ ?_ ?_ ?_ ?_ ?_ <;> simp [Reg.ofBits_bits, runChk, illIf_none, ite_none, -Nat.reduceAdd, -BitVec.setWidth_eq, -BitVec.getElem_setWidth, hw]

theorem bref (h : Head) (w64 : Bool) (dst : Reg) (idx : Src) (off : OpB) : Statement (.bref h w64 dst idx off) := by
  change (h.wf && dst.dstNoQ 2 && idx.wf && off.wf (wordsOf w64) && !(w64 && off.isImm)) = true → _
  intro hw
  cases off
  all_goals
    try simp only [Reg.dstNoQ, Reg.dstWf, wordsOf, Src.wf, OpB.wf, OpB.isImm, Bool.and_eq_true, Bool.or_eq_true, Bool.not_eq_true', decide_eq_true_eq, ne_eq, Bool.and_true, Bool.and_false, Bool.true_eq_false, Bool.false_eq_true, false_or, true_or, true_and, and_true, BitVec.ofNat_eq_ofNat] at hw
    refine encodes_s64 (r := _) rfl ?_ ?_ rfl rfl ?_
    · simp [Reg.ofBits_bits, runChk, illIf_none, ite_none, -Nat.reduceAdd, -BitVec.setWidth_eq, -BitVec.getElem_setWidth, hw]
    · first | rfl | simp [Reg.ofBits_bits, runChk, illIf_none, ite_none, -Nat.reduceAdd, -BitVec.setWidth_eq, -BitVec.getElem_setWidth]
    · change Chk.result _ = _
      refine Chk.result_ok ?_ ?_ ?_ ?_ ?_ ?_ <;> simp [Reg.ofBits_bits, runChk, illIf_none, ite_none, -Nat.reduceAdd, -BitVec.setWidth_eq, -BitVec.getElem_setWidth, hw]

theorem bqry (h : Head) (dst : Reg) (base : Src) : Statement (.bqry h dst base) := by
  change (h.wf && dst.dstWf 2 && base.wf 2) = true → _
  intro hw
  try simp only [Reg.dstWf, Src.wf, OpB.wf, Bool.and_eq_true, Bool.or_eq_true, Bool.not_eq_true', decide_eq_true_eq, ne_eq, BitVec.ofNat_eq_ofNat] at hw
  refine encodes_s64 (r := _) rfl ?_ ?_ rfl rfl ?_
  · simp [Reg.ofBits_bits, runChk, illIf_none, ite_none, -Nat.reduceAdd, -BitVec.setWidth_eq, -BitVec.getElem_setWidth, hw]
  · first | rfl | simp [Reg.ofBits_bits, runChk, illIf_none, ite_none, -Nat.reduceAdd, -BitVec.setWidth_eq, -BitVec.getElem_setWidth]
  · change Chk.result _ = _
    refine Chk.result_ok ?_ ?_ ?_ ?_ ?_ ?_ <;> simp [Reg.ofBits_bits, runChk, illIf_none, ite_none, -Nat.reduceAdd, -BitVec.setWidth_eq, -BitVec.getElem_setWidth, hw]

theorem cflush (h : Head) (inv : Bool) (base : Src) (len : Src) : Statement (.cflush h inv base len) := by
  change (h.wf && base.wf 2 && len.wf) = true → _
  intro hw
  try simp only [Src.wf, OpB.wf, Bool.and_eq_true, Bool.or_eq_true, Bool.not_eq_true', decide_eq_true_eq, ne_eq, BitVec.ofNat_eq_ofNat] at hw
  refine encodes_s64 (r := _) rfl ?_ ?_ rfl rfl ?_
  · simp [Reg.ofBits_bits, runChk, illIf_none, ite_none, -Nat.reduceAdd, -BitVec.setWidth_eq, -BitVec.getElem_setWidth, hw]
  · first | rfl | simp [Reg.ofBits_bits, runChk, illIf_none, ite_none, -Nat.reduceAdd, -BitVec.setWidth_eq, -BitVec.getElem_setWidth]
  · change Chk.result _ = _
    refine Chk.result_ok ?_ ?_ ?_ ?_ ?_ ?_ <;> simp [Reg.ofBits_bits, runChk, illIf_none, ite_none, -Nat.reduceAdd, -BitVec.setWidth_eq, -BitVec.getElem_setWidth, hw]

theorem iinv (h : Head) (reach : Reach) (arg : IinvArg) : Statement (.iinv h reach arg) := by
  change (h.wf && (match arg with
      | .range b l => b.wf 2 && l.wf
      | .all => true)) = true → _
  intro hw
  cases arg
  all_goals
    try simp only [Src.wf, OpB.wf, Bool.and_eq_true, Bool.or_eq_true, Bool.not_eq_true', decide_eq_true_eq, ne_eq, BitVec.ofNat_eq_ofNat] at hw
    refine encodes_s64 (r := _) rfl ?_ ?_ rfl rfl ?_
    · simp [Reg.ofBits_bits, runChk, illIf_none, ite_none, -Nat.reduceAdd, -BitVec.setWidth_eq, -BitVec.getElem_setWidth, hw]
    · first | rfl | simp [Reg.ofBits_bits, runChk, illIf_none, ite_none, -Nat.reduceAdd, -BitVec.setWidth_eq, -BitVec.getElem_setWidth]
    · change Chk.result _ = _
      refine Chk.result_ok ?_ ?_ ?_ ?_ ?_ ?_ <;> simp [Reg.ofBits_bits, runChk, illIf_none, ite_none, -Nat.reduceAdd, -BitVec.setWidth_eq, -BitVec.getElem_setWidth, hw]

theorem fetchb (h : Head) : Statement (.fetchb h) := by
  change (h.wf) = true → _
  intro hw
  try simp only [Src.wf, OpB.wf, Bool.and_eq_true, Bool.or_eq_true, Bool.not_eq_true', decide_eq_true_eq, ne_eq, BitVec.ofNat_eq_ofNat] at hw
  refine encodes_s64 (r := _) rfl ?_ ?_ rfl rfl ?_
  · simp [Reg.ofBits_bits, runChk, illIf_none, ite_none, chkBare, -Nat.reduceAdd, -BitVec.setWidth_eq, -BitVec.getElem_setWidth, hw]
  · first | rfl | simp [Reg.ofBits_bits, runChk, illIf_none, ite_none, chkBare, -Nat.reduceAdd, -BitVec.setWidth_eq, -BitVec.getElem_setWidth]
  · change Chk.result _ = _
    refine Chk.result_ok ?_ ?_ ?_ ?_ ?_ ?_ <;> simp [Reg.ofBits_bits, runChk, illIf_none, ite_none, chkBare, -Nat.reduceAdd, -BitVec.setWidth_eq, -BitVec.getElem_setWidth, hw]

theorem tlbiVa (h : Head) (base : Src) (len : Src) : Statement (.tlbiVa h base len) := by
  change (h.wf && base.wf 2 && len.wf) = true → _
  intro hw
  try simp only [Src.wf, OpB.wf, Bool.and_eq_true, Bool.or_eq_true, Bool.not_eq_true', decide_eq_true_eq, ne_eq, BitVec.ofNat_eq_ofNat] at hw
  refine encodes_s64 (r := _) rfl ?_ ?_ rfl rfl ?_
  · simp [Reg.ofBits_bits, runChk, illIf_none, ite_none, chkTlbi, -Nat.reduceAdd, -BitVec.setWidth_eq, -BitVec.getElem_setWidth, hw]
  · first | rfl | simp [Reg.ofBits_bits, runChk, illIf_none, ite_none, chkTlbi, -Nat.reduceAdd, -BitVec.setWidth_eq, -BitVec.getElem_setWidth]
  · change Chk.result _ = _
    refine Chk.result_ok ?_ ?_ ?_ ?_ ?_ ?_ <;> simp [Reg.ofBits_bits, runChk, illIf_none, ite_none, chkTlbi, -Nat.reduceAdd, -BitVec.setWidth_eq, -BitVec.getElem_setWidth, hw]

theorem tlbiCtx (h : Head) : Statement (.tlbiCtx h) := by
  change (h.wf) = true → _
  intro hw
  try simp only [Src.wf, OpB.wf, Bool.and_eq_true, Bool.or_eq_true, Bool.not_eq_true', decide_eq_true_eq, ne_eq, BitVec.ofNat_eq_ofNat] at hw
  refine encodes_s64 (r := _) rfl ?_ ?_ rfl rfl ?_
  · simp [Reg.ofBits_bits, runChk, illIf_none, ite_none, chkTlbi, -Nat.reduceAdd, -BitVec.setWidth_eq, -BitVec.getElem_setWidth, hw]
  · first | rfl | simp [Reg.ofBits_bits, runChk, illIf_none, ite_none, chkTlbi, -Nat.reduceAdd, -BitVec.setWidth_eq, -BitVec.getElem_setWidth]
  · change Chk.result _ = _
    refine Chk.result_ok ?_ ?_ ?_ ?_ ?_ ?_ <;> simp [Reg.ofBits_bits, runChk, illIf_none, ite_none, chkTlbi, -Nat.reduceAdd, -BitVec.setWidth_eq, -BitVec.getElem_setWidth, hw]

theorem tlbiBuf (h : Head) (idx : Src) : Statement (.tlbiBuf h idx) := by
  change (h.wf && idx.wf) = true → _
  intro hw
  try simp only [Src.wf, OpB.wf, Bool.and_eq_true, Bool.or_eq_true, Bool.not_eq_true', decide_eq_true_eq, ne_eq, BitVec.ofNat_eq_ofNat] at hw
  refine encodes_s64 (r := _) rfl ?_ ?_ rfl rfl ?_
  · simp [Reg.ofBits_bits, runChk, illIf_none, ite_none, chkTlbi, -Nat.reduceAdd, -BitVec.setWidth_eq, -BitVec.getElem_setWidth, hw]
  · first | rfl | simp [Reg.ofBits_bits, runChk, illIf_none, ite_none, chkTlbi, -Nat.reduceAdd, -BitVec.setWidth_eq, -BitVec.getElem_setWidth]
  · change Chk.result _ = _
    refine Chk.result_ok ?_ ?_ ?_ ?_ ?_ ?_ <;> simp [Reg.ofBits_bits, runChk, illIf_none, ite_none, chkTlbi, -Nat.reduceAdd, -BitVec.setWidth_eq, -BitVec.getElem_setWidth, hw]

theorem tlbiBufall (h : Head) : Statement (.tlbiBufall h) := by
  change (h.wf) = true → _
  intro hw
  try simp only [Src.wf, OpB.wf, Bool.and_eq_true, Bool.or_eq_true, Bool.not_eq_true', decide_eq_true_eq, ne_eq, BitVec.ofNat_eq_ofNat] at hw
  refine encodes_s64 (r := _) rfl ?_ ?_ rfl rfl ?_
  · simp [Reg.ofBits_bits, runChk, illIf_none, ite_none, chkTlbi, -Nat.reduceAdd, -BitVec.setWidth_eq, -BitVec.getElem_setWidth, hw]
  · first | rfl | simp [Reg.ofBits_bits, runChk, illIf_none, ite_none, chkTlbi, -Nat.reduceAdd, -BitVec.setWidth_eq, -BitVec.getElem_setWidth]
  · change Chk.result _ = _
    refine Chk.result_ok ?_ ?_ ?_ ?_ ?_ ?_ <;> simp [Reg.ofBits_bits, runChk, illIf_none, ite_none, chkTlbi, -Nat.reduceAdd, -BitVec.setWidth_eq, -BitVec.getElem_setWidth, hw]

theorem atom (o : AtomO) : Statement (.atom o) := by
  change (o.wf false) = true → _
  intro hw
  obtain ⟨h, op, w, d, b, v, sc, p, i⟩ := o <;> cases sc <;> (try (simp [AtomO.wf] at hw; done))
  all_goals
    try simp only [Src.wf, OpB.wf, Reg.dstWf, Reg.dstNoQ, Src.wfNoQ, wordsOf, XtO.wf, AtomO.wf, CvtO.wf, PackO.wf, Bool.and_eq_true, Bool.or_eq_true, Bool.not_eq_true', decide_eq_true_eq, ne_eq, Option.map_some, Option.getD_some, Bool.true_eq_false, Bool.false_eq_true, Bool.and_true, Bool.and_false, false_or, true_or, true_and, and_true, BitVec.ofNat_eq_ofNat] at hw
    refine encodes_s64 (r := _) rfl ?_ ?_ rfl rfl ?_
    · simp [Reg.ofBits_bits, runChk, illIf_none, ite_none, chkAtom, encAtom, -Nat.reduceAdd, -BitVec.setWidth_eq, -BitVec.getElem_setWidth, hw]
    · first | rfl | simp [Reg.ofBits_bits, runChk, illIf_none, ite_none, chkAtom, encAtom, -Nat.reduceAdd, -BitVec.setWidth_eq, -BitVec.getElem_setWidth]
    · change Chk.result _ = _
      refine Chk.result_ok ?_ ?_ ?_ ?_ ?_ ?_ <;> simp [Reg.ofBits_bits, runChk, illIf_none, ite_none, chkAtom, encAtom, -Nat.reduceAdd, -BitVec.setWidth_eq, -BitVec.getElem_setWidth, hw, Level.bits]

theorem atomi (o : AtomO) : Statement (.atomi o) := by
  change (o.wf true) = true → _
  intro hw
  try simp only [Src.wf, OpB.wf, Reg.dstWf, Reg.dstNoQ, Src.wfNoQ, wordsOf, XtO.wf, AtomO.wf, CvtO.wf, PackO.wf, Bool.and_eq_true, Bool.or_eq_true, Bool.not_eq_true', decide_eq_true_eq, ne_eq, Bool.and_true, Bool.and_false, Bool.true_eq_false, Bool.false_eq_true, false_or, true_or, true_and, and_true, BitVec.ofNat_eq_ofNat] at hw
  refine encodes_s64 (r := _) rfl ?_ ?_ rfl rfl ?_
  · simp [Reg.ofBits_bits, runChk, illIf_none, ite_none, chkAtom, encAtom, -Nat.reduceAdd, -BitVec.setWidth_eq, -BitVec.getElem_setWidth, hw]
  · first | rfl | simp [Reg.ofBits_bits, runChk, illIf_none, ite_none, chkAtom, encAtom, -Nat.reduceAdd, -BitVec.setWidth_eq, -BitVec.getElem_setWidth]
  · change Chk.result _ = _
    refine Chk.result_ok ?_ ?_ ?_ ?_ ?_ ?_ <;> simp [Reg.ofBits_bits, runChk, illIf_none, ite_none, chkAtom, encAtom, -Nat.reduceAdd, -BitVec.setWidth_eq, -BitVec.getElem_setWidth, hw]

theorem qend (h : Head) : Statement (.qend h) := by
  change (h.wf) = true → _
  intro hw
  try simp only [Src.wf, OpB.wf, Bool.and_eq_true, Bool.or_eq_true, Bool.not_eq_true', decide_eq_true_eq, ne_eq, BitVec.ofNat_eq_ofNat] at hw
  refine encodes_s64 (r := _) rfl ?_ ?_ rfl rfl ?_
  · simp [Reg.ofBits_bits, runChk, illIf_none, ite_none, chkBare, -Nat.reduceAdd, -BitVec.setWidth_eq, -BitVec.getElem_setWidth, hw]
  · first | rfl | simp [Reg.ofBits_bits, runChk, illIf_none, ite_none, chkBare, -Nat.reduceAdd, -BitVec.setWidth_eq, -BitVec.getElem_setWidth]
  · change Chk.result _ = _
    refine Chk.result_ok ?_ ?_ ?_ ?_ ?_ ?_ <;> simp [Reg.ofBits_bits, runChk, illIf_none, ite_none, chkBare, -Nat.reduceAdd, -BitVec.setWidth_eq, -BitVec.getElem_setWidth, hw]

theorem fence (h : Head) (lvl : Level) : Statement (.fence h lvl) := by
  change (h.wf) = true → _
  intro hw
  try simp only [Src.wf, OpB.wf, Bool.and_eq_true, Bool.or_eq_true, Bool.not_eq_true', decide_eq_true_eq, ne_eq, BitVec.ofNat_eq_ofNat] at hw
  refine encodes_s64 (r := _) rfl ?_ ?_ rfl rfl ?_
  · simp [Reg.ofBits_bits, runChk, illIf_none, ite_none, -Nat.reduceAdd, -BitVec.setWidth_eq, -BitVec.getElem_setWidth, hw]
  · first | rfl | simp [Reg.ofBits_bits, runChk, illIf_none, ite_none, -Nat.reduceAdd, -BitVec.setWidth_eq, -BitVec.getElem_setWidth]
  · change Chk.result _ = _
    refine Chk.result_ok ?_ ?_ ?_ ?_ ?_ ?_ <;> simp [Reg.ofBits_bits, runChk, illIf_none, ite_none, -Nat.reduceAdd, -BitVec.setWidth_eq, -BitVec.getElem_setWidth, hw]

theorem bara (h : Head) (b : BarArg) : Statement (.bara h b) := by
  change (h.wf && b.wf) = true → _
  intro hw
  cases b
  all_goals
    try simp only [Src.wf, OpB.wf, BarArg.wf, Bool.and_eq_true, Bool.or_eq_true, Bool.not_eq_true', decide_eq_true_eq, ne_eq, BitVec.ofNat_eq_ofNat] at hw
    refine encodes_s64 (r := _) rfl ?_ ?_ rfl rfl ?_
    · simp [Reg.ofBits_bits, runChk, illIf_none, ite_none, chkBar, encBar, encBuoyBar, -Nat.reduceAdd, -BitVec.setWidth_eq, -BitVec.getElem_setWidth, hw]
    · first | rfl | simp [Reg.ofBits_bits, runChk, illIf_none, ite_none, chkBar, encBar, encBuoyBar, -Nat.reduceAdd, -BitVec.setWidth_eq, -BitVec.getElem_setWidth]
    · change Chk.result _ = _
      refine Chk.result_ok ?_ ?_ ?_ ?_ ?_ ?_ <;> simp [Reg.ofBits_bits, runChk, illIf_none, ite_none, chkBar, encBar, encBuoyBar, -Nat.reduceAdd, -BitVec.setWidth_eq, -BitVec.getElem_setWidth, hw, Nat.not_lt]

theorem barw (h : Head) (b : BarNum) : Statement (.barw h b) := by
  change (h.wf && b.wf) = true → _
  intro hw
  cases b
  all_goals
    try simp only [Src.wf, OpB.wf, BarNum.wf, Bool.and_eq_true, Bool.or_eq_true, Bool.not_eq_true', decide_eq_true_eq, ne_eq, BitVec.ofNat_eq_ofNat] at hw
    refine encodes_s64 (r := _) rfl ?_ ?_ rfl rfl ?_
    · simp [Reg.ofBits_bits, runChk, illIf_none, ite_none, chkBar, encBar, encBuoyBar, -Nat.reduceAdd, -BitVec.setWidth_eq, -BitVec.getElem_setWidth, hw]
    · first | rfl | simp [Reg.ofBits_bits, runChk, illIf_none, ite_none, chkBar, encBar, encBuoyBar, -Nat.reduceAdd, -BitVec.setWidth_eq, -BitVec.getElem_setWidth]
    · change Chk.result _ = _
      refine Chk.result_ok ?_ ?_ ?_ ?_ ?_ ?_ <;> simp [Reg.ofBits_bits, runChk, illIf_none, ite_none, chkBar, encBar, encBuoyBar, -Nat.reduceAdd, -BitVec.setWidth_eq, -BitVec.getElem_setWidth, hw]

theorem bars (h : Head) (b : BarArg) : Statement (.bars h b) := by
  change (h.wf && b.wf) = true → _
  intro hw
  cases b
  all_goals
    try simp only [Src.wf, OpB.wf, BarArg.wf, Bool.and_eq_true, Bool.or_eq_true, Bool.not_eq_true', decide_eq_true_eq, ne_eq, BitVec.ofNat_eq_ofNat] at hw
    refine encodes_s64 (r := _) rfl ?_ ?_ rfl rfl ?_
    · simp [Reg.ofBits_bits, runChk, illIf_none, ite_none, chkBar, encBar, encBuoyBar, -Nat.reduceAdd, -BitVec.setWidth_eq, -BitVec.getElem_setWidth, hw]
    · first | rfl | simp [Reg.ofBits_bits, runChk, illIf_none, ite_none, chkBar, encBar, encBuoyBar, -Nat.reduceAdd, -BitVec.setWidth_eq, -BitVec.getElem_setWidth]
    · change Chk.result _ = _
      refine Chk.result_ok ?_ ?_ ?_ ?_ ?_ ?_ <;> simp [Reg.ofBits_bits, runChk, illIf_none, ite_none, chkBar, encBar, encBuoyBar, -Nat.reduceAdd, -BitVec.setWidth_eq, -BitVec.getElem_setWidth, hw, Nat.not_lt]

theorem baraBuoy (h : Head) (lvl : Level) (a : Src) : Statement (.baraBuoy h lvl a) := by
  change (h.wf && !(lvl = .domain) && a.wf) = true → _
  intro hw
  cases lvl <;> (try (simp at hw; done))
  all_goals
    try simp only [Src.wf, OpB.wf, Bool.and_eq_true, Bool.or_eq_true, Bool.not_eq_true', decide_eq_true_eq, ne_eq, BitVec.ofNat_eq_ofNat] at hw
    refine encodes_s64 (r := _) rfl ?_ ?_ rfl rfl ?_
    · simp [Reg.ofBits_bits, runChk, illIf_none, ite_none, chkBar, encBar, encBuoyBar, -Nat.reduceAdd, -BitVec.setWidth_eq, -BitVec.getElem_setWidth, hw]
    · first | rfl | simp [Reg.ofBits_bits, runChk, illIf_none, ite_none, chkBar, encBar, encBuoyBar, -Nat.reduceAdd, -BitVec.setWidth_eq, -BitVec.getElem_setWidth]
    · change Chk.result _ = _
      refine Chk.result_ok ?_ ?_ ?_ ?_ ?_ ?_ <;> simp [Reg.ofBits_bits, runChk, illIf_none, ite_none, chkBar, encBar, encBuoyBar, -Nat.reduceAdd, -BitVec.setWidth_eq, -BitVec.getElem_setWidth, hw, Level.bits, Level.ofBits]

theorem barwBuoy (h : Head) (a : Src) : Statement (.barwBuoy h a) := by
  change (h.wf && a.wf) = true → _
  intro hw
  try simp only [Src.wf, OpB.wf, Bool.and_eq_true, Bool.or_eq_true, Bool.not_eq_true', decide_eq_true_eq, ne_eq, BitVec.ofNat_eq_ofNat] at hw
  refine encodes_s64 (r := _) rfl ?_ ?_ rfl rfl ?_
  · simp [Reg.ofBits_bits, runChk, illIf_none, ite_none, chkBar, encBar, encBuoyBar, -Nat.reduceAdd, -BitVec.setWidth_eq, -BitVec.getElem_setWidth, hw]
  · first | rfl | simp [Reg.ofBits_bits, runChk, illIf_none, ite_none, chkBar, encBar, encBuoyBar, -Nat.reduceAdd, -BitVec.setWidth_eq, -BitVec.getElem_setWidth]
  · change Chk.result _ = _
    refine Chk.result_ok ?_ ?_ ?_ ?_ ?_ ?_ <;> simp [Reg.ofBits_bits, runChk, illIf_none, ite_none, chkBar, encBar, encBuoyBar, -Nat.reduceAdd, -BitVec.setWidth_eq, -BitVec.getElem_setWidth, hw, Level.bits, Level.ofBits]

theorem barsBuoy (h : Head) (lvl : Level) (a : Src) : Statement (.barsBuoy h lvl a) := by
  change (h.wf && !(lvl = .domain) && a.wf) = true → _
  intro hw
  cases lvl <;> (try (simp at hw; done))
  all_goals
    try simp only [Src.wf, OpB.wf, Bool.and_eq_true, Bool.or_eq_true, Bool.not_eq_true', decide_eq_true_eq, ne_eq, BitVec.ofNat_eq_ofNat] at hw
    refine encodes_s64 (r := _) rfl ?_ ?_ rfl rfl ?_
    · simp [Reg.ofBits_bits, runChk, illIf_none, ite_none, chkBar, encBar, encBuoyBar, -Nat.reduceAdd, -BitVec.setWidth_eq, -BitVec.getElem_setWidth, hw]
    · first | rfl | simp [Reg.ofBits_bits, runChk, illIf_none, ite_none, chkBar, encBar, encBuoyBar, -Nat.reduceAdd, -BitVec.setWidth_eq, -BitVec.getElem_setWidth]
    · change Chk.result _ = _
      refine Chk.result_ok ?_ ?_ ?_ ?_ ?_ ?_ <;> simp [Reg.ofBits_bits, runChk, illIf_none, ite_none, chkBar, encBar, encBuoyBar, -Nat.reduceAdd, -BitVec.setWidth_eq, -BitVec.getElem_setWidth, hw, Level.bits, Level.ofBits]

theorem barx (h : Head) (lvl : Level) (a : Src) : Statement (.barx h lvl a) := by
  change (h.wf && !(lvl = .domain) && a.wf) = true → _
  intro hw
  cases lvl <;> (try (simp at hw; done))
  all_goals
    try simp only [Src.wf, OpB.wf, Bool.and_eq_true, Bool.or_eq_true, Bool.not_eq_true', decide_eq_true_eq, ne_eq, BitVec.ofNat_eq_ofNat] at hw
    refine encodes_s64 (r := _) rfl ?_ ?_ rfl rfl ?_
    · simp [Reg.ofBits_bits, runChk, illIf_none, ite_none, chkBar, encBar, encBuoyBar, -Nat.reduceAdd, -BitVec.setWidth_eq, -BitVec.getElem_setWidth, hw]
    · first | rfl | simp [Reg.ofBits_bits, runChk, illIf_none, ite_none, chkBar, encBar, encBuoyBar, -Nat.reduceAdd, -BitVec.setWidth_eq, -BitVec.getElem_setWidth]
    · change Chk.result _ = _
      refine Chk.result_ok ?_ ?_ ?_ ?_ ?_ ?_ <;> simp [Reg.ofBits_bits, runChk, illIf_none, ite_none, chkBar, encBar, encBuoyBar, -Nat.reduceAdd, -BitVec.setWidth_eq, -BitVec.getElem_setWidth, hw, Level.bits, Level.ofBits]

theorem ldv (o : VaultO) : Statement (.ldv o) := by
  change (o.h.wf && o.reg.dstNoQ o.size.words && o.a.wfNoQ) = true → _
  intro hw
  try simp only [Reg.dstNoQ, Reg.dstWf, Src.wfNoQ, Src.wf, OpB.wf, Bool.and_eq_true, Bool.or_eq_true, Bool.not_eq_true', decide_eq_true_eq, ne_eq, BitVec.ofNat_eq_ofNat] at hw
  refine encodes_s64 (r := _) rfl ?_ ?_ rfl rfl ?_
  · simp [Reg.ofBits_bits, runChk, illIf_none, ite_none, chkVault, encVault, -Nat.reduceAdd, -BitVec.setWidth_eq, -BitVec.getElem_setWidth, hw]
  · first | rfl | simp [Reg.ofBits_bits, runChk, illIf_none, ite_none, chkVault, encVault, -Nat.reduceAdd, -BitVec.setWidth_eq, -BitVec.getElem_setWidth]
  · change Chk.result _ = _
    refine Chk.result_ok ?_ ?_ ?_ ?_ ?_ ?_ <;> simp [Reg.ofBits_bits, runChk, illIf_none, ite_none, chkVault, encVault, -Nat.reduceAdd, -BitVec.setWidth_eq, -BitVec.getElem_setWidth, hw]

theorem stv (o : VaultO) : Statement (.stv o) := by
  change (o.h.wf && o.reg.wf && o.reg.aligned o.size.words && o.a.wfNoQ) = true → _
  intro hw
  try simp only [Src.wfNoQ, Src.wf, OpB.wf, Bool.and_eq_true, Bool.or_eq_true, Bool.not_eq_true', decide_eq_true_eq, ne_eq, BitVec.ofNat_eq_ofNat] at hw
  refine encodes_s64 (r := _) rfl ?_ ?_ rfl rfl ?_
  · simp [Reg.ofBits_bits, runChk, illIf_none, ite_none, chkVault, encVault, -Nat.reduceAdd, -BitVec.setWidth_eq, -BitVec.getElem_setWidth, hw]
  · first | rfl | simp [Reg.ofBits_bits, runChk, illIf_none, ite_none, chkVault, encVault, -Nat.reduceAdd, -BitVec.setWidth_eq, -BitVec.getElem_setWidth]
  · change Chk.result _ = _
    refine Chk.result_ok ?_ ?_ ?_ ?_ ?_ ?_ <;> simp [Reg.ofBits_bits, runChk, illIf_none, ite_none, chkVault, encVault, -Nat.reduceAdd, -BitVec.setWidth_eq, -BitVec.getElem_setWidth, hw]

theorem stx (o : VaultO) : Statement (.stx o) := by
  change (o.h.wf && o.reg.wf && o.reg.aligned o.size.words && o.a.wfNoQ) = true → _
  intro hw
  try simp only [Src.wfNoQ, Src.wf, OpB.wf, Bool.and_eq_true, Bool.or_eq_true, Bool.not_eq_true', decide_eq_true_eq, ne_eq, BitVec.ofNat_eq_ofNat] at hw
  refine encodes_s64 (r := _) rfl ?_ ?_ rfl rfl ?_
  · simp [Reg.ofBits_bits, runChk, illIf_none, ite_none, chkVault, encVault, -Nat.reduceAdd, -BitVec.setWidth_eq, -BitVec.getElem_setWidth, hw]
  · first | rfl | simp [Reg.ofBits_bits, runChk, illIf_none, ite_none, chkVault, encVault, -Nat.reduceAdd, -BitVec.setWidth_eq, -BitVec.getElem_setWidth]
  · change Chk.result _ = _
    refine Chk.result_ok ?_ ?_ ?_ ?_ ?_ ?_ <;> simp [Reg.ofBits_bits, runChk, illIf_none, ite_none, chkVault, encVault, -Nat.reduceAdd, -BitVec.setWidth_eq, -BitVec.getElem_setWidth, hw]

theorem atomv (o : AtomVO) : Statement (.atomv o) := by
  change (o.h.wf && o.op.wf o.w64 && o.dst.dstNoQ (wordsOf o.w64) && o.a.wfNoQ && o.v.wfNoQ (o.op.words o.w64)) = true → _
  intro hw
  try simp only [Reg.dstNoQ, Reg.dstWf, Src.wfNoQ, Src.wf, wordsOf, OpB.wf, Bool.and_eq_true, Bool.or_eq_true, Bool.not_eq_true', decide_eq_true_eq, ne_eq, BitVec.ofNat_eq_ofNat] at hw
  refine encodes_s64 (r := _) rfl ?_ ?_ rfl rfl ?_
  · simp [Reg.ofBits_bits, runChk, illIf_none, ite_none, chkAtomV, -Nat.reduceAdd, -BitVec.setWidth_eq, -BitVec.getElem_setWidth, hw]
  · first | rfl | simp [Reg.ofBits_bits, runChk, illIf_none, ite_none, chkAtomV, -Nat.reduceAdd, -BitVec.setWidth_eq, -BitVec.getElem_setWidth]
  · change Chk.result _ = _
    refine Chk.result_ok ?_ ?_ ?_ ?_ ?_ ?_ <;> simp [Reg.ofBits_bits, runChk, illIf_none, ite_none, chkAtomV, -Nat.reduceAdd, -BitVec.setWidth_eq, -BitVec.getElem_setWidth, hw]

theorem presTest (h : Head) (pd : BitVec 3) (a : Src) (len : Src) : Statement (.presTest h pd a len) := by
  change (h.wf && predDst pd && a.wf && len.wf) = true → _
  intro hw
  try simp only [predDst, Src.wf, OpB.wf, Bool.and_eq_true, Bool.or_eq_true, Bool.not_eq_true', decide_eq_true_eq, ne_eq, BitVec.ofNat_eq_ofNat] at hw
  refine encodes_s64 (r := _) rfl ?_ ?_ rfl rfl ?_
  · simp [Reg.ofBits_bits, runChk, illIf_none, ite_none, chkPres, -Nat.reduceAdd, -BitVec.setWidth_eq, -BitVec.getElem_setWidth, hw]
  · first | rfl | simp [Reg.ofBits_bits, runChk, illIf_none, ite_none, chkPres, -Nat.reduceAdd, -BitVec.setWidth_eq, -BitVec.getElem_setWidth]
  · change Chk.result _ = _
    refine Chk.result_ok ?_ ?_ ?_ ?_ ?_ ?_ <;> simp [Reg.ofBits_bits, runChk, illIf_none, ite_none, chkPres, -Nat.reduceAdd, -BitVec.setWidth_eq, -BitVec.getElem_setWidth, hw]

theorem presSet (h : Head) (a : Src) (len : Src) : Statement (.presSet h a len) := by
  change (h.wf && a.wf && len.wf) = true → _
  intro hw
  try simp only [Src.wf, OpB.wf, Bool.and_eq_true, Bool.or_eq_true, Bool.not_eq_true', decide_eq_true_eq, ne_eq, BitVec.ofNat_eq_ofNat] at hw
  refine encodes_s64 (r := _) rfl ?_ ?_ rfl rfl ?_
  · simp [Reg.ofBits_bits, runChk, illIf_none, ite_none, chkPres, -Nat.reduceAdd, -BitVec.setWidth_eq, -BitVec.getElem_setWidth, hw]
  · first | rfl | simp [Reg.ofBits_bits, runChk, illIf_none, ite_none, chkPres, -Nat.reduceAdd, -BitVec.setWidth_eq, -BitVec.getElem_setWidth]
  · change Chk.result _ = _
    refine Chk.result_ok ?_ ?_ ?_ ?_ ?_ ?_ <;> simp [Reg.ofBits_bits, runChk, illIf_none, ite_none, chkPres, -Nat.reduceAdd, -BitVec.setWidth_eq, -BitVec.getElem_setWidth, hw]

theorem presClr (h : Head) (a : Src) (len : Src) : Statement (.presClr h a len) := by
  change (h.wf && a.wf && len.wf) = true → _
  intro hw
  try simp only [Src.wf, OpB.wf, Bool.and_eq_true, Bool.or_eq_true, Bool.not_eq_true', decide_eq_true_eq, ne_eq, BitVec.ofNat_eq_ofNat] at hw
  refine encodes_s64 (r := _) rfl ?_ ?_ rfl rfl ?_
  · simp [Reg.ofBits_bits, runChk, illIf_none, ite_none, chkPres, -Nat.reduceAdd, -BitVec.setWidth_eq, -BitVec.getElem_setWidth, hw]
  · first | rfl | simp [Reg.ofBits_bits, runChk, illIf_none, ite_none, chkPres, -Nat.reduceAdd, -BitVec.setWidth_eq, -BitVec.getElem_setWidth]
  · change Chk.result _ = _
    refine Chk.result_ok ?_ ?_ ?_ ?_ ?_ ?_ <;> simp [Reg.ofBits_bits, runChk, illIf_none, ite_none, chkPres, -Nat.reduceAdd, -BitVec.setWidth_eq, -BitVec.getElem_setWidth, hw]

theorem presUnmk (h : Head) (a : Src) (len : Src) : Statement (.presUnmk h a len) := by
  change (h.wf && a.wf && len.wf) = true → _
  intro hw
  try simp only [Src.wf, OpB.wf, Bool.and_eq_true, Bool.or_eq_true, Bool.not_eq_true', decide_eq_true_eq, ne_eq, BitVec.ofNat_eq_ofNat] at hw
  refine encodes_s64 (r := _) rfl ?_ ?_ rfl rfl ?_
  · simp [Reg.ofBits_bits, runChk, illIf_none, ite_none, chkPres, -Nat.reduceAdd, -BitVec.setWidth_eq, -BitVec.getElem_setWidth, hw]
  · first | rfl | simp [Reg.ofBits_bits, runChk, illIf_none, ite_none, chkPres, -Nat.reduceAdd, -BitVec.setWidth_eq, -BitVec.getElem_setWidth]
  · change Chk.result _ = _
    refine Chk.result_ok ?_ ?_ ?_ ?_ ?_ ?_ <;> simp [Reg.ofBits_bits, runChk, illIf_none, ite_none, chkPres, -Nat.reduceAdd, -BitVec.setWidth_eq, -BitVec.getElem_setWidth, hw]

theorem vsplitSet (h : Head) (pd : BitVec 3) (n : OpB) : Statement (.vsplitSet h pd n) := by
  change (h.wf && predDst pd && n.wf && (match n with
      | .imm v => v.getLsbD 17 = false
      | .reg _ => true)) = true → _
  intro hw
  cases n
  all_goals
    try simp only [predDst, Src.wf, OpB.wf, Bool.and_eq_true, Bool.or_eq_true, Bool.not_eq_true', decide_eq_true_eq, ne_eq, BitVec.ofNat_eq_ofNat] at hw
    refine encodes_s64 (r := _) rfl ?_ ?_ rfl rfl ?_
    · simp [Reg.ofBits_bits, runChk, illIf_none, ite_none, chkVsplit, -Nat.reduceAdd, -BitVec.setWidth_eq, -BitVec.getElem_setWidth, hw]
    · first | rfl | simp [Reg.ofBits_bits, runChk, illIf_none, ite_none, chkVsplit, -Nat.reduceAdd, -BitVec.setWidth_eq, -BitVec.getElem_setWidth]
    · change Chk.result _ = _
      refine Chk.result_ok ?_ ?_ ?_ ?_ ?_ ?_ <;> simp [Reg.ofBits_bits, runChk, illIf_none, ite_none, chkVsplit, -Nat.reduceAdd, -BitVec.setWidth_eq, -BitVec.getElem_setWidth, hw, ← BitVec.getLsbD_eq_getElem, -BitVec.getLsbD_eq_getElem]

theorem vsplitXopen (h : Head) (pd : BitVec 3) (off : Src) (len : Src) : Statement (.vsplitXopen h pd off len) := by
  change (h.wf && predDst pd && off.wf && len.wf) = true → _
  intro hw
  try simp only [predDst, Src.wf, OpB.wf, Bool.and_eq_true, Bool.or_eq_true, Bool.not_eq_true', decide_eq_true_eq, ne_eq, BitVec.ofNat_eq_ofNat] at hw
  refine encodes_s64 (r := _) rfl ?_ ?_ rfl rfl ?_
  · simp [Reg.ofBits_bits, runChk, illIf_none, ite_none, chkVsplit, -Nat.reduceAdd, -BitVec.setWidth_eq, -BitVec.getElem_setWidth, hw]
  · first | rfl | simp [Reg.ofBits_bits, runChk, illIf_none, ite_none, chkVsplit, -Nat.reduceAdd, -BitVec.setWidth_eq, -BitVec.getElem_setWidth]
  · change Chk.result _ = _
    refine Chk.result_ok ?_ ?_ ?_ ?_ ?_ ?_ <;> simp [Reg.ofBits_bits, runChk, illIf_none, ite_none, chkVsplit, -Nat.reduceAdd, -BitVec.setWidth_eq, -BitVec.getElem_setWidth, hw]

theorem vsplitXclose (h : Head) : Statement (.vsplitXclose h) := by
  change (h.wf) = true → _
  intro hw
  try simp only [Src.wf, OpB.wf, Bool.and_eq_true, Bool.or_eq_true, Bool.not_eq_true', decide_eq_true_eq, ne_eq, BitVec.ofNat_eq_ofNat] at hw
  refine encodes_s64 (r := _) rfl ?_ ?_ rfl rfl ?_
  · simp [Reg.ofBits_bits, runChk, illIf_none, ite_none, chkVsplit, -Nat.reduceAdd, -BitVec.setWidth_eq, -BitVec.getElem_setWidth, hw]
  · first | rfl | simp [Reg.ofBits_bits, runChk, illIf_none, ite_none, chkVsplit, -Nat.reduceAdd, -BitVec.setWidth_eq, -BitVec.getElem_setWidth]
  · change Chk.result _ = _
    refine Chk.result_ok ?_ ?_ ?_ ?_ ?_ ?_ <;> simp [Reg.ofBits_bits, runChk, illIf_none, ite_none, chkVsplit, -Nat.reduceAdd, -BitVec.setWidth_eq, -BitVec.getElem_setWidth, hw]

theorem vsplitRing (h : Head) (dst : Reg) (base : Src) (cfg : Src) : Statement (.vsplitRing h dst base cfg) := by
  change (h.wf && dst.dstWf && base.wf && cfg.wf) = true → _
  intro hw
  try simp only [Reg.dstWf, Src.wf, OpB.wf, Bool.and_eq_true, Bool.or_eq_true, Bool.not_eq_true', decide_eq_true_eq, ne_eq, BitVec.ofNat_eq_ofNat] at hw
  refine encodes_s64 (r := _) rfl ?_ ?_ rfl rfl ?_
  · simp [Reg.ofBits_bits, runChk, illIf_none, ite_none, chkVsplit, -Nat.reduceAdd, -BitVec.setWidth_eq, -BitVec.getElem_setWidth, hw]
  · first | rfl | simp [Reg.ofBits_bits, runChk, illIf_none, ite_none, chkVsplit, -Nat.reduceAdd, -BitVec.setWidth_eq, -BitVec.getElem_setWidth]
  · change Chk.result _ = _
    refine Chk.result_ok ?_ ?_ ?_ ?_ ?_ ?_ <;> simp [Reg.ofBits_bits, runChk, illIf_none, ite_none, chkVsplit, -Nat.reduceAdd, -BitVec.setWidth_eq, -BitVec.getElem_setWidth, hw]

theorem vsplitRfree (h : Head) (num : Src) : Statement (.vsplitRfree h num) := by
  change (h.wf && num.wf) = true → _
  intro hw
  try simp only [Src.wf, OpB.wf, Bool.and_eq_true, Bool.or_eq_true, Bool.not_eq_true', decide_eq_true_eq, ne_eq, BitVec.ofNat_eq_ofNat] at hw
  refine encodes_s64 (r := _) rfl ?_ ?_ rfl rfl ?_
  · simp [Reg.ofBits_bits, runChk, illIf_none, ite_none, chkVsplit, -Nat.reduceAdd, -BitVec.setWidth_eq, -BitVec.getElem_setWidth, hw]
  · first | rfl | simp [Reg.ofBits_bits, runChk, illIf_none, ite_none, chkVsplit, -Nat.reduceAdd, -BitVec.setWidth_eq, -BitVec.getElem_setWidth]
  · change Chk.result _ = _
    refine Chk.result_ok ?_ ?_ ?_ ?_ ?_ ?_ <;> simp [Reg.ofBits_bits, runChk, illIf_none, ite_none, chkVsplit, -Nat.reduceAdd, -BitVec.setWidth_eq, -BitVec.getElem_setWidth, hw]

theorem buoys (h : Head) (a : Src) (v : OpB) : Statement (.buoys h a v) := by
  change (h.wf && a.wf && v.wf 2 && (match v with
      | .imm v => v.getLsbD 17 = false
      | .reg _ => true)) = true → _
  intro hw
  cases v
  all_goals
    try simp only [Src.wf, OpB.wf, Bool.and_eq_true, Bool.or_eq_true, Bool.not_eq_true', decide_eq_true_eq, ne_eq, BitVec.ofNat_eq_ofNat] at hw
    refine encodes_s64 (r := _) rfl ?_ ?_ rfl rfl ?_
    · simp [Reg.ofBits_bits, runChk, illIf_none, ite_none, -Nat.reduceAdd, -BitVec.setWidth_eq, -BitVec.getElem_setWidth, hw]
    · first | rfl | simp [Reg.ofBits_bits, runChk, illIf_none, ite_none, -Nat.reduceAdd, -BitVec.setWidth_eq, -BitVec.getElem_setWidth]
    · change Chk.result _ = _
      refine Chk.result_ok ?_ ?_ ?_ ?_ ?_ ?_ <;> simp [Reg.ofBits_bits, runChk, illIf_none, ite_none, -Nat.reduceAdd, -BitVec.setWidth_eq, -BitVec.getElem_setWidth, hw, ← BitVec.getLsbD_eq_getElem, -BitVec.getLsbD_eq_getElem]

theorem buoyw (h : Head) (dst : Reg) (a : Src) : Statement (.buoyw h dst a) := by
  change (h.wf && dst.dstNoQ 2 && a.wf) = true → _
  intro hw
  try simp only [Reg.dstNoQ, Reg.dstWf, Src.wf, OpB.wf, Bool.and_eq_true, Bool.or_eq_true, Bool.not_eq_true', decide_eq_true_eq, ne_eq, BitVec.ofNat_eq_ofNat] at hw
  refine encodes_s64 (r := _) rfl ?_ ?_ rfl rfl ?_
  · simp [Reg.ofBits_bits, runChk, illIf_none, ite_none, -Nat.reduceAdd, -BitVec.setWidth_eq, -BitVec.getElem_setWidth, hw]
  · first | rfl | simp [Reg.ofBits_bits, runChk, illIf_none, ite_none, -Nat.reduceAdd, -BitVec.setWidth_eq, -BitVec.getElem_setWidth]
  · change Chk.result _ = _
    refine Chk.result_ok ?_ ?_ ?_ ?_ ?_ ?_ <;> simp [Reg.ofBits_bits, runChk, illIf_none, ite_none, -Nat.reduceAdd, -BitVec.setWidth_eq, -BitVec.getElem_setWidth, hw]

theorem fsetSet (h : Head) (w64 : Bool) (dst : Reg) : Statement (.fsetSet h w64 dst) := by
  change (h.wf && dst.dstNoQ (wordsOf w64)) = true → _
  intro hw
  try simp only [Reg.dstNoQ, Reg.dstWf, wordsOf, Src.wf, OpB.wf, Bool.and_eq_true, Bool.or_eq_true, Bool.not_eq_true', decide_eq_true_eq, ne_eq, BitVec.ofNat_eq_ofNat] at hw
  refine encodes_s64 (r := _) rfl ?_ ?_ rfl rfl ?_
  · simp [Reg.ofBits_bits, runChk, illIf_none, ite_none, -Nat.reduceAdd, -BitVec.setWidth_eq, -BitVec.getElem_setWidth, hw]
  · first | rfl | simp [Reg.ofBits_bits, runChk, illIf_none, ite_none, -Nat.reduceAdd, -BitVec.setWidth_eq, -BitVec.getElem_setWidth]
  · change Chk.result _ = _
    refine Chk.result_ok ?_ ?_ ?_ ?_ ?_ ?_ <;> simp [Reg.ofBits_bits, runChk, illIf_none, ite_none, -Nat.reduceAdd, -BitVec.setWidth_eq, -BitVec.getElem_setWidth, hw]

theorem fsetClr (h : Head) (w64 : Bool) (dst : Reg) : Statement (.fsetClr h w64 dst) := by
  change (h.wf && dst.dstNoQ (wordsOf w64)) = true → _
  intro hw
  try simp only [Reg.dstNoQ, Reg.dstWf, wordsOf, Src.wf, OpB.wf, Bool.and_eq_true, Bool.or_eq_true, Bool.not_eq_true', decide_eq_true_eq, ne_eq, BitVec.ofNat_eq_ofNat] at hw
  refine encodes_s64 (r := _) rfl ?_ ?_ rfl rfl ?_
  · simp [Reg.ofBits_bits, runChk, illIf_none, ite_none, -Nat.reduceAdd, -BitVec.setWidth_eq, -BitVec.getElem_setWidth, hw]
  · first | rfl | simp [Reg.ofBits_bits, runChk, illIf_none, ite_none, -Nat.reduceAdd, -BitVec.setWidth_eq, -BitVec.getElem_setWidth]
  · change Chk.result _ = _
    refine Chk.result_ok ?_ ?_ ?_ ?_ ?_ ?_ <;> simp [Reg.ofBits_bits, runChk, illIf_none, ite_none, -Nat.reduceAdd, -BitVec.setWidth_eq, -BitVec.getElem_setWidth, hw]

theorem kset (h : Head) (w64 : Bool) (dst : Reg) (v : OpB) : Statement (.kset h w64 dst v) := by
  change (h.wf && dst.wf && dst.isK && dst.aligned (wordsOf w64) && v.wf (wordsOf w64)) = true → _
  intro hw
  cases v
  all_goals
    try simp only [wordsOf, Src.wf, OpB.wf, Bool.and_eq_true, Bool.or_eq_true, Bool.not_eq_true', decide_eq_true_eq, ne_eq, BitVec.ofNat_eq_ofNat] at hw
    refine encodes_s64 (r := _) rfl ?_ ?_ rfl rfl ?_
    · simp [Reg.ofBits_bits, runChk, illIf_none, ite_none, -Nat.reduceAdd, -BitVec.setWidth_eq, -BitVec.getElem_setWidth, hw]
    · first | rfl | simp [Reg.ofBits_bits, runChk, illIf_none, ite_none, -Nat.reduceAdd, -BitVec.setWidth_eq, -BitVec.getElem_setWidth]
    · change Chk.result _ = _
      refine Chk.result_ok ?_ ?_ ?_ ?_ ?_ ?_ <;> simp [Reg.ofBits_bits, runChk, illIf_none, ite_none, -Nat.reduceAdd, -BitVec.setWidth_eq, -BitVec.getElem_setWidth, hw]

theorem regs (h : Head) (pd : BitVec 3) (n : BitVec 18) : Statement (.regs h pd n) := by
  change (h.wf && predDst pd && n.toNat % 8 = 0 && 8 ≤ n.toNat && n.toNat ≤ 192) = true → _
  intro hw
  try simp only [predDst, Src.wf, OpB.wf, Bool.and_eq_true, Bool.or_eq_true, Bool.not_eq_true', decide_eq_true_eq, ne_eq, BitVec.ofNat_eq_ofNat] at hw
  refine encodes_s64 (r := _) rfl ?_ ?_ rfl rfl ?_
  · simp [Reg.ofBits_bits, runChk, illIf_none, ite_none, -Nat.reduceAdd, -BitVec.setWidth_eq, -BitVec.getElem_setWidth, hw]
  · first | rfl | simp [Reg.ofBits_bits, runChk, illIf_none, ite_none, -Nat.reduceAdd, -BitVec.setWidth_eq, -BitVec.getElem_setWidth]
  · change Chk.result _ = _
    refine Chk.result_ok ?_ ?_ ?_ ?_ ?_ ?_ <;> simp [Reg.ofBits_bits, runChk, illIf_none, ite_none, -Nat.reduceAdd, -BitVec.setWidth_eq, -BitVec.getElem_setWidth, hw]

theorem qbind (h : Head) (q : Reg) (a : Src) : Statement (.qbind h q a) := by
  change (h.wf && q.wf && q.isQPort && a.wf) = true → _
  intro hw
  try simp only [Src.wf, OpB.wf, Bool.and_eq_true, Bool.or_eq_true, Bool.not_eq_true', decide_eq_true_eq, ne_eq, BitVec.ofNat_eq_ofNat] at hw
  refine encodes_s64 (r := _) rfl ?_ ?_ rfl rfl ?_
  · simp [Reg.ofBits_bits, runChk, illIf_none, ite_none, -Nat.reduceAdd, -BitVec.setWidth_eq, -BitVec.getElem_setWidth, hw]
  · first | rfl | simp [Reg.ofBits_bits, runChk, illIf_none, ite_none, -Nat.reduceAdd, -BitVec.setWidth_eq, -BitVec.getElem_setWidth]
  · change Chk.result _ = _
    refine Chk.result_ok ?_ ?_ ?_ ?_ ?_ ?_ <;> simp [Reg.ofBits_bits, runChk, illIf_none, ite_none, -Nat.reduceAdd, -BitVec.setWidth_eq, -BitVec.getElem_setWidth, hw]

theorem qstat (h : Head) (dst : Reg) (q : Reg) : Statement (.qstat h dst q) := by
  change (h.wf && dst.dstWf 2 && q.wf && q.isQPort) = true → _
  intro hw
  try simp only [Reg.dstWf, Src.wf, OpB.wf, Bool.and_eq_true, Bool.or_eq_true, Bool.not_eq_true', decide_eq_true_eq, ne_eq, BitVec.ofNat_eq_ofNat] at hw
  refine encodes_s64 (r := _) rfl ?_ ?_ rfl rfl ?_
  · simp [Reg.ofBits_bits, runChk, illIf_none, ite_none, -Nat.reduceAdd, -BitVec.setWidth_eq, -BitVec.getElem_setWidth, hw]
  · first | rfl | simp [Reg.ofBits_bits, runChk, illIf_none, ite_none, -Nat.reduceAdd, -BitVec.setWidth_eq, -BitVec.getElem_setWidth]
  · change Chk.result _ = _
    refine Chk.result_ok ?_ ?_ ?_ ?_ ?_ ?_ <;> simp [Reg.ofBits_bits, runChk, illIf_none, ite_none, -Nat.reduceAdd, -BitVec.setWidth_eq, -BitVec.getElem_setWidth, hw]

theorem qclose (h : Head) (q : Reg) (a : Src) : Statement (.qclose h q a) := by
  change (h.wf && q.wf && q.isQPort && a.wf) = true → _
  intro hw
  try simp only [Src.wf, OpB.wf, Bool.and_eq_true, Bool.or_eq_true, Bool.not_eq_true', decide_eq_true_eq, ne_eq, BitVec.ofNat_eq_ofNat] at hw
  refine encodes_s64 (r := _) rfl ?_ ?_ rfl rfl ?_
  · simp [Reg.ofBits_bits, runChk, illIf_none, ite_none, -Nat.reduceAdd, -BitVec.setWidth_eq, -BitVec.getElem_setWidth, hw]
  · first | rfl | simp [Reg.ofBits_bits, runChk, illIf_none, ite_none, -Nat.reduceAdd, -BitVec.setWidth_eq, -BitVec.getElem_setWidth]
  · change Chk.result _ = _
    refine Chk.result_ok ?_ ?_ ?_ ?_ ?_ ?_ <;> simp [Reg.ofBits_bits, runChk, illIf_none, ite_none, -Nat.reduceAdd, -BitVec.setWidth_eq, -BitVec.getElem_setWidth, hw]

theorem mfsr (h : Head) (dst : Reg) (num : BitVec 12) : Statement (.mfsr h dst num) := by
  change (h.wf && (sysReg? num.toNat).isSome && dst.dstNoQ (sysWords num)) = true → _
  intro hw
  try simp only [Reg.dstNoQ, Reg.dstWf, Src.wf, OpB.wf, Bool.and_eq_true, Bool.or_eq_true, Bool.not_eq_true', decide_eq_true_eq, ne_eq, BitVec.ofNat_eq_ofNat] at hw
  refine encodes_s64 (r := _) rfl ?_ ?_ rfl rfl ?_
  · simp [Reg.ofBits_bits, runChk, illIf_none, ite_none, -Nat.reduceAdd, -BitVec.setWidth_eq, -BitVec.getElem_setWidth, hw]
  · first | rfl | simp [Reg.ofBits_bits, runChk, illIf_none, ite_none, -Nat.reduceAdd, -BitVec.setWidth_eq, -BitVec.getElem_setWidth]
  · change Chk.result _ = _
    refine Chk.result_ok ?_ ?_ ?_ ?_ ?_ ?_ <;> simp [Reg.ofBits_bits, runChk, illIf_none, ite_none, -Nat.reduceAdd, -BitVec.setWidth_eq, -BitVec.getElem_setWidth, hw, sysRd hw.1.2]

theorem mtsr (h : Head) (num : BitVec 12) (a : Src) : Statement (.mtsr h num a) := by
  change (h.wf && (match sysReg? num.toNat with
      | some (_, _, wr) => !(wr = 0)
      | none => false) && a.wf (sysWords num) && (a.reg.isX || a.reg.isK)) = true → _
  intro hw
  try simp only [Src.wf, OpB.wf, Bool.and_eq_true, Bool.or_eq_true, Bool.not_eq_true', decide_eq_true_eq, ne_eq, BitVec.ofNat_eq_ofNat] at hw
  refine encodes_s64 (r := _) rfl ?_ ?_ rfl rfl ?_
  · simp [Reg.ofBits_bits, runChk, illIf_none, ite_none, -Nat.reduceAdd, -BitVec.setWidth_eq, -BitVec.getElem_setWidth, hw]
  · first | rfl | simp [Reg.ofBits_bits, runChk, illIf_none, ite_none, -Nat.reduceAdd, -BitVec.setWidth_eq, -BitVec.getElem_setWidth]
  · change Chk.result _ = _
    refine Chk.result_ok ?_ ?_ ?_ ?_ ?_ ?_ <;> simp [Reg.ofBits_bits, runChk, illIf_none, ite_none, -Nat.reduceAdd, -BitVec.setWidth_eq, -BitVec.getElem_setWidth, hw, sysWr hw.1.1.2]
    exact fun hx => hw.2.resolve_left (by simp [hx])

theorem xcopy (h : Head) (a : Src) (disp : BitVec 32) : Statement (.xcopy h a disp) := by
  change (h.wf && a.wf) = true → _
  intro hw
  try simp only [Src.wf, OpB.wf, Bool.and_eq_true, Bool.or_eq_true, Bool.not_eq_true', decide_eq_true_eq, ne_eq, BitVec.ofNat_eq_ofNat] at hw
  refine encodes_x96 (r := _) rfl ?_ rfl rfl rfl ?_
  · simp [Reg.ofBits_bits, runChk, illIf_none, ite_none, -Nat.reduceAdd, -BitVec.setWidth_eq, -BitVec.getElem_setWidth, hw]
  · change Chk.result _ = _
    refine Chk.result_ok ?_ ?_ ?_ ?_ ?_ ?_ <;> simp [Reg.ofBits_bits, runChk, illIf_none, ite_none, -Nat.reduceAdd, -BitVec.setWidth_eq, -BitVec.getElem_setWidth, hw]

theorem keyld (h : Head) (dst : Reg) (base : Src) (slot : Src) (disp : BitVec 32) : Statement (.keyld h dst base slot disp) := by
  change (h.wf && dst.dstWf && base.wf 2 && slot.wf) = true → _
  intro hw
  try simp only [Reg.dstWf, Src.wf, OpB.wf, Bool.and_eq_true, Bool.or_eq_true, Bool.not_eq_true', decide_eq_true_eq, ne_eq, BitVec.ofNat_eq_ofNat] at hw
  refine encodes_x96 (r := _) rfl ?_ rfl rfl rfl ?_
  · simp [Reg.ofBits_bits, runChk, illIf_none, ite_none, -Nat.reduceAdd, -BitVec.setWidth_eq, -BitVec.getElem_setWidth, hw]
  · change runChk (if mdW64 _ = true then some _ else some _) = _
    refine (congrArg runChk (if_neg ?_)).trans ?_
    · simp [mdW64]
    change Chk.result _ = _
    refine Chk.result_ok ?_ ?_ ?_ ?_ ?_ ?_ <;> simp [Reg.ofBits_bits, runChk, illIf_none, ite_none, -Nat.reduceAdd, -BitVec.setWidth_eq, -BitVec.getElem_setWidth, hw]

theorem keyldClr (h : Head) (dst : Reg) (slot : Src) : Statement (.keyldClr h dst slot) := by
  change (h.wf && dst.dstWf && slot.wf) = true → _
  intro hw
  try simp only [Reg.dstWf, Src.wf, OpB.wf, Bool.and_eq_true, Bool.or_eq_true, Bool.not_eq_true', decide_eq_true_eq, ne_eq, BitVec.ofNat_eq_ofNat] at hw
  refine encodes_x96 (r := _) rfl ?_ rfl rfl rfl ?_
  · simp [Reg.ofBits_bits, runChk, illIf_none, ite_none, -Nat.reduceAdd, -BitVec.setWidth_eq, -BitVec.getElem_setWidth, hw]
  · change runChk (if mdW64 _ = true then some _ else some _) = _
    refine (congrArg runChk (if_pos ?_)).trans ?_
    · simp [mdW64]
    change Chk.result _ = _
    refine Chk.result_ok ?_ ?_ ?_ ?_ ?_ ?_ <;> simp [Reg.ofBits_bits, runChk, illIf_none, ite_none, -Nat.reduceAdd, -BitVec.setWidth_eq, -BitVec.getElem_setWidth, hw]

theorem post (h : Head) (target : PostTarget) (pd : BitVec 3) (base : Src) (fill : Reg) (disp : BitVec 32) : Statement (.post h target pd base fill disp) := by
  change (h.wf && predDst pd && base.wfNoQ 2 && fill.dstNoQ) = true → _
  intro hw
  cases target
  all_goals
    try simp only [Reg.dstNoQ, Reg.dstWf, Src.wfNoQ, Src.wf, predDst, OpB.wf, Bool.and_eq_true, Bool.or_eq_true, Bool.not_eq_true', decide_eq_true_eq, ne_eq, BitVec.ofNat_eq_ofNat] at hw
    refine encodes_x96 (r := _) rfl ?_ rfl rfl rfl ?_
    · simp [Reg.ofBits_bits, runChk, illIf_none, ite_none, encPost, -Nat.reduceAdd, -BitVec.setWidth_eq, -BitVec.getElem_setWidth, hw]
    · change Chk.result _ = _
      refine Chk.result_ok ?_ ?_ ?_ ?_ ?_ ?_ <;> simp [Reg.ofBits_bits, runChk, illIf_none, ite_none, encPost, -Nat.reduceAdd, -BitVec.setWidth_eq, -BitVec.getElem_setWidth, hw, postTarget?]

theorem mmaF64 (o : MmaO) : Statement (.mmaF64 o) := fun h =>
  encodes_mma (aty := 0) (mk := .mmaF64) rfl rfl (by unfold x96Chk; rw [encMma_op]; rfl) h

theorem mmaF32 (o : MmaO) : Statement (.mmaF32 o) := fun h =>
  encodes_mma (aty := 1) (mk := .mmaF32) rfl rfl (by unfold x96Chk; rw [encMma_op]; rfl) h

theorem mmaBf16 (o : MmaO) : Statement (.mmaBf16 o) := fun h =>
  encodes_mma (aty := 2) (mk := .mmaBf16) rfl rfl (by unfold x96Chk; rw [encMma_op]; rfl) h

theorem mmaF16 (o : MmaO) : Statement (.mmaF16 o) := fun h =>
  encodes_mma (aty := 3) (mk := .mmaF16) rfl rfl (by unfold x96Chk; rw [encMma_op]; rfl) h

theorem mmaE4m3 (o : MmaO) : Statement (.mmaE4m3 o) := fun h =>
  encodes_mma (aty := 4) (mk := .mmaE4m3) rfl rfl (by unfold x96Chk; rw [encMma_op]; rfl) h

theorem mmaE5m2 (o : MmaO) : Statement (.mmaE5m2 o) := fun h =>
  encodes_mma (aty := 5) (mk := .mmaE5m2) rfl rfl (by unfold x96Chk; rw [encMma_op]; rfl) h

theorem mmaE3m2 (o : MmaO) : Statement (.mmaE3m2 o) := fun h =>
  encodes_mma (aty := 6) (mk := .mmaE3m2) rfl rfl (by unfold x96Chk; rw [encMma_op]; rfl) h

theorem mmaE2m3 (o : MmaO) : Statement (.mmaE2m3 o) := fun h =>
  encodes_mma (aty := 7) (mk := .mmaE2m3) rfl rfl (by unfold x96Chk; rw [encMma_op]; rfl) h

theorem mmaE2m1 (o : MmaO) : Statement (.mmaE2m1 o) := fun h =>
  encodes_mma (aty := 8) (mk := .mmaE2m1) rfl rfl (by unfold x96Chk; rw [encMma_op]; rfl) h

theorem mmaI8 (o : MmaO) : Statement (.mmaI8 o) := fun h =>
  encodes_mma (aty := 9) (mk := .mmaI8) rfl rfl (by unfold x96Chk; rw [encMma_op]; rfl) h

theorem mmaI4 (o : MmaO) : Statement (.mmaI4 o) := fun h =>
  encodes_mma (aty := 10) (mk := .mmaI4) rfl rfl (by unfold x96Chk; rw [encMma_op]; rfl) h

theorem matrixStep (cl : Nat) : Statement (.matrixStep cl) := fun h => absurd h Bool.false_ne_true

theorem matrixSetDiscard (gid : Nat) (cv : Nat) : Statement (.matrixSetDiscard gid cv) := fun h => absurd h Bool.false_ne_true

theorem mwait (h : Head) (clr : Bool) (cv : BitVec 4) (dst : Reg) : Statement (.mwait h clr cv dst) := by
  change (h.wf && dst.dstNoQ) = true → _
  intro hw
  try simp only [Reg.dstNoQ, Reg.dstWf, Src.wf, OpB.wf, Bool.and_eq_true, Bool.or_eq_true, Bool.not_eq_true', decide_eq_true_eq, ne_eq, BitVec.ofNat_eq_ofNat] at hw
  refine encodes_x96 (r := _) rfl ?_ rfl rfl rfl ?_
  · simp [Reg.ofBits_bits, runChk, illIf_none, ite_none, -Nat.reduceAdd, -BitVec.setWidth_eq, -BitVec.getElem_setWidth, hw]
  · change Chk.result _ = _
    refine Chk.result_ok ?_ ?_ ?_ ?_ ?_ ?_ <;> simp [Reg.ofBits_bits, runChk, illIf_none, ite_none, -Nat.reduceAdd, -BitVec.setWidth_eq, -BitVec.getElem_setWidth, hw]

theorem mtrn (h : Head) (w : BitVec 2) (cv : BitVec 4) (dst : Reg) (a : Src) : Statement (.mtrn h w cv dst a) := by
  change (h.wf && dst.wf && dst.aligned 2 && a.wf 2) = true → _
  intro hw
  try simp only [Src.wf, OpB.wf, Bool.and_eq_true, Bool.or_eq_true, Bool.not_eq_true', decide_eq_true_eq, ne_eq, BitVec.ofNat_eq_ofNat] at hw
  refine encodes_x96 (r := _) rfl ?_ rfl rfl rfl ?_
  · simp [Reg.ofBits_bits, runChk, illIf_none, ite_none, -Nat.reduceAdd, -BitVec.setWidth_eq, -BitVec.getElem_setWidth, hw]
  · change Chk.result _ = _
    refine Chk.result_ok ?_ ?_ ?_ ?_ ?_ ?_ <;> simp [Reg.ofBits_bits, runChk, illIf_none, ite_none, -Nat.reduceAdd, -BitVec.setWidth_eq, -BitVec.getElem_setWidth, hw]

theorem mqnt (h : Head) (ty : BitVec 3) (b32 : Bool) (nosat : Bool) (cv : BitVec 4) (dst : Reg) (a : Src) (sc : Src) : Statement (.mqnt h ty b32 nosat cv dst a sc) := by
  change (h.wf && ty.toNat ≤ 4 && (!nosat || ty.toNat ≤ 1) && dst.wf && dst.aligned 2 && a.wf 2 && sc.wf) = true → _
  intro hw
  try simp only [Src.wf, OpB.wf, Bool.and_eq_true, Bool.or_eq_true, Bool.not_eq_true', decide_eq_true_eq, ne_eq, BitVec.ofNat_eq_ofNat] at hw
  refine encodes_x96 (r := _) rfl ?_ rfl rfl rfl ?_
  · simp [Reg.ofBits_bits, runChk, illIf_none, ite_none, -Nat.reduceAdd, -BitVec.setWidth_eq, -BitVec.getElem_setWidth, hw]
  · change Chk.result _ = _
    refine Chk.result_ok ?_ ?_ ?_ ?_ ?_ ?_ <;> simp [Reg.ofBits_bits, runChk, illIf_none, ite_none, -Nat.reduceAdd, -BitVec.setWidth_eq, -BitVec.getElem_setWidth, hw, eq_true (fun hn => by simpa [hn] using hw.1.1.1.1.2 : nosat = true → ty.toNat ≤ 1)]

theorem mclr (h : Head) (acc : BitVec 2) (cv : BitVec 4) (a : Src) : Statement (.mclr h acc cv a) := by
  change (h.wf && acc ≠ 3 && a.wf 2) = true → _
  intro hw
  try simp only [Src.wf, OpB.wf, Bool.and_eq_true, Bool.or_eq_true, Bool.not_eq_true', decide_eq_true_eq, ne_eq, BitVec.ofNat_eq_ofNat] at hw
  refine encodes_x96 (r := _) rfl ?_ rfl rfl rfl ?_
  · simp [Reg.ofBits_bits, runChk, illIf_none, ite_none, -Nat.reduceAdd, -BitVec.setWidth_eq, -BitVec.getElem_setWidth, hw]
  · change Chk.result _ = _
    refine Chk.result_ok ?_ ?_ ?_ ?_ ?_ ?_ <;> simp [Reg.ofBits_bits, runChk, illIf_none, ite_none, -Nat.reduceAdd, -BitVec.setWidth_eq, -BitVec.getElem_setWidth, hw]

theorem mstat (h : Head) (clr : Bool) (dst : Reg) : Statement (.mstat h clr dst) := by
  change (h.wf && dst.dstWf 2) = true → _
  intro hw
  try simp only [Reg.dstWf, Src.wf, OpB.wf, Bool.and_eq_true, Bool.or_eq_true, Bool.not_eq_true', decide_eq_true_eq, ne_eq, BitVec.ofNat_eq_ofNat] at hw
  refine encodes_x96 (r := _) rfl ?_ rfl rfl rfl ?_
  · simp [Reg.ofBits_bits, runChk, illIf_none, ite_none, -Nat.reduceAdd, -BitVec.setWidth_eq, -BitVec.getElem_setWidth, hw]
  · change Chk.result _ = _
    refine Chk.result_ok ?_ ?_ ?_ ?_ ?_ ?_ <;> simp [Reg.ofBits_bits, runChk, illIf_none, ite_none, -Nat.reduceAdd, -BitVec.setWidth_eq, -BitVec.getElem_setWidth, hw]

theorem travi (h : Head) (flags : BitVec 4) (w : Reg) (root : Src) : Statement (.travi h flags w root) := by
  change (h.wf && windowWf w && root.reg.isX && root.rayWf w 1) = true → _
  intro hw
  try simp only [Src.rayWf, Src.wfNoQ, Src.wf, OpB.wf, Bool.and_eq_true, Bool.or_eq_true, Bool.not_eq_true', decide_eq_true_eq, ne_eq, BitVec.ofNat_eq_ofNat] at hw
  refine encodes_x96 (r := _) rfl ?_ rfl rfl rfl ?_
  · simp [Reg.ofBits_bits, runChk, illIf_none, ite_none, rayChk, -Nat.reduceAdd, -BitVec.setWidth_eq, -BitVec.getElem_setWidth, hw]
  · change Chk.result _ = _
    refine Chk.result_ok ?_ ?_ ?_ ?_ ?_ ?_ <;> simp [Reg.ofBits_bits, runChk, illIf_none, ite_none, rayChk, -Nat.reduceAdd, -BitVec.setWidth_eq, -BitVec.getElem_setWidth, hw, windowWf_wf (w := w) (by simp_all), windowWf_isX (w := w) (by simp_all), show illIf false Ill.rsv = none from rfl]

theorem trav (h : Head) (dst : Reg) (w : Reg) (base : Src) (inst : Src) (n : BitVec 16) : Statement (.trav h dst w base inst n) := by
  change (h.wf && windowWf w && rayDst w dst && base.rayWf w 2 && inst.rayWf w 1 && n ≠ 0) = true → _
  intro hw
  try simp only [rayDst, Reg.dstNoQ, Reg.dstWf, Src.rayWf, Src.wfNoQ, Src.wf, OpB.wf, Bool.and_eq_true, Bool.or_eq_true, Bool.not_eq_true', decide_eq_true_eq, ne_eq, BitVec.ofNat_eq_ofNat] at hw
  refine encodes_x96 (r := _) rfl ?_ rfl rfl rfl ?_
  · simp [Reg.ofBits_bits, runChk, illIf_none, ite_none, rayChk, -Nat.reduceAdd, -BitVec.setWidth_eq, -BitVec.getElem_setWidth, hw]
  · change Chk.result _ = _
    refine Chk.result_ok ?_ ?_ ?_ ?_ ?_ ?_ <;> simp [Reg.ofBits_bits, runChk, illIf_none, ite_none, rayChk, -Nat.reduceAdd, -BitVec.setWidth_eq, -BitVec.getElem_setWidth, hw, windowWf_wf (w := w) (by simp_all), windowWf_isX (w := w) (by simp_all)]

theorem thitAcc (h : Head) (w : Reg) (bary : Src) (inst : Src) : Statement (.thitAcc h w bary inst) := by
  change (h.wf && windowWf w && bary.rayWf w 1 && inst.rayWf w 1) = true → _
  intro hw
  try simp only [Src.rayWf, Src.wfNoQ, Src.wf, OpB.wf, Bool.and_eq_true, Bool.or_eq_true, Bool.not_eq_true', decide_eq_true_eq, ne_eq, BitVec.ofNat_eq_ofNat] at hw
  refine encodes_x96 (r := _) rfl ?_ rfl rfl rfl ?_
  · simp [Reg.ofBits_bits, runChk, illIf_none, ite_none, rayChk, -Nat.reduceAdd, -BitVec.setWidth_eq, -BitVec.getElem_setWidth, hw]
  · change runChk (if mdW64 _ = true then some _ else some _) = _
    refine (congrArg runChk (if_pos ?_)).trans ?_
    · simp [mdW64]
    change Chk.result _ = _
    refine Chk.result_ok ?_ ?_ ?_ ?_ ?_ ?_ <;> simp [Reg.ofBits_bits, runChk, illIf_none, ite_none, rayChk, -Nat.reduceAdd, -BitVec.setWidth_eq, -BitVec.getElem_setWidth, hw, windowWf_wf (w := w) (by simp_all), windowWf_isX (w := w) (by simp_all)]

theorem thitRej (h : Head) (w : Reg) : Statement (.thitRej h w) := by
  change (h.wf && windowWf w) = true → _
  intro hw
  try simp only [Src.wf, OpB.wf, Bool.and_eq_true, Bool.or_eq_true, Bool.not_eq_true', decide_eq_true_eq, ne_eq, BitVec.ofNat_eq_ofNat] at hw
  refine encodes_x96 (r := _) rfl ?_ rfl rfl rfl ?_
  · simp [Reg.ofBits_bits, runChk, illIf_none, ite_none, rayChk, -Nat.reduceAdd, -BitVec.setWidth_eq, -BitVec.getElem_setWidth, hw]
  · change runChk (if mdW64 _ = true then some _ else some _) = _
    refine (congrArg runChk (if_neg ?_)).trans ?_
    · simp [mdW64]
    change Chk.result _ = _
    refine Chk.result_ok ?_ ?_ ?_ ?_ ?_ ?_ <;> simp [Reg.ofBits_bits, runChk, illIf_none, ite_none, rayChk, -Nat.reduceAdd, -BitVec.setWidth_eq, -BitVec.getElem_setWidth, hw, windowWf_wf (w := w) (by simp_all), windowWf_isX (w := w) (by simp_all)]

theorem tri (h : Head) (cull : BitVec 2) (dst : Reg) (w : Reg) (base : Src) (disp : BitVec 32) : Statement (.tri h cull dst w base disp) := by
  change (h.wf && windowWf w && rayDst w dst && base.rayWf w 2) = true → _
  intro hw
  try simp only [rayDst, Reg.dstNoQ, Reg.dstWf, Src.rayWf, Src.wfNoQ, Src.wf, OpB.wf, Bool.and_eq_true, Bool.or_eq_true, Bool.not_eq_true', decide_eq_true_eq, ne_eq, BitVec.ofNat_eq_ofNat] at hw
  refine encodes_x96 (r := _) rfl ?_ rfl rfl rfl ?_
  · simp [Reg.ofBits_bits, runChk, illIf_none, ite_none, rayChk, -Nat.reduceAdd, -BitVec.setWidth_eq, -BitVec.getElem_setWidth, hw]
  · change Chk.result _ = _
    refine Chk.result_ok ?_ ?_ ?_ ?_ ?_ ?_ <;> simp [Reg.ofBits_bits, runChk, illIf_none, ite_none, rayChk, -Nat.reduceAdd, -BitVec.setWidth_eq, -BitVec.getElem_setWidth, hw, windowWf_wf (w := w) (by simp_all), windowWf_isX (w := w) (by simp_all)]

theorem tbox (h : Head) (slot : BitVec 3) (dst : Reg) (w : Reg) (base : Src) (disp : BitVec 32) : Statement (.tbox h slot dst w base disp) := by
  change (h.wf && windowWf w && rayDst w dst && base.rayWf w 2) = true → _
  intro hw
  try simp only [rayDst, Reg.dstNoQ, Reg.dstWf, Src.rayWf, Src.wfNoQ, Src.wf, OpB.wf, Bool.and_eq_true, Bool.or_eq_true, Bool.not_eq_true', decide_eq_true_eq, ne_eq, BitVec.ofNat_eq_ofNat] at hw
  refine encodes_x96 (r := _) rfl ?_ rfl rfl rfl ?_
  · simp [Reg.ofBits_bits, runChk, illIf_none, ite_none, rayChk, -Nat.reduceAdd, -BitVec.setWidth_eq, -BitVec.getElem_setWidth, hw]
  · change Chk.result _ = _
    refine Chk.result_ok ?_ ?_ ?_ ?_ ?_ ?_ <;> simp [Reg.ofBits_bits, runChk, illIf_none, ite_none, rayChk, -Nat.reduceAdd, -BitVec.setWidth_eq, -BitVec.getElem_setWidth, hw, windowWf_wf (w := w) (by simp_all), windowWf_isX (w := w) (by simp_all)]

theorem tstk (h : Head) (w : Reg) (base : Src) (disp : BitVec 32) : Statement (.tstk h w base disp) := by
  change (h.wf && windowWf w && base.rayWf w 2) = true → _
  intro hw
  try simp only [Src.rayWf, Src.wfNoQ, Src.wf, OpB.wf, Bool.and_eq_true, Bool.or_eq_true, Bool.not_eq_true', decide_eq_true_eq, ne_eq, BitVec.ofNat_eq_ofNat] at hw
  refine encodes_x96 (r := _) rfl ?_ rfl rfl rfl ?_
  · simp [Reg.ofBits_bits, runChk, illIf_none, ite_none, rayChk, -Nat.reduceAdd, -BitVec.setWidth_eq, -BitVec.getElem_setWidth, hw]
  · change Chk.result _ = _
    refine Chk.result_ok ?_ ?_ ?_ ?_ ?_ ?_ <;> simp [Reg.ofBits_bits, runChk, illIf_none, ite_none, rayChk, -Nat.reduceAdd, -BitVec.setWidth_eq, -BitVec.getElem_setWidth, hw, windowWf_wf (w := w) (by simp_all), windowWf_isX (w := w) (by simp_all)]

theorem lnlk (h : Head) (dst : Reg) (obj : Src) (uv : Src) (key : Src) : Statement (.lnlk h dst obj uv key) := by
  change (h.wf && dst.dstNoQ 4 && obj.wfNoQ && uv.wfNoQ && key.wfNoQ) = true → _
  intro hw
  try simp only [Reg.dstNoQ, Reg.dstWf, Src.wfNoQ, Src.wf, OpB.wf, Bool.and_eq_true, Bool.or_eq_true, Bool.not_eq_true', decide_eq_true_eq, ne_eq, BitVec.ofNat_eq_ofNat] at hw
  refine encodes_x96 (r := _) rfl ?_ rfl rfl rfl ?_
  · simp [Reg.ofBits_bits, runChk, illIf_none, ite_none, encLn, lnChk, -Nat.reduceAdd, -BitVec.setWidth_eq, -BitVec.getElem_setWidth, hw]
  · change Chk.result _ = _
    refine Chk.result_ok ?_ ?_ ?_ ?_ ?_ ?_ <;> simp [Reg.ofBits_bits, runChk, illIf_none, ite_none, encLn, lnChk, -Nat.reduceAdd, -BitVec.setWidth_eq, -BitVec.getElem_setWidth, hw]

theorem lnlkW (h : Head) (dst : Reg) (obj : Src) (uv : Src) (key : Src) : Statement (.lnlkW h dst obj uv key) := by
  change (h.wf && dst.dstNoQ 4 && obj.wfNoQ && uv.wfNoQ && key.wfNoQ) = true → _
  intro hw
  try simp only [Reg.dstNoQ, Reg.dstWf, Src.wfNoQ, Src.wf, OpB.wf, Bool.and_eq_true, Bool.or_eq_true, Bool.not_eq_true', decide_eq_true_eq, ne_eq, BitVec.ofNat_eq_ofNat] at hw
  refine encodes_x96 (r := _) rfl ?_ rfl rfl rfl ?_
  · simp [Reg.ofBits_bits, runChk, illIf_none, ite_none, encLn, lnChk, -Nat.reduceAdd, -BitVec.setWidth_eq, -BitVec.getElem_setWidth, hw]
  · change Chk.result _ = _
    refine Chk.result_ok ?_ ?_ ?_ ?_ ?_ ?_ <;> simp [Reg.ofBits_bits, runChk, illIf_none, ite_none, encLn, lnChk, -Nat.reduceAdd, -BitVec.setWidth_eq, -BitVec.getElem_setWidth, hw]

theorem lnfil (h : Head) (dst : Reg) (obj : Src) (uv : Src) (key : Src) : Statement (.lnfil h dst obj uv key) := by
  change (h.wf && dst.dstNoQ && obj.wfNoQ && uv.wfNoQ && key.wfNoQ) = true → _
  intro hw
  try simp only [Reg.dstNoQ, Reg.dstWf, Src.wfNoQ, Src.wf, OpB.wf, Bool.and_eq_true, Bool.or_eq_true, Bool.not_eq_true', decide_eq_true_eq, ne_eq, BitVec.ofNat_eq_ofNat] at hw
  refine encodes_x96 (r := _) rfl ?_ rfl rfl rfl ?_
  · simp [Reg.ofBits_bits, runChk, illIf_none, ite_none, encLn, lnChk, -Nat.reduceAdd, -BitVec.setWidth_eq, -BitVec.getElem_setWidth, hw]
  · change Chk.result _ = _
    refine Chk.result_ok ?_ ?_ ?_ ?_ ?_ ?_ <;> simp [Reg.ofBits_bits, runChk, illIf_none, ite_none, encLn, lnChk, -Nat.reduceAdd, -BitVec.setWidth_eq, -BitVec.getElem_setWidth, hw]

theorem lninvKey (h : Head) (dst : Reg) (obj : Src) (uv : Src) (key : Src) : Statement (.lninvKey h dst obj uv key) := by
  change (h.wf && dst.dstNoQ && obj.wfNoQ && uv.wfNoQ && key.wfNoQ) = true → _
  intro hw
  try simp only [Reg.dstNoQ, Reg.dstWf, Src.wfNoQ, Src.wf, OpB.wf, Bool.and_eq_true, Bool.or_eq_true, Bool.not_eq_true', decide_eq_true_eq, ne_eq, BitVec.ofNat_eq_ofNat] at hw
  refine encodes_x96 (r := _) rfl ?_ rfl rfl rfl ?_
  · simp [Reg.ofBits_bits, runChk, illIf_none, ite_none, encLn, lnChk, -Nat.reduceAdd, -BitVec.setWidth_eq, -BitVec.getElem_setWidth, hw]
  · change Chk.result _ = _
    refine Chk.result_ok ?_ ?_ ?_ ?_ ?_ ?_ <;> simp [Reg.ofBits_bits, runChk, illIf_none, ite_none, encLn, lnChk, -Nat.reduceAdd, -BitVec.setWidth_eq, -BitVec.getElem_setWidth, hw]

theorem lninvObj (h : Head) (dst : Reg) (obj : Src) (key : Src) : Statement (.lninvObj h dst obj key) := by
  change (h.wf && dst.dstNoQ && obj.wfNoQ && key.wfNoQ) = true → _
  intro hw
  try simp only [Reg.dstNoQ, Reg.dstWf, Src.wfNoQ, Src.wf, OpB.wf, Bool.and_eq_true, Bool.or_eq_true, Bool.not_eq_true', decide_eq_true_eq, ne_eq, BitVec.ofNat_eq_ofNat] at hw
  refine encodes_x96 (r := _) rfl ?_ rfl rfl rfl ?_
  · simp [Reg.ofBits_bits, runChk, illIf_none, ite_none, encLn, lnChk, -Nat.reduceAdd, -BitVec.setWidth_eq, -BitVec.getElem_setWidth, hw]
  · change Chk.result _ = _
    refine Chk.result_ok ?_ ?_ ?_ ?_ ?_ ?_ <;> simp [Reg.ofBits_bits, runChk, illIf_none, ite_none, encLn, lnChk, -Nat.reduceAdd, -BitVec.setWidth_eq, -BitVec.getElem_setWidth, hw]

theorem lninvRev (h : Head) (dst : Reg) (obj : Src) (key : Src) : Statement (.lninvRev h dst obj key) := by
  change (h.wf && dst.dstNoQ && obj.wfNoQ && key.wfNoQ) = true → _
  intro hw
  try simp only [Reg.dstNoQ, Reg.dstWf, Src.wfNoQ, Src.wf, OpB.wf, Bool.and_eq_true, Bool.or_eq_true, Bool.not_eq_true', decide_eq_true_eq, ne_eq, BitVec.ofNat_eq_ofNat] at hw
  refine encodes_x96 (r := _) rfl ?_ rfl rfl rfl ?_
  · simp [Reg.ofBits_bits, runChk, illIf_none, ite_none, encLn, lnChk, -Nat.reduceAdd, -BitVec.setWidth_eq, -BitVec.getElem_setWidth, hw]
  · change Chk.result _ = _
    refine Chk.result_ok ?_ ?_ ?_ ?_ ?_ ?_ <;> simp [Reg.ofBits_bits, runChk, illIf_none, ite_none, encLn, lnChk, -Nat.reduceAdd, -BitVec.setWidth_eq, -BitVec.getElem_setWidth, hw]

theorem lnage (h : Head) (dst : Reg) (key : Src) (target : Src) (thr : BitVec 8) : Statement (.lnage h dst key target thr) := by
  change (h.wf && dst.dstNoQ 2 && key.wfNoQ && target.wfNoQ) = true → _
  intro hw
  try simp only [Reg.dstNoQ, Reg.dstWf, Src.wfNoQ, Src.wf, OpB.wf, Bool.and_eq_true, Bool.or_eq_true, Bool.not_eq_true', decide_eq_true_eq, ne_eq, BitVec.ofNat_eq_ofNat] at hw
  refine encodes_x96 (r := _) rfl ?_ rfl rfl rfl ?_
  · simp [Reg.ofBits_bits, runChk, illIf_none, ite_none, encLn, lnChk, -Nat.reduceAdd, -BitVec.setWidth_eq, -BitVec.getElem_setWidth, hw]
  · change Chk.result _ = _
    refine Chk.result_ok ?_ ?_ ?_ ?_ ?_ ?_ <;> simp [Reg.ofBits_bits, runChk, illIf_none, ite_none, encLn, lnChk, -Nat.reduceAdd, -BitVec.setWidth_eq, -BitVec.getElem_setWidth, hw]

theorem smpg (h : Head) (dst : Reg) (imp : Src) (seed : Src) (pos : Src) : Statement (.smpg h dst imp seed pos) := by
  change (h.wf && dst.dstNoQ 2 && imp.wfNoQ 2 && seed.wfNoQ && pos.wfNoQ) = true → _
  intro hw
  try simp only [Reg.dstNoQ, Reg.dstWf, Src.wfNoQ, Src.wf, OpB.wf, Bool.and_eq_true, Bool.or_eq_true, Bool.not_eq_true', decide_eq_true_eq, ne_eq, BitVec.ofNat_eq_ofNat] at hw
  refine encodes_x96 (r := _) rfl ?_ rfl rfl rfl ?_
  · simp [Reg.ofBits_bits, runChk, illIf_none, ite_none, encLn, lnChk, -Nat.reduceAdd, -BitVec.setWidth_eq, -BitVec.getElem_setWidth, hw]
  · change runChk (if mdW64 _ = true then some _ else some _) = _
    refine (congrArg runChk (if_neg ?_)).trans ?_
    · simp [mdW64, encLn]
    change Chk.result _ = _
    refine Chk.result_ok ?_ ?_ ?_ ?_ ?_ ?_ <;> simp [Reg.ofBits_bits, runChk, illIf_none, ite_none, encLn, lnChk, -Nat.reduceAdd, -BitVec.setWidth_eq, -BitVec.getElem_setWidth, hw]

theorem smpgGrid (h : Head) (dst : Reg) (imp : Src) (pos : Src) : Statement (.smpgGrid h dst imp pos) := by
  change (h.wf && dst.dstNoQ 2 && imp.wfNoQ 2 && pos.wfNoQ) = true → _
  intro hw
  try simp only [Reg.dstNoQ, Reg.dstWf, Src.wfNoQ, Src.wf, OpB.wf, Bool.and_eq_true, Bool.or_eq_true, Bool.not_eq_true', decide_eq_true_eq, ne_eq, BitVec.ofNat_eq_ofNat] at hw
  refine encodes_x96 (r := _) rfl ?_ rfl rfl rfl ?_
  · simp [Reg.ofBits_bits, runChk, illIf_none, ite_none, encLn, lnChk, -Nat.reduceAdd, -BitVec.setWidth_eq, -BitVec.getElem_setWidth, hw]
  · change runChk (if mdW64 _ = true then some _ else some _) = _
    refine (congrArg runChk (if_pos ?_)).trans ?_
    · simp [mdW64]
    change Chk.result _ = _
    refine Chk.result_ok ?_ ?_ ?_ ?_ ?_ ?_ <;> simp [Reg.ofBits_bits, runChk, illIf_none, ite_none, encLn, lnChk, -Nat.reduceAdd, -BitVec.setWidth_eq, -BitVec.getElem_setWidth, hw]

theorem longLatencyWriteback (tid : Nat) (aid : Nat) : Statement (.longLatencyWriteback tid aid) := fun h => absurd h Bool.false_ne_true

theorem threadWake (tid : Nat) : Statement (.threadWake tid) := fun h => absurd h Bool.false_ne_true

theorem trywTimeout (tid : Nat) : Statement (.trywTimeout tid) := fun h => absurd h Bool.false_ne_true

theorem foghornTrap (core : Nat) : Statement (.foghornTrap core) := fun h => absurd h Bool.false_ne_true

theorem boundaryClose (iid : Nat) (key : Nat) : Statement (.boundaryClose iid key) := fun h => absurd h Bool.false_ne_true

theorem acknowledge (fid : Nat) : Statement (.acknowledge fid) := fun h => absurd h Bool.false_ne_true

theorem faultRecordPost (rid : Nat) : Statement (.faultRecordPost rid) := fun h => absurd h Bool.false_ne_true

theorem readDupCollapse (leaf : Nat) : Statement (.readDupCollapse leaf) := fun h => absurd h Bool.false_ne_true

theorem demotionSweep (tier : Nat) : Statement (.demotionSweep tier) := fun h => absurd h Bool.false_ne_true

theorem tierPointerWrite (tier : Nat) (v : BitVec 64) : Statement (.tierPointerWrite tier v) := fun h => absurd h Bool.false_ne_true

theorem copyStart (cl : Nat) : Statement (.copyStart cl) := fun h => absurd h Bool.false_ne_true

theorem copyLine (cl : Nat) (pick : Nat) : Statement (.copyLine cl pick) := fun h => absurd h Bool.false_ne_true

theorem decryptTagCheck (cl : Nat) : Statement (.decryptTagCheck cl) := fun h => absurd h Bool.false_ne_true

theorem parityUpdate (cl : Nat) (grp : Nat) : Statement (.parityUpdate cl grp) := fun h => absurd h Bool.false_ne_true

theorem vaultScrub (cl : Nat) (line : Nat) : Statement (.vaultScrub cl line) := fun h => absurd h Bool.false_ne_true

theorem groupTransition (cl : Nat) (grp : Nat) : Statement (.groupTransition cl grp) := fun h => absurd h Bool.false_ne_true

theorem vaultRemap (cl : Nat) : Statement (.vaultRemap cl) := fun h => absurd h Bool.false_ne_true

theorem scratchGrantLower (cl : Nat) : Statement (.scratchGrantLower cl) := fun h => absurd h Bool.false_ne_true

theorem budgetPick (point : Nat) : Statement (.budgetPick point) := fun h => absurd h Bool.false_ne_true

theorem budgetPeriodStart (point : Nat) : Statement (.budgetPeriodStart point) := fun h => absurd h Bool.false_ne_true

theorem budgetTableWrite (table : Nat) (entries : List (BitVec 64)) : Statement (.budgetTableWrite table entries) :=
  fun h => absurd h Bool.false_ne_true

theorem dramPatrolScrub (line : Nat) : Statement (.dramPatrolScrub line) := fun h => absurd h Bool.false_ne_true

theorem remoteRead (stack : Nat) (rid : BitVec 16) (frame : Nat) (off : Nat) : Statement (.remoteRead stack rid frame off) :=
  fun h => absurd h Bool.false_ne_true

theorem remoteWrite (stack : Nat) (rid : BitVec 16) (frame : Nat) (off : Nat) (data : BitVec 512) : Statement (.remoteWrite stack rid frame off data) :=
  fun h => absurd h Bool.false_ne_true

theorem submitDoorbell (ctx : Nat) (ref : BitVec 64) : Statement (.submitDoorbell ctx ref) := fun h => absurd h Bool.false_ne_true

theorem cardPlace (qid : Nat) (cores : List Nat) : Statement (.cardPlace qid cores) := fun h => absurd h Bool.false_ne_true

theorem headWaitExpiry (qid : Nat) : Statement (.headWaitExpiry qid) := fun h => absurd h Bool.false_ne_true

theorem domainCardForward (ctx : Nat) (ref : BitVec 64) (card : BitVec 512) : Statement (.domainCardForward ctx ref card) :=
  fun h => absurd h Bool.false_ne_true

theorem coreGroupComplete (gid : Nat) : Statement (.coreGroupComplete gid) := fun h => absurd h Bool.false_ne_true

theorem cardComplete (iid : Nat) : Statement (.cardComplete iid) := fun h => absurd h Bool.false_ne_true

theorem noticeDeliver (nid : Nat) : Statement (.noticeDeliver nid) := fun h => absurd h Bool.false_ne_true

theorem partitionControlWrite (part : Nat) (blk : BitVec 1024) : Statement (.partitionControlWrite part blk) :=
  fun h => absurd h Bool.false_ne_true

theorem sweepWindowEnd  : Statement (.sweepWindowEnd ) := fun h => absurd h Bool.false_ne_true

theorem preempt (ctx : Nat) : Statement (.preempt ctx) := fun h => absurd h Bool.false_ne_true

theorem resume (ctx : Nat) : Statement (.resume ctx) := fun h => absurd h Bool.false_ne_true

theorem reset (ctx : Nat) : Statement (.reset ctx) := fun h => absurd h Bool.false_ne_true

theorem drainDeadline (ctx : Nat) : Statement (.drainDeadline ctx) := fun h => absurd h Bool.false_ne_true

theorem checkpoint (ctx : Nat) : Statement (.checkpoint ctx) := fun h => absurd h Bool.false_ne_true

theorem checkpointDeadline (ctx : Nat) : Statement (.checkpointDeadline ctx) := fun h => absurd h Bool.false_ne_true

theorem resumePlace (ctx : Nat) (iid : Nat) (cores : List Nat) : Statement (.resumePlace ctx iid cores) := fun h => absurd h Bool.false_ne_true

theorem create (ctx : Nat) (desc : BitVec 64) : Statement (.create ctx desc) := fun h => absurd h Bool.false_ne_true

theorem destroy (ctx : Nat) : Statement (.destroy ctx) := fun h => absurd h Bool.false_ne_true

theorem killContext (ctx : Nat) : Statement (.killContext ctx) := fun h => absurd h Bool.false_ne_true

theorem lossRecordPush (ctx : Nat) : Statement (.lossRecordPush ctx) := fun h => absurd h Bool.false_ne_true

theorem share (ctx : Nat) (a0 : BitVec 64) : Statement (.share ctx a0) := fun h => absurd h Bool.false_ne_true

theorem s2inv (ctx : Nat) (a0 : BitVec 64) (a1 : BitVec 64) : Statement (.s2inv ctx a0 a1) := fun h => absurd h Bool.false_ne_true

theorem grant (ctx : Nat) (a0 : BitVec 64) (a1 : BitVec 64) : Statement (.grant ctx a0 a1) := fun h => absurd h Bool.false_ne_true

theorem wcreate (ctx : Nat) (a0 : BitVec 64) (a1 : BitVec 64) : Statement (.wcreate ctx a0 a1) := fun h => absurd h Bool.false_ne_true

theorem wdestroy (ctx : Nat) (a0 : BitVec 64) : Statement (.wdestroy ctx a0) := fun h => absurd h Bool.false_ne_true

theorem bindvf (ctx : Nat) (a0 : BitVec 64) : Statement (.bindvf ctx a0) := fun h => absurd h Bool.false_ne_true

theorem djoin (ctx : Nat) (a0 : BitVec 64) (a1 : BitVec 64) : Statement (.djoin ctx a0 a1) := fun h => absurd h Bool.false_ne_true

theorem qpcreate (qpn : Nat) (a0 : BitVec 64) : Statement (.qpcreate qpn a0) := fun h => absurd h Bool.false_ne_true

theorem qpstate (qpn : Nat) (a0 : BitVec 64) (a1 : BitVec 64) : Statement (.qpstate qpn a0 a1) := fun h => absurd h Bool.false_ne_true

theorem qpdestroy (qpn : Nat) : Statement (.qpdestroy qpn) := fun h => absurd h Bool.false_ne_true

theorem qpDoorbell (ctx : Nat) (v : BitVec 64) : Statement (.qpDoorbell ctx v) := fun h => absurd h Bool.false_ne_true

theorem rdmaIncoming (qpn : Nat) (op : RdmaOp) (raddr : BitVec 64) (len : Nat) (data : List Byte) (cmp : BitVec 64) (swap : BitVec 64) (imm : Option (BitVec 32))
    : Statement (.rdmaIncoming qpn op raddr len data cmp swap imm) :=
  fun h => absurd h Bool.false_ne_true

theorem ethModeWrite (port : Nat) (v : BitVec 64) : Statement (.ethModeWrite port v) := fun h => absurd h Bool.false_ne_true

theorem fabricIdentityWrite (v : BitVec 64) : Statement (.fabricIdentityWrite v) := fun h => absurd h Bool.false_ne_true

theorem fabricPortDown (port : Nat) : Statement (.fabricPortDown port) := fun h => absurd h Bool.false_ne_true

theorem fabricIngress (die : Nat) (dev : BitVec 8) (op : IngressOp) (pa : Nat) (data : List Byte) : Statement (.fabricIngress die dev op pa data) :=
  fun h => absurd h Bool.false_ne_true

theorem registerWrite (off : Nat) (bytes : Nat) (v : BitVec 64) : Statement (.registerWrite off bytes v) := fun h => absurd h Bool.false_ne_true

theorem vfFlr (vf : Nat) : Statement (.vfFlr vf) := fun h => absurd h Bool.false_ne_true

theorem pfFlr  : Statement (.pfFlr ) := fun h => absurd h Bool.false_ne_true

theorem conventionalReset  : Statement (.conventionalReset ) := fun h => absurd h Bool.false_ne_true

theorem fatalError  : Statement (.fatalError ) := fun h => absurd h Bool.false_ne_true

theorem powerUp  : Statement (.powerUp ) := fun h => absurd h Bool.false_ne_true

theorem powerLimit (watts : Nat) : Statement (.powerLimit watts) := fun h => absurd h Bool.false_ne_true

theorem firmwareUpdate (image : Nat) : Statement (.firmwareUpdate image) := fun h => absurd h Bool.false_ne_true

theorem tdiEnterRun (tdi : Nat) : Statement (.tdiEnterRun tdi) := fun h => absurd h Bool.false_ne_true

theorem tdiLeaveRun (tdi : Nat) : Statement (.tdiLeaveRun tdi) := fun h => absurd h Bool.false_ne_true

theorem ideIntegrityFail (tdi : Nat) : Statement (.ideIntegrityFail tdi) := fun h => absurd h Bool.false_ne_true

theorem cflushIinvCompletion (tid : Nat) (item : Nat) : Statement (.cflushIinvCompletion tid item) := fun h => absurd h Bool.false_ne_true

theorem islandFrequencyStep (island : Nat) (raise : Bool) : Statement (.islandFrequencyStep island raise) := fun h => absurd h Bool.false_ne_true

theorem flitForward (dev : BitVec 8) (line : Nat) : Statement (.flitForward dev line) := fun h => absurd h Bool.false_ne_true

theorem fabricPortUp (port : Nat) : Statement (.fabricPortUp port) := fun h => absurd h Bool.false_ne_true

theorem mainRailsDown  : Statement (.mainRailsDown ) := fun h => absurd h Bool.false_ne_true

theorem spdmRequest (req : SpdmReq) : Statement (.spdmRequest req) := fun h => absurd h Bool.false_ne_true

theorem tdiLock (tdi : Nat) : Statement (.tdiLock tdi) := fun h => absurd h Bool.false_ne_true

theorem qpCompletion (qpn : Nat) (ok : Bool) (data : List Byte) : Statement (.qpCompletion qpn ok data) := fun h => absurd h Bool.false_ne_true

end Laws.Encodes

end Sys2Proof
end

