-- ==== Sys2Proof/Tests/Slice0.lean ====
section
/-! SUPPORT. Slice0.lean: tests of the model on small examples. Their expected results come from the spec's encodings, tables
and worked examples, or are computed from them by hand. -/

namespace Slice0Tests

open Sys2Proof Sys2Proof.Machine

/-! ## Words written out from the spec's encodings (R26, R27, R31, R36, R39) -/

/-- Guard p7. -/
def g7 : Head := { sp := false, pn := false, pg := 7 }

/-- A register source with wait bit 1, and one with wait bit 0. -/
def wt (n : Nat) : Src := ⟨.x n, true⟩
def fr (n : Nat) : Src := ⟨.x n, false⟩

/-! ## Small states -/

/-- A state a step answers. -/
def nextOf (o : Out) (d : State) : State :=
  match o with
  | .next t => t
  | _ => d

/-- Registers with the values listed, the others zero. -/
def regsOf (l : List (Nat × Word)) : List RegCell := l.foldl (fun r p => r.set p.1 { val := p.2 }) (List.replicate 192 {})

/-- A card of two threads on one core, of core level and scope. -/
def card0 : Card :=
  { entry := 0x0000010000001000, arg := 0, crec := 0, cadd := 0, cval := 0, parent := 77, thr := 1, ncg := 0, nkl := 0, nby := 0, ndi := 0
    regs := 24, vlt := 0, nbar := 2, lvl := 1, scope := 1, pcls := 0, kind := 0, cr := false, ca := false, nv := false, rsv := 0 }

def inst0 : Inst := { q := { ctx := 3, card := card0, ref := 0, key := .core 0, dev := false }, tsz := 2, csz := 1, ksz := 1, bsz := 1, dsz := 1 }

/-- Core group 9 of instance 7 and cluster group 8, on core 0. -/
def grp0 : CoreGroup := { iid := 7, cgid := 8, core := 0, nregs := 192, bars := [{}, {}] }

/-- 64 KiB of the vault of cluster 0, at its start. -/
def cgrp0 : ClusterGroup := { iid := 7, cluster := 0, base := 0, len := 0x10000 }

/-- Thread 2, at code reference 1:0x1000. -/
def thr (l : List (Nat × Word)) : Thread := { gid := 9, tix := 0, pc := { index := 1, offset := 0x1000 }, regs := regsOf l }

/-- Context 3 runs with a handler at 1:0x2000. -/
def ctx0 : Ctx := { state := .run, trapbase := 0x0000010000002001, bcount := 8 }

/-- A valid buffer of context 3 with all its rights: base 0x10000, 64 KiB (R159). -/
def entry0 : BitVec 256 := BitVec.ofNat 256 (0x10000 + 2 ^ 63 + 0x10000 * 2 ^ 64 + 0x7F * 2 ^ 108 + 3 * 2 ^ 116)

/-- Virtual page 0x10 lies in physical page 0x20, with every right. -/
def tlb0 : TlbE :=
  { ctx := 3, vpage := 0x10, ipage := 0x30, ppage := 0x20, r1 := true, w1 := true, x1 := true, r2 := true, w2 := true, x2 := true
    sh := false, dup := false, leaf := 0x8000 }

def clu0 : Cluster := { bufs := [((3, 5), entry0)], tlb := [tlb0] }

/-- Thread 2 runs alone in context 3; buffer 5 begins at physical address 0x20000, whose first lines L2 holds. -/
def st (t : Thread) : State :=
  { State.reset with
    cur := 2, fresh := 100, power := .ready, threads := [(2, t)], groups := [(9, grp0)], cgroups := [(8, cgrp0)], insts := [(7, inst0)]
    clusters := [(0, clu0)], ctxs := [(3, ctx0)], lines := [{ line := 0x800, victim := false, dirty := [] }, { line := 0x801, victim := false, dirty := [] }] }

def en (t : Thread) : Env := { tid := 2, t := t, g := grp0, inst := inst0 }

/-- The thread with x0 = 7, x1 = 3, x2:x3 = 5:0x10, x4 = 1, x6:x7 = 20. -/
def rs0 : List (Nat × Word) := [(0, 7), (1, 3), (2, 0x10), (3, 0x500), (4, 1), (6, 20)]
def t0 : Thread := thr rs0
def s0 : State := st t0
def e0 : Env := en t0

theorem enabled0 : Enabled s0 e0 g7 := ⟨rfl, rfl, rfl⟩

/-- A value of one or two words without a token. -/
def clean (l : List Word) : SrcVal := { words := l, tok := none }

/-- Control: instructions, in the order of their words below. -/
def instrsControl : List Instr := [
  .nop g7,
  .br { sp := false, pn := true, pg := 3 } 5 9,
  .brl g7 (-2) 3,
  .call g7 (.x 10) (-7) 1,
  .calll g7 (.x 12) 65536 31,
  .jmpr g7 (.s .zr) (wt 8) 2,
  .ret g7 (fr 6) 4,
  .yield g7,
  .exit { sp := false, pn := false, pg := 0 },
  .prio g7 17,
  .tryw g7 2 (.x 20) (.imm 100),
  .trap g7 0xFE,
  .trapSp { sp := true, pn := false, pg := 7 } true (.x 6) 0x41,
  .chk g7 (.pred 5),
  .chk g7 (.reg (wt 7)),
  .brk g7 0xBEEF]

set_option maxRecDepth 8000 in
/-- The words written out from the spec's encodings decode to them, and each is well-formed. -/
theorem test_decodeControl : [
    0x00000000000000000000001C, -- nop
    0x00000000480000A0000800AC, -- (!p3) br +5, prio 9
    0xFFFFFFFE180000000000009F, -- brl -2, prio 3
    0x00000000087FFF2000A8011C, -- call x10, -7
    0x00010000F80000000060011F, -- calll x12, +65536
    0x00000000100000108F00019C, -- jmpr zr, x8
    0x00000000200000006000021C, -- ret x6!
    0x00000000000000000000029C, -- yield
    0x000000000000000000000300, -- (p0) exit
    0x00000000880000000000039C, -- prio 17
    0x0000000000000C914028041C, -- tryw p2, x20, #100
    0x0000000000001FC00008049C, -- trap #0xFE
    0x0000000000000820006884DC, -- trap.64.sp x6, #0x41
    0x00000000000000105000859C, -- chk p5
    0x00000000000000107000059C, -- chk x7
    0x000000000017DDE00008061C  -- brk #0xBEEF
    ].map (decodeWord false) = instrsControl.map .ok ∧ instrsControl.all Instr.wf = true := ⟨rfl, rfl⟩

/-- ControlInHandler: instructions, in the order of their words below. -/
def instrsControlInHandler : List Instr := [
  .rett g7]

set_option maxRecDepth 8000 in
/-- The words written out from the spec's encodings decode to them, and each is well-formed. -/
theorem test_decodeControlInHandler : [
    0x00000000000000000000051C  -- rett (in the handler)
    ].map (decodeWord true) = instrsControlInHandler.map .ok ∧ instrsControlInHandler.all Instr.wf = true := ⟨rfl, rfl⟩

/-- Pairs: instructions, in the order of their words below. -/
def instrsPairs : List Instr := [
  .p64Pair g7 { op := .cvt, mdp := 2, d := .x 4, wd := false, s := .imm (-1) } { op := .iabs, mdp := 0, d := .x 9, wd := false, s := .reg (wt 2) },
  .w96Pair g7 { op := 0x33, md := 0, dst := 8, sa := 9, sb := 10, sc := 11 } { op := 0x3C, md := 0, dst := 13, sa := 20, sb := 0, sc := 0 }]

set_option maxRecDepth 8000 in
/-- The words written out from the spec's encodings decode to them, and each is well-formed. -/
theorem test_decodePairs : [
    0x00000000102090CAFF044B1D, -- cvt x4, #-1 (n32 to f32) || iabs x9, x2
    0x00000A0681E058504840199E  -- ffma x8, x9, x10, x11 && frcp x13, x20
    ].map (decodeWord false) = instrsPairs.map .ok ∧ instrsPairs.all Instr.wf = true := ⟨rfl, rfl⟩

/-- Integer: instructions, in the order of their words below. -/
def instrsInteger : List Instr := [
  .iadd { h := g7, w := .w32, sgn := true, sat := true, dst := .x 4, a := wt 6, b := .reg (fr 8) },
  .isub { h := g7, w := .w16x2, sgn := false, sat := false, dst := .x 4, a := wt 6, b := .imm (-3) },
  .imul { h := g7, w := .w8x4, sgn := true, sat := false, dst := .x 4, a := wt 6, b := .reg (fr 8) },
  .imulh { h := g7, w := .w64, sgn := true, sat := false, dst := .x 4, a := wt 6, b := .reg (fr 8) },
  .imad { h := g7, w := .w64, sgn := false, sat := false, dst := .x 4, a := wt 6, b := wt 8, c := wt 10 },
  .idiv { h := g7, w := .w32, sgn := true, sat := true, dst := .x 4, a := wt 6, b := .imm (131071) },
  .irem { h := g7, w := .w64, sgn := false, sat := false, dst := .x 4, a := wt 6, b := .reg (fr 8) },
  .imin { h := g7, w := .w32, sgn := true, sat := false, dst := .x 4, a := wt 6, b := .reg (fr 8) },
  .imax { h := g7, w := .w8x4, sgn := false, sat := false, dst := .x 4, a := wt 6, b := .reg (fr 8) },
  .iabs { h := g7, w := .w64, sgn := false, sat := true, dst := .x 4, a := wt 6 },
  .iand { h := g7, w := .w32, sgn := false, sat := false, dst := .x 4, a := wt 6, b := .imm (255) },
  .ior { h := g7, w := .w64, sgn := false, sat := false, dst := .x 4, a := wt 6, b := .reg (fr 8) },
  .ixor { h := g7, w := .w32, sgn := false, sat := false, dst := .x 4, a := wt 6, b := .reg (fr 8) },
  .lut3 g7 0xE8 (.x 4) (wt 5) (wt 6) (wt 7),
  .shl { h := g7, w := .w16x2, sgn := false, sat := false, dst := .x 4, a := wt 6, b := .reg (fr 8) },
  .shr { h := g7, w := .w64, sgn := false, sat := false, dst := .x 4, a := wt 6, b := .reg (fr 8) },
  .sar { h := g7, w := .w8x4, sgn := false, sat := false, dst := .x 4, a := wt 6, b := .imm (2) },
  .rot { h := g7, w := .w32, sgn := false, sat := false, dst := .x 4, a := wt 6, b := .reg (fr 8) },
  .bfx g7 false true (.x 4) (wt 5) (.imm 8 12),
  .bfi { h := g7, w := .w32, sgn := false, sat := false, dst := .x 4, a := wt 5, b := wt 6, c := wt 7 },
  .popc { h := g7, w := .w64, sgn := false, sat := false, dst := .x 4, a := wt 6 },
  .clz { h := g7, w := .w32, sgn := false, sat := false, dst := .x 4, a := wt 6 },
  .brev { h := g7, w := .w64, sgn := false, sat := false, dst := .x 4, a := wt 6 },
  .isetp g7 false true .le 1 (wt 5) (.reg (wt 6)),
  .sel g7 false (.x 4) 2 true (wt 5) (.imm 0),
  .lea g7 (.x 2) (wt 4) (.reg (wt 6) true true 3),
  .mov g7 true (.x 4) (.imm (-1)),
  .plop g7 0x80 1 2 3 7,
  .idot4 { h := g7, w := .w32, sgn := true, sat := true, dst := .x 20, a := wt 4, b := wt 5, c := wt 6 },
  .idot2 { h := g7, w := .w32, sgn := false, sat := false, dst := .x 20, a := wt 4, b := wt 5, c := wt 6 },
  .movpRead g7 (.x 4),
  .movpWrite g7 0x7F (wt 5),
  .movl g7 2 (.x 4) 0x40000000,
  .iaddl g7 false true true (.x 4) (wt 5) 100000,
  .isetpl g7 false true .ge 3 (wt 5) (-1)]

set_option maxRecDepth 8000 in
/-- The words written out from the spec's encodings decode to them, and each is well-formed. -/
theorem test_decodeInteger : [
    0x00000000000001106046081C, -- iadd.s.sat x4, x6, x8!
    0x00000000007FFFB06049089C, -- isub.16x2 x4, x6, #-3
    0x00000000000001106043891C, -- imul.s.8x4 x4, x6, x8!
    0x00000000000001106042899C, -- imulh.s.64 x4, x6, x8!
    0x000000000042A11060408A1C, -- imad.64 x4, x6, x8, x10
    0x00000000003FFFF0604E0A9C, -- idiv.s.sat x4, x6, #131071
    0x000000000000011060408B1C, -- irem.64 x4, x6, x8!
    0x000000000000011060420B9C, -- imin.s x4, x6, x8!
    0x000000000000011060418C1C, -- imax.8x4 x4, x6, x8!
    0x000000000000001060448C9C, -- iabs.sat.64 x4, x6
    0x0000000000001FF060480D1C, -- and x4, x6, #255
    0x000000000000011060408D9C, -- or.64 x4, x6, x8!
    0x000000000000011060400E1C, -- xor x4, x6, x8!
    0x000000000741E0D050440E9C, -- lut3 x4, x5, x6, x7, #0xE8
    0x000000000000011060410F1C, -- shl.16x2 x4, x6, x8!
    0x000000000000011060408F9C, -- shr.64 x4, x6, x8!
    0x00000000000000506049901C, -- sar.8x4 x4, x6, #2
    0x00000000000001106040109C, -- rot x4, x6, x8!
    0x0000000000006110504A111C, -- bfx.s x4, x5, #8, #12
    0x000000000041E0D05040119C, -- bfi x4, x5, x6, x7
    0x00000000000000106040921C, -- popc.64 x4, x6
    0x00000000000000106040129C, -- clz x4, x6
    0x00000000000000106040931C, -- brev.64 x4, x6
    0x00000000018020D05012139C, -- isetp.le.s p1, x5, x6
    0x00000000050000105048141C, -- sel x4, !p2, x5, #0
    0x00000000018020D04022949C, -- lea.s.64 x2, x4, x6, #3
    0x00000000007FFFE00048951C, -- mov.64 x4, #-1
    0x000000000441E0702010159C, -- plop p1, p2, p3, p7, #0x80
    0x000000000041A0B04146161C, -- idot4.s.sat x20, x4, x5, x6
    0x000000000041A0B04140169C, -- idot2 x20, x4, x5, x6
    0x00000000000000000040171C, -- movp x4
    0x0000000000000FF05008971C, -- movp #0x7F, x5
    0x40000000000000000021081F, -- movl.hi x4, #0x40000000
    0x000186A0000000082826089F, -- iaddl.s.sat x4, x5, #100000
    0xFFFFFFFF01400008281A091F  -- isetpl.ge.s p3, x5, #-1
    ].map (decodeWord false) = instrsInteger.map .ok ∧ instrsInteger.all Instr.wf = true := ⟨rfl, rfl⟩

/-- Float: instructions, in the order of their words below. -/
def instrsFloat : List Instr := [
  .fadd { h := g7, ty := .f64, rnd := .ru, fzo := true, clamp := false, dst := .x 4, a := wt 6, b := .reg (fr 8) },
  .fsub { h := g7, ty := .f16x2, rnd := .rd, fzo := false, clamp := true, dst := .x 4, a := wt 6, b := .reg (fr 8) },
  .fmul { h := g7, ty := .f32, rnd := .rn, fzo := false, clamp := false, dst := .x 4, a := wt 6, b := .imm 0xfe00 },
  .ffma { h := g7, ty := .f32, rnd := .rz, fzo := false, clamp := false, dst := .x 4, a := wt 6, b := wt 8, c := wt 10 },
  .fmin { h := g7, ty := .bf16x2, rnd := .rn, fzo := true, clamp := false, dst := .x 4, a := wt 6, b := .reg (fr 8) },
  .fmax { h := g7, ty := .f32, rnd := .rn, fzo := false, clamp := false, dst := .x 4, a := wt 6, b := .reg (fr 8) },
  .fneg { h := g7, ty := .f64, rnd := .rn, fzo := false, clamp := false, dst := .x 4, a := wt 6 },
  .fabs { h := g7, ty := .f16x2, rnd := .rn, fzo := false, clamp := false, dst := .x 4, a := wt 6 },
  .fsetp g7 .f64 false .num 1 (wt 6) (.reg (fr 8)),
  .fclass { h := g7, ty := .f32, rnd := .rn, fzo := false, clamp := false, dst := .x 4, a := wt 6 },
  .fdiv { h := g7, ty := .f64, rnd := .rz, fzo := false, clamp := false, dst := .x 4, a := wt 6, b := .reg (fr 8) },
  .fsqrt { h := g7, ty := .f32, rnd := .rn, fzo := true, clamp := true, dst := .x 4, a := wt 6 },
  .frcp { h := g7, ty := .f16x2, rnd := .rn, fzo := false, clamp := false, dst := .x 4, a := wt 6 },
  .frsq { h := g7, ty := .bf16x2, rnd := .rn, fzo := false, clamp := false, dst := .x 4, a := wt 6 },
  .fexp2 { h := g7, ty := .f32, rnd := .rn, fzo := false, clamp := false, dst := .x 4, a := wt 6 },
  .flog2 { h := g7, ty := .f32, rnd := .rz, fzo := false, clamp := false, dst := .x 4, a := wt 6 },
  .fsin { h := g7, ty := .f32, rnd := .rn, fzo := false, clamp := true, dst := .x 4, a := wt 6 },
  .fcos { h := g7, ty := .f32, rnd := .rn, fzo := true, clamp := false, dst := .x 4, a := wt 6 },
  .ftanh { h := g7, ty := .f16x2, rnd := .rd, fzo := false, clamp := false, dst := .x 4, a := wt 6 },
  .frnd { h := g7, ty := .f32, rnd := .ru, fzo := false, clamp := false, dst := .x 4, a := wt 6 },
  .cvt { h := g7, rnd := .rz, fzo := false, sty := .f32, dty := .e4m3, nosat := true, dst := .x 4, a := wt 6 },
  .cvts { h := g7, rnd := .rn, fzo := false, sty := .f64, dty := .e2m1, nosat := false, dst := .x 4, a := wt 6 },
  .pack { h := g7, rnd := .rn, ty := .e4m3, nosat := false, pos := 1, dst := .x 4, a := wt 5, b := wt 6, c := some (wt 7) },
  .unpk g7 .e2m1 (.x 4) (wt 5) (.imm 3),
  .fdot2 { h := g7, ty := .bf16x2, rnd := .rn, fzo := false, clamp := false, dst := .x 4, a := wt 6, b := wt 8, c := wt 10 },
  .fscl { h := g7, ty := .f64, rnd := .rn, fzo := false, clamp := false, dst := .x 4, a := wt 6, b := .reg (fr 8) },
  .fexpn { h := g7, ty := .f32, rnd := .rd, fzo := true, clamp := false, dst := .x 4, a := wt 6, b := .reg (fr 8) }]

set_option maxRecDepth 8000 in
/-- The words written out from the spec's encodings decode to them, and each is well-formed. -/
theorem test_decodeFloat : [
    0x00000000008001106044981C, -- fadd.f64.ru.fzo x4, x6, x8!
    0x00000000010001106047189C, -- fsub.f16x2.rd.clamp x4, x6, x8!
    0x00000000001FC0106048191C, -- fmul.f32 x4, x6, #0xFE00
    0x000000000042A1106042199C, -- ffma.f32.rz x4, x6, x8, x10
    0x000000000080011060419A1C, -- fmin.bf16x2.fzo x4, x6, x8!
    0x000000000000011060401A9C, -- fmax.f32 x4, x6, x8!
    0x000000000000001060409B1C, -- fneg.f64 x4, x6
    0x000000000000001060411B9C, -- fabs.f16x2 x4, x6
    0x000000000600011060109C1C, -- fsetp.num.f64 p1, x6, x8!
    0x000000000000001060401C9C, -- fclass.f32 x4, x6
    0x000000000000011060429D1C, -- fdiv.f64.rz x4, x6, x8!
    0x000000000180001060401D9C, -- fsqrt.f32.fzo.clamp x4, x6
    0x000000000000001060411E1C, -- frcp.f16x2 x4, x6
    0x000000000000001060419E9C, -- frsq.bf16x2 x4, x6
    0x000000000000001060401F1C, -- fexp2.f32 x4, x6
    0x000000000000001060421F9C, -- flog2.f32.rz x4, x6
    0x00000000010000106040201C, -- fsin.f32.clamp x4, x6
    0x00000000008000106040209C, -- fcos.f32.fzo x4, x6
    0x00000000000000106047211C, -- ftanh.f16x2.rd x4, x6
    0x00000000000000106044219C, -- frnd.f32.ru x4, x6
    0x00000000000B01506042221C, -- cvt.e4m3.f32.rz.nosat x4, x6
    0x00000000000401706040229C, -- cvts.e2m1.f64 x4, x6
    0x000000000141E0D05040A31C, -- pack.e4m3.h1 x4, x5, x6, x7
    0x00000000020000705048239C, -- unpk.e2m1 x4, x5, #3
    0x000000000042A1106041A41C, -- fdot2.bf16x2 x4, x6, x8, x10
    0x00000000000001106040A49C, -- fscl.f64 x4, x6, x8!
    0x00000000008001106046251C  -- fexpn.f32.rd.fzo x4, x6, x8!
    ].map (decodeWord false) = instrsFloat.map .ok ∧ instrsFloat.all Instr.wf = true := ⟨rfl, rfl⟩

/-- CrossThread: instructions, in the order of their words below. -/
def instrsCrossThread : List Instr := [
  .vote g7 (.any 1) 2 (wt 10),
  .vote g7 (.bal (.x 4)) 2 (wt 10),
  .shfl { h := g7, w64 := false, dst := .x 4, a := wt 5, mask := wt 10 } (wt 6),
  .shflGive g7 false (.x 20) (wt 5) (wt 6),
  .slup { h := g7, w64 := false, dst := .x 4, a := wt 5, mask := wt 10 } (wt 6),
  .sldn { h := g7, w64 := true, dst := .x 4, a := wt 6, mask := wt 10 } (wt 7),
  .cmpr { h := g7, w64 := false, dst := .x 4, a := wt 5, mask := wt 10 } 3,
  .expd { h := g7, w64 := false, dst := .x 4, a := wt 5, mask := wt 10 } 6,
  .redc g7 .add64 (.x 4) (wt 6) (wt 10),
  .scan g7 .fadd true (.x 4) (wt 5) (wt 10),
  .xmatch { h := g7, w64 := false, dst := .x 4, a := wt 5, mask := wt 10 },
  .unif { h := g7, w64 := true, dst := .x 4, a := wt 6, mask := wt 10 }]

set_option maxRecDepth 8000 in
/-- The words written out from the spec's encodings decode to them, and each is well-formed. -/
theorem test_decodeCrossThread : [
    0x00000000000021502010A81C, -- vote.any p1, p2, x10
    0x00000000000021502041A81C, -- vote.bal x4, p2, x10
    0x000000000041A1505040289C, -- shfl x4, x5, x10, x6
    0x00000000004180105141289C, -- shfl.give x20, x5, x6
    0x000000000041A1505040291C, -- slup x4, x5, x10, x6
    0x000000000041E1506040A99C, -- sldn.64 x4, x6, x10, x7
    0x000000000040E15050402A1C, -- cmpr x4, x5, x10, p3
    0x000000000041A15050402A9C, -- expd x4, x5, x10, p6
    0x00000000000021506040AB1C, -- redc.add64 x4, x6, x10
    0x00000000008021505044AB9C, -- scan.fadd.excl x4, x5, x10
    0x000000000000215050402C1C, -- match.32 x4, x5, x10
    0x00000000000021506040AC9C  -- unif.64 x4, x6, x10
    ].map (decodeWord false) = instrsCrossThread.map .ok ∧ instrsCrossThread.all Instr.wf = true := ⟨rfl, rfl⟩

/-- Memory: instructions, in the order of their words below. -/
def instrsMemory : List Instr := [
  .ld { h := g7, size := .n16, reg := .x 6, base := wt 2, disp := 0x80, policy := 1, hint := 0 },
  .ldl { h := g7, size := .b128, reg := .x 8, base := wt 2, disp := -16, policy := 2, hint := 0 },
  .st { h := g7, size := .i8, reg := .x 6, base := ⟨.k 2, true⟩, disp := 0, policy := 0, hint := 0 },
  .stl { h := g7, size := .b64, reg := .x 8, base := wt 2, disp := -0x100000, policy := 0, hint := 0 },
  .cstr { h := g7, w64 := false, data := wt 6, base := wt 2, mask := wt 10, cnt := .x 12, keep := 3, neg := true, hint := 0 },
  .pref g7 true (wt 4) 0x100 0 0,
  .bref g7 false (.x 4) ⟨.s .jarg, true⟩ (.imm 0x100),
  .bqry g7 (.x 6) (wt 4),
  .cflush g7 true (wt 4) (wt 6),
  .iinv g7 .clu (.range (wt 4) (wt 6)),
  .iinv g7 .die .all,
  .fetchb g7]

set_option maxRecDepth 8000 in
/-- The words written out from the spec's encodings decode to them, and each is well-formed. -/
theorem test_decodeMemory : [
    0x00000000008010102069B01C, -- ld.n16.strm x6, [x2+0x80]
    0xFFFFFFF0008000081043301F, -- ldl.128 x8, [x2-16]
    0x000000000000001C2068309C, -- st.i8 x6, [k2]
    0xFFF00000000000081042B09F, -- stl.64 x8, [x2-0x100000]
    0x00000000058321502062329C, -- cstr.32 x6, [x2], x10, x12, !p3
    0x00000000000020104008B31C, -- pref.xlat [x4+0x100]
    0x000000000000201FF048379C, -- bref x4, jarg, #0x100
    0x00000000000000104060381C, -- bqry x6, x4
    0x00000000000020D04000B61C, -- cflush.inv [x4], x6
    0x00000000000020D04000B69C, -- iinv.clu [x4], x6
    0x00000000000000000003369C, -- iinv.all.die
    0x00000000000000000000371C  -- fetchb
    ].map (decodeWord false) = instrsMemory.map .ok ∧ instrsMemory.all Instr.wf = true := ⟨rfl, rfl⟩

/-- MemoryInHandler: instructions, in the order of their words below. -/
def instrsMemoryInHandler : List Instr := [
  .tlbiVa g7 (wt 4) (wt 6),
  .tlbiCtx g7,
  .tlbiBuf g7 (wt 8),
  .tlbiBufall g7]

set_option maxRecDepth 8000 in
/-- The words written out from the spec's encodings decode to them, and each is well-formed. -/
theorem test_decodeMemoryInHandler : [
    0x00000000000020D04000791C, -- tlbi.va [x4], x6 (in the handler)
    0x00000000000000000000F91C, -- tlbi.ctx (in the handler)
    0x00000000000000108001791C, -- tlbi.buf x8 (in the handler)
    0x00000000000000000001F91C  -- tlbi.bufall (in the handler)
    ].map (decodeWord true) = instrsMemoryInHandler.map .ok ∧ instrsMemoryInHandler.all Instr.wf = true := ⟨rfl, rfl⟩

/-- Order: instructions, in the order of their words below. -/
def instrsOrder : List Instr := [
  .atom { h := g7, op := .cas, w64 := false, dst := .x 10, base := wt 4, v := wt 12, scope := .cluster, policy := 0, hint := 0 },
  .atomi { h := g7, op := .add, w64 := true, dst := .x 10, base := wt 4, v := wt 12, scope := .die, policy := 0, hint := 0 },
  .qend g7,
  .fence g7 .die,
  .bara g7 (.imm 3 64),
  .barw g7 (.imm 3),
  .bars g7 (.reg (wt 6) (wt 7)),
  .baraBuoy g7 .bay (wt 8),
  .barwBuoy g7 (wt 8),
  .barsBuoy g7 .die (wt 8),
  .barx g7 .bay (wt 8)]

set_option maxRecDepth 8000 in
/-- The words written out from the spec's encodings decode to them, and each is well-formed. -/
theorem test_decodeOrder : [
    0x000000000002619040A2339C, -- atom.cas.32 x10, [x4], x12
    0x000000000400219040A2B41C, -- atomi.add.64.die x10, [x4], x12
    0x00000000000000000000351C, -- qend
    0x00000000040000000000359C, -- fence.die
    0x00000000000200600008401C, -- bara #3, #64
    0x00000000000000600008409C, -- barw #3
    0x00000000000020F06000411C, -- bars x6, x7
    0x00000000000000108001C01C, -- bara.buoy.bay x8
    0x00000000000000108000C09C, -- barw.buoy x8
    0x00000000000000108002C11C, -- bars.buoy.die x8
    0x00000000000000108001419C  -- barx.bay x8
    ].map (decodeWord false) = instrsOrder.map .ok ∧ instrsOrder.all Instr.wf = true := ⟨rfl, rfl⟩

/-- Vaults: instructions, in the order of their words below. -/
def instrsVaults : List Instr := [
  .ldv { h := g7, size := .b32, reg := .x 6, a := wt 8, disp := 64 },
  .stv { h := g7, size := .b128, reg := .x 12, a := wt 8, disp := -16 },
  .stx { h := g7, size := .b64, reg := .x 10, a := wt 9, disp := 0 },
  .atomv { h := g7, op := .or, w64 := true, dst := .x 10, a := wt 8, v := wt 12 },
  .presTest g7 2 (wt 8) (wt 9),
  .presSet g7 (wt 8) (wt 9),
  .presClr g7 (wt 8) (wt 9),
  .presUnmk g7 (wt 8) (wt 9),
  .vsplitSet g7 1 (.imm 12),
  .vsplitXopen g7 1 (wt 8) (wt 9),
  .vsplitXclose g7,
  .vsplitRing g7 (.x 4) (wt 8) (wt 9),
  .vsplitRfree g7 (wt 8),
  .buoys g7 (wt 8) (.imm 100),
  .buoyw g7 (.x 4) (wt 8)]

set_option maxRecDepth 8000 in
/-- The words written out from the spec's encodings decode to them, and each is well-formed. -/
theorem test_decodeVaults : [
    0x0000000000000810806A311C, -- ldv.32 x6, v[x8+64]
    0x00000000007FFE1080CB319C, -- stv.128 x12, v[x8-16]
    0x000000000000001090AAB21C, -- stx.64 x10, v[x9]
    0x000000000001A19080A2B49C, -- atomv.or.64 x10, v[x8], x12
    0x00000000000021308020389C, -- pres.test p2, v[x8], x9
    0x00000000000021308000B89C, -- pres.set v[x8], x9
    0x00000000000021308001389C, -- pres.clr v[x8], x9
    0x00000000000021308001B89C, -- pres.unmk v[x8], x9
    0x00000000000001800018391C, -- vsplit.set p1, #12
    0x00000000000021308010B91C, -- vsplit.xopen p1, x8, x9
    0x00000000000000000001391C, -- vsplit.xclose
    0x00000000000021308041B91C, -- vsplit.ring x4, x8, x9
    0x00000000000000108002391C, -- vsplit.rfree x8
    0x0000000000000C908008429C, -- buoys v[x8], #100
    0x00000000000000108040421C  -- buoyw x4, v[x8]
    ].map (decodeWord false) = instrsVaults.map .ok ∧ instrsVaults.all Instr.wf = true := ⟨rfl, rfl⟩

/-- Registers: instructions, in the order of their words below. -/
def instrsRegisters : List Instr := [
  .fsetSet g7 true (.x 20),
  .fsetClr g7 false (.x 21),
  .kset g7 false (.k 3) (.imm (-5)),
  .regs g7 1 64,
  .qbind g7 (.q 2) (wt 10),
  .qstat g7 (.x 4) (.q 2),
  .qclose g7 (.q 2) (wt 5)]

set_option maxRecDepth 8000 in
/-- The words written out from the spec's encodings decode to them, and each is well-formed. -/
theorem test_decodeRegisters : [
    0x00000000000000000141C31C, -- fset.set.64 x20
    0x00000000000000000150431C, -- fset.clr x21
    0x00000000007FFF600C38799C, -- kset k3, #-5
    0x00000000000008000018439C, -- regs p1, #64
    0x0000000000000010AE20441C, -- qbind q2, x10
    0x000000000000001E2040449C, -- qstat x4, q2
    0x00000000000000105E20451C  -- qclose q2, x5
    ].map (decodeWord false) = instrsRegisters.map .ok ∧ instrsRegisters.all Instr.wf = true := ⟨rfl, rfl⟩

/-- RegistersInHandler: instructions, in the order of their words below. -/
def instrsRegistersInHandler : List Instr := [
  .mfsr g7 (.x 6) 0x012,
  .mtsr g7 0x020 (wt 4)]

set_option maxRecDepth 8000 in
/-- The words written out from the spec's encodings decode to them, and each is well-formed. -/
theorem test_decodeRegistersInHandler : [
    0x00000000000002400068781C, -- mfsr x6, tfpc (in the handler)
    0x00000000000004104008789C  -- mtsr foglim, x4 (in the handler)
    ].map (decodeWord true) = instrsRegistersInHandler.map .ok ∧ instrsRegistersInHandler.all Instr.wf = true := ⟨rfl, rfl⟩

/-- Engines: instructions, in the order of their words below. -/
def instrsEngines : List Instr := [
  .xcopy g7 (wt 8) 64,
  .post g7 .clu 1 (wt 4) (.x 20) 0x40,
  .post g7 (.nbr 1 (-1)) 1 (wt 4) (.s .zr) 0]

set_option maxRecDepth 8000 in
/-- The words written out from the spec's encodings decode to them, and each is well-formed. -/
theorem test_decodeEngines : [
    0x00000040000000084000501F, -- xcopy v[x8+64]
    0x00000040000001482008D09F, -- post.clu p1, x20, [x4+0x40]
    0x0000000007C00F082009509F  -- post.nbr p1, zr, [x4], #1, #-1
    ].map (decodeWord false) = instrsEngines.map .ok ∧ instrsEngines.all Instr.wf = true := ⟨rfl, rfl⟩

/-- EnginesInHandler: instructions, in the order of their words below. -/
def instrsEnginesInHandler : List Instr := [
  .keyld g7 (.x 6) (wt 4) (wt 9) 0x40,
  .keyldClr g7 (.x 6) (wt 9)]

set_option maxRecDepth 8000 in
/-- The words written out from the spec's encodings decode to them, and each is well-formed. -/
theorem test_decodeEnginesInHandler : [
    0x00000040000010982030511F, -- keyld x6, [x4+0x40], x9 (in the handler)
    0x00000000000010900030D11F  -- keyld.clr x6, x9 (in the handler)
    ].map (decodeWord true) = instrsEnginesInHandler.map .ok ∧ instrsEnginesInHandler.all Instr.wf = true := ⟨rfl, rfl⟩

/-- Matrix: instructions, in the order of their words below. -/
def instrsMatrix : List Instr := [
  .mmaF64 { h := g7, cv := 5, bty := 0, scale := 0, aVault := true, bVault := true, cVault := true, c := .x 14, a := wt 10, b := wt 12, sc := none, acc := true, steps := 2, size := 7 },
  .mmaF32 { h := g7, cv := 5, bty := 0, scale := 0, aVault := true, bVault := true, cVault := true, c := .x 14, a := wt 10, b := wt 12, sc := none, acc := true, steps := 2, size := 7 },
  .mmaBf16 { h := g7, cv := 5, bty := 1, scale := 0, aVault := true, bVault := true, cVault := true, c := .x 14, a := wt 10, b := wt 12, sc := none, acc := true, steps := 2, size := 7 },
  .mmaF16 { h := g7, cv := 5, bty := 0, scale := 0, aVault := true, bVault := true, cVault := true, c := .x 14, a := wt 10, b := wt 12, sc := none, acc := true, steps := 2, size := 7 },
  .mmaE4m3 { h := g7, cv := 5, bty := 4, scale := 0, aVault := true, bVault := true, cVault := true, c := .x 14, a := wt 10, b := wt 12, sc := none, acc := true, steps := 2, size := 7 },
  .mmaE5m2 { h := g7, cv := 5, bty := 1, scale := 0, aVault := true, bVault := true, cVault := true, c := .x 14, a := wt 10, b := wt 12, sc := none, acc := true, steps := 2, size := 7 },
  .mmaE3m2 { h := g7, cv := 5, bty := 2, scale := 0, aVault := true, bVault := true, cVault := true, c := .x 14, a := wt 10, b := wt 12, sc := none, acc := true, steps := 2, size := 7 },
  .mmaE2m3 { h := g7, cv := 5, bty := 3, scale := 0, aVault := true, bVault := true, cVault := true, c := .x 14, a := wt 10, b := wt 12, sc := none, acc := true, steps := 2, size := 7 },
  .mmaE2m1 { h := g7, cv := 5, bty := 4, scale := 0, aVault := true, bVault := true, cVault := true, c := .x 14, a := wt 10, b := wt 12, sc := none, acc := true, steps := 2, size := 7 },
  .mmaI8 { h := g7, cv := 5, bty := 0, scale := 0, aVault := true, bVault := true, cVault := true, c := .x 14, a := wt 10, b := wt 12, sc := none, acc := true, steps := 2, size := 7 },
  .mmaI4 { h := g7, cv := 5, bty := 1, scale := 0, aVault := true, bVault := true, cVault := true, c := .x 14, a := wt 10, b := wt 12, sc := none, acc := true, steps := 2, size := 7 },
  .mmaBf16 { h := g7, cv := 1, bty := 0, scale := 2, aVault := false, bVault := false, cVault := false, c := .x 96, a := wt 32, b := fr 64, sc := some (wt 2), acc := false, steps := 0, size := 31 },
  .mwait g7 true 3 (.x 4),
  .mtrn g7 1 1 (.x 10) (wt 8),
  .mqnt g7 0 true false 1 (.x 10) (wt 8) (wt 12),
  .mclr g7 2 2 (wt 8),
  .mstat g7 false (.x 4)]

set_option maxRecDepth 8000 in
/-- The words written out from the spec's encodings decode to them, and each is well-formed. -/
theorem test_decodeMatrix : [
    0x000000A7E20010C85072E01F, -- mma.f64 on cv5, all in vaults, s = 8, T = 3
    0x000000A7E00010C85072E09F, -- mma.f32 on cv5, all in vaults, s = 8, T = 3
    0x000000A7E04010C85072E11F, -- mma.bf16 on cv5, all in vaults, s = 8, T = 3
    0x000000A7E00010C85072E19F, -- mma.f16 on cv5, all in vaults, s = 8, T = 3
    0x000000A7E10010C85072E21F, -- mma.e4m3 on cv5, all in vaults, s = 8, T = 3
    0x000000A7E04010C85072E29F, -- mma.e5m2 on cv5, all in vaults, s = 8, T = 3
    0x000000A7E08010C85072E31F, -- mma.e3m2 on cv5, all in vaults, s = 8, T = 3
    0x000000A7E0C010C85072E39F, -- mma.e2m3 on cv5, all in vaults, s = 8, T = 3
    0x000000A7E10010C85072E41F, -- mma.e2m1 on cv5, all in vaults, s = 8, T = 3
    0x000000A7E40010C85072E49F, -- mma.i8 on cv5, all in vaults, s = 8, T = 3
    0x000000A7E44010C85072E51F, -- mma.i4 on cv5, all in vaults, s = 8, T = 3
    0x0000001F102044090300E11F, -- mma.bf16 on cv1 of fragments, scales x2 for each 16 k
    0x00000000004000000021E59F, -- mwait.clr.cv3 x4
    0x00000000004000084050E61F, -- mtrn.w16.cv1 t[x10], t[x8]
    0x00000000020010C84050E69F, -- mqnt.e4m3.b32.cv1 t[x10], t[x8], x12
    0x00000000040000084001671F, -- mclr.ai32.cv2 t[x8]
    0x00000000000000000020679F  -- mstat x4
    ].map (decodeWord false) = instrsMatrix.map .ok ∧ instrsMatrix.all Instr.wf = true := ⟨rfl, rfl⟩

/-- Rays: instructions, in the order of their words below. -/
def instrsRays : List Instr := [
  .travi g7 9 (.x 64) (wt 12),
  .trav g7 (.x 40) (.x 64) (wt 4) (wt 9) 64,
  .thitAcc g7 (.x 64) (wt 41) (wt 9),
  .thitRej g7 (.x 64),
  .tri g7 1 (.x 40) (.x 64) (wt 4) 48,
  .tbox g7 3 (.x 40) (.x 64) (wt 4) 0,
  .tstk g7 (.x 64) (wt 6) 0x100]

set_option maxRecDepth 8000 in
/-- The words written out from the spec's encodings decode to them, and each is well-formed. -/
theorem test_decodeRays : [
    0x00000000024000086200701F, -- travi.cb.tf x64, x12
    0x000000400021304A0140709F, -- trav x40, x64, [x4], x9, #64
    0x000000000021329A0000F11F, -- thit.acc x64, x41, x9
    0x000000000000000A0000711F, -- thit.rej x64
    0x000000300040104A0140719F, -- tri.cb x40, x64, [x4+48]
    0x0000000000C0104A0140721F, -- tbox x40, x64, [x4], #3
    0x000001000000106A0000729F  -- tstk x64, [x6+0x100]
    ].map (decodeWord false) = instrsRays.map .ok ∧ instrsRays.all Instr.wf = true := ⟨rfl, rfl⟩

/-- Lantern: instructions, in the order of their words below. -/
def instrsLantern : List Instr := [
  .lnlk g7 (.x 80) (wt 12) (wt 13) (wt 14),
  .lnlkW g7 (.x 80) (wt 12) (wt 13) (wt 14),
  .lnfil g7 (.x 6) (wt 12) (wt 13) (wt 14),
  .lninvKey g7 (.x 6) (wt 12) (wt 13) (wt 14),
  .lninvObj g7 (.x 6) (wt 12) (wt 14),
  .lninvRev g7 (.x 6) (wt 12) (wt 14),
  .lnage g7 (.x 6) (wt 14) (wt 15) 200,
  .smpg g7 (.x 20) (wt 10) (wt 12) (wt 13),
  .smpgGrid g7 (.x 20) (wt 10) (wt 13)]

set_option maxRecDepth 8000 in
/-- The words written out from the spec's encodings decode to them, and each is well-formed. -/
theorem test_decodeLantern : [
    0x000000000021D0D86280741F, -- lnlk x80, x12, x13, x14
    0x000000000021D0D86280F41F, -- lnlk.w x80, x12, x13, x14
    0x000000000021D0D86030749F, -- lnfil x6, x12, x13, x14
    0x000000000021D0D86030751F, -- lninv.key x6, x12, x13, x14
    0x000000000021C0086030F51F, -- lninv.obj x6, x12, x14
    0x000000000021C0086031751F, -- lninv.rev x6, x12, x14
    0x000000C8000010F87030759F, -- lnage x6, x14, x15, #200
    0x000000000021B0C850A0761F, -- smpg x20, x10, x12, x13
    0x000000000021A00850A0F61F  -- smpg.grid x20, x10, x13
    ].map (decodeWord false) = instrsLantern.map .ok ∧ instrsLantern.all Instr.wf = true := ⟨rfl, rfl⟩


/-! ## Ill-formed terms, one for each check (R29, R40, R42 to R44, R47 to R50, R53) -/

/-- IADD x4, x6, x8 with parts replaced. -/
def ia : IntB := { h := g7, w := .w32, sgn := false, sat := false, dst := .x 4, a := wt 6, b := .reg (wt 8) }
def fa : FltB := { h := g7, ty := .f32, rnd := .rn, fzo := false, clamp := false, dst := .x 4, a := wt 6, b := .reg (wt 8) }
def fu : FltU := { h := g7, ty := .f32, rnd := .rn, fzo := false, clamp := false, dst := .x 4, a := wt 6 }
def mm : MmaO :=
  { h := g7, cv := 1, bty := 0, scale := 0, aVault := false, bVault := false, cVault := false, c := .x 96, a := wt 32, b := wt 64, sc := none
    acc := false, steps := 0, size := 31 }
def xo : XtO := { h := g7, w64 := false, dst := .x 4, a := wt 5, mask := wt 10 }
def lo : MemO := { h := g7, size := .b32, reg := .x 6, base := wt 2, disp := 0, policy := 0, hint := 0 }
def co : CvtO := { h := g7, rnd := .rn, fzo := false, sty := .f32, dty := .f16, nosat := false, dst := .x 4, a := wt 6 }

theorem test_wf_integer : ([
    .nop { g7 with pn := true },                                            -- pg = 7 with pn = 1
    .iadd { ia with dst := .x 192 },                                        -- no such register
    .iadd { ia with dst := .k 3 }, .iadd { ia with dst := .s .tix },        -- R47
    .iadd { ia with w := .w64, dst := .x 5 }, .iadd { ia with w := .w64, a := wt 7 }, .iadd { ia with w := .w64, b := .reg (wt 9) },
    .iadd { ia with w := .w64, b := .reg ⟨.s .tix, true⟩ },                 -- R42
    .imulh { ia with sat := true }, .iand { ia with sgn := true }, .iand { ia with sat := true }, .iand { ia with w := .w8x4 },
    .idiv { ia with w := .w16x2 }, .idiv { ia with w := .w64, dst := .q 1 },
    .isetp g7 false true .le 7 (wt 5) (.imm 0),                             -- R44
    .movl g7 3 (.x 4) 0, .movl g7 1 (.x 5) 0, .movpRead g7 (.s .mix), .bfx g7 true false (.x 5) (wt 6) (.imm 0 1),
    .lea g7 (.x 5) (wt 4) (.imm 0), .lea g7 (.x 4) (wt 5) (.imm 0), .lea g7 (.q 0) (wt 4) (.imm 0), .plop g7 0 7 0 0 0
    ] : List Instr).all (fun i => !i.wf) = true := by decide

theorem test_wf_float : ([
    .fadd { fa with ty := .f64, dst := .x 5 }, .fmin { fa with rnd := .ru }, .fmin { fa with clamp := true }, .fdiv { fa with ty := .f16x2 },
    .fadd { fa with ty := .f16x2, b := .imm 0x10000 },                      -- R28: bits [17:16] of a packed immediate
    .fclass { fu with fzo := true }, .fsin { fu with ty := .f64 }, .fneg { fu with rnd := .rz }, .frnd { fu with clamp := true },
    .fscl { fa with b := .imm 1 }, .fexpn { fa with ty := .f64 },
    .cvt { co with nosat := true }, .cvts { co with sty := .f16 }, .cvts { co with rnd := .rz },
    .pack { h := g7, rnd := .rn, ty := .f16, nosat := false, pos := 1, dst := .x 4, a := wt 5, b := wt 6, c := none },
    .pack { h := g7, rnd := .rn, ty := .e4m3, nosat := false, pos := 2, dst := .x 4, a := wt 5, b := wt 6, c := some (wt 7) },
    .pack { h := g7, rnd := .rn, ty := .e2m1, nosat := true, pos := 0, dst := .x 4, a := wt 5, b := wt 6, c := some (wt 7) },
    .fdot2 { h := g7, ty := .f32, rnd := .rn, fzo := false, clamp := false, dst := .x 4, a := wt 5, b := wt 6, c := wt 7 },
    .fusedSoftmax fa fa fa { h := g7, ty := .f32, rnd := .rn, fzo := false, clamp := false, dst := .x 4, a := wt 5, b := wt 6, c := wt 7 }
    ] : List Instr).all (fun i => !i.wf) = true := by decide

/-- A slot of a pair. -/
def ps (op : PairOp) (d : Reg) (s : PairSrc) : PairSlot := { op := op, mdp := 0, d := d, wd := false, s := s }

theorem test_wf_pairs : ([
    .p64Pair g7 (ps .mov (.x 4) (.imm 3)) (ps .mov (.x 8) (.imm 3)),        -- one bank for both destinations (R35)
    .p64Pair g7 (ps .mov (.x 4) (.reg (wt 1))) (ps .mov (.x 9) (.reg (wt 5))), -- one bank for both sources
    .p64Pair g7 (ps .mov (.s .zr) (.imm 3)) (ps .mov (.x 9) (.imm 3)),
    .p64Pair g7 (ps .mov (.x 4) (.reg ⟨.q 1, true⟩)) (ps .mov (.x 9) (.imm 3)),
    .p64Pair g7 { ps .and (.x 4) (.imm 3) with mdp := 1 } (ps .mov (.x 9) (.imm 3)), -- reserved mdp
    .p64Pair g7 { ps .mov (.x 4) (.imm 3) with wd := true } (ps .mov (.x 9) (.imm 3)),
    .w96Pair g7 { op := 0x3C, md := 0, dst := 8, sa := 9, sb := 0, sc := 0 } { op := 0x30, md := 0, dst := 13, sa := 10, sb := 11, sc := 0 },
    .w96Pair g7 { op := 0x33, md := 0, dst := 8, sa := 9, sb := 13, sc := 17 } { op := 0x30, md := 0, dst := 14, sa := 21, sb := 2, sc := 0 },
    .w96Pair g7 { op := 0x60, md := 0, dst := 8, sa := 9, sb := 0, sc := 0 } { op := 0x30, md := 0, dst := 13, sa := 10, sb := 11, sc := 0 }
    ] : List Instr).all (fun i => !i.wf) = true := by decide

theorem test_wf_threads_and_memory : ([
    .call g7 (.x 11) 0 0, .call g7 (.q 2) 0 0, .ret g7 (wt 7) 0, .tryw g7 7 (.x 2) (.imm 0), .tryw g7 1 (.k 2) (.imm 0), .trap { g7 with sp := true } 0,
    .trapSp g7 false (.x 4) 0x41, .trapSp { g7 with sp := true } false (.x 4) 0x3F,
    .unif { xo with a := ⟨.q 1, true⟩ }, .unif { xo with w64 := true }, .shflGive g7 true (.x 5) (wt 6) (wt 7), .xmatch { xo with dst := .x 5 },
    .redc g7 .add64 (.x 4) (wt 5) (wt 10), .vote g7 (.bal (.x 5)) 0 (wt 10), .vote g7 (.all 7) 0 (wt 10),
    .ld { lo with reg := .q 1 }, .ld { lo with size := .b128 }, .ld { lo with base := wt 3 }, .ld { lo with policy := 1, hint := 31 },
    .st { lo with size := .b64, reg := .x 7 },
    .atom { h := g7, op := .fadd, w64 := true, dst := .x 4, base := wt 2, v := wt 6, scope := .cluster, policy := 0, hint := 0 },
    .atom { h := g7, op := .add, w64 := false, dst := .x 4, base := wt 2, v := wt 6, scope := .bay, policy := 0, hint := 0 },
    .atomi { h := g7, op := .cas, w64 := true, dst := .x 4, base := wt 2, v := wt 6, scope := .bay, policy := 0, hint := 0 },
    .cstr { h := g7, w64 := false, data := fr 6, base := wt 2, mask := wt 10, cnt := .x 12, keep := 3, neg := true, hint := 0 },
    .bref g7 true (.x 4) (wt 6) (.imm 0), .bqry g7 (.x 5) (wt 4), .bara g7 (.imm 0 2049), .barx g7 .domain (wt 4)
    ] : List Instr).all (fun i => !i.wf) = true := by decide

theorem test_wf_units : ([
    .vsplitSet g7 1 (.imm (-1)), .buoys g7 (wt 8) (.imm (-1)), .buoyw g7 (.x 5) (wt 8), .presTest g7 7 (wt 8) (wt 9),
    .stv { h := g7, size := .b128, reg := .x 6, a := wt 8, disp := 0 }, .ldv { h := g7, size := .b32, reg := .x 6, a := ⟨.q 0, true⟩, disp := 0 },
    .kset g7 false (.x 3) (.imm 0), .kset g7 true (.k 3) (.imm 0), .regs g7 1 12, .regs g7 1 0, .regs g7 1 200, .qbind g7 (.x 1) (wt 4),
    .qstat g7 (.x 4) (.k 1), .mfsr g7 (.x 4) 0x003, .mfsr g7 (.x 5) 0x002, .mtsr g7 0x010 (wt 4),
    .mmaBf16 { mm with bty := 2 }, .mmaF32 { mm with scale := 1, sc := some (wt 2) }, .mmaBf16 { mm with size := 7 }, .mmaBf16 { mm with steps := 1 },
    .mmaBf16 { mm with b := wt 48 }, .mmaBf16 { mm with a := wt 33 }, .mmaBf16 { mm with c := .k 4 }, .mmaBf16 { mm with sc := some (wt 2) },
    .mwait g7 false 1 (.q 1), .mtrn g7 0 1 (.x 11) (wt 8), .mqnt g7 5 true false 1 (.x 10) (wt 8) (wt 12), .mqnt g7 2 true true 1 (.x 10) (wt 8) (wt 12),
    .mclr g7 3 1 (wt 8), .mstat g7 false (.x 5),
    .travi g7 0 (.x 48) (wt 12), .travi g7 0 (.x 64) (wt 70), .trav g7 (.x 70) (.x 64) (wt 4) (wt 9) 1, .trav g7 (.x 40) (.x 64) (wt 4) (wt 9) 0,
    .tri g7 0 (.x 41) (.x 64) (wt 4) 0, .lnlk g7 (.x 82) (wt 12) (wt 13) (wt 14), .lnage g7 (.x 7) (wt 14) (wt 15) 0, .smpg g7 (.x 20) (wt 11) (wt 12) (wt 13),
    .matrixStep 0, .pfFlr
    ] : List Instr).all (fun i => !i.wf) = true := by decide

/-! ## Illegal encodings and the step of R53 that each fails -/

theorem test_decode_illegal :
    decodeWord false 0x3C = .error ⟨.rsv, 1⟩ ∧                     -- pg = 7, pn = 1
    decodeWord false 0x800000000000001D = .error ⟨.rsv, 1⟩ ∧       -- P64 with bit 63
    decodeWord false 0x69C = .error ⟨.op, 2⟩ ∧                     -- S64 opcode 0x0D
    decodeWord false 0x8001C = .error ⟨.op, 2⟩ ∧                   -- NOP with ib
    decodeWord false 0xBB01C = .error ⟨.op, 2⟩ ∧                   -- LD of size 111
    decodeWord false 0x1F = .error ⟨.op, 2⟩ ∧                      -- X96 opcode 0x00
    decodeWord false (0x1D + 26 * 2 ^ 7) = .error ⟨.pair, 3⟩ ∧     -- opp 26
    decodeWord false (0x1E + 0x3C * 2 ^ 7) = .error ⟨.wide, 4⟩ ∧   -- FRCP in slot A
    decodeWord false 0x10001C = .error ⟨.rsv, 5⟩ ∧                 -- NOP with dst 1
    decodeWord false 0x9C = .error ⟨.op, 6⟩ ∧                      -- BR with ib = 0
    decodeWord false 0x51C = .error ⟨.op, 6⟩ ∧                     -- RETT outside the handler
    decodeWord false 0x203080020304001D = .error ⟨.pair, 7⟩ ∧ -- MOV x4, #3 || MOV x8, #3: one bank
    decodeWord false 0x10A87018088684840199E = .error ⟨.wide, 8⟩ ∧ -- R38's FFMA x8, x9, x13, x17 && FADD x14, x21, x2
    decodeWord false 0x0C00081C = .error ⟨.dst, 9⟩ ∧               -- IADD to k0
    decodeWord false 0x50881C = .error ⟨.align, 10⟩ := by          -- IADD.64 to x5
  refine ⟨rfl, rfl, rfl, rfl, rfl, rfl, rfl, rfl, rfl, rfl, rfl, rfl, rfl, rfl, rfl⟩

/-! ## A state that meets the hypotheses of each statement

One theorem for each statement that has hypotheses: a state and operands that meet them together, clause by clause. -/

/-- A handler's word of zeros in memory, and the next turn a write from a remote port. -/
def sMem : State :=
  { s0 with mem := [(0x5000, 9)], agenda := [.event (.fabricIdentityWrite 0)] }

theorem witness_MemoryKeepsItsForm : MemCanonical sMem ∧ step sMem = .next (nextOf (step sMem) s0) := ⟨rfl, rfl⟩

theorem witness_EncodedInstructionsDecodeToThemselves :
    (Instr.brk g7 9).wf = true ∧ (Instr.trav g7 (.x 40) (.x 64) (wt 4) (wt 9) 64).wf = true := by decide

theorem witness_WrittenWords : (0x1C : BitVec 7).extractLsb' 0 2 = 0 ∧ (0x1C : BitVec 7).extractLsb' 2 4 ≠ 15 := by decide

/-- The machine right after reset, with one word placed where it fetches. -/
def sFetch (w : Nat) : State := State.reset.withFetchWord 64 w

/-- BRK #9 decodes and nothing is fused with it. -/
theorem witness_StepRunsDecodedInstruction :
    let s := ({ turnState (sFetch 0x000001200008061C) [] with cur := 0 } : State)
    let e := ((sFetch 0x000001200008061C).env? 0).getD e0
    nextTurn (sFetch 0x000001200008061C) = (.thread 0, []) ∧ s.env? 0 = some e ∧ e.t.status = .ready ∧ engineRuns s e.cx = true ∧
      heldByCore s e = false ∧ e.t.reinject = false ∧ fetchInstr (sysView s e.cx) e e.t.pc = ((fetchInstr s e e.t.pc).1, .ok 0x000001200008061C) ∧
      decodeWord e.t.handler 0x000001200008061C = .ok (.brk g7 9) ∧
      fusedAt (fetchInstr s e e.t.pc).1 (e.refresh (fetchInstr s e e.t.pc).1) (.brk g7 9) = none := by
  refine ⟨rfl, rfl, rfl, rfl, rfl, rfl, rfl, rfl, rfl⟩

/-- FMAX x8, x4, x5; FEXPN x9, x5, x8; FEXPN x10, x4, x8; FFMA x11, x11, x10, x9 at the program counter. -/
def sFused : State := { sFetch 0 with mem := memWrites [] (cellsAt 0 (leBytes 32 0x00426150B0B0199C0000211040A0251C000021105090251C000020B040801A9C)) }

def hm0 : FltB := { h := g7, ty := .f32, rnd := .rn, fzo := false, clamp := false, dst := .x 8, a := wt 4, b := .reg (wt 5) }
def he0 : FltB := { hm0 with dst := .x 9, a := wt 5, b := .reg (wt 8) }
def hc0 : FltB := { hm0 with dst := .x 10, a := wt 4, b := .reg (wt 8) }
def hf0 : FltT := { h := g7, ty := .f32, rnd := .rn, fzo := false, clamp := false, dst := .x 11, a := wt 11, b := wt 10, c := wt 9 }

set_option maxRecDepth 8000 in
theorem witness_StepRunsDecodedInstruction_fused :
    let s := ({ turnState sFused [] with cur := 0 } : State)
    let e := (s.env? 0).getD e0
    nextTurn sFused = (.thread 0, []) ∧ s.env? 0 = some e ∧ e.t.status = .ready ∧ engineRuns s e.cx = true ∧ heldByCore s e = false ∧ e.t.reinject = false ∧
      fetchInstr (sysView s e.cx) e e.t.pc = ((fetchInstr s e e.t.pc).1, .ok 0x00000000000020B040801A9C) ∧ decodeWord e.t.handler 0x00000000000020B040801A9C = .ok (.fmax hm0) ∧
      (fusedAt (fetchInstr s e e.t.pc).1 (e.refresh (fetchInstr s e e.t.pc).1) (.fmax hm0)).map (·.2) = some (.fusedSoftmax hm0 he0 hc0 hf0) := by
  refine ⟨rfl, rfl, rfl, rfl, rfl, rfl, rfl, rfl, rfl⟩

theorem witness_StepTrapsIllegalBitsAndRunsDeviceRows :
    (let s := ({ turnState (sFetch 0x68C) [] with cur := 0 } : State)
     let e := (s.env? 0).getD e0
     nextTurn (sFetch 0x68C) = (.thread 0, []) ∧ s.env? 0 = some e ∧ e.t.status = .ready ∧ engineRuns s e.cx = true ∧ heldByCore s e = false ∧ e.t.reinject = false ∧
       fetchInstr (sysView s e.cx) e e.t.pc = ((fetchInstr s e e.t.pc).1, .ok 0x68C) ∧ decodeWord e.t.handler 0x68C = .error ⟨.op, 2⟩) ∧
    nextTurn sMem = (.event (.fabricIdentityWrite 0), []) ∧ isEvent (.fabricIdentityWrite 0) = true := by
  refine ⟨⟨rfl, rfl, rfl, rfl, rfl, rfl, rfl, rfl⟩, rfl, rfl⟩

/-- Guard p0, which is false in `t0`, and the guard that is its negation. -/
def g0 : Head := { g7 with pg := 0 }
def gn0 : Head := { g0 with pn := true }

/-- `t0` with a poisoned p0. -/
def tPois : Thread := { t0 with preds := t0.preds.set 0 { val := false, tok := some 0x41000001 } }

theorem witness_NopHasNoEffect :
    ((st tPois).env? (st tPois).cur = some (en tPois) ∧ (predAt tPois g0.pg).tok = some 0x41000001 ∧ g0.sp = false) ∧
    (s0.env? s0.cur = some e0 ∧ (predAt t0 g0.pg).tok = none) ∧ ({ g0 with sp := true } : Head).sp = true :=
  ⟨⟨rfl, rfl, rfl⟩, ⟨rfl, rfl⟩, rfl⟩

theorem witness_PriorityIsSetAndRead : Enabled s0 e0 g7 := ⟨rfl, rfl, rfl⟩

/-- A thread eight bytes below the top of its code buffer. -/
def tTop : Thread := { t0 with pc := { index := 1, offset := 0xFFFFFFFFF8 } }

theorem witness_DirectBranches :
    (s0.env? s0.cur = some e0 ∧ (predAt t0 g0.pg).tok = none ∧ guardVal t0 g0 = false ∧ guardVal t0 g7 = true) ∧
    -- the lowest target, and the first below it
    (e0.t.pc.offset.toNat : Int) + 4 * (-1024 : BitVec 18).toInt = 0 ∧ (e0.t.pc.offset.toNat : Int) + 4 * (-1025 : BitVec 18).toInt < 0 ∧
    (e0.t.pc.offset.toNat : Int) + 4 * (-1024 : BitVec 32).toInt = 0 ∧ (e0.t.pc.offset.toNat : Int) + 4 * (-1025 : BitVec 32).toInt < 0 ∧
    -- the highest, and the first above it
    ((st tTop).env? (st tTop).cur = some (en tTop) ∧ guardVal tTop g7 = true) ∧
    (tTop.pc.offset.toNat : Int) + 4 * (1 : BitVec 18).toInt = 2 ^ 40 - 4 ∧ (2 : Int) ^ 40 ≤ (tTop.pc.offset.toNat : Int) + 4 * (2 : BitVec 18).toInt ∧
    (tTop.pc.offset.toNat : Int) + 4 * (1 : BitVec 32).toInt = 2 ^ 40 - 4 ∧ (2 : Int) ^ 40 ≤ (tTop.pc.offset.toNat : Int) + 4 * (2 : BitVec 32).toInt := by
  refine ⟨⟨rfl, rfl, rfl, rfl⟩, ?_, ?_, ?_, ?_, ⟨rfl, rfl⟩, ?_, ?_, ?_, ?_⟩ <;> decide

/-- What the sources of `t0` read. -/
def v2 : SrcVal := clean [0x10, 0x500]

theorem ready_none (t : Thread) (h : Head) (d : List DstReq) (on : Enabled (st t) (en t) h) (ha : allocated (en t) (dstRegs d) = true)
    (hd : ∀ q ∈ d, dstWait (st t) (en t) q = none) : Ready (st t) (en t) h [] d (st t) [] :=
  ⟨on, by simpa [Machine.srcRegs] using ha, fun _ hq => by simp at hq, rfl, hd⟩

/-- A call whose link is x10:x11, to the lowest and to the highest target. -/
theorem witness_Calls :
    Ready s0 e0 g7 [] [{ reg := .x 10, words := 2 }] s0 [] ∧ Enabled s0 e0 g7 ∧
    (0 : Int) ≤ (e0.t.pc.offset.toNat : Int) + 4 * (-1024 : BitVec 18).toInt ∧ (e0.t.pc.offset.toNat : Int) + 4 * (-1024 : BitVec 18).toInt < 2 ^ 40 ∧
    (0 : Int) ≤ (e0.t.pc.offset.toNat : Int) + 4 * (-1024 : BitVec 32).toInt ∧ (e0.t.pc.offset.toNat : Int) + 4 * (-1024 : BitVec 32).toInt < 2 ^ 40 := by
  refine ⟨ready_none t0 g7 _ enabled0 rfl ?_, enabled0, ?_, ?_, ?_, ?_⟩ <;> first | decide | simp <;> rfl

/-- `t0` with x8:x9 = 1:0x3000, x10:x11 = 1:0x3002, and x12:x13 poisoned. -/
def tJmp : Thread :=
  let t := thr (rs0 ++ [(8, 0x3000), (9, 0x100), (10, 0x3002), (11, 0x100)])
  { t with regs := t.regs.set 12 { val := 0x41000001, poison := true } }

theorem full1 {t : Thread} {q : SrcReq} (h : ∀ n ∈ xRegs q.src.reg q.words, (regAt t n).readable = true) :
    ∀ r ∈ [q], ∀ n ∈ xRegs r.src.reg r.words, (regAt t n).readable = true := by
  intro r hr; simp at hr; subst hr; exact h

theorem each0 {α : Type} {p : α → Prop} : ∀ a ∈ ([] : List α), p a := by simp
theorem each1 {α : Type} {p : α → Prop} {a : α} (h : p a) : ∀ x ∈ [a], p x := by simpa
theorem each2 {α : Type} {p : α → Prop} {a b : α} (h : p a) (k : p b) : ∀ x ∈ [a, b], p x := by simp [h, k]
theorem each3 {α : Type} {p : α → Prop} {a b c : α} (h : p a) (k : p b) (l : p c) : ∀ x ∈ [a, b, c], p x := by simp [h, k, l]

theorem witness_RegisterTransfers :
    (Ready (st tJmp) (en tJmp) g7 [{ src := wt 8, words := 2 }] [] (st tJmp) [clean [0x3000, 0x100]] ∧
      Ready (st tJmp) (en tJmp) g7 [{ src := wt 8, words := 2 }] [{ reg := .x 14, words := 2 }] (st tJmp) [clean [0x3000, 0x100]] ∧
      (wordRef (clean [0x3000, 0x100]).v64).offset.extractLsb' 0 2 = 0) ∧
    (Ready (st tJmp) (en tJmp) g7 [{ src := wt 10, words := 2 }] [] (st tJmp) [clean [0x3002, 0x100]] ∧
      (wordRef (clean [0x3002, 0x100]).v64).offset.extractLsb' 0 2 ≠ 0) ∧
    Ready (st tJmp) (en tJmp) g7 [{ src := wt 12, words := 2 }] [] (st tJmp) [{ words := [0x41000001, 0], tok := some 0x41000001 }] := by
  refine ⟨⟨⟨⟨rfl, rfl, rfl⟩, rfl, by decide, rfl, each0⟩, ⟨⟨rfl, rfl, rfl⟩, rfl, by decide, rfl, each1 rfl⟩, rfl⟩,
    ⟨⟨⟨rfl, rfl, rfl⟩, rfl, by decide, rfl, each0⟩, by decide⟩, ⟨rfl, rfl, rfl⟩, rfl, by decide, rfl, each0⟩

theorem witness_YieldQendFenceTrywAndExit : Enabled s0 e0 g7 ∧ 191 < e0.g.nregs ∧ 0 < e0.g.nregs := ⟨enabled0, by decide, by decide⟩

/-- `t0` with x20 empty, x21 pending and x22 pending for the thread's own atomic. -/
def tEmpty : Thread :=
  { t0 with regs := ((t0.regs.set 20 { full := false }).set 21 { full := false, pend := .other }).set 22 { full := false, pend := .atomic } }

/-- IADD x10, x20, #1, with wait bit 1 or 0, and one of x192, which no thread owns. -/
def iEmpty (w : Bool) (h : Head) : IntB := { h := h, w := .w32, sgn := false, sat := false, dst := .x 10, a := ⟨.x 20, w⟩, b := .imm 1 }
def iOut : IntB := { iEmpty true g7 with dst := .x 192 }

theorem witness_GuardsAndSourcesDecideFirst :
    (guarded (.nop g0) = some (g0, 8) ∧ meets (.nop g0) = false ∧ s0.env? s0.cur = some e0 ∧ (predAt t0 g0.pg).tok = none ∧ guardVal t0 g0 = false) ∧
    (guarded (.unif { h := g0, w64 := false, dst := .x 4, a := wt 0, mask := wt 2 }) = some (g0, 8) ∧
      (st tPois).env? (st tPois).cur = some (en tPois) ∧ (predAt tPois g0.pg).tok = some 0x41000001 ∧ g0.sp = false ∧ captiveFull tPois = false) ∧
    (∀ w, ∀ h ∈ [g7, { g7 with sp := true }], ∃ k, arith (.iadd (iEmpty w h)) = some (h, 8, k) ∧ Enabled (st tEmpty) (en tEmpty) h ∧
      k.srcs = [{ src := ⟨.x 20, w⟩ }] ∧ allocated (en tEmpty) (srcRegs k.srcs ++ dstRegs (dstReqs k.dst)) = true ∧
      (regAt tEmpty 20).full = false ∧ (regAt tEmpty 20).held = false ∧ (regAt tEmpty 20).pend = .no ∧
      k.preds = [] ∧ k.dst = .reg (.x 10) 1 ∧ k.long = none ∧ dstWait (st tEmpty) (en tEmpty) { reg := .x 10, words := 1 } = none) ∧
    (∃ k, arith (.iadd iOut) = some (g7, 8, k) ∧ Enabled s0 e0 g7 ∧ allocated e0 (srcRegs k.srcs ++ dstRegs (dstReqs k.dst)) = false) := by
  refine ⟨⟨rfl, rfl, rfl, rfl, rfl⟩, ⟨rfl, rfl, rfl, rfl, rfl⟩, ?_, ⟨_, rfl, enabled0, rfl⟩⟩
  intro w h hh
  refine ⟨_, rfl, ?_, rfl, ?_, rfl, rfl, rfl, rfl, rfl, rfl, rfl⟩
  · simp at hh; rcases hh with rfl | rfl <;> exact ⟨rfl, rfl, rfl⟩
  · rfl

/-- `t0` in the handler. -/
def tHand : Thread := { t0 with handler := true }

/-- `s0` whose context has no handler. -/
def sNoHandler : State := { s0 with ctxs := [(3, { ctx0 with trapbase := 0x0000010000002000 })] }

theorem witness_TrapsEnterTheHandlerOrKillTheContext :
    (e0.t.handler = false ∧ (s0.ctx e0.cx).trapbase.getLsbD 0 = true) ∧
    ((s0.ctx e0.cx).kill = none ∧ (s0.ctx e0.cx).state ≠ .free ∧ (s0.ctx e0.cx).state ≠ .lost ∧ (en tHand).t.handler = true) ∧
    ((sNoHandler.ctx e0.cx).kill = none ∧ (sNoHandler.ctx e0.cx).state = .run ∧ (sNoHandler.ctx e0.cx).trapbase.getLsbD 0 = false) :=
  ⟨⟨rfl, rfl⟩, ⟨rfl, by decide, by decide, rfl⟩, rfl, rfl, rfl⟩

theorem witness_TrapsChecksAndTokensAreRaised :
    (Enabled s0 e0 g7 ∧ e0.t.handler = false ∧ (s0.ctx e0.cx).trapbase.getLsbD 0 = true ∧ s0.env? e0.tid = some e0 ∧ e0.inst.ftok = none) ∧
    (Enabled (st tPois) (en tPois) g7 ∧ (predAt tPois 0).tok = some 0x41000001 ∧ (predAt tPois 1).tok = none) ∧
    (Ready s0 e0 g7 [{ src := wt 0 }] [] s0 [clean [7]] ∧
      Ready (st tJmp) (en tJmp) g7 [{ src := wt 12 }] [] (st tJmp) [{ words := [0x41000001], tok := some 0x41000001 }]) ∧
    (∀ h ∈ [g7, { g7 with sp := true }], Enabled (st tEmpty) (en tEmpty) h ∧ 20 < (en tEmpty).g.nregs ∧ (regAt tEmpty 20).full = false ∧ (regAt tEmpty 20).held = false) ∧
    Ready s0 e0 { g7 with sp := true } [] [{ reg := .x 10, words := 2 }] s0 [] ∧ Ready s0 e0 { g7 with sp := true } [] [{ reg := .x 11 }] s0 [] := by
  refine ⟨⟨enabled0, rfl, rfl, rfl, rfl⟩, ⟨⟨rfl, rfl, rfl⟩, rfl, rfl⟩, ⟨⟨enabled0, rfl, by decide, rfl, each0⟩, ⟨rfl, rfl, rfl⟩, rfl, by decide, rfl, each0⟩,
    each2 ⟨⟨rfl, rfl, rfl⟩, by decide, rfl, rfl⟩ ⟨⟨rfl, rfl, rfl⟩, by decide, rfl, rfl⟩, ⟨⟨rfl, rfl, rfl⟩, rfl, each0, rfl, each1 rfl⟩, ⟨rfl, rfl, rfl⟩, rfl, each0, rfl, each1 rfl⟩

theorem witness_BreakRaisesWithItsNumber :
    s0.env? s0.cur = some e0 ∧ (predAt t0 g0.pg).tok = none ∧ guardVal t0 g0 = false ∧ guardVal t0 g7 = true ∧
    e0.t.handler = false ∧ (s0.ctx e0.cx).trapbase.getLsbD 0 = true := ⟨rfl, rfl, rfl, rfl, rfl, rfl⟩

theorem witness_ReturnFromTrapRestores : Enabled (st tHand) (en tHand) g7 := ⟨rfl, rfl, rfl⟩


/-- An arithmetic instruction has its sources at hand, and its operation gives a value of the kind its destination takes. -/
def arithRuns (s : State) (e : Env) (i : Instr) : Bool :=
  match arith i with
  | none => false
  | some (h, _, k) =>
    (predAt e.t h.pg).tok.isNone && (guardVal e.t h && (allocated e (srcRegs k.srcs ++ dstRegs (dstReqs k.dst)) &&
    (k.srcs.all (fun q => (xRegs q.src.reg q.words).all fun n => (regAt e.t n).readable) && ((dstReqs k.dst).all (fun d => (dstWait s e d).isNone) &&
    (match readAll e h s k.srcs with
     | .ok (s1, vals) =>
       (taken k vals).all (fun v => v.tok.isNone) && (k.preds.all (fun p => (predAt (e.refresh s1).t p).tok.isNone) && ((takeShadow s1.injected).isNone &&
         resultFor k.dst (k.f (aluInput s1 (e.refresh s1) 0 k vals))))
     | .error _ => false)))))

theorem arithRuns_sound {s : State} {e : Env} {i : Instr} (he : s.env? s.cur = some e) (hp : arithRuns s e i = true) :
    ∃ h len k s1 vals r, arith i = some (h, len, k) ∧ Ready s e h k.srcs (dstReqs k.dst) s1 vals ∧ AluClean s1 (e.refresh s1) k vals ∧
      k.f (aluInput s1 (e.refresh s1) 0 k vals) = r ∧ resultFor k.dst r = true := by
  unfold arithRuns at hp
  split at hp
  · cases hp
  · rename_i h len k ha
    simp only [Bool.and_eq_true, List.all_eq_true, Option.isNone_iff_eq_none] at hp
    obtain ⟨hg, hv, hal, hf, hd, hm⟩ := hp
    split at hm
    · rename_i s1 vals hr
      simp only [Bool.and_eq_true, List.all_eq_true, Option.isNone_iff_eq_none] at hm
      exact ⟨h, len, k, s1, vals, _, ha, ⟨⟨he, hg, hv⟩, by simpa using hal, hf, hr, hd⟩, ⟨hm.1, hm.2.1, fun _ => hm.2.2.1⟩, rfl, hm.2.2.2⟩
    · cases hm

/-- Registers with values of their own, so that no divisor is zero. -/
def tArith : Thread := thr (((List.range 24).map fun i => (i, BitVec.ofNat 32 (0x3F800000 + 0x1234 * i))) ++ [(7, 0)])

theorem sampleRuns {l : List Instr} (h : l.all (arithRuns (st tArith) (en tArith)) = true) :
    ∀ i ∈ l, ∃ h len k s1 vals r, arith i = some (h, len, k) ∧ Ready (st tArith) (en tArith) h k.srcs (dstReqs k.dst) s1 vals ∧
      AluClean s1 ((en tArith).refresh s1) k vals ∧ k.f (aluInput s1 ((en tArith).refresh s1) 0 k vals) = r ∧ resultFor k.dst r = true :=
  fun i hi => arithRuns_sound rfl (by simpa using List.all_eq_true.1 h i hi)

/-- Every arithmetic instruction of the words above has its operands and a result, long-latency ones, predicates and masks among them. -/
theorem witness_ArithmeticWritesItsDestinations :
    ∀ i ∈ instrsInteger ++ instrsFloat, ∃ h len k s1 vals r, arith i = some (h, len, k) ∧
      Ready (st tArith) (en tArith) h k.srcs (dstReqs k.dst) s1 vals ∧ AluClean s1 ((en tArith).refresh s1) k vals ∧
      k.f (aluInput s1 ((en tArith).refresh s1) 0 k vals) = r ∧ resultFor k.dst r = true :=
  sampleRuns (by decide +kernel)

/-- Port q0 is bound to an open ring of four slots of one word. -/
def gRing : CoreGroup := { grp0 with ports := grp0.ports.set 0 { binding := .ring 8 0 } }
def ring0 : Ring := { num := 0, base := 0x100, lg := 2, ssz := 0 }
def sRing : State := { s0 with groups := [(9, gRing)], cgroups := [(8, { cgrp0 with rings := [ring0] })] }
def eRing : Env := { e0 with g := gRing }

/-- Context 3 traps on every float flag; x6 holds 1 and x8 2 ^ -40, whose sum is inexact. -/
def tFpx : Thread := thr [(6, 0x3F800000), (8, 0x2B800000)]
def sFpx : State := { st tFpx with ctxs := [(3, { ctx0 with tmode := 0x7F })] }

theorem witness_ArithmeticWritesItsDestinations_port :
    arithRuns sRing eRing (.iadd { ia with dst := .q 0 }) = true ∧ sRing.env? sRing.cur = some eRing ∧
      portBinding (eRing.refresh sRing) 0 = .ring 8 0 ∧ (pushWords sRing 8 0 eRing.tid 0 [20]).isSome = true ∧
    arithRuns sFpx (en tFpx) (.fadd fa) = true ∧ sFpx.env? sFpx.cur = some (en tFpx) ∧ (taskFadd fa).long = none ∧ (sFpx.ctx 3).fpxe = 0x1F ∧
      flagsOf ((taskFadd fa).f (aluInput sFpx (en tFpx) 0 (taskFadd fa) [clean [0x3F800000], clean [0x2B800000]])) &&& 0x1F ≠ 0 := by
  refine ⟨by decide +kernel, rfl, rfl, by decide +kernel, by decide +kernel, rfl, rfl, rfl, by decide +kernel⟩

/-- The same for the two operations of a pair. -/
def pairRuns (s : State) (e : Env) (i : Instr) : Bool :=
  match pairOf? i with
  | none => false
  | some (h, _, k0, k1) =>
    (predAt e.t h.pg).tok.isNone && (guardVal e.t h && (allocated e (srcRegs (k0.srcs ++ k1.srcs) ++ dstRegs (dstReqs k0.dst ++ dstReqs k1.dst)) &&
    ((k0.srcs ++ k1.srcs).all (fun q => (xRegs q.src.reg q.words).all fun n => (regAt e.t n).readable) &&
    ((dstReqs k0.dst ++ dstReqs k1.dst).all (fun d => (dstWait s e d).isNone) &&
    (match readAll e h s (k0.srcs ++ k1.srcs) with
     | .ok (s1, vals) =>
       let v0 := vals.take k0.srcs.length
       let v1 := vals.drop k0.srcs.length
       (taken k0 v0).all (fun v => v.tok.isNone) && ((taken k1 v1).all (fun v => v.tok.isNone) && (k0.preds.all (fun p => (predAt (e.refresh s1).t p).tok.isNone) &&
         (k1.preds.all (fun p => (predAt (e.refresh s1).t p).tok.isNone) && ((takeShadow s1.injected).isNone &&
         (resultFor k0.dst (k0.f (aluInput s1 (e.refresh s1) 0 k0 v0)) &&
           resultFor k1.dst (k1.f (aluInput s1 (e.refresh s1) (if k0.draws then 1 else 0) k1 v1)))))))
     | .error _ => false)))))

theorem pairRuns_sound {s : State} {e : Env} {i : Instr} (he : s.env? s.cur = some e) (hp : pairRuns s e i = true) :
    ∃ h len k0 k1 s1 vals r0 r1, pairOf? i = some (h, len, k0, k1) ∧
      Ready s e h (k0.srcs ++ k1.srcs) (dstReqs k0.dst ++ dstReqs k1.dst) s1 vals ∧
      AluClean s1 (e.refresh s1) k0 (vals.take k0.srcs.length) ∧ AluClean s1 (e.refresh s1) k1 (vals.drop k0.srcs.length) ∧
      k0.f (aluInput s1 (e.refresh s1) 0 k0 (vals.take k0.srcs.length)) = r0 ∧ resultFor k0.dst r0 = true ∧
      k1.f (aluInput s1 (e.refresh s1) (if k0.draws then 1 else 0) k1 (vals.drop k0.srcs.length)) = r1 ∧ resultFor k1.dst r1 = true := by
  unfold pairRuns at hp
  split at hp
  · cases hp
  · rename_i h len k0 k1 ha
    simp only [Bool.and_eq_true, List.all_eq_true, Option.isNone_iff_eq_none] at hp
    obtain ⟨hg, hv, hal, hf, hd, hm⟩ := hp
    split at hm
    · rename_i s1 vals hr
      simp only [Bool.and_eq_true, List.all_eq_true, Option.isNone_iff_eq_none] at hm
      exact ⟨h, len, k0, k1, s1, vals, _, _, ha, ⟨⟨he, hg, hv⟩, by simpa using hal, hf, hr, hd⟩, ⟨hm.1, hm.2.2.1, fun _ => hm.2.2.2.2.1⟩,
        ⟨hm.2.1, hm.2.2.2.1, fun _ => hm.2.2.2.2.1⟩, rfl, hm.2.2.2.2.2.1, rfl, hm.2.2.2.2.2.2⟩
    · cases hm

theorem witness_Pairs :
    ∀ i ∈ instrsPairs, ∃ h len k0 k1 s1 vals r0 r1, pairOf? i = some (h, len, k0, k1) ∧
      Ready (st tArith) (en tArith) h (k0.srcs ++ k1.srcs) (dstReqs k0.dst ++ dstReqs k1.dst) s1 vals ∧
      AluClean s1 ((en tArith).refresh s1) k0 (vals.take k0.srcs.length) ∧ AluClean s1 ((en tArith).refresh s1) k1 (vals.drop k0.srcs.length) ∧
      k0.f (aluInput s1 ((en tArith).refresh s1) 0 k0 (vals.take k0.srcs.length)) = r0 ∧ resultFor k0.dst r0 = true ∧
      k1.f (aluInput s1 ((en tArith).refresh s1) (if k0.draws then 1 else 0) k1 (vals.drop k0.srcs.length)) = r1 ∧ resultFor k1.dst r1 = true := by
  have h : instrsPairs.all (pairRuns (st tArith) (en tArith)) = true := by decide +kernel
  exact fun i hi => pairRuns_sound rfl (by simpa using List.all_eq_true.1 h i hi)

/-- Maximum 3.0, new value 5.0 and sum 2.0 in x4, x5 and x11. -/
def tSoft : Thread := thr [(4, 0x40400000), (5, 0x40A00000), (11, 0x40000000)]

set_option maxRecDepth 8000 in
theorem witness_FusedSequence :
    let go (k : AluTask) (l : List Nat) := k.f { vals := l.map fun v => { words := [BitVec.ofNat 32 v], tok := none }, preds := [], ftz := ((st tSoft).ctx 3).ftz, draw := 0 }
    Enabled (st tSoft) (en tSoft) g7 ∧ [4, 5, 8, 9, 10, 11].Nodup ∧ (∀ n ∈ [4, 5, 8, 9, 10, 11], n < (en tSoft).g.nregs ∧ n < tSoft.regs.length) ∧
    tSoft.status = .ready ∧ ((st tSoft).ctx 3).fpxe = 0 ∧ takeShadow (st tSoft).injected = none ∧
    regAt tSoft 4 = { val := 0x40400000, full := true } ∧ regAt tSoft 5 = { val := 0x40A00000, full := true } ∧ regAt tSoft 11 = { val := 0x40000000, full := true } ∧
    (∀ n ∈ [8, 9, 10], (regAt tSoft n).pend = .no ∧ (regAt tSoft n).lent = false ∧ (regAt tSoft n).held = false) ∧
    -- max(3, 5) = 5, 2 ^ (5 - 5) = 1, 2 ^ (3 - 5) = 1/4, and 2 / 4 + 1 = 3/2
    go (taskFmax hm0) [0x40400000, 0x40A00000] = .val 0x40A00000 0 ∧ go (taskFexpn he0) [0x40A00000, 0x40A00000] = .val 0x3F800000 0 ∧
    go (taskFexpn hc0) [0x40400000, 0x40A00000] = .val 0x3E800000 0 ∧ go (taskFfma hf0) [0x40000000, 0x3E800000, 0x3F800000] = .val 0x3FC00000 0 := by
  refine ⟨⟨rfl, rfl, rfl⟩, by decide, by decide, rfl, rfl, rfl, rfl, rfl, rfl, by decide, rfl, rfl, rfl, rfl⟩

/-- x0 = 7, x1 = -3, x4:x5 = -7, x6:x7 = 2, x8 = 0. -/
def tDiv : Thread := thr [(0, 7), (1, 0xFFFFFFFD), (4, 0xFFFFFFF9), (5, 0xFFFFFFFF), (6, 2)]
def dv (w : IWidth) (a b : Nat) (h : Head) : IntB := { h := h, w := w, sgn := true, sat := false, dst := .x 10, a := wt a, b := .reg (wt b) }

theorem witness_Division :
    (Ready (st tDiv) (en tDiv) g7 (taskIdiv (dv .w32 0 1 g7)).srcs [{ reg := .x 10, words := 1 }] (st tDiv) [clean [7], clean [0xFFFFFFFD]] ∧
      Unpoisoned [clean [7], clean [0xFFFFFFFD]] ∧ Lands (dv .w32 0 1 g7).dst ∧ (clean [0xFFFFFFFD]).nat 1 ≠ 0) ∧
    (Ready (st tDiv) (en tDiv) g7 (taskIdiv (dv .w64 4 6 g7)).srcs [{ reg := .x 10, words := 2 }] (st tDiv) [clean [0xFFFFFFF9, 0xFFFFFFFF], clean [2, 0]] ∧
      Unpoisoned [clean [0xFFFFFFF9, 0xFFFFFFFF], clean [2, 0]] ∧ (clean [2, 0]).nat 2 ≠ 0) ∧
    (∀ h ∈ [g7, { g7 with sp := true }], Ready (st tDiv) (en tDiv) h (taskIdiv (dv .w32 0 8 h)).srcs [{ reg := .x 10, words := 1 }] (st tDiv) [clean [7], clean [0]] ∧
      Unpoisoned [clean [7], clean [0]] ∧ (clean [0]).nat 1 = 0) := by
  refine ⟨⟨⟨⟨rfl, rfl, rfl⟩, rfl, by decide, rfl, each1 rfl⟩, each2 rfl rfl, .inr ⟨_, rfl⟩, by decide⟩, ⟨⟨⟨rfl, rfl, rfl⟩, rfl, by decide, rfl, each1 rfl⟩, each2 rfl rfl, by decide⟩, ?_⟩
  intro h hh
  simp at hh; rcases hh with rfl | rfl <;> exact ⟨⟨⟨rfl, rfl, rfl⟩, rfl, by decide, rfl, each1 rfl⟩, each2 rfl rfl, rfl⟩

theorem witness_IntegerResultsOfTwoRegisters :
    ia.w = .w32 ∧ ia.sat = false ∧ ia.dst = .x 4 ∧ ia.a = ⟨.x 6, true⟩ ∧ ia.b = .reg ⟨.x 8, true⟩ ∧ Enabled s0 e0 ia.h ∧ 4 < e0.g.nregs ∧ 6 < e0.g.nregs ∧ 8 < e0.g.nregs ∧
      regAt t0 6 = { val := 20, full := true } ∧ regAt t0 8 = { val := 0, full := true } ∧ (regAt t0 4).pend = .no ∧ (regAt t0 4).lent = false := by
  refine ⟨rfl, rfl, rfl, rfl, rfl, enabled0, ?_, ?_, ?_, rfl, rfl, rfl, rfl⟩ <;> decide

/-- No tier is swept in `s0`. -/
theorem noTier0 : ∀ tier, tierBlock? s0 tier = none := by
  intro tier
  have : s0.tierCur.getD tier 0 = 0 := by rcases tier with _ | _ | n <;> rfl
  simp only [tierBlock?, this]; rfl


/-- The base that x2:x3 name, and what it reads. -/
def base2 : SrcReq := { src := wt 2, words := 2 }
def vBase : SrcVal := clean [0x10, 0x500]
def lo2 : MemO := { h := g7, size := .b64, reg := .x 12, base := wt 2, disp := 8, policy := 0, hint := 0 }
def ll2 : MemL := { h := g7, size := .n16, reg := .x 12, base := wt 2, disp := -2, policy := 0, hint := 0 }
def so2 : MemO := { lo2 with size := .b32, reg := .x 0 }
def sl2 : MemL := { ll2 with reg := .x 0 }
def ao2 : AtomO := { h := g7, op := .add, w64 := false, dst := .x 12, base := wt 2, v := wt 0, scope := .die, policy := 0, hint := 0 }
def hit0 (off n : Nat) : Hit := { pas := (List.range n).map (0x20000 + off + ·), masks := defaultMasks, va := 0x10000 + off }

set_option maxRecDepth 40000 in
theorem witness_LoadsAndAtomicsIssue :
    vBase.tok = none ∧ captiveFull t0 = false ∧ count255 t0 = false ∧
    (Ready s0 e0 g7 [base2] [{ reg := .x 12, words := 2 }] s0 [vBase] ∧
      Reaches s0 e0 (wordRef vBase.v64) lo2.disp.toInt 8 kindRead (access s0 0 3 (wordRef vBase.v64) 8 8 8 kindRead).1 (hit0 0x18 8)) ∧
    (Ready s0 e0 g7 [base2] [{ reg := .x 12, words := 1 }] s0 [vBase] ∧
      Reaches s0 e0 (wordRef vBase.v64) ll2.disp.toInt 2 kindRead (access s0 0 3 (wordRef vBase.v64) (-2) 2 2 kindRead).1 (hit0 0xE 2)) ∧
    (Ready s0 e0 g7 [base2, { src := wt 0, words := 1 }] [{ reg := .x 12, words := 1 }] s0 [vBase, clean [7]] ∧
      Reaches s0 e0 (wordRef vBase.v64) 0 4 kindAtomic (access s0 0 3 (wordRef vBase.v64) 0 4 4 kindAtomic).1 (hit0 0x10 4)) := by
  refine ⟨rfl, rfl, rfl, ⟨⟨enabled0, rfl, by decide, rfl, each1 rfl⟩, rfl⟩, ⟨⟨enabled0, rfl, by decide, rfl, each1 rfl⟩, rfl⟩,
    ⟨enabled0, rfl, by decide, rfl, each1 rfl⟩, rfl⟩

/-- `t0` with a poisoned base x14:x15, poisoned data x16, x8:x9 = 5:0xFFFF, and x18:x19 = 5:0x2000, whose page is not translated. -/
def tMiss : Thread :=
  let t := thr (rs0 ++ [(8, 0xFFFF), (9, 0x500), (18, 0x2000), (19, 0x500)])
  { t with regs := (t.regs.set 14 { val := 0x41000001, poison := true }).set 16 { val := 0x42000002, poison := true } }

/-- No table of translations: its root holds zeros. -/
def sMiss : State := { st tMiss with ctxs := [(3, { ctx0 with s1root := 0x40000, s2root := 0x50000 })] }
def eMiss : Env := en tMiss

set_option maxRecDepth 40000 in
theorem witness_StoresWait :
    (Ready s0 e0 g7 [base2, { src := wt 0, words := 1 }] [] s0 [vBase, clean [7]] ∧
      Reaches s0 e0 (wordRef vBase.v64) so2.disp.toInt 4 kindWrite (access s0 0 3 (wordRef vBase.v64) 8 4 4 kindWrite).1 (hit0 0x18 4) ∧
      Reaches s0 e0 (wordRef vBase.v64) sl2.disp.toInt 2 kindWrite (access s0 0 3 (wordRef vBase.v64) (-2) 2 2 kindWrite).1 (hit0 0xE 2)) ∧
    -- a poisoned base; poisoned data
    Ready sMiss eMiss g7 [{ src := wt 14, words := 2 }, { src := wt 0, words := 1 }] [] sMiss [{ words := [0x41000001, 0], tok := some 0x41000001 }, clean [7]] ∧
    Ready sMiss eMiss g7 [base2, { src := wt 16, words := 1 }] [] sMiss [vBase, { words := [0x42000002], tok := some 0x42000002 }] ∧
    -- beyond the buffer's end; a page that is not present
    (Ready sMiss eMiss g7 [{ src := wt 8, words := 2 }] [{ reg := .x 12, words := 2 }] sMiss [clean [0xFFFF, 0x500]] ∧
      access sMiss 0 3 (wordRef (clean [0xFFFF, 0x500]).v64) 0 8 8 kindRead = (sMiss, .error (.fault 0x03))) ∧
    (Ready sMiss eMiss g7 [{ src := wt 18, words := 2 }] [{ reg := .x 12, words := 2 }] sMiss [clean [0x2000, 0x500]] ∧
      access sMiss 0 3 (wordRef (clean [0x2000, 0x500]).v64) 0 8 8 kindRead = ((access sMiss 0 3 (wordRef (clean [0x2000, 0x500]).v64) 0 8 8 kindRead).1, .error (.page 4 1 0x40000 (some 0x12000)))) ∧
    (Ready sMiss eMiss { g7 with sp := true } [{ src := wt 8, words := 2 }] [{ reg := .x 12, words := 2 }] sMiss [clean [0xFFFF, 0x500]] ∧ Lands (.x 12)) := by
  refine ⟨⟨⟨enabled0, rfl, by decide, rfl, each0⟩, rfl, rfl⟩, ⟨⟨rfl, rfl, rfl⟩, rfl, by decide, rfl, each0⟩, ⟨⟨rfl, rfl, rfl⟩, rfl, by decide, rfl, each0⟩,
    ⟨⟨⟨rfl, rfl, rfl⟩, rfl, by decide, rfl, each1 rfl⟩, rfl⟩, ⟨⟨⟨rfl, rfl, rfl⟩, rfl, by decide, rfl, each1 rfl⟩, rfl⟩,
    ⟨⟨rfl, rfl, rfl⟩, rfl, by decide, rfl, each1 rfl⟩, .inr ⟨_, rfl⟩⟩

/-- A load of four bytes at 5:0x10 that has issued and waits for its write-back. -/
def acc0 (own : List (Option Byte)) : Acc :=
  { id := 50, kind := .load .b32 { index := 5, offset := 0x10 } 0x10010 0x20010 own 0 defaultMasks, dst := [12], quantum := 0, off := 0x1000, op := 0x60, fmt := 0 }
def tAcc (own : List (Option Byte)) : Thread := { t0 with accs := [acc0 own], regs := t0.regs.set 12 { full := false, pend := .other } }
def noOwn : List (Option Byte) := [none, none, none, none]
def sMark : State := { st (tAcc noOwn) with marks := [0x800] }

set_option maxRecDepth 40000 in
theorem witness_LoadsDeliverTheirBytes :
    (∀ own ∈ [noOwn, [some 1, some 2, some 3, some 4]], (st (tAcc own)).env? 2 = some (en (tAcc own)) ∧ (tAcc own).accs = [acc0 own] ∧
      waitsAnywhere (st (tAcc own)) 50 = false ∧ (tAcc own).status ≠ .exited ∧ own.length = Size.b32.bytes) ∧
    (∀ b ∈ noOwn, b = none) ∧ (∀ b ∈ ([some 1, some 2, some 3, some 4] : List (Option Byte)), b.isSome = true) ∧
    Readable (st (tAcc noOwn)) (.group 9 0) 0x20010 ∧
    (waitsAnywhere sMark 50 = false ∧ isHbm 0x20010 = true ∧ (∃ l, findLine sMark.lines (0x20010 / 64) = some l ∧ l.victim = false) ∧
      sMark.viewMarked (.group 9 0) (0x20010 / 64) = true) := by
  refine ⟨?_, by decide, by decide, ⟨rfl, ⟨_, rfl, rfl⟩, rfl, rfl⟩, rfl, rfl, ⟨_, rfl, rfl⟩, rfl⟩
  intro own h
  simp at h; rcases h with rfl | rfl <;> exact ⟨rfl, rfl, rfl, by decide, rfl⟩

/-- Indices 2^24 and 2^24 - 1 in x8 and x9, offsets 2^40 and 2^40 - 1 in x10:x11 and x14:x15. -/
def tRef : Thread := thr (rs0 ++ [(8, 0x1000000), (9, 0xFFFFFF), (10, 0), (11, 0x100), (14, 0xFFFFFFFF), (15, 0xFF)])

set_option maxRecDepth 40000 in
theorem witness_ReferencesQueriesAndPrefetches :
    -- an index above the highest; the highest with the offset 2^40, -1 and the highest
    (Ready (st tRef) (en tRef) g7 [{ src := wt 8 }, { src := wt 10, words := 2 }] [{ reg := .x 12, words := 2 }] (st tRef) [clean [0x1000000], clean [0, 0x100]] ∧
      2 ^ 24 ≤ (clean [0x1000000]).v32.toNat) ∧
    (Ready (st tRef) (en tRef) g7 [{ src := wt 9 }, { src := wt 10, words := 2 }] [{ reg := .x 12, words := 2 }] (st tRef) [clean [0xFFFFFF], clean [0, 0x100]] ∧
      (clean [0xFFFFFF]).v32.toNat < 2 ^ 24 ∧ (2 : Int) ^ 40 ≤ ((clean [0, 0x100]).nat 2 : Int)) ∧
    (Ready (st tRef) (en tRef) g7 [{ src := wt 9 }] [{ reg := .x 12, words := 2 }] (st tRef) [clean [0xFFFFFF]] ∧ (-1 : BitVec 18).toInt < 0) ∧
    (Ready (st tRef) (en tRef) g7 [{ src := wt 9 }, { src := wt 14, words := 2 }] [{ reg := .x 12, words := 2 }] (st tRef) [clean [0xFFFFFF], clean [0xFFFFFFFF, 0xFF]] ∧
      ((clean [0xFFFFFFFF, 0xFF]).nat 2 : Int) < 2 ^ 40) ∧
    -- a buffer, and an index at the count
    (Ready s0 e0 g7 [base2] [{ reg := .x 12, words := 2 }] s0 [vBase] ∧ bufferOf s0 0 3 (wordRef vBase.v64).index.toNat = (s0, .ok (some entry0)) ∧
      bufferOf s0 0 3 8 = (s0, .ok none)) ∧
    (Enabled s0 e0 g7 ∧ allocated e0 (xRegs (wt 2).reg 2) = true ∧ ∀ tier, tierBlock? s0 tier = none) := by
  refine ⟨⟨⟨⟨rfl, rfl, rfl⟩, rfl, by decide, rfl, each1 rfl⟩, by decide⟩, ⟨⟨⟨rfl, rfl, rfl⟩, rfl, by decide, rfl, each1 rfl⟩, by decide, by decide⟩,
    ⟨⟨⟨rfl, rfl, rfl⟩, rfl, by decide, rfl, each1 rfl⟩, by decide⟩, ⟨⟨⟨rfl, rfl, rfl⟩, rfl, by decide, rfl, each1 rfl⟩, by decide⟩,
    ⟨⟨enabled0, rfl, by decide, rfl, each1 rfl⟩, rfl, rfl⟩, enabled0, rfl, noTier0⟩

/-- `t0` with a CFLUSH of lines 0x400 to 0x402 and an IINV outstanding. -/
def tMaint : Thread := { t0 with items := [{ id := 60, maint := some (.flush 0x400 0x402) }, { id := 61, maint := some (.icache .core false 0x400 0x402) }] }
def flt0 : Flight := { id := 70, cells := [(0x20010, 5)], core := 0, gid := 9, lvl := 0, vline := some (3, 0x400), ctx := 3 }
def sMaint : State := { st tMaint with flights := [flt0] }

set_option maxRecDepth 40000 in
theorem witness_MaintenanceIsCountedAndCompletes :
    (Ready s0 e0 g7 [base2, { src := wt 0 }] [] s0 [vBase, clean [7]] ∧ (clean [7]).v32 ≠ 0 ∧ count255 t0 = false ∧
      bufferOf s0 0 3 (wordRef vBase.v64).index.toNat = (s0, .ok (some entry0)) ∧ (bufEntry entry0).ok = true ∧
      (wordRef vBase.v64).offset.toNat + 7 ≤ (bufEntry entry0).length ∧ (bufEntry entry0).shared = false ∧ (bufEntry entry0).owner = 3 ∧
      (bufEntry entry0).rights &&& 3 ≠ 0 ∧ (bufEntry entry0).rights &&& 4 = 4) ∧
    (Enabled s0 e0 g7 ∧ ∀ i ∈ t0.items, i.maint = none) ∧
    (Enabled sMaint (en tMaint) g7 ∧ (tMaint.items.filter (·.maint.isSome)).map (·.id) = [60, 61] ∧
      (∃ item, tMaint.items.find? (fun i => i.id = 60) = some item ∧ item.maint = some (.flush 0x400 0x402)) ∧
      (∃ item, tMaint.items.find? (fun i => i.id = 61) = some item ∧ item.maint = some (.icache .core false 0x400 0x402)) ∧
      flt0 ∈ sMaint.flights ∧ flt0.cells ≠ [] ∧ flt0.core = (en tMaint).g.core ∧ flt0.ctx = (en tMaint).cx ∧ ∃ l, flt0.vline = some (3, l) ∧ 0x400 ≤ l ∧ l < 0x402) ∧
    (Enabled s0 e0 g7 ∧ t0.status = .ready ∧ Ready s0 e0 g7 [{ src := wt 0 }] [] s0 [clean [7]] ∧ (clean [7]).v32.toNat < 2 ^ 24) := by
  refine ⟨⟨⟨enabled0, rfl, by decide, rfl, each0⟩, by decide, rfl, rfl, rfl, by decide, rfl, rfl, by decide, by decide⟩, ⟨enabled0, each0⟩,
    ⟨⟨rfl, rfl, rfl⟩, rfl, ⟨_, rfl, rfl⟩, ⟨_, rfl, rfl⟩, List.mem_singleton.2 rfl, by decide, rfl, rfl, _, rfl, by decide, by decide⟩,
    enabled0, rfl, ⟨enabled0, rfl, by decide, rfl, each0⟩, by decide⟩


/-- A barrier without arrivals. -/
def bar0 : Barrier := { phase := 0 }
/-- Barrier 1 has had its first arrival, of thread 5, which fixed 2 arrivals; on barrier 0 the thread itself has arrived. -/
def grpBar : CoreGroup := { grp0 with bars := [{ cnt := some 2, arrived := [2] }, { phase := 3, cnt := some 2, arrived := [5] }] }
def sBar : State := { s0 with groups := [(9, grpBar)] }
def eBar : Env := { e0 with g := grpBar }
/-- x7 = 2, x9 = 2048, x10 = 2049, x11 = 1. -/
def tBar : Thread := thr [(7, 2), (9, 2048), (10, 2049), (11, 1)]
def tArr : Thread := { t0 with barPhases := [(0, 4)] }
def sPhase : State := st tArr

/-- Arrivals: of one number (0 threads, then 1, then at the greatest count), on a barrier with a count; wrong numbers and counts; a
thread that has arrived before. -/
theorem witness_BarriersCountArrivals :
    (Ready s0 e0 g7 (BarArg.reqs (.imm 0 0)) [] s0 [] ∧ BarArg.vals (.imm 0 0) [] = (0, 0) ∧ e0.g.bars[0]? = some bar0 ∧ e0.tid ∉ bar0.arrived) ∧
    (Ready (st tBar) (en tBar) g7 (BarArg.reqs (.reg (wt 11) (wt 9))) [] (st tBar) [clean [1], clean [2048]] ∧
      BarArg.vals (.reg (wt 11) (wt 9)) [clean [1], clean [2048]] = (1, 2048) ∧ (en tBar).g.bars[1]? = some bar0) ∧
    (Ready sBar eBar g7 (BarArg.reqs (.imm 1 2)) [] sBar [] ∧ eBar.g.bars[1]? = some { phase := 3, cnt := some 2, arrived := [5] } ∧ eBar.tid ∉ [5]) ∧
    -- the first number above the barriers, the first count above 2048
    (e0.g.bars.length = 2 ∧ BarArg.vals (.imm 2 0) [] = (2, 0) ∧
      Ready (st tBar) (en tBar) g7 (BarArg.reqs (.reg (wt 11) (wt 10))) [] (st tBar) [clean [1], clean [2049]]) ∧
    -- another count, a second arrival
    (Ready sBar eBar g7 (BarArg.reqs (.imm 1 1)) [] sBar [] ∧ (2 : Nat) ≠ 1) ∧
    (Ready sBar eBar g7 (BarArg.reqs (.imm 0 2)) [] sBar [] ∧ eBar.tid ∈ [2]) ∧
    -- BARW, without and with an arrival; a Buoy's address and a poisoned one
    (Ready s0 e0 g7 (BarNum.reqs (.imm 1)) [] s0 [] ∧ BarNum.val (.imm 1) [] < e0.g.bars.length ∧ e0.g.bars.length ≤ BarNum.val (.imm 2) []) ∧
    (Ready sPhase (en tArr) g7 (BarNum.reqs (.imm 0)) [] sPhase [] ∧ tArr.barPhases.find? (fun p => p.1 = 0) = some (0, 4)) ∧
    Ready s0 e0 g7 [{ src := wt 2 }] [] s0 [clean [0x10]] ∧
    Ready (st tMiss) (en tMiss) g7 [{ src := wt 14 }] [] (st tMiss) [{ words := [0x41000001], tok := some 0x41000001 }] := by
  refine ⟨⟨ready_none t0 g7 [] enabled0 rfl each0, rfl, rfl, by decide⟩, ⟨⟨⟨rfl, rfl, rfl⟩, rfl, by decide, rfl, each0⟩, rfl, rfl⟩,
    ⟨⟨⟨rfl, rfl, rfl⟩, rfl, each0, rfl, each0⟩, rfl, by decide⟩, ⟨rfl, rfl, ⟨⟨rfl, rfl, rfl⟩, rfl, by decide, rfl, each0⟩⟩,
    ⟨⟨⟨rfl, rfl, rfl⟩, rfl, each0, rfl, each0⟩, by decide⟩, ⟨⟨⟨rfl, rfl, rfl⟩, rfl, each0, rfl, each0⟩, by decide⟩,
    ⟨⟨⟨rfl, rfl, rfl⟩, rfl, each0, rfl, each0⟩, by decide, by decide⟩, ⟨⟨⟨rfl, rfl, rfl⟩, rfl, each0, rfl, each0⟩, rfl⟩,
    ⟨⟨rfl, rfl, rfl⟩, rfl, by decide, rfl, each0⟩, ⟨⟨rfl, rfl, rfl⟩, rfl, by decide, rfl, each0⟩⟩

/-- Nothing is exhausted where no point has served anything. -/
theorem not_paused (s : State) (pa : Nat) (h : s.points = []) : paused s 0 pa = false := by
  have h1 : ¬ ceilOf (slicePoint pa) {} 0 ≤ 0 := by
    have : (0xFFFFFFFF : Nat) ≤ ceilOf (slicePoint pa) {} 0 := Nat.le_max_left _ _
    omega
  have h2 : exhausted s (slicePoint pa) 0 = false := by
    simp only [exhausted, State.point, h, tgetD, tget?]
    exact decide_eq_false h1
  simp [paused, h2]

/-- `t0` has ended its quantum at a QEND, with an empty store buffer and with one byte stored at 5:0x10. -/
def tEnd : Thread := { t0 with status := .parked (.boundary (.next 8)), ended := true }
def tSb : Thread := { tEnd with sb := [.plain { index := 5, offset := 0x10 } [0xAB] false] }

set_option maxRecDepth 40000 in
theorem witness_BoundariesClose :
    (scopeThreads s0 7 0 = [e0] ∧ t0.status = .ready ∧ t0.ended = false) ∧
    ((st tEnd).env? 2 = some (en tEnd) ∧ scopeThreads (st tEnd) 7 0 = [en tEnd] ∧ tEnd.accs = [] ∧ ((st tEnd).ctx (en tEnd).cx).kill = none ∧
      scopeLevel (en tEnd).inst < 4 ∧ tEnd.sb = []) ∧
    ((st tSb).env? 2 = some (en tSb) ∧ scopeThreads (st tSb) 7 0 = [en tSb] ∧ tSb.sb = [.plain { index := 5, offset := 0x10 } [0xAB] false] ∧ tSb.items = [] ∧
      access (st tSb) 0 3 { index := 5, offset := 0x10 } 0 1 1 kindWrite =
        ((access (st tSb) 0 3 { index := 5, offset := 0x10 } 0 1 1 kindWrite).1, .ok (hit0 0x10 1)) ∧ (hit0 0x10 1).pas = [0x20010] ∧
      (st tSb).stopped = false ∧ paused (access (st tSb) 0 3 { index := 5, offset := 0x10 } 0 1 1 kindWrite).1
        (classAt (access (st tSb) 0 3 { index := 5, offset := 0x10 } 0 1 1 kindWrite).1 3 (0x20010 / 64)) 0x20010 = false) := by
  refine ⟨⟨rfl, rfl, rfl⟩, ⟨rfl, rfl, rfl, rfl, by decide, rfl⟩, rfl, rfl, rfl, rfl, rfl, rfl, rfl, ?_⟩
  exact not_paused _ _ rfl

/-- The mask of lane 0 in x4:x5. -/
def vMask : SrcVal := clean [1, 0]
def xto (w64 : Bool) : XtO := { h := g7, w64 := w64, dst := .x 12, a := if w64 then wt 6 else wt 0, mask := wt 4 }
/-- CSTR that keeps on p1 true or, with `neg`, false. -/
def cst (neg : Bool) : CstrO := { h := g7, w64 := false, neg := neg, keep := 1, cnt := .x 12, base := wt 2, mask := wt 4, data := wt 0, hint := 0 }

set_option maxRecDepth 40000 in
theorem witness_CrossThreadInstructions :
    (Alone e0 vMask ∧ (predAt t0 1).tok = none ∧ Ready s0 e0 g7 [{ src := wt 4, words := 2 }] [] s0 [vMask] ∧ Lands (.x 12) ∧
      Ready s0 e0 g7 [{ src := wt 4, words := 2 }] [{ reg := .x 12, words := 2 }] s0 [vMask]) ∧
    -- shuffles, with a lane of x1; 64-bit values
    (Ready s0 e0 g7 [{ src := wt 0 }, { src := wt 4, words := 2 }, { src := wt 1 }] [{ reg := .x 12 }] s0 [clean [7], vMask, clean [3]] ∧
      Ready s0 e0 g7 [{ src := wt 6, words := 2 }, { src := wt 4, words := 2 }, { src := wt 1 }] [{ reg := .x 12, words := 2 }] s0 [clean [20, 0], vMask, clean [3]]) ∧
    (Ready s0 e0 g7 [{ src := wt 0 }, { src := wt 4, words := 2 }] [{ reg := .x 12 }] s0 [clean [7], vMask] ∧
      Ready s0 e0 g7 [{ src := wt 6, words := 2 }, { src := wt 4, words := 2 }] [{ reg := .x 12, words := 2 }] s0 [clean [20, 0], vMask] ∧
      Ready s0 e0 g7 [{ src := wt 0 }, { src := wt 4, words := 2 }] [{ reg := .x 12, words := 2 }] s0 [clean [7], vMask]) ∧
    foldOp .add (s0.ctx e0.cx).ftz (foldId .add) 7 = (7, 0) ∧ ((0 : Flags) &&& (s0.ctx e0.cx).fpxe = 0) ∧
    -- CSTR of an element dropped and kept
    (captiveFull t0 = false ∧ (predAt t0 1).val = (cst false).neg ∧ (predAt t0 1).val ≠ (cst true).neg ∧ t0.sb = [] ∧
      Ready s0 e0 g7 [{ src := wt 2, words := 2 }, { src := wt 4, words := 2 }, { src := wt 0 }] [{ reg := .x 12 }] s0 [vBase, vMask, clean [7]] ∧
      Reaches s0 e0 (wordRef vBase.v64) 0 4 kindWrite (access s0 0 3 (wordRef vBase.v64) 0 4 4 kindWrite).1 (hit0 0x10 4)) := by
  refine ⟨⟨⟨rfl, rfl, rfl, rfl⟩, rfl, ⟨enabled0, rfl, by decide, rfl, each0⟩, .inr ⟨_, rfl⟩, ⟨enabled0, rfl, by decide, rfl, each1 rfl⟩⟩,
    ⟨⟨enabled0, rfl, by decide, rfl, each1 rfl⟩, ⟨enabled0, rfl, by decide, rfl, each1 rfl⟩⟩,
    ⟨⟨enabled0, rfl, by decide, rfl, each1 rfl⟩, ⟨enabled0, rfl, by decide, rfl, each1 rfl⟩, ⟨enabled0, rfl, by decide, rfl, each1 rfl⟩⟩, by decide, rfl,
    rfl, rfl, by decide, rfl, ⟨enabled0, rfl, by decide, rfl, each1 rfl⟩, rfl⟩

/-- The thread with a mask of lanes 0 and 3 in x8:x9 and poison in x16, and its mate of lane 3. -/
def tMeet : Thread := let t := thr (rs0 ++ [(8, 9)]); { t with regs := t.regs.set 16 { val := 0x42000002, poison := true } }
def mate3 : Thread := { t0 with tix := 3 }
def sMeet : State := { st tMeet with threads := [(2, tMeet), (3, mate3)] }
/-- The mate has exited. -/
def sGone : State := { st tMeet with threads := [(2, tMeet), (3, { mate3 with status := .exited })] }
def eMeet : Env := en tMeet

set_option maxRecDepth 40000 in
theorem witness_MeetsAwaitAndGivesWrite :
    (Ready sMeet eMeet g7 [{ src := wt 0 }, { src := wt 8, words := 2 }] [{ reg := .x 12 }] sMeet [clean [7], clean [9, 0]] ∧ eMeet.g.rdv = [] ∧
      eMeet.t.reinject = false ∧ (clean [9, 0]).v64.getLsbD (eMeet.t.tix % 64) = true ∧ 3 ≠ eMeet.t.tix % 64 ∧ (clean [9, 0]).v64.getLsbD 3 = true ∧
      (∀ k, k < 64 → (clean [9, 0]).v64.getLsbD k = true → k = eMeet.t.tix % 64 ∨ ∃ i t2, (i, t2) ∈ sMeet.threads ∧ i ≠ eMeet.tid ∧ t2.gid = eMeet.t.gid ∧
        t2.tix / 64 = eMeet.t.tix / 64 ∧ t2.tix % 64 = k ∧ t2.status ≠ .exited) ∧
      (∀ p ∈ sMeet.threads, ∀ q ∈ sMeet.threads, p.2.gid = q.2.gid → p.2.tix = q.2.tix → p = q) ∧ tsorted sMeet.threads = true) ∧
    -- a gift to lane 3: from x0, from the poisoned x16, to a mate that has exited
    (Ready sMeet eMeet g7 [{ src := wt 0 }, { src := wt 1 }] [] sMeet [clean [7], clean [3]] (xRegs (.x 12) 1) ∧
      (sMeet.threads.find? fun p => p.2.gid = eMeet.t.gid && p.2.tix / 64 = eMeet.t.tix / 64 && p.2.tix % 64 = (clean [3]).v32.toNat % 64) = some (3, mate3) ∧
      mate3.status ≠ .exited ∧ ∀ r ∈ xRegs (.x 12) 1, (regAt mate3 r).lent = false ∧ (regAt mate3 r).pend = .no) ∧
    Ready sMeet eMeet g7 [{ src := wt 16 }, { src := wt 1 }] [] sMeet [{ words := [0x42000002], tok := some 0x42000002 }, clean [3]] (xRegs (.x 12) 1) ∧
    (Ready sGone eMeet g7 [{ src := wt 0 }, { src := wt 1 }] [] sGone [clean [7], clean [3]] (xRegs (.x 12) 1) ∧
      (sGone.threads.find? fun p => p.2.gid = eMeet.t.gid && p.2.tix / 64 = eMeet.t.tix / 64 && p.2.tix % 64 = (clean [3]).v32.toNat % 64) =
        some (3, { mate3 with status := .exited })) := by
  refine ⟨⟨⟨⟨rfl, rfl, rfl⟩, rfl, by decide, rfl, each1 rfl⟩, rfl, rfl, by decide, by decide, by decide, ?_, ?_, rfl⟩,
    ⟨⟨⟨rfl, rfl, rfl⟩, rfl, by decide, rfl, each0⟩, rfl, by decide, by decide⟩, ⟨⟨rfl, rfl, rfl⟩, rfl, by decide, rfl, each0⟩,
    ⟨⟨rfl, rfl, rfl⟩, rfl, by decide, rfl, each0⟩, rfl⟩
  · intro k hk hb
    by_cases h : k = 3
    · subst h; exact .inr ⟨3, mate3, by simp [sMeet], by decide, rfl, by decide, rfl, by decide⟩
    · left
      have : ∀ k : Fin 64, (clean [9, 0]).v64.getLsbD k = true → k.val = 3 ∨ k.val = 0 := by decide
      rcases this ⟨k, hk⟩ hb with h3 | h0
      · exact absurd h3 h
      · exact h0
  · intro p hp q hq
    simp [sMeet] at hp hq
    rcases hp with rfl | rfl <;> rcases hq with rfl | rfl <;> simp [tMeet, mate3, t0, thr]

/-- Words 0x44332211 and 0x88776655 in the vault at 0x10; the vault of cluster 1 belongs to nobody. -/
def vlt0 : Vault := { bytes := [(16, 0x11), (17, 0x22), (18, 0x33), (19, 0x44), (20, 0x55), (21, 0x66), (22, 0x77), (23, 0x88)] }
/-- An exchange window on bytes 0 to 63. -/
def win0 : ClusterGroup := { cgrp0 with window := some { off := 0, len := 64, shadowAt := 0x10000 } }
/-- Vault addresses: x8 beyond the mesh, x9 in cluster 1, x10 with bit 23, x11 the last word, x14 one past it, x15 odd. -/
def tVlt : Thread := thr (rs0 ++ [(8, 0xF0000000), (9, 0x10000010), (10, 0x00800010), (11, 0xFFFC), (14, 0xFFFD), (15, 0x11), (18, 64)])
def sVlt (cg : ClusterGroup) : State := { st tVlt with clusters := [(0, { clu0 with vault := vlt0 })], cgroups := [(8, cg)] }
def vo (d : BitVec 18) : VaultO := { h := g7, size := .b32, reg := .x 12, a := wt 2, disp := d }
def vso : VaultO := { vo 0 with reg := .x 0 }
def vao : AtomVO := { h := g7, op := .add, w64 := false, dst := .x 12, a := wt 2, v := wt 0 }
def vh (o : Nat) : VHit := { cl := 0, cgid := 8, o := o, off := o }

theorem noBuoy {t : Thread} {g : CoreGroup} {s : State} (hs : s.threads = [(2, t)]) (hg : t.status = .ready) : NoBuoyWaiter s := by
  intro i e he
  simp only [State.env?, hs, tget?] at he
  split at he
  · cases he
  · rename_i x hx
    split at he
    · cases he
    · split at he
      · cases he
      · cases he
        have : x = t := by
          split at hx
          · injection hx with h; exact h.symm
          · cases hx
        simp [parkedBuoy, this, hg]

theorem sound0 : VaultSound vlt0 where
  healthy g := by
    have : vGrp vlt0 g = {} := by
      simp only [vGrp, vlt0, List.getD_eq_getElem?_getD, List.getElem?_replicate]
      split <;> rfl
    rw [this]; exact ⟨rfl, rfl⟩
  home := rfl
  good := rfl
  unmarked := rfl
  canonical := rfl

theorem reach0 (cg : ClusterGroup) (a : Word) (d : Int) (n o : Nat) (m : VMode) (hc : vaultCheck (sVlt cg) 0 7 a d n n m = .ok (vh o)) (hl : o % 64 + n ≤ 64) :
    VaultReach (sVlt cg) (en tVlt) a d n m (vh o) :=
  ⟨hc, sound0, fun _ _ h => by simp [sVlt, State.vault, State.cluster, vh, tget?, vlt0, tgetD] at h, hl⟩

theorem witness_VaultAccesses :
    (captiveFull tVlt = false ∧ NoBuoyWaiter (sVlt cgrp0)) ∧
    -- LDV, STV and ATOMV at 0x10, LDV of the vault's last word
    (Ready (sVlt cgrp0) (en tVlt) g7 [{ src := wt 2 }] [{ reg := .x 12 }] (sVlt cgrp0) [clean [0x10]] ∧
      VaultReach (sVlt cgrp0) (en tVlt) 0x10 (0 : BitVec 18).toInt 4 .read (vh 0x10)) ∧
    (Ready (sVlt cgrp0) (en tVlt) g7 [{ src := wt 11 }] [{ reg := .x 12 }] (sVlt cgrp0) [clean [0xFFFC]] ∧
      VaultReach (sVlt cgrp0) (en tVlt) 0xFFFC 0 4 .read (vh 0xFFFC)) ∧
    (Ready (sVlt cgrp0) (en tVlt) g7 [{ src := wt 2 }, { src := wt 0 }] [] (sVlt cgrp0) [clean [0x10], clean [7]] ∧
      VaultReach (sVlt cgrp0) (en tVlt) 0x10 (0 : BitVec 18).toInt 4 .write (vh 0x10)) ∧
    (Ready (sVlt cgrp0) (en tVlt) g7 [{ src := wt 2 }, { src := wt 0 }] [{ reg := .x 12 }] (sVlt cgrp0) [clean [0x10], clean [7]] ∧
      VaultReach (sVlt cgrp0) (en tVlt) 0x10 0 4 .write (vh 0x10)) ∧
    -- STX in a window
    (Ready (sVlt win0) (en tVlt) g7 [{ src := wt 2 }, { src := wt 0 }] [] (sVlt win0) [clean [0x10], clean [7]] ∧
      vaultCheck (sVlt win0) 0 7 0x10 (0 : BitVec 18).toInt 4 4 .stx = .ok (vh 0x10) ∧ VaultSound ((sVlt win0).vault 0) ∧
      tget? (sVlt win0).cgroups 8 = some win0 ∧ win0.window = some { off := 0, len := 64, shadowAt := 0x10000, recs := [] }) ∧
    -- addresses: left of the mesh, with bit 23, of a vault without memory of the task, one byte too far, at the end, odd
    (Ready (sVlt cgrp0) (en tVlt) g7 [{ src := wt 8 }] [{ reg := .x 12 }] (sVlt cgrp0) [clean [0xF0000000]] ∧ ((0xF0000000 : Word).extractLsb' 28 4).toInt < 0) ∧
    (Ready (sVlt cgrp0) (en tVlt) g7 [{ src := wt 10 }] [{ reg := .x 12 }] (sVlt cgrp0) [clean [0x00800010]] ∧ (0x00800010 : Word).getLsbD 23 = true) ∧
    (Ready (sVlt cgrp0) (en tVlt) g7 [{ src := wt 9 }] [{ reg := .x 12 }] (sVlt cgrp0) [clean [0x10000010]] ∧ (0x10000010 : Word).getLsbD 23 = false ∧
      ((0x10000010 : Word).extractLsb' 28 4).toInt = 1 ∧ ((0x10000010 : Word).extractLsb' 24 4).toInt = 0 ∧ ∀ p ∈ (sVlt cgrp0).cgroups, ¬ (p.2.iid = 7 ∧ p.2.cluster = 1 ∧ p.2.len ≠ 0)) ∧
    (Ready (sVlt cgrp0) (en tVlt) g7 [{ src := wt 14 }] [{ reg := .x 12 }] (sVlt cgrp0) [clean [0xFFFD]] ∧
      ((sVlt cgrp0).cgroups.find? fun p => p.2.iid = 7 && p.2.cluster = 0 && p.2.len ≠ 0) = some (8, cgrp0) ∧ cgrp0.len < 0xFFFD + 4) ∧
    (Ready (sVlt cgrp0) (en tVlt) g7 [{ src := wt 15 }] [{ reg := .x 12 }] (sVlt cgrp0) [clean [0x11]] ∧ (0x11 : Int) % 4 ≠ 0) := by
  have r (n : Nat) (v : Word) (h1 : readAll (en tVlt) g7 (sVlt cgrp0) [{ src := wt n }] = .ok (sVlt cgrp0, [clean [v]])) (h2 : n < 192)
      (h3 : (regAt tVlt n).readable = true) : Ready (sVlt cgrp0) (en tVlt) g7 [{ src := wt n }] [{ reg := .x 12 }] (sVlt cgrp0) [clean [v]] :=
    ⟨⟨rfl, rfl, rfl⟩, by simp [allocated, Machine.srcRegs, Machine.dstRegs, xRegs, wt, en, grp0, h2],
      each1 (by intro m hm; simp [xRegs, wt] at hm; subst hm; exact h3), h1, each1 rfl⟩
  refine ⟨⟨rfl, noBuoy (g := grp0) rfl rfl⟩, ⟨r 2 _ rfl (by decide) rfl, reach0 _ _ _ _ _ _ rfl (by decide)⟩, ⟨r 11 _ rfl (by decide) rfl, reach0 _ _ _ _ _ _ rfl (by decide)⟩,
    ⟨⟨⟨rfl, rfl, rfl⟩, rfl, by decide, rfl, each0⟩, reach0 _ _ _ _ _ _ rfl (by decide)⟩, ⟨⟨⟨rfl, rfl, rfl⟩, rfl, by decide, rfl, each1 rfl⟩, reach0 _ _ _ _ _ _ rfl (by decide)⟩,
    ⟨⟨⟨rfl, rfl, rfl⟩, rfl, by decide, rfl, each0⟩, rfl, sound0, rfl, rfl⟩, ⟨r 8 _ rfl (by decide) rfl, by decide⟩, ⟨r 10 _ rfl (by decide) rfl, by decide⟩,
    ⟨r 9 _ rfl (by decide) rfl, by decide, by decide, by decide, by decide⟩, ⟨r 14 _ rfl (by decide) rfl, rfl, by decide⟩, ⟨r 15 _ rfl (by decide) rfl, by decide⟩⟩

theorem witness_PresenceBits :
    (Ready (sVlt cgrp0) (en tVlt) g7 [{ src := wt 2 }, { src := wt 18 }] [] (sVlt cgrp0) [clean [0x10], clean [64]] ∧ tVlt.status = .ready ∧
      (clean [64]).v32.toNat = 64 ∧ vLines 0x10 64 = [0, 1] ∧ (∀ l ∈ vLines 0x10 64, vFailed ((sVlt cgrp0).vault 0) l = false) ∧
      decHolds (sVlt cgrp0) 0 (vLines 0x10 64) = []) ∧
    vaultCheck (sVlt cgrp0) 0 7 0x10 0 64 1 .read = .ok (vh 0x10) ∧ vaultCheck (sVlt cgrp0) 0 7 0x10 0 64 1 .write = .ok (vh 0x10) := by
  refine ⟨⟨⟨⟨rfl, rfl, rfl⟩, rfl, by decide, rfl, each0⟩, rfl, rfl, rfl, by decide, rfl⟩, rfl, rfl⟩

/-- The partition's grant is 40 units of 256 KiB; the vault's split is 20, or 32. -/
def ctxG : Ctx := { ctx0 with part := 4 }
def tSplit : Thread := thr (rs0 ++ [(8, 33), (9, 64), (10, 128), (14, 31), (15, 41), (18, 0x40), (20, 0x85), (22, 0x25), (23, 0x200)])
def cgLow : ClusterGroup := { cgrp0 with len := 0x60000 }
def sSplit (n : Nat) (cg : ClusterGroup) : State :=
  { st tSplit with ctxs := [(3, ctxG)], parts := [(4, { grant := 32 })], cgroups := [(8, cg)], clusters := [(0, { clu0 with vault := { vlt0 with split := n } })] }

set_option maxRecDepth 40000 in
theorem witness_SplitAndWindows :
    -- too high by one, and the highest; below what is occupied, at its end, and above the split
    (Ready (sSplit 20 cgLow) (en tSplit) g7 (srcReqs ((OpB.reg (wt 8)).srcs 1)) [] (sSplit 20 cgLow) [clean [33]] ∧ 32 < (clean [33]).v32.toNat) ∧
    (Ready (sSplit 20 cgLow) (en tSplit) g7 (srcReqs ((OpB.imm 32).srcs 1)) [] (sSplit 20 cgLow) [] ∧ (32 : BitVec 18).toNat ≤ 32 ∧
      (32 : BitVec 18).toNat ≤ grantOf (sSplit 20 cgLow) 3 ∧ (32 : BitVec 18).toNat ≤ 4 * ((sSplit 20 cgLow).vault 0).cap ∧ ((sSplit 20 cgLow).vault 0).split < (32 : BitVec 18).toNat) ∧
    (1 < ((sSplit 20 cgLow).vault 0).split ∧ ∃ r ∈ vOccupied (sSplit 20 cgLow) 0, 1 * 2 ^ 18 < r.1 + r.2) ∧
    (2 ≤ ((sSplit 20 cgLow).vault 0).split ∧ ∀ r ∈ vOccupied (sSplit 20 cgLow) 0, r.1 + r.2 ≤ 2 * 2 ^ 18) ∧
    -- windows: the first place, an open one
    (Ready (sSplit 20 cgrp0) (en tSplit) g7 [{ src := wt 9 }, { src := wt 10 }] [] (sSplit 20 cgrp0) [clean [64], clean [128]] ∧
      tget? (sSplit 20 cgrp0).cgroups 8 = some cgrp0 ∧ 64 + 128 ≤ cgrp0.len ∧ meetsRing cgrp0 64 128 = false ∧ cgrp0.window = none ∧
      vPlace (sSplit 20 cgrp0) 0 128 64 (min ((sSplit 20 cgrp0).vault 0).split (grantOf (sSplit 20 cgrp0) 3) * 2 ^ 18) = some 0x10000) ∧
    (Ready (sSplit 20 win0) (en tSplit) g7 [{ src := wt 9 }, { src := wt 10 }] [] (sSplit 20 win0) [clean [64], clean [128]] ∧ win0.window.isSome) ∧
    Enabled (sSplit 20 win0) (en tSplit) g7 := by
  refine ⟨⟨⟨⟨rfl, rfl, rfl⟩, rfl, by decide, rfl, each0⟩, by decide⟩, ⟨⟨⟨rfl, rfl, rfl⟩, rfl, by decide, rfl, each0⟩, by decide, by decide, by decide, by decide⟩,
    ⟨by decide, (0, 0x60000), by decide, by decide⟩, ⟨by decide, by decide⟩, ⟨⟨⟨rfl, rfl, rfl⟩, rfl, by decide, rfl, each0⟩, rfl, by decide, rfl, rfl, by decide +kernel⟩,
    ⟨⟨⟨rfl, rfl, rfl⟩, rfl, by decide, rfl, each0⟩, rfl⟩, rfl, rfl, rfl⟩

/-- Ring 0 at 0x100: two slots of two words; port 0 is bound to it. -/
def ringA : Ring := { num := 0, base := 0x100, lg := 1, ssz := 1 }
def cgRing : ClusterGroup := { cgrp0 with rings := [ringA] }
def sRings : State := { sSplit 20 cgRing with groups := [(9, { grp0 with ports := { binding := .ring 8 0 } :: List.replicate 15 {} })] }
def eRings : Env := { en tSplit with g := { grp0 with ports := { binding := .ring 8 0 } :: List.replicate 15 {} } }
/-- A Buoy that counts 1, at 0x40. -/
def sBuoy : State := { sSplit 20 cgrp0 with clusters := [(0, { clu0 with vault := { vlt0 with bytes := vlt0.bytes ++ [(0x40, 1)] } })] }

theorem sound1 (v : Vault) (hg : v.groups = List.replicate 8 {}) (h1 : v.remapped = none) (h2 : v.bad = []) (h3 : v.marks = []) (h4 : Memory.wf v.bytes = true) : VaultSound v where
  healthy g := by
    have : vGrp v g = {} := by
      simp only [vGrp, hg, List.getD_eq_getElem?_getD, List.getElem?_replicate]
      split <;> rfl
    rw [this]; exact ⟨rfl, rfl⟩
  home := h1
  good := h2
  unmarked := h3
  canonical := h4

set_option maxRecDepth 40000 in
theorem witness_RingsAndBuoys :
    -- ring 1 at 0x200, of one-word slots 2^5
    (Ready sRings eRings g7 [{ src := wt 23 }, { src := wt 22 }] [{ reg := .x 12 }] sRings [clean [0x200], clean [0x25]] ∧ tget? sRings.cgroups 8 = some cgRing ∧
      tSplit.status = .ready ∧ 0x25 % 32 = 5 ∧ 0x25 / 32 = 1 ∧ 0x200 + ringBytes { num := 1, base := 0x200, lg := 5, ssz := 1 } ≤ cgRing.len ∧
      meetsRing cgRing 0x200 (ringBytes { num := 1, base := 0x200, lg := 5, ssz := 1 }) = false ∧ cgRing.window = none ∧ NoBuoyWaiter sRings ∧
      VaultSound (sRings.vault 0) ∧ cgRing.base % 64 = 0 ∧ (sRings.cgroups.filter fun p => p.2.cluster = 0).foldl (fun k p => k + p.2.rings.length) 0 < 32 ∧
      (∀ q ∈ cgRing.rings, q.num ≠ 1) ∧ ∀ k, k < 1 → ∃ q ∈ cgRing.rings, q.num = k) ∧
    (Ready sRings eRings g7 [{ src := wt 5 }] [] sRings [clean [0]] ∧ (cgRing.rings.find? fun q => q.num = (clean [0]).v32.toNat) = some ringA ∧ ringA.reserved = [] ∧ ringA.opens = []) ∧
    (Ready sRings eRings g7 [{ src := wt 4 }] [] sRings [clean [1]] ∧ ∀ q ∈ cgRing.rings, q.num ≠ (clean [1]).v32.toNat) ∧
    -- Buoys at 0x40: armed from a pair and at once; one at zero (0x80) and one at 1
    (NoBuoyWaiter sBuoy ∧ Ready sBuoy (en tSplit) g7 ({ src := wt 9 } :: srcReqs ((OpB.reg (wt 0)).srcs 2)) [] sBuoy [clean [64], clean [7, 3]] ∧
      Ready sBuoy (en tSplit) g7 ({ src := wt 9 } :: srcReqs ((OpB.imm 5).srcs 2)) [] sBuoy [clean [64]] ∧
      VaultReach sBuoy (en tSplit) 64 0 8 .write (vh 64)) ∧
    (Ready sBuoy (en tSplit) g7 [{ src := wt 9 }] [{ reg := .x 12, words := 2 }] sBuoy [clean [64]] ∧ VaultReach sBuoy (en tSplit) 64 0 8 .read (vh 64) ∧
      leNat (vaultBytes sBuoy 0 64 8) % 2 ^ 62 ≠ 0) ∧
    (Ready sBuoy (en tSplit) g7 [{ src := wt 10 }] [{ reg := .x 12, words := 2 }] sBuoy [clean [128]] ∧ VaultReach sBuoy (en tSplit) 128 0 8 .read (vh 128) ∧
      leNat (vaultBytes sBuoy 0 128 8) % 2 ^ 62 = 0) := by
  have nb (s : State) (hs : s.threads = [(2, tSplit)]) : NoBuoyWaiter s := noBuoy (g := grp0) hs rfl
  have vb : VaultSound (sBuoy.vault 0) := sound1 _ rfl rfl rfl rfl rfl
  have vr (o : Nat) (m : VMode) (a : Word) (hc : vaultCheck sBuoy 0 7 a 0 8 8 m = .ok (vh o)) (hl : o % 64 + 8 ≤ 64) : VaultReach sBuoy (en tSplit) a 0 8 m (vh o) :=
    ⟨hc, vb, fun _ _ h => by simp [sBuoy, State.vault, State.cluster, vh, tget?, vlt0, tgetD] at h, hl⟩
  refine ⟨⟨⟨⟨rfl, rfl, rfl⟩, rfl, by decide, rfl, each1 rfl⟩, rfl, rfl, by decide, by decide, by decide, rfl, rfl, nb _ rfl, sound1 _ rfl rfl rfl rfl rfl, rfl, by decide, by decide, ?_⟩,
    ⟨⟨⟨rfl, rfl, rfl⟩, rfl, by decide, rfl, each0⟩, rfl, rfl, rfl⟩, ⟨⟨⟨rfl, rfl, rfl⟩, rfl, by decide, rfl, each0⟩, by decide⟩,
    ⟨nb _ rfl, ⟨⟨rfl, rfl, rfl⟩, rfl, by decide, rfl, each0⟩, ⟨⟨rfl, rfl, rfl⟩, rfl, by decide, rfl, each0⟩, vr _ _ _ rfl (by decide)⟩,
    ⟨⟨⟨rfl, rfl, rfl⟩, rfl, by decide, rfl, each1 rfl⟩, vr _ _ _ rfl (by decide), by decide⟩, ⟨⟨⟨rfl, rfl, rfl⟩, rfl, by decide, rfl, each1 rfl⟩, vr _ _ _ rfl (by decide), by decide⟩⟩
  intro k hk
  exact ⟨ringA, by simp [cgRing], by simp [ringA]; omega⟩

/-- A second thread of the core group. -/
def sTwo : State := { s0 with threads := [(2, t0), (3, { t0 with tix := 1 })] }

set_option maxRecDepth 40000 in
theorem witness_TagsConstantsAndRegisterCounts :
    (Ready s0 e0 g7 [] [{ reg := .x 12, words := 2 }] s0 [] ∧ Ready s0 e0 g7 [] [{ reg := .x 12 }] s0 [] ∧ 12 + 1 < t0.regs.length) ∧
    (30 + 1 < e0.g.k.length ∧ Enabled s0 e0 g7 ∧ Ready s0 e0 g7 [{ src := wt 0 }] [] s0 [clean [7]] ∧ Ready s0 e0 g7 [{ src := wt 0, words := 2 }] [] s0 [clean [7, 3]] ∧
      Ready (st tMiss) (en tMiss) g7 [{ src := wt 14 }] [] (st tMiss) [{ words := [0x41000001], tok := some 0x41000001 }]) ∧
    -- REGS: with another live thread, and alone, to 192 and to 5 registers
    (Enabled sTwo e0 g7 ∧ e0.g.regsRdv = [] ∧ e0.g.growing = none ∧ ∃ p ∈ sTwo.liveOf 9, p.1 ≠ 2) ∧
    (Enabled s0 e0 g7 ∧ (∀ p ∈ s0.threads, p.2.gid = 9 → p.1 = 2) ∧ tsorted s0.threads = true ∧ t0.status = .ready ∧ (192 : BitVec 18).toNat ≤ e0.g.nregs ∧
      (5 : BitVec 18).toNat ≤ e0.g.nregs ∧ e0.g.nregs ≤ 192 ∧ e0.inst.tsz ≤ 1024 ∧ ∀ c ∈ t0.regs.drop 5, c.pend = .no ∧ c.lent = false) := by
  refine ⟨⟨⟨enabled0, rfl, each0, rfl, each1 rfl⟩, ⟨enabled0, rfl, each0, rfl, each1 rfl⟩, by decide⟩,
    ⟨by decide, enabled0, ⟨enabled0, rfl, by decide, rfl, each0⟩, ⟨enabled0, rfl, by decide, rfl, each0⟩, ⟨⟨rfl, rfl, rfl⟩, rfl, by decide, rfl, each0⟩⟩,
    ⟨⟨rfl, rfl, rfl⟩, rfl, rfl, (3, { t0 with tix := 1 }), by simp [sTwo, State.liveOf, t0, thr], by decide⟩,
    ⟨enabled0, by simp [s0, st], rfl, rfl, by decide, by decide, by decide, by decide, by decide⟩⟩

/-- Descriptors of R129: x8 ring 0, x9 jobs, x10 a ring there is not, x14 with reserved bits, x5 unbound. Port 0 is bound to ring 0, port 1 to
jobs. -/
def tPort : Thread := thr (rs0 ++ [(8, 0x40000000), (9, 0xC0000000), (10, 0x40000001), (14, 0x01000000)])
def gPort : CoreGroup := { grp0 with ports := { binding := .ring 8 0 } :: { binding := .jobs } :: List.replicate 14 {} }
def sPort : State := { sSplit 20 cgRing with threads := [(2, tPort)], groups := [(9, gPort)] }
def ePort : Env := { en tPort with g := gPort }

set_option maxRecDepth 40000 in
theorem witness_Ports :
    (0 < ePort.g.ports.length ∧ portHeld sPort gPort 9 0 = false ∧ portHeld sPort gPort 9 2 = false) ∧
    (Ready sPort ePort g7 [{ src := wt 5 }] [] sPort [clean [0]] ∧ Ready sPort ePort g7 [{ src := wt 9 }] [] sPort [clean [0xC0000000]] ∧
      (0xC0000000 : Word).extractLsb' 24 6 = 0 ∧ (0xC0000000 : Word).extractLsb' 30 2 = 3 ∧ (0xC0000000 : Word).extractLsb' 0 24 = 0) ∧
    (Ready sPort ePort g7 [{ src := wt 8 }] [] sPort [clean [0x40000000]] ∧ (0x40000000 : Word).extractLsb' 30 2 = 1 ∧ (findRing sPort 8 0).isSome) ∧
    (Ready sPort ePort g7 [{ src := wt 14 }] [] sPort [clean [0x01000000]] ∧ (0x01000000 : Word).extractLsb' 24 6 ≠ 0) ∧
    (Ready sPort ePort g7 [{ src := wt 10 }] [] sPort [clean [0x40000001]] ∧ findRing sPort 8 ((0x40000001 : Word).extractLsb' 0 24).toNat = none) ∧
    (Ready sPort ePort g7 [] [{ reg := .x 12, words := 2 }] sPort [] ∧ (gPort.ports.getD 2 {}).binding = .unbound ∧ (gPort.ports.getD 0 {}).binding = .ring 8 0 ∧
      (gPort.ports.getD 1 {}).binding = .jobs ∧ findRing sPort 8 0 = some (cgRing, ringA) ∧ ringA.ssz < 4 ∧ ringA.discarded < 2 ^ 26 ∧ freeSlots ringA < 2 ^ 16 ∧
      (readySlots ringA).length < 2 ^ 16 ∧ ringA.closed = false ∧ ringA.opens = []) := by
  refine ⟨⟨by decide, rfl, rfl⟩, ⟨⟨⟨rfl, rfl, rfl⟩, rfl, by decide, rfl, each0⟩, ⟨⟨rfl, rfl, rfl⟩, rfl, by decide, rfl, each0⟩, by decide, by decide, by decide⟩,
    ⟨⟨⟨rfl, rfl, rfl⟩, rfl, by decide, rfl, each0⟩, by decide, rfl⟩, ⟨⟨⟨rfl, rfl, rfl⟩, rfl, by decide, rfl, each0⟩, by decide⟩,
    ⟨⟨⟨rfl, rfl, rfl⟩, rfl, by decide, rfl, each0⟩, by decide⟩, ⟨⟨rfl, rfl, rfl⟩, rfl, each0, rfl, each1 rfl⟩, rfl, rfl, rfl, rfl, by decide, by decide, by decide, by decide, rfl, rfl⟩

/-- A frame with one captured load; a context whose counts of stack 2 are armed. -/
def tFrame : Thread := { thr (rs0 ++ [(8, 128), (9, 127), (10, 32), (11, 31), (14, 2), (15, 0), (18, 1), (20, 0x37FF), (21, 0)]) with
  handler := true, tfrqn := 1, replay := [.acc (acc0 noOwn)] }
def sArmed : State := { st tFrame with ctxs := [(3, { ctx0 with pcsel := 0x205, armed := some (2, 0), counts := [(5, 99)] })] }

set_option maxRecDepth 40000 in
theorem witness_SystemRegisters :
    (Ready (st tFrame) (en tFrame) g7 [] [{ reg := .x 12 }] (st tFrame) [] ∧ Ready (st tFrame) (en tFrame) g7 [] [{ reg := .x 12, words := 2 }] (st tFrame) [] ∧
      tFrame.tfrqn.toNat ≤ 1 ∧ 0 < tFrame.tfrqn.toNat ∧ tFrame.replay[0]? = some (.acc (acc0 noOwn)) ∧ ((st tFrame).ctx 3).armed = none) ∧
    (Ready sArmed (en tFrame) g7 [] [{ reg := .x 12 }] sArmed [] ∧ (sArmed.ctx 3).armed = some (2, 0)) ∧
    -- writes: one word and two, at and beyond the greatest values; a poisoned word
    (Ready (st tFrame) (en tFrame) g7 [{ src := wt 8 }] [] (st tFrame) [clean [128]] ∧ sysWords 0x000 = 1 ∧ (2 : Nat) ^ 7 ≤ (clean [128]).nat 1) ∧
    (Ready (st tFrame) (en tFrame) g7 [{ src := wt 9 }] [] (st tFrame) [clean [127]] ∧ (clean [127]).nat 1 < 2 ^ 7) ∧
    (Ready (st tFrame) (en tFrame) g7 [{ src := wt 10 }] [] (st tFrame) [clean [32]] ∧ sysWords 0x001 = 1 ∧ (2 : Nat) ^ 5 ≤ (clean [32]).nat 1) ∧
    (Ready (st tFrame) (en tFrame) g7 [{ src := wt 11 }] [] (st tFrame) [clean [31]] ∧ (clean [31]).nat 1 < 2 ^ 5) ∧
    (Ready (st tFrame) (en tFrame) g7 [{ src := wt 14, words := 2 }] [] (st tFrame) [clean [2, 0]] ∧ sysWords 0x002 = 2 ∧ ((clean [2, 0]).nat 2).testBit 1 = true ∧
      sysWords 0x012 = 2 ∧ (clean [2, 0]).nat 2 % 4 ≠ 0) ∧
    (Ready (st tFrame) (en tFrame) g7 [{ src := wt 8, words := 2 }] [] (st tFrame) [clean [128, 127]] ∧ ((clean [128, 127]).nat 2).testBit 1 = false ∧
      (clean [128, 127]).nat 2 % 4 = 0 ∧ sysWords 0x015 = 2 ∧ sysWords 0x016 = 2 ∧ sysWords 0x020 = 1 ∧ sysWords 0x100 = 1) ∧
    (Ready (st tFrame) (en tFrame) g7 [{ src := wt 20 }] [] (st tFrame) [clean [0x37FF]] ∧ (clean [0x37FF]).nat 1 < 2 ^ 14 ∧ ((clean [0x37FF]).nat 1).testBit 11 = false) ∧
    Ready (st tMiss) (en tMiss) g7 [{ src := wt 14 }] [] (st tMiss) [{ words := [0x41000001], tok := some 0x41000001 }] := by
  have r1 (n : Nat) (v : Word) (h1 : readAll (en tFrame) g7 (st tFrame) [{ src := wt n }] = .ok (st tFrame, [clean [v]])) (h2 : n < 192)
      (h3 : (regAt tFrame n).readable = true) : Ready (st tFrame) (en tFrame) g7 [{ src := wt n }] [] (st tFrame) [clean [v]] :=
    ⟨⟨rfl, rfl, rfl⟩, by simp [allocated, Machine.srcRegs, Machine.dstRegs, xRegs, wt, en, grp0, h2],
      each1 (by intro m hm; simp [xRegs, wt] at hm; subst hm; exact h3), h1, each0⟩
  refine ⟨⟨⟨⟨rfl, rfl, rfl⟩, rfl, each0, rfl, each1 rfl⟩, ⟨⟨rfl, rfl, rfl⟩, rfl, each0, rfl, each1 rfl⟩, by decide, by decide, rfl, rfl⟩,
    ⟨⟨⟨rfl, rfl, rfl⟩, rfl, each0, rfl, each1 rfl⟩, rfl⟩, ⟨r1 8 _ rfl (by decide) rfl, rfl, by decide⟩, ⟨r1 9 _ rfl (by decide) rfl, by decide⟩,
    ⟨r1 10 _ rfl (by decide) rfl, rfl, by decide⟩, ⟨r1 11 _ rfl (by decide) rfl, by decide⟩,
    ⟨⟨⟨rfl, rfl, rfl⟩, rfl, by decide, rfl, each0⟩, rfl, by decide, rfl, by decide⟩,
    ⟨⟨⟨rfl, rfl, rfl⟩, rfl, by decide, rfl, each0⟩, by decide, by decide, rfl, rfl, rfl, rfl⟩, ⟨r1 20 _ rfl (by decide) rfl, by decide, by decide⟩,
    ⟨⟨rfl, rfl, rfl⟩, rfl, by decide, rfl, each0⟩⟩

/-- A request block (R264): 64 bytes from the vault at 0x2000 to 0x1000, Buoy 0x80, presence cleared or not; `rows` rows. -/
def blkN (pc : Bool) (rows : Nat) : Nat :=
  0x2000 + 0x1000 * 2 ^ 64 + 64 * 2 ^ 128 + 0x80 * 2 ^ 224 + rows * 2 ^ 256 + 3 * (2 ^ 136 * 2 ^ 136) + (if pc then 2 ^ 138 * 2 ^ 138 else 0)
/-- The block at 0x40 of the vault, with its status word set. -/
def sXc (pc : Bool) (rows : Nat) : State :=
  { st tSplit with clusters := [(0, { clu0 with vault := { bytes := memWrites [] (cellsAt 0x40 (leBytes 64 (blkN pc rows + 0x55 * 2 ^ 240 * 2 ^ 240))) } })] }
def blk (pc : Bool) (rows : Nat) : ReqBlock :=
  { strm := 0, slot := 0, ctr := 0, fg := false, pc := pc, zf := false, dec := false, dv := true, sv := true, rows := rows, buoy := 0x80, dpitch := 0
    spitch := 0, len := 64, dst := 0x1000, src := 0x2000, rsv := false }

/-- A TDI in RUN with a stream of 0x3000 to 0x3FFF, and no key-wrap key. -/
def tdi5 : Tdi := { st := .run, stream := true, ranges := [(0x3000, 0x4000)] }
/-- A bound slot. -/
def slotK : KeySlot :=
  { ctx := 3, tdi := 5, key := 0x404142434445464748494a4b4c4d4e4f505152535455565758595a5b5c5d5e5f, ids := (List.range 16).map fun i => BitVec.ofNat 32 (0x10 + i)
    ctrs := List.replicate 16 none }
/-- Virtual page 0x11 lies in host memory at 0x3000; slot 1 is another context's, slot 2 this one's. x10:x11 = 5:0x1000. -/
def tKey : Thread := { thr (rs0 ++ [(8, 63), (9, 64), (10, 0x1000), (11, 0x500), (14, 2)]) with handler := true }
def sKey : State :=
  { st tKey with
    ctxs := [(3, { ctx0 with tdi := 5 })], tdis := [(5, tdi5)], slots := [(1, { slotK with ctx := 4 }), (2, slotK)]
    clusters := [(0, { clu0 with tlb := [tlb0, { tlb0 with vpage := 0x11, ipage := 0x31, ppage := (2 ^ 51 + 0x3000) / 4096 }] })]
    mem := [(2 ^ 51 + 0x3068, 5)] }
def hitKey : Hit := { pas := (List.range 128).map (2 ^ 51 + 0x3000 + ·), masks := defaultMasks, va := 0x11000 }

set_option maxRecDepth 40000 in
theorem witness_CopiesAccepted :
    -- a legal block, with and without PC; a malformed one of no rows
    (∀ p ∈ [(true, 1), (false, 1), (true, 0)], let s := sXc p.1 p.2
      Ready s (en tSplit) g7 [{ src := wt 9 }] [] s [clean [64]] ∧ NoBuoyWaiter s ∧ VaultReach s (en tSplit) 64 (0 : BitVec 32).toInt 64 .read (vh 64) ∧
      readBlock (vaultBytes s 0 64 64) = blk p.1 p.2 ∧ vaultCheck s 0 7 0x80 0 8 8 .write = .ok (vh 0x80) ∧
      vaultCheck s 0 7 (movedAddr 64 64) 60 4 4 .write = .ok (vh 124) ∧ VaultSound (s.vault 0) ∧ ((s.cluster 0).copies.filter fun c => !c.started).length < 64) ∧
    (badShape (blk true 1) = false ∧ badShape (blk false 1) = false ∧ badShape (blk true 0) = true) ∧
    -- a poisoned address, and one that is not aligned
    Ready (st tMiss) (en tMiss) g7 [{ src := wt 14 }] [] (st tMiss) [{ words := [0x41000001], tok := some 0x41000001 }] ∧
    (Ready (sXc true 1) (en tSplit) g7 [{ src := wt 8 }] [] (sXc true 1) [clean [33]] ∧
      vaultCheck (sXc true 1) 0 7 (clean [33]).v32 (0 : BitVec 32).toInt 64 64 .read = .error 0x05) := by
  refine ⟨?_, ⟨rfl, rfl, rfl⟩, ⟨⟨rfl, rfl, rfl⟩, rfl, by decide, rfl, each0⟩, ⟨⟨rfl, rfl, rfl⟩, rfl, by decide, rfl, each0⟩, rfl⟩
  intro p hp
  simp only [List.mem_cons, List.not_mem_nil, or_false] at hp
  have vb (p : Bool × Nat) (hw : Memory.wf ((sXc p.1 p.2).vault 0).bytes = true) : VaultSound ((sXc p.1 p.2).vault 0) := sound1 _ rfl rfl rfl rfl hw
  rcases hp with rfl | rfl | rfl <;>
    exact ⟨⟨⟨rfl, rfl, rfl⟩, rfl, by decide, rfl, each0⟩, noBuoy (g := grp0) rfl rfl, ⟨rfl, vb _ (by decide +kernel), fun _ _ h => by simp [sXc, State.vault, State.cluster, vh, tget?, tgetD] at h, by decide⟩,
      by decide +kernel, rfl, rfl, vb _ (by decide +kernel), by decide⟩

set_option maxRecDepth 40000 in
theorem witness_KeySlots :
    -- slot 64, an empty slot (63), another context's (1), this one's without copies (2)
    (Ready sKey (en tKey) g7 [{ src := wt 9 }] [{ reg := .x 12 }] sKey [clean [64]] ∧ Ready sKey (en tKey) g7 [{ src := wt 8 }] [{ reg := .x 12 }] sKey [clean [63]] ∧
      Ready sKey (en tKey) g7 [{ src := wt 4 }] [{ reg := .x 12 }] sKey [clean [1]] ∧ Ready sKey (en tKey) g7 [{ src := wt 14 }] [{ reg := .x 12 }] sKey [clean [2]] ∧
      tget? sKey.slots 63 = none ∧ tget? sKey.slots 1 = some { slotK with ctx := 4 } ∧ tget? sKey.slots 2 = some slotK ∧ slotInFlight sKey 2 = false) ∧
    -- records: outside the stream's range, and one whose TDI has no key
    (Ready sKey (en tKey) g7 [base2, { src := wt 8 }] [{ reg := .x 12 }] sKey [vBase, clean [63]] ∧
      access sKey 0 3 (wordRef vBase.v64) (0 : BitVec 32).toInt 128 16 kindRead = ((access sKey 0 3 (wordRef vBase.v64) 0 128 16 kindRead).1, .ok (hit0 0x10 128)) ∧
      streamReaches sKey 3 (hit0 0x10 128).pas = false) ∧
    (Ready sKey (en tKey) g7 [{ src := wt 10, words := 2 }, { src := wt 8 }] [{ reg := .x 12 }] sKey [clean [0x1000, 0x500], clean [63]] ∧
      access sKey 0 3 (wordRef (clean [0x1000, 0x500]).v64) (0 : BitVec 32).toInt 128 16 kindRead =
        ((access sKey 0 3 (wordRef (clean [0x1000, 0x500]).v64) 0 128 16 kindRead).1, .ok hitKey) ∧
      keyRecord sKey 3 hitKey (hitKey.pas.map (sKey.loadByte (.group 9 0))) = (3, none)) := by
  refine ⟨⟨⟨⟨rfl, rfl, rfl⟩, rfl, by decide, rfl, each1 rfl⟩, ⟨⟨rfl, rfl, rfl⟩, rfl, by decide, rfl, each1 rfl⟩, ⟨⟨rfl, rfl, rfl⟩, rfl, by decide, rfl, each1 rfl⟩,
      ⟨⟨rfl, rfl, rfl⟩, rfl, by decide, rfl, each1 rfl⟩, rfl, rfl, rfl, rfl⟩, ⟨⟨⟨rfl, rfl, rfl⟩, rfl, by decide, rfl, each1 rfl⟩, rfl, rfl⟩,
    ⟨⟨rfl, rfl, rfl⟩, rfl, by decide, rfl, each1 rfl⟩, rfl, rfl⟩

/-- Operands at hand, none of them a port. -/
def readyB (s : State) (e : Env) (h : Head) (srcs : List SrcReq) (dsts : List DstReq) : Bool :=
  (predAt e.t h.pg).tok.isNone && (guardVal e.t h && (allocated e (srcRegs srcs ++ dstRegs dsts) &&
    (srcs.all (fun q => (xRegs q.src.reg q.words).all fun n => (regAt e.t n).readable) &&
      (srcs.all (fun q => !Reg.isQ q.src.reg) && dsts.all fun d => (dstWait s e d).isNone))))

theorem readyB_sound {s : State} {e : Env} {h : Head} {srcs : List SrcReq} {dsts : List DstReq} (he : s.env? s.cur = some e) (hb : readyB s e h srcs dsts = true) :
    Ready s e h srcs dsts s (srcs.map (readSrc s e)) := by
  simp only [readyB, Bool.and_eq_true, List.all_eq_true, Option.isNone_iff_eq_none, Bool.not_eq_true'] at hb
  obtain ⟨h1, h2, h3, h4, h5, h6⟩ := hb
  exact ⟨⟨he, h1, h2⟩, by simpa using h3, h4, readAll_noPort e h s srcs h5, h6⟩

/-- A card of one thread, level and scope 1, at 5:0x40. -/
def cardN : Nat := 0x10000001000 * (2 ^ 224 * 2 ^ 224) + 3 * 2 ^ 156 + 2 ^ 133 + 2 ^ 130
def cardRead : Card :=
  { entry := 0x10000001000, arg := 0, crec := 0, cadd := 0, cval := 0, parent := 0, thr := 0, ncg := 0, nkl := 0, nby := 0, ndi := 0
    regs := 3, vlt := 0, nbar := 0, lvl := 1, scope := 1, pcls := 0, kind := 0, cr := false, ca := false, nv := false, rsv := 0 }
def tPost : Thread := thr (rs0 ++ [(10, 0x40), (11, 0x500)])
def sPost : State := { st tPost with mem := memWrites [] (cellsAt 0x20040 (leBytes 64 cardN)) }
def accPost : State := (access sPost 0 3 (wordRef (clean [0x40, 0x500]).v64) 0 64 64 kindRead).1

set_option maxRecDepth 40000 in
theorem witness_PostedCards :
    (Ready sPost (en tPost) g7 [{ src := wt 10, words := 2 }] [{ reg := .x 12 }] sPost [clean [0x40, 0x500]] ∧ tPost.status = .ready ∧ tPost.items = [] ∧ tPost.sb = [] ∧
      access sPost 0 3 (wordRef (clean [0x40, 0x500]).v64) (0 : BitVec 32).toInt 64 64 kindRead = (accPost, .ok (hit0 0x40 64)) ∧
      (hit0 0x40 64).pas.head? = some 0x20040 ∧ 0x20040 % 64 = 0 ∧ Readable accPost (.group 9 0) 0x20040 ∧
      readCard (BitVec.ofNat 512 (accPost.viewNat (.group 9 0) 0x20040 64)) = cardRead ∧ (accPost.ctx 3).state ≠ .saved ∧ accPost.cards = []) ∧
    (∀ q ∈ [(PostTarget.core, QKey.core 0, false), (.clu, .clu 0, false), (.bay, .bay 0, false), (.die, .die 0, false), (.dev, .die 0, true)],
      hopFault accPost (en tPost) q.1 = none ∧ targetQueue 0 q.1 = q.2 ∧ checkCard cardRead q.2.1 q.2.2 = none ∧ queueLen accPost q.2.1 < queueCap q.2.1) := by
  refine ⟨⟨⟨⟨rfl, rfl, rfl⟩, rfl, by decide, rfl, each1 rfl⟩, rfl, rfl, rfl, rfl, rfl, rfl, ⟨rfl, ⟨_, rfl, rfl⟩, rfl, rfl⟩, by decide +kernel, by decide, rfl⟩, ?_⟩
  intro q hq
  simp only [List.mem_cons, List.not_mem_nil, or_false] at hq
  rcases hq with rfl | rfl | rfl | rfl | rfl <;> exact ⟨rfl, rfl, by decide +kernel, by decide⟩

/-- Descriptors of R288 in x0:x1 with a row pitch of 256 bytes; the address of the scales at 0x4000 and 0x8000 in x2, x3. -/
def tMma : Thread := thr [(0, 0x200000), (2, 0x4000), (3, 0x8000)]
/-- Convergence register 5 has the first of 32 signatures. -/
def sig0 : Signature := { tid := 77, tix := 4, u := none, enc := [], uniform := [], afrag := [], bfrag := [], cfrag := [], cdst := none, lent := [] }
def grpMma : CoreGroup := { grp0 with cvs := (List.replicate 16 {}).set 5 { target := 32, sigs := [sig0] } }
def sMma (g : CoreGroup) : State := { st tMma with groups := [(9, g)] }
def eMma (g : CoreGroup) : Env := { en tMma with g := g }
def mmaX : MmaO :=
  { h := g7, cv := 5, bty := 0, scale := 0, aVault := false, bVault := false, cVault := false, c := .x 128, a := wt 16, b := wt 64, sc := none, acc := true, steps := 0, size := 31 }
/-- Everything in the vault, and scaled. -/
def mmaV : MmaO := { mmaX with aVault := true, bVault := true, cVault := true, c := .x 0, a := wt 0, b := wt 0, size := 0 }
def mmaS : MmaO := { mmaV with scale := 2, sc := some (wt 2) }
def mmaI (o : MmaO) : List Instr :=
  [.mmaF64 o, .mmaF32 o, .mmaBf16 o, .mmaF16 o, .mmaE4m3 o, .mmaE5m2 o, .mmaE3m2 o, .mmaE2m3 o, .mmaE2m1 o, .mmaI8 o, .mmaI4 o]
/-- A convergence register with no open set. -/
def cv0 : Cv := { target := 0 }
/-- The hypotheses of a signature. -/
def signs (g : CoreGroup) (i : Instr) : Bool :=
  match mmaOf i with
  | none => false
  | some (aty, o) =>
    let vals := (mmaSrcs aty o).map (readSrc (sMma g) (eMma g))
    readyB (sMma g) (eMma g) o.h (mmaSrcs aty o) (mmaDsts aty o) && (vals.all (fun v => v.tok.isNone) &&
      mmaChecks (sMma g) (eMma g) o aty (mmaB aty o) (vals.headD default).v64 (vals.getD 1 default).v64 (vals.getD (if o.sc.isSome then 3 else 2) default).v64
        (match o.sc with
          | some x => uniformCells (eMma g) x.reg (vals.getD 2 default) (if o.scale = 3 then 16 else 2)
          | none => []) = none)

theorem signs_sound {g : CoreGroup} {i : Instr} (he : (sMma g).env? 2 = some (eMma g)) (h : signs g i = true) : ∃ aty o vals, mmaOf i = some (aty, o) ∧
    Ready (sMma g) (eMma g) o.h (mmaSrcs aty o) (mmaDsts aty o) (sMma g) vals ∧ Unpoisoned vals ∧ MmaPasses (sMma g) (eMma g) aty o vals := by
  unfold signs at h
  split at h
  · cases h
  · rename_i aty o ha
    simp only [Bool.and_eq_true, List.all_eq_true, Option.isNone_iff_eq_none, decide_eq_true_eq] at h
    exact ⟨aty, o, _, ha, readyB_sound he h.1, h.2.1, h.2.2⟩

theorem witness_MmaSigners :
    -- a set of 32 begins and goes on, from registers; a set of one, in the vault, with scales
    (∀ p ∈ (mmaI mmaX ++ [Instr.mmaF64 mmaV, .mmaF16 mmaV, .mmaI8 mmaV, .mmaE4m3 mmaS]).map (grp0, ·) ++ [(grpMma, Instr.mmaF16 mmaX)], ∃ aty o vals, mmaOf p.2 = some (aty, o) ∧
      Ready (sMma p.1) (eMma p.1) o.h (mmaSrcs aty o) (mmaDsts aty o) (sMma p.1) vals ∧ Unpoisoned vals ∧ MmaPasses (sMma p.1) (eMma p.1) aty o vals) ∧
    tMma.regs.length = grp0.nregs ∧ grp0.cvs[5]? = some cv0 ∧ cv0.sigs.length + 1 < (31 : BitVec 5).toNat + 1 ∧
    grpMma.cvs[5]? = some { target := 32, sigs := [sig0] } ∧ (∀ x ∈ [sig0], x.tid ≠ 2) ∧ [sig0].length + 1 < 32 ∧
    (∀ c ∈ grp0.cvs, c.sigs = []) ∧ mmaV.size = 0 ∧ ((sMma grp0).cluster 0).mqs[grp0.mqueue]? = some [] := by
  refine ⟨?_, rfl, rfl, by decide, rfl, by decide, by decide, by decide, rfl, rfl⟩
  have h : ((mmaI mmaX ++ [Instr.mmaF64 mmaV, .mmaF16 mmaV, .mmaI8 mmaV, .mmaE4m3 mmaS]).map (grp0, ·) ++ [(grpMma, Instr.mmaF16 mmaX)]).all (fun p => signs p.1 p.2) = true := by
    decide +kernel
  intro p hp
  have h1 := List.all_eq_true.1 h p hp
  have hg : (sMma p.1).env? 2 = some (eMma p.1) := by
    have : ∀ q ∈ (mmaI mmaX ++ [Instr.mmaF64 mmaV, .mmaF16 mmaV, .mmaI8 mmaV, .mmaE4m3 mmaS]).map (grp0, ·) ++ [(grpMma, Instr.mmaF16 mmaX)], q.1 = grp0 ∨ q.1 = grpMma := by
      simp [mmaI]
    rcases this p hp with h | h <;> rw [h] <;> rfl
  exact signs_sound hg h1

/-- Convergence register 5 has an operation under way, 6 a token and 7 nothing. -/
def grpWait : CoreGroup :=
  { grp0 with
    cvs := (((List.replicate 16 {}).set 5 { serial := 2, ops := [(40, some 1)] }).set 6 { serial := 1, status := some 0x0B000005 }), mstat := 0x500000007 }

set_option maxRecDepth 40000 in
theorem witness_MatrixWaits :
    (Ready (sMma grpWait) (eMma grpWait) g7 [] [{ reg := .x 12 }] (sMma grpWait) [] ∧ tMma.status = .ready ∧
      grpWait.cvs[5]? = some { serial := 2, ops := [(40, some 1)] } ∧ grpWait.cvs[6]? = some { serial := 1, status := some 0x0B000005 } ∧ grpWait.cvs[7]? = some cv0) ∧
    Ready (sMma grpWait) (eMma grpWait) g7 [] [{ reg := .x 12, words := 2 }] (sMma grpWait) [] ∧
    ((sMma grp0).cluster 0).mqs[grp0.mqueue]? = some [] ∧
    -- MTRN from x0:x1 to x0:x1, MQNT with its scales at 0x4000, MCLR; MCLR of a descriptor whose rows overlap
    (Ready (sMma grp0) (eMma grp0) g7 [{ src := wt 0, words := 2 }, { src := wt 0, words := 2 }] [] (sMma grp0) [clean [0x200000, 0], clean [0x200000, 0]] ∧
      ∀ w ∈ [0, 1, 2, 3], descCheck (sMma grp0) 0 7 (readDesc 0x200000) 1 (32 * 2 ^ w) false .read = none ∧
        descCheck (sMma grp0) 0 7 (readDesc 0x200000) 1 (32 * 2 ^ w) false .write = none) ∧
    (Ready (sMma grp0) (eMma grp0) g7 [{ src := wt 0, words := 2 }, { src := wt 2 }, { src := wt 0, words := 2 }] [] (sMma grp0)
        [clean [0x200000, 0], clean [0x4000], clean [0x200000, 0]] ∧
      ∀ ty ∈ [(0 : BitVec 3), 1, 2, 3, 4], descCheck (sMma grp0) 0 7 (readDesc 0x200000) 1 (4 * matK (4 + ty.toNat)) false .read = none ∧
        rangeCheck (sMma grp0) 0 7 0x4000 (32 * matK (4 + ty.toNat) / 16) .write = none ∧
        descCheck (sMma grp0) 0 7 (readDesc 0x200000) 1 (rowBytes (4 + ty.toNat) (matK (4 + ty.toNat))) false .write = none) ∧
    (Ready (sMma grp0) (eMma grp0) g7 [{ src := wt 0, words := 2 }] [] (sMma grp0) [clean [0x200000, 0]] ∧
      ∀ a ∈ [(0 : BitVec 2), 1, 2], descCheck (sMma grp0) 0 7 (readDesc 0x200000) 1 (32 * (if a = 1 then 8 else 4)) true .write = none) ∧
    (Ready (sMma grp0) (eMma grp0) g7 [{ src := wt 12, words := 2 }] [] (sMma grp0) [clean [0, 0]] ∧
      descCheck (sMma grp0) 0 7 (readDesc (clean [0, 0]).v64) 1 128 true .write = some 0x05) := by
  refine ⟨⟨⟨⟨rfl, rfl, rfl⟩, rfl, each0, rfl, each1 rfl⟩, rfl, rfl, rfl, rfl⟩, ⟨⟨rfl, rfl, rfl⟩, rfl, each0, rfl, each1 rfl⟩, rfl,
    ⟨⟨⟨rfl, rfl, rfl⟩, rfl, by decide, rfl, each0⟩, by decide +kernel⟩, ⟨⟨⟨rfl, rfl, rfl⟩, rfl, by decide, rfl, each0⟩, by decide +kernel⟩,
    ⟨⟨⟨rfl, rfl, rfl⟩, rfl, by decide, rfl, each0⟩, by decide +kernel⟩, ⟨⟨rfl, rfl, rfl⟩, rfl, by decide, rfl, each0⟩, by decide +kernel⟩

/-- Whether an attempt gave this value. -/
def reached {α ε β : Type} [DecidableEq β] (r : α × Except ε β) (x : β) : Bool :=
  match r.2 with
  | .ok y => decide (y = x)
  | .error _ => false

theorem reached_sound {α ε β : Type} [DecidableEq β] {r : α × Except ε β} {x : β} (h : reached r x = true) : r = (r.1, .ok x) := by
  obtain ⟨s, e⟩ := r
  cases e with
  | error m => exact absurd h (by simp [reached])
  | ok y => simpa [reached] using h

/-- Whether an attempt failed in this way. -/
def missed {α ε β : Type} [DecidableEq ε] (r : α × Except ε β) (x : ε) : Bool :=
  match r.2 with
  | .ok _ => false
  | .error y => decide (y = x)

theorem missed_sound {α ε β : Type} [DecidableEq ε] {r : α × Except ε β} {x : ε} (h : missed r x = true) : r = (r.1, .error x) := by
  obtain ⟨s, e⟩ := r
  cases e with
  | ok y => exact absurd h (by simp [missed])
  | error m => simpa [missed] using h

/-- Whether addresses lie in lines as `Readable` says. -/
def readableB (s : State) (o : Obs) (pas : List Nat) : Bool :=
  pas.all fun pa => isHbm pa && ((match findLine s.lines (pa / 64) with
    | some l => !l.victim
    | none => false) && (!s.viewMarked o (pa / 64) && !clashing s pa))

theorem readableB_sound {s : State} {o : Obs} {pas : List Nat} (h : readableB s o pas = true) : ∀ pa ∈ pas, Readable s o pa := by
  intro pa hp
  have h1 := List.all_eq_true.1 h pa hp
  simp only [Bool.and_eq_true, Bool.not_eq_true'] at h1
  obtain ⟨a, b, c, d⟩ := h1
  refine ⟨a, ?_, c, d⟩
  split at b
  · rename_i l hl; exact ⟨l, hl, by simpa using b⟩
  · cases b

/-- Whether registers from `x`n hold values without tokens. -/
def cleanB (t : Thread) (n k : Nat) : Bool := (List.range k).all fun j => !(regAt t (n + j)).poison && (regAt t (n + j)).readable

theorem cleanB_sound {t : Thread} {n k : Nat} (h : cleanB t n k = true) : ∀ j, j < k → (regAt t (n + j)).poison = false ∧ (regAt t (n + j)).readable = true := by
  intro j hj
  have := List.all_eq_true.1 h j (List.mem_range.2 hj)
  simpa using this

theorem readyX_sound {s : State} {e : Env} {h : Head} {srcs : List SrcReq} {dsts : List DstReq} (x : List Nat) (he : s.env? s.cur = some e)
    (hb : readyB s e h srcs dsts = true) (hx : allocated e (srcRegs srcs ++ dstRegs dsts ++ x) = true) : Ready s e h srcs dsts s (srcs.map (readSrc s e)) x :=
  let r := readyB_sound he hb
  ⟨r.toEnabled, hx, r.full, r.reads, r.writable⟩


/-- The words of a ray from the origin along x, from t 0 to 100 (R308, R310), and a window of it with register 13 and a state word. -/
def rayW : List Word := [0, 0, 0, 0x3F800000, 0, 0, 0, 0x42C80000]
def winW (state e13 : Word) : List Word := rayW ++ [0, 0, 0, 0, state, e13, 0x40A00000, 7] ++ (List.range 16).map fun j => BitVec.ofNat 32 (0x100 + j)
/-- The window at x64 with these words; x10:x11 = 5:0, x2:x3 = 5:0x10. -/
def tWin (ws : List Word) : Thread :=
  { thr [] with regs := (regsOf (rs0 ++ [(11, 0x500)])).take 64 ++ ws.map (fun w => { val := w }) ++ List.replicate (128 - ws.length) {} }
def sWin (ws : List Word) (bytes : List Byte) : State := { st (tWin ws) with mem := memWrites [] (cellsAt 0x20000 bytes) }
def eWin (ws : List Word) : Env := en (tWin ws)
/-- State words: SPILL at depth 8, 16 and 0; MORE; DONE; a candidate; an illegal depth. -/
def stSp8 : Word := 0x43000000 + 0xFFFE
def stSp16 : Word := 0x83000000
def stSp0 : Word := 0x03000001
def stMo : Word := 0x02000000
def stCa : Word := 0x01000000
def st17 : Word := 0x8A000000
/-- The first stack group lies at 5:0x10 with this displacement. -/
def dispSp : BitVec 32 := -(32 * 0xFFFE)
def accWin (ws : List Word) (bs : List Byte) (r : Ref) (d : Int) (n a : Nat) (k : AKind) : State := (access (sWin ws bs) 0 3 r d n a k).1
def vTop : SrcVal := clean [0, 0x500]
def ray0 : List Word := List.replicate 8 0

set_option maxRecDepth 40000 in
theorem witness_RayWindows :
    -- TRAVI with a valid ray and with one without a direction
    (∀ ws ∈ [winW 0 0, ray0], Ready (sWin ws []) (eWin ws) g7 [winSrc 64 0 8, { src := wt 6 }] [{ reg := .x 72, words := 24 }] (sWin ws [])
        [readSrc (sWin ws []) (eWin ws) (winSrc 64 0 8), clean [20]] ∧ ∀ j, j < 8 → (regAt (eWin ws).t (64 + j)).poison = false) ∧
    -- TSTK: in MORE, and in SPILL with 8 and 16 entries and with none
    (∀ w ∈ [stMo, stSp8, stSp16, stSp0], Ready (sWin (winW w 0) []) (eWin (winW w 0)) g7 [winSrc 64 12 1, base2] [{ reg := .x 76 }, { reg := .x 80, words := 16 }]
        (sWin (winW w 0) []) [clean [w], vBase] ((List.range 32).map (64 + ·)) ∧ captiveFull (eWin (winW w 0)).t = false ∧
      ∀ j, j < 32 → (regAt (eWin (winW w 0)).t (64 + j)).poison = false ∧ (regAt (eWin (winW w 0)).t (64 + j)).readable = true) ∧
    (readWin (tWin (winW stMo 0)) 64).status ≠ 3 ∧
    (∀ p ∈ [(stSp8, dispSp), (stSp16, 0)], let win := readWin (tWin (winW p.1 0)) 64
      win.status = 3 ∧ win.invalid = false ∧ 8 ≤ win.depth ∧ win.spilled < 0xFFFF ∧ (tWin (winW p.1 0)).sb.length < 62 ∧
      access (sWin (winW p.1 0) []) 0 3 (wordRef vBase.v64) (p.2.toInt + 32 * (win.spilled : Int)) 32 16 kindWrite =
        (accWin (winW p.1 0) [] (wordRef vBase.v64) (p.2.toInt + 32 * (win.spilled : Int)) 32 16 kindWrite, .ok (hit0 0x10 32))) ∧
    (let win := readWin (tWin (winW stSp0 0)) 64;
      win.status = 3 ∧ win.invalid = false ∧ win.depth = 0 ∧
      access (sWin (winW stSp0 0) []) 0 3 (wordRef vBase.v64) ((0 : BitVec 32).toInt + 32 * ((win.spilled : Int) - 1)) 32 16 kindRead =
        (accWin (winW stSp0 0) [] (wordRef vBase.v64) 0 32 16 kindRead, .ok (hit0 0x10 32)) ∧
      (∀ pa ∈ (hit0 0x10 32).pas, Readable (accWin (winW stSp0 0) [] (wordRef vBase.v64) 0 32 16 kindRead) (.group 9 0) pa) ∧
      ∀ k, k < 32 → ownByte (tWin (winW stSp0 0)) 5 (0x10 + k) = none) := by
  have hp : [stMo, stSp8, stSp16, stSp0].all (fun w => !captiveFull (eWin (winW w 0)).t && cleanB (eWin (winW w 0)).t 64 32) = true := by decide +kernel
  have hr : ∀ ws ∈ [winW 0 0, ray0], cleanB (eWin ws).t 64 8 = true := by decide +kernel
  refine ⟨?_, ?_, by decide +kernel, ?_, by decide +kernel, by decide +kernel, by decide +kernel, reached_sound (by decide +kernel),
    readableB_sound (by decide +kernel), fun _ _ => rfl⟩
  · intro ws h
    refine ⟨?_, fun j hj => (cleanB_sound (hr ws h) j hj).1⟩
    simp only [List.mem_cons, List.not_mem_nil, or_false] at h
    rcases h with rfl | rfl <;> exact readyB_sound rfl (by decide +kernel)
  · intro w h
    have h1 := List.all_eq_true.1 hp w h
    simp only [Bool.and_eq_true, Bool.not_eq_true'] at h1
    refine ⟨?_, h1.1, cleanB_sound h1.2⟩
    simp only [List.mem_cons, List.not_mem_nil, or_false] at h
    rcases h with rfl | rfl | rfl | rfl <;> exact readyX_sound _ rfl (by decide +kernel) (by decide +kernel)
  · intro p h
    simp only [List.mem_cons, List.not_mem_nil, or_false] at h
    rcases h with rfl | rfl <;> exact ⟨by decide +kernel, by decide +kernel, by decide +kernel, by decide +kernel, by decide, reached_sound (by decide +kernel)⟩

/-- A node (R305) at the origin with unit steps: child 0 a node in 1 ≤ x ≤ 2, child 1 a leaf in 3 ≤ x ≤ 4, child 2 beside the ray. -/
def nodeB : List Byte :=
  (List.replicate 12 0) ++ [0x7F, 0x7F, 0x7F, 0] ++ [1, 0, 0, 2, 1, 1] ++ [3, 0, 0, 4, 1, 1] ++ [5, 1, 0, 6, 2, 1] ++ List.replicate 30 0 ++
    [8, 0, 0, 0x40, 0x10, 0, 0, 0x80, 0x20, 0, 0, 0x40] ++ List.replicate 52 0
/-- The triangle (5, -1, -1), (5, 3, -1), (5, -1, 3). -/
def triB : List Byte :=
  [0x40A00000, 0xBF800000, 0xBF800000, 0x40A00000, 0x40400000, 0xBF800000, 0x40A00000, 0xBF800000, 0x40400000].flatMap (fun w => leBytes 4 w)
/-- The window in MORE with this entry, and one whose ray has no direction. -/
def noDir : List Word := ray0 ++ (winW stMo 0).drop 8
def accNode (ws : List Word) (bs : List Byte) (n : Nat) : State := accWin ws bs (wordRef vTop.v64) 0 n 1 kindRead
/-- What the window's part reads. -/
def winVal (ws : List Word) (a n : Nat) : SrcVal := readSrc (sWin ws []) (eWin ws) (winSrc 64 a n)

set_option maxRecDepth 40000 in
theorem witness_Traversals :
    (∀ p ∈ [(winW st17 0, ([] : List Byte)), (winW stMo 0, []), (winW 0 0, []), (noDir, []), (winW (stMo + 1) 0, []), (winW stMo 0x40000000, nodeB), (winW stMo 0x40000000, [])],
      Ready (sWin p.1 p.2) (eWin p.1) g7 [winSrc 64 0 16, { src := wt 10, words := 2 }, { src := wt 4 }] [{ reg := .x 12, words := 2 }, { reg := .x 72, words := 24 }]
        (sWin p.1 p.2) [winVal p.1 0 16, vTop, clean [1]] ∧ captiveFull (eWin p.1).t = false ∧ ∀ j, j < 16 → (regAt (eWin p.1).t (64 + j)).poison = false) ∧
    Lands (.x 12) ∧
    -- an illegal depth; not MORE; a ray without direction; an empty entry with nothing and with one group spilled; a node, hit and not hit
    (readWin (tWin (winW st17 0)) 64).invalid = true ∧
    ((readWin (tWin (winW 0 0)) 64).invalid = false ∧ (readWin (tWin (winW 0 0)) 64).status ≠ 2) ∧
    ((readWin (tWin noDir) 64).invalid = false ∧ (readWin (tWin noDir) 64).status = 2 ∧ (validRay (readWin (tWin noDir) 64).val).isNone = true) ∧
    (∀ ws ∈ [winW stMo 0, winW (stMo + 1) 0], (readWin (tWin ws) 64).invalid = false ∧ (readWin (tWin ws) 64).status = 2 ∧
      (validRay (readWin (tWin ws) 64).val).isSome = true ∧ entryKind ((readWin (tWin ws) 64).word 13) = 0 ∧ (readWin (tWin ws) 64).depth = 0) ∧
    (let win := readWin (tWin (winW stMo 0x40000000)) 64;
      win.invalid = false ∧ win.status = 2 ∧ (validRay win.val).isSome = true ∧ entryKind (win.word 13) = 1 ∧ win.depth = 0 ∧ win.spilled = 0 ∧
      ∀ bs ∈ [nodeB, []], access (sWin (winW stMo 0x40000000) bs) 0 3 (wordRef vTop.v64) (16 * (win.word 13).toNat % 2 ^ 31 : Nat) 128 1 kindRead =
          ((access (sWin (winW stMo 0x40000000) bs) 0 3 (wordRef vTop.v64) (16 * (win.word 13).toNat % 2 ^ 31 : Nat) 128 1 kindRead).1, .ok (hit0 0 128)) ∧
        ∀ pa ∈ (hit0 0 128).pas, Readable (access (sWin (winW stMo 0x40000000) bs) 0 3 (wordRef vTop.v64) (16 * (win.word 13).toNat % 2 ^ 31 : Nat) 128 1 kindRead).1 (.group 9 0) pa) := by
  have hc : [winW st17 0, winW stMo 0, winW 0 0, noDir, winW (stMo + 1) 0, winW stMo 0x40000000].all
      (fun ws => !captiveFull (eWin ws).t && cleanB (eWin ws).t 64 16) = true := by decide +kernel
  refine ⟨?_, .inr ⟨_, rfl⟩, by decide +kernel, by decide +kernel, by decide +kernel, by decide +kernel, ?_⟩
  · intro p h
    have h2 : p.1 ∈ [winW st17 0, winW stMo 0, winW 0 0, noDir, winW (stMo + 1) 0, winW stMo 0x40000000] := by
      simp only [List.mem_cons, List.not_mem_nil, or_false] at h ⊢
      rcases h with rfl | rfl | rfl | rfl | rfl | rfl | rfl <;> simp
    have h1 := List.all_eq_true.1 hc p.1 h2
    simp only [Bool.and_eq_true, Bool.not_eq_true'] at h1
    refine ⟨?_, h1.1, fun j hj => (cleanB_sound h1.2 j hj).1⟩
    simp only [List.mem_cons, List.not_mem_nil, or_false] at h
    rcases h with rfl | rfl | rfl | rfl | rfl | rfl | rfl <;> exact readyB_sound rfl (by decide +kernel)
  · refine ⟨by decide +kernel, by decide +kernel, by decide +kernel, by decide +kernel, by decide +kernel, by decide +kernel, ?_⟩
    intro bs h
    simp only [List.mem_cons, List.not_mem_nil, or_false] at h
    rcases h with rfl | rfl <;> exact ⟨reached_sound (by decide +kernel), readableB_sound (by decide +kernel)⟩

/-- Candidates: t 5 within the ray, t 100 at its end; the first one with the accept-first flag. -/
def winCa (flags : Word) : List Word := winW (stCa + flags) 0
def winFar : List Word := (winW stCa 0).set 14 0x42C80000
def readWinW (ws : List Word) : Win := readWin (tWin ws) 64
/-- A ray that looks away from the triangle. -/
def rayAway : List Word := [0, 0, 0, 0xBF800000, 0, 0, 0, 0x42C80000] ++ (winW 0 0).drop 8

set_option maxRecDepth 40000 in
theorem witness_CandidatesAndSingleRayTests :
    (∀ ws ∈ [winW stMo 0, winCa 0, winCa 0x80000, winFar],
      Ready (sWin ws []) (eWin ws) g7 [winSrc 64 6 10] [{ reg := .x 72, words := 8 }] (sWin ws []) [winVal ws 6 10] ((List.range 32).map (64 + ·)) ∧
      Ready (sWin ws []) (eWin ws) g7 [winSrc 64 6 10, { src := wt 6 }, { src := wt 4 }] [{ reg := .x 72, words := 8 }] (sWin ws [])
        [winVal ws 6 10, clean [20], clean [1]] ((List.range 32).map (64 + ·)) ∧ ∀ j, 6 ≤ j → j < 16 → (regAt (eWin ws).t (64 + j)).poison = false) ∧
    (readWinW (winW stMo 0)).status ≠ 1 ∧
    (∀ w ∈ [(0 : Fin 2), 1], let win := readWinW (winCa (if w = 0 then 0 else 0x80000))
      win.status = 1 ∧ win.invalid = false ∧ win.better (win.word 14) (win.word 15).toNat 1 = true) ∧
    ((readWinW winFar).status = 1 ∧ (readWinW winFar).invalid = false ∧ (readWinW winFar).better ((readWinW winFar).word 14) ((readWinW winFar).word 15).toNat 1 = false) ∧
    -- TRI on a triangle that is hit, and one behind the ray; TBOX on a box that is hit, and an empty child
    (∀ p ∈ [(winW 0 0, triB, 48), (rayAway, triB, 48), (winW 0 0, nodeB, 128)],
      Ready (sWin p.1 p.2.1) (eWin p.1) g7 [winSrc 64 0 8, { src := wt 10, words := 2 }] [{ reg := .x 12, words := 2 }] (sWin p.1 p.2.1)
        [winVal p.1 0 8, vTop] ((List.range 32).map (64 + ·)) ∧ captiveFull (eWin p.1).t = false ∧ (∀ j, j < 8 → (regAt (eWin p.1).t (64 + j)).poison = false) ∧
      access (sWin p.1 p.2.1) 0 3 (wordRef vTop.v64) (0 : BitVec 32).toInt p.2.2 1 kindRead = (accNode p.1 p.2.1 p.2.2, .ok (hit0 0 p.2.2)) ∧
      ∀ pa ∈ (hit0 0 p.2.2).pas, Readable (accNode p.1 p.2.1 p.2.2) (.group 9 0) pa) ∧
    (let r := validRay (readWinW (winW 0 0)).val;
      (r.bind fun r => (triTest r (bytesToWords (triB.take 36))).map fun x => (x.t, x.bary, x.front, inInterval (some r.tmin) (some r.tmax) x.t)) =
        some (0x40A00000, 0x40004000, false, true) ∧
      (r.bind fun r => (childBox nodeB 0).bind fun b => boxTest r r.tmax b.1 b.2).isSome = true ∧
      (r.bind fun r => (childBox nodeB 7).bind fun b => boxTest r r.tmax b.1 b.2) = none) := by
  have hc : [winW stMo 0, winCa 0, winCa 0x80000, winFar, winW 0 0, rayAway].all (fun ws => !captiveFull (eWin ws).t && cleanB (eWin ws).t 64 16) = true := by
    decide +kernel
  refine ⟨?_, by decide +kernel, by decide +kernel, by decide +kernel, ?_, by decide +kernel, by decide +kernel, by decide +kernel⟩
  · intro ws h
    have h1 := List.all_eq_true.1 hc ws (by simp only [List.mem_cons, List.not_mem_nil, or_false] at h ⊢; rcases h with rfl | rfl | rfl | rfl <;> simp)
    simp only [Bool.and_eq_true, Bool.not_eq_true'] at h1
    refine ⟨?_, ?_, fun j _ hj => (cleanB_sound h1.2 j hj).1⟩ <;> simp only [List.mem_cons, List.not_mem_nil, or_false] at h <;>
      rcases h with rfl | rfl | rfl | rfl <;> exact readyX_sound _ rfl (by decide +kernel) (by decide +kernel)
  · intro p h
    have h1 := List.all_eq_true.1 hc p.1 (by simp only [List.mem_cons, List.not_mem_nil, or_false] at h ⊢; rcases h with rfl | rfl | rfl <;> simp)
    simp only [Bool.and_eq_true, Bool.not_eq_true'] at h1
    refine ⟨?_, h1.1, fun j hj => (cleanB_sound h1.2 j (by omega)).1, ?_⟩ <;> simp only [List.mem_cons, List.not_mem_nil, or_false] at h
    · rcases h with rfl | rfl | rfl <;> exact readyX_sound _ rfl (by decide +kernel) (by decide +kernel)
    · rcases h with rfl | rfl | rfl <;> exact ⟨reached_sound (by decide +kernel), readableB_sound (by decide +kernel)⟩

/-- Handles 0 and 63 grant every right of world 5 with tag 2 and heap 5 (R322); the others grant nothing. -/
def grantW : BitVec 64 := 0xF800040005000005
def ctxLn : Ctx := { ctx0 with grants := grantW :: List.replicate 62 0 ++ [grantW] }
def grantL : LGrant := { ok := true, age := true, inv := true, fill := true, look := true, tag := 2, world := 5, heap := 5 }
/-- World 5 of two slots. -/
def world5 : World := { live := true, owner := 9, tag := 2, nslot := 2 }
/-- The key of x0 = 7, x1 = 3 at level 31, revision 0xFFFF, through handle 63; x10 = 0 names handle 0. -/
def tLn : Thread := thr (rs0 ++ [(8, 0xFFFF1F3F)])
/-- Its entry in slot 1. -/
def tile (valid : Bool) (rev : Nat) (claim : Option Nat) : LEntry :=
  { die := 0, set := 9, way := 4, world := 5, obj := 7, level := 31, uv := 3, valid := valid, rev := rev, age := 6, tag := 2, slot := 1, claim := claim }
def sLn (w : World) (l : List LEntry) : State := { st tLn with ctxs := [(3, ctxLn)], worlds := [(5, w)], lantern := l }
def vKey : SrcVal := clean [0xFFFF1F3F]

set_option maxRecDepth 40000 in
theorem witness_LanternTiles :
    (∀ p ∈ [(world5, [tile true 0xFFFF none]), (world5, [tile false 0xFFFF none]), (world5, []), ({ world5 with pending := [0, 1] }, []), ({ world5 with ageing := true }, [])],
      let s := sLn p.1 p.2
      (∀ k ∈ [(wt 8, vKey), (wt 4, clean [1])], Ready s (en tLn) g7 [{ src := wt 0 }, { src := wt 1 }, { src := k.1 }] [{ reg := .x 12, words := 4 }] s [clean [7], clean [3], k.2] ∧
        Ready s (en tLn) g7 [{ src := wt 0 }, { src := wt 1 }, { src := k.1 }] [{ reg := .x 12 }] s [clean [7], clean [3], k.2] ∧
        Ready s (en tLn) g7 [{ src := wt 0 }, { src := k.1 }] [{ reg := .x 12 }] s [clean [7], k.2]) ∧
      (∀ f ∈ [LGrant.look, LGrant.fill, LGrant.inv, LGrant.age], resolveKey s 3 vKey.v32 f = some grantL ∧ resolveKey s 3 (clean [1]).v32 f = none) ∧
      bufferOf s 0 3 5 = (s, .ok (some entry0)) ∧ tget? s.worlds 5 = some p.1 ∧ checkEntry (s.ctx 3) 3 (some entry0) kindLook 0 (512 * p.1.nslot) = .ok (bufEntry entry0) ∧
      -- LNAGE through handle 0
      Ready s (en tLn) g7 [{ src := wt 10 }, { src := wt 6 }] [{ reg := .x 12, words := 2 }] s [clean [0], clean [20]] ∧ resolveKey s 3 (clean [0]).v32 (·.age) = some grantL) ∧
    (keyRev vKey.v32 = 0xFFFF ∧ keyLevel vKey.v32 = 31 ∧ keyRev (clean [0]).v32 = 0 ∧ keyLevel (clean [0]).v32 = 0 ∧ captiveFull tLn = false ∧ Lands (.x 12)) ∧
    (∀ l ∈ [tile true 0xFFFF none, tile false 0xFFFF none], findKey (sLn world5 [l]) 5 7 3 31 = some l ∧ l.rev = keyRev vKey.v32) ∧
    (findKey (sLn world5 []) 5 7 3 31 = none ∧ lowestFree (sLn world5 []) 5 = some 0 ∧ missHeld (sLn { world5 with missq := List.replicate 4095 [] } []) 5 = 4095 ∧
      lowestFree (sLn { world5 with pending := [0, 1] } []) 5 = none ∧ (sLn world5 []).lantern = []) ∧
    -- fills: to be taken, unclaimed and claimed by the context; valid, of another revision, claimed by another context
    (∀ l ∈ [tile false 0xFFFF none, tile false 0xFFFF (some 3), tile true 0xFFFF none, tile false 0xFFFE none, tile false 0xFFFF (some 4)],
      findKey (sLn world5 [l]) 5 7 3 (keyLevel vKey.v32) = some l) := by
  have h0 : (List.replicate 4095 ([] : List Word)).length = 4095 := List.length_replicate ..
  refine ⟨?_, ⟨by decide, by decide, by decide, by decide, rfl, .inr ⟨_, rfl⟩⟩, by decide +kernel, ⟨rfl, by decide +kernel, ?_, by decide +kernel, rfl⟩, by decide +kernel⟩
  · intro p h
    simp only [List.mem_cons, List.not_mem_nil, or_false] at h
    rcases h with rfl | rfl | rfl | rfl | rfl <;>
      exact ⟨by
        intro k hk
        simp only [List.mem_cons, List.not_mem_nil, or_false] at hk
        rcases hk with rfl | rfl <;>
          exact ⟨readyB_sound rfl (by decide +kernel), readyB_sound rfl (by decide +kernel), readyB_sound rfl (by decide +kernel)⟩,
        by
          intro f hf
          simp only [List.mem_cons, List.not_mem_nil, or_false] at hf
          rcases hf with rfl | rfl | rfl | rfl <;> exact ⟨rfl, rfl⟩,
        rfl, rfl, rfl, readyB_sound rfl (by decide +kernel), rfl⟩
  · simp [missHeld, sLn, tget?, h0, st, grp0]

/-- Importance k at position k in x8:x9; positions 0, 1, 4, 5, 8, 9, 12, 13, 15 in x14 to x22. -/
def tSm : Thread := thr (rs0 ++ [(8, 0x76543210), (9, 0xFEDCBA98), (14, 0), (15, 1), (16, 4), (17, 5), (18, 8), (19, 9), (20, 12), (21, 13), (22, 15)])
def imp0 : SrcVal := clean [0x76543210, 0xFEDCBA98]

set_option maxRecDepth 40000 in
theorem witness_Samples :
    ∀ p ∈ [(14, (0 : Word)), (15, 1), (16, 4), (17, 5), (18, 8), (19, 9), (20, 12), (21, 13), (22, 15)],
      Ready (st tSm) (en tSm) g7 [{ src := wt 8, words := 2 }, { src := wt 0 }, { src := wt p.1 }] [{ reg := .x 12, words := 2 }] (st tSm) [imp0, clean [7], clean [p.2]] ∧
      Ready (st tSm) (en tSm) g7 [{ src := wt 8, words := 2 }, { src := wt p.1 }] [{ reg := .x 12, words := 2 }] (st tSm) [imp0, clean [p.2]] ∧
      Unpoisoned [imp0, clean [7], clean [p.2]] ∧ Lands (.x 12) ∧ imp0.v64.toNat / 2 ^ (4 * ((clean [p.2]).v32.toNat % 16)) % 16 = p.2.toNat := by
  intro p h
  simp only [List.mem_cons, List.not_mem_nil, or_false] at h
  rcases h with rfl | rfl | rfl | rfl | rfl | rfl | rfl | rfl | rfl <;>
    exact ⟨readyB_sound rfl (by decide +kernel), readyB_sound rfl (by decide +kernel), by simp [Unpoisoned, imp0, clean], .inr ⟨_, rfl⟩, by decide⟩

/-- `t0` parked, with register x12 as given; the state and environment with a core group. -/
def tPk (p : Park) (c : RegCell) : Thread := { t0 with status := .parked p, regs := t0.regs.set 12 c, items := [{ id := 60, cl := false }] }
def sPk (t : Thread) (g : CoreGroup) : State := { st t with groups := [(9, g)] }
def ePk (t : Thread) (g : CoreGroup) : Env := { en t with g := g }
def emptyC : RegCell := { full := false }
def lentC : RegCell := { full := true, lent := true }
/-- The thread is the one that Foghorn is to trap on core 0, whose cycle count is 1. -/
def sFogOf (t : Thread) : State := ((st t).setCore 0 { (st t).coreUnit 0 with clk := 1, fog := [2] })
/-- The parked thread has signed on convergence register 5 and lent x12. -/
def sig2 : Signature := { sig0 with tid := 2, lent := [12] }
def cv2 : Cv := { target := 32, sigs := [sig2] }
def grpSig : CoreGroup := { grp0 with cvs := (List.replicate 16 {}).set 5 cv2 }
def pkSig : Park := .mwait false 5 (.x 12) [] []
def pkFil : Park := .lnfil 12 (.x 12) 5 7 3 vKey.v32 []
def pkTry (d : Nat) : Park := .tryw 8 3 12 d

set_option maxRecDepth 40000 in
theorem witness_ParkedThreads :
    (∀ p ∈ [(Park.full 12, emptyC, grp0), (.full 12, {}, grp0), (.fence 8 .cluster [60], {}, grp0), (.fence 8 .bay [60], {}, grp0), (.barPhase 8 1 2, {}, grpBar),
        (.barPhase 8 1 3, {}, grpBar), (pkTry 0, {}, grp0), (pkTry 1, emptyC, grp0), (pkFil, {}, grp0), (pkSig, lentC, grpSig)],
      (sPk (tPk p.1 p.2.1) p.2.2).env? 2 = some (ePk (tPk p.1 p.2.1) p.2.2) ∧ engineRuns (sPk (tPk p.1 p.2.1) p.2.2) 3 = true ∧ (tPk p.1 p.2.1).status = .parked p.1) ∧
    ((regAt (tPk (.full 12) emptyC) 12).readable = false ∧ (regAt (tPk (.full 12) {}) 12).readable = true) ∧
    ((∀ i ∈ (tPk (.fence 8 .cluster [60]) {}).items, i.id ∈ [60] → i.counts .cluster = false) ∧
      ∃ i ∈ (tPk (.fence 8 .bay [60]) {}).items, i.id ∈ [60] ∧ i.counts .bay = true) ∧
    (grpBar.bars[1]? = some { phase := 3, cnt := some 2, arrived := [5] } ∧ (2 : Nat) < 3 ∧ (3 : Nat) ≤ 3) ∧
    ((regAt (tPk (pkTry 0) {}) 12).readable = true ∧ (regAt (tPk (pkTry 1) emptyC) 12).readable = false ∧
      (0 : Nat) ≤ ((sPk (tPk (pkTry 0) {}) grp0).coreUnit 0).clk ∧ ((sPk (tPk (pkTry 1) emptyC) grp0).coreUnit 0).clk < 1) ∧
    (∀ n ∈ xRegs (.x 12) 1, (regAt (tPk pkFil {}) n).lent = false ∧ (regAt (tPk pkFil {}) n).pend = .no) ∧
    (∀ t ∈ [t0, tHand], (sFogOf t).env? 2 = some (en t) ∧ engineRuns (sFogOf t) 3 = true ∧ ((sFogOf t).coreUnit 0).fog = [2]) ∧ (s0.coreUnit 0).fog = [] ∧
    (t0.handler = false ∧ tHand.handler = true) ∧
    (grpSig.cvs[5]? = some cv2 ∧ cv2.target ≠ 0 ∧ tsorted (sPk (tPk pkSig lentC) grpSig).threads = true ∧
      (∀ p ∈ (sPk (tPk pkSig lentC) grpSig).threads, p.2.gid = 9 → p.2.status = .exited ∨ ∃ w, p.2.status = .parked w ∧ (w.onOthers = false ∨ ∃ x ∈ cv2.sigs, x.tid = p.1)) ∧
      sig2 ∈ cv2.sigs ∧ sig2.tid = 2 ∧ 12 ∈ sig2.lent ∧ (∀ c ∈ grpSig.cvs.eraseIdx 5, ∀ y ∈ c.sigs, y.tid ≠ 2) ∧ (regAt (tPk pkSig lentC) 12).lent = true ∧
      12 < (tPk pkSig lentC).regs.length) := by
  refine ⟨?_, ⟨rfl, rfl⟩, ⟨by decide, ⟨_, List.mem_singleton.2 rfl, by decide, rfl⟩⟩, ⟨rfl, by decide, by decide⟩, ⟨rfl, rfl, by decide, by decide⟩, by decide,
    ?_, rfl, ⟨rfl, rfl⟩, ⟨rfl, by decide, rfl, ?_, List.mem_singleton.2 rfl, rfl, by decide, by decide +kernel, rfl, by decide⟩⟩
  · intro p h
    simp only [List.mem_cons, List.not_mem_nil, or_false] at h
    rcases h with rfl | rfl | rfl | rfl | rfl | rfl | rfl | rfl | rfl | rfl <;> exact ⟨rfl, rfl, rfl⟩
  · intro t h
    simp only [List.mem_cons, List.not_mem_nil, or_false] at h
    rcases h with rfl | rfl <;> exact ⟨rfl, rfl, rfl⟩
  · intro p h _
    rw [show (sPk (tPk pkSig lentC) grpSig).threads = [(2, tPk pkSig lentC)] from rfl] at h
    rw [List.mem_singleton.1 h]
    exact .inr ⟨_, rfl, .inr ⟨sig2, List.mem_singleton.2 rfl, rfl⟩⟩

/-- A write of three bytes in flight at a level; two writes of one scope instance, the first at a level below the second's. -/
def fly (lvl : Nat) : Flight := { id := 70, cells := cellsAt 0x2003E [1, 2, 3], core := 0, gid := 9, lvl := lvl, ctx := 3 }
def flyA : Flight := { fly 1 with id := 71, bound := some (7, 0, 4) }
def flyB : Flight := { fly 1 with bound := some (7, 0, 5) }
def sFly (l : List Flight) : State := { s0 with flights := l }
/-- Records of stage 1, whose ring cannot be translated, and of stage 2, whose ring at 0x20000 holds two entries of 32 bytes; a malformed ring. -/
def rec1 : FRec := { id := 90, ctx := 3, ref := 0x0000050000000010, level := 2, access := 1, kind := 0, addr := 0x40008, va := none }
def rec2 : FRec := { rec1 with kind := 1 }
def hdrBytes : List Byte := List.replicate 22 0 ++ [5, 1, 0x40] ++ [0, 2] ++ List.replicate 37 0
def sRec (r : FRec) (hdr : List Byte) : State :=
  { s0 with recs := [r], ctxs := [(3, { ctx0 with s2root := 0x50000, gring := 0x1000, hring := 0x20000 })], mem := memWrites [] (cellsAt 0x20000 hdr) }
/-- A read-duplicated page's leaf that is to collapse. -/
def sCol : State := { s0 with collapsing := [0x20010], mem := [(0x20010, 0xFF)] }
/-- Stack 7's entry: requester 0x1234 may read and write the frames 24574 and 24575; requester 0x1235 may do neither. -/
def sAcl : State :=
  { s0 with acl := [(1792, 0xE00012345FFF5FFE), (1793, 0x800012355FFF5FFE)], badLines := [0x801], lines := [], mem := [((8 * 24575 + 7) * 2097152 + 0x1FFFC0, 9)] }

set_option maxRecDepth 40000 in
theorem witness_WritesAndRemoteRequests :
    (∀ f ∈ [fly 0, fly 2], (sFly [f]).flights = [] ++ f :: [] ∧ f.bound = none ∧ f.items = [] ∧ f.lvl < 3) ∧
    ((sFly [fly 3]).flights = [fly 3] ∧ (fly 3).bound = none ∧ (fly 3).items = [] ∧ (fly 3).lvl = 3 ∧ (fly 3).cells = cellsAt 0x2003E [1, 2, 3] ∧ (fly 3).whole = [] ∧
      (fly 3).marked = [] ∧ ∀ i, i < 3 → isHbm (0x2003E + i) = true) ∧
    ((sFly [flyA, flyB]).flights = [] ++ flyA :: [] ++ flyB :: [] ∧ (∀ y ∈ [flyA], y.id ≠ flyB.id) ∧ flyB.bound = some (7, 0, 5) ∧ flyA.bound = some (7, 0, 4) ∧ flyA.lvl ≤ flyB.lvl) ∧
    (∀ p ∈ [(rec1, hdrBytes), (rec2, hdrBytes), (rec2, [])], (sRec p.1 p.2).recs.find? (fun x => x.id = p.1.id) = some p.1 ∧ p.1.posted = false) ∧
    (stageOf rec1.kind = 1 ∧ pushRing (sRec rec1 hdrBytes) (ipaToPhys (sRec rec1 hdrBytes) 3) ((sRec rec1 hdrBytes).ctx 3).gring (recordBytes rec1) = none ∧
      stageOf rec2.kind ≠ 1 ∧ (pushRing (sRec rec2 hdrBytes) some ((sRec rec2 hdrBytes).ctx 3).hring (recordBytes rec2)).isSome = true ∧
      pushRing (sRec rec2 []) some ((sRec rec2 []).ctx 3).hring (recordBytes rec2) = none) ∧
    (0x20010 ∈ sCol.collapsing ∧ isHbm 0x20010 = true) ∧
    -- a frame beyond the stack, an unknown requester, a requester without rights; the last line of the last frame
    (sAcl.stopped = false ∧ MemCanonical sAcl ∧
      (∀ right ∈ [61, 62], aclCheck sAcl 7 0x1234 24576 0 right = some 1 ∧ aclCheck sAcl 7 0x1236 24575 0 right = some 2 ∧ aclCheck sAcl 7 0x1235 24575 0 right = some 3 ∧
        aclCheck sAcl 7 0x1234 24575 0x1FFFC0 right = none) ∧
      sAcl.viewMarked .domain (((8 * 24575 + 7) * 2 ^ 21 + 0x1FFFC0) / 64) = false ∧
      clashing (noteHash sAcl defaultMasks ((8 * 24575 + 7) * 2 ^ 21 + 0x1FFFC0)) ((8 * 24575 + 7) * 2 ^ 21 + 0x1FFFC0) = false) ∧
    (isHbm (64 * 0x801) = true ∧ 0x801 ∈ sAcl.badLines) := by
  refine ⟨?_, ⟨rfl, rfl, rfl, rfl, rfl, rfl, rfl, by decide⟩, ⟨rfl, by decide, rfl, rfl, by decide⟩, ?_, ⟨rfl, ?_, by decide, ?_, ?_⟩, ⟨by decide, rfl⟩,
    ⟨rfl, show Memory.wf _ = true by decide +kernel, ?_, by decide +kernel, by decide +kernel⟩, ⟨rfl, by decide⟩⟩
  · intro f h
    simp only [List.mem_cons, List.not_mem_nil, or_false] at h
    rcases h with rfl | rfl <;> exact ⟨rfl, rfl, rfl, by decide⟩
  · intro p h
    simp only [List.mem_cons, List.not_mem_nil, or_false] at h
    rcases h with rfl | rfl | rfl <;> exact ⟨rfl, rfl⟩
  · exact Option.isNone_iff_eq_none.1 (by decide +kernel)
  · decide +kernel
  · exact Option.isNone_iff_eq_none.1 (by decide +kernel)
  · intro r h
    simp only [List.mem_cons, List.not_mem_nil, or_false] at h
    rcases h with rfl | rfl <;> decide +kernel

/-- A tier control block at 0x20000 of one frame, whose table lies at 0x20040 with this byte of AC, pin, state and age. -/
def tierB (b : Byte) : List Byte := List.replicate 28 0 ++ [1, 0, 0, 0, 0x40, 0, 2] ++ List.replicate 37 0 ++ [b]
/-- Device 5 may do everything in frame 0, device 6 nothing; port 35 is up, and device 9 is reached through ports 0 and 35. -/
def sFab (b : Byte) : State :=
  { s0 with ident := 0x8000000000000001, exports := [(0, 0xF000500000000000), (1, 0x8000600000000000)], routes := [(9, 0x1800000001)], portsUp := 0x800000000
            tierPtr := [0, 0x20001], mem := memWrites [] (cellsAt 0x20000 (tierB b)) }
def tier1 (b : Byte) : State := { sFab b with tierCur := listMod (sFab b).tierCur 1 fun _ => (sFab b).tierPtr.getD 1 0 }

set_option maxRecDepth 40000 in
theorem witness_TiersAndFabric :
    (hostAnswers (sFab 0x1E) = true ∧ (sFab 0x1E).stopped = false ∧ (∀ m ∈ (sFab 0x1E).moving, m.1 ≠ 0 ∧ m.1 ≠ 1)) ∧
    -- no block for tier 0; tier 1's block with a frame of age 14 and of age 15
    tierBlock? { sFab 0x1E with tierCur := listMod (sFab 0x1E).tierCur 0 fun _ => (sFab 0x1E).tierPtr.getD 0 0 } 0 = none ∧
    (∀ b ∈ [30, 31], let s := tier1 (BitVec.ofNat 8 b)
      tierBlock? s 1 = some 0x20000 ∧ (readTier s 0x20000).nframe = 1 ∧ (readTier s 0x20000).lowm ≤ (readTier s 0x20000).free ∧
        frameByte s (readTier s 0x20000) 0 = b ∧ b.testBit 7 = false) ∧
    -- requests: not aligned, of an unknown device, without the right; whole lines, bytes and words in frame 0
    ((sFab 0).ident.getLsbD 63 = true ∧
      (∀ right ∈ [60, 61, 62], exportCheck (sFab 0) 0 5 0x20001 64 64 right = some 1 ∧ exportCheck (sFab 0) 0 7 0x20000 64 64 right = some 2 ∧
        exportCheck (sFab 0) 0 6 0x20000 64 64 right = some 3 ∧ exportCheck (sFab 0) 0 5 0x20000 64 64 right = none ∧
        exportCheck (sFab 0) 0 5 0x20001 1 1 right = none ∧ exportCheck (sFab 0) 0 5 0x2003C 4 4 right = none ∧ exportCheck (sFab 0) 0 5 0x20038 8 8 right = none) ∧
      (sFab 0).viewMarked .domain (0x20000 / 64) = false ∧ (sFab 0).lastMarked (0x20000 / 64) = false ∧
      clashing (noteHash (sFab 0) defaultMasks 0x20000) 0x20000 = false ∧ ∀ i, i < 3 → isHbm (0x20001 + i) = true) ∧
    -- identity words: legal, and with a reserved bit
    ((BitVec.extractLsb' 8 8 (0x80000000000000FF : BitVec 64) = 0 ∧ BitVec.extractLsb' 32 31 (0x80000000000000FF : BitVec 64) = 0) ∧
      (BitVec.extractLsb' 8 8 (0x8000 : BitVec 64) ≠ 0 ∨ BitVec.extractLsb' 32 31 (0x8000 : BitVec 64) ≠ 0)) ∧
    ((9 : BitVec 8).toNat ≠ (sFab 0).device ∧ (tgetD 0 (sFab 0).routes 9).getLsbD 36 = true ∧
      ∀ p, p < 36 → (((tgetD 0 (sFab 0).routes 9).getLsbD p && (sFab 0).portsUp.getLsbD p) = true ↔ p = 35)) := by
  refine ⟨⟨rfl, rfl, by decide⟩, rfl, ?_, ⟨rfl, ?_, by decide +kernel, by decide +kernel, by decide +kernel, by decide⟩, ⟨⟨by decide, by decide⟩, .inl (by decide)⟩,
    ⟨by decide, by decide, by decide⟩⟩
  · intro b h
    simp only [List.mem_cons, List.not_mem_nil, or_false] at h
    rcases h with rfl | rfl <;> exact ⟨by decide +kernel, by decide +kernel, by decide +kernel, by decide +kernel, by decide +kernel⟩
  · decide +kernel

/-- A copy to the vault at 0x1000 with its block at 0x40, and one that decrypts by slot 2, stream 0, counter 5. -/
def copyOf (b : ReqBlock) : Copy := { id := 40, ctx := 3, iid := 7, cgid := 8, gid := 9, blockAt := 0x40, blk := b }
def blkDec : ReqBlock := { blk true 1 with dec := true, sv := false, src := 0x50000000000, slot := 2, ctr := 5 }
/-- A copy of zeros: a line, and the last byte of one. -/
def blkZero (n : Nat) (dst : Word64) : ReqBlock := { blk false 1 with zf := true, len := n, dst := dst }
def goingOf (b : ReqBlock) : Copy := { copyOf b with started := true }
/-- A line of ciphertext. -/
def ct64 : List Byte := List.replicate 64 7
/-- The decrypting copy has read its line and a tag. -/
def readDec (tag : List Byte) : Copy := { goingOf blkDec with row := 2, idx := 2, cipher := [(0, ct64), (1, tag)] }
/-- The Buoy at 0x80 counts 64; slot 2's stream 0 has accepted a counter or none. -/
def sCpy (cs : List Copy) (slots : Tab KeySlot) : State :=
  { st t0 with ctxs := [(3, { ctx0 with tdi := 5 })], tdis := [(5, tdi5)], slots := slots
               clusters := [(0, { clu0 with copies := cs, vault := { absent := [64], bytes := [(0x80, 64)] } })] }
def slotAt (c : Option (BitVec 64)) : KeySlot := { slotK with ctrs := slotK.ctrs.set 0 c }
/-- The tag of that line. -/
def tag64 : List Byte := gcmTag (copyKey (sCpy [] [(2, slotAt none)]) blkDec).1 (copyKey (sCpy [] [(2, slotAt none)]) blkDec).2 ct64
/-- MCLR of the descriptor 0x200000 at the head of queue 3. -/
def opClr : MatOp := { id := 40, gid := 9, cgid := 8, iid := 7, ctx := 3, cv := 5, serial := none, kind := .mclr 0, a := .none, b := .none, c := .vault 0x200000, scale := [], steps := 1, site := 0 }
def sClr : State :=
  { st t0 with groups := [(9, { grp0 with cvs := (List.replicate 16 {}).set 5 { target := 0, ops := [(40, none)] } })]
               clusters := [(0, { clu0 with mqs := (List.replicate 4 []).set 3 [opClr], vault := { bytes := [(0x80, 64)] } })] }

set_option maxRecDepth 40000 in
theorem witness_CopyEngines :
    nextCopy s0 0 = none ∧
    -- a plain copy; a decrypting one with its counter above the last, with the last, and of an empty slot
    (nextCopy (sCpy [copyOf (blk true 1)] []) 0 = some (copyOf (blk true 1)) ∧ (blk true 1).dec = false ∧ (blk true 1).len ≠ 0) ∧
    (∀ p ∈ [((none : Option Nat), [(2, slotAt (some 4))]), (some 4, [(2, slotAt (some 5))]), (some 6, [])],
      nextCopy (sCpy [copyOf blkDec] p.2) 0 = some (copyOf blkDec) ∧
        (slotRefusal (sCpy [copyOf blkDec] p.2) 3 blkDec).or (counterRefusal (sCpy [copyOf blkDec] p.2) blkDec) = p.1) ∧
    (∀ p ∈ [(64, (0x1000 : Word64)), (1, 0x103F)], let s := sCpy [goingOf (blkZero p.1 p.2)] []
      (s.cluster 0).copies = [goingOf (blkZero p.1 p.2)] ∧ copyRuns s 3 = true ∧ NoBuoyWaiter s ∧ p.2.toNat % 64 + p.1 ≤ 64 ∧
        copyDstVault s 0 7 (blkZero p.1 p.2) 0 p.1 = .ok (vh p.2.toNat) ∧ vaultCheck s 0 7 (blkZero p.1 p.2).buoy 0 8 8 .write = .ok (vh 0x80) ∧
        VaultSound (s.vault 0) ∧ leNat (vaultBytes s 0 0x80 8) = 64) ∧
    (∀ tag ∈ [tag64, []], let s := sCpy [readDec tag] [(2, slotAt none)]
      (s.cluster 0).copies.find? (fun x => x.started && x.blk.dec && (issuedAll x && x.out.isEmpty) && (s.ctx x.ctx).kill.isNone) = some (readDec tag) ∧
        tget? s.slots 2 = some (slotAt none) ∧ dstLines s 0 7 blkDec = [(0, 64)]) ∧
    gcmTag (copyKey (sCpy [readDec tag64] [(2, slotAt none)]) blkDec).1 (copyKey (sCpy [readDec tag64] [(2, slotAt none)]) blkDec).2 ct64 = tag64 ∧
    (pickQueue sClr 0 = some (3, opClr) ∧ NoBuoyWaiter sClr ∧ (opWrites opClr).length = 64 ∧ VaultSound (sClr.vault 0) ∧
      (∀ p ∈ opWrites opClr, (pieceHit sClr 0 7 p).map (·.cl) = some 0) ∧ (tget? sClr.groups 9).isSome = true) := by
  refine ⟨rfl, ⟨rfl, rfl, by decide⟩, ?_, ?_, ?_, rfl, ⟨by decide +kernel, noBuoy (g := grp0) rfl rfl, by decide +kernel, sound1 _ rfl rfl rfl rfl rfl, by decide +kernel, rfl⟩⟩
  · intro p h
    simp only [List.mem_cons, List.not_mem_nil, or_false] at h
    rcases h with rfl | rfl | rfl <;> exact ⟨rfl, by decide +kernel⟩
  · intro p h
    simp only [List.mem_cons, List.not_mem_nil, or_false] at h
    rcases h with rfl | rfl <;>
      exact ⟨rfl, rfl, noBuoy (g := grp0) rfl rfl, by decide, rfl, rfl, sound1 _ rfl rfl rfl rfl rfl, by decide +kernel⟩
  · intro tag h
    simp only [List.mem_cons, List.not_mem_nil, or_false] at h
    rcases h with rfl | rfl <;> exact ⟨rfl, rfl, rfl⟩

/-- A vault of cluster 0 whose group 7 is given. -/
def vltG (p : PGroup) : Vault := { groups := (List.replicate 8 {}).set 7 p }
def sVg (v : Vault) (cgs : Tab ClusterGroup) : State :=
  { st t0 with cgroups := cgs, clusters := [(0, { clu0 with vault := v })], parts := [(4, { clu := 1, grant := 20 })] }
/-- Group 7 with two updates queued; with a parity line of row 4095. -/
def pgQ : PGroup := { queue := [(4095, 3), (0, 1)] }
def pgP : PGroup := { parity := [(4095, 0x70)], queue := [(4094, 1)] }
/-- The last line, 131071, cannot be corrected; its neighbour 131068 begins with the byte 5. -/
def vltBad : Vault := { vltG pgP with bad := [131071], bytes := [(64 * 131068, 5)] }
def vltFail : Vault := vltG { st := .failed }
/-- An allocation that ends at 5 MiB, the grant of 20 units, and one that ends a byte later. -/
def cgEnd (n : Nat) : ClusterGroup := { cgrp0 with base := 20 * 262144 - 0x10000, len := 0x10000 + n }

set_option maxRecDepth 40000 in
theorem witness_VaultsMend :
    ((sVg (vltG pgQ) []).vault 0).groups[7]? = some pgQ ∧
    (let v := (sVg vltBad []).vault 0; 131071 ∈ v.bad ∧ v.remapped = none ∧ Memory.wf v.bytes = true ∧ v.groups[vGroup 131071]? = some pgP ∧ pgP.st = .healthy ∧
      (∀ u ∈ pgP.queue, u.1 ≠ vRow 131071) ∧ (∀ l ∈ otherLines 131071, l ∉ v.bad) ∧ parityLine (vGroup 131071) (vRow 131071) ∉ v.bad) ∧
    (∀ q ∈ [(PState.healthy, (none : Option Nat), 4), (.healthy, none, 0), (.degraded, some 3, 3), (.degraded, some 3, 2), (.degraded, some 3, 4), (.noparity, none, 4),
        (.noparity, none, 0), (.failed, none, 3)], let p : PGroup := { st := q.1, rbank := q.2.1, pendingRetire := some q.2.2 }
      ((sVg (vltG p) []).vault 0).groups[7]? = some p ∧ ((sVg (vltG p) []).vault 0).groups.length = 8 ∧ p.queue = [] ∧ p.pendingRetire = some q.2.2 ∧ NoBuoyWaiter (sVg (vltG p) [])) ∧
    (failedGroups ((sVg vltFail []).vault 0) = [7] ∧ ((sVg vltFail []).vault 0).remapped = none ∧ vOccupied (sVg vltFail []) 0 = []) ∧
    (∀ n ∈ [0, 1], ownerOf (sVg {} [(8, cgEnd n)]) 0 = some 4 ∧ ((sVg {} [(8, cgEnd n)]).part 4).grant = 20 ∧ 20 < ((sVg {} [(8, cgEnd n)]).vault 0).split ∧
      vOccupied (sVg {} [(8, cgEnd n)]) 0 = [(20 * 262144 - 0x10000, 0x10000 + n)]) := by
  refine ⟨rfl, ⟨by decide, rfl, rfl, rfl, rfl, by decide, by decide, by decide⟩, ?_, ⟨rfl, rfl, rfl⟩, ?_⟩
  · intro q h
    simp only [List.mem_cons, List.not_mem_nil, or_false] at h
    rcases h with rfl | rfl | rfl | rfl | rfl | rfl | rfl | rfl <;> exact ⟨rfl, rfl, rfl, rfl, noBuoy (g := grp0) rfl rfl⟩
  · intro n h
    simp only [List.mem_cons, List.not_mem_nil, or_false] at h
    rcases h with rfl | rfl <;> exact ⟨rfl, rfl, by decide, rfl⟩

/-- A point whose only request is of class `c`; one with requests of classes 3 and 5 and a floor of 1 for class 3. -/
def ptOne (c : Nat) : BPoint := { queues := (List.replicate 16 []).set c [70] }
def ptTwo : BPoint := { floors := (List.replicate 16 0).set 3 1, queues := ((List.replicate 16 []).set 3 [70]).set 5 [71, 72] }
def sPt (b : BPoint) : State := { s0 with points := [(0, b)] }
/-- Partition 0 holds context 3; partition 63 wants bay 31. -/
def bay31 : BitVec 256 := 0xFF <<< 248
def sPar : State := { s0 with parts := [(0, { v := true, grant := 7 }), (63, { v := true, want := bay31, count := 6 })], xclk := [1048576, 0, 0, 0] }
/-- Control blocks: bay 31, target 9, class 5, AUTO, a grant, and V or not. -/
def blkPart (v : Bool) (g : Nat) : BitVec 1024 := bay31.setWidth 1024 <<< 768 ||| 9 <<< 480 ||| BitVec.ofNat 1024 g <<< 408 ||| 5 <<< 405 ||| 1 <<< 404 ||| (if v then 1 <<< 403 else 0)

set_option maxRecDepth 40000 in
theorem witness_SharesAndPoints :
    -- a class below its ceiling, and refresh at its own ceiling of 0
    (∀ c ∈ [3, 15, 8], ((sPt (ptOne c)).point 0).spent.length = 16 ∧ ((sPt (ptOne c)).point 0).queues.length = 16 ∧
      ∀ k, ((sPt (ptOne c)).point 0).queues.getD k [] = if k = c then [70] else []) ∧
    (((sPt (ptOne 3)).point 0).spent.getD 3 0 < ceilOf 0 ((sPt (ptOne 3)).point 0) 3 ∧ ((sPt (ptOne 15)).point 0).spent.getD 15 0 < ceilOf 0 ((sPt (ptOne 15)).point 0) 15 ∧
      ceilOf 0 ((sPt (ptOne 8)).point 0) 8 ≤ ((sPt (ptOne 8)).point 0).spent.getD 8 0) ∧
    (ptTwo.queues.getD 3 [] = [70] ∧ ptTwo.queues.getD 5 [] = [71, 72] ∧ ptTwo.spent.getD 3 0 < floorOf 0 ptTwo 3 ∧ ∀ k, k ≠ 3 → floorOf 0 ptTwo k ≤ ptTwo.spent.getD k 0) ∧
    -- a table at half of the capacity, and one above
    (hostAnswers s0 = true ∧ ((List.range 16).map fun c => if c = 8 then 0 else ([2048] : List (BitVec 64)).getD c 0 |>.toNat % 2 ^ 32).sum ≤ 2048 ∧
      2048 < ((List.range 16).map fun c => if c = 8 then 0 else ([2048, 1] : List (BitVec 64)).getD c 0 |>.toNat % 2 ^ 32).sum) ∧
    -- control blocks: a bay that another partition wants, V cleared; a bay of its own
    (tsorted sPar.parts = true ∧ hostAnswers sPar = true ∧ (sPar.part 0).v = true ∧ (blkPart false 33).getLsbD 403 = false ∧ (3, ctx0) ∈ sPar.ctxs ∧
      tget? sPar.ctxs 3 = some ctx0 ∧ ctx0.part = 0 ∧ ctx0.kill = none ∧ ctx0.state ≠ .free ∧ ctx0.state ≠ .lost ∧
      (wholeBay ((blkPart true 32).extractLsb' 768 256)).isSome = true ∧ ((blkPart true 32).extractLsb' 408 8).toNat = 32 ∧ ((blkPart false 33).extractLsb' 408 8).toNat = 33) ∧
    -- the window before its end and at its end
    (s0.stopped = false ∧ s0.xclk.headD 0 < s0.window + 2 ^ 20 ∧ sPar.window + 2 ^ 20 ≤ sPar.xclk.headD 0) := by
  have hg (c : Nat) (h : c < 16) : ∀ k, ((List.replicate 16 ([] : List Nat)).set c [70]).getD k [] = if k = c then [70] else [] := by
    intro k
    simp only [List.getD_eq_getElem?_getD, List.getElem?_set, List.length_replicate, List.getElem?_replicate]
    by_cases hk : c = k
    · subst hk; simp [h]
    · have : ¬ k = c := fun x => hk x.symm
      simp only [hk, this, if_false]
      split <;> rfl
  refine ⟨?_, ⟨by decide, by decide, by decide⟩, ⟨rfl, rfl, by decide, ?_⟩, ⟨rfl, by decide, by decide⟩,
    ⟨rfl, rfl, rfl, by decide +kernel, List.mem_singleton.2 rfl, rfl, rfl, rfl, by decide, by decide, by decide +kernel, by decide +kernel, by decide +kernel⟩, ⟨rfl, by decide, by decide⟩⟩
  · intro c h
    simp only [List.mem_cons, List.not_mem_nil, or_false] at h
    rcases h with rfl | rfl | rfl <;> exact ⟨rfl, rfl, hg _ (by decide)⟩
  · intro k hk
    simp only [floorOf, ptTwo, List.getD_eq_getElem?_getD, List.getElem?_set]
    split
    · simp [isPort]
    · have : ¬ 3 = k := fun x => hk x.symm
      simp only [this, if_false, List.getElem?_replicate]
      split <;> exact Nat.zero_le _

/-- Contexts that take no doorbell. -/
def sBell (c : Ctx) : State := { sPost with ctxs := [(3, c)] }
def refN : BitVec 64 := 0x0000050000000040
def bellRead : State × Except Miss (List Byte) := dispatcherRead ((sBell ctx0).setCtx 3 { ctx0 with bells := [refN] }) 0 3 (wordRef refN) 64 64
/-- A context that is a member of domain 1, and the same card of level 5. -/
def memb0 : Ctx := { ctx0 with member := some { domain := 1, rank := 0, count := 1, devices := [1] } }
def card5 : BitVec 512 := BitVec.ofNat 512 (cardN + 4 * 2 ^ 133)
/-- Card 50 heads core 0's queue since cycle 1; its argument block is the first 128 bytes of buffer 5. -/
def qJob : QCard := { ctx := 3, card := { cardRead with arg := 0x0000050000000000, nbar := 1 }, ref := refN, key := .core 0, dev := false, since := some 1 }
def sJob (clk : Nat) : State :=
  { s0 with cards := [(50, qJob)], xclk := [clk, 0, 0, 0], parts := [(0, { v := true, want := 1, clu := 1, grant := 32 })], mem := [(0x20000, 9), (0x2007F, 8)] }
def argBytes : List Byte := 9 :: List.replicate 126 0 ++ [8]

set_option maxRecDepth 40000 in
theorem witness_CardsPosted :
    (∀ c ∈ [{ ctx0 with kill := some (7, []) }, { ctx0 with state := .lost }, { ctx0 with state := .free }],
      ((sBell c).ctx 3).bells = [] ∧ (((sBell c).ctx 3).kill.isSome ∨ ((sBell c).ctx 3).state = .lost ∨ ((sBell c).ctx 3).state = .free)) ∧
    (((sBell ctx0).ctx 3).kill = none ∧ ((sBell ctx0).ctx 3).state = .run ∧ waitsRecord (sBell ctx0) 3 refN = false ∧ bellRead = (bellRead.1, .ok (leBytes 64 cardN)) ∧
      checkCard (readCard (BitVec.ofNat 512 (leNat (leBytes 64 cardN)))) (.die 0) true = none ∧ queueLen bellRead.1 (.die 0) < 512 ∧ ∀ p ∈ bellRead.1.cards, p.2.spilled = false) ∧
    (((sBell memb0).ctx 3).member.isSome ∧ ((sBell memb0).ctx 3).kill = none ∧ ((sBell memb0).ctx 3).state = .run ∧ (readCard card5).lvl = 5 ∧
      checkCard (readCard card5) (.die 0) true = none ∧ queueLen (sBell memb0) (.die 0) < 512 ∧ ∀ p ∈ (sBell memb0).cards, p.2.spilled = false) ∧
    (∀ n ∈ [65536, 65537], tget? (sJob n).cards 50 = some qJob ∧ qJob.since = some 1) ∧ (sJob 65536).xclk.getD (keyDie qJob.key) 0 < 1 + 2 ^ 16 ∧
    1 + 2 ^ 16 ≤ (sJob 65537).xclk.getD (keyDie qJob.key) 0 ∧
    (qJob.card.lvl = 1 ∧ offered (sJob 1) 50 qJob = true ∧ placesOn (sJob 1) qJob [0] = some 0 ∧ keptBack (sJob 1) 50 qJob [0] = false ∧
      argCheck (sJob 1) qJob = ((argCheck (sJob 1) qJob).1, .ok argBytes) ∧ tsorted (argCheck (sJob 1) qJob).1.groups = true ∧
      ∀ p ∈ (argCheck (sJob 1) qJob).1.groups, p.1 < (argCheck (sJob 1) qJob).1.fresh ∧ p.2.iid < (argCheck (sJob 1) qJob).1.fresh) := by
  refine ⟨?_, ⟨rfl, rfl, rfl, reached_sound (by decide +kernel), by decide +kernel, by decide +kernel, by decide +kernel⟩,
    ⟨rfl, rfl, rfl, by decide +kernel, by decide +kernel, by decide, by decide⟩, ?_, by decide, by decide,
    ⟨rfl, by decide +kernel, by decide +kernel, by decide +kernel, reached_sound (by decide +kernel), by decide +kernel, by decide +kernel⟩⟩
  · intro c h
    simp only [List.mem_cons, List.not_mem_nil, or_false] at h
    rcases h with rfl | rfl | rfl <;> exact ⟨rfl, by decide⟩
  · intro n h
    simp only [List.mem_cons, List.not_mem_nil, or_false] at h
    rcases h with rfl | rfl <;> exact ⟨rfl, rfl⟩

/-- The instance of `inst0` at a step of its completion, with the parts of its card given. -/
def instAt (stage : Nat) (f : QCard → QCard) : Inst := { inst0 with stage := stage, q := f inst0.q, nthr := 5, ntok := 6, ftok := some (1, 0x41000001), flags := 3 }
def sCmp (i : Inst) : State := { s0 with insts := [(7, i)] }
/-- A record at 5:0x20 and one of an absent buffer; additions to an absent buffer. -/
def withRec (r : Word64) (q : QCard) : QCard := { q with card := { q.card with cr := true, crec := r } }
def withAdd (q : QCard) : QCard := { q with card := { q.card with ca := true, cadd := 0x0000080000000000 } }
def recAcc (r : Word64) : State × Except Miss Hit := access (sCmp (instAt 1 (withRec r))) (64 * keyDie (instAt 1 (withRec r)).q.key) 3 (wordRef r) 0 32 32 kindWrite
def addAcc : State × Except Miss Hit := access (sCmp (instAt 2 withAdd)) (64 * keyDie (instAt 2 withAdd).q.key) 3 (wordRef 0x0000080000000000) 0 4 4 kindAtomic
/-- The core group's only thread has exited; another group of the instance or none. -/
def tGone : Thread := { t0 with status := .exited }
def sEnded (more : Bool) : State := { st tGone with groups := if more then [(9, grp0), (10, { grp0 with core := 1 })] else [(9, grp0)] }
def sWait : State := { s0 with waitingNotices := [(1, (9, [1, 2, 3, 4])), (4, (9, [5, 6, 7, 8]))] }

set_option maxRecDepth 40000 in
theorem witness_CardsCompleted :
    (∀ p ∈ [(0, id), (1, id), (1, withRec 0x0000050000000020), (1, withRec 0x0000080000000000), (2, id), (2, withAdd), (3, id), (3, fun q => { q with fill := some (2, 12) }), (4, id),
        (4, fun q => { q with notice := some 9 })], let i := instAt p.1 p.2
      tget? (sCmp i).insts 7 = some i ∧ (sCmp i).stopped = false ∧ ((sCmp i).ctx i.q.ctx).kill = none ∧ i.q.forwarded = false ∧ i.stage = p.1 ∧ i.q.card.lvl < 5 ∧ i.ntok < 2 ^ 32) ∧
    ((instAt 1 id).q.card.cr = false ∧ (instAt 2 id).q.card.ca = false ∧ (instAt 3 id).q.fill = none ∧ (instAt 4 id).q.notice = none) ∧
    (recAcc 0x0000050000000020 = ((recAcc 0x0000050000000020).1, .ok (hit0 0x20 32)) ∧ (hit0 0x20 32).pas.head? = some 0x20020 ∧ (∀ k, k < 32 → isHbm (0x20020 + k) = true) ∧
      recAcc 0x0000080000000000 = ((recAcc 0x0000080000000000).1, .error (.fault 4))) ∧
    addAcc = (addAcc.1, .error (.fault 4)) ∧ (tget? (sCmp inst0).threads 2 = some t0 ∧ t0.status ≠ .exited) ∧
    (tget? (sCmp inst0).groups 9 = some grp0 ∧ viewHeld grp0 < 64 ∧ ∀ n ∈ (sCmp inst0).waitingNotices, n.2.1 ≠ 9) ∧
    (tget? sWait.waitingNotices 1 = some (9, [1, 2, 3, 4]) ∧ tget? sWait.groups 9 = some grp0 ∧ ∀ n ∈ sWait.waitingNotices, n.2.1 = 9 → 1 ≤ n.1) ∧
    (∀ more ∈ [true, false], tget? (sEnded more).groups 9 = some grp0 ∧ tget? (sEnded more).insts 7 = some inst0 ∧ inst0.reserving = false ∧
      groupEnded (sEnded more) 9 grp0 = true ∧ (sEnded more).cards = [] ∧ tsorted (sEnded more).groups = true) ∧
    ((∃ x ∈ (sEnded true).groups, x.1 ≠ 9 ∧ x.2.iid = 7) ∧ ∀ x ∈ (sEnded false).groups, x.1 ≠ 9 → x.2.iid ≠ 7) := by
  refine ⟨?_, ⟨rfl, rfl, rfl, rfl⟩, ⟨reached_sound (by decide +kernel), rfl, by decide, missed_sound (by decide +kernel)⟩, missed_sound (by decide +kernel),
    ⟨rfl, by decide⟩, ⟨rfl, by decide, by decide⟩, ⟨rfl, rfl, by decide⟩, ?_, ⟨(10, { grp0 with core := 1 }), by decide +kernel, by decide, rfl⟩, by decide +kernel⟩
  · intro p h
    simp only [List.mem_cons, List.not_mem_nil, or_false] at h
    rcases h with rfl | rfl | rfl | rfl | rfl | rfl | rfl | rfl | rfl | rfl <;> exact ⟨rfl, rfl, rfl, rfl, rfl, by decide, by decide⟩
  · intro m h
    simp only [List.mem_cons, List.not_mem_nil, or_false] at h
    rcases h with rfl | rfl <;> exact ⟨rfl, rfl, rfl, by decide +kernel, rfl, rfl⟩

/-- Contexts before a pre-emption command, and while they drain and save with deadlines of 5 and 6 cycles since cycle 1 of die 3. -/
def sCtx (c : Ctx) : State := { s0 with ctxs := [(3, c)], xclk := [0, 0, 0, 7] }
def ctxDr : Ctx := { ctx0 with state := .draining, dl1 := 5, since := [9, 9, 9, 1] }
def ctxSv : Ctx := { ctx0 with state := .saving, dl2 := 6, since := [9, 9, 9, 1] }
/-- Room for a Hamper: none, and as much as it takes in pages. -/
def sSv (n : Nat) : State := rewindDecrypt (dropReservations (sCtx { ctxSv with hlen := n }) 3) 3
def imgSv : Image := imageOf (sSv 0) 3 false
def usedSv : Nat := 64 + (hamperSections (sSv 0) 3 imgSv).length
/-- A saved image of no groups, and one of everything of thread 2's group; their first 20 bytes, at 0x20000, are as saved. -/
def verBytes : List Byte := leBytes 2 Config.imageVersion.toNat
def imgBytes : List Byte := [0x60, 0xA9, 0x41, 0x48] ++ List.replicate 14 0 ++ verBytes
def imgAll : Image := { ver := Config.imageVersion.toNat, dr := false, threads := [(2, t0)], groups := [(9, grp0)], cgroups := [(8, cgrp0)], insts := [(7, inst0)], bytes := imgBytes }
def imgNone : Image := { ver := Config.imageVersion.toNat, dr := true, bytes := imgBytes }
def ctxImg (i : Image) : Ctx := { ctx0 with state := .saved, hamper := 0x20000, hlen := 1, image := some i }
def sImg (i : Image) : State :=
  { s0 with ctxs := [(3, ctxImg i)], threads := [], groups := [], cgroups := [], insts := []
            lines := [{ line := 0x800, victim := false, dirty := (List.range 20).map fun k => (k, imgBytes.getD k 0) }] }
/-- The context waits for its one instance; clusters 0 and 1 are its partition's. -/
def ctxRs : Ctx := { ctxImg imgAll with state := .resuming, unplaced := [7] }
def sRs : State := { sImg imgAll with ctxs := [(3, ctxRs)], parts := [(0, { v := true, want := 3, clu := 3, grant := 32 })] }
def mv1 : Move := { cgid := 8, old := cgrp0, dix := 0, cl := 1 }

theorem hamper_good (i : Image) (h : i.bytes = imgBytes) : hamperRead (sImg i) 3 = .ok i := by
  have h0 : (sImg i).ctx 3 = ctxImg i := rfl
  have h1 : physBytes (sImg i) 0x20000 4 = [0x60, 0xA9, 0x41, 0x48] := rfl
  have h2 : physBytes (sImg i) (0x20000 + 18) 2 = verBytes := rfl
  have h3 : physBytes (sImg i) 0x20000 imgBytes.length = imgBytes := rfl
  have h4 : leNat verBytes = Config.imageVersion.toNat := by
    rw [verBytes, leNat_leBytes]; exact Nat.mod_eq_of_lt Config.imageVersion.isLt
  have h5 : (0x20000 : BitVec 64).toNat / 4096 * 4096 = 0x20000 := by decide
  have h6 : leNat ([0x60, 0xA9, 0x41, 0x48] : List Byte) = 0x4841A960 := by decide
  have h7 : leNat (physBytes (sImg i) (0x20000 + 20) 4) = 0 := by rw [show physBytes (sImg i) (0x20000 + 20) 4 = [0, 0, 0, 0] from rfl]; rfl
  have h8 : leNat (physBytes (sImg i) (0x20000 + 24) 8) = 0 := by
    rw [show physBytes (sImg i) (0x20000 + 24) 8 = [0, 0, 0, 0, 0, 0, 0, 0] from rfl]; rfl
  simp only [hamperRead, h0, ctxImg, h5, h, h1, h2, h3, h4, h6, h7, h8, sectionsGood, ne_eq, not_true_eq_false, if_false, if_true, Nat.not_lt_zero,
    decide_false, Bool.not_true, Bool.or_self, Bool.false_eq_true]

set_option maxRecDepth 40000 in
theorem witness_ContextsSaved :
    (∀ c ∈ [ctx0, { ctx0 with dl1 := 5 }, ctxDr, ctxSv, { ctxSv with hlen := usedSv }, ctxImg imgNone, { ctxImg imgNone with image := none }],
      c = (sCtx c).ctx 3 ∧ c.member = none ∧ c.kill = none ∧ hostAnswers (sCtx c) = true) ∧
    (ctx0.state = .run ∧ ctx0.dl1 = 0 ∧ ctxDr.state = .draining ∧ (∃ d, d < 4 ∧ ctxDr.since.getD d 0 + ctxDr.dl1 ≤ (sCtx ctxDr).xclk.getD d 0) ∧
      ∃ g ∈ (sCtx ctxDr).groups, ∃ k, tget? (sCtx ctxDr).insts g.2.iid = some k ∧ k.q.ctx = 3) ∧
    (ctxSv.state = .saving ∧ ctxSv.dl2 ≠ 0 ∧ ∃ d, d < 4 ∧ ctxSv.since.getD d 0 + ctxSv.dl2 ≤ (sCtx ctxSv).xclk.getD d 0) ∧
    (∀ n ∈ [0, usedSv], quiesced (sCtx { ctxSv with hlen := n }) 3 = true ∧ tsorted (sCtx { ctxSv with hlen := n }).groups = true ∧
      imageOf (sSv n) 3 false = imgSv ∧ 64 + (hamperSections (sSv n) 3 imgSv).length = usedSv) ∧
    (0 * 4096 < usedSv ∧ usedSv ≤ usedSv * 4096 ∧ (∃ k, (grp0.iid, k) ∈ (sCtx ctxSv).insts ∧ k.q.ctx = 3 ∧ k.reserving = false)) ∧
    hamperRead (sCtx { ctxImg imgNone with image := none }) 3 = .error 4 ∧
    (∀ i ∈ [imgNone, imgAll], ctxImg i = (sImg i).ctx 3 ∧ hamperRead (sImg i) 3 = .ok i ∧ (ctxImg i).image = some i ∧ (ctxImg i).state = .saved ∧
      (ctxImg i).member = none ∧ (ctxImg i).kill = none) ∧
    (ctxRs = sRs.ctx 3 ∧ ctxRs.state = .resuming ∧ ctxRs.image = some imgAll ∧ ctxRs.unplaced = [7] ∧ tget? imgAll.insts 7 = some inst0 ∧ tsorted imgAll.groups = true ∧
      tsorted imgAll.threads = true ∧ movesOf imgAll ([(9, grp0)].zip [4]) = some [mv1] ∧ takesMove sRs 0 mv1 = true ∧ shapeKept sRs 3 [mv1] = true ∧
      coresHold inst0.tsz ([(9, grp0)].zip [4]) = true) := by
  refine ⟨?_, ⟨rfl, rfl, rfl, ⟨3, by decide, by decide⟩, ⟨(9, grp0), List.mem_singleton.2 rfl, inst0, rfl, rfl⟩⟩, ⟨rfl, by decide, ⟨3, by decide, by decide⟩⟩, ?_,
    ⟨by unfold usedSv; omega, by omega, ⟨inst0, List.mem_singleton.2 rfl, rfl, rfl⟩⟩, rfl, ?_,
    ⟨rfl, rfl, rfl, rfl, rfl, rfl, rfl, by decide +kernel, by decide +kernel, by decide +kernel, by decide +kernel⟩⟩
  · intro c h
    simp only [List.mem_cons, List.not_mem_nil, or_false] at h
    rcases h with rfl | rfl | rfl | rfl | rfl | rfl | rfl <;> exact ⟨rfl, rfl, rfl, rfl⟩
  · have h (n : Nat) : quiesced (sCtx { ctxSv with hlen := n }) 3 = true ∧ tsorted (sCtx { ctxSv with hlen := n }).groups = true ∧
        imageOf (sSv n) 3 false = imgSv ∧ 64 + (hamperSections (sSv n) 3 imgSv).length = usedSv := ⟨rfl, rfl, rfl, rfl⟩
    exact fun n _ => h n
  · intro i h
    simp only [List.mem_cons, List.not_mem_nil, or_false] at h
    rcases h with rfl | rfl <;> exact ⟨rfl, hamper_good _ rfl, rfl, rfl, rfl, rfl⟩

/-- Descriptors (R379) of partition 0 at 0x20080: well-formed, with a reserved bit set. -/
def descN : Nat :=
  0xFFFF * (2 ^ 240 * 2 ^ 240 * 2 ^ 240 * 2 ^ 160) + 1 * (2 ^ 208 * 2 ^ 208 * 2 ^ 208 * 2 ^ 208) + 0x7F * (2 ^ 192 * 2 ^ 192 * 2 ^ 192 * 2 ^ 192) + 0x0000010000002001 * (2 ^ 160 * 2 ^ 160 * 2 ^ 160 * 2 ^ 160) +
    9 * (2 ^ 144 * 2 ^ 144 * 2 ^ 144 * 2 ^ 144) + 0xC0 * (2 ^ 192 * 2 ^ 192) + 0x80 * (2 ^ 160 * 2 ^ 160) + 0x40 * 2 ^ 256 + 0x5000 * 2 ^ 192 + 0x4000 * 2 ^ 128 + 2 ^ 24 * 2 ^ 64 + 0x3000
def ctxFree : Ctx := { dl1 := 5, dl2 := 6, hamper := 0x70000 }
def sDesc (c : Ctx) (n : Nat) (v : Bool) : State := { s0 with ctxs := [(3, c)], parts := [(0, { v := v })], mem := memWrites [] (cellsAt 0x20080 (leBytes 128 n)) }
/-- A kill that is noticed, and one that is carried out and waits for its ring, at 0x20000. -/
def ctxKill : Ctx := { ctx0 with kill := some (5, []) }
def ctxPurged : Ctx := { ctx0 with kill := some (5, []), purged := true, lring := 0x20000 }
def ringHdr : List Byte := List.replicate 22 0 ++ [6, 1, 0x40] ++ [0, 2] ++ List.replicate 37 0
def sLoss (hdr : List Byte) : State := { s0 with ctxs := [(3, ctxPurged)], mem := memWrites [] (cellsAt 0x20000 hdr) }

set_option maxRecDepth 40000 in
theorem witness_ContextsCreated :
    (∀ c ∈ [ctx0, ctxFree, { ctx0 with state := .lost }, ctxKill], let s := sDesc c descN true
      c = s.ctx 3 ∧ hostAnswers s = true ∧ ∀ x ∈ s.ctxs, x.2.destroying = false) ∧
    (ctx0.state ≠ .free ∧ ctx0.state ≠ .lost ∧ ctx0.kill = none ∧ ctxFree.state = .free) ∧
    -- addresses: 2^52, not a multiple of 128, in no memory; the descriptor's
    ((2 ^ 52 ≤ (0x10000000000000 : BitVec 64).toNat) ∧ (0x20090 : BitVec 64).toNat % 128 ≠ 0 ∧ populated (0x6000000000 : BitVec 64).toNat = false ∧
      (0x20080 : BitVec 64).toNat < 2 ^ 52 ∧ (0x20080 : BitVec 64).toNat % 128 = 0 ∧ populated (0x20080 : BitVec 64).toNat = true) ∧
    (BitVec.ofNat 1024 (leNat (physBytes (sDesc ctxFree descN true) 0x20080 128)) = BitVec.ofNat 1024 descN ∧ ((BitVec.ofNat 1024 descN).extractLsb' 864 6).toNat = 0 ∧
      descOk (BitVec.ofNat 1024 descN) = true ∧ descOk (BitVec.ofNat 1024 (leNat (physBytes (sDesc ctxFree (descN + 2 ^ 52) true) 0x20080 128))) = false ∧
      ((sDesc ctxFree descN true).part 0).v = true ∧ ((sDesc ctxFree descN false).part 0).v = false) ∧
    (ctxKill.kill = some (5, []) ∧ ctxKill.purged = false ∧ ctxKill.member = none ∧ (∀ p ∈ (sDesc ctxKill descN true).qps, p.2.ctx ≠ 3) ∧
      tsorted (sDesc ctxKill descN true).groups = true ∧ (9, grp0) ∈ (sDesc ctxKill descN true).groups ∧ (7, inst0) ∈ (sDesc ctxKill descN true).insts ∧ inst0.q.ctx = 3) ∧
    (∀ hdr ∈ [ringHdr, []], ctxPurged = (sLoss hdr).ctx 3 ∧ ctxPurged.kill = some (5, []) ∧ ctxPurged.purged = true ∧ ∀ x ∈ (sLoss hdr).ctxs, x.2.destroying = false) ∧
    (pushRing (sLoss []) some ctxPurged.lring (lossRecord (sLoss []) 3 5 []) = none ∧ (pushRing (sLoss ringHdr) some ctxPurged.lring (lossRecord (sLoss ringHdr) 3 5 [])).isSome = true) := by
  refine ⟨?_, ⟨by decide, by decide, rfl, rfl⟩, ⟨by decide, by decide, by decide +kernel, by decide, by decide, rfl⟩, ⟨by decide +kernel, by decide +kernel, by decide +kernel, by decide +kernel, rfl, rfl⟩,
    ⟨rfl, rfl, rfl, each0, rfl, List.mem_singleton.2 rfl, List.mem_singleton.2 rfl, rfl⟩, ?_, ⟨Option.isNone_iff_eq_none.1 (by decide +kernel), by decide +kernel⟩⟩
  · intro c h
    simp only [List.mem_cons, List.not_mem_nil, or_false] at h
    rcases h with rfl | rfl | rfl | rfl <;> exact ⟨rfl, rfl, by intro x hx; rw [List.mem_singleton.1 hx]; rfl⟩
  · intro hdr h
    exact ⟨rfl, rfl, rfl, by intro x hx; rw [List.mem_singleton.1 hx]; rfl⟩

/-- A DESTROY waits; contexts for the host window's commands. -/
def sBusy : State := { s0 with ctxs := [(3, ctx0), (5, { ctx0 with destroying := true })] }
def world7 : World := { live := true, owner := 3, tag := 2, nslot := 2, pending := [1], missq := [[1, 2, 3, 4]] }
def sHst (c : Ctx) : State :=
  { s0 with ctxs := [(3, c)], worlds := [(7, world7), (8, { world7 with live := false }), (9, { world7 with owner := 5 })], lantern := [{ tile true 0 none with world := 7 }], vfSlots := [(519, 3)], cards := [], insts := []
            mem := memWrites [] (cellsAt 0x20000 (List.replicate 255 9 ++ [0])), recs := [{ rec1 with kind := 1, addr := 0x30008 }] }
def ctxVf : Ctx := { ctx0 with vfs := [(64, 7), (2, 3)] }
/-- Tags 4095; grants without reserved bits; 2^24 slots; slot 7 of function 64; member 255 of 256 of domain 0xFFFF. -/
def a1W : BitVec 64 := BitVec.ofNat 64 (2 ^ 24 * 4096 + 0xFFF)
def a0B (fn slot : Nat) : BitVec 64 := BitVec.ofNat 64 (fn + 256 * slot)
def a0J : BitVec 64 := BitVec.ofNat 64 (0xFFFF + 2 ^ 16 * 255 + 2 ^ 24 * 255)

set_option maxRecDepth 40000 in
theorem witness_HostCommands :
    (hostAnswers sBusy = true ∧ ∃ x ∈ sBusy.ctxs, x.2.destroying = true) ∧
    (∀ c ∈ [ctx0, ctxVf, memb0], c = (sHst c).ctx 3 ∧ hostAnswers (sHst c) = true ∧ (∀ x ∈ (sHst c).ctxs, x.2.destroying = false) ∧ ctxExists (sHst c) 3 = true ∧ ctxExists (sHst c) 4 = false) ∧
    ((0x1FFF : BitVec 64).toNat < 2 ^ 13 ∧ 2 ^ 13 ≤ (0x2000 : BitVec 64).toNat) ∧
    ((63 : BitVec 64).toNat < 64 ∧ grantW.extractLsb' 53 6 = 0 ∧ grantW.extractLsb' 36 5 = 0) ∧
    (2 ^ 24 = (a1W.extractLsb' 12 25).toNat ∧ (4095 : BitVec 64).toNat < 2 ^ 12 ∧ a1W.toNat < 2 ^ 37 ∧ (∀ w, tget? (sHst ctx0).worlds 4095 = some w → w.live = false)) ∧
    (tget? (sHst ctx0).worlds 7 = some world7 ∧ world7.live = true ∧ world7.owner = 3 ∧ tget? (sHst ctx0).worlds 8 = some { world7 with live := false } ∧
      tget? (sHst ctx0).worlds 9 = some { world7 with owner := 5 }) ∧
    ((a0B 0 7).toNat = 0 + 256 * 7 ∧ (a0B 64 7).toNat = 64 + 256 * 7 ∧ (a0B 64 0).toNat = 64 + 256 * 0 ∧ tget? (sHst ctx0).vfSlots (8 * 64 + 0) = none ∧
      (tget? (sHst ctx0).vfSlots (8 * 64 + 7)).isSome) ∧
    (memb0.member.isSome ∧ ctx0.member = none ∧ a0J.toNat = 0xFFFF + 2 ^ 16 * 255 + 2 ^ 24 * (256 - 1) ∧ (0x20000 : BitVec 64).toNat < 2 ^ 52 ∧ populated (0x20000 : BitVec 64).toNat = true ∧
      (∀ p ∈ (sHst ctx0).cards, p.2.ctx ≠ 3) ∧ (∀ p ∈ (sHst ctx0).insts, p.2.q.ctx ≠ 3) ∧
      ((sHst ctx0).viewByte .domain ((0x20000 : BitVec 64).toNat + 255)).toNat = (sHst ctx0).device) ∧
    ((0x30000 : BitVec 64).toNat % 4096 = 0 ∧ (0x30000 : BitVec 64).toNat < 2 ^ 52) := by
  refine ⟨⟨rfl, ⟨_, List.mem_cons_of_mem _ (List.mem_singleton.2 rfl), rfl⟩⟩, ?_, ⟨by decide, by decide⟩, ⟨by decide, by decide, by decide⟩,
    ⟨by decide, by decide, by decide, fun w h => by cases h⟩, ⟨rfl, rfl, rfl, rfl, rfl⟩, ⟨by decide, by decide, by decide, rfl, rfl⟩,
    ⟨by decide, rfl, by decide, by decide, rfl, each0, each0, by decide +kernel⟩, ⟨by decide, by decide⟩⟩
  intro c h
  simp only [List.mem_cons, List.not_mem_nil, or_false] at h
  rcases h with rfl | rfl | rfl <;> exact ⟨rfl, rfl, by intro x hx; rw [List.mem_singleton.1 hx]; rfl, rfl, rfl⟩

/-- CREATE of context 511 and DESTROY of context 3 (R380). -/
def cmdCreate : BitVec 64 := 0x000101FF00000000
def cmdDestroy : BitVec 64 := 0x0002000300000000

theorem witness_HostRegisters :
    hostAnswers s0 = true ∧ cmdCreate.extractLsb' 48 8 = 1 ∧ cmdDestroy.extractLsb' 48 8 = 2 ∧ 0x102 % 4 ≠ 0 ∧ (2 ≠ 4 ∧ 2 ≠ 8) ∧ 0x400000 ≤ 0x400000 := by decide

/-- Descriptors of queue pairs (R405) at 0x20080: of port 19 and MTU 12, of a context that does not exist, with a reserved bit set. -/
def qpDesc (cx : Nat) : Nat :=
  0x31000 * (2 ^ 224 * 2 ^ 224) + 0x32000 * (2 ^ 192 * 2 ^ 192) + 0x33000 * (2 ^ 160 * 2 ^ 160) + 7 * (2 ^ 148 * 2 ^ 148) + 3 * (2 ^ 136 * 2 ^ 136) +
    19 * 2 ^ 259 + 3 * 2 ^ 256 + 12 * 2 ^ 248 + cx * 2 ^ 232
/-- A queue pair of context 3 whose remote requests may name the buffers 5 to 7. -/
def qp0 : Qp :=
  { st := .rts, ctx := 3, ud := false, lport := 19, mtu := 12, rr := true, rw := true, ra := true, rfirst := 5, rlast := 7, sq := 0, rq := 0, cq := 0, path := 0 }
/-- One whose rings lie at 0x20100, with five entries to send and to receive. -/
def qp1 : Qp := { qp0 with sq := 0x20100, rq := 0x20100, st := .rtr }
def qpNone : Qp := { qp0 with rr := false, rw := false, ra := false }
def qpFly (op : Nat) : Qp := { qp0 with inflight := [{ idx := 1, op := op, lref := 0, len := 8, sig := false, raddr := 0, cmp := 0, swap := 0, imm := none, data := [] }, { idx := 2, op := 0, lref := 0, len := 8, sig := true, raddr := 0, cmp := 0, swap := 0, imm := none, data := [] }] }
def qRing : List Byte := [0, 0, 0, 0, 5] ++ List.replicate 17 0 ++ [6, 3, 0x40] ++ [0, 2] ++ List.replicate 37 0
/-- Stage 2 of context 3 at 0x21000 maps the first 1 GiB to itself (R174); Ethernet port 4 has four logical ports. -/
def sQp (qps : Tab Qp) (desc : Nat) : State :=
  { s0 with
    qps := qps, ctxs := [(3, { ctx0 with s2root := 0x21000 })], ethMode := [0, 0, 0, 0, 3]
    mem := memWrites [] (cellsAt 0x20080 (leBytes 64 desc) ++ cellsAt 0x20100 qRing ++ cellsAt 0x21000 (leBytes 8 0x22001) ++ cellsAt 0x22000 (leBytes 8 0x23001) ++
      cellsAt 0x23000 (leBytes 8 0xF)) }
def sQ (q : Qp) : State := sQp [(9, q)] (qpDesc 3)
def dOf (s : State) : BitVec 512 := BitVec.ofNat 512 (leNat (physBytes s 0x20080 64))
def accQp (n : Nat) (k : AKind) : State × Except Miss Hit := access (sQ qp0) 0 3 (wordRef 0x0000050000000010) 0 n 1 k

set_option maxRecDepth 40000 in
theorem witness_QueuePairsAreManaged :
    (∀ q ∈ [qp0, qp1, qpNone, qpFly 0], hostAnswers (sQ q) = true ∧ (∀ x ∈ (sQ q).ctxs, x.2.destroying = false) ∧ tget? (sQ q).qps 9 = some q ∧
      lportUp (sQ q) q.lport = true ∧ q.ud = false ∧ (q.st = .rtr ∨ q.st = .rts)) ∧
    (tget? (sQ qp0).qps 8 = none) ∧
    -- addresses: 2 ^ 52, not a multiple of 64, in no memory; the descriptor's
    ((2 ^ 52 ≤ (0x10000000000000 : BitVec 64).toNat) ∧ (0x20090 : BitVec 64).toNat % 64 ≠ 0 ∧ populated (0x6000000000 : BitVec 64).toNat = false ∧
      (0x20080 : BitVec 64).toNat < 2 ^ 52 ∧ (0x20080 : BitVec 64).toNat % 64 = 0 ∧ populated (0x20080 : BitVec 64).toNat = true) ∧
    (∀ p ∈ [(3, true), (4, false)], let d := dOf (sQp [] (qpDesc p.1))
      d.extractLsb' 265 7 = 0 ∧ d.extractLsb' 241 7 = 0 ∧ d.extractLsb' 0 232 = 0 ∧ (d.extractLsb' 259 5).toNat < 20 ∧ 8 ≤ (d.extractLsb' 248 8).toNat ∧
        (d.extractLsb' 248 8).toNat ≤ 12 ∧ ctxExists (sQp [] (qpDesc p.1)) (d.extractLsb' 232 9).toNat = p.2) ∧
    -- nothing under way and no rings; doorbells for the receive and the send queue; work under way
    (qp0.inflight = [] ∧ ringTail (sQ qp0) qp0.ctx qp0.sq = none ∧ qp0.sqTail = 0 ∧ ringTail (sQ qp0) qp0.ctx qp0.rq = none ∧ qp0.rqTail = 0) ∧
    (qp1.ctx = 3 ∧ ((0x10009 : BitVec 64).extractLsb' 0 16).toNat = 9 ∧ (0x10009 : BitVec 64).getLsbD 16 = true ∧ ((9 : BitVec 64).extractLsb' 0 16).toNat = 9 ∧
      (9 : BitVec 64).getLsbD 16 = false ∧ qp1.st ≠ .rts ∧ ringTail (sQ qp1) 3 qp1.rq = some 5) ∧
    (∀ op ∈ [0, 1, 4], (qpFly op).inflight = { idx := 1, op := op, lref := 0, len := 8, sig := false, raddr := 0, cmp := 0, swap := 0, imm := none, data := [] } :: [{ idx := 2, op := 0, lref := 0, len := 8, sig := true, raddr := 0, cmp := 0, swap := 0, imm := none, data := [] }] ∧
      (qpFly op).st = .rts) ∧
    -- remote requests: buffers 4 and 8, no rights, no receive entry; a read and a write of 16 bytes
    ((wordRef 0x0000040000000010).index.toNat < qp0.rfirst ∧ qp0.rlast < (wordRef 0x0000080000000010).index.toNat ∧ qpNone.rr = false ∧ qpNone.rw = false ∧
      qpNone.ra = false ∧ pendingOf (sQ qp0) qp0.ctx qp0.rq qp0.rqTail = []) ∧
    (accQp 16 kindRead = ((accQp 16 kindRead).1, .ok (hit0 0x10 16)) ∧
      (∀ pa ∈ (hit0 0x10 16).pas, (accQp 16 kindRead).1.viewMarked .domain (pa / 64) = false ∧ clashing (accQp 16 kindRead).1 pa = false) ∧
      accQp 16 kindWrite = ((accQp 16 kindWrite).1, .ok (hit0 0x10 16)) ∧ (hit0 0x10 16).pas = (List.range (List.replicate 16 (5 : Byte)).length).map (0x20010 + ·) ∧
      ∀ k, k < 16 → isHbm (0x20010 + k) = true) := by
  refine ⟨?_, rfl, ⟨by decide, by decide, by decide +kernel, by decide, by decide, rfl⟩, by decide +kernel, ⟨rfl, Option.isNone_iff_eq_none.1 (by decide +kernel), rfl,
    Option.isNone_iff_eq_none.1 (by decide +kernel), rfl⟩, ⟨rfl, by decide, by decide, by decide, by decide, by decide, by decide +kernel⟩, ?_,
    ⟨by decide, by decide, rfl, rfl, rfl, by decide +kernel⟩, ⟨reached_sound (by decide +kernel), ?_, reached_sound (by decide +kernel), rfl, by decide⟩⟩
  · intro q h
    simp only [List.mem_cons, List.not_mem_nil, or_false] at h
    rcases h with rfl | rfl | rfl | rfl <;> exact ⟨rfl, by intro x hx; rw [List.mem_singleton.1 hx]; rfl, rfl, rfl, rfl, by decide⟩
  · intro op h
    simp only [List.mem_cons, List.not_mem_nil, or_false] at h
    rcases h with rfl | rfl | rfl <;> exact ⟨rfl, rfl⟩
  · have h : readableB (accQp 16 kindRead).1 .domain (hit0 0x10 16).pas = true := by decide +kernel
    exact fun pa hp => ⟨(readableB_sound h pa hp).clean, (readableB_sound h pa hp).plain⟩

/-- The interface of function 9 in a state; a slot of it, and one of function 8. -/
def tdRun : Tdi := { st := .run, stream := true, ranges := [(0, 4096)], kwk := some 7 }
def tdLock : Tdi := { tdRun with st := .locked, kwk := none }
def sTdi (t : Tdi) : State :=
  { s0 with tdis := [(8, tdRun), (9, t)], slots := [(2, { slotK with tdi := 9 }), (3, { slotK with tdi := 8 })], spdm := some 5, spdmPending := true }
/-- Context 3 is bound through function 9, context 5 through function 8. -/
def sVf : State := { s0 with ctxs := [(3, { ctx0 with vfs := [(9, 1), (10, 2)] }), (5, { ctx0 with vfs := [(8, 1)] })], tdis := [(9, tdLock)] }
def sPow (p : Power) : State := { s0 with power := p, staged := some 4, mem := [(0x20010, 9)] }
/-- Islands at one step below the top and at the top of their ranges. -/
def sIsl (l : Tab Nat) : State := { s0 with freq := l }

set_option maxRecDepth 40000 in
theorem witness_SecureInterfacesAndResetsKeepWhatTheyMust :
    (∀ p ∈ [({}, TdiState.unlocked), (tdLock, .locked), (tdRun, .run), ({ st := .error }, .error)],
      p.1 = tgetD {} (sTdi p.1).tdis 9 ∧ hostAnswers (sTdi p.1) = true ∧ p.1.st = p.2 ∧ ∀ u ∈ (sTdi p.1).clusters, ∀ c ∈ u.2.copies, c.started = false ∨ c.blk.dec = false) ∧
    (tdLock.stream = true ∧ ({ tdLock with stream := false } : Tdi).stream = false ∧ tdRun.stream = true ∧ ({} : Tdi).stream = false) ∧
    ((sTdi {}).spdmPending = true ∧ s0.spdmPending = false ∧ (sTdi {}).spdm.isSome = true ∧ s0.spdm = none ∧ (tgetD {} s0.tdis 1).st = .unlocked ∧
      (tgetD {} s0.tdis 64).st = .unlocked) ∧
    -- power states, the resets of function 9, limits of power
    ((sPow .ready).power = .ready ∧ (sPow .booting).power ≠ .off ∧ (sPow .booting).power ≠ .ready ∧ (sPow .booting).power ≠ .recovery) ∧
    (hostAnswers sVf = true ∧ (tgetD {} sVf.tdis 9).st ≠ .run ∧ tsorted sVf.ctxs = true ∧ tget? sVf.ctxs 3 = some { ctx0 with vfs := [(9, 1), (10, 2)] } ∧
      (9, 1) ∈ (sVf.ctx 3).vfs ∧ tget? sVf.ctxs 5 = some { ctx0 with vfs := [(8, 1)] } ∧ (∀ v ∈ (sVf.ctx 5).vfs, v.1 ≠ 9) ∧ ctx0.kill = none ∧ ctx0.state ≠ .free ∧ ctx0.state ≠ .lost) ∧
    ((1200 ≤ 1200 ∧ 1200 ≤ 3200) ∧ (1200 ≤ 3200 ∧ 3200 ≤ 3200) ∧ ¬ (1200 ≤ 1199) ∧ ¬ (3201 ≤ 3200)) ∧
    -- island 15 above its least and below its top, islands 24 and 25 at their tops; L2 islands while a compute island stands above its least
    ((tget? (sIsl [(15, 2800)]).freq 15).getD 3000 + 100 < 3000 ∧ 3000 ≤ (tget? (sIsl [(15, 2900)]).freq 15).getD 3000 + 100 ∧
      1000 + 100 ≤ (tget? (sIsl [(15, 1100)]).freq 15).getD 3000 ∧ (tget? s0.freq 24).getD 2000 = 2000 ∧ (tget? s0.freq 25).getD 1500 = 1500 ∧ s0.power = .ready ∧
      (∃ j, j < 128 ∧ j % 32 < 16 ∧ (tget? s0.freq j).getD 3000 ≠ 1000)) := by
  refine ⟨?_, ⟨rfl, rfl, rfl, rfl⟩, ⟨rfl, rfl, rfl, rfl, rfl, rfl⟩, ⟨rfl, by decide, by decide, by decide⟩,
    ⟨rfl, by decide, rfl, rfl, by decide, rfl, by decide, rfl, by decide, by decide⟩, by decide, ⟨by decide, by decide, by decide, rfl, rfl, rfl, ⟨0, by decide, by decide, by decide⟩⟩⟩
  intro p h
  have hc : ∀ u ∈ [((0 : Nat), clu0)], ∀ c ∈ u.2.copies, c.started = false ∨ c.blk.dec = false := by decide
  simp only [List.mem_cons, List.not_mem_nil, or_false] at h
  rcases h with rfl | rfl | rfl | rfl <;> exact ⟨rfl, rfl, rfl, hc⟩

theorem witness_AccessChecks : ∀ tier, tierBlock? s0 tier = none := by
  intro tier
  match tier with
  | 0 => rfl
  | 1 => rfl
  | n + 2 => simp [tierBlock?, bitOf, s0, st, State.reset]

/-! ## The spec's worked examples -/

/-- (!p3) FADD.F32.RZ x12, x9!, x40; IADD x4, #3 || FMUL x9, x13 (chapter 2); (p2) BR.P5 −6 parcels (chapter 4); LD.64.sp x10, [x4+0x40] (chapter 6). -/
def worked : List Instr := [
  .fadd { h := { sp := false, pn := true, pg := 3 }, ty := .f32, rnd := .rz, fzo := false, clamp := false, dst := .x 12, a := fr 9, b := .reg (wt 40) },
  .p64Pair g7 { op := .iadd, mdp := 0, d := .x 4, wd := true, s := .imm 3 } { op := .fmul, mdp := 0, d := .x 9, wd := true, s := .reg (wt 13) },
  .br { sp := false, pn := false, pg := 2 } (-6) 5,
  .ld { h := { sp := true, pn := false, pg := 7 }, size := .b64, reg := .x 10, base := wt 4, disp := 0x40, policy := 0, hint := 0 }]
theorem test_worked_words :
    [0x0000250090C2182C, 0x50D090760304009D, 0x287FFF4000080088, 0x0000081040AAB05C].map (decodeWord false) = worked.map .ok := rfl

/-- Granules 264 and 31 · 264 lie in pseudo-channel 0 (chapter 0); 0x40_0000 of device 5 is 0x1_0500_0040_0000 (chapter 16). -/
theorem test_channels_and_domain_addresses :
    pcOf 264 defaultMasks = 0 ∧ pcOf (31 * 264) defaultMasks = 0 ∧ remoteBase + 5 * 2 ^ 40 + 0x400000 = 0x1050000400000 ∧
      ({ s0 with ident := 5 } : State).homePa 0x1050000400000 = 0x400000 := by decide

/-- IDOT4 with every lane 127 and the addend 0x7FFF_7C90 (chapter 5): saturated, and not. -/
def tDot : Thread := thr [(4, 0x7F7F7F7F), (5, 0x7F7F7F7F), (6, 0x7FFF7C90)]
def dotOf (sat : Bool) : Option Word :=
  match exec (.idot4 { h := g7, w := .w32, sgn := true, sat := sat, dst := .x 20, a := wt 4, b := wt 5, c := wt 6 }) (st tDot) with
  | .next t => (tget? t.threads 2).map fun t => (regAt t 20).val
  | _ => none
theorem test_idot4_saturates_once : dotOf true = some 0x7FFFFFFF ∧ dotOf false = some 0x80007894 := by decide +kernel

/-- A load past the end of buffer 3, with `sp` and without (chapter 6). -/
def tPast : Thread := { thr [(4, 0x1000), (5, 0x300)] with pc := { index := 1, offset := 0x200 } }
def sPast : State :=
  { st tPast with clusters := [(0, { clu0 with bufs := [((3, 3), BitVec.ofNat 256 (0x10000 + 2 ^ 63 + 0x1040 * 2 ^ 64 + 3 * 2 ^ 108 + 3 * 2 ^ 116))] })] }
def pastOf (sp : Bool) : Option Thread :=
  match exec (.ld { h := { g7 with sp := sp }, size := .b64, reg := .x 10, base := wt 4, disp := 0x40, policy := 0, hint := 0 }) sPast with
  | .next t => tget? t.threads 2
  | _ => none
theorem test_load_past_the_end_poisons :
    (pastOf true).map (fun t => ((regAt t 10).val, (regAt t 10).poison, (regAt t 11).val, (regAt t 11).poison)) = some (0x03100080, true, 0, true) := by decide +kernel
theorem test_load_past_the_end_traps :
    (pastOf false).map (fun t => (t.tfcause.extractLsb' 0 16, t.tfpc.extractLsb' 0 40)) = some (0x0309, 0x200) := by decide +kernel

/-- The trap of chapter 15: FADD reads x13, which is empty, while the load into x8 has not been performed. -/
def tTrap : Thread :=
  let t := thr []
  { t with
    pc := { index := 1, offset := 0x410 }, prio := 4, regs := (t.regs.set 13 { full := false }).set 8 { full := false, pend := .other }
    accs := [{ id := 60, kind := .load .b32 { index := 5, offset := 0x10 } 0x10010 0x20010 [none, none, none, none] 0 defaultMasks, dst := [8], quantum := 0, off := 0x400, op := 0x60, fmt := 0 }] }
def trapped : Option Thread :=
  match exec (.fadd { h := g7, ty := .f32, rnd := .rn, fzo := false, clamp := false, dst := .x 12, a := fr 13, b := .reg (wt 14) }) (st tTrap) with
  | .next t => tget? t.threads 2
  | _ => none
theorem test_trap_leaves_its_frame :
    trapped.map (fun t => (t.tfcause, t.tfpc, t.tfaux, t.tfrqn)) = some (0x00040007, 0x10000000410, 13, 1) ∧
      trapped.map (fun t => t.replay.map replayWord) = some [0x0000000400600200] ∧ trapped.map (fun t => ((regAt t 8).held, t.pc.offset)) = some (true, 0x2000) := by decide +kernel

/-- The members of chapter 4 that are active: mix and value. -/
def actOf (i : Instr) : List Arrival :=
  [(0, 3), (1, 1), (2, 4), (3, 1), (4, 5), (6, 2), (7, 6)].map fun p =>
    { tid := p.1, mix := p.1, mate := 0, index := 1, off := 0x1000, num := 1, i := i, active := true, mask := 0xFF, maskTok := none, a := BitVec.ofNat 64 p.2, aTok := none
      c := if 2 < p.2 then 1 else 0, cTok := none, done := false }
def xtOf (i : Instr) : List (Option Nat) := (List.range 7).map fun k =>
  match xtResult false (actOf i) k ((actOf i).getD k default) with
  | some (.reg (.x 10) 1 v none, _) => some v
  | _ => none
def given (l : List Nat) : List (Option Nat) := l.map some
theorem test_scans_and_compresses :
    xtOf (.scan g7 .add false (.x 10) (wt 12) (wt 14)) = given [3, 4, 8, 9, 14, 16, 22] ∧
      xtOf (.scan g7 .add true (.x 10) (wt 12) (wt 14)) = given [0, 3, 4, 8, 9, 14, 16] ∧
      xtOf (.redc g7 .add (.x 10) (wt 12) (wt 14)) = given (List.replicate 7 22) ∧
      xtOf (.cmpr { h := g7, w64 := false, dst := .x 10, a := wt 12, mask := wt 14 } 1) = given [3, 4, 5, 6, 0, 0, 0] := by decide +kernel

/-- The traversal of chapter 12, from buffer 5: the root, record A and record B; TRAVI, and TRAV twice with N = 2. -/
def boxB (z : Byte) : List Byte := [16, 16, z, 48, 48, z]
def recB (z prim : Word) : List Byte :=
  [0xBF800000, 0xBF800000, z, 0x3F800000, 0xBF800000, z, 0, 0x3F800000, z, 0, prim, 1].flatMap fun w => leBytes 4 w.toNat
def bvhB : List Byte :=
  [0xC0800000, 0xC0800000, 0].flatMap (fun w => leBytes 4 w) ++ [124, 124, 124, 0] ++ boxB 40 ++ boxB 80 ++ List.replicate 36 0 ++
    leBytes 4 0x80000008 ++ leBytes 4 0x8000000B ++ List.replicate 56 0 ++ recB 0x40A00000 11 ++ recB 0x41200000 3
def rayZ : List Word := [0, 0, 0, 0, 0, 0x3F800000, 0, 0x42C80000]
def wordsAfter (o : Out) : List Word :=
  match o with
  | .next t =>
    match tget? t.threads 2 with
    | some t => match t.accs with
      | [{ kind := .trav _ vals, .. }] => vals.map (·.1)
      | _ => (t.regs.drop 64).take 32 |>.map (·.val)
    | none => []
  | _ => []
def travOn (ws : List Word) : List Word := wordsAfter (exec (.trav g7 (.x 12) (.x 64) (wt 10) (wt 4) 2) (sWin ws bvhB))
def begunZ : List Word := rayZ ++ [0x42C80000, 0, 0, 0, 0x02000000, 0x40000000] ++ List.replicate 18 0
def halfZ : List Word := (travOn begunZ).drop 2
theorem test_travi_begins :
    (wordsAfter (exec (.travi g7 0 (.x 64) (wt 12)) (st { tWin (rayZ ++ List.replicate 24 0) with regs := (tWin (rayZ ++ List.replicate 24 0)).regs.set 12 { val := 0x40000000 } }))).take 14 =
      begunZ.take 14 := by decide +kernel
theorem test_trav_visits_root_and_record :
    (travOn begunZ).take 8 = [2, 0, 0x40A00000, 11, 0x80004000, 1, 0x02100000, 0x8000000B] := by decide +kernel
theorem test_trav_ends_with_the_nearer_record :
    (travOn (rayZ ++ halfZ)).take 7 = [0, 0, 0x40A00000, 11, 0x80004000, 1, 0x00100000] := by decide +kernel

/-! ## Clauses about popped sources, LEA's range, and all arithmetic forms -/

/-- Port q0 gives the notices of jobs, and one waits. -/
def gJobs : CoreGroup := { grp0 with ports := grp0.ports.set 0 { binding := .jobs }, notices := [[9, 0x11, 0x22, 0x33]] }
def sJobs : State := { s0 with groups := [(9, gJobs)] }
def eJobs : Env := { e0 with g := gJobs }
/-- IADD x4, q0, #1 and IADD q1, q0, #1, both with a word to pop. -/
def iPop : IntB := { ia with a := ⟨.q 0, true⟩, b := .imm 1 }

theorem witness_ArithmeticWritesItsDestinations_popped :
    arithRuns sJobs eJobs (.iadd iPop) = true ∧ sJobs.env? sJobs.cur = some eJobs ∧ (taskIadd iPop).long = none ∧
      (∃ s1 v, readAll eJobs g7 sJobs (taskIadd iPop).srcs = .ok (s1, [v]) ∧ poppedAny (taskIadd iPop).srcs [v] = true) ∧
      ∀ vals, poppedAny (taskIadd ia).srcs vals = false := by
  refine ⟨by decide +kernel, rfl, rfl, ⟨_, _, rfl, rfl⟩, fun vals => ?_⟩
  match vals with
  | [] => rfl
  | [_] => rfl
  | _ :: _ :: _ => rfl

/-- LEA x4, [x2:x3], with the displacement. -/
def iLea (d : BitVec 18) : Instr := .lea g7 (.x 4) (wt 2) (.imm d)
/-- LEA into a port. -/
def iLeaQ (d : BitVec 18) : Instr := .lea g7 (.q 0) (wt 2) (.imm d)

/-- Offsets -1, 0, and 2^40 - 1 with a base of 0x10; at 2^40 with a base of 2^40 - 1. -/
def sTop : State := st (thr (rs0 ++ [(2, 0xFFFFFFFF), (3, 0x5FF)]))
theorem witness_EveryArithmeticFormCompletes :
    (∀ i ∈ instrsInteger ++ instrsFloat, ∃ h len k s1 vals r, arith i = some (h, len, k) ∧
      Ready (st tArith) (en tArith) h k.srcs (dstReqs k.dst) s1 vals ∧ AluClean s1 ((en tArith).refresh s1) k vals ∧
      k.f (aluInput s1 ((en tArith).refresh s1) 0 k vals) = r ∧ resultFor k.dst r = true) ∧ ((st tArith).ctx 3).fpxe = 0 ∧
    (∀ d ∈ [(-0x11 : BitVec 18), -0x10, 8], ∃ k v, arith (iLea d) = some (g7, 8, k) ∧ Ready s0 e0 g7 k.srcs (dstReqs k.dst) s0 [v] ∧ AluClean s0 (e0.refresh s0) k [v] ∧
      (aluInput s0 (e0.refresh s0) 0 k [v]).nat 0 2 = 0x50000000010) ∧
    (∀ d ∈ [(0 : BitVec 18), 1], ∃ k v e, e = en (thr (rs0 ++ [(2, 0xFFFFFFFF), (3, 0x5FF)])) ∧ arith (iLea d) = some (g7, 8, k) ∧ Ready sTop e g7 k.srcs (dstReqs k.dst) sTop [v] ∧
      (aluInput sTop (e.refresh sTop) 0 k [v]).nat 0 2 = 0x5FFFFFFFFFF) ∧
    (∃ k v, arith (iLeaQ (-0x11)) = some (g7, 8, k) ∧ Ready sRing eRing g7 k.srcs (dstReqs k.dst) sRing [v]) := by
  refine ⟨sampleRuns (by decide +kernel), rfl, ?_, ?_, ⟨_, vBase, rfl, ⟨rfl, rfl, rfl⟩, rfl, by decide, rfl, each1 rfl⟩⟩
  · intro d hd
    simp only [List.mem_cons, List.not_mem_nil, or_false] at hd
    rcases hd with rfl | rfl | rfl <;>
      exact ⟨_, vBase, rfl, ⟨enabled0, rfl, by decide, rfl, each1 rfl⟩, ⟨each1 (p := fun v : SrcVal => v.tok = none) (a := vBase) rfl, each0, fun h => by cases h⟩, by decide +kernel⟩
  · intro d hd
    simp only [List.mem_cons, List.not_mem_nil, or_false] at hd
    rcases hd with rfl | rfl <;> exact ⟨_, clean [0xFFFFFFFF, 0x5FF], _, rfl, rfl, ⟨⟨rfl, rfl, rfl⟩, rfl, by decide, rfl, each1 rfl⟩, by decide +kernel⟩

/-! ## Further conditions of the statements above -/

/-- No load of the ray instructions' threads is outstanding (R196). -/
theorem witness_RaysAwaitNoLoad (ws : List Word) (pas : List Nat) : awaitsLoad (eWin ws).t pas = false := rfl

/-- A thread parked in the MTSR of TMODE, of TRAPBASE, of FOGLIM and of PCSEL. -/
theorem witness_SystemRegistersAreWritten_parked :
    ∀ p ∈ [((0x000 : BitVec 12), 127), (0x002, 0x2001), (0x020, 5), (0x100, 0x37FF)],
      let t := { t0 with status := .parked (.mtsr p.1.toNat p.2) }
      (st t).env? 2 = some (en t) ∧ (en t).t.status = .parked (.mtsr p.1.toNat p.2) ∧ engineRuns (st t) (en t).cx = true := by
  intro p h
  simp only [List.mem_cons, List.not_mem_nil, or_false] at h
  rcases h with rfl | rfl | rfl | rfl <;> exact ⟨rfl, rfl, rfl⟩

/-- The last line of stack 7's last frame, marked; no line of the others meets an error. -/
def sAclMark : State := { sAcl with marks := [((8 * 24575 + 7) * 2 ^ 21 + 0x1FFFC0) / 64] }
theorem witness_RemoteRequestsAndIngress :
    (aclCheck sAclMark 7 0x1234 24575 0x1FFFC0 61 = none ∧ sAclMark.viewMarked .domain (((8 * 24575 + 7) * 2 ^ 21 + 0x1FFFC0) / 64) = true) ∧
    meetsError sAcl (((8 * 24575 + 7) * 2 ^ 21 + 0x1FFFC0) / 64) = false ∧ meetsError (sFab 0) (0x20000 / 64) = false ∧
    (∀ pa ∈ (hit0 0x10 16).pas, meetsError (accQp 16 kindRead).1 (pa / 64) = false) ∧ portCluster qp0.lport = 0 ∧
    parityLine 7 4095 ∉ (vltG pgQ).bad ∧
    (∀ c ∈ [copyOf blkDec], ((sCpy [copyOf blkDec] []).ctx c.ctx).kill = none) := by
  refine ⟨⟨by decide +kernel, by decide +kernel⟩, by decide +kernel, by decide +kernel, by decide +kernel, by decide, by decide, by decide⟩

/-- A bank of group 7 that waits for its retirement, with other counts below 256. -/
theorem witness_PendingRetirement :
    let p : PGroup := { pendingRetire := some 2, counts := [255, 0, 256, 0, 0] }
    ∀ k, k < 5 → k ≠ 2 → p.counts.getD k 0 < 256 := by decide

/-- Modes of Ethernet port 4, whose logical port 19 a queue pair uses: from 3 to 3, from 3 to 1; of port 0 from 0 to 1. -/
theorem witness_EthernetModes :
    let s := sQ (qpFly 0)
    hostAnswers s = true ∧ s.ethMode.getD 0 0 = 0 ∧ s.ethMode.getD 4 0 = (3 : BitVec 64).extractLsb' 0 2 ∧
      (s.ethMode.getD 4 0 ≠ 0 ∧ s.ethMode.getD 4 0 ≠ (1 : BitVec 64).extractLsb' 0 2) ∧ tget? s.qps 9 = some (qpFly 0) ∧ (qpFly 0).lport / 4 = 4 := by
  refine ⟨rfl, rfl, rfl, by decide, rfl, rfl⟩

/-- The stages of power-up; what the controller finds and what the package draws are the device's. -/
def sBoot (p : Power) (n : Nat) : State := { s0 with power := p, boot := n }
theorem witness_PowerUpAndPower :
    (∀ p ∈ [Power.off, .booting], ∀ n ∈ [0, 1, 2, 3, 4], (sBoot p n).power ≠ .ready ∧ (sBoot p n).power ≠ .recovery ∧ (sBoot p n).boot = n) ∧
    (sBoot .recovery 1).power = .recovery ∧
    (Config.packagePower s0.tick ≤ ({ s0 with plimit := Config.packagePower s0.tick } : State).plimit) := by
  refine ⟨?_, rfl, Nat.le_refl _⟩
  intro p hp n hn
  simp only [List.mem_cons, List.not_mem_nil, or_false] at hp hn
  rcases hp with rfl | rfl <;> exact ⟨Power.noConfusion, Power.noConfusion, rfl⟩

end Slice0Tests
end

/-! ## Tables and their keys -/

namespace Sys2Proof.Machine

open Sys2Proof

theorem tget?_tmap {α : Type} (f : Nat → α → α) (t : Tab α) (i : Nat) : tget? (tmap f t) i = (tget? t i).map (f i) := by
  induction t with
  | nil => rfl
  | cons p t ih =>
    obtain ⟨k, v⟩ := p
    simp only [tmap, List.map_cons, tget?] at ih ⊢
    split
    · subst_vars; rfl
    · exact ih

theorem tsorted_pairwise {α : Type} {t : Tab α} (h : tsorted t = true) : t.Pairwise (·.1 < ·.1) := by
  induction t using tsorted.induct with
  | case1 => exact .nil
  | case2 a => exact List.pairwise_singleton _ a
  | case3 a b t ih =>
    simp only [tsorted, Bool.and_eq_true, decide_eq_true_eq] at h
    have hbt := ih h.2
    refine List.pairwise_cons.2 ⟨fun c hc => ?_, hbt⟩
    rcases List.mem_cons.1 hc with rfl | hc
    · exact h.1
    · exact Nat.lt_trans h.1 (List.rel_of_pairwise_cons hbt hc)

theorem mem_of_tget? {α : Type} {t : Tab α} {i : Nat} {v : α} (h : tget? t i = some v) : (i, v) ∈ t := by
  induction t with
  | nil => simp at h
  | cons p t ih =>
    obtain ⟨k, w⟩ := p
    simp only [tget?] at h
    split at h
    · cases h; subst_vars; exact List.mem_cons_self ..
    · exact List.mem_cons_of_mem _ (ih h)

/-- Where the keys rise strictly, the entry under a key is the only one with that key. -/
theorem tget?_of_mem {α : Type} {t : Tab α} (ht : tsorted t = true) {i : Nat} {v : α} (h : (i, v) ∈ t) : tget? t i = some v := by
  have hp := tsorted_pairwise ht
  clear ht
  induction t with
  | nil => cases h
  | cons p t ih =>
    rcases List.mem_cons.1 h with rfl | h
    · simp [tget?]
    · have : p.1 < i := List.rel_of_pairwise_cons hp h
      rw [tget?, if_neg (Nat.ne_of_lt this)]
      exact ih h hp.tail

/-- The keys of the entries that a test selects, where the keys rise strictly. -/
theorem mem_keys_filter {α : Type} {t : Tab α} (ht : tsorted t = true) {i : Nat} {v : α} (h : tget? t i = some v) (p : Nat × α → Bool) :
    i ∈ (t.filter p).map (·.1) ↔ p (i, v) = true := by
  simp only [List.mem_map, List.mem_filter]
  constructor
  · rintro ⟨⟨k, w⟩, ⟨hm, hp⟩, rfl⟩
    have : w = v := Option.some.inj ((tget?_of_mem ht hm).symm.trans h)
    exact this ▸ hp
  · exact fun hp => ⟨(i, v), ⟨mem_of_tget? h, hp⟩, rfl⟩

theorem keys_filter_nodup {α : Type} {t : Tab α} (ht : tsorted t = true) (p : Nat × α → Bool) : ((t.filter p).map (·.1)).Nodup :=
  List.Pairwise.map _ (fun _ _ h => Nat.ne_of_lt h) ((tsorted_pairwise ht).filter p)

/-! ## Contexts: one is read after another is written, killed or unbound -/

theorem ctx_setCtx (s : State) (c : Nat) (v : Ctx) (x : Nat) : (s.setCtx c v).ctx x = if x = c then v else s.ctx x := by
  simp [State.ctx]

/-- A context once its kill has been noticed (R384). -/
def killNoticed (c : Ctx) (reason : Nat) (ws : List Word64) : Ctx :=
  if c.kill = none ∧ c.state ≠ .free ∧ c.state ≠ .lost then { c with kill := some (reason, ws) } else c

theorem killNoticed_vfs (c : Ctx) (reason ws) : (killNoticed c reason ws).vfs = c.vfs := by unfold killNoticed; split <;> rfl

/-- Noticing a kill changes the contexts at most. -/
theorem noticeKill_eq (s : State) (cx reason ws) : ∃ a, noticeKill s cx reason ws = { s with ctxs := a } := by
  unfold noticeKill
  dsimp only
  split
  · exact ⟨_, rfl⟩
  · split <;> exact ⟨_, rfl⟩

theorem ctx_noticeKill (s : State) (cx reason ws x) :
    (noticeKill s cx reason ws).ctx x = if x = cx then killNoticed (s.ctx cx) reason ws else s.ctx x := by
  have kept : s.ctx x = if x = cx then s.ctx cx else s.ctx x := by split <;> simp_all
  unfold noticeKill killNoticed
  dsimp only
  split
  case h_1 k hk => simp only [hk, reduceCtorEq, false_and, if_false]; exact kept
  case h_2 hk =>
    simp only [hk, true_and, Bool.or_eq_true, decide_eq_true_eq, ne_eq, ← not_or, ite_not]
    split
    · exact kept
    · exact ctx_setCtx ..

theorem ctx_unbindSlots (s : State) (cx p x) :
    (unbindSlots s cx p).ctx x = if x = cx then { s.ctx cx with vfs := (s.ctx cx).vfs.filter fun v => !p v } else s.ctx x :=
  ctx_setCtx ..

/-! ## The instructions of the host, of resets and of power, each by its meaning where a proof rewrites with it -/

theorem exec_tdiLock (n : Nat) (s : State) : exec (.tdiLock n) s = execTdiLock n s := rfl
theorem exec_powerUp (s : State) : exec .powerUp s = execPowerUp s := rfl
theorem exec_powerLimit (w : Nat) (s : State) : exec (.powerLimit w) s = execPowerLimit w s := rfl
theorem exec_islandFrequencyStep (island : Nat) (up : Bool) (s : State) : exec (.islandFrequencyStep island up) s = execIslandFrequencyStep island up s := rfl

/-! ## Sessions and interfaces (R399) -/

section
variable {s : State} {n : Nat} (hs : hostAnswers s = true)
include hs

theorem spdm_measurements : exec (.spdmRequest .getMeasurements) s =
    .next { s with replies := (5, if s.measured then 1 else 0, s.blocks.flatMap fun b => leBytes 48 b.toNat) :: s.replies } :=
  if_neg (by simp [hs])

theorem spdm_keyExchange : exec (.spdmRequest .keyExchange) s = .next { s with spdmPending := true } :=
  if_neg (by simp [hs])

theorem spdm_finish (x : BitVec 384) : exec (.spdmRequest (.finish x)) s =
    .next (if s.spdmPending then { s with spdm := some x, spdmPending := false } else s) := by
  refine (if_neg (by simp [hs])).trans ?_
  exact (apply_ite Host.Outcome.next ..).symm

theorem tdiLock_binds (h1 : 1 ≤ n) (h2 : n ≤ 64) (hu : (tgetD {} s.tdis n).st = .unlocked) :
    ∃ t : Tdi, exec (.tdiLock n) s = .next { s with tdis := tput s.tdis n t } ∧ t.st = .locked ∧ t.kwk = none ∧
      (t.stream = true → (s.tdis.filter fun x => x.2.stream && x.1 ≠ n).length < 16) := by
  have hg : (n = 0 || 64 < n || (tgetD {} s.tdis n).st ≠ .unlocked || !hostAnswers s) = false := by
    simp [hu, hs]; omega
  simp only [exec_tdiLock, execTdiLock, hg]
  cases Config.ideStream s.tick n with
  | none => exact ⟨_, rfl, rfl, rfl, fun h => absurd h Bool.false_ne_true⟩
  | some rs => exact ⟨_, rfl, rfl, rfl, fun h => of_decide_eq_true h⟩

theorem tdiEnterRun_streamed (hl : (tgetD {} s.tdis n).st = .locked) (hst : (tgetD {} s.tdis n).stream = true) :
    exec (.tdiEnterRun n) s =
      .next { s with tdis := tput s.tdis n { tgetD {} s.tdis n with st := .run, kwk := s.spdm.map fun m => wrapKey m n } } :=
  if_neg (by simp [hl, hst, hs])

end

theorem tdiEnterRun_unchanged {s : State} {n : Nat} (h : (tgetD {} s.tdis n).st ≠ .locked ∨ (tgetD {} s.tdis n).stream = false) :
    exec (.tdiEnterRun n) s = .next s :=
  if_pos (by rcases h with h | h <;> simp [h])

theorem tdiLeaveRun_unchanged {s : State} {n : Nat} (h : (tgetD {} s.tdis n).st ≠ .run) : exec (.tdiLeaveRun n) s = .next s :=
  if_pos h

theorem ideIntegrityFail_unchanged {s : State} {n : Nat} (h : (tgetD {} s.tdis n).stream = false) :
    exec (.ideIntegrityFail n) s = .next s :=
  if_neg (by simp [h])

theorem tdiLeaveRun_runs {s : State} {n : Nat} (h : (tgetD {} s.tdis n).st = .run) :
    exec (.tdiLeaveRun n) s = .next (leaveRun s n .unlocked) :=
  if_neg fun hn => hn h

theorem ideIntegrityFail_streamed {s : State} {n : Nat} (h : (tgetD {} s.tdis n).stream = true) :
    exec (.ideIntegrityFail n) s = .next (leaveRun s n .error) :=
  if_pos h

/-- An interface that is not in RUN changes its state and nothing else. -/
theorem leaveRun_outside {s : State} {n : Nat} (h : (tgetD {} s.tdis n).st ≠ .run) (st : TdiState) :
    leaveRun s n st = setTdi s n { st := st } := by
  simp [leaveRun, h]

/-- An interface in RUN empties its key slots; with no decrypt copy started, no copy fails. -/
theorem leaveRun_running {s : State} {n : Nat} (h : (tgetD {} s.tdis n).st = .run)
    (hc : ∀ u ∈ s.clusters, ∀ c ∈ u.2.copies, c.started = false ∨ c.blk.dec = false) (st : TdiState) :
    leaveRun s n st = { s with tdis := tput s.tdis n { st := st }, slots := s.slots.filter fun k => k.2.tdi ≠ n } := by
  have hit : (s.clusters.flatMap fun u => (u.2.copies.filter fun c => c.started && c.blk.dec && ((tget? s.slots c.blk.slot).map (·.tdi)) = some n &&
      (s.ctx c.ctx).kill.isNone).map fun c => (u.1, c)) = [] := by
    simp only [List.flatMap_eq_nil_iff, List.map_eq_nil_iff, List.filter_eq_nil_iff]
    intro u hu c hcu
    rcases hc u hu c hcu with h | h <;> simp [h]
  simp only [leaveRun, hit, h, setTdi]
  rfl

/-! ## Resets and the loss of the rails (R22, R391, R396) -/

theorem mem_hostMemory (m : List Host.Cell) (c : Host.Cell) : c ∈ hostMemory m ↔ c ∈ m ∧ isHost c.1 = true := by
  simp [hostMemory]

/-- A reset of the device keeps nothing of a cluster but the states of its vault's groups. -/
theorem resetDevice_cluster (s : State) (mem power) (c : Nat) :
    ((resetDevice s mem power).cluster c).tlb = [] ∧ ((resetDevice s mem power).cluster c).copies = [] ∧
      ((resetDevice s mem power).vault c).bytes = [] ∧ ((resetDevice s mem power).vault c).groups.map (·.st) = (s.vault c).groups.map (·.st) := by
  simp only [State.vault, State.cluster, tgetD, resetDevice, tget?_tmap]
  cases tget? s.clusters c with
  | none => exact ⟨rfl, rfl, rfl, rfl⟩
  | some u => exact ⟨rfl, rfl, rfl, by simp [Function.comp_def]⟩

theorem pfFlr_resets {s : State} (h : s.power = .ready) :
    exec .pfFlr s = .next { resetDevice s s.mem .ready with marks := s.marks, badLines := s.badLines, hashes := s.hashes } :=
  if_neg fun hn => hn h

/-- What a Conventional Reset leaves (R396): a reset device that boots with the staged firmware; what DRAM then holds is the reset's. -/
theorem conventionalReset_boots {s : State} (h : s.power ≠ .off) :
    ∃ mem, exec .conventionalReset s = .next { resetDevice s mem .booting with
      firmware := s.staged.getD s.firmware, staged := none, measured := false, blocks := [], boot := 0 } :=
  ⟨_, if_neg h⟩

/-- The contexts bound through a virtual function. -/
def boundThrough (s : State) (vf : Nat) : List Nat := (s.ctxs.filter fun c => c.2.vfs.any fun v => v.1 = vf).map (·.1)

/-- A context is killed and unbound from a virtual function. -/
def dropFromVf (vf : Nat) (s : State) (c : Nat) : State := unbindSlots (noticeKill s c 7 []) c fun v => v.1 = vf

/-- What that leaves of the context. -/
def droppedFromVf (vf : Nat) (c : Ctx) : Ctx := { killNoticed c 7 [] with vfs := c.vfs.filter fun v => !decide (v.1 = vf) }

theorem dropFromVf_eq (vf : Nat) (s : State) (c : Nat) : ∃ a b, dropFromVf vf s c = { s with ctxs := a, vfSlots := b } := by
  obtain ⟨a, h⟩ := noticeKill_eq s c 7 []
  exact ⟨_, _, by rw [dropFromVf, h]; rfl⟩

theorem ctx_dropFromVf (vf : Nat) (s : State) (c x : Nat) :
    (dropFromVf vf s c).ctx x = if x = c then droppedFromVf vf (s.ctx c) else s.ctx x := by
  rw [dropFromVf, ctx_unbindSlots, ctx_noticeKill]
  split
  · rw [if_pos rfl, killNoticed_vfs]; rfl
  · rw [ctx_noticeKill, if_neg ‹_›]

theorem foldl_dropFromVf_eq (vf : Nat) (l : List Nat) (s : State) :
    ∃ a b, l.foldl (dropFromVf vf) s = { s with ctxs := a, vfSlots := b } := by
  induction l generalizing s with
  | nil => exact ⟨_, _, rfl⟩
  | cons c l ih =>
    obtain ⟨a, b, h⟩ := dropFromVf_eq vf s c
    obtain ⟨a', b', h'⟩ := ih (dropFromVf vf s c)
    exact ⟨a', b', by rw [List.foldl_cons, h', h]⟩

theorem ctx_foldl_dropFromVf (vf : Nat) {l : List Nat} (hl : l.Nodup) (s : State) (x : Nat) :
    (l.foldl (dropFromVf vf) s).ctx x = if x ∈ l then droppedFromVf vf (s.ctx x) else s.ctx x := by
  induction l generalizing s with
  | nil => rfl
  | cons c l ih =>
    obtain ⟨hc, hl⟩ := List.nodup_cons.1 hl
    rw [List.foldl_cons, ih hl, ctx_dropFromVf]
    by_cases hx : x = c
    · subst hx; simp [hc]
    · simp [hx]

theorem vfFlr_drops {s : State} {vf : Nat} (h1 : 1 ≤ vf) (h2 : vf ≤ 64) (hs : hostAnswers s = true) :
    exec (.vfFlr vf) s = .next (leaveRun ((boundThrough s vf).foldl (dropFromVf vf) s) vf .unlocked) := by
  exact if_neg (by simp [hs]; omega)

theorem mem_boundThrough {s : State} (ht : tsorted s.ctxs = true) (vf : Nat) {cx : Nat} {c : Ctx} (hc : tget? s.ctxs cx = some c) :
    cx ∈ boundThrough s vf ↔ ∃ v ∈ c.vfs, v.1 = vf := by
  rw [boundThrough, mem_keys_filter ht hc]; simp

/-- What the reset of a virtual function leaves of a context (R396). -/
theorem ctx_vfFlr {s : State} (ht : tsorted s.ctxs = true) (vf : Nat) {cx : Nat} {c : Ctx} (hc : tget? s.ctxs cx = some c) :
    ((boundThrough s vf).foldl (dropFromVf vf) s).ctx cx = if cx ∈ boundThrough s vf then droppedFromVf vf c else c := by
  have hn : (boundThrough s vf).Nodup := keys_filter_nodup ht _
  have hcx : s.ctx cx = c := by rw [State.ctx, tgetD, hc]; rfl
  rw [ctx_foldl_dropFromVf vf hn, hcx]

theorem vfFlr_kills_and_unbinds {s : State} {vf : Nat} (h1 : 1 ≤ vf) (h2 : vf ≤ 64) (hs : hostAnswers s = true)
    (hr : (tgetD {} s.tdis vf).st ≠ .run) (ht : tsorted s.ctxs = true) :
    ∃ t, exec (.vfFlr vf) s = .next t ∧ t.mem = s.mem ∧ t.threads = s.threads ∧ (tgetD {} t.tdis vf).st = .unlocked ∧
      ∀ cx c, tget? s.ctxs cx = some c →
        ((∃ k, (vf, k) ∈ c.vfs) → (t.ctx cx).vfs = c.vfs.filter (fun v => !(v.1 = vf)) ∧
          (c.kill = none → c.state ≠ .free → c.state ≠ .lost → (t.ctx cx).kill = some (7, []))) ∧
        ((∀ v ∈ c.vfs, v.1 ≠ vf) → t.ctx cx = c) := by
  obtain ⟨a, b, hf⟩ := foldl_dropFromVf_eq vf (boundThrough s vf) s
  have hx := vfFlr_drops h1 h2 hs
  rw [leaveRun_outside (by rw [hf]; exact hr)] at hx
  refine ⟨_, hx, by rw [hf]; rfl, by rw [hf]; rfl, by simp [setTdi], fun cx c hc => ?_⟩
  have hctx := ctx_vfFlr ht vf hc
  have hm := mem_boundThrough ht vf hc
  constructor
  · rintro ⟨k, hk⟩
    rw [if_pos (hm.2 ⟨_, hk, rfl⟩)] at hctx
    refine ⟨congrArg Ctx.vfs hctx, fun hkill hfree hlost => (congrArg Ctx.kill hctx).trans ?_⟩
    simp [droppedFromVf, killNoticed, hkill, hfree, hlost]
  · intro hno
    rwa [if_neg fun hx => have ⟨v, hv, he⟩ := hm.1 hx; hno v hv he] at hctx

/-! ## Power and firmware (R399, R407, R408) -/

/-- The built-in test changes vaults only (R227). -/
theorem builtInTest_eq (s : State) : ∃ u, builtInTest s = { s with clusters := u } := by
  unfold builtInTest
  generalize Config.hardBanks s.tick = l
  induction l generalizing s with
  | nil => exact ⟨_, rfl⟩
  | cons x l ih =>
    rw [List.foldl_cons]
    split
    · obtain ⟨u, h⟩ := ih (s.setVault x.1 _)
      exact ⟨u, h.trans rfl⟩
    · exact ih s

theorem powerUp_unchanged {s : State} (h : s.power = .ready ∨ s.power = .recovery) : exec .powerUp s = .next s :=
  if_pos (by rcases h with h | h <;> simp [h])

section
variable {s : State} (h1 : s.power ≠ .ready) (h2 : s.power ≠ .recovery)
include h1 h2

/-- A device that is neither ready nor in recovery takes the step of the boot order that is due. -/
theorem powerUp_notDone : ¬ (s.power = .ready || s.power = .recovery) = true := by simp [h1, h2]

theorem powerUp_rails (hb : s.boot = 0) :
    ∃ t, exec .powerUp s = .next t ∧ t = { s with mem := t.mem, power := .booting, boot := 1 } ∧ (s.power ≠ .off → t.mem = s.mem) := by
  simp only [exec_powerUp, execPowerUp, if_neg (powerUp_notDone h1 h2), hb]
  exact ⟨_, rfl, rfl, fun h => if_neg h⟩

theorem powerUp_verifies (hb : s.boot = 1) : exec .powerUp s = .next (if imageVerified s s.firmware then
    { s with measured := true, blocks := (List.range 4).map (Config.measurement s.firmware), boot := 2 }
    else { s with power := .recovery, measured := false, blocks := [] }) := by
  refine (if_neg (powerUp_notDone h1 h2)).trans ?_
  rw [hb]
  exact (apply_ite Host.Outcome.next ..).symm

theorem powerUp_stacks (hb : s.boot = 2) : exec .powerUp s = .next { s with boot := 3 } :=
  (if_neg (powerUp_notDone h1 h2)).trans (by rw [hb]; rfl)

theorem powerUp_tests (hb : s.boot = 3) : ∃ t, exec .powerUp s = .next t ∧ t = { s with clusters := t.clusters, boot := 4 } := by
  obtain ⟨u, hu⟩ := builtInTest_eq s
  exact ⟨{ s with clusters := u, boot := 4 }, (if_neg (powerUp_notDone h1 h2)).trans (by rw [hb, hu]; rfl), rfl⟩

theorem powerUp_links (hb : 4 ≤ s.boot) : exec .powerUp s = .next { s with power := .ready, boot := 5 } := by
  obtain ⟨k, hk⟩ : ∃ k, s.boot = k + 4 := ⟨s.boot - 4, by omega⟩
  exact (if_neg (powerUp_notDone h1 h2)).trans (by rw [hk]; rfl)

end

theorem powerLimit_inRange (s : State) (w : Nat) :
    exec (.powerLimit w) s = .next (if s.power = .ready ∧ 1200 ≤ w ∧ w ≤ 3200 then { s with plimit := w } else s) := by
  simp only [exec_powerLimit, execPowerLimit, Bool.and_eq_true, decide_eq_true_eq, and_assoc]
  exact (apply_ite Host.Outcome.next ..).symm

theorem firmwareUpdate_stages {s : State} (h : s.power ≠ .off) (image : Nat) :
    exec (.firmwareUpdate image) s = .next { s with staged := some image } :=
  if_neg h

/-! ## Frequencies (R407) -/

theorem islandStep_fixed {s : State} {island : Nat} (h : islandRange island = none) (up : Bool) :
    exec (.islandFrequencyStep island up) s = .next s := by
  simp only [exec_islandFrequencyStep, execIslandFrequencyStep, h, ite_self]

/-- Whether a step waits: the device is not ready, the package is above its limit, or a compute island stands above its least. -/
def islandHeld (s : State) (island : Nat) (up : Bool) : Bool :=
  s.power ≠ .ready || (up && s.plimit < Config.packagePower s.tick) ||
    (!up && 16 ≤ island % 32 && island % 32 ≤ 24 && !(List.range 128).all fun j => 16 ≤ j % 32 || islandMHz s j = 1000)

/-- Where a step leads from a frequency. -/
def islandNext (lo hi f : Nat) (up : Bool) : Nat := if up then min hi (f + 100) else max lo (f - 100)

section
variable {s : State} {island lo hi : Nat} (hi128 : island < 128) (hr : islandRange island = some (lo, hi))
include hi128 hr

theorem islandStep_eq (up : Bool) : exec (.islandFrequencyStep island up) s =
    if islandHeld s island up then .next s
    else .next { s with freq := if islandNext lo hi (islandMHz s island) up = hi then terase s.freq island
                                else tput s.freq island (islandNext lo hi (islandMHz s island) up) } := by
  simp only [exec_islandFrequencyStep, execIslandFrequencyStep, if_neg (Nat.not_le.2 hi128), hr]
  rfl

/-- No frequency rises while the package is above its limit (log entry 93). -/
theorem islandStep_waitsForPower (hl : s.plimit < Config.packagePower s.tick) : exec (.islandFrequencyStep island true) s = .next s := by
  rw [islandStep_eq hi128 hr, if_pos (by simp [islandHeld, hl])]

theorem islandStep_waitsForCompute (h16 : 16 ≤ island % 32) (h24 : island % 32 ≤ 24)
    (hj : ∃ j, j < 128 ∧ j % 32 < 16 ∧ (tget? s.freq j).getD 3000 ≠ 1000) : exec (.islandFrequencyStep island false) s = .next s := by
  obtain ⟨j, hj, hj16, hf⟩ := hj
  have hlow : ((List.range 128).all fun j => 16 ≤ j % 32 || islandMHz s j = 1000) = false := by
    rw [List.all_eq_false]
    exact ⟨j, List.mem_range.2 hj, by simpa [islandMHz, islandRange, hj16] using hf⟩
  rw [islandStep_eq hi128 hr, if_pos (by simp [islandHeld, h16, h24, hlow])]

variable (hp : s.power = .ready)
include hp

theorem islandStep_up (hl : Config.packagePower s.tick ≤ s.plimit) (hf : islandMHz s island + 100 < hi) :
    exec (.islandFrequencyStep island true) s = .next { s with freq := tput s.freq island (islandMHz s island + 100) } := by
  have hn : islandNext lo hi (islandMHz s island) true = islandMHz s island + 100 := Nat.min_eq_right (Nat.le_of_lt hf)
  rw [islandStep_eq hi128 hr, if_neg (by simp [islandHeld, hp, Nat.not_lt.2 hl]), hn, if_neg (Nat.ne_of_lt hf)]

theorem islandStep_toTop (hl : Config.packagePower s.tick ≤ s.plimit) (hf : hi ≤ islandMHz s island + 100) :
    exec (.islandFrequencyStep island true) s = .next { s with freq := terase s.freq island } := by
  have hn : islandNext lo hi (islandMHz s island) true = hi := Nat.min_eq_left hf
  rw [islandStep_eq hi128 hr, if_neg (by simp [islandHeld, hp, Nat.not_lt.2 hl]), if_pos hn]

theorem islandStep_down (h16 : island % 32 < 16) (hlo : lo + 100 ≤ islandMHz s island) (hhi : islandMHz s island ≤ hi) :
    exec (.islandFrequencyStep island false) s = .next { s with freq := tput s.freq island (islandMHz s island - 100) } := by
  have hn : islandNext lo hi (islandMHz s island) false = islandMHz s island - 100 := Nat.max_eq_right (by omega)
  rw [islandStep_eq hi128 hr, if_neg (by simp [islandHeld, hp, Nat.not_le.2 h16]), hn, if_neg (by omega)]

end

/-- Settles O60: each clause is what the instruction it names does, as the lemmas above say. -/
theorem secureInterfacesAndResetsKeepWhatTheyMust : Obligations.SecureInterfacesAndResetsKeepWhatTheyMust := by
  refine ⟨fun s n t0 ht0 hs => ?_, fun s => ?_⟩
  · subst ht0
    refine ⟨spdm_measurements hs, spdm_keyExchange hs, fun x => ⟨fun h => ?_, fun h => ?_⟩, tdiLock_binds hs,
      fun hl => ⟨fun hst => ⟨_, tdiEnterRun_streamed hs hl hst, rfl, fun h => by rw [h]; rfl, fun h => by rwa [Option.isSome_map]⟩,
        fun hst => tdiEnterRun_unchanged (.inr hst)⟩,
      fun hl => tdiEnterRun_unchanged (.inl hl), tdiLeaveRun_unchanged, fun hr hc => ⟨?_, fun hst => ?_⟩, fun hr hst => ?_, ideIntegrityFail_unchanged⟩
    · rw [spdm_finish hs, if_pos h]
    · rw [spdm_finish hs, h]; rfl
    · rw [tdiLeaveRun_runs hr, leaveRun_running hr hc]
    · rw [ideIntegrityFail_streamed hst, leaveRun_running hr hc]
    · rw [ideIntegrityFail_streamed hst, leaveRun_outside hr]; rfl
  · refine ⟨rfl, ⟨_, rfl, rfl, mem_hostMemory s.mem⟩, fun hp => ?_, fun hp => ?_, fun vf => vfFlr_kills_and_unbinds, powerUp_unchanged,
      fun h1 h2 => ⟨powerUp_rails h1 h2, fun hb => ⟨fun hv => ?_, fun hv => ?_⟩, powerUp_stacks h1 h2, powerUp_tests h1 h2, powerUp_links h1 h2⟩,
      powerLimit_inRange s, fun image hp => firmwareUpdate_stages hp image, fun island hi hp => ⟨islandStep_fixed, fun lo top hr => ⟨?_, ?_, ?_, ?_, ?_⟩⟩⟩
    · exact ⟨_, pfFlr_resets hp, rfl, rfl, rfl, rfl, rfl, rfl, rfl, rfl, rfl, rfl, rfl, rfl, rfl, rfl, rfl, resetDevice_cluster s s.mem .ready⟩
    · obtain ⟨mem, h⟩ := conventionalReset_boots hp
      exact ⟨_, h, rfl, rfl, rfl, rfl, rfl, rfl, rfl, rfl, rfl, rfl, rfl⟩
    · rw [powerUp_verifies h1 h2 hb, imageVerified, hv]; rfl
    · rw [powerUp_verifies h1 h2 hb, imageVerified, hv]; rfl
    · exact islandStep_waitsForPower hi hr
    · exact islandStep_up hi hr hp
    · exact islandStep_toTop hi hr hp
    · exact islandStep_down hi hr hp
    · exact islandStep_waitsForCompute hi hr

end Sys2Proof.Machine
